-- ==== Sys2Proof/Word.lean ====
section
/-! DEFINITION. The word types of Palind and the plainest helpers over them (R4, R58, R74). -/

namespace Sys2Proof

/-- One byte of memory. -/
abbrev Byte := BitVec 8

/-- One 32-bit lane word (R43). -/
abbrev Word := BitVec 32

/-- One 64-bit value: a g copy, an address, an instruction word (R43, R58). -/
abbrev DWord := BitVec 64

/-- One bit per lane of a course (R18). -/
abbrev Mask := BitVec 32

/-- One value per lane of a course (R18). -/
abbrev Lanes (α : Type) := Vector α 32

end Sys2Proof
end

