-- ==== Sys2Proof/Config.lean ====
section
/-! DEFINITION. What the spec leaves open: free values and the constants of one implementation, each an opaque constant
without a body, so that nothing can be proved of its value. -/

namespace Sys2Proof.Config

/-- The free values: one for each number the step draws. -/
opaque freeValue : Nat → BitVec 64

/-- The L2 slice, 0 to 47, the RDC slice, 0 to 15, and the set of a slice that hold a line, and the place among a mask's ways of
the line that a fill takes the place of (R434): no rule gives them (notes/assumptions/69.md). -/
opaque l2Slice : Nat → Fin 48
opaque rdcSlice : Nat → Fin 16
opaque cacheSet : Nat → Nat
opaque cacheVictim : Nat → Nat

/-- The class-specific bytes of error record number n of the run, where no rule states them (notes/assumptions/54.md). -/
opaque freeClass : Nat → BitVec 128

/-- What a REG_POISON record gives as operand field and operand code for a predicate or a special register: R53 and R445 list
neither (notes/assumptions/62.md). -/
opaque regField : Nat → BitVec 32

/-- Whether a physical address of a device lies in the far tier: the spec does not give the physical address map. -/
opaque farTier : Nat → Nat → Bool

/-- The near die whose memory holds a physical address of a device, none for the far tier: the spec does not give the physical
address map. -/
opaque nearHome : Nat → Nat → Option Nat

/-- The physical quad, 0 to 16, that a near die's defect map disables (R8, R125). -/
opaque disabledQuad : Nat → Fin 17

/-- The physical quads that a near die's defect map gives the logical quads 0 to 15, where it lists the 16 enabled ones (R8). -/
opaque quadMap : Nat → List (Fin 17)

/-- The sixteen enabled quads of a near die in the order of the logical ones: each enabled quad once. A list of anything else is no
defect map, and the enabled quads in rising order stand for it. -/
def physQuads (die : Nat) : List (Fin 17) :=
  let on := (List.finRange 17).filter (· != disabledQuad die)
  if (quadMap die).isPerm on then quadMap die else on

/-- The physical core, quad * 4 + core of 17 quads, that a near die's defect map gives a logical core (R8). -/
def physCore (die core : Nat) : Nat := ((physQuads die).getD (core / 4) 0).val * 4 + core % 4

/-- SHA3-512 of a byte string, as its 64 bytes (R470, R472). -/
opaque sha3 : List (BitVec 8) → List (BitVec 8)

/-- SHA3-512 of a die's identity public key: N0-N3, F0, F1, H, A (R472). -/
opaque identityHash : Nat → List (BitVec 8)

/-- The 4,627-byte signature of a byte string under the attestation key (R472). -/
opaque sign : List (BitVec 8) → List (BitVec 8)

/-- Whether a signature over a message verifies under the certified identity key of a die (R471): N0-N3, F0, F1, H, A. -/
opaque verifies : Nat → List (BitVec 8) → List (BitVec 8) → Bool

/-- ML-KEM-1024 decapsulation of a ciphertext under the key pair of a boot, named by its encapsulation key: the shared secret; none
where it fails (R463, R473). -/
opaque decapsulate : List (BitVec 8) → List (BitVec 8) → Option (List (BitVec 8))

/-- The answer to a PLDM base or platform control message: no rule gives it (R478, notes/assumptions/70.md). -/
opaque pldmReply : List (BitVec 8) → List (BitVec 8)

/-- A wrapped key opened under the key-encryption key; none when its check fails (R463, R473). -/
opaque unwrap : List (BitVec 8) → List (BitVec 8) → Option (List (BitVec 8))

/-- What a line written under one key reads as under another (R433, R473): the old key, the new key, the line's number and
its bytes. -/
opaque rekey : List (BitVec 8) → List (BitVec 8) → Nat → List (BitVec 8) → List (BitVec 8)

/-- The certificate chains the module serves (R478). -/
opaque certificates : List (BitVec 8)

end Sys2Proof.Config
end

