-- ==== Sys2Proof/Machine/Tab.lean ====
section
/-! DEFINITION. Plain containers of the state: fixed vectors read and written by position, sorted finite tables keyed by
a number, and lane masks. Every operation is structural, so that the kernel evaluates it. -/

namespace Sys2Proof.Machine

/-! ### Vectors -/

/-- The element at position i, or d where the vector has no such position. -/
def vget {α : Type} {n : Nat} (x : Vector α n) (d : α) (i : Nat) : α := x.toArray.toList.getD i d

/-- The vector with position i replaced; unchanged where it has no such position. -/
def vset {α : Type} {n : Nat} (x : Vector α n) (i : Nat) (a : α) : Vector α n :=
  ⟨⟨x.toArray.toList.set i a⟩, by simp⟩

def vmap {α β : Type} {n : Nat} (f : α → β) (x : Vector α n) : Vector β n :=
  ⟨⟨x.toArray.toList.map f⟩, by simp⟩

def vzip {α β γ : Type} {n : Nat} (f : α → β → γ) (x : Vector α n) (y : Vector β n) : Vector γ n :=
  ⟨⟨List.zipWith f x.toArray.toList y.toArray.toList⟩, by simp⟩

/-- The vector whose element at i is f i. -/
def vof {α : Type} (n : Nat) (f : Nat → α) : Vector α n := ⟨⟨(List.range n).map f⟩, by simp⟩

def vconst {α : Type} (n : Nat) (a : α) : Vector α n := ⟨⟨List.replicate n a⟩, by simp⟩

/-- Every element, mapped with its position. -/
def vmapIdx {α β : Type} {n : Nat} (f : Nat → α → β) (x : Vector α n) : Vector β n :=
  vzip f (vof n id) x

def vlist {α : Type} {n : Nat} (x : Vector α n) : List α := x.toArray.toList

/-- A new element in front; the last one falls out. -/
def vpush {α : Type} {n : Nat} (a : α) (x : Vector α n) : Vector α n :=
  ⟨⟨(a :: x.toArray.toList).take n⟩, by simp⟩

/-! ### Lane masks -/

/-- The lanes of a mask, lowest first. -/
def lanesOf (m : Mask) : List Nat := (List.range 32).filter (fun l => m.getLsbD l)

/-- The mask of the lanes where f holds. -/
def maskOf (f : Nat → Bool) : Mask :=
  BitVec.ofNat 32 ((List.range 32).foldr (fun l acc => 2 * acc + (if f l then 1 else 0)) 0)

/-- The mask with the one lane l. -/
def laneBit (l : Nat) : Mask := BitVec.ofNat 32 (2 ^ l)

/-- The lowest lane of a mask. -/
def lowLane (m : Mask) : Option Nat := (lanesOf m).head?

/-! ### Sorted tables -/

/-- A finite table keyed by numbers: keys strictly rising. -/
abbrev Tab (α : Type) := List (Nat × α)

def Tab.find {α : Type} : Tab α → Nat → Option α
  | [], _ => none
  | (k, a) :: t, i => if k = i then some a else Tab.find t i

def Tab.getD {α : Type} (t : Tab α) (d : α) (i : Nat) : α := (Tab.find t i).getD d

def Tab.put {α : Type} : Tab α → Nat → α → Tab α
  | [], i, a => [(i, a)]
  | (k, b) :: t, i, a =>
    if i < k then (i, a) :: (k, b) :: t
    else if k = i then (i, a) :: t
    else (k, b) :: Tab.put t i a

def Tab.del {α : Type} (t : Tab α) (i : Nat) : Tab α := List.filter (fun e => e.1 != i) t

/-- The entry of i changed by f, where there is one. -/
def Tab.upd {α : Type} (t : Tab α) (i : Nat) (f : α → α) : Tab α :=
  match Tab.find t i with
  | some a => Tab.put t i (f a)
  | none => t

def Tab.vals {α : Type} (t : Tab α) : List α := List.map (fun e => e.2) t

/-- Keys strictly rising. -/
def Tab.wf {α : Type} : Tab α → Bool
  | [] => true
  | [_] => true
  | (a, _) :: (b, y) :: t => decide (a < b) && Tab.wf ((b, y) :: t)

/-! ### Numbers and bytes -/

/-- The n bytes of a number, lowest first (R4). -/
def toBytes : Nat → Nat → List Byte
  | 0, _ => []
  | n + 1, x => BitVec.ofNat 8 x :: toBytes n (x / 256)

/-- The number whose bytes, lowest first, are given (R4). -/
def ofBytes : List Byte → Nat
  | [] => 0
  | b :: t => b.toNat + 256 * ofBytes t

/-- len bits of a number from bit lo. -/
def bitsOf (x lo len : Nat) : Nat := x / 2 ^ lo % 2 ^ len

/-- Bit i of a number. -/
def bitOf (x i : Nat) : Bool := x / 2 ^ i % 2 == 1

/-- The signed reading of the low n bits. -/
def sgn (n x : Nat) : Int :=
  let y := x % 2 ^ n
  if 2 * y < 2 ^ n then (y : Int) else (y : Int) - 2 ^ n

/-- The low n bits of an integer. -/
def wrap (n : Nat) (x : Int) : Nat := (x % 2 ^ n).toNat

/-- Number of bits needed for x: the position above its highest set bit. -/
def bitLen (x : Nat) : Nat := if x = 0 then 0 else Nat.log2 x + 1

end Sys2Proof.Machine
end

