-- ==== Sys2Proof/Syntax.lean ====
section
/-! DEFINITION. The syntax of the machine's steps: the word forms of Palind (R58, R59, R63, R76), the arguments of
the events of the opcode table, and Instr, one constructor per row of spec/opcode_table.json. Operand fields stay the
8-bit operand codes of R68, because REP steps them as numbers (R76). Reserved fields stay in the syntax, because a
word with a reserved field set is a word that traps (R62) and the well-formedness check refuses it. -/

namespace Sys2Proof

/-- The F-form, the general single word (R59). -/
structure FWord where
  pn   : Bool
  pred : BitVec 3
  sa   : BitVec 8
  sb   : BitVec 8
  sc   : BitVec 8
  d    : BitVec 8
  t    : BitVec 3
  mod  : BitVec 15
  deriving DecidableEq, Repr

/-- The I-form of MOVI, MOVHI and FMOVI (R59). -/
structure IWord where
  pn   : Bool
  pred : BitVec 3
  imm  : Word
  d    : BitVec 8
  ty   : BitVec 4
  rsv  : BitVec 6
  deriving DecidableEq, Repr

/-- The M-form of the memory instructions (R59). -/
structure MWord where
  pn    : Bool
  pred  : BitVec 3
  base  : BitVec 8
  data  : BitVec 8
  d     : BitVec 8
  off   : BitVec 16
  t     : BitVec 2
  size  : BitVec 4
  amode : BitVec 2
  hint  : BitVec 2
  deriving DecidableEq, Repr

/-- The B-form of BRA, CALL and LOOP (R59). -/
structure BWord where
  pn   : Bool
  pred : BitVec 3
  val  : BitVec 8
  woff : Word
  join : BitVec 6
  bop  : BitVec 4
  deriving DecidableEq, Repr

/-- The REP prefix (R76). -/
structure RepWord where
  pn    : Bool
  pred  : BitVec 3
  count : BitVec 8
  stepA : BitVec 4
  stepB : BitVec 4
  stepC : BitVec 4
  stepD : BitVec 4
  rsv   : BitVec 26
  deriving DecidableEq, Repr

/-- One slot of a pair word (R63). -/
structure Slot where
  op7  : BitVec 7
  pred : BitVec 3
  sa   : BitVec 8
  sb   : BitVec 8
  t    : BitVec 2
  mod3 : BitVec 3
  deriving DecidableEq, Repr

/-- The traffic a flit carries (R228). -/
inductive FlitKind where
  | read | write | atomic | writeMessage
  /-- the answer to a request -/
  | response
  | dataLink | unlisted
  deriving DecidableEq, Repr

/-- A remote register store as another package sends it: the sender's name, core and stamp, its number and its target
(R246, R248, R437). -/
structure RstvMessage where
  sender : DWord
  core   : Nat
  asid   : Nat
  groups : List Nat
  seq    : Nat
  target : DWord
  reg    : BitVec 6
  data   : List Word
  deriving DecidableEq, Repr

/-- What a remote request asks of the target's home (R228, R231, R235). -/
inductive RemoteKind where
  | read | write | discard
  /-- the state of a course name (R249) -/
  | query
  /-- the home's translation of a page (R236) -/
  | fetch
  /-- an atomic operation: AOP and SIZE codes of R180 -/
  | atomic (aop size : BitVec 4)
  deriving DecidableEq, Repr

/-- A further operation of a group of atomics in one aligned 8-byte word (R235). -/
structure AtomLane where
  ia   : Nat
  data : List Byte
  cmp  : List Byte
  deriving DecidableEq, Repr

/-- A request of another device, reaching this device as its target (R233, R237). -/
structure RemoteReq where
  src    : Nat
  incarn : BitVec 8
  asid   : Nat
  groups : List Nat
  seq    : Nat
  gen    : Nat
  kind   : RemoteKind
  ia     : Nat
  size   : Nat
  data   : List Byte
  cmp    : List Byte
  more   : List AtomLane := []
  /-- a transfer of a swatch, which travels as a write message (R228) -/
  swatch : Bool := false
  deriving DecidableEq, Repr

/-- The reply to a request of this device: a code (0 when performed), one value per operation (R232, R235), and the
incarnation that the answering device bears (R239). -/
structure RemoteReply where
  code   : BitVec 16
  vals   : List (List Byte)
  incarn : BitVec 8 := 0#8
  deriving DecidableEq, Repr

/-- The target home's answer to a pod translation fetch (R236). -/
structure PodReply where
  /-- false: refused with OWNER_FAULT -/
  granted : Bool
  gen     : Nat
  write   : Bool
  /-- the page's size code (R424) -/
  sz      : Nat := 0
  deriving DecidableEq, Repr

/-- What a flit carries above the data link (R228). -/
inductive FlitBody where
  | none
  | request (r : RemoteReq)
  /-- the answer to the request of a number -/
  | reply (seq : Nat) (code : BitVec 16) (vals : List (List Byte))
  | rstv (m : RstvMessage)
  /-- the answer to a core's store of a number to the core of a name -/
  | rstvReply (core : Nat) (target : DWord) (seq : Nat) (code : BitVec 16)
  /-- a course's new place (R247) -/
  | located (name : DWord) (core : Nat)
  | shootDown (ia sz : Nat)
  | shootAck (ia sz : Nat)
  /-- at most 256 bytes of what a rank brings to the collective of a number on a group: its elements, or its block scales (R250,
  R252) -/
  | collPart (group num rank : Nat) (scales : Bool) (bytes : List Byte)
  | join
  deriving DecidableEq, Repr

/-- The traffic that an atomic travels as: integer atomics as Atomic, floating-point ones as write messages (R228). -/
def RemoteKind.traffic (k : RemoteKind) : FlitKind :=
  match k with
  | .read | .query | .fetch => .read
  | .write | .discard => .write
  | .atomic _ size => if size.toNat < 4 then .atomic else .writeMessage

def FlitBody.traffic (b : FlitBody) : FlitKind :=
  match b with
  | .none => .dataLink
  | .request r => if r.swatch then .writeMessage else r.kind.traffic
  | .reply _ _ _ | .rstvReply _ _ _ _ => .response
  | _ => .writeMessage

/-- A flit as a port receives or sends it (R228, R229). -/
structure Flit where
  /-- the link of the port that carries it -/
  link    : Nat
  /-- port sequence number, and link-level sequence number -/
  seq     : Nat
  lseq    : Nat := 0
  /-- the sending device's pod identifier, and the receiving one's -/
  src     : Nat
  dst     : Nat := 0
  incarn  : BitVec 8
  kind    : FlitKind
  /-- the link-level number up to which the sender has received this link's flits -/
  ack     : Option Nat := Option.none
  body    : FlitBody := .none
  deriving DecidableEq, Repr

/-- A place of the management window, and who writes there: the external host, or the application cores (R462). -/
structure WindowPlace where
  host : Bool
  addr : Nat
  deriving DecidableEq, Repr

/-- What the fabric delivers for a collective (R250-R254). -/
structure CollReply where
  /-- the contribution of each rank, in rank order: element bytes and block scales -/
  contribs : List (List Byte × List Byte)
  /-- the order in which WIN = 0 combinations are made: per element, pairs of ranks, the second combined into the first -/
  order    : List (List (Nat × Nat))
  /-- a rank whose device was fenced or reset before it contributed -/
  failed   : Option Nat
  /-- the descriptors of the ranks do not match -/
  mismatch : Bool
  deriving DecidableEq, Repr

/-- Where Belaujor places one team (R20, R379): its core, first granule, first tile, first barrier, and per course its
slot and save index; and the virtual address it gives the team's record (R392). -/
structure TeamPlace where
  core   : Nat
  lsBase : Nat
  tile0  : Nat
  bar0   : Nat
  slots  : List (Nat × Nat)
  record : Nat := 0
  deriving DecidableEq, Repr

/-- The shape a launch entry records (R21, R122, R128): the spec does not give the bytes of the LNCH chunk. -/
structure LaunchShape where
  /-- entry PC of the chosen entry in the chosen skein -/
  entry    : DWord
  courses  : Nat
  lcl      : Nat
  tiles    : Nat
  bars     : Nat
  /-- g register bound to each argument, in argument order -/
  binding  : List Nat
  /-- panel scope code (R180), teams and named barriers, when the skein declares .panel -/
  panel    : Option (BitVec 3 × Nat × Nat)
  deriving DecidableEq, Repr

/-- A range of near HBM that could be demoted (R386): its first IA, its bytes, and the handles under which commands name
it. -/
structure NearRange where
  ia      : Nat
  size    : Nat
  handles : List Nat
  deriving DecidableEq, Repr

/-- Belaujor's choices for one launch command (R377, R384), and what the spec names without laying out its bytes. -/
structure LaunchChoice where
  shape  : LaunchShape
  places : List TeamPlace
  /-- places on the cores that the placement table of a pre-placed skein names (R127) -/
  table  : List TeamPlace := []
  /-- the near ranges, and how many of them are to be demoted for the launch's own (R386) -/
  near   : List NearRange := []
  demote : Nat := 0
  deriving DecidableEq, Repr

/-- One die's mutual authentication (R471): the hub's challenge to it with the die's signature over that challenge and its image's
measurement, and the die's challenge to the hub with the hub's signature over that challenge and its own measurement. -/
structure AuthAnswer where
  die       : Nat
  challenge : List Byte
  sig       : List Byte
  back      : List Byte
  hubSig    : List Byte
  deriving DecidableEq, Repr

/-- The outcomes of one boot that the outside and the silicon decide (R470, R471, R450). Dies 0-3 are N0-N3, 4-5 F0-F1,
6 H, 7 A. -/
structure BootResults where
  /-- the answers that the dies give to the hub's challenge within 10 ms -/
  auth       : List AuthAnswer
  /-- dies whose self-test fails elsewhere than in a quad or a scheduler core: the L2 or the RDC of a near die, another die -/
  selfFail   : List Nat
  /-- near dies of which a scheduler core fails self-test; one that stands twice has lost both -/
  schedFail  : List Nat
  stackFail  : List Nat
  quadPass   : List Word
  imageFail  : List Nat
  osFail     : Bool
  /-- the operating-system image as it was read, and the security versions of the five images (R470, R472) -/
  osImage    : List Byte
  svn        : List Nat
  jsize      : Nat
  jbase      : List Nat
  slot0      : List Byte
  kempk      : List Byte
  /-- the address maps planned for the banks of the three modes, in the form of R464, by 4 * mode + bank, and the size of the
  application carve-out in GiB (R9, R470) -/
  regions    : List (List Byte)
  carve      : Nat
  /-- bytes of CXL memory behind each of the four ports (R464) -/
  cxl        : List Nat
  deriving DecidableEq, Repr

/-- The management messages the module serves over MCTP (R478). -/
inductive MgmtMessage where
  /-- a PLDM base message (DSP0240), and one for platform control (DSP0248) -/
  | pldmBase (msg : List Byte)
  | platformControl (msg : List Byte)
  /-- reads the power state of a die -/
  | sensorPstate (die : Nat)
  /-- reads the rail code of a core -/
  | sensorVcode (core : Nat)
  /-- reads the power (false) or temperature (true) of a die, as measured -/
  | sensorAnalog (die : Nat) (temperature : Bool) (measured : DWord)
  | spdmCertificates
  | spdmReport (nonce : List Byte)
  | unsupported
  deriving DecidableEq, Repr

/-- The steps of the machine: one constructor per row of the opcode table. A constructor with a word form is an
instruction of the opcode map (R78); the others are events, whose arguments are what the timing or the outside decides. The events of a hub bank that have no
argument act on the bank that State.bank names. -/
inductive Instr where
  /-- ADD (R294). -/
  | add (w : FWord)
  /-- SUB (R294). -/
  | sub (w : FWord)
  /-- MUL (R294). -/
  | mul (w : FWord)
  /-- MULHI (R294). -/
  | mulhi (w : FWord)
  /-- MAD (R294). -/
  | mad (w : FWord)
  /-- MADW (R294). -/
  | madw (w : FWord)
  /-- DIV (R296). -/
  | div (w : FWord)
  /-- REM (R296). -/
  | rem (w : FWord)
  /-- MIN (R294). -/
  | min (w : FWord)
  /-- MAX (R294). -/
  | max (w : FWord)
  /-- ABS (R294). -/
  | abs (w : FWord)
  /-- NEG (R294). -/
  | neg (w : FWord)
  /-- AND (R294). -/
  | and (w : FWord)
  /-- OR (R294). -/
  | or (w : FWord)
  /-- XOR (R294). -/
  | xor (w : FWord)
  /-- ANDN (R294). -/
  | andn (w : FWord)
  /-- NOT (R294). -/
  | not (w : FWord)
  /-- SHL (R294). -/
  | shl (w : FWord)
  /-- SHR (R294). -/
  | shr (w : FWord)
  /-- SAR (R294). -/
  | sar (w : FWord)
  /-- ROTL (R294). -/
  | rotl (w : FWord)
  /-- CLZ (R294). -/
  | clz (w : FWord)
  /-- POPC (R294). -/
  | popc (w : FWord)
  /-- BREV (R294). -/
  | brev (w : FWord)
  /-- BFX (R298). -/
  | bfx (w : FWord)
  /-- BFI (R298). -/
  | bfi (w : FWord)
  /-- SEL (R294). -/
  | sel (w : FWord)
  /-- ISET (R297). -/
  | iset (w : FWord)
  /-- LEA (R299). -/
  | lea (w : FWord)
  /-- ADDC (R300). -/
  | addc (w : FWord)
  /-- SUBB (R300). -/
  | subb (w : FWord)
  /-- MOV (R294). -/
  | mov (w : FWord)
  /-- MOVI (R303). -/
  | movi (w : IWord)
  /-- MOVHI (R303). -/
  | movhi (w : IWord)
  /-- DUP (R301). -/
  | dup (w : FWord)
  /-- PLOP (R304). -/
  | plop (w : FWord)
  /-- PMOV (R305). -/
  | pmov (w : FWord)
  /-- SAD (R294). -/
  | sad (w : FWord)
  /-- DOT4 (R295). -/
  | dot4 (w : FWord)
  /-- BPERM (R302). -/
  | bperm (w : FWord)
  /-- FADD (R306). -/
  | fadd (w : FWord)
  /-- FSUB (R306). -/
  | fsub (w : FWord)
  /-- FMUL (R306). -/
  | fmul (w : FWord)
  /-- FFMA (R306). -/
  | ffma (w : FWord)
  /-- FFMS (R306). -/
  | ffms (w : FWord)
  /-- FMIN (R308). -/
  | fmin (w : FWord)
  /-- FMAX (R308). -/
  | fmax (w : FWord)
  /-- FABS (R308). -/
  | fabs (w : FWord)
  /-- FNEG (R308). -/
  | fneg (w : FWord)
  /-- FSET (R309). -/
  | fset (w : FWord)
  /-- FCLAMP (R308). -/
  | fclamp (w : FWord)
  /-- FRND (R310). -/
  | frnd (w : FWord)
  /-- FRCP (R311). -/
  | frcp (w : FWord)
  /-- FRSQ (R311). -/
  | frsq (w : FWord)
  /-- FSQRT (R306). -/
  | fsqrt (w : FWord)
  /-- FDIV (R306). -/
  | fdiv (w : FWord)
  /-- FEXP2 (R311). -/
  | fexp2 (w : FWord)
  /-- FLOG2 (R311). -/
  | flog2 (w : FWord)
  /-- FSIN (R311). -/
  | fsin (w : FWord)
  /-- FCOS (R311). -/
  | fcos (w : FWord)
  /-- FTANH (R311). -/
  | ftanh (w : FWord)
  /-- FSIGM (R311). -/
  | fsigm (w : FWord)
  /-- FSCALE (R313). -/
  | fscale (w : FWord)
  /-- FGETEXP (R313). -/
  | fgetexp (w : FWord)
  /-- FCLASS (R314). -/
  | fclass (w : FWord)
  /-- FDOT2 (R315). -/
  | fdot2 (w : FWord)
  /-- FMOVI (R303). -/
  | fmovi (w : IWord)
  /-- CVT (R316). -/
  | cvt (w : FWord)
  /-- QCVT (R318). -/
  | qcvt (w : FWord)
  /-- QPACK (R321). -/
  | qpack (w : FWord)
  /-- QUNPACK (R322). -/
  | qunpack (w : FWord)
  /-- SCALEGEN (R320). -/
  | scalegen (w : FWord)
  /-- AMAX (R324). -/
  | amax (w : FWord)
  /-- SHFL (R325). -/
  | shfl (w : FWord)
  /-- SHFLX (R325). -/
  | shflx (w : FWord)
  /-- SHFLUP (R325). -/
  | shflup (w : FWord)
  /-- SHFLDN (R325). -/
  | shfldn (w : FWord)
  /-- BCAST (R326). -/
  | bcast (w : FWord)
  /-- VOTE (R327). -/
  | vote (w : FWord)
  /-- REDUX (R328). -/
  | redux (w : FWord)
  /-- PSCAN (R328). -/
  | pscan (w : FWord)
  /-- MATCH (R329). -/
  | matchLanes (w : FWord)
  /-- LD (R172). -/
  | ld (w : MWord)
  /-- ST (R173). -/
  | st (w : MWord)
  /-- LDS (R175). -/
  | lds (w : MWord)
  /-- STS (R175). -/
  | sts (w : MWord)
  /-- LDF (R176). -/
  | ldf (w : MWord)
  /-- STF (R177). -/
  | stf (w : MWord)
  /-- SETE (R178). -/
  | sete (w : MWord)
  /-- SETF (R178). -/
  | setf (w : MWord)
  /-- ATOM (R182). -/
  | atom (w : MWord)
  /-- ATOMS (R183). -/
  | atoms (w : MWord)
  /-- PREF (R184). -/
  | pref (w : MWord)
  /-- DISCARD (R185). -/
  | discard (w : MWord)
  /-- LASTUSE (R186). -/
  | lastuse (w : MWord)
  /-- FLUSHL (R187). -/
  | flushl (w : MWord)
  /-- INVL (R187). -/
  | invl (w : MWord)
  /-- FENCE (R188). -/
  | fence (w : FWord)
  /-- QFENCE (R189). -/
  | qfence (w : FWord)
  /-- CHAIN (R200). -/
  | chain (w : FWord)
  /-- CPY (R201). -/
  | cpy (w : FWord)
  /-- SEAL (R202). -/
  | sealBatch (w : FWord)
  /-- WAITB (R203). -/
  | waitb (w : FWord)
  /-- BSTAT (R204). -/
  | bstat (w : FWord)
  /-- CBDEF (R208). -/
  | cbdef (w : FWord)
  /-- CBPROD (R209). -/
  | cbprod (w : FWord)
  /-- CBCONS (R209). -/
  | cbcons (w : FWord)
  /-- CBWAIT (R210). -/
  | cbwait (w : FWord)
  /-- SFILL (R212). -/
  | sfill (w : FWord)
  /-- SPUSH (R213). -/
  | spush (w : FWord)
  /-- SBIND (R214). -/
  | sbind (w : FWord)
  /-- CODEBK (R206). -/
  | codebk (w : FWord)
  /-- SWZ (R207). -/
  | swz (w : FWord)
  /-- BTLOOK (R219). -/
  | btlook (w : FWord)
  /-- BTREF (R220). -/
  | btref (w : FWord)
  /-- BTALLOC (R221). -/
  | btalloc (w : FWord)
  /-- BTFREE (R222). -/
  | btfree (w : FWord)
  /-- MIGR (R225). -/
  | migr (w : FWord)
  /-- MMA (R342). -/
  | mma (w : FWord)
  /-- MMAZ (R342). -/
  | mmaz (w : FWord)
  /-- ACCZ (R359). -/
  | accz (w : FWord)
  /-- ACCLD (R360). -/
  | accld (w : FWord)
  /-- ACCST (R361). -/
  | accst (w : FWord)
  /-- ACCMV (R362). -/
  | accmv (w : FWord)
  /-- ACCTEST (R363). -/
  | acctest (w : FWord)
  /-- ACCCLR (R364). -/
  | accclr (w : FWord)
  /-- FMTSET (R365). -/
  | fmtset (w : FWord)
  /-- FMTGET (R366). -/
  | fmtget (w : FWord)
  /-- BNDSET (R367). -/
  | bndset (w : FWord)
  /-- REGION (R368). -/
  | region (w : FWord)
  /-- NORMRD (R367). -/
  | normrd (w : FWord)
  /-- ERRINJ (R369). -/
  | errinj (w : FWord)
  /-- BRA (R84). -/
  | bra (w : BWord)
  /-- BRX (R85). -/
  | brx (w : FWord)
  /-- CALL (R87). -/
  | call (w : BWord)
  /-- RET (R88). -/
  | ret (w : FWord)
  /-- EXIT (R89). -/
  | exit (w : FWord)
  /-- JOIN (R91). -/
  | join (w : FWord)
  /-- REP (R93). -/
  | rep (w : RepWord)
  /-- LOOP (R95). -/
  | loop (w : BWord)
  /-- NOP (R96). -/
  | nop (w : FWord)
  /-- PRIO (R396). -/
  | prio (w : FWord)
  /-- YIELD (R397). -/
  | yield (w : FWord)
  /-- SLEEP (R398). -/
  | sleep (w : FWord)
  /-- BAR (R401). -/
  | bar (w : FWord)
  /-- BARA (R401). -/
  | bara (w : FWord)
  /-- BARW (R402). -/
  | barw (w : FWord)
  /-- BARINIT (R403). -/
  | barinit (w : FWord)
  /-- EMPTY (R406). -/
  | empty (w : FWord)
  /-- WAITF (R407). -/
  | waitf (w : FWord)
  /-- RSTV (R246). -/
  | rstv (w : FWord)
  /-- NAMEQ (R249). -/
  | nameq (w : FWord)
  /-- COLL (R251). -/
  | coll (w : FWord)
  /-- COLLW (R253). -/
  | collw (w : FWord)
  /-- SWSIZE (R255). -/
  | swsize (w : FWord)
  /-- SWBUILD (R257). -/
  | swbuild (w : FWord)
  /-- SWSEND (R258). -/
  | swsend (w : FWord)
  /-- SWDIFF (R259). -/
  | swdiff (w : FWord)
  /-- SWPEEL (R260). -/
  | swpeel (w : FWord)
  /-- SWAPPLY (R261). -/
  | swapply (w : FWord)
  /-- MFS (R101). -/
  | mfs (w : FWord)
  /-- MTS (R102). -/
  | mts (w : FWord)
  /-- TRAP (R103). -/
  | trap (w : FWord)
  /-- BKPT (R104). -/
  | bkpt (w : FWord)
  /-- SIGNAL (R105). -/
  | signal (w : FWord)
  /-- TIME (R108). -/
  | time (w : FWord)
  /-- CLOCK (R108). -/
  | clock (w : FWord)
  /-- PTEW (R109). -/
  | ptew (w : FWord)
  /-- JOIN_WAIT_EXPIRE (R33). -/
  | joinWaitExpire (c st : Nat)
  /-- JOIN_LIMIT_EXPIRE (R91). -/
  | joinLimitExpire (c st : Nat)
  /-- LONG_LATENCY_ARRIVAL (R49). -/
  | longLatencyArrival (id : Nat)
  /-- AGE_LEVEL_UP (R382). -/
  | ageLevelUp (c st : Nat)
  /-- SLEEP_EXPIRE (R398). -/
  | sleepExpire (c st : Nat)
  /-- YIELD_TIMEOUT (R397). -/
  | yieldTimeout (c st : Nat)
  /-- CHECK_ACCESS (R150). -/
  | checkAccess (id : Nat)
  /-- HOME_WRITE_PERFORMED (R135). -/
  | homeWritePerformed (id : Nat)
  /-- COW_COPY_COMPLETE (R223). -/
  | cowCopyComplete (id : Nat)
  /-- PAGE_WALK (R425). -/
  | pageWalk (id : Nat) (pick : Bool)
  /-- LEASE_EXPIRE (R429). -/
  | leaseExpire (dev ia : Nat)
  /-- GRANULE_OP_COMPLETE (R179). -/
  | granuleOpComplete (id : Nat)
  /-- RECORD_CLAIM (R197). -/
  | recordClaim (core ch : Nat)
  /-- RECORD_COMPLETE (R198). -/
  | recordComplete (core id : Nat)
  /-- STREAM_FILL (R214). -/
  | streamFill (core st : Nat)
  /-- MATRIX_OP_START (R339). -/
  | matrixOpStart (core : Nat)
  /-- MMA_ATTEMPT_COMPLETE (R346). -/
  | mmaAttemptComplete (core : Nat) (errs : List (Nat × Nat × Nat))
  /-- MATRIX_OP_COMPLETE (R340). -/
  | matrixOpComplete (core : Nat)
  /-- RAIL_EVALUATE (R351). -/
  | railEvaluate (core : Nat)
  /-- RSTV_DELIVERY (R247). -/
  | rstvDelivery (id : Nat)
  /-- RSTV_BUFFER_DRAIN (R247). -/
  | rstvBufferDrain (core : Nat)
  /-- RSTV_RETRY (R248). -/
  | rstvRetry (id : Nat)
  /-- FLIT_RECEIVE (R229). -/
  | flitReceive (port : Nat) (f : Flit)
  /-- LANE_LOCK_LOSS (R230). -/
  | laneLockLoss (port lane : Nat)
  /-- LINK_RETRAIN (R230). -/
  | linkRetrain (port link : Nat) (ok : Bool)
  /-- REMOTE_REQUEST (R233). -/
  | remoteRequest (dev : Nat) (q : RemoteReq)
  /-- STALE_NAK (R237). -/
  | staleNak (id : Nat)
  /-- REMOTE_COMPLETION (R232). -/
  | remoteCompletion (id : Nat) (r : RemoteReply)
  /-- POD_TRANSLATION_FETCH (R236). -/
  | podTranslationFetch (id : Nat) (r : PodReply)
  /-- SHOOT_DOWN_RECEIVE (R238). -/
  | shootDownReceive (dev owner ia sz : Nat)
  /-- SHOOT_DOWN_TIMEOUT (R431). -/
  | shootDownTimeout (dev : Nat) (silent : List Nat)
  /-- JOIN_ANNOUNCEMENT (R239). -/
  | joinAnnouncement (dev peer : Nat) (incarn : BitVec 8)
  /-- POD_TIMEOUT (R240). -/
  | podTimeout (dev peer : Nat)
  /-- COLLECTIVE_COMPLETE (R252). -/
  | collectiveComplete (core : Nat) (r : CollReply)
  /-- SWATCH_OP_COMPLETE (R262). -/
  | swatchOpComplete (core : Nat)
  /-- SWSEND_NOTICE (R258). -/
  | swsendNotice (core : Nat)
  /-- MIGRATION_START (R226). -/
  | migrationStart (far : Nat)
  /-- MIGRATION_FLIP (R226). -/
  | migrationFlip (far : Nat)
  /-- DRAIN_MARKER (R157). -/
  | drainMarker (dev fromDie toDie : Nat)
  /-- KICK_WRITE (R375). -/
  | kickWrite (dev j : Nat) (v : DWord)
  /-- QUEUE_SCAN (R375). -/
  | queueScan (dev q : Nat)
  /-- COMMAND_LAUNCH (R377). -/
  | commandLaunch (dev : Nat) (r : LaunchChoice)
  /-- PANEL_MEMBER_START (R23). -/
  | panelMemberStart (panel : Nat) (p : TeamPlace)
  /-- LAUNCH_COMPLETE (R378). -/
  | launchComplete (launch : Nat)
  /-- COURSE_BIND (R379). -/
  | courseBind (c : Nat)
  /-- COURSE_RESUME (R390). -/
  | courseResume (c save : Nat) (p : TeamPlace)
  /-- PREEMPT (R387). -/
  | preempt (c : Nat)
  /-- COURSE_SAVE_COMPLETE (R387). -/
  | courseSaveComplete (c : Nat)
  /-- HEARTBEAT_WRITE (R453). -/
  | heartbeatWrite (die : Nat) (v : DWord)
  /-- HEARTBEAT_TIMEOUT (R453). -/
  | heartbeatTimeout (die : Nat)
  /-- SCHEDULER_UE (R453). -/
  | schedulerUe (die : Nat)
  /-- SCHEDULER_TAKEOVER (R455). -/
  | schedulerTakeover (die : Nat)
  /-- WAYALL_WRITE (R434). -/
  | wayallWrite (die cls : Nat) (v : DWord)
  /-- DEBUG_HALT (R459). -/
  | debugHalt (c : Nat)
  /-- DEBUG_HALT_QUIESCE (R461). -/
  | debugHaltQuiesce (c : Nat)
  /-- DEBUG_RESUME (R459). -/
  | debugResume (c : Nat)
  /-- DEBUG_STEP (R370). -/
  | debugStep (c : Nat)
  /-- DEBUG_STEP_WAIT (R370). -/
  | debugStepWait (c : Nat)
  /-- DEBUG_READ_LS (R460). -/
  | debugReadLs (c off : Nat)
  /-- REGISTER_WRITE (R6). -/
  | registerWrite (addr : WindowPlace) (v : DWord)
  /-- TELEMETRY_UPDATE (R436). -/
  | telemetryUpdate (dev asid : Nat)
  /-- POWER_ON (R470). -/
  | powerOn (b : BootResults)
  /-- WARM_RESET (R470). -/
  | warmReset (b : BootResults)
  /-- AUTHENTICATION_TIMEOUT (R471). -/
  | authenticationTimeout (die : Nat)
  /-- POWER_STATE_ENTER (R474). -/
  | powerStateEnter (die : Nat)
  /-- POWER_STATE_EXIT (R475). -/
  | powerStateExit (die : Nat)
  /-- PKGTIME_EXCHANGE (R477). -/
  | pkgtimeExchange (withMaster : Bool) (offset : DWord) (skew : Word)
  /-- ATTESTATION_REQUEST (R472). -/
  | attestationRequest (nonce : List Byte)
  /-- FIRMWARE_UPDATE (R478). -/
  | firmwareUpdate (img : Nat) (bytes : List Byte)
  /-- PLDM_MESSAGE (R478). -/
  | pldmMessage (m : MgmtMessage)
  /-- ILLEGAL_OPCODE (R78). -/
  | illegalOpcode (w : DWord)
  /-- PAIR_WORD (R66). -/
  | pairWord (rsv : Bool) (a b : Slot)
  /-- LINK_LEVEL_REPLAY (R230). -/
  | linkLevelReplay (port link : Nat) (ok : Bool)
  /-- MIGRATION_ABANDON (R226). -/
  | migrationAbandon (far : Nat)
  /-- ASID_HOLD_EXPIRE (R421). -/
  | asidHoldExpire (dev asid : Nat)
  /-- CODEBOOK_LOAD_COMPLETE (R206). -/
  | codebookLoadComplete (core ch : Nat)
  /-- POWER_CONTROLLER_THROTTLE (R17). -/
  | powerControllerThrottle (die : Nat) (on : Bool)
  /-- NORM_MONITOR_CHECK (R355). -/
  | normMonitorCheck
  /-- SHOOT_DOWN_DRAINED (R238). -/
  | shootDownDrained
  /-- SHOOT_DOWN_COMPLETE (R431). -/
  | shootDownComplete
  /-- COMMAND_NOP (R377). -/
  | commandNop
  /-- CONTEXT_CREATE (R420). -/
  | contextCreate
  /-- CONTEXT_UPDATE (R420). -/
  | contextUpdate
  /-- CONTEXT_DESTROY (R420). -/
  | contextDestroy
  /-- CTXSTAT_READ (R463). -/
  | ctxstatRead
  /-- SDGO_WRITE (R431). -/
  | sdgoWrite
  /-- MAP_MOVE (R457). -/
  | mapMove
  /-- MAP_SWITCH (R457). -/
  | mapSwitch
  /-- KL_ESTABLISH (R463). -/
  | klEstablish
  /-- KL_LOAD (R473). -/
  | klLoad
  /-- NOTEAPP_READ (R481). -/
  | noteappRead
  /-- NOTEHOST_READ (R481). -/
  | notehostRead
  /-- PKGTIME_SYNC_LOST (R477). -/
  | pkgtimeSyncLost
  /-- FETCH_FAULT (R82). -/
  | fetchFault
  deriving DecidableEq, Repr

end Sys2Proof
end

