-- ==== Sys2Proof/Machine/State.lean ====
section
/-! DEFINITION. The state of the package as plain data, and its value after power-on. Names and widths follow the rules
cited; every field's reset value is a default here, and the values the spec does not give are those of
notes/assumptions/1.md. -/

namespace Sys2Proof.Machine

/-- Why the machine itself stops. A fault of a course is no such stop: the machine takes it (R38). -/
inductive Fault where
  /-- A word was to be executed with no strand selected to execute it: raised by every word's meaning when State.cur is
  none, which step never does. Safe: nothing is executed. -/
  | noStrand
  deriving DecidableEq, Repr

/-- Why a step has no meaning. -/
inductive Refusal where
  /-- The instruction has no meaning in this model. Safe: nothing is executed. -/
  | notModelled (mnemonic : String)
  deriving DecidableEq, Repr

/-! ### Accesses in flight (R136, R146, R169) -/

/-- What a word does at the home, for every lane. -/
inductive AccKind where
  | load (signed : Bool)
  | store
  | atomic (aop size : Nat)
  | discard
  | lastuse (signed : Bool)
  | btlook (part : Nat)
  | btref
  | btalloc
  | btfree
  | ptew (cas gen : Bool)
  deriving DecidableEq, Repr

/-- How far one lane's access has come. -/
inductive LaneStage where
  /-- issued, not translated -/
  | issued
  /-- translated: key of the physical byte -/
  | at_ (key : Nat)
  /-- stalled by a copy-on-write or a migration, named by the key of its descriptor or page entry (R223, R226) -/
  | stalled (on : Nat)
  /-- sent to another device (R231) -/
  | remote
  /-- performed, with the bytes read -/
  | done (bytes : List Byte)
  /-- not performed, because the line is poisoned: the lane receives poison (R447) -/
  | poisoned
  /-- faulted after issue: code, IA and class-specific bytes of its record (R169) -/
  | fault (code ia cls : Nat)
  deriving DecidableEq, Repr

/-- One lane of an access. -/
structure LaneAcc where
  /-- virtual address, or block reference -/
  addr    : Nat
  block   : Bool := false
  /-- CHK of the covering range: 0 race-checked, 1 read-only, 2 unchecked (R422) -/
  chk     : Nat := 2
  /-- intermediate address, once known -/
  ia      : Nat := 0
  /-- POD range: the target pod identifier -/
  pod     : Option Nat := none
  /-- a page with NC (R424) -/
  nc      : Bool := false
  /-- key slot of the page -/
  slot    : Nat := 0
  data    : List Byte := []
  cmp     : List Byte := []
  /-- descriptor index that the lookup of a block reference found (R218) -/
  idx     : Nat := 0
  /-- a store that updated its core's L1 copy of the line when it issued (R134, R140) -/
  inL1    : Bool := false
  stage   : LaneStage := .issued
  deriving DecidableEq, Repr

/-- The access of one word (entry 7). -/
structure Access where
  course : Nat
  ctx    : Nat
  st     : Nat
  pc     : DWord
  word   : DWord
  kind   : AccKind
  size   : Nat
  order  : Nat := 0
  scope  : Nat := 4
  hint   : Nat := 0
  /-- lanes, ascending -/
  lanes  : Tab LaneAcc
  /-- lanes of the strand that issued it: the strand that holds them now goes on in its order (R27, R34, R144) -/
  own    : Mask := 0#32
  /-- entries pushed per lane; 0 for none -/
  words  : Nat := 0
  /-- a g copy receives the value sign-extended (R72) -/
  signed : Bool := false
  /-- younger words of the course issued since (R169) -/
  skid   : Nat := 0
  /-- its own word has issued: the words that issue from now on are younger -/
  past   : Bool := false
  /-- a replay entry being performed on resume -/
  replay : Bool := false
  /-- its faults have been taken -/
  taken  : Bool := false
  /-- map generation it is stamped with, and whether an old home has forwarded it (R157) -/
  mapGen : Nat := 0
  fwd    : Bool := false
  deriving DecidableEq, Repr

/-! ### Strands and courses (R18, R25, R43) -/

/-- A 32-bit word of the q and v files with its full/empty bit and poison bit (R50, R56). -/
structure Entry where
  val    : Word := 0#32
  full   : Bool := true
  poison : Bool := false
  /-- a LATENT_POISON record has been posted for the word (R57) -/
  noted  : Bool := false
  /-- the arrival it awaits, as 8 * id + word (R49) -/
  await  : Option Nat := none
  deriving DecidableEq, Repr

/-- One strand's copy of a g register (R43, R50). -/
structure GReg where
  val    : DWord := 0#64
  full   : Bool := true
  poison : Bool := false
  noted  : Bool := false
  await  : Option Nat := none
  deriving DecidableEq, Repr

/-- A deferral entry (R28). -/
structure Defer where
  join   : DWord
  addr   : DWord
  mask   : Mask
  parked : Mask := 0#32
  phase2 : Bool := false
  deriving DecidableEq, Repr

/-- A named barrier as a course names it (R399). -/
inductive BarRef where
  | lane
  | core (index : Nat)
  | panel (index : Nat)
  | pod (index : Nat)
  deriving DecidableEq, Repr

/-- Why a strand is not ready apart from its word's own conditions. -/
inductive Wait where
  | none
  /-- at its recorded join address since a cycle (R33) -/
  | joinAddr (since : Nat)
  /-- at a JOIN word with a WAIT code, first arrival at a cycle (R91) -/
  | joinWord (since code : Nat)
  /-- until the access or arrival of an identifier has been delivered: PTEW (R109) -/
  | result (id : Nat)
  /-- SLEEP: until the always-on counter reaches a value (R398) -/
  | sleep (until_ : Nat) (wake : Bool)
  /-- YIELD: until a cycle, or, with SIB, until a sibling issues (R397) -/
  | yield (until_ : Nat) (sib : Bool)
  deriving DecidableEq, Repr

/-- One strand slot of a course. -/
structure Strand where
  live   : Bool := false
  pc     : DWord := 0#64
  mask   : Mask := 0#32
  join   : Option DWord := none
  depth  : Nat := 0
  repi   : Nat := 0
  /-- top of the stack first -/
  dstack : List Defer := []
  q      : Lanes (Vector Entry 16) := vconst 32 (vconst 16 {})
  g      : Vector GReg 32 := vconst 32 {}
  wait   : Wait := .none
  /-- marked at a barrier, by BAR (true) or BARA (R401) -/
  mark   : Option (BarRef × Bool) := none
  /-- waits in BAR after its course's arrival; saved as flag [6] (R405) -/
  inBar  : Option BarRef := none
  level  : Nat := 0
  age    : Nat := 0
  readySince : Nat := 0
  /-- it was ready in the cycle before, and has been ready since readySince (R381) -/
  wasReady : Bool := false
  deriving DecidableEq, Repr

/-- A sealed or open batch of a course (R202, R204). -/
structure Batch where
  num     : Nat
  closed  : Bool := false
  finished : Bool := false
  /-- records not yet completed, and chains not yet ended -/
  pending : Nat := 0
  /-- FOFF of the lowest-numbered failing record, with that record's number -/
  failed  : Option (Nat × Nat) := none
  /-- records handed over so far -/
  count   : Nat := 0
  deriving DecidableEq, Repr

/-- A fragment bound by MMAs, as a latch or a queued operation holds it (R333): its stream, its claim, its bytes, and the
local-store offset of its first poisoned granule (R447). -/
structure Latch where
  stream : Nat
  claim  : Nat
  bytes  : List Byte
  poison : Option Nat := none
  deriving DecidableEq, Repr

/-- The course an engine operation belongs to, as it was when it issued: a course slot can be bound again before the
operation completes. -/
structure Owner where
  course : Nat := 0
  name   : DWord := 0#64
  ctx    : Nat := 0
  team   : Nat := 0
  launch : Nat := 0
  deriving DecidableEq, Repr

/-- A queued matrix operation (R339, R342), or a fence in the matrix queue (R153). -/
structure MatOp where
  owner  : Owner
  word   : DWord := 0#64
  act    : Mask := 0#32
  pc     : DWord := 0#64
  /-- the format block: gN and gN+1 as they were read at issue (R335) -/
  block  : DWord := 0#64
  scales : DWord := 0#64
  /-- format registers read at issue: of A and B, or of ACCST in the first (R273) -/
  descA  : DWord := 0#64
  descB  : DWord := 0#64
  region : Nat := 0
  /-- an armed ERRINJ's selector (R369) -/
  inject : Option Word := none
  /-- identifier of the result it delivers -/
  result : Option Nat := none
  /-- operands SA and SB of the lanes -/
  opa    : Lanes Nat := vconst 32 0
  opb    : Lanes Nat := vconst 32 0
  /-- bound fragments, and the course's latches as they were before the issue -/
  fragA  : Option Latch := none
  fragB  : Option Latch := none
  latA   : Option Latch := none
  latB   : Option Latch := none
  started : Bool := false
  /-- the rail code it started at (R351) -/
  vcode   : Nat := 34
  attempts : Nat := 0
  /-- bytes held while it is performed: the scale bytes of A (0) and B (1) of an MMA; by lane * 1024 + offset, the granules
  of an ACCLD already read, or the bytes an ACCST still writes -/
  got    : Tab (List Byte) := []
  /-- the status entries of an ACCST -/
  status : Lanes Nat := vconst 32 0
  /-- younger words of the course issued since (R347) -/
  skid   : Nat := 0
  /-- its own word has issued -/
  past   : Bool := false
  /-- a QFENCE entry -/
  fence  : Option Nat := none
  deriving DecidableEq, Repr

/-- Parameters of the swatch instructions (R255). -/
structure SwatchParams where
  p     : Nat
  salts : List DWord
  deriving DecidableEq, Repr

/-- Whether a course runs. -/
inductive CState where
  | run
  /-- UNBIND set: the save is under way (R387) -/
  | unbind
  /-- stopped by a fault, to be saved (R38) -/
  | stopped
  deriving DecidableEq, Repr

/-- One resident course (R25, R43, R98). -/
structure Course where
  /-- context: 65536 * device + ASID -/
  ctx      : Nat := 0
  team     : Nat := 0
  tcourse  : Nat := 0
  teamid   : Nat := 0
  pteam    : Option Nat := none
  name     : DWord := 0#64
  saveIdx  : Nat := 0
  strands  : Vector Strand 4 := vconst 4 {}
  v        : Vector (Lanes Entry) 64 := vconst 64 (vconst 32 {})
  p        : Vector Mask 8 := vset (vconst 8 0#32) 7 0xFFFFFFFF#32
  /-- lanes of the predicates, and numbers of the special registers, that a detected uncorrectable error has poisoned (R56) -/
  pBad     : Vector Mask 8 := vconst 8 0#32
  sBad     : List Nat := []
  /-- lanes of the predicates for which a LATENT_POISON record has been posted (R57) -/
  pNoted   : Vector Mask 8 := vconst 8 0#32
  /-- per lane, newest return first: word offset and range index (R86) -/
  calls    : Lanes (List (Word × Nat)) := vconst 32 []
  uconflict : Bool := false
  ucidx    : Nat := 0
  readySent : Bool := false
  seed     : Word := 0x2545F491#32
  fpflags  : Word := 0#32
  prio     : Nat := 0
  region   : Nat := 1
  corcnt   : Word := 0#32
  reiscnt  : Word := 0#32
  strict   : Bool := false
  relCount : Nat := 0
  /-- line keys of checked loads of the current region, newest first (R148) -/
  readLog  : List Nat := []
  /-- per barrier it may name, the phase in which it last arrived (R400): keys of R392 -/
  arr      : Tab Nat := []
  /-- batches, newest first; the head is the open one (R202) -/
  batches  : List Batch := [{ num := 0 }]
  /-- failure memory: number and FOFF, newest first (R204) -/
  failMem  : List (Nat × Nat) := []
  latchA   : Option Latch := none
  latchB   : Option Latch := none
  /-- armed ERRINJ: tile and selector (R369) -/
  errinj   : Option (Nat × Word) := none
  /-- matrix operations to be issued again before the course's next word (R347, R348, R390) -/
  remat    : List MatOp := []
  swatch   : Option SwatchParams := none
  collNext : Nat := 0
  /-- numbers of the collectives that are not finished (R251, R253) -/
  colls    : List Nat := []
  rstvOut  : Nat := 0
  /-- v registers that an RSTV from another core filled and no strand has read since (R142) -/
  filled   : List Nat := []
  /-- code and peer of a remote failure to be taken at the next boundary (R234) -/
  remoteFail : Option (Nat × Nat) := none
  cstate   : CState := .run
  /-- halted by hxdb, with the reason (R459) -/
  halted   : Option Nat := none
  /-- its channels stop at their next record boundary (R461) -/
  quiesce  : Bool := false
  /-- one word is executed before the course halts again: 1 for a step, 2 for a step and wait -/
  stepping : Option Nat := none
  /-- the queues in which the word of a step and wait placed an operation: 0 matrix, 1 swatch, 2 collective, 3 + n channel n;
  the course is held while they hold operations of it (R370) -/
  stepQueues : List Nat := []
  /-- accesses still to be performed on resume, with their identifiers (R169) -/
  replay   : Tab Access := []
  deriving DecidableEq, Repr

/-! ### Circular buffers, streams and swizzle registers of a team (R207 to R214) -/

/-- A circular buffer (R208). -/
structure CircBuf where
  base  : Nat
  size  : Nat
  log2n : Nat
  /-- producer and consumer pointers -/
  p     : Nat := 0
  c     : Nat := 0
  deriving DecidableEq, Repr

/-- A fragment of an operand stream; its bytes are none until a WAITFE fill has read them (R212). -/
structure Fragment where
  bytes  : Option (List Byte)
  /-- team, offset and length of a WAITFE fill still reading, with the granules already read -/
  fill   : Option (Nat × Nat × Nat) := none
  got    : Tab (List Byte) := []
  /-- a WAITFE fill with UNSW -/
  unsw   : Bool := false
  /-- the bound buffer it was taken from -/
  cb     : Option Nat := none
  /-- the claim of the MMAs that bound it (R333) -/
  claim  : Option Nat := none
  /-- local-store offset of its first poisoned granule (R447) -/
  poison : Option Nat := none
  deriving DecidableEq, Repr

structure Stream where
  frags  : List Fragment := []
  open_  : Option (List Byte) := none
  /-- buffer bound, with UNSW (R214) -/
  bind   : Option (Nat × Bool) := none
  deriving DecidableEq, Repr

/-- A swizzle register (R207). -/
structure Swizzle where
  on    : Bool := false
  chunk : Nat := 0
  shift : Nat := 0
  width : Nat := 0
  deriving DecidableEq, Repr

/-! ### Barriers, teams, panels and launches -/

/-- A named barrier (R400). -/
structure Barrier where
  phase    : Nat := 0
  arrivals : Nat := 0
  expected : Nat := 0
  /-- the count a BARINIT set for the next phase (R403) -/
  nextExp  : Option Nat := none
  /-- course ends owed to the next phase (R404) -/
  drops    : Nat := 0
  deriving DecidableEq, Repr

/-- A pod barrier of a pod group (R37, R399). -/
structure PodBarrier where
  granted : List Nat := []
  /-- pod identifiers of the group's devices -/
  devs    : List Nat := []
  bar     : Barrier := {}
  deriving DecidableEq, Repr

/-- A team (R18, R379, R393). DESIGN CHOICE (notes/assumptions/67.md): R10 and R333 give a core 8 operand streams and 64 circular
buffers, R208 and R393 speak of a team's; each team has its own 8 and 64. -/
structure Team where
  launch  : Nat
  ctx     : Nat
  core    : Nat
  teamid  : Nat
  lsBase  : Nat
  lsSize  : Nat
  tile0   : Nat
  ntiles  : Nat
  bar0    : Nat
  nbars   : Nat
  ncourses : Nat
  /-- courses that have not ended -/
  live    : Nat
  panel   : Option Nat := none
  pteam   : Nat := 0
  started : Bool := true
  resident : Bool := true
  /-- virtual address of its record (R392) -/
  recAt   : Nat := 0
  cbs     : Tab CircBuf := []
  streams : Vector Stream 8 := vconst 8 {}
  swz     : Vector Swizzle 16 := vconst 16 {}
  deriving DecidableEq, Repr

/-- A panel (R20, R22, R23). -/
structure Panel where
  launch   : Nat
  scope    : BitVec 3
  dev      : Nat
  /-- scope instance: quad, die or device number -/
  inst     : Nat
  nteams   : Nat
  /-- team identifiers by member index -/
  members  : Tab Nat
  /-- names of every course of every member: member index * 16 + course to name (R22) -/
  names    : Tab DWord
  bars     : Vector Barrier 16
  shape    : LaunchShape
  /-- its first member's index within the launch, and the members' places -/
  first    : Nat := 0
  plan     : List TeamPlace := []
  deriving DecidableEq, Repr

/-- A launch (R158, R377, R378). -/
structure Launch where
  dev      : Nat
  ctx      : Nat
  queue    : Nat
  seq      : Nat
  done     : Nat
  notifyDone : Bool
  /-- false: application cores; true: external host -/
  toHost   : Bool
  handles  : List DWord
  prio     : Nat
  courses  : Nat
  /-- courses that have ended, and courses that have signalled or ended (R90, R106) -/
  ended    : Nat
  readyCnt : Nat
  shape    : LaunchShape
  /-- what the chosen skein's entry and its local-store image say (R123, R128) -/
  region   : BitVec 2
  strict   : Bool
  image    : List Byte
  /-- teams in all, and the places of those whose bind records are still to be written -/
  teams    : Nat := 0
  places   : List TeamPlace := []
  /-- the places of all its teams on the cores of the skein's placement table, for a pre-placed skein (R127) -/
  table    : List TeamPlace := []
  args     : List DWord := []
  deriving DecidableEq, Repr

/-- A bind record and its state (R379). -/
structure BindRec where
  entryPc : DWord := 0#64
  asid    : Nat := 0
  slot    : Nat := 0
  cprio   : Nat := 0
  teamid  : Nat := 0
  panel   : Nat := 0
  gen     : Nat := 0
  lsBase  : Nat := 0
  lsSize  : Nat := 0
  tiles   : Nat := 0
  ntiles  : Nat := 0
  bars    : Nat := 0
  nbars   : Nat := 0
  saveIdx : Nat := 0
  /-- the team the record belongs to: the model's own link -/
  team    : Nat := 0
  deriving DecidableEq, Repr

/-- The slot states of R379. -/
inductive SlotState where
  | free | bind | run | unbind | saved
  deriving DecidableEq, Repr

structure SlotEntry where
  rec_  : BindRec := {}
  state : SlotState := .free
  deriving DecidableEq, Repr

/-! ### Values and granule operations in flight -/

/-- A long-latency value on its way to the entries that await it (R49, R51). -/
structure Arrival where
  course : Nat
  lanes  : Mask
  words  : Nat
  /-- value of each lane, word 0 lowest -/
  vals   : Lanes Nat
  pdst   : Nat := 7
  pbits  : Mask := 0#32
  fl     : BitVec 6 := 0#6
  /-- the register file sign-extends the value into a g copy (R72) -/
  signed : Bool := false
  /-- lanes that receive poison (R447) -/
  bad    : Mask := 0#32
  /-- lanes already delivered -/
  sent   : Mask := 0#32
  deriving DecidableEq, Repr

/-- A waiting granule operation or a local-store operation queued behind one (R176 to R179). -/
inductive GranKind where
  | ldf (consume : Bool)
  | stf (wait : Bool)
  | lds (signed : Bool)
  | sts
  | setf (full : Bool)
  /-- with acquire order (R183) -/
  | atoms (aop size : Nat) (acq : Bool)
  deriving DecidableEq, Repr

structure GranOp where
  course : Nat
  team   : Nat
  /-- byte offset in the team's allocation -/
  off    : Nat
  kind   : GranKind
  size   : Nat
  lane   : Nat
  /-- lanes of the strand that issued it -/
  mask   : Mask := 0#32
  data   : List Byte := []
  cmp    : List Byte := []
  /-- the arrival it delivers to -/
  result : Option Nat := none
  /-- the word that issued it: one number for all its lanes -/
  word   : Nat := 0
  /-- older operations and accesses of its course that it may not be performed before (R140, R144, R146) -/
  after  : List Nat := []
  deriving DecidableEq, Repr

/-! ### Engines of a core (R190 to R214) -/

/-- What a claimed record waits for, of the waits at which it can be suspended (R389): an element of a circular buffer or room in
one, or a granule under WAITFE. -/
inductive RecWait where
  | none
  | buffer
  | granule
  deriving DecidableEq, Repr

/-- A transfer record as claimed, or as CPY builds it (R194). -/
structure Record where
  owner   : Owner
  batch   : Nat
  number  : Nat
  /-- address of the record in memory; none for CPY -/
  at_     : Option Nat
  skind   : Nat
  dkind   : Nat
  xform   : Nat
  waitFe  : Bool
  length  : Nat
  src     : DWord
  dst     : DWord
  rows    : Nat
  drows   : Nat
  sstride : Int
  dstride : Int
  xparam  : DWord
  /-- reserved bits set, or the stride words malformed -/
  bad     : Bool
  /-- STATUS found at the claim; 0 for a sound record (R198) -/
  status  : Nat := 0
  /-- the first byte, or for a codebook record the first index, not yet moved (R389) -/
  from_   : Nat := 0
  /-- bytes of a fragment being gathered for a stream -/
  buf     : List Byte := []
  /-- a poisoned source has been carried, and one into the fragment being gathered (R447) -/
  poison  : Bool := false
  bufBad  : Bool := false
  /-- it waits for a buffer or a granule, and stops there when its course stops (R389) -/
  blocked : RecWait := .none
  /-- blocks that have migrated since it was claimed: per descriptor key the IA, STATE and CBTAG that its reads go by (R226,
  R227) -/
  was     : Tab (Nat × Nat × Nat) := []
  /-- the piece at from_: its source bytes read so far and whether any is poisoned, its output bytes written so far; whether a
  reply of another device is due, and the STATUS of a failure of one -/
  rd      : List Byte := []
  rdBad   : Bool := false
  put     : Nat := 0
  waiting : Bool := false
  rfail   : Nat := 0
  deriving DecidableEq, Repr

/-- Work of a copy channel in queue order. -/
inductive ChanItem where
  /-- a chain: course, batch, address of its next record, and whether the channel has reached it -/
  | chain (owner : Owner) (batch next : Nat) (started : Bool)
  | copy (r : Record)
  /-- CODEBK: course, table address, control word (R206) -/
  | codebook (owner : Owner) (addr : Nat) (ctl : Nat)
  /-- QFENCE entry: fence identifier -/
  | fence (id : Nat)
  deriving DecidableEq, Repr

structure Channel where
  items  : List ChanItem := []
  /-- parked at a record with OWN = 0 (R197) -/
  parked : Bool := false
  /-- the codebook load at the head has been claimed; its bytes read so far, a reply of another device due, a failure (R206) -/
  loading : Bool := false
  got     : List Byte := []
  asked   : Bool := false
  failed  : Bool := false
  deriving DecidableEq, Repr

/-- The codebook table of a copy unit (R205, R206). -/
structure Codebook where
  bytes  : List Byte
  count  : Nat
  tag    : Nat
  bf16   : Bool
  team   : Nat
  deriving DecidableEq, Repr

/-- The sideband of a tile (R338): the exact sums of its rows and columns, in units of 2^-149, and the rows and columns that
hold an element left out of them. -/
structure Sideband where
  rows    : Vector Int 32 := vconst 32 0
  cols    : Vector Int 32 := vconst 32 0
  rowsOut : Mask := 0#32
  colsOut : Mask := 0#32
  deriving DecidableEq, Repr

/-- One accumulator tile: elements and their four flags, row-major, the status word (R337), and the sideband. -/
structure Tile where
  elems  : Vector Word 1024
  flags  : Vector (BitVec 4) 1024
  status : Word := 0#32
  side   : Sideband := {}
  deriving DecidableEq, Repr

def Tile.zero : Tile := { elems := vconst 1024 0#32, flags := vconst 1024 0#4 }

/-- A collective in the queue (R251). -/
structure CollOp where
  owner  : Owner
  num    : Nat
  /-- address of the descriptor -/
  desc   : Nat
  pc     : DWord := 0#64
  /-- the format registers at issue (R273) -/
  formats : Vector DWord 32 := vconst 32 4#64
  /-- a rank whose device was fenced or reset while it waited (R254) -/
  lost   : Option Nat := none
  /-- its contribution has been sent to the ranks of other packages (R228) -/
  sent   : Bool := false
  /-- package time at which the link engine took it (R477) -/
  stamp  : DWord := 0#64
  fence  : Option Nat := none
  deriving DecidableEq, Repr

/-- The n-th collective of a group while ranks of the package still have to finish it (R250, R254): the group's key, the
contributions known, and what has become of it. -/
structure CollSet where
  group    : Nat
  num      : Nat
  /-- what has come from ranks of other packages: elements and block scales (R228) -/
  inbox    : Tab (List Byte × List Byte) := []
  contribs : Tab (List Byte × List Byte) := []
  failed   : Option Nat := none
  mismatch : Bool := false
  ended    : List Nat := []
  deriving DecidableEq, Repr

/-- A swatch operation in the queue (R255 to R262). -/
structure SwOp where
  owner  : Owner
  word   : DWord
  pc     : DWord := 0#64
  a      : Nat
  b      : Nat
  c      : Nat
  act    : Mask
  params : Option SwatchParams
  result : Option Nat := none
  fence  : Option Nat := none
  /-- it ends with a notice to the course that c names (R258) -/
  notice : Bool := false
  /-- bytes read from other devices, by virtual address -/
  got    : Tab Byte := []
  /-- requests to other devices not yet answered, and the first failure among them: its code, its address, and what had been
  done before it -/
  out    : Nat := 0
  bad    : Option (Nat × Nat × Nat) := none
  /-- what it has come to, once its bytes are computed: status, count and failing address -/
  fate   : Option (Nat × Nat × Nat) := none
  /-- the notice: not sent, under way, accepted or refused -/
  note   : Option (Option Bool) := none
  /-- package time at which the link engine took it (R477) -/
  stamp  : DWord := 0#64
  deriving DecidableEq, Repr

/-- A remote register store on its way or held (R246 to R248). -/
structure Rstv where
  /-- the sender; for one of another package, its name alone -/
  owner  : Owner
  /-- the sending core; none for another package -/
  core   : Option Nat
  /-- the sending core as the receiving core knows it: 512 * pod identifier + 64 * die + core -/
  from_  : Nat
  asid   : Nat
  groups : List Nat
  target : DWord
  reg    : Nat
  data   : Lanes Word
  seq    : Nat
  /-- the receiver has NAKed it -/
  nak    : Bool := false
  /-- a receiver in another package has taken it into a receive buffer, and has not delivered it (R246, R469); of one in a receive
  buffer: its sender's device has been reset since, and is told nothing (R239) -/
  held   : Bool := false
  /-- always-on time at which it was sent last (R240) -/
  since  : Nat := 0
  /-- the notice of a SWSEND at the head of the core's swatch queue (R258) -/
  notice : Bool := false
  deriving DecidableEq, Repr

/-- One core (R10). -/
structure Core where
  /-- bytes of the local store that are not zero, and granules that are empty -/
  ls       : List Host.Cell := []
  lsEmpty  : List Nat := []
  lsPoison : List Nat := []
  tiles    : Tab Tile := []
  /-- L1 lines by intermediate line key, read-only (true) or unchecked (R134) -/
  l1       : Tab (Bool × List Byte) := []
  /-- its keys, the line filled last first: 8 lines in each of 128 sets (R10) -/
  l1Order  : List Nat := []
  /-- first-level window table: context and range index of at most 128 range registers, the newest first (R423) -/
  win      : List (Nat × Nat) := []
  chans    : Vector Channel 8 := vconst 8 {}
  claimed  : Tab (Nat × Record) := []
  codebook : Option Codebook := none
  mq       : List MatOp := []
  collq    : List CollOp := []
  swq      : List SwOp := []
  bars     : Vector Barrier 32 := vconst 32 {}
  rbuf     : List Rstv := []
  /-- next RSTV number to a core or pod, and the next expected from it (R248) -/
  seqTo    : Tab Nat := []
  seqFrom  : Tab Nat := []
  hold     : Bool := false
  vcode    : Nat := 34
  vtarget  : Nat := 4
  /-- RAILCNT: re-issues and corrections (R350) -/
  railReis : Word := 0#32
  railCor  : Word := 0#32
  /-- corrections and MACs of the running period, and the engine cycle it began at (R351) -/
  perCor   : Nat := 0
  perMacs  : Nat := 0
  railAt   : Nat := 0
  /-- engine cycles of uncorrectable errors (R448) -/
  ueTimes  : List Nat := []
  retired  : Bool := false
  dbgData0 : DWord := 0#64
  dbgData1 : DWord := 0#64
  dbgLs    : DWord := 0#64
  deriving DecidableEq, Repr

/-! ### Contexts (R420 to R423) -/

/-- A range register (R422). -/
structure RangeReg where
  base   : DWord := 0#64
  limit  : DWord := 0#64
  offset : DWord := 0#64
  attr   : Word := 0#32
  deriving DecidableEq, Repr

/-- A block-table descriptor (R215). -/
structure BlockTab where
  map     : Nat := 0
  maplen  : Nat := 0
  log2bs  : Nat := 0
  perm    : Nat := 0
  pool    : Nat := 0
  poollen : Nat := 0
  freestk : Nat := 0
  freecap : Nat := 0
  deriving DecidableEq, Repr

/-- A bound register with its last norm (R353, R355): LO, HI, NREF, FACTOR and ACTION. -/
structure BoundReg where
  lo     : Word := 0xFF800000#32
  hi     : Word := 0x7F800000#32
  nref   : Word := 0#32
  factor : BitVec 8 := 4#8
  action : BitVec 2 := 0#2
  lastN  : Word := 0#32
  deriving DecidableEq, Repr

/-- A context. -/
structure Ctx where
  dev      : Nat := 0
  asid     : Nat := 0
  priv     : Bool := false
  tclass   : Nat := 1
  errq     : DWord := 0#64
  saveBase : DWord := 0#64
  telPage  : DWord := 0#64
  formats  : Vector DWord 32 := vconst 32 4#64
  /-- deferred escalation marks and the charge of each escalation made (R356) -/
  deferred : Mask := 0#32
  charges  : Tab Nat := []
  bounds   : Vector BoundReg 64 := vconst 64 {}
  escBudget : DWord := 0#64
  escCost  : Vector DWord 32 := vconst 32 0#64
  saturated : Bool := false
  ranges   : Vector RangeReg 8 := vconst 8 {}
  tables   : Vector BlockTab 8 := vconst 8 {}
  owners   : List Nat := []
  groups   : List Nat := []
  pageGen  : Nat := 0
  errSeq   : Nat := 0
  /-- records have been dropped since the last one written (R440) -/
  errLoss  : Bool := false
  /-- the external host created it, not the application cores: its error interrupt goes there (R441) -/
  toHost   : Bool := false
  errFault : Bool := false
  telFault : Bool := false
  telSeq   : Nat := 0
  /-- always-on time of the last telemetry update -/
  telAt    : Nat := 0
  /-- telemetry counters by byte offset (R436) -/
  counters : Tab Nat := []
  /-- hxdb is attached (R104) -/
  debugger : Bool := false
  deriving DecidableEq, Repr

/-! ### Devices, dies and links -/

/-- A cached home translation and when its lease ends (R429). -/
structure TlbEntry where
  /-- the entry as it was read, and its key in memory -/
  entry  : DWord
  key    : Nat
  /-- physical address of the 4 KiB the translation is kept for -/
  page   : Nat
  expiry : Nat
  deriving DecidableEq, Repr

/-- A command of the hub's context-command queue (R420). -/
structure CtxCmd where
  cmd  : Nat
  desc : Nat
  /-- its number in the order in which the hub accepted commands over all banks (R15, R420) -/
  num  : Nat := 0
  /-- the external host wrote it, not the application cores -/
  host : Bool := false
  deriving DecidableEq, Repr

/-- A shoot-down in the queue or under way (R431). -/
structure ShootDown where
  ia   : Nat
  sz   : Nat
  asid : Nat
  done : Nat
  sent : Bool := false
  /-- pod identifiers that have not acknowledged, and always-on time of the multicast -/
  due  : List Nat := []
  since : Nat := 0
  deriving DecidableEq, Repr

/-- A pod-sharing entry (R430). -/
structure ShareEntry where
  pod   : Nat := 0
  asid  : Nat := 0
  owner : Nat := 0
  exp   : Nat := 0
  deriving DecidableEq, Repr

/-- A cached translation of pod memory (R236). -/
structure PodTlb where
  ctx    : Nat
  pod    : Nat
  incarn : BitVec 8
  /-- number of its first 4 KiB, and how many of them it has -/
  page   : Nat
  pages  : Nat
  gen    : Nat
  write  : Bool
  deriving DecidableEq, Repr

/-- A copy-on-write in progress (R223). -/
structure Cow where
  core   : Nat
  ctx    : Nat
  table  : Nat
  /-- virtual address of the map entry, old and new descriptor index, and the physical key of the old descriptor -/
  mapVa  : Nat
  oldIdx : Nat
  newIdx : Nat
  desc   : Nat
  deriving DecidableEq, Repr

/-- What a device knows of another (R233, R239, R240). -/
structure Peer where
  incarn  : BitVec 8 := 0#8
  fenced  : Bool := false
  /-- its requests are refused until it announces a new incarnation (R431) -/
  refused : Bool := false
  seqTo   : Nat := 0
  /-- request numbers of the peer already performed, with the reply given -/
  done    : Tab (Nat × List (List Byte)) := []
  /-- requests NAKed as stale and not yet retried, with their lines -/
  stale   : Tab Nat := []
  /-- requests of it that wait for an earlier one to their line (R233) -/
  held    : List RemoteReq := []
  /-- it has been told this device's incarnation (R228) -/
  told    : Bool := false
  deriving DecidableEq, Repr

/-- What a remote request was made for. -/
inductive RemoteFor where
  /-- lanes of an access -/
  | access (id : Nat) (lanes : Mask)
  /-- the discard of a LASTUSE, which no lane awaits -/
  | discard (course : Nat) (name pc : DWord)
  /-- a piece of a copy record: core and claim -/
  | copy (core id : Nat)
  /-- the swatch operation at the head of a core's queue: the virtual address, and what had been done before it -/
  | swatch (core va done : Nat)
  /-- lanes of a NAMEQ, whose result is an arrival -/
  | nameq (id : Nat) (lanes : Mask)
  /-- a piece of the codebook load at the head of a channel -/
  | table (core ch : Nat)
  deriving DecidableEq, Repr

/-- A request of this device to another (R231, R232). -/
structure RemoteOut where
  dev    : Nat
  pod    : Nat
  ctx    : Nat
  for_   : RemoteFor
  /-- request number to the target -/
  seq    : Nat
  /-- page-map generation of the translation, once there is one (R236) -/
  gen    : Option Nat := none
  kind   : RemoteKind
  ia     : Nat
  size   : Nat
  data   : List Byte := []
  cmp    : List Byte := []
  /-- the further operations of its group (R235) -/
  more   : List AtomLane := []
  /-- a transfer of a swatch (R228) -/
  swatch : Bool := false
  incarn : BitVec 8 := 0#8
  /-- always-on time of the request (R240) -/
  since  : Nat := 0
  deriving DecidableEq, Repr

/-- A notification the receiver has not yet taken (R107, R481). -/
structure Note where
  launch : Nat
  /-- command queue and SEQ of the launch -/
  queue  : Nat
  seq    : Nat
  value  : Word
  deriving DecidableEq, Repr

/-- A handle of the handle table (R158). -/
structure Handle where
  writer  : Option Nat := none
  readers : List Nat := []
  deriving DecidableEq, Repr

/-- An ASID held after a destroy (R421). -/
structure HeldAsid where
  asid : Nat
  till : Nat
  deriving DecidableEq, Repr

/-- A command record that Belaujor has read, with its queue and its context (R376, R377). -/
structure Command where
  queue : Nat
  ctx   : Nat
  bytes : List Byte
  deriving DecidableEq, Repr

/-- A region of the address map (R464). -/
structure MapRegion where
  base   : Nat
  limit  : Nat
  kind   : Nat
  port   : Nat
  stackSet : Nat
  pbase  : Nat
  deriving DecidableEq, Repr

/-- A norm sum on its way to its context's home (R355). -/
structure NormCheck where
  ctx    : Nat
  core   : Nat
  name   : DWord
  pc     : DWord
  freg   : Nat
  breg   : Nat
  sum    : Word
  deriving DecidableEq, Repr

/-- One device's hub bank and address space (R463). -/
structure Dev where
  podId    : BitVec 12 := 0#12
  incarn   : BitVec 8 := 0#8
  ctxQueue : List CtxCmd := []
  ctxOvf   : Bool := false
  lease    : Nat := 100
  leaseMax : Nat := 100
  podTimeout : Nat := 2000
  mlog     : DWord := 0#64
  mlogLost : Nat := 0
  mlogSeq  : Nat := 0
  /-- records have been dropped since the last one written (R440) -/
  mlogLoss : Bool := false
  ptroot   : DWord := 0#64
  cqtable  : DWord := 0#64
  noteApp  : List Note := []
  noteHost : List Note := []
  sdia     : DWord := 0#64
  sdctl    : DWord := 0#64
  sddone   : DWord := 0#64
  sdQueue  : List ShootDown := []
  sdRecv   : List (Nat × Nat × Nat) := []
  /-- the staging area, 8 bytes per word (R464) -/
  mapStage : Tab DWord := []
  mapGen   : Nat := 0
  mapCmds  : List Nat := []
  regions  : List MapRegion := []
  staged   : List MapRegion := []
  /-- a MOVE under way: the new table, the region of it and the granule in that region being copied, and the always-on time at which
  that copy began (R457) -/
  move     : Option (List MapRegion × Nat × Nat × Nat) := none
  /-- the regions of the generation before, while drain markers are still to come (R157) -/
  oldRegions : List MapRegion := []
  /-- drain markers still to come: sending and receiving die (R157) -/
  markers  : List (Nat × Nat) := []
  klKey    : DWord := 0#64
  klStat   : Nat := 0
  klCmds   : List Nat := []
  kempk    : List Byte := []
  kemct    : List Byte := []
  kek      : Option (List Byte) := none
  keys     : Tab (List Byte) := []
  kick     : Vector DWord 16 := vconst 16 0#64
  share    : Tab ShareEntry := []
  podTlb   : List PodTlb := []
  peers    : Tab Peer := []
  /-- flits that no port can carry now, with the device they go to (R230) -/
  egress   : List (Nat × FlitBody) := []
  /-- requests and replies of an old incarnation, dropped and counted (R239) -/
  oldDropped : Nat := 0
  /-- where courses have moved, as receiving cores have told: name to 64 * die + core (R247) -/
  located  : Tab Nat := []
  /-- the devices of collective groups by 256 * ASID + group, one pod identifier per rank (R250) -/
  groupDevs : Tab (List Nat) := []
  tlb      : Tab TlbEntry := []
  held     : List HeldAsid := []
  handles  : Tab Handle := []
  /-- queue numbers taken by a scan and not yet read, in order (R159) -/
  scanned  : List Nat := []
  /-- commands read and not yet performed, in order -/
  commands : List Command := []
  /-- error interrupts raised: the context's ASID, and whether the external host is told (R441) -/
  errIrq   : List (Nat × Bool) := []
  /-- norm checks in the order they arrived (R355) -/
  norms    : List NormCheck := []
  deriving DecidableEq, Repr

/-- Why a die is fenced (R450). -/
inductive Fence where
  | none | authentication | selfTest
  deriving DecidableEq, Repr

/-- The scheduler cores of a near die (R453 to R456). -/
structure Sched where
  running  : Bool := true
  standby  : Bool := true
  beat     : DWord := 0#64
  beatAt   : Nat := 0
  deriving DecidableEq, Repr

/-- One die of the package: N0-N3, F0, F1, H, A. -/
structure Die where
  fence    : Fence := .none
  clock    : Nat := 0
  lattol   : Nat := 2
  pstate   : Nat := 0
  quiet    : Nat := 0
  throttle : Bool := false
  sched    : Sched := {}
  japplied : Nat := 0
  /-- the journal's ring: the 64 bytes of each slot that has been written (R380) -/
  journal  : Tab (List Byte) := []
  jnext    : Nat := 1
  jbase    : Nat := 0
  jsize    : Nat := 16384
  fifo     : List DWord := []
  /-- way masks by slice * 16 + class; an unlisted one is 0xFFFF -/
  wayMask  : Tab (BitVec 16) := []
  quadPass : Word := 0x1FFFF#32
  stackPass : BitVec 4 := 0xF#4
  schedFail : Bool := false
  deriving DecidableEq, Repr

/-- A migration hint (R225) or a migration under way (R226). -/
structure Migration where
  ctx    : Nat
  dev    : Nat
  core   : Nat
  team   : Nat
  /-- true: to the near tier -/
  promote : Bool
  enc    : Bool
  /-- a block, named by the physical key of its descriptor in ia, or a page, named by its intermediate address -/
  block  : Bool
  ia     : Nat
  dest   : Nat := 0
  size   : Nat := 0
  /-- the codebook of an encoded demotion, as it was when the migration began (R227) -/
  table  : Option Codebook := none
  deriving DecidableEq, Repr

/-- A far die's migration engine (R225, R226). -/
structure MigEngine where
  queue  : List Migration := []
  active : Option Migration := none
  /-- free destination addresses by context * 4 + (2 for pages) + (1 for the near tier) -/
  pools  : Tab (List Nat) := []
  deriving DecidableEq, Repr

/-- One link of a port (R229, R230). -/
structure Link where
  up       : Bool := true
  lanes    : Nat := 4
  lastGood : Nat := 0
  replays  : Nat := 0
  retrains : Nat := 0
  nextTry  : Nat := 0
  /-- link-level numbers: of the next flit sent, and of the next received; and the flits sent and not acknowledged -/
  next     : Nat := 0
  awaited  : Nat := 0
  retry    : List Flit := []
  deriving DecidableEq, Repr

structure Port where
  links   : Vector Link 4 := vconst 4 {}
  /-- port sequence number of the next flit sent; number expected next, flits received ahead of it, and flits dropped and
  counted -/
  next    : Nat := 0
  expect  : Nat := 0
  held    : List Flit := []
  dropped : Nat := 0
  lanesUp : Vector Bool 16 := vconst 16 true
  deriving DecidableEq, Repr

/-- A saved course (R392), with its channels' work in queue order. -/
structure Saved where
  course : Course
  rec_   : BindRec
  /-- the core it left -/
  left   : Nat := 0
  chans  : Vector (List ChanItem) 8 := vconst 8 []
  deriving DecidableEq, Repr

/-- A saved team's part of its core (R393), counted from its first granule, tile and barrier; the copies of courses that have
ended; the codebook where the team owns it. -/
structure SavedTeam where
  ls       : List Host.Cell
  lsEmpty  : List Nat
  lsPoison : List Nat := []
  tiles    : Tab Tile
  bars     : List Barrier
  codebook : Option Codebook
  chans    : Vector (List ChanItem) 8 := vconst 8 []
  deriving DecidableEq, Repr

/-- Presentation modes (R14). -/
inductive Mode where
  | one | two | four
  deriving DecidableEq, Repr

def Mode.code (m : Mode) : Nat :=
  match m with
  | .one => 0
  | .two => 1
  | .four => 2

/-- A word of a register file, for every lane it is kept in: an entry of a strand's queue, a v register, a strand's g copy, a
predicate, or a special register (R56). -/
inductive RegPlace where
  | q (st n : Nat) (lanes : Mask)
  | v (n : Nat) (lanes : Mask)
  | g (st n : Nat)
  | p (n : Nat)
  | sreg (n : Nat)
  deriving DecidableEq, Repr

/-- What hxdb has Belaujor do to the team of a course: pre-empt it at the course's next MMA, or now, and let what was so
pre-empted be bound again (R414). -/
inductive Inject where
  | atMma (course : Nat)
  | now (course : Nat)
  | goOn
  deriving DecidableEq, Repr

/-- What comes next in the machine: the model's own order of turns (entry 2). -/
inductive Turn where
  /-- an event of the opcode table, with the hub bank it acts on -/
  | event (i : Instr) (bank : Nat)
  /-- the next word of a strand -/
  | strand (course st : Nat)
  /-- what a course that goes on does before any of its strands issues: a matrix operation issued again, or its channels' work put
  back (R347, R348, R390) -/
  | again (course : Nat)
  /-- the end of a cycle: the strands that the schedulers selected in it, and those that were ready and not selected (R381) -/
  | cycle (selected waiting : List (Nat × Nat))
  /-- a bit error of a course's register, found when it is read: corrected, or not (R56) -/
  | regError (course : Nat) (at_ : RegPlace) (corrected : Bool)
  /-- an uncorrectable error of the line at an intermediate address of a device, found at its home (R447) -/
  | memError (dev ia : Nat)
  | inject (i : Inject)
  /-- an event in which an uncorrectable error strikes the active scheduler core of a die after its last journal entry: before or
  after that entry's effect, and before JAPPLIED names it (R453, R454) -/
  | cut (i : Instr) (bank die : Nat) (done : Bool)
  deriving DecidableEq, Repr

/-- A line held in a slice of a near die's L2 or RDC (R434): the die, which of the two, the line, its way, and the tenant class
that caused its fill; dirty: the memory behind L2 has not its bytes yet. -/
structure CacheLine where
  die   : Nat
  rdc   : Bool
  line  : Nat
  way   : Nat
  cls   : Nat
  dirty : Bool := false
  deriving DecidableEq, Repr

/-- The package. -/
structure State where
  mode     : Mode := .one
  devs     : Vector Dev 4 := vconst 4 {}
  dies     : Vector Die 8 := vconst 8 {}
  ports    : Vector Port 12 := vconst 12 {}
  mig      : Vector MigEngine 2 := vconst 2 {}
  /-- always-on counter, in nanoseconds (R108, R476) -/
  aon      : Nat := 0
  /-- package time less the always-on counter, and its skew bound (R98, R477) -/
  pkgBase  : DWord := 0#64
  pkgSkew  : Word := 0#32
  podMaster : Bool := false
  podSync  : Nat := 0
  /-- bytes of every device's physical space: key device * 2^44 + address -/
  mem      : List Host.Cell := []
  /-- poisoned lines and zero-state lines are keyed by line: key / 128 -/
  memPoison : List Nat := []
  lineKey  : Tab Nat := []
  shadow   : Tab (BitVec 96) := []
  /-- the lines in the L2 and RDC slices of the near dies (R133, R434) -/
  cached   : List CacheLine := []
  ctxs     : Tab Ctx := []
  launches : Tab Launch := []
  panels   : Tab Panel := []
  teams    : Tab Team := []
  podBars  : Vector PodBarrier 4 := vconst 4 {}
  cores    : Tab Core := []
  slots    : Tab SlotEntry := []
  /-- name generations of the slots (R242) -/
  gens     : Tab Nat := []
  /-- resident courses by index: die * 2048 + core * 32 + slot (R149) -/
  courses  : Tab Course := []
  saved    : Tab Saved := []
  savedTeams : Tab SavedTeam := []
  /-- work of a resumed course's channels, to be put back once its replay entry and matrix operations are done (R390) -/
  returning : Tab (Vector (List ChanItem) 8) := []
  /-- names armed for a pre-emption, and the teams so pre-empted, each with whether it may be bound again (R414) -/
  armed    : List DWord := []
  injected : Tab Bool := []
  accesses : Tab Access := []
  arrivals : Tab Arrival := []
  gran     : Tab GranOp := []
  remotes  : Tab RemoteOut := []
  cows     : Tab Cow := []
  rstvs    : Tab Rstv := []
  fences   : Tab (List Nat) := []
  /-- collectives that some rank of the package has finished and others have not, and per group and rank how many it has
  finished, by 65536 * group key + rank (R250) -/
  collSets : List CollSet := []
  collNums : Tab Nat := []
  /-- attestation data, boot and firmware (R452, R472, R478) -/
  bootCount : Nat := 0
  measures : Tab (List Byte) := []
  svn      : Tab Nat := []
  /-- the security versions fused as the least (R470) -/
  svnMin   : Tab Nat := []
  /-- a boot that waits for the answers of dies to the hub's challenge, and the always-on time of the challenge (R470, R471) -/
  booting  : Option BootResults := none
  bootAt   : Nat := 0
  /-- the application cores have halted: the operating system did not verify (R470) -/
  appHalt  : Bool := false
  nonce    : List Byte := []
  images   : Tab (List Byte) := []
  mapMode  : Nat := 0
  /-- the address maps planned at boot, by 4 * mode + bank, and the application carve-out in bytes (R9, R14, R470) -/
  plans    : Tab (List Byte) := []
  carveOut : Nat := 2 ^ 36
  /-- bytes of CXL memory by port (R464) -/
  cxl      : Tab Nat := []
  /-- messages sent over the management interface, oldest first (R442, R478) -/
  mgmtOut  : List (List Byte) := []
  /-- the last reply given to another package -/
  podReply : Nat × List (List Byte) := (0, [])
  /-- the model's own fields: the strand whose word is executed, the hub bank an event acts on, the turns to come, the
  counter of free values, the next identifier, and the result of the last register read by an outside agent -/
  cur      : Option (Nat × Nat) := none
  bank     : Nat := 0
  agenda   : List Turn := []
  freeCount : Nat := 0
  nextId   : Nat := 0
  hostRead : DWord := 0#64
  deriving DecidableEq, Repr

/-- The state right after power-on with every die passing its checks (R470): mode ONE is presented and each device i
carries pod identifier i (entry 1); no context, launch, team or course exists; memory lists nothing. -/
def State.reset : State :=
  { devs := vof 4 (fun i => { podId := BitVec.ofNat 12 i }) }

end Sys2Proof.Machine
end

