-- ==== Sys2Proof/Machine/Mem.lean ====
section
/-! DEFINITION. Memory as a sorted list of cells in one canonical form (R4, R133): keys strictly rising, no cell equal to
what an unlisted address reads as. -/

namespace Sys2Proof.Machine

/-- What a byte that nothing has written reads as (DESIGN CHOICE, notes/assumptions/5.md). -/
def unlisted : Byte := 0#8

/-- One byte. -/
def Memory.read : List Host.Cell → Nat → Byte
  | [], _ => unlisted
  | (k, b) :: t, a => if k = a then b else if a < k then unlisted else Memory.read t a

/-- One byte written, the canonical form kept. -/
def Memory.write : List Host.Cell → Nat → Byte → List Host.Cell
  | [], a, b => if b = unlisted then [] else [(a, b)]
  | (k, c) :: t, a, b =>
    if a < k then (if b = unlisted then (k, c) :: t else (a, b) :: (k, c) :: t)
    else if k = a then (if b = unlisted then t else (a, b) :: t)
    else (k, c) :: Memory.write t a b

/-- n bytes from an address, lowest first. -/
def Memory.readN (m : List Host.Cell) (a : Nat) : Nat → List Byte
  | 0 => []
  | n + 1 => Memory.read m a :: Memory.readN m (a + 1) n

/-- Bytes written from an address on. -/
def Memory.writeN (m : List Host.Cell) (a : Nat) : List Byte → List Host.Cell
  | [] => m
  | b :: t => Memory.writeN (Memory.write m a b) (a + 1) t

/-- The canonical form: every cell's key lies above lo and below the next key, and no cell holds the unlisted value. -/
def Memory.wfFrom : Nat → List Host.Cell → Bool
  | _, [] => true
  | lo, (k, b) :: t => decide (lo ≤ k) && b != unlisted && Memory.wfFrom (k + 1) t

/-- The canonical form of a memory. -/
def Memory.wf (m : List Host.Cell) : Bool := Memory.wfFrom 0 m

/-- The little-endian number of n bytes (R4). -/
def Memory.num (m : List Host.Cell) (a n : Nat) : Nat := ofBytes (Memory.readN m a n)

/-- The cells of a key range, moved to start at base. -/
def Memory.slice (m : List Host.Cell) (lo n base : Nat) : List Host.Cell :=
  (m.filter (fun e => lo ≤ e.1 && e.1 < lo + n)).map (fun e => (e.1 - lo + base, e.2))

/-- Every cell of a key range removed: the range reads as unlisted. -/
def Memory.clear (m : List Host.Cell) (lo n : Nat) : List Host.Cell :=
  m.filter (fun e => !(lo ≤ e.1 && e.1 < lo + n))

/-- Cells written one after another. -/
def Memory.writeCells (m : List Host.Cell) (l : List Host.Cell) : List Host.Cell :=
  l.foldl (fun acc e => Memory.write acc e.1 e.2) m

/-- CRC-32C over bytes (R380, R392, R440): one byte, eight bit steps. -/
def crcByte : Nat → Nat → Nat
  | 0, c => c
  | n + 1, c => crcByte n (if c % 2 = 1 then (c / 2) ^^^ 0x82F63B78 else c / 2)

def crc32c (l : List Byte) : Nat :=
  (l.foldl (fun c b => crcByte 8 (c ^^^ b.toNat)) 0xFFFFFFFF) ^^^ 0xFFFFFFFF

end Sys2Proof.Machine
end

