-- ==== Sys2Proof/WellFormed.lean ====
section
/-! DEFINITION. Which words are well formed: the checks a word meets before it has any effect (R62, R64, R65, R67,
R77, R81, R190, R244, R358, R395), as one function that answers the decode trap a word takes, in the order of ranks
2 to 4 of R110. An event of the opcode table is well formed when its arguments name parts the machine has. -/

namespace Sys2Proof

/-- The traps a word can take at decode (R110, ranks 2 to 4). -/
inductive DecodeTrap where
  | illegalOpcode
  | illegalEncoding
  | illegalOperand
  deriving DecidableEq, Repr

/-- The F-form instructions of the 0x001, 0x040 and 0x080 groups (R286): the operations a slot or a REP can hold. -/
inductive AOp where
  | add | sub | mul | mulhi | mad | madw | div | rem | min | max | abs | neg | and | or | xor | andn | not
  | shl | shr | sar | rotl | clz | popc | brev | bfx | bfi | sel | iset | lea | addc | subb | mov | dup
  | plop | pmov | sad | dot4 | bperm
  | fadd | fsub | fmul | ffma | ffms | fmin | fmax | fabs | fneg | fset | fclamp | frnd | frcp | frsq
  | fsqrt | fdiv | fexp2 | flog2 | fsin | fcos | ftanh | fsigm | fscale | fgetexp | fclass | fdot2
  | cvt | qcvt | qpack | qunpack | scalegen | amax | shfl | shflx | shflup | shfldn | bcast | vote
  | redux | pscan | matchLanes
  deriving DecidableEq, Repr

/-! ### Fields of the shared arithmetic MOD layout (R73) -/

def FWord.ty   (w : FWord) : Nat := (w.mod.extractLsb' 11 4).toNat
def FWord.rnd  (w : FWord) : Nat := (w.mod.extractLsb' 8 3).toNat
def FWord.sat  (w : FWord) : Bool := w.mod.getLsbD 7
def FWord.pdst (w : FWord) : Nat := (w.mod.extractLsb' 4 3).toNat
def FWord.opx  (w : FWord) : Nat := (w.mod.extractLsb' 0 4).toNat

/-- A field of MOD: len bits from bit lo. -/
def FWord.fld (w : FWord) (lo len : Nat) : Nat := (w.mod.extractLsb' lo len).toNat

/-! ### Operand codes (R68) -/

def isQ (c : BitVec 8) : Bool := c.toNat < 0x10
def isG (c : BitVec 8) : Bool := 0x20 ≤ c.toNat && c.toNat < 0x40
def isV (c : BitVec 8) : Bool := 0x40 ≤ c.toNat && c.toNat < 0x80
/-- A register operand: one that can carry a trap-if-empty bit (R60). -/
def isReg (c : BitVec 8) : Bool := isQ c || isG c || isV c
def isConst (c : BitVec 8) : Bool :=
  (0x10 ≤ c.toNat && c.toNat < 0x20) || (0x80 ≤ c.toNat && c.toNat < 0x9E)
def isNone (c : BitVec 8) : Bool := c == 0xFF#8

/-- A code that is legal as a source at 32 bits, or at 64 bits (R68, R71). -/
def srcLegal (wide : Bool) (c : BitVec 8) : Bool :=
  c.toNat < 0x9E && !(wide && (c == 0x0F#8 || (isV c && c.toNat % 2 == 1)))

/-- A code that is legal as D, for a result of one or two entries (R62, R68). -/
def destLegal (wide : Bool) (c : BitVec 8) : Bool :=
  isNone c || isG c || (isV c && !(wide && c.toNat % 2 == 1))

/-- How a word uses a source field. -/
inductive Use where
  | unused
  | need (wide : Bool)
  /-- may be 0xFF -/
  | opt (wide : Bool)
  deriving DecidableEq, Repr

/-- What a word does with D. -/
inductive DestUse where
  | unused
  | reg (wide : Bool)
  /-- two results to vn and vn+1, no g register (R316) -/
  | pair
  deriving DecidableEq, Repr

/-- How an F-form word uses its fields. -/
structure FShape where
  a    : Use := .unused
  b    : Use := .unused
  c    : Use := .unused
  d    : DestUse := .unused
  /-- every reserved bit and code of MOD is as its description says -/
  mod  : Bool := true
  /-- the instruction has no trap-if-empty bits at all (R395) -/
  noT  : Bool := false
  /-- a further operand rule of the instruction -/
  opd  : Bool := true

def Use.encOk (u : Use) (code : BitVec 8) (t : Bool) : Bool :=
  match u with
  | .unused => isNone code && !t
  | .need _ => !(t && isConst code)
  | .opt _  => !(t && (isConst code || isNone code))

def Use.opdOk (u : Use) (code : BitVec 8) : Bool :=
  match u with
  | .unused => true
  | .need w => srcLegal w code
  | .opt w  => isNone code || srcLegal w code

def DestUse.encOk (u : DestUse) (d : BitVec 8) : Bool :=
  match u with
  | .unused => isNone d
  | _ => true

def DestUse.opdOk (u : DestUse) (d : BitVec 8) : Bool :=
  match u with
  | .unused => true
  | .reg w => destLegal w d
  | .pair => isNone d || (isV d && d.toNat % 2 == 0)

def FShape.encOk (sh : FShape) (w : FWord) : Bool :=
  sh.a.encOk w.sa (w.t.getLsbD 2) && sh.b.encOk w.sb (w.t.getLsbD 1) && sh.c.encOk w.sc (w.t.getLsbD 0)
    && sh.d.encOk w.d && sh.mod && !(sh.noT && w.t != 0#3)

def FShape.opdOk (sh : FShape) (w : FWord) : Bool :=
  sh.a.opdOk w.sa && sh.b.opdOk w.sb && sh.c.opdOk w.sc && sh.d.opdOk w.d && sh.opd

/-! ### Arithmetic shapes (R287, R288, R294, R306, R316-R329) -/

/-- TYPE codes of 64 bits (R74). -/
def wideTy (ty : Nat) : Bool := ty == 2 || ty == 3 || ty == 13
/-- Packed 16-bit floating types. -/
def packedFp (ty : Nat) : Bool := ty == 9 || ty == 10
def tyInt (ty : Nat) : Bool := ty < 8
def tySgn (ty : Nat) : Bool := ty < 8 && ty % 2 == 0
def tyWord (ty : Nat) : Bool := ty < 4
def tyFp (ty : Nat) : Bool := 8 ≤ ty && ty < 13
def tyFp64 (ty : Nat) : Bool := 8 ≤ ty && ty < 14
def tyAny (ty : Nat) : Bool := ty < 14

/-- Number of elements of a type in its word (R74). -/
def tyElems (ty : Nat) : Nat :=
  if ty == 6 || ty == 7 then 4 else if ty == 4 || ty == 5 || ty == 9 || ty == 10 then 2 else 1

/-- What an arithmetic instruction takes: how many sources, which TYPEs, and whether RND, SAT and the OPX codes are its
own. -/
structure ARow where
  n   : Nat
  ty  : Nat → Bool
  rnd : Bool := false
  sat : Bool := false
  opx : Nat → Bool := fun x => x == 0

/-- The rows of R294, R306 and R316 to R329. CVT, PLOP, PMOV, REDUX and PSCAN have further rules in aShape. -/
def AOp.row : AOp → ARow
  | .add | .sub | .mul => { n := 2, ty := tyInt, sat := true }
  | .mulhi | .rem | .min | .max | .and | .or | .xor | .andn | .shr | .sar | .rotl => { n := 2, ty := tyInt }
  | .mad => { n := 3, ty := tyInt, sat := true }
  | .madw => { n := 3, ty := fun t => t < 2, sat := true }
  | .div | .shl => { n := 2, ty := tyInt, sat := true }
  | .abs | .neg => { n := 1, ty := tySgn, sat := true }
  | .not | .clz | .popc | .brev => { n := 1, ty := tyInt }
  | .bfx => { n := 2, ty := tyWord }
  | .bfi => { n := 3, ty := fun t => t == 1 || t == 3 }
  | .sel => { n := 3, ty := tyAny }
  | .iset => { n := 2, ty := tyInt, opx := fun x => x < 6 }
  | .lea => { n := 2, ty := fun t => t == 1 || t == 3, opx := fun x => x < 8 }
  | .addc | .subb => { n := 2, ty := tyWord, opx := fun _ => true }
  | .mov => { n := 1, ty := tyAny }
  | .dup => { n := 1, ty := fun t => 4 ≤ t && t < 8, opx := fun x => x < 4 }
  | .plop => { n := 0, ty := fun _ => true, opx := fun _ => true }
  | .pmov => { n := 1, ty := fun t => t == 0, opx := fun x => x < 2 }
  | .sad => { n := 3, ty := fun t => 4 ≤ t && t < 8, sat := true }
  | .dot4 => { n := 3, ty := fun t => t == 6 || t == 7, sat := true }
  | .bperm => { n := 3, ty := fun t => t == 1 }
  | .fadd | .fsub | .fmul => { n := 2, ty := tyFp64, rnd := true, sat := true }
  | .ffma | .ffms => { n := 3, ty := tyFp64, rnd := true, sat := true }
  | .fmin | .fmax => { n := 2, ty := tyFp64 }
  | .fabs | .fneg => { n := 1, ty := tyFp64 }
  | .fset => { n := 2, ty := tyFp64, opx := fun x => x < 8 }
  | .fclamp => { n := 3, ty := tyFp }
  | .frnd => { n := 1, ty := tyFp, rnd := true }
  | .frcp | .frsq | .fexp2 | .flog2 | .fsin | .fcos | .ftanh | .fsigm => { n := 1, ty := tyFp }
  | .fsqrt => { n := 1, ty := tyFp, rnd := true, sat := true }
  | .fdiv | .fscale => { n := 2, ty := tyFp, rnd := true, sat := true }
  | .fgetexp => { n := 1, ty := tyFp }
  | .fclass => { n := 1, ty := tyFp, opx := fun x => x < 8 }
  | .fdot2 => { n := 3, ty := packedFp, opx := fun x => x < 7 }
  | .cvt => { n := 1, ty := tyAny, rnd := true, sat := true, opx := fun x => x < 14 }
  | .qcvt => { n := 2, ty := fun t => 8 ≤ t && t < 11, rnd := true, sat := true, opx := fun x => x < 2 }
  | .qpack | .qunpack => { n := 3, ty := fun t => 8 ≤ t && t < 12, rnd := true, sat := true }
  | .scalegen => { n := 2, ty := fun t => 8 ≤ t && t < 12 }
  | .amax => { n := 1, ty := tyFp, opx := fun x => x < 6 }
  | .shfl | .shflx | .shflup | .shfldn => { n := 2, ty := tyAny, opx := fun x => x < 6 }
  | .bcast => { n := 2, ty := tyAny }
  | .vote => { n := 1, ty := fun t => t < 2, opx := fun x => x < 4 }
  | .redux => { n := 1, ty := fun t => t < 11 || t == 13, rnd := true, sat := true, opx := fun x => x < 6 }
  | .pscan => { n := 1, ty := fun t => t < 11 || t == 13, rnd := true, sat := true, opx := fun x => x % 8 < 6 }
  | .matchLanes => { n := 1, ty := tyAny }

/-- Which sources a word reads at 64 bits, given its type: all of them, but for the 32-bit indices and shift operands
the instruction chapters name (R299, R325) and the 64-bit addend of MADW (R294). -/
def AOp.srcWide (op : AOp) (w : FWord) (i : Nat) : Bool :=
  match op, i with
  | .madw, 2 => true
  | .madw, _ => false
  | .lea, 1 => false
  | .shfl, 1 | .shflx, 1 | .shflup, 1 | .shfldn, 1 => false
  | .cvt, _ => wideTy w.opx
  | _, _ => wideTy w.ty

/-- Whether the result is two entries (R48). -/
def AOp.resWide (op : AOp) (w : FWord) : Bool :=
  match op with
  | .madw => true
  | .matchLanes | .vote | .plop | .pmov | .sad | .dot4 | .fdot2 => false
  | _ => wideTy w.ty

/-- CVT's pairing of element counts (R316): its destination elements against its source elements. -/
def cvtPairOk (dst src : Nat) : Bool :=
  if dst == 6 || dst == 7 || src == 6 || src == 7 then (dst == 6 || dst == 7) && (src == 6 || src == 7)
  else tyElems dst == tyElems src || (tyElems dst == 2 && tyElems src == 1)
    || (tyElems dst == 1 && tyElems src == 2 && !wideTy dst && dst != 11 && dst != 12)

/-- CVT from a packed 16x2 source to one 32-bit element: two results (R316). -/
def cvtTwoEntries (w : FWord) : Bool := tyElems w.ty == 1 && tyElems w.opx == 2

def AOp.useOf (op : AOp) (w : FWord) (i : Nat) : Use :=
  if i < op.row.n then .need (op.srcWide w i) else .unused

/-- The shape of an arithmetic word (R73, R287, R288). -/
def AOp.shape (op : AOp) (w : FWord) : FShape :=
  let r := op.row
  let modOk := r.ty w.ty && w.rnd < 6 && (r.rnd || w.rnd == 0) && (r.sat || !w.sat) && r.opx w.opx
  match op with
  | .plop => { d := .reg false, mod := w.fld 7 2 == 0 }
  | .pmov =>
    if w.opx == 0 then { d := .reg false, mod := modOk }
    else { a := .need false, mod := modOk && w.pdst == 7 }
  | .dup => { a := .need false, d := .reg false, mod := modOk && w.opx < tyElems w.ty }
  | .cvt =>
    { a := .need (op.srcWide w 0)
      b := if tyElems w.ty == 2 && tyElems w.opx == 1 then .opt (op.srcWide w 1) else .unused
      d := if cvtTwoEntries w then .pair else .reg (wideTy w.ty)
      mod := modOk && cvtPairOk w.ty w.opx && !(tyInt w.ty && tyInt w.opx && w.rnd != 0) }
  | .redux | .pscan =>
    let o := w.opx % 8
    { a := .need (wideTy w.ty), d := .reg (wideTy w.ty)
      mod := modOk && (tyInt w.ty || o < 3) && (o == 0 || (w.rnd == 0 && !w.sat)) && (w.rnd == 0 || !tyInt w.ty) }
  | _ =>
    { a := op.useOf w 0, b := op.useOf w 1, c := op.useOf w 2, d := .reg (op.resWide w), mod := modOk }

/-! ### Shapes of the other F-form instructions -/

/-- Width and access of the special registers (R98): number, two entries, writable. -/
def sregRow (n : Nat) : Option (Bool × Bool) :=
  match n with
  | 0x000 | 0x001 | 0x002 => some (false, true)
  | 0x003 | 0x004 | 0x005 | 0x006 | 0x009 | 0x00A | 0x021 => some (false, false)
  | 0x008 | 0x010 | 0x020 => some (true, false)
  | _ => none

/-- The F-form word of an instruction outside the arithmetic groups, with its shape. -/
def otherShape : Instr → Option (FWord × FShape)
  | .fence w => some (w, { mod := w.fld 0 3 < 6 && w.fld 3 2 != 0 && w.fld 5 10 == 0 })
  | .qfence w => some (w, { mod := w.fld 11 4 == 0 && w.fld 0 11 != 0 })
  | .chain w => some (w, { a := .need true, mod := w.fld 3 12 == 0 })
  | .cpy w => some (w, { a := .need true, b := .need true, c := .need false, mod := w.fld 12 3 == 0 && w.fld 3 4 < 5 && w.fld 7 4 < 5 })
  | .sealBatch w => some (w, { d := .reg false, mod := w.mod == 0#15 })
  | .waitb w => some (w, { mod := w.fld 8 7 == 0 })
  | .bstat w => some (w, { a := .need false, d := .reg true, mod := w.mod == 0#15 })
  | .cbdef w => some (w, { a := .need false, b := .need false, mod := w.fld 10 5 == 0 })
  | .cbprod w => some (w, { a := .need false, mod := w.fld 6 9 == 0 })
  | .cbcons w => some (w, { a := .need false, mod := w.fld 6 9 == 0 })
  | .cbwait w => some (w, { a := .need false, d := .reg false, mod := w.fld 7 8 == 0 })
  | .sfill w => some (w, { a := .need false, b := .need false, mod := w.fld 5 10 == 0 })
  | .spush w => some (w, { a := .need false, mod := w.fld 4 11 == 0 })
  | .sbind w => some (w, { mod := w.fld 11 4 == 0 })
  | .codebk w => some (w, { a := .need true, b := .need false, mod := w.fld 3 12 == 0 })
  | .swz w => some (w, { mod := w.fld 14 1 == 0 && w.fld 4 3 < 5 && !(7 + w.fld 7 4 < 4 + w.fld 4 3 + (w.fld 11 2 + 1)) })
  | .btlook w => some (w, { a := .need true, d := .reg true, mod := w.fld 2 13 == 0 })
  | .btref w => some (w, { a := .need true, b := .need false, d := .reg false, mod := w.mod == 0#15 })
  | .btalloc w => some (w, { a := .need true, d := .reg false, mod := w.mod == 0#15 })
  | .btfree w => some (w, { a := .need true, b := .need false, d := .reg false, mod := w.mod == 0#15 })
  | .migr w => some (w, { a := .need true, mod := w.fld 3 12 == 0 && !(w.fld 2 1 == 1 && w.fld 0 2 != 0) })
  | .mma w => some (w, { a := .need false, mod := w.fld 14 1 == 0, opd := isG w.sa && w.sa.toNat % 2 == 0 })
  | .mmaz w => some (w, { a := .need false, mod := w.fld 14 1 == 0, opd := isG w.sa && w.sa.toNat % 2 == 0 })
  | .accz w => some (w, { mod := w.fld 7 8 == 0 })
  | .accld w => some (w, { a := .need false, mod := w.fld 10 5 == 0 && !(w.fld 6 2 == 1 && w.fld 8 1 == 0) })
  | .accst w => some (w, { a := .need false, b := .opt false, d := .reg false, mod := w.fld 14 1 == 0 })
  | .accmv w =>
    let wide := w.fld 14 1 == 1
    match w.fld 12 2 with
    | 0 => some (w, {})
    | 1 => some (w, { b := .need false, d := .reg wide, mod := w.fld 6 6 == 0 })
    | 2 => some (w, { a := .need wide, b := .need false, mod := w.fld 6 6 == 0 })
    | _ => some (w, { mod := false })
  | .acctest w => some (w, { d := .reg false, mod := w.fld 12 3 == 0 && (w.fld 6 4 == 0) == (w.fld 10 2 == 3) })
  | .accclr w => some (w, { mod := w.fld 12 3 == 0 && !(w.fld 6 4 == 0 && w.fld 10 1 == 0) })
  | .fmtset w => some (w, { a := .need true, d := .reg false, mod := w.fld 5 10 == 0 })
  | .fmtget w => some (w, { d := .reg true, mod := w.fld 6 9 == 0 })
  | .bndset w => some (w, { a := .need true, b := .need true, d := .reg false, mod := w.fld 7 8 == 0 })
  | .region w => some (w, { mod := w.fld 2 13 == 0 && w.fld 0 2 != 3 })
  | .normrd w => some (w, { d := .reg true, mod := w.fld 6 9 == 0 })
  | .errinj w => some (w, { a := .need false, mod := w.fld 6 9 == 0 })
  | .brx w => some (w, { a := .need true, mod := w.fld 6 9 == 0 })
  | .ret w => some (w, { mod := w.mod == 0#15 })
  | .exit w => some (w, { mod := w.mod == 0#15 })
  | .join w => some (w, { mod := w.fld 4 11 == 0 && w.pred == 7#3 && !w.pn })
  | .nop w => some (w, { mod := w.mod == 0#15 })
  | .prio w =>
    if w.fld 4 1 == 1 then some (w, { a := .need false, mod := w.fld 5 10 == 0 && w.fld 0 4 == 0, noT := true })
    else some (w, { mod := w.fld 5 10 == 0, noT := true })
  | .yield w => some (w, { mod := w.fld 1 14 == 0, noT := true })
  | .sleep w => some (w, { a := .need false, mod := w.fld 1 14 == 0, noT := true })
  | .bar w => some (w, { mod := w.fld 8 7 == 0 && w.fld 0 3 < 6, noT := true })
  | .bara w => some (w, { mod := w.fld 8 7 == 0 && w.fld 0 3 < 6 && w.fld 0 3 != 0, noT := true })
  | .barw w => some (w, { mod := w.fld 8 7 == 0 && w.fld 0 3 < 6 && w.fld 0 3 != 0, noT := true })
  | .barinit w => some (w, { a := .need false, mod := w.fld 8 7 == 0 && w.fld 0 3 < 6 && w.fld 0 3 != 0, noT := true })
  | .empty w =>
    let last := w.d.toNat + w.fld 0 4
    some (w, { d := .reg false, mod := w.fld 4 11 == 0, noT := true
               opd := (isG w.d && last < 0x40) || (isV w.d && last < 0x80) })
  | .waitf w =>
    some (w, { a := .need false, mod := w.fld 1 14 == 0, noT := true, opd := w.fld 0 1 == 1 || isReg w.sa })
  | .rstv w => some (w, { a := .need true, b := .need false, mod := w.fld 6 9 == 0 })
  | .nameq w => some (w, { a := .need true, d := .reg false, mod := w.mod == 0#15 })
  | .coll w => some (w, { a := .need true, mod := w.mod == 0#15 })
  | .collw w => some (w, { mod := w.fld 8 7 == 0 })
  | .swsize w => some (w, { a := .need false, b := .need true, mod := w.mod == 0#15 })
  | .swbuild w => some (w, { a := .need true, b := .need true, mod := w.mod == 0#15 })
  | .swsend w =>
    some (w, { a := .need true, b := .need true, c := .opt true, mod := w.fld 6 9 == 0 && !(isNone w.sc && w.fld 0 6 != 0) })
  | .swdiff w => some (w, { a := .need true, b := .need true, mod := w.mod == 0#15 })
  | .swpeel w => some (w, { a := .need true, b := .need true, c := .need false, mod := w.mod == 0#15 })
  | .swapply w => some (w, { a := .need true, b := .need true, c := .need false, mod := w.fld 1 14 == 0 })
  | .mfs w =>
    match sregRow (w.fld 0 12) with
    | some (wide, _) => some (w, { d := .reg wide, mod := w.fld 12 3 == 0 })
    | none => some (w, { mod := false })
  | .mts w =>
    match sregRow (w.fld 0 12) with
    | some (wide, wr) => some (w, { a := .need wide, mod := w.fld 12 3 == 0 && wr })
    | none => some (w, { mod := false })
  | .trap w => some (w, { a := .opt false, mod := w.fld 8 7 == 0 })
  | .bkpt w => some (w, { mod := w.fld 8 7 == 0 })
  | .signal w =>
    if w.fld 0 4 == 1 then some (w, { a := .need false, mod := w.fld 4 11 == 0 })
    else some (w, { mod := w.mod == 0#15 })
  | .time w => some (w, { d := .reg true, mod := w.mod == 0#15 })
  | .clock w => some (w, { d := .reg true, mod := w.mod == 0#15 })
  | .ptew w =>
    some (w, { a := .need true, b := .need true, c := if w.fld 0 1 == 1 then .need true else .unused
               d := .reg true, mod := w.fld 2 13 == 0 })
  | _ => none

/-- The arithmetic operation of an instruction, with its word. -/
def arith? : Instr → Option (AOp × FWord)
  | .add w => some (.add, w) | .sub w => some (.sub, w) | .mul w => some (.mul, w) | .mulhi w => some (.mulhi, w)
  | .mad w => some (.mad, w) | .madw w => some (.madw, w) | .div w => some (.div, w) | .rem w => some (.rem, w)
  | .min w => some (.min, w) | .max w => some (.max, w) | .abs w => some (.abs, w) | .neg w => some (.neg, w)
  | .and w => some (.and, w) | .or w => some (.or, w) | .xor w => some (.xor, w) | .andn w => some (.andn, w)
  | .not w => some (.not, w) | .shl w => some (.shl, w) | .shr w => some (.shr, w) | .sar w => some (.sar, w)
  | .rotl w => some (.rotl, w) | .clz w => some (.clz, w) | .popc w => some (.popc, w) | .brev w => some (.brev, w)
  | .bfx w => some (.bfx, w) | .bfi w => some (.bfi, w) | .sel w => some (.sel, w) | .iset w => some (.iset, w)
  | .lea w => some (.lea, w) | .addc w => some (.addc, w) | .subb w => some (.subb, w) | .mov w => some (.mov, w)
  | .dup w => some (.dup, w) | .plop w => some (.plop, w) | .pmov w => some (.pmov, w) | .sad w => some (.sad, w)
  | .dot4 w => some (.dot4, w) | .bperm w => some (.bperm, w)
  | .fadd w => some (.fadd, w) | .fsub w => some (.fsub, w) | .fmul w => some (.fmul, w) | .ffma w => some (.ffma, w)
  | .ffms w => some (.ffms, w) | .fmin w => some (.fmin, w) | .fmax w => some (.fmax, w) | .fabs w => some (.fabs, w)
  | .fneg w => some (.fneg, w) | .fset w => some (.fset, w) | .fclamp w => some (.fclamp, w) | .frnd w => some (.frnd, w)
  | .frcp w => some (.frcp, w) | .frsq w => some (.frsq, w) | .fsqrt w => some (.fsqrt, w) | .fdiv w => some (.fdiv, w)
  | .fexp2 w => some (.fexp2, w) | .flog2 w => some (.flog2, w) | .fsin w => some (.fsin, w) | .fcos w => some (.fcos, w)
  | .ftanh w => some (.ftanh, w) | .fsigm w => some (.fsigm, w) | .fscale w => some (.fscale, w)
  | .fgetexp w => some (.fgetexp, w) | .fclass w => some (.fclass, w) | .fdot2 w => some (.fdot2, w)
  | .cvt w => some (.cvt, w) | .qcvt w => some (.qcvt, w) | .qpack w => some (.qpack, w) | .qunpack w => some (.qunpack, w)
  | .scalegen w => some (.scalegen, w) | .amax w => some (.amax, w) | .shfl w => some (.shfl, w)
  | .shflx w => some (.shflx, w) | .shflup w => some (.shflup, w) | .shfldn w => some (.shfldn, w)
  | .bcast w => some (.bcast, w) | .vote w => some (.vote, w) | .redux w => some (.redux, w)
  | .pscan w => some (.pscan, w) | .matchLanes w => some (.matchLanes, w)
  | _ => none

/-! ### M-form (R60, R164-R187) -/

/-- Atomic fields in place of OFFSET (R180). -/
def MWord.cmp   (w : MWord) : BitVec 8 := (w.off.extractLsb' 9 7).setWidth 8
def MWord.aop   (w : MWord) : Nat := (w.off.extractLsb' 5 4).toNat
def MWord.order (w : MWord) : Nat := (w.off.extractLsb' 3 2).toNat
def MWord.scope (w : MWord) : Nat := (w.off.extractLsb' 0 3).toNat

/-- SIZE codes of 64 bits among the atomics (R180). -/
def atomWide (size : Nat) : Bool := size == 2 || size == 3 || size == 7

/-- How an M-form word uses its fields. An index in D is a source (R164). -/
structure MShape where
  local?  : Bool := false
  data    : Use := .unused
  /-- D names a source, the index -/
  dIndex  : Bool := false
  d       : DestUse := .unused
  enc     : Bool := true
  opd     : Bool := true

/-- Rules of .b128 for a stored value and for a destination (R165). -/
def b128Data (c : BitVec 8) : Bool := (isV c && c.toNat % 4 == 0) || (isQ c && c.toNat ≤ 12)
def b128Dest (c : BitVec 8) : Bool := isNone c || (isV c && c.toNat % 4 == 0)

def MWord.sz (w : MWord) : Nat := w.size.toNat
def MWord.am (w : MWord) : Nat := w.amode.toNat
def MWord.ht (w : MWord) : Nat := w.hint.toNat

def loadShape (w : MWord) (loc : Bool) (sizes : Nat → Bool) (hint : Nat → Bool) : MShape :=
  { local? := loc
    data := if w.am == 1 then .need false else .unused
    d := .reg (w.sz == 5)
    enc := sizes w.sz && w.am < (if loc then 2 else 3) && hint w.ht
    opd := w.sz != 6 || b128Dest w.d }

def storeShape (w : MWord) (loc : Bool) (sizes : Nat → Bool) (hint : Nat → Bool) : MShape :=
  { local? := loc
    data := .need (w.sz == 5)
    dIndex := w.am == 1
    enc := sizes w.sz && w.am < (if loc then 2 else 3) && hint w.ht
    opd := w.sz != 6 || b128Data w.data }

def granShape (w : MWord) : MShape :=
  { local? := true, dIndex := w.am == 1, enc := w.sz == 0 && w.am < 2 && w.ht == 0 }

def lineShape (w : MWord) (hints : Nat) : MShape :=
  { enc := w.sz == 0 && w.am < 3 && w.ht < hints, opd := w.am != 1 }

def atomShape (w : MWord) (loc : Bool) : MShape :=
  { local? := loc
    data := if w.aop == 8 then .unused else .need (atomWide w.sz)
    d := if w.aop == 9 then .unused else .reg (atomWide w.sz)
    enc := w.sz < 8 && w.ht == 0 && w.aop < 10 && w.scope < 6
      && (if loc then w.am == 0 && w.scope == 1 else w.am == 0 || w.am == 2)
      && !(4 ≤ w.sz && 3 ≤ w.aop && w.aop < 6)
      && !(w.aop == 8 && 2 ≤ w.order) && !(w.aop == 9 && (w.order == 1 || w.order == 3))
      && (w.aop == 7 || w.cmp == 0#8)
    opd := w.aop != 7 || srcLegal (atomWide w.sz) w.cmp }

def loadSizes (n : Nat) : Bool := n < 7
def storeSizes (n : Nat) : Bool := n == 0 || n == 2 || n == 4 || n == 5 || n == 6
def granSizes (n : Nat) : Bool := n == 4 || n == 5 || n == 6

def memShape : Instr → Option (MWord × MShape)
  | .ld w => some (w, loadShape w false loadSizes (fun h => h < 4))
  | .st w => some (w, storeShape w false storeSizes (fun h => h < 4))
  | .lds w => some (w, loadShape w true loadSizes (fun h => h == 0))
  | .sts w => some (w, storeShape w true storeSizes (fun h => h == 0))
  | .ldf w => some (w, loadShape w true granSizes (fun h => h < 2))
  | .stf w => some (w, storeShape w true granSizes (fun h => h < 2))
  | .sete w => some (w, granShape w)
  | .setf w => some (w, granShape w)
  | .atom w => some (w, atomShape w false)
  | .atoms w => some (w, atomShape w true)
  | .pref w => some (w, lineShape w 3)
  | .discard w => some (w, lineShape w 1)
  | .lastuse w => some (w, loadShape w false loadSizes (fun h => h < 4))
  | .flushl w => some (w, lineShape w 1)
  | .invl w => some (w, lineShape w 1)
  | _ => none

def MShape.encOk (sh : MShape) (w : MWord) : Bool :=
  sh.enc && (Use.need (!sh.local?)).encOk w.base (w.t.getLsbD 1) && sh.data.encOk w.data (w.t.getLsbD 0)
    && (sh.dIndex || sh.d.encOk w.d)

def MShape.opdOk (sh : MShape) (w : MWord) : Bool :=
  srcLegal (!sh.local?) w.base && sh.data.opdOk w.data && (if sh.dIndex then srcLegal false w.d else sh.d.opdOk w.d)
    && sh.opd

/-! ### Pair words (R63-R67) -/

/-- The pairable operation of an OP7 code (R64, R78). -/
def slotOp (op7 : Nat) : Option AOp :=
  match op7 with
  | 0x01 => some .add | 0x02 => some .sub | 0x03 => some .mul | 0x04 => some .mulhi | 0x05 => some .mad
  | 0x07 => some .div | 0x08 => some .rem | 0x09 => some .min | 0x0A => some .max | 0x0B => some .abs
  | 0x0C => some .neg | 0x0D => some .and | 0x0E => some .or | 0x0F => some .xor | 0x10 => some .andn
  | 0x11 => some .not | 0x12 => some .shl | 0x13 => some .shr | 0x14 => some .sar | 0x15 => some .rotl
  | 0x16 => some .clz | 0x17 => some .popc | 0x18 => some .brev | 0x19 => some .bfx | 0x1A => some .bfi
  | 0x1B => some .sel | 0x1C => some .iset | 0x1D => some .lea | 0x1E => some .addc | 0x1F => some .subb
  | 0x20 => some .mov | 0x23 => some .dup | 0x24 => some .plop | 0x25 => some .pmov | 0x26 => some .sad
  | 0x27 => some .dot4 | 0x28 => some .bperm
  | 0x40 => some .fadd | 0x41 => some .fsub | 0x42 => some .fmul | 0x43 => some .ffma | 0x44 => some .ffms
  | 0x45 => some .fmin | 0x46 => some .fmax | 0x47 => some .fabs | 0x48 => some .fneg | 0x49 => some .fset
  | 0x4A => some .fclamp | 0x4B => some .frnd | 0x4C => some .frcp | 0x4D => some .frsq | 0x4E => some .fsqrt
  | 0x4F => some .fdiv | 0x50 => some .fexp2 | 0x51 => some .flog2 | 0x52 => some .fsin | 0x53 => some .fcos
  | 0x54 => some .ftanh | 0x55 => some .fsigm | 0x56 => some .fscale | 0x57 => some .fgetexp | 0x58 => some .fclass
  | 0x59 => some .fdot2
  | _ => none

/-- TYPE and SAT of a slot's MOD3 (R65); none for a reserved code. -/
def slotType (op7 mod3 : Nat) : Option (Nat × Bool) :=
  if op7 < 0x40 then
    match mod3 with
    | 0 => some (0, false) | 1 => some (1, false) | 2 => some (4, false) | 3 => some (5, false)
    | 4 => some (6, false) | 5 => some (7, false) | 6 => some (0, true) | _ => some (1, true)
  else
    match mod3 with
    | 0 => some (8, false) | 1 => some (9, false) | 2 => some (10, false) | 3 => some (11, false)
    | 4 => some (12, false) | 5 => some (8, true) | _ => none

/-- The single word a slot executes as (R64): RND RNE, no PDST, no named destination, op-specific bits zero; its third
source is q0 from before the word (R66). PLOP has its own MOD layout, with every field zero but PDST (R304). -/
def Slot.word (s : Slot) (op : AOp) (ty : Nat) (sat : Bool) : FWord :=
  { pn := false, pred := s.pred, sa := s.sa, sb := s.sb, sc := if op.row.n == 3 then 0x00#8 else 0xFF#8, d := 0xFF#8
    t := BitVec.ofNat 3 (2 * s.t.toNat)
    mod := if op = .plop then 0x0070#15
           else BitVec.ofNat 15 (ty * 0x800 + (if sat then 0x80 else 0) + 0x70) }

/-- A slot's operation and word, where its OP7 and MOD3 are assigned. -/
def Slot.arith? (s : Slot) : Option (AOp × FWord) :=
  match slotOp s.op7.toNat, slotType s.op7.toNat s.mod3.toNat with
  | some op, some (ty, sat) => some (op, s.word op ty sat)
  | _, _ => none

def Slot.encOk (s : Slot) : Bool :=
  match s.arith? with
  | some (op, w) => (op.shape w).encOk w && (op != .plop || s.mod3 == 0#3)
  | none => false

def Slot.opdOk (s : Slot) : Bool :=
  match s.arith? with
  | some (op, w) => (op.shape w).opdOk w
  | none => true

/-- The v registers that the two slots read, each once (R67). -/
def pairVregs (a b : Slot) : List Nat :=
  ([a.sa, a.sb, b.sa, b.sb].filter isV).map BitVec.toNat |>.dedup

/-- At most one register of each bank (R67). -/
def bankOk (a b : Slot) : Bool := ((pairVregs a b).map (· % 4)).Nodup

/-! ### The check -/

/-- The decode trap a word with these two verdicts takes, encoding before operands (R110). -/
def firstTrap (enc opd : Bool) : Option DecodeTrap :=
  if !enc then some .illegalEncoding else if !opd then some .illegalOperand else none

/-- An opcode the map of R78 assigns to a single-word form. -/
def opcodeAssigned (op : Nat) : Bool :=
  (0x001 ≤ op && op ≤ 0x028) || (0x040 ≤ op && op ≤ 0x05A) || (0x080 ≤ op && op ≤ 0x08E) || (0x0C0 ≤ op && op ≤ 0x0D0)
    || (0x100 ≤ op && op ≤ 0x112) || (0x140 ≤ op && op ≤ 0x14D) || (0x180 ≤ op && op ≤ 0x191)
    || (0x1C0 ≤ op && op ≤ 0x1C9) || (0x1E0 ≤ op && op ≤ 0x1E7)

/-- A word of the ILLEGAL_OPCODE row: a single word whose opcode, or a pair word one of whose OP7 codes, is unassigned or
not pairable (R64, R78). -/
def unassigned (w : DWord) : Bool :=
  if w.getLsbD 63 then
    (slotOp (w.extractLsb' 55 7).toNat).isNone || (slotOp (w.extractLsb' 24 7).toNat).isNone
  else !opcodeAssigned (w.extractLsb' 54 9).toNat

/-- The decode trap of a word (R62, R110), none for a well-formed one. The word a REP repeats is checked when the REP is
met (R77). -/
def wordTrap (i : Instr) : Option DecodeTrap :=
  match i with
  | .illegalOpcode w => if unassigned w then none else some .illegalOpcode
  | .pairWord rsv a b =>
    if (slotOp a.op7.toNat).isNone || (slotOp b.op7.toNat).isNone then some .illegalOpcode
    else firstTrap (!rsv && a.encOk && b.encOk && bankOk a b) (a.opdOk && b.opdOk)
  | .movi w => firstTrap (tyInt w.ty.toNat && w.rsv == 0#6) (destLegal (wideTy w.ty.toNat) w.d)
  | .movhi w => firstTrap (w.ty.toNat == 3 && w.rsv == 0#6) (destLegal true w.d)
  | .fmovi w => firstTrap (tyFp64 w.ty.toNat && w.rsv == 0#6) (destLegal (wideTy w.ty.toNat) w.d)
  | .bra w => firstTrap (isNone w.val && w.bop.toNat < 3) true
  | .call w => firstTrap (isNone w.val && w.bop.toNat < 3) true
  | .loop w => firstTrap (w.join == 0#6 && w.bop == 0#4) (isG w.val)
  | .rep w => firstTrap (!w.pn && w.pred == 7#3 && 2 ≤ w.count.toNat && w.count.toNat ≤ 64 && w.rsv == 0#26) true
  | i =>
    match arith? i with
    | some (op, w) => firstTrap ((op.shape w).encOk w) ((op.shape w).opdOk w)
    | none =>
      match memShape i with
      | some (w, sh) => firstTrap (sh.encOk w) (sh.opdOk w)
      | none =>
        match otherShape i with
        | some (w, sh) => firstTrap (sh.encOk w) (sh.opdOk w)
        | none => none

/-- Arguments of an event name parts the machine has (R10, R14, R18): courses by their 13-bit index, strands 0-3, cores
0-255, devices and near dies 0-3, far dies 0-1, channels and streams 0-7, ports 0-11, links 0-3. -/
def eventOk (i : Instr) : Bool :=
  match i with
  | .joinWaitExpire c st | .joinLimitExpire c st | .ageLevelUp c st | .sleepExpire c st | .yieldTimeout c st =>
    c < 8192 && st < 4
  | .leaseExpire dev ia => dev < 4 && ia < 2 ^ 48
  | .recordClaim core ch | .streamFill core ch | .codebookLoadComplete core ch => core < 256 && ch < 8
  | .recordComplete core _ | .matrixOpStart core | .matrixOpComplete core | .railEvaluate core
  | .rstvBufferDrain core | .swatchOpComplete core | .swsendNotice core | .collectiveComplete core _ => core < 256
  | .mmaAttemptComplete core errs => core < 256 && errs.all (fun e => e.1 < 32 && e.2.1 < 32 && e.2.2 < 64)
  | .remoteRequest dev _
  | .shootDownReceive dev _ _ _ | .shootDownTimeout dev _ | .commandLaunch dev _ => dev < 4
  | .flitReceive port f => port < 12 && f.link < 4
  | .laneLockLoss port lane => port < 12 && lane < 16
  | .linkRetrain port link _ | .linkLevelReplay port link _ => port < 12 && link < 4
  | .joinAnnouncement dev peer _ | .podTimeout dev peer => dev < 4 && peer < 4096
  | .migrationStart far | .migrationFlip far | .migrationAbandon far => far < 2
  | .drainMarker dev a b => dev < 4 && a < 6 && b < 6
  | .kickWrite dev j _ => dev < 4 && j < 16
  | .queueScan dev q => dev < 4 && q < 1024
  | .courseBind c | .courseResume c _ _ | .preempt c | .courseSaveComplete c | .debugHalt c | .debugHaltQuiesce c
  | .debugResume c | .debugStep c | .debugStepWait c => c < 8192
  | .debugReadLs c off => c < 8192 && off < 2 ^ 19 && off % 16 == 0
  | .heartbeatWrite die _ | .heartbeatTimeout die | .schedulerUe die | .schedulerTakeover die => die < 4
  | .wayallWrite die cls _ => die < 4 && cls < 16
  | .registerWrite p _ => p.addr < 2 ^ 28 && p.addr % 8 == 0
  | .telemetryUpdate dev asid | .asidHoldExpire dev asid => dev < 4 && asid < 65536
  | .powerStateEnter die | .powerStateExit die | .powerControllerThrottle die _ => die < 8
  | .authenticationTimeout die => die < 8
  | .attestationRequest nonce => nonce.length == 32
  | .firmwareUpdate img _ => img < 4
  | _ => true

/-- Well-formedness of a step: a word that takes no decode trap, an event that names parts the machine has. -/
def WellFormed (i : Instr) : Prop := wordTrap i = none ∧ eventOk i = true

abbrev wellFormed (i : Instr) : Bool := wordTrap i == none && eventOk i

end Sys2Proof
end

