-- ==== Sys2Proof/Machine/Ops.lean ====
section
/-! DEFINITION. The named operations over the state that every meaning calls: finding and changing a part of the machine,
memory and translation by the device, error records, taking a trap, the result queue and the arrival of long-latency
values, and the frame of an issued word. -/

namespace Sys2Proof.Machine

/-- The outcome of a step of this machine. -/
abbrev Out := Host.Outcome State Fault Refusal

/-! ### Parts of the machine -/

/-- The number under which values and granule operations of a saved course go on; no course slot has one so high. -/
def savedId (key : Nat) : Nat := 8192 + key

/-- Near die of a course index (R149). -/
def dieOf (c : Nat) : Nat := c / 2048
/-- Core of a course index: die * 64 + logical core. -/
def coreOf (c : Nat) : Nat := c / 32
/-- Slot of a course index. -/
def slotOf (c : Nat) : Nat := c % 32

/-- The device a near die belongs to in a mode (R14). -/
def devOfDie (m : Mode) (die : Nat) : Nat :=
  match m with
  | .one => 0
  | .two => die / 2
  | .four => die

def State.dev (s : State) (d : Nat) : Dev := vget s.devs {} d
def State.modDev (s : State) (d : Nat) (f : Dev → Dev) : State := { s with devs := vset s.devs d (f (s.dev d)) }
def State.die (s : State) (d : Nat) : Die := vget s.dies {} d
def State.modDie (s : State) (d : Nat) (f : Die → Die) : State := { s with dies := vset s.dies d (f (s.die d)) }
def State.core (s : State) (k : Nat) : Core := Tab.getD s.cores {} k
def State.modCore (s : State) (k : Nat) (f : Core → Core) : State :=
  { s with cores := Tab.put s.cores k (f (s.core k)) }
def State.course (s : State) (c : Nat) : Option Course := Tab.find s.courses c
def State.courseD (s : State) (c : Nat) : Course := Tab.getD s.courses {} c
def State.setCourse (s : State) (c : Nat) (x : Course) : State := { s with courses := Tab.put s.courses c x }
def State.modCourse (s : State) (c : Nat) (f : Course → Course) : State :=
  { s with courses := Tab.upd s.courses c f }
def Course.strand (co : Course) (i : Nat) : Strand := vget co.strands {} i
def Course.modStrand (co : Course) (i : Nat) (f : Strand → Strand) : Course :=
  { co with strands := vset co.strands i (f (co.strand i)) }
def State.modStrand (s : State) (c st : Nat) (f : Strand → Strand) : State :=
  s.modCourse c (fun co => co.modStrand st f)
def State.ctx (s : State) (k : Nat) : Ctx := Tab.getD s.ctxs {} k
def State.modCtx (s : State) (k : Nat) (f : Ctx → Ctx) : State := { s with ctxs := Tab.upd s.ctxs k f }
def State.team (s : State) (t : Nat) : Option Team := Tab.find s.teams t
def State.modTeam (s : State) (t : Nat) (f : Team → Team) : State := { s with teams := Tab.upd s.teams t f }

/-- The slots of the live strands of a course. -/
def Course.liveStrands (co : Course) : List Nat := (List.range 4).filter (fun i => (co.strand i).live)

/-- Cycle counter of the die of a course. -/
def State.clockOf (s : State) (c : Nat) : Nat := (s.die (dieOf c)).clock

/-- A counter of a context's telemetry page raised (R436). -/
def State.count (s : State) (ctx off n : Nat) : State :=
  s.modCtx ctx (fun x => { x with counters := Tab.put x.counters off (Tab.getD x.counters 0 off + n) })

/-- Package time (R98, R477). -/
def State.pkgTime (s : State) : DWord := BitVec.ofNat 64 s.aon + s.pkgBase

/-- The next identifier, and the state that has used it. -/
def State.fresh (s : State) : Nat × State := (s.nextId, { s with nextId := s.nextId + 1 })

/-! ### Physical memory -/

/-- Key of a physical byte of a device. -/
def physKey (dev pa : Nat) : Nat := dev * 2 ^ 44 + pa % 2 ^ 44

def State.readMem (s : State) (key n : Nat) : List Byte := Memory.readN s.mem key n
def State.memNum (s : State) (key n : Nat) : Nat := Memory.num s.mem key n

/-- The lines a range of keys touches. -/
def linesOf (key n : Nat) : List Nat := (List.range ((key + n + 127) / 128 - key / 128)).map (fun i => key / 128 + i)

def insertSorted (x : Nat) : List Nat → List Nat
  | [] => [x]
  | y :: t => if x < y then x :: y :: t else if x = y then y :: t else y :: insertSorted x t

/-! ### Keys (R433) -/

/-- The key in a slot of the device that a line belongs to. -/
def State.slotKey (s : State) (line slot : Nat) : List Byte := Tab.getD (s.dev (line / 2 ^ 37)).keys [] slot

/-- The bytes of a line as they decrypt under a slot: a line kept under another one reads as that one's key leaves it; a line that
nothing has encrypted, its zero state among them, reads as it is (DESIGN CHOICE, notes/assumptions/69.md, for a line that L2 still
holds in clear). -/
def State.lineUnder (s : State) (slot line : Nat) : List Byte :=
  let b := s.readMem (128 * line) 128
  match Tab.find s.lineKey line with
  | none => b
  | some k => if k = slot then b else (Config.rekey (s.slotKey line k) (s.slotKey line slot) (line % 2 ^ 37) b).take 128

/-- Every encrypted line of a range of keys is kept under the slot. -/
def State.allUnder (s : State) (slot key n : Nat) : Bool :=
  (linesOf key n).all (fun l => (Tab.find s.lineKey l).getD slot == slot)

/-- Bytes as a reader whose page names a key slot has them. -/
def State.readUnder (s : State) (slot key n : Nat) : List Byte :=
  if s.allUnder slot key n then s.readMem key n
  else (((linesOf key n).flatMap (s.lineUnder slot)).drop (key % 128)).take n

/-- A line kept under a slot from now on, as a write through a page of that slot leaves it. -/
def State.underKey (s : State) (slot line : Nat) : State :=
  { s with mem := Memory.writeN s.mem (128 * line) (s.lineUnder slot line), lineKey := Tab.put s.lineKey line slot }

/-- The lines of a range of keys that are kept under another slot taken over to this one. -/
def State.takeKey (s : State) (slot key n : Nat) : State :=
  if s.allUnder slot key n then s else (linesOf key n).foldl (fun acc l => acc.underKey slot l) s

/-! ### The slices of L2 and of the RDC (R434, R435) -/

/-- The slice that holds a line: 0 to 47 in L2, 48 to 63 in the RDC (R462). -/
def cacheSlice (rdc : Bool) (line : Nat) : Nat := if rdc then 48 + (Config.rdcSlice line).val else (Config.l2Slice line).val

/-- A cache line lies in the set that a line of a die goes to. -/
def CacheLine.inSet (e : CacheLine) (die : Nat) (rdc : Bool) (line : Nat) : Bool :=
  e.die == die && e.rdc == rdc && cacheSlice rdc e.line == cacheSlice rdc line && Config.cacheSet e.line == Config.cacheSet line

/-- The ways that a class may fill in the slice of a line. -/
def waysFor (y : Die) (rdc : Bool) (line cls : Nat) : List Nat :=
  let m := Tab.getD y.wayMask 0xFFFF#16 (16 * cacheSlice rdc line + cls)
  (List.range 16).filter (fun w => m.getLsbD w)

/-- A line filled for a class: a hit moves nothing; else it takes an invalid way of the class's mask, or, where there is none, the
place of a line of any class in those ways; a class with no way fills nothing. -/
def fillLine (l : List CacheLine) (y : Die) (die : Nat) (rdc : Bool) (line cls pick : Nat) : List CacheLine :=
  if l.any (fun e => e.die == die && e.rdc == rdc && e.line == line) then l
  else
    let ways := waysFor y rdc line cls
    let free := ways.filter (fun w => !(l.any (fun e => e.inSet die rdc line && e.way == w)))
    let from_ := if free.isEmpty then ways else free
    if from_.isEmpty then l
    else
      let way := from_.getD (Config.cacheVictim pick % from_.length) 0
      { die := die, rdc := rdc, line := line, way := way, cls := cls } :: l.filter (fun e => !(e.inSet die rdc line && e.way == way))

/-- A fill by a class into the L2, or the RDC, of a near die, where there is one. -/
def State.fill (s : State) (die : Option Nat) (rdc : Bool) (line cls : Nat) : State :=
  { s with
    cached := match die with
      | some d => if d < 4 then fillLine s.cached (s.die d) d rdc line cls s.freeCount else s.cached
      | none => s.cached
    freeCount := s.freeCount + 1 }

/-- Bookkeeping of one line written at its home: dirty in L2, under a key slot, no RDC copy left (R135, R187, R433); a write of
the whole line clears its poison (R447). -/
def State.lineWritten (s : State) (slot : Nat) (whole : Bool) (line : Nat) : State :=
  { s with
    cached := s.cached.filterMap (fun e => if e.line != line then some e else if e.rdc then none else some { e with dirty := true })
    lineKey := Tab.put s.lineKey line slot
    memPoison := if whole then s.memPoison.filter (· != line) else s.memPoison }

/-- Bytes written at their home (R135), through a page that names a key slot. -/
def State.writeMem (s : State) (key : Nat) (bytes : List Byte) (slot : Nat) : State :=
  let s0 := s.takeKey slot key bytes.length
  let s1 := { s0 with mem := Memory.writeN s0.mem key bytes }
  (linesOf key bytes.length).foldl
    (fun acc l => acc.lineWritten slot (key ≤ 128 * l && 128 * l + 128 ≤ key + bytes.length) l) s1

/-- A line in its zero state: it reads as zeros, and no key bears on it (R185, R433). -/
def State.zeroLine (s : State) (line : Nat) : State :=
  let s1 := s.writeMem (128 * line) (List.replicate 128 0#8) 0
  { s1 with lineKey := Tab.del s1.lineKey line }

/-- The access shadow of every line touched becomes zero: a write by an engine, an atomic or an outside agent (R149). -/
def State.clearShadow (s : State) (key n : Nat) : State :=
  { s with shadow := (linesOf key n).foldl Tab.del s.shadow }

/-- The access shadows of a range of keys become zero: its lines are mapped anew (R149). -/
def State.clearFrame (s : State) (key n : Nat) : State :=
  { s with shadow := s.shadow.filter (fun e => !(key / 128 ≤ e.1 && e.1 < (key + n) / 128)) }

def State.poisoned (s : State) (key n : Nat) : Bool := (linesOf key n).any (fun l => s.memPoison.contains l)

/-! ### Page tables (R424, R425, R426) -/

def pteV (e : DWord) : Bool := e.getLsbD 0
def pteLeaf (e : DWord) : Bool := e.getLsbD 1
def pteA (e : DWord) : Bool := e.getLsbD 2
def pteD (e : DWord) : Bool := e.getLsbD 3
def pteWr (e : DWord) : Bool := e.getLsbD 4
def pteSz (e : DWord) : Nat := bitsOf e.toNat 5 3
def pteNc (e : DWord) : Bool := e.getLsbD 8
def pteKey (e : DWord) : Nat := bitsOf e.toNat 10 6
def ptePa (e : DWord) : Nat := bitsOf e.toNat 16 32 * 4096
def pteOwner (e : DWord) : Nat := bitsOf e.toNat 48 16

/-- Level of the leaf of a page size, and the entries of one run (R424). -/
def szLevel (sz : Nat) : Nat := if sz < 3 then 0 else if sz < 5 then 1 else 2
def szRun (sz : Nat) : Nat :=
  match sz with
  | 1 => 4
  | 2 | 4 | 6 => 16
  | _ => 1

/-- Bytes one entry of a level maps. -/
def levelBytes (level : Nat) : Nat := 2 ^ (12 + 9 * level)

/-- The fields of an entry that the entries of a run agree in: all but PA, A and D. -/
def pteShape (e : DWord) : Nat := e.toNat / 2 ^ 48 * 2 ^ 16 + bitsOf e.toNat 4 12 * 4 + bitsOf e.toNat 0 2

/-- What a walk finds. -/
inductive WalkRes where
  /-- a sound leaf: the entry, its level, its key in memory, and the physical address of the byte -/
  | leaf (entry : DWord) (level key pa : Nat)
  /-- PAGE_FAULT: level reached and reason (R425) -/
  | fault (level reason : Nat)
  deriving DecidableEq, Repr

def readPte (s : State) (dev pa : Nat) : DWord := BitVec.ofNat 64 (s.memNum (physKey dev pa) 8)

/-- A leaf at its level: its soundness, and the physical address under it, or under the first entry of its run where the
run disagrees and pick says so (R426). -/
def walkLeaf (s : State) (dev ia : Nat) (pick : Bool) (level at_ : Nat) (e : DWord) : WalkRes :=
  let sz := pteSz e
  if sz = 7 || szLevel sz != level || e.getLsbD 9 then .fault level 1
  else
    let run := szRun sz
    let idx := ia / levelBytes level % run
    let first := readPte s dev (at_ - 8 * idx)
    if pick && pteShape first != pteShape e then
      if !pteV first then .fault level 0
      else if !pteLeaf first || pteSz first = 7 || szLevel (pteSz first) != level || first.getLsbD 9 then .fault level 1
      else .leaf first level (physKey dev (at_ - 8 * idx)) (ptePa first + ia % (levelBytes level * run))
    else .leaf e level (physKey dev at_) (ptePa e + ia % levelBytes level)

/-- The walk from a level's table down (R424, R425). -/
def walkFrom (s : State) (dev ia : Nat) (pick : Bool) : Nat → Nat → WalkRes
  | level, tbl =>
    let at_ := tbl + 8 * (ia / levelBytes level % 512)
    let e := readPte s dev at_
    if s.poisoned (physKey dev at_) 8 then .fault level 1
    else if !pteV e then .fault level 0
    else if pteLeaf e then (if level ≥ 3 then .fault level 1 else walkLeaf s dev ia pick level at_ e)
    else match level with
      | 0 => .fault 0 1
      | n + 1 => if pteShape e != 1 || bitsOf e.toNat 2 2 != 0 then .fault level 1 else walkFrom s dev ia pick n (ptePa e)

/-- The walk of an intermediate address from the root (R424); a root that PTROOT does not mark valid maps nothing (R463). -/
def walk (s : State) (dev ia : Nat) (pick : Bool) : WalkRes :=
  if (s.dev dev).ptroot.getLsbD 0 then walkFrom s dev ia pick 3 (bitsOf (s.dev dev).ptroot.toNat 12 32 * 4096)
  else .fault 3 0

/-- A page-table entry written at its home. -/
def State.setPte (s : State) (key : Nat) (e : DWord) : State :=
  s.writeMem key (toBytes 8 e.toNat) (Tab.getD s.lineKey 0 (key / 128))

/-- An entry with A set, and D for a write. -/
def markPte (write : Bool) (e : DWord) : DWord := e ||| (if write then 12#64 else 4#64)

/-- The walker's marks on the leaf of an intermediate address that is translated: A, and D for a write (R427). -/
def State.markLeaf (s : State) (dev ia : Nat) (write : Bool) : State :=
  match walk s dev ia false with
  | .leaf e _ key _ => if markPte write e = e then s else s.setPte key (markPte write e)
  | .fault _ _ => s

/-- A range register looked up in a core's first-level window table: a miss reads it from the hub, and takes the place of the
oldest of 128 (R423). -/
def Core.look (ctx i : Nat) (k : Core) : Core :=
  if k.win.contains (ctx, i) then k else { k with win := ((ctx, i) :: k.win).take 128 }

/-- Every core has dropped a context's entries (R423). -/
def State.dropWindow (s : State) (ctx : Nat) : State :=
  { s with cores := s.cores.map (fun e => (e.1, { e.2 with win := e.2.win.filter (fun y => y.1 != ctx) })) }

/-! ### Range registers (R422) -/

def rrValid (r : RangeReg) : Bool := r.attr.getLsbD 0
def rrR (r : RangeReg) : Bool := r.attr.getLsbD 1
def rrW (r : RangeReg) : Bool := r.attr.getLsbD 2
def rrX (r : RangeReg) : Bool := r.attr.getLsbD 3
/-- 0 race-checked, 1 read-only, 2 unchecked -/
def rrChk (r : RangeReg) : Nat := bitsOf r.attr.toNat 4 2
def rrPod (r : RangeReg) : Bool := r.attr.getLsbD 6
def rrPodId (r : RangeReg) : Nat := bitsOf r.attr.toNat 7 12

/-- The valid range that holds an address, with its index. -/
def findRange (cx : Ctx) (va : Nat) : Option (Nat × RangeReg) :=
  ((List.range 8).map (fun i => (i, vget cx.ranges {} i))).find?
    (fun e => rrValid e.2 && e.2.base.toNat ≤ va && va < e.2.limit.toNat)

/-- IA := VA + OFFSET, modulo 2^64. -/
def rangeIa (r : RangeReg) (va : Nat) : Nat := (va + r.offset.toNat) % 2 ^ 64

/-- A page under migration holds the writes to it (R226): the one that a range of addresses meets. -/
def migratingOver (s : State) (dev ia n : Nat) : Option Nat :=
  (((vlist s.mig).filterMap MigEngine.active).find? (fun m => !m.block && m.dev == dev && m.ia < ia + n && ia < m.ia + m.size)).map
    Migration.ia

def migratingPage (s : State) (dev ia : Nat) : Option Nat := migratingOver s dev ia 1

/-- The same for virtual addresses of a context. -/
def migratingVa (s : State) (ctx va n : Nat) : Option Nat :=
  let cx := s.ctx ctx
  match findRange cx va with
  | some (_, r) => if rrPod r then none else migratingOver s cx.dev (rangeIa r va) n
  | none => none

/-! ### Codes (R444) -/

def cIllegalOpcode : Nat := 0x0101
def cIllegalEncoding : Nat := 0x0102
def cIllegalOperand : Nat := 0x0103
def cPrivileged : Nat := 0x0104
def cFetchFault : Nat := 0x0105
def cEmptyRead : Nat := 0x0201
def cRegPoison : Nat := 0x0202
def cLatentPoison : Nat := 0x0203
def cUniformConflict : Nat := 0x0204
def cSavePoison : Nat := 0x0205
def cCallOverflow : Nat := 0x0301
def cRetUnderflow : Nat := 0x0302
def cBranchTarget : Nat := 0x0303
def cDivergenceOverflow : Nat := 0x0304
def cSoftwareTrap : Nat := 0x0305
def cBreakpoint : Nat := 0x0306
def cAlignment : Nat := 0x0401
def cLclRange : Nat := 0x0402
def cRangeFault : Nat := 0x0403
def cPermissionFault : Nat := 0x0404
def cPageFault : Nat := 0x0405
def cOwnerFault : Nat := 0x0406
def cMemoryModel : Nat := 0x0407
def cReleaseLimit : Nat := 0x0408
def cMemPoison : Nat := 0x0409
def cMemUe : Nat := 0x040A
def cBtRange : Nat := 0x0501
def cBtUnmapped : Nat := 0x0502
def cBtEncoded : Nat := 0x0503
def cBtNoFree : Nat := 0x0504
def cCbOverrun : Nat := 0x0601
def cCbUnderrun : Nat := 0x0602
def cStreamBound : Nat := 0x0603
def cCopyFault : Nat := 0x0604
def cCopyPoison : Nat := 0x0605
def cFragmentSize : Nat := 0x0701
def cTileRange : Nat := 0x0702
def cMatrixUncorrectable : Nat := 0x0703
def cBoundViolation : Nat := 0x0704
def cNormJump : Nat := 0x0705
def cEscalationSaturated : Nat := 0x0706
def cMatrixRailPinned : Nat := 0x0707
def cBarrierRange : Nat := 0x0801
def cBarrierDivergent : Nat := 0x0802
def cBarrierFailed : Nat := 0x0803
def cPeerReset : Nat := 0x0901
def cTargetUnavailable : Nat := 0x0902
def cRemoteWriteFailed : Nat := 0x0903
def cRstvUndeliverable : Nat := 0x0904
def cCollFail : Nat := 0x0905
def cPeelFail : Nat := 0x0906
def cLinkOpFault : Nat := 0x0907
def cLinkDegraded : Nat := 0x0908
def cSaveCorrupt : Nat := 0x0A01
def cBindRefused : Nat := 0x0A02
def cSchedTakeover : Nat := 0x0A03
def cDispatchLost : Nat := 0x0A04
def cDieFenced : Nat := 0x0A05
def cSinkFault : Nat := 0x0A06
def cTeamUnfit : Nat := 0x0B01
def cPanelUnfit : Nat := 0x0B02
def cNoSkein : Nat := 0x0B03
def cBadCommand : Nat := 0x0B04
def cModeBusy : Nat := 0x0B05
def cQueueOverrun : Nat := 0x0B06

/-! ### Accesses of the device itself (R443) -/

/-- The key of a virtual address of a context for an access of the device on its behalf, within one page; or the code of
the fault it meets. -/
def devVa (s : State) (ctx va n : Nat) (write : Bool) : Except Nat (Nat × Nat) :=
  let cx := s.ctx ctx
  match findRange cx va with
  | none => .error cRangeFault
  | some (_, r) =>
    if r.limit.toNat < va + n then .error cRangeFault
    else if (if write then !rrW r else !rrR r) then .error cPermissionFault
    else if rrPod r then .error cPageFault
    else match walk s cx.dev (rangeIa r va % 2 ^ 48) false with
      | .fault _ _ => .error cPageFault
      | .leaf e _ _ pa =>
        if write && !pteWr e then .error cPageFault
        else if !(cx.owners.contains (pteOwner e)) then .error cOwnerFault
        else .ok (physKey cx.dev pa, pteKey e)

/-- The chunks of an address range that lie in one 4 KiB page each: address and length. -/
def pageChunks : Nat → Nat → Nat → List (Nat × Nat)
  | 0, _, _ => []
  | fuel + 1, va, n =>
    if n = 0 then []
    else
      let k := min n (4096 - va % 4096)
      (va, k) :: pageChunks fuel (va + k) (n - k)

/-- The keys of a range of virtual addresses, one per page chunk: key, key slot, length. -/
def devChunks (s : State) (ctx : Nat) (write : Bool) : List (Nat × Nat) → Except Nat (List (Nat × Nat × Nat))
  | [] => .ok []
  | (va, n) :: t =>
    match devVa s ctx va n write with
    | .error c => .error c
    | .ok (k, slot) =>
      match devChunks s ctx write t with
      | .error c => .error c
      | .ok l => .ok ((k, slot, n) :: l)

/-- The marks of the walker for an access of the device through a context's ranges, by chunks (R427). -/
def State.markVa (s : State) (ctx : Nat) (write : Bool) (l : List (Nat × Nat)) : State :=
  l.foldl (fun acc e =>
    match findRange (acc.ctx ctx) e.1 with
    | some (_, r) => acc.markLeaf (acc.ctx ctx).dev (rangeIa r e.1 % 2 ^ 48) write
    | none => acc) s

/-- Chunks written one after another: key, key slot, length. -/
def State.putChunks (s : State) (l : List (Nat × Nat × Nat)) (bytes : List Byte) : State :=
  (l.foldl (fun (acc : State × List Byte) e =>
    ((acc.1.writeMem e.1 (acc.2.take e.2.2) e.2.1).clearShadow e.1 e.2.2, acc.2.drop e.2.2)) (s, bytes)).1

/-- A write of the device through a context's ranges and pages: all of it, or the fault it meets (R427, R443). perm says whether the
write permission of ranges and pages is asked for. -/
def devWriteAs (perm : Bool) (s : State) (ctx va : Nat) (bytes : List Byte) : Except Nat State :=
  let parts := pageChunks (bytes.length / 4096 + 2) va bytes.length
  match devChunks s ctx perm parts with
  | .error c => .error c
  | .ok l =>
    if l.any (fun e => s.poisoned e.1 e.2.2) then .error cMemPoison
    else .ok ((s.markVa ctx true parts).putChunks l bytes)

def devWriteVa (s : State) (ctx va : Nat) (bytes : List Byte) : Except Nat State := devWriteAs true s ctx va bytes

/-- A read of the device through a context's ranges and pages. -/
def devReadVa (s : State) (ctx va n : Nat) : Except Nat (List Byte) :=
  match devChunks s ctx false (pageChunks (n / 4096 + 2) va n) with
  | .error c => .error c
  | .ok l =>
    if l.any (fun e => s.poisoned e.1 e.2.2) then .error cMemPoison
    else .ok (l.flatMap (fun e => s.readUnder e.2.1 e.1 e.2.2))

/-- The key of an intermediate address of a device for the hub and the dispatch firmware, which have no context: the page
table is walked and owners are not compared (PRESUMED, notes/assumptions/8.md). -/
def iaKey (s : State) (dev ia : Nat) : Option (Nat × Nat) :=
  if 2 ^ 48 ≤ ia then none
  else match walk s dev ia false with
    | .leaf e _ _ pa => some (physKey dev pa, pteKey e)
    | .fault _ _ => none

/-- The same for a write: the page is not write-protected (R425). -/
def iaWriteKey (s : State) (dev ia : Nat) : Option (Nat × Nat) :=
  if 2 ^ 48 ≤ ia then none
  else match walk s dev ia false with
    | .leaf e _ _ pa => if pteWr e then some (physKey dev pa, pteKey e) else none
    | .fault _ _ => none

/-- A read at an intermediate address, within pages; none where a page is not mapped or a line is poisoned. -/
def iaRead (s : State) (dev ia n : Nat) : Option (List Byte) :=
  ((pageChunks (n / 4096 + 2) ia n).mapM (fun e => (iaKey s dev e.1).bind (fun k =>
    if s.poisoned k.1 e.2 then none else some (s.readUnder k.2 k.1 e.2)))).map List.flatten

/-- A write at an intermediate address, with the walker's marks (R427). -/
def iaWrite (s : State) (dev ia : Nat) (bytes : List Byte) : Option State :=
  let parts := pageChunks (bytes.length / 4096 + 2) ia bytes.length
  match parts.mapM (fun e => (iaWriteKey s dev e.1).map (fun k => (k.1, k.2, e.2))) with
  | none => none
  | some l =>
    if l.any (fun e => s.poisoned e.1 e.2.2) then none
    else some ((parts.foldl (fun acc e => acc.markLeaf dev e.1 true) s).putChunks l bytes)

/-! ### Error records (R439 to R443) -/

/-- What an error record says. -/
structure Rec where
  name   : DWord := 0#64
  pc     : DWord := 0#64
  code   : Nat
  stop   : Bool := false
  replay : Bool := false
  skid   : Nat := 0
  ia     : Nat := 0
  /-- bytes 40 to 55, byte 40 lowest -/
  cls    : Nat := 0
  deriving DecidableEq, Repr

/-- Class-specific bytes from four 32-bit fields (bytes 40, 44, 48 and 52). -/
def cls4 (a b c d : Nat) : Nat := a % 2 ^ 32 + 2 ^ 32 * (b % 2 ^ 32) + 2 ^ 64 * (c % 2 ^ 32) + 2 ^ 96 * (d % 2 ^ 32)

/-- How many of bytes 40 to 55 of a record the rules state for its code, from byte 40 on (R36, R53, R103, R104, R151, R166,
R168, R198, R234, R248, R347, R354, R355, R376, R391, R405, R425, R443, R445 to R448, R450, R455, R468; LINK_DEGRADED:
notes/assumptions/54.md). -/
def statedBytes (code : Nat) : Nat :=
  if [cEmptyRead, cRegPoison, cLatentPoison, cUniformConflict, cSoftwareTrap, cAlignment, cMemoryModel, cMatrixUncorrectable,
      cBoundViolation, cNormJump, cPeelFail, cRstvUndeliverable].contains code then 16
  else if [cLclRange, cBtRange, cRangeFault, cPermissionFault, cCopyFault, cQueueOverrun, cLinkDegraded].contains code then 12
  else if [cBreakpoint, cSaveCorrupt, cBarrierFailed, cSavePoison, cCopyPoison, cDieFenced, cSchedTakeover,
      cEscalationSaturated, cLinkOpFault].contains code then 8
  else if [cPageFault, cMemPoison, cRemoteWriteFailed, cMatrixRailPinned].contains code then 4
  else 0

/-- A record with the class-specific bytes from byte 40 + n on that no rule states: free values. -/
def Rec.freeFrom (r : Rec) (n k : Nat) : Rec :=
  { r with cls := r.cls % 2 ^ (8 * n) + (Config.freeClass k).toNat / 2 ^ (8 * n) * 2 ^ (8 * n) }

def Rec.filled (r : Rec) (k : Nat) : Rec :=
  let n := statedBytes r.code
  if n = 16 then r else r.freeFrom n k

/-- The 64 bytes of a record (R440). -/
def Rec.bytes (r : Rec) (aon asid seq : Nat) (loss : Bool) : List Byte :=
  let w16 := r.code % 2 ^ 16 + (if r.stop then 2 ^ 16 else 0) + (if r.replay then 2 ^ 17 else 0) + (if loss then 2 ^ 18 else 0)
  let head := toBytes 8 r.name.toNat ++ toBytes 8 r.pc.toNat ++ toBytes 4 w16 ++ toBytes 4 r.skid ++ toBytes 8 r.ia
    ++ toBytes 8 aon ++ toBytes 16 r.cls ++ toBytes 4 (asid % 2 ^ 16) ++ toBytes 2 seq
  head ++ toBytes 2 (crc32c head)

/-- A record dropped from the management log: LOSS marks the next one written (R440). -/
def State.mlogDrop (s : State) (dev : Nat) : State := s.modDev dev (fun x => { x with mlogLoss := true })

/-- The management log (R442, R443): a ring at the IA in MLOG, which an MLOG of 0 disables; a record that cannot be written counts
in MLOGLOST (R463). Each record is also sent as a platform event message (R478). -/
def State.mlogBytes (s : State) (dev : Nat) (mk : Nat → Bool → List Byte) : State :=
  let d := s.dev dev
  let base := d.mlog.toNat
  let b := mk d.mlogSeq d.mlogLoss
  let s1 := { s with mgmtOut := s.mgmtOut ++ [b] }.modDev dev (fun x => { x with mlogSeq := (x.mlogSeq + 1) % 2 ^ 16 })
  let lost := (s1.modDev dev (fun x => { x with mlogLost := x.mlogLost + 1 })).mlogDrop dev
  match if base = 0 then none else iaRead s dev base 16 with
  | none => lost
  | some h =>
    let cap := ofBytes (h.take 4)
    let head := ofBytes ((h.drop 4).take 4)
    let tail := ofBytes ((h.drop 8).take 4)
    let drp := ofBytes ((h.drop 12).take 4)
    if cap ≤ (tail + 2 ^ 32 - head) % 2 ^ 32 then
      ((iaWrite s1 dev (base + 12) (toBytes 4 (drp + 1))).map (fun t => t.mlogDrop dev)).getD lost
    else
      match iaWrite s1 dev (base + 64 + 64 * (tail % cap)) b with
      | none => lost
      | some s2 => ((iaWrite s2 dev (base + 8) (toBytes 4 (tail + 1))).map
          (fun t => t.modDev dev (fun x => { x with mlogLoss := false }))).getD lost

/-- A record of the management log: no course, no ASID (R442). -/
def State.postMlog (s : State) (dev : Nat) (r : Rec) : State :=
  let k := s.freeCount
  { s with freeCount := k + 1 }.mlogBytes dev (fun seq loss => { r.filled k with name := 0#64, pc := 0#64 }.bytes s.aon 0 seq loss)

/-- SINK_FAULT (R443): the faulting address, the kind, the ASID, and for kind 3 the queue and SEQ. -/
def State.sinkFault (s : State) (dev kind asid addr queue seq : Nat) : State :=
  let k := s.freeCount
  let r : Rec := { code := cSinkFault, ia := addr, cls := kind % 2 ^ 32 + 2 ^ 32 * (queue % 2 ^ 32) + 2 ^ 64 * (seq % 2 ^ 64) }
  { s with freeCount := k + 1 }.mlogBytes dev (fun sq loss =>
    (if kind = 3 then r else r.freeFrom 4 k).bytes s.aon asid sq loss)

/-- The error-queue header of a context: CAP, HEAD, TAIL, LOST. -/
def errHeader (s : State) (ctx : Nat) : Option (Nat × Nat × Nat × Nat) :=
  match devReadVa s ctx (s.ctx ctx).errq.toNat 16 with
  | .error _ => none
  | .ok h => some (ofBytes (h.take 4), ofBytes ((h.drop 4).take 4), ofBytes ((h.drop 8).take 4), ofBytes ((h.drop 12).take 4))

/-- What has become of a record (R439, R443): written, dropped because the ring is full, or not to be performed, with the address
that cannot be reached. -/
inductive ErrRes where
  | written (t : State)
  | full (t : State)
  | failed (addr : Nat)

/-- The write of one record into a context's queue: the record, then TAIL (R439, R440). -/
def State.errWrite (s : State) (ctx : Nat) (r : Rec) : ErrRes :=
  let cx := s.ctx ctx
  let base := cx.errq.toNat
  match errHeader s ctx with
  | none => .failed base
  | some (cap, head, tail, lost) =>
    if cap ≤ (tail + 2 ^ 32 - head) % 2 ^ 32 then
      match devWriteVa s ctx (base + 12) (toBytes 4 (lost + 1)) with
      | .ok s1 => .full (s1.modCtx ctx (fun x => { x with errLoss := true }))
      | .error _ => .failed (base + 12)
    else
      match devWriteVa s ctx (base + 64 + 64 * (tail % cap)) (r.bytes s.aon cx.asid cx.errSeq cx.errLoss) with
      | .error _ => .failed (base + 64 + 64 * (tail % cap))
      | .ok s1 =>
        match devWriteVa s1 ctx (base + 8) (toBytes 4 (tail + 1)) with
        | .error _ => .failed (base + 8)
        | .ok s2 => .written (s2.modCtx ctx (fun x => { x with errLoss := false }))

/-- The telemetry counter of a record (R436). -/
def telemetryOf (code : Nat) : Option Nat :=
  if code = cMatrixUncorrectable then some 48
  else if code = cNormJump then some 72
  else if code = cEscalationSaturated then some 80
  else if code = cRegPoison || code = cLatentPoison then some 96
  else none

/-- A filled record written where it goes: the context's queue, or the management log once the queue is marked faulted; and
whether a stop raises the error interrupt, which a record that a full ring drops does not (R439, R441, R443). -/
def State.postTo (s : State) (ctx : Nat) (r : Rec) : State × Bool :=
  let cx := s.ctx ctx
  let toLog := fun (t : State) => t.mlogBytes cx.dev (fun _ loss => r.bytes s.aon cx.asid cx.errSeq loss)
  if cx.errFault then (toLog s, true)
  else match s.errWrite ctx r with
    | .written t => (t, true)
    | .full t => (t, false)
    | .failed addr => ((toLog (s.modCtx ctx (fun x => { x with errFault := true }))).sinkFault cx.dev 1 cx.asid addr 0 0, true)

/-- The telemetry counter of a posted record raised (R436). -/
def State.postCount (s : State) (ctx code : Nat) : State :=
  match telemetryOf code with
  | some off => s.count ctx off 1
  | none => s

/-- The error interrupt of a stop, to the agent that created the context (R441). -/
def State.postIrq (s : State) (ctx : Nat) (stop : Bool) : State :=
  if stop then s.modDev (s.ctx ctx).dev (fun d => { d with errIrq := d.errIrq ++ [((s.ctx ctx).asid, (s.ctx ctx).toHost)] }) else s

/-- A record of a context posted (R439 to R443): written, counted, numbered; a stop raises the context's error interrupt. -/
def State.post (s : State) (ctx : Nat) (r0 : Rec) : State :=
  let r := r0.filled s.freeCount
  let p := { s with freeCount := s.freeCount + 1 }.postTo ctx r
  let s1 := p.1.postCount ctx r.code
  (s1.modCtx ctx (fun x => { x with errSeq := (x.errSeq + 1) % 2 ^ 16 })).postIrq ctx (r.stop && p.2)

/-! ### Traps -/

/-- A trap of a word. -/
structure Trap where
  code : Nat
  ia   : Nat := 0
  cls  : Nat := 0
  /-- the failure of a remote write, taken by a release: the course's mark is cleared (R234) -/
  remote : Bool := false
  deriving DecidableEq, Repr

/-- The opcode of a queued matrix operation is that of MMA or MMAZ. -/
def MatOp.isMma (o : MatOp) : Bool := let op := o.word.extractLsb' 54 9; op == 0x140#9 || op == 0x141#9

/-- An operation of a course that an abandonment takes out of the matrix queue: an MMA, or an operation not yet started
(R348). -/
def MatOp.abandoned (c : Nat) (name : DWord) (o : MatOp) : Bool :=
  o.fence.isNone && o.owner.course == c && o.owner.name == name && (o.isMma || !o.started)

/-- An operation as it is issued again. -/
def MatOp.afresh (o : MatOp) : MatOp :=
  { o with started := false, attempts := 0, fragA := none, fragB := none, latA := none, latB := none, got := [], skid := 0 }

/-- Claims given back: fragments become unclaimed. -/
def unclaimStreams (ids : List Nat) (t : Team) : Team :=
  { t with streams := vmap (fun (y : Stream) => { y with frags := y.frags.map (fun f =>
      match f.claim with
      | some i => if ids.contains i then { f with claim := none } else f
      | none => f) }) t.streams }

/-- The claims and latches that abandoned operations give back: the latches stand as before the first of their MMAs. -/
def unbindMats (c tid : Nat) (l : List MatOp) (s : State) : State :=
  match l.find? MatOp.isMma with
  | none => s
  | some o =>
    let keep := (o.latA.toList ++ o.latB.toList).map Latch.claim
    let ids := (l.flatMap (fun y => (y.fragA.toList ++ y.fragB.toList).map Latch.claim)).filter (fun i => !(keep.contains i))
    (s.modTeam tid (unclaimStreams ids)).modCourse c (fun co => { co with latchA := o.latA, latchB := o.latB })

/-- A course's matrix operations abandoned or taken out of the queue, to be issued again before its next word (R348): an MMA
in progress has changed nothing yet, and starts afresh. -/
def abandonMats (c : Nat) (s : State) : State :=
  let co := s.courseD c
  let mine := MatOp.abandoned c co.name
  let l := (s.core (coreOf c)).mq.filter mine
  if l.isEmpty then s
  else
    let s1 := unbindMats c co.team l (s.modCore (coreOf c) (fun k => { k with mq := k.mq.filter (fun o => !(mine o)) }))
    s1.modCourse c (fun y => { y with remat := y.remat ++ l.map MatOp.afresh })

/-- Stopping a course (R38): no strand of it issues, and its matrix operations are abandoned or taken back. -/
def State.stopCourse (s : State) (c : Nat) : State :=
  abandonMats c (s.modCourse c (fun co => { co with cstate := .stopped }))

/-- The record of a trap, posted with the word's PC (R440). -/
def postTrap (c st : Nat) (t : Trap) (s : State) : State :=
  let co := s.courseD c
  s.post co.ctx { name := co.name, pc := (co.strand st).pc, code := t.code, stop := true, ia := t.ia, cls := t.cls }

/-- Taking a trap: a strand's word faults, the record is posted, and the course stops with the word's PC saved (R38, R440). A
trap after which the saved PC is that of the next word is stopAfter. -/
def takeTrap (c st : Nat) (t : Trap) (s : State) : State :=
  let s1 := postTrap c st t s
  (if t.remote then s1.modCourse c (fun x => { x with remoteFail := none }) else s1).stopCourse c

/-- The way back from a trap: a stopped course that is bound again runs on from the PCs it was stopped with (R40, R390);
each strand starts with level 0, age 0 and ready from now on. -/
def returnFromStop (c : Nat) (s : State) : State :=
  let now := s.clockOf c
  s.modCourse c (fun co => { co with
    cstate := .run
    strands := vmap (fun (x : Strand) => { x with level := 0, age := 0, readySince := now }) co.strands })

/-! ### The word being issued -/

/-- The strand a word belongs to, as it stands before the word; rep is the execution index and COUNT within a REP. -/
structure At where
  c   : Nat
  st  : Nat
  co  : Course
  sd  : Strand
  rep : Option (Nat × Nat) := none

/-- Whether a word may issue. -/
inductive Verdict where
  | go
  | wait
  | trap (t : Trap)
  deriving DecidableEq, Repr

/-- The first of two checks that does not say go. -/
def Verdict.and_ (a b : Verdict) : Verdict :=
  match a with
  | .go => b
  | v => v

def Verdict.trapIf (cond : Bool) (t : Trap) : Verdict := if cond then .trap t else .go
def Verdict.waitIf (cond : Bool) : Verdict := if cond then .wait else .go

def Verdict.all : List Verdict → Verdict
  | [] => .go
  | v :: t => v.and_ (Verdict.all t)

/-- A word's first checks v, those of its privilege and of its sources, taken together with the check p of the predicates it
reads: what v waits for comes first, and of the traps PRIVILEGED and EMPTY_READ stand before REG_POISON of a predicate, which
stands before the rest (R52, R110). -/
def Verdict.withPoison (v p : Verdict) : Verdict :=
  match v with
  | .go => p
  | .wait => .wait
  | .trap t => if t.code = cPrivileged ∨ t.code = cEmptyRead then .trap t else p.and_ (.trap t)

/-- The strand that State.cur names, where it is live. -/
def State.at_ (s : State) : Option At :=
  match s.cur with
  | none => none
  | some (c, st) =>
    match s.course c with
    | none => none
    | some co => if (co.strand st).live then some { c := c, st := st, co := co, sd := co.strand st } else none

/-- The frame of every word: the verdict on the state before it, then its effect, its trap, or nothing. -/
def issueWord (v : At → State → Verdict) (e : At → State → State) (s : State) : Out :=
  match s.at_ with
  | none => .fault .noStrand
  | some x =>
    match v x s with
    | .go => .next (e x s)
    | .wait => .next s
    | .trap t => .next (takeTrap x.c x.st t s)

/-- The active lanes of a word: the strand's mask and the selected predicate (R58). -/
def activeOf (x : At) (pn : Bool) (pred : BitVec 3) : Mask :=
  let p := vget x.co.p 0#32 pred.toNat
  x.sd.mask &&& (if pn then ~~~p else p)

/-- The context of a word. -/
def At.ctx (x : At) (s : State) : Ctx := s.ctx x.co.ctx

/-! ### Queue, named registers and arrivals (R47 to R49, R72) -/

/-- The lanes of the strand's mask pushed: an active lane receives its entries in order, another as many copies of its
q0 (R47, R48). -/
def Strand.push (sd : Strand) (act : Mask) (n : Nat) (es : Nat → List Entry) : Strand :=
  { sd with q := vmapIdx (fun l (ql : Vector Entry 16) =>
      if sd.mask.getLsbD l then
        (if act.getLsbD l then es l else List.replicate n (vget ql {} 0)).foldl (fun acc e => vpush e acc) ql
      else ql) sd.q }

/-- A v register written in some lanes. -/
def Course.writeV (co : Course) (n : Nat) (act : Mask) (e : Nat → Entry) : Course :=
  { co with v := vset co.v n (vmapIdx (fun l old => if act.getLsbD l then e l else old) (vget co.v (vconst 32 {}) n)) }

def Strand.writeG (sd : Strand) (n : Nat) (g : GReg) : Strand := { sd with g := vset sd.g n g }

/-- A predicate written in some lanes, whose poison goes (R57); p7 ignores every write (R45). -/
def Course.writeP (co : Course) (n : Nat) (act bits : Mask) : Course :=
  if n < 7 then { co with p := vset co.p n ((vget co.p 0#32 n &&& ~~~act) ||| (bits &&& act))
                          pBad := vset co.pBad n (vget co.pBad 0#32 n &&& ~~~act)
                          pNoted := vset co.pNoted n (vget co.pNoted 0#32 n &&& ~~~act) }
  else co

/-- A special register written: its poison goes (R57). -/
def Course.cleanSreg (n : Nat) (co : Course) : Course := { co with sBad := co.sBad.filter (· != n) }

/-- The 32-bit words of a value, low word first. -/
def wordsOf (n x : Nat) : List Word := (List.range n).map (fun i => BitVec.ofNat 32 (x / 2 ^ (32 * i)))

/-- The value a g copy receives from a result of one or two entries (R72). -/
def extendG (words : Nat) (signed : Bool) (x : Nat) : DWord :=
  if words = 1 then BitVec.ofInt 64 (if signed then sgn 32 x else (x % 2 ^ 32 : Nat)) else BitVec.ofNat 64 x

/-- The named destination of a computed value (R72). -/
def writeNamed (x : At) (act : Mask) (d : BitVec 8) (words : Nat) (signed : Bool) (val : Nat → Nat) (s : State) : State :=
  if isV d then
    s.modCourse x.c (fun co => (List.range words).foldl
      (fun acc i => acc.writeV (d.toNat - 0x40 + i) act
        (fun l => { val := BitVec.ofNat 32 (val l / 2 ^ (32 * i)) })) co)
  else if isG d then
    match lowLane act with
    | none => s
    | some l => s.modStrand x.c x.st (fun sd => sd.writeG (d.toNat - 0x20) { val := extendG words signed (val l) })
  else s

/-- The common effect of a value-producing word (R72): push, then the named destination. -/
def produce (x : At) (act : Mask) (d : BitVec 8) (words : Nat) (signed : Bool) (val : Nat → Nat) (s : State) : State :=
  let s1 := s.modStrand x.c x.st (fun sd => sd.push act words
    (fun l => (wordsOf words (val l)).map (fun w => ({ val := w } : Entry))))
  writeNamed x act d words signed val s1

/-- The push of a long-latency producer: entries that await words 0, 1, … of an arrival (R49, R51). -/
def produceLater (x : At) (act : Mask) (d : BitVec 8) (words id : Nat) (s : State) : State :=
  let e := fun (i : Nat) => ({ full := false, await := some (8 * id + i) } : Entry)
  let s1 := s.modStrand x.c x.st (fun sd => sd.push act words (fun _ => (List.range words).map e))
  if act = 0#32 then s1
  else if isV d then
    s1.modCourse x.c (fun co => (List.range words).foldl
      (fun acc i => acc.writeV (d.toNat - 0x40 + i) act (fun _ => e i)) co)
  else if isG d then
    s1.modStrand x.c x.st (fun sd => sd.writeG (d.toNat - 0x20) { full := false, await := some (8 * id) })
  else s1

/-- An entry that awaits word i of an arrival, given what its lane receives: the value, or a poison mark while the lane's
access has faulted. -/
def Entry.receive (id : Nat) (got : Option Nat) (bad : Bool) (e : Entry) : Entry :=
  match e.await with
  | none => e
  | some a =>
    if a / 8 = id then
      match got with
      | some v => { val := BitVec.ofNat 32 (v / 2 ^ (32 * (a % 8))), full := true, poison := bad }
      | none => if bad then { e with poison := true } else e
    else e

/-- The lanes that a strand holds: its mask, and those its deferral stack holds back (R28). -/
def Strand.holds (x : Strand) : Mask :=
  x.dstack.foldl (fun m e => m ||| (if e.phase2 then e.parked else e.mask)) x.mask

/-- The lanes that have not left the course by EXIT (R89). -/
def Course.heldLanes (co : Course) : Mask := co.liveStrands.foldl (fun m i => m ||| (co.strand i).holds) 0#32

/-- Delivery of an arrival to every entry and copy that still awaits it (R49); got l is what lane l receives, bad marks
poisoned lanes. A v register takes nothing for a lane that has left by EXIT (R89). -/
def Course.deliver (co : Course) (id words : Nat) (signed : Bool) (lanes : Mask) (got : Nat → Option Nat) (bad : Mask) :
    Course :=
  let f := fun (l : Nat) (e : Entry) => if lanes.getLsbD l then Entry.receive id (got l) (bad.getLsbD l) e else e
  let gf := fun (g : GReg) =>
    if g.await = some (8 * id) then
      match lowLane lanes with
      | none => g
      | some l => match got l with
        | some v => { val := extendG words signed v, full := true, poison := bad.getLsbD l }
        | none => if bad.getLsbD l then { g with poison := true } else g
    else g
  { co with
    strands := vmap (fun (sd : Strand) =>
      { sd with q := vmapIdx (fun l ql => vmap (f l) ql) sd.q, g := vmap gf sd.g }) co.strands
    v := vmap (fun r => vmapIdx (fun l e => if co.heldLanes.getLsbD l then f l e else e) r) co.v }

/-! ### Waits that every word shares (R51, R55, R169) -/

/-- A predicate with a write still to arrive in a lane of the strand (R51). -/
def predPending (x : At) (s : State) (n : Nat) : Bool :=
  n < 7 && (Tab.vals s.arrivals).any (fun a => a.course == x.c && a.pdst == n && (a.lanes &&& x.sd.mask) != 0#32)

/-- A named destination with an arrival still pending (R55). -/
def destPending (x : At) (act : Mask) (d : BitVec 8) (words : Nat) : Bool :=
  if isV d then
    (List.range words).any (fun i =>
      (lanesOf act).any (fun l => (vget (vget x.co.v (vconst 32 {}) (d.toNat - 0x40 + i)) {} l).await.isSome))
  else if isG d then act != 0#32 && (vget x.sd.g {} (d.toNat - 0x20)).await.isSome
  else false

/-- A lane's access has been performed or has failed. -/
def LaneStage.decided : LaneStage → Bool
  | .done _ | .poisoned | .fault _ _ _ => true
  | .issued | .at_ _ | .stalled _ | .remote => false

/-- The kinds of access that write (R146, R223, R427). -/
def AccKind.writes : AccKind → Bool
  | .store | .discard | .lastuse _ | .btref | .btalloc | .btfree | .ptew _ _ => true
  | .atomic aop _ => aop != 8
  | .load _ | .btlook _ => false

/-- An acquire of a course at a scope: wider than core it drops the unchecked lines of the core's L1 (R140). -/
def State.acquire (s : State) (c scope : Nat) : State :=
  if 2 ≤ scope && (s.course c).isSome then s.modCore (coreOf c) (fun k => { k with l1 := k.l1.filter (fun e => e.2.1) }) else s

/-- The kinds that race checking covers (R145). -/
def AccKind.checkable : AccKind → Bool
  | .load _ | .store | .discard | .lastuse _ => true
  | _ => false

def LaneAcc.checked (a : LaneAcc) (k : AccKind) : Bool := k.checkable && !a.block && a.pod.isNone && a.chk == 0 && !a.nc

def Access.undecided (a : Access) : Bool := (Tab.vals a.lanes).any (fun l => !l.stage.decided)

/-- A lane of the access is still to be checked. -/
def Access.unchecked (a : Access) : Bool := (Tab.vals a.lanes).any (fun l => l.checked a.kind && !l.stage.decided)

/-- Key of a line of a device's intermediate addresses. -/
def l1Key (dev ia : Nat) : Nat := dev * 2 ^ 41 + ia / 128

/-- A store that its core's L1 copy already shows to every course of the core (R140). -/
def State.inCore (s : State) (a : Access) (x : LaneAcc) : Bool :=
  a.kind == .store && x.inL1 && (Tab.find (s.core (coreOf a.course)).l1 (l1Key (s.ctx a.ctx).dev x.ia)).isSome

/-- What a release at a scope of the strand with the lanes m still waits for (R139, R140, R146, R154): the accesses of its
course that are not performed, but at lane and core scope the stores that an L1 copy shows; at a wider scope the stores of
other courses that the core's L1 shows, since the course may have acquired them; the local-store operations that wait, of this
strand. -/
def State.pendingAcc (s : State) (c : Nat) (m : Mask) (scope : Nat) : Bool :=
  (Tab.vals s.accesses).any (fun a =>
      if a.course == c then (Tab.vals a.lanes).any (fun x => !x.stage.decided && !(scope ≤ 1 && s.inCore a x))
      else 2 ≤ scope && coreOf a.course == coreOf c && (Tab.vals a.lanes).any (fun x => !x.stage.decided && s.inCore a x))
    || (Tab.vals s.remotes).any (fun r => match r.for_ with
      | .discard d n _ => d == c && n == (s.courseD c).name
      | _ => false)
    || (Tab.vals s.gran).any (fun g => g.course == c && (g.mask &&& m) != 0#32)

/-- The accesses of a word's strand that a release at a scope waits for. -/
def At.pending (x : At) (s : State) (scope : Nat) : Bool := s.pendingAcc x.c x.sd.mask scope

/-- An access or a matrix operation of the course that has been overtaken by 256 younger words: no further word issues
before it is decided (R169, R347). -/
def skidFull (s : State) (c : Nat) : Bool :=
  (Tab.vals s.accesses).any (fun a => a.course == c && 256 ≤ a.skid)
    || (s.core (coreOf c)).mq.any (fun o => o.owner.course == c && o.owner.name == (s.courseD c).name && 256 ≤ o.skid)

/-- The waits of a word apart from its sources: its predicate, its destination, the skid limit. -/
def frameWait (x : At) (s : State) (pred : BitVec 3) : Bool := predPending x s pred.toNat || skidFull s x.c

/-- REG_POISON for a register that has no operand code (R57): its number among those of Config.regField, and the lanes. -/
def regTrap (k : Nat) (m : Mask) : Trap :=
  { code := cRegPoison, cls := cls4 (Config.regField (2 * k)).toNat m.toNat (Config.regField (2 * k + 1)).toNat 0 }

/-- The lanes of m in which a predicate is poisoned. -/
def badPred (x : At) (m : Mask) (n : Nat) : Mask := m &&& vget x.co.pBad 0#32 n

/-- A predicate read in the lanes m (R57). -/
def predCheck (x : At) (m : Mask) (n : Nat) : Verdict := Verdict.trapIf (badPred x m n != 0#32) (regTrap n (badPred x m n))

/-- What every word waits for, its first checks, and the trap of its predicate, which every lane of the strand reads. -/
def framed (x : At) (s : State) (pred : BitVec 3) (first : Verdict) : Verdict :=
  (Verdict.waitIf (frameWait x s pred)).and_ (first.withPoison (predCheck x x.sd.mask pred.toNat))

/-- The frame of a word that has no first checks. -/
def frameCheck (x : At) (s : State) (pred : BitVec 3) : Verdict :=
  (Verdict.waitIf (frameWait x s pred)).and_ (predCheck x x.sd.mask pred.toNat)

end Sys2Proof.Machine
end

