-- ==== Sys2Proof/Machine/Block.lean ====
section
/-! DEFINITION. The block table: references, map entries, descriptors and the free stack (R215 to R222), and copy-on-write
(R223, R224). -/

namespace Sys2Proof.Machine

/-! ### References and descriptors (R215 to R217) -/

def refTable (ref : Nat) : Nat := bitsOf ref 61 3
def refBlock (ref : Nat) : Nat := bitsOf ref 32 29
def refOff (ref : Nat) : Nat := bitsOf ref 0 32

def tableOf (cx : Ctx) (ref : Nat) : BlockTab := vget cx.tables {} (refTable ref)

/-- Address of the map entry of a reference. -/
def mapVaOf (cx : Ctx) (ref : Nat) : Nat := (tableOf cx ref).map + 4 * refBlock ref

/-- BT_RANGE at issue (R168); n is the access size, 0 where the reference only names the block. -/
def refRange (cx : Ctx) (ref n : Nat) : Bool :=
  let t := tableOf cx ref
  t.maplen == 0 || t.maplen ≤ refBlock ref || 2 ^ t.log2bs ≤ refOff ref || 2 ^ t.log2bs < refOff ref + n

/-- A descriptor's place and its fields. -/
structure Desc where
  mapVa : Nat
  idx   : Nat
  va    : Nat
  key   : Nat
  ia    : Nat
  count : Nat
  state : Nat
  tag   : Nat
  gen   : Nat
  migia : Nat
  deriving DecidableEq, Repr

def descFrom (mapVa idx va key : Nat) (b : List Byte) : Desc :=
  { mapVa := mapVa, idx := idx, va := va, key := key, ia := ofBytes (b.take 8), count := ofBytes ((b.drop 8).take 2)
    state := ofBytes ((b.drop 10).take 1), tag := ofBytes ((b.drop 12).take 2), gen := ofBytes ((b.drop 16).take 4)
    migia := ofBytes ((b.drop 24).take 8) }

def Desc.tier (d : Desc) : Nat := d.state % 4
def Desc.enc (d : Desc) : Bool := bitOf d.state 2

/-- A descriptor of a table by its index. -/
def readDesc (s : State) (ctx : Nat) (t : BlockTab) (mapVa idx : Nat) : Except Nat Desc :=
  let va := t.pool + 32 * idx
  match devVa s ctx va 32 false with
  | .error c => .error c
  | .ok (key, slot) =>
    if s.poisoned key 32 then .error cMemPoison else .ok (descFrom mapVa idx va key (s.readUnder slot key 32))

/-- The lookup of a block reference: the map entry, then the descriptor (R217). -/
def blockLook (s : State) (ctx ref : Nat) : Except Nat Desc :=
  let cx := s.ctx ctx
  let mapVa := mapVaOf cx ref
  match devReadVa s ctx mapVa 4 with
  | .error c => .error c
  | .ok b =>
    let e := ofBytes b
    if !bitOf e 31 then .error cBtUnmapped else readDesc s ctx (tableOf cx ref) mapVa (bitsOf e 0 24)

/-! ### Changes of the tables -/

/-- A write of a table part; the state is unchanged where it cannot be performed. -/
def tabWrite (ctx va n v : Nat) (s : State) : State :=
  match devWriteVa s ctx va (toBytes n v) with
  | .ok t => t
  | .error _ => s

/-- The table parts an operation writes can be written. -/
def canWrite (s : State) (ctx va n : Nat) : Option Nat :=
  match devVa s ctx va n true with
  | .ok _ => none
  | .error c => some c

def stackTop (s : State) (ctx : Nat) (t : BlockTab) : Except Nat Nat :=
  match devReadVa s ctx t.freestk 4 with
  | .error c => .error c
  | .ok b => .ok (ofBytes b)

/-- An index pushed onto the free stack with TOP at top (R215). -/
def pushFree (ctx : Nat) (t : BlockTab) (top idx : Nat) (s : State) : State :=
  tabWrite ctx t.freestk 4 (top + 1) (tabWrite ctx (t.freestk + 8 + 4 * top) 4 idx s)

/-- The index on top of the free stack. -/
def topFree (s : State) (ctx : Nat) (t : BlockTab) (top : Nat) : Except Nat Nat :=
  match devReadVa s ctx (t.freestk + 4 + 4 * top) 4 with
  | .error c => .error c
  | .ok b => .ok (bitsOf (ofBytes b) 0 24)

/-- The first of several faults. -/
def firstFault : List (Option Nat) → Option Nat
  | [] => none
  | some c :: _ => some c
  | none :: t => firstFault t

/-- BTREF of one lane (R220): the value pushed, with the state after it, or the fault met. -/
def btRef (ctx ref delta : Nat) (s : State) : Except Nat (Nat × State) :=
  match blockLook s ctx ref with
  | .error c => .error c
  | .ok d =>
    let t := tableOf (s.ctx ctx) ref
    let n : Int := d.count + sgn 32 delta
    if n < 0 || 65535 < n then .ok (0xFFFFFFFF, s)
    else match canWrite s ctx (d.va + 8) 2 with
      | some c => .error c
      | none =>
        let s1 := tabWrite ctx (d.va + 8) 2 n.toNat s
        if n != 0 then .ok (n.toNat, s1)
        else match stackTop s ctx t with
          | .error c => .error c
          | .ok top =>
            if t.freecap ≤ top then .ok (0xFFFFFFFE, s)
            else match firstFault [canWrite s ctx t.freestk 4, canWrite s ctx (t.freestk + 8 + 4 * top) 4,
                canWrite s ctx d.mapVa 4] with
              | some c => .error c
              | none => .ok (0, pushFree ctx t top d.idx (tabWrite ctx d.mapVa 4 d.idx s1))

/-- BTALLOC of one lane (R221). -/
def btAlloc (ctx ref : Nat) (s : State) : Except Nat (Nat × State) :=
  let cx := s.ctx ctx
  let t := tableOf cx ref
  match devReadVa s ctx (mapVaOf cx ref) 4 with
  | .error c => .error c
  | .ok b =>
    if bitOf (ofBytes b) 31 then .ok (1, s)
    else match stackTop s ctx t with
      | .error c => .error c
      | .ok 0 => .ok (2, s)
      | .ok top =>
        match topFree s ctx t top with
        | .error c => .error c
        | .ok idx =>
          match readDesc s ctx t (mapVaOf cx ref) idx with
          | .error c => .error c
          | .ok d =>
            match firstFault [canWrite s ctx t.freestk 4, canWrite s ctx (mapVaOf cx ref) 4, canWrite s ctx d.va 32] with
            | some c => .error c
            | none =>
              let s1 := tabWrite ctx t.freestk 4 (top - 1) s
              let s2 := tabWrite ctx (d.va + 8) 2 1 s1
              let s3 := tabWrite ctx (d.va + 10) 1 0 s2
              let s4 := tabWrite ctx (d.va + 16) 4 ((d.gen + 1) % 2 ^ 32) s3
              .ok (0, tabWrite ctx (mapVaOf cx ref) 4 (2 ^ 31 + idx) s4)

/-- BTFREE of one lane (R222). -/
def btFree (ctx ref idx : Nat) (s : State) : Except Nat (Nat × State) :=
  let t := tableOf (s.ctx ctx) ref
  if t.poollen ≤ idx then .ok (2, s)
  else match stackTop s ctx t with
    | .error c => .error c
    | .ok top =>
      if t.freecap ≤ top then .ok (1, s)
      else match firstFault [canWrite s ctx t.freestk 4, canWrite s ctx (t.freestk + 8 + 4 * top) 4] with
        | some c => .error c
        | none => .ok (0, pushFree ctx t top idx s)

/-! ### Copy-on-write (R223, R224) -/

/-- The copy-on-write that holds a descriptor busy. -/
def cowOn (s : State) (desc : Nat) : Option (Nat × Cow) := s.cows.find? (fun e => e.2.desc == desc)

/-- A claimed record is suspended: it waits as R389 names it, and its course is stopped or being unbound. -/
def Record.suspended (s : State) (r : Record) : Bool :=
  r.blocked != .none && (match s.course r.owner.course with
    | some co => co.name == r.owner.name && co.cstate != .run
    | none => false)

/-- The records and copies-on-write of a core in flight, of at most 128 (R197, R223); a suspended record does not count (R389). -/
def recordCount (s : State) (core : Nat) : Nat :=
  ((Tab.vals (s.core core).claimed).filter (fun e => !(e.2.suspended s))).length + ((Tab.vals s.cows).filter (fun w => w.core == core)).length

/-- The name under which a write waits for room among a core's records in flight. -/
def cowRoom (core : Nat) : Nat := 2 ^ 60 + core

/-- Steps 1 and 2: the descriptor marked busy and a new one popped, or the fault. -/
def startCow (core ctx ref : Nat) (d : Desc) (s : State) : Except Nat State :=
  let t := tableOf (s.ctx ctx) ref
  match stackTop s ctx t with
  | .error c => .error c
  | .ok 0 => .error cBtNoFree
  | .ok top =>
    match topFree s ctx t top with
    | .error c => .error c
    | .ok idx =>
      match readDesc s ctx t d.mapVa idx with
      | .error c => .error c
      | .ok nd =>
        match firstFault [canWrite s ctx t.freestk 4, canWrite s ctx d.mapVa 4, canWrite s ctx d.va 32, canWrite s ctx nd.va 32] with
        | some c => .error c
        | none =>
          let (id, s1) := (tabWrite ctx t.freestk 4 (top - 1) s).fresh
          let w : Cow := { core := core, ctx := ctx, table := refTable ref, mapVa := d.mapVa, oldIdx := d.idx
                           newIdx := idx, desc := d.key }
          .ok { s1 with cows := Tab.put s1.cows id w }

/-- Every lane of every access stalled on a key is judged afresh (R224, R226). -/
def State.unstall (s : State) (on : Nat) : State :=
  let f := fun (l : LaneAcc) => if l.stage = .stalled on then { l with stage := .issued } else l
  { s with accesses := s.accesses.map (fun e => (e.1, { e.2 with lanes := e.2.lanes.map (fun x => (x.1, f x.2)) })) }

/-- A block's bytes copied from one intermediate address to another of a device, page by page, poison marks carried
(R223, R226, R447). -/
def copyIa (dev : Nat) (s : State) : List (Nat × Nat × Nat) → State
  | [] => s
  | (src, dst, n) :: t =>
    match iaKey s dev src, iaKey s dev dst with
    | some (k, from_), some (k2, slot) =>
      let s1 := (s.writeMem k2 (s.readUnder from_ k n) slot).clearShadow k2 n
      let bad := (linesOf k n).filter (fun l => s.memPoison.contains l)
      let s2 := { s1 with memPoison := bad.foldl (fun acc l => insertSorted (k2 / 128 + (l - k / 128)) acc) s1.memPoison }
      copyIa dev s2 t
    | _, _ => copyIa dev s t

/-- The pieces of a block copy: at most 4 KiB each. -/
def blockPieces (src dst n : Nat) : List (Nat × Nat × Nat) :=
  (List.range ((n + 4095) / 4096)).map (fun i => (src + 4096 * i, dst + 4096 * i, min 4096 (n - 4096 * i)))

/-- Steps 3 to 5: the block copied, the writer's map entry rewritten, both descriptors updated, the mark cleared. -/
def finishCow (w : Cow) (s : State) : State :=
  let t := vget (s.ctx w.ctx).tables {} w.table
  match readDesc s w.ctx t w.mapVa w.oldIdx, readDesc s w.ctx t w.mapVa w.newIdx with
  | .ok d, .ok nd =>
    let s1 := copyIa (s.ctx w.ctx).dev s (blockPieces d.ia nd.ia (2 ^ t.log2bs))
    let s2 := tabWrite w.ctx w.mapVa 4 (2 ^ 31 + w.newIdx) s1
    let s3 := tabWrite w.ctx (nd.va + 8) 2 1 s2
    let s4 := tabWrite w.ctx (nd.va + 10) 1 d.state s3
    let s5 := tabWrite w.ctx (nd.va + 12) 2 d.tag s4
    let s6 := tabWrite w.ctx (nd.va + 16) 4 ((nd.gen + 1) % 2 ^ 32) s5
    tabWrite w.ctx (d.va + 8) 2 (d.count - 1) s6
  | _, _ => s

/-- A copy-on-write whose writes go to a page under migration waits for its flip (R226). -/
def cowHeld (s : State) (w : Cow) : Bool :=
  let t := vget (s.ctx w.ctx).tables {} w.table
  (migratingVa s w.ctx w.mapVa 4).isSome
    || (match readDesc s w.ctx t w.mapVa w.oldIdx, readDesc s w.ctx t w.mapVa w.newIdx with
      | .ok d, .ok nd => (migratingVa s w.ctx d.va 32).isSome || (migratingVa s w.ctx nd.va 32).isSome
          || (migratingOver s (s.ctx w.ctx).dev nd.ia (2 ^ t.log2bs)).isSome
      | _, _ => false)

/-- COW_COPY_COMPLETE (R223). -/
def execCowCopyComplete (id : Nat) (s : State) : Out :=
  match Tab.find s.cows id with
  | none => .next s
  | some w =>
    if cowHeld s w then .next s else
    let s1 := finishCow w s
    .next (({ s1 with cows := Tab.del s1.cows id }.unstall w.desc).unstall (cowRoom w.core))

end Sys2Proof.Machine
end

