-- ==== Sys2Proof/Machine/Egress.lean ====
section
/-! DEFINITION. The requests of a device to others, numbered and translated (R233, R236), and the flits that carry them over
the UALink ports (R228 to R230). -/

namespace Sys2Proof.Machine

/-! ### Devices, ports and links -/

/-- The devices of the package in a mode (R14). -/
def devices (m : Mode) : List Nat :=
  match m with
  | .one => [0]
  | .two => [0, 1]
  | .four => [0, 1, 2, 3]

/-- The device of the package that carries a pod identifier (R16). -/
def State.devOfPod (s : State) (pod : Nat) : Option Nat := (devices s.mode).find? (fun d => (s.dev d).podId.toNat == pod)

def podOf (s : State) (dev : Nat) : Nat := (s.dev dev).podId.toNat

/-- The device a port belongs to (R14). -/
def devOfPort (m : Mode) (port : Nat) : Nat :=
  match m with
  | .one => 0
  | .two => port / 6
  | .four => port / 3

def State.port (s : State) (p : Nat) : Port := vget s.ports {} p
def State.modPort (s : State) (p : Nat) (f : Port → Port) : State := { s with ports := vset s.ports p (f (s.port p)) }

def State.modLink (s : State) (port link : Nat) (f : Link → Link) : State :=
  s.modPort port (fun p => { p with links := vset p.links link (f (vget p.links {} link)) })

def modPeer (dev pod : Nat) (f : Peer → Peer) (s : State) : State :=
  s.modDev dev (fun d => { d with peers := Tab.put d.peers pod (f (Tab.getD d.peers {} pod)) })

/-! ### Flits sent (R228, R229, R230) -/

def upLinks (p : Port) : List Nat := (List.range 4).filter (fun j => (vget p.links {} j).up)

/-- The ports of a device that have a link up. -/
def portsUp (s : State) (dev : Nat) : List Nat :=
  (List.range 12).filter (fun p => devOfPort s.mode p == dev && !(upLinks (s.port p)).isEmpty)

/-- A flit with its port sequence number on the link of the port whose turn it is, with the acknowledgement of what that link has
received, kept until it is acknowledged itself. -/
def putLink (port : Nat) (f : Flit) (s : State) : State :=
  let ups := upLinks (s.port port)
  let j := ups.getD (f.seq % ups.length) 0
  s.modLink port j (fun l => { l with
    next := l.next + 1
    retry := l.retry ++ [{ f with link := j, lseq := l.next, ack := if l.awaited = 0 then none else some (l.awaited - 1) }] })

/-- A flit to another device by one of the ports that are up, or kept until one is (DESIGN CHOICE, notes/assumptions/38.md: the
port is chosen by the target, the links take turns). -/
def sendOne (dev dst : Nat) (body : FlitBody) (s : State) : State :=
  let ps := portsUp s dev
  if ps.isEmpty then s.modDev dev (fun d => { d with egress := d.egress ++ [(dst, body)] })
  else
    let port := ps.getD (dst % ps.length) 0
    putLink port
      { link := 0, seq := (s.port port).next, src := podOf s dev, dst := dst, incarn := (s.dev dev).incarn, kind := body.traffic
        body := body }
      (s.modPort port (fun p => { p with next := p.next + 1 }))

/-- A flit sent, behind the announcement of the device's incarnation where the peer has not had it (R228). -/
def sendFlit (dev dst : Nat) (body : FlitBody) (s : State) : State :=
  if (Tab.getD (s.dev dev).peers {} dst).told then sendOne dev dst body s
  else sendOne dev dst body (sendOne dev dst .join (modPeer dev dst (fun p => { p with told := true }) s))

/-- What waited for a port leaves in order. -/
def flushEgress (dev : Nat) (s : State) : State :=
  (s.dev dev).egress.foldl (fun acc (e : Nat × FlitBody) => sendOne dev e.1 e.2 acc) (s.modDev dev (fun d => { d with egress := [] }))

/-! ### Requests (R233, R236) -/

def kindQuery (k : RemoteKind) : Bool := k == .query

/-- What a Read asks for: the 16-byte units that hold the bytes it is for, 16 to 256 bytes (R228). -/
def readFrom (ia : Nat) : Nat := ia / 16 * 16
def readSize (ia n : Nat) : Nat := (ia + n + 15) / 16 * 16 - readFrom ia

/-- The request as the source's device sends it. -/
def requestOf (s : State) (q : RemoteOut) : RemoteReq :=
  let read := q.kind == .read && !q.swatch
  { src := podOf s q.dev, incarn := (s.dev q.dev).incarn, asid := (s.ctx q.ctx).asid, groups := (s.ctx q.ctx).groups, seq := q.seq
    gen := q.gen.getD 0, kind := q.kind, ia := if read then readFrom q.ia else q.ia
    size := if read then readSize q.ia q.size else q.size, data := q.data, cmp := q.cmp, more := q.more, swatch := q.swatch }

/-- The bytes of a reply that a request is for. -/
def replyVals (q : RemoteOut) (vals : List (List Byte)) : List (List Byte) :=
  if q.kind == .read && !q.swatch then vals.map (fun b => (b.drop (q.ia - readFrom q.ia)).take q.size) else vals

/-- The entry of the pod translation cache for a request. -/
def podEntry (s : State) (q : RemoteOut) : Option PodTlb :=
  (s.dev q.dev).podTlb.find? (fun e => e.ctx == q.ctx && e.pod == q.pod && e.incarn == q.incarn
    && e.page ≤ q.ia / 4096 && q.ia / 4096 < e.page + e.pages)

/-- What a request to another package sends now: itself, once it has its generation; a translation fetch, where the cache has no
entry for it. -/
def sendOut (q : RemoteOut) (s : State) : State :=
  if (s.devOfPod q.pod).isSome then s
  else if q.gen.isSome || kindQuery q.kind then sendFlit q.dev q.pod (.request (requestOf s q)) s
  else if (podEntry s q).isSome then s
  else sendFlit q.dev q.pod (.request { requestOf s q with kind := .fetch }) s

/-- A request numbered in the sequence of its target (R233). -/
def addRequest (q : RemoteOut) (s : State) : State :=
  let peer := Tab.getD (s.dev q.dev).peers {} q.pod
  let (rid, s1) := s.fresh
  let r := { q with seq := peer.seqTo, incarn := peer.incarn, since := s.aon, gen := none }
  let s2 := s1.modDev q.dev (fun d => { d with peers := Tab.put d.peers q.pod { peer with seqTo := peer.seqTo + 1 } })
  sendOut r { s2 with remotes := Tab.put s2.remotes rid r }

end Sys2Proof.Machine
end

