-- ==== Sys2Proof/Machine/Exact.lean ====
section
/-! DEFINITION. Exact numbers, formats and the one rounding of the device (R263 to R284): rational numbers, the extended
values of an operand, decode, round_to, the window, and the check tolerance. -/

namespace Sys2Proof.Machine

/-! ### Exact rational numbers -/

/-- The number num / den; den is never 0. -/
structure Q where
  num : Int
  den : Nat
  deriving DecidableEq, Repr

def Q.ofInt (n : Int) : Q := ⟨n, 1⟩

/-- n * 2^e. -/
def Q.scaled (n : Int) (e : Int) : Q :=
  match e with
  | .ofNat k => ⟨n * 2 ^ k, 1⟩
  | .negSucc k => ⟨n, 2 ^ (k + 1)⟩

/-- The sum, over the larger denominator where one divides the other. -/
def Q.add (a b : Q) : Q :=
  if a.den % b.den = 0 then ⟨a.num + b.num * (a.den / b.den : Nat), a.den⟩
  else if b.den % a.den = 0 then ⟨a.num * (b.den / a.den : Nat) + b.num, b.den⟩
  else ⟨a.num * b.den + b.num * a.den, a.den * b.den⟩

def Q.neg (a : Q) : Q := ⟨-a.num, a.den⟩
def Q.sub (a b : Q) : Q := a.add b.neg
def Q.mul (a b : Q) : Q := ⟨a.num * b.num, a.den * b.den⟩

/-- a / b for a non-zero b. -/
def Q.div (a b : Q) : Q :=
  ⟨a.num * b.den * (if b.num < 0 then -1 else 1), a.den * b.num.natAbs⟩

/-- a * 2^e. -/
def Q.shift (a : Q) (e : Int) : Q := a.mul (Q.scaled 1 e)

def Q.abs (a : Q) : Q := ⟨a.num.natAbs, a.den⟩
def Q.isNeg (a : Q) : Bool := a.num < 0
def Q.isZero (a : Q) : Bool := a.num == 0
def Q.lt (a b : Q) : Bool := a.num * b.den < b.num * a.den
def Q.le (a b : Q) : Bool := a.num * b.den ≤ b.num * a.den
def Q.eqv (a b : Q) : Bool := a.num * b.den == b.num * a.den

/-- floor(log2 |a|) for a non-zero a. -/
def Q.log2 (a : Q) : Int :=
  let n := a.num.natAbs
  let e : Int := (bitLen n : Int) - bitLen a.den
  if (Q.scaled 1 e).le ⟨n, a.den⟩ then e else e - 1

/-- floor(a) of a number that is not negative. -/
def Q.floorNat (a : Q) : Nat := a.num.toNat / a.den

def Q.sum (l : List Q) : Q := l.foldl Q.add ⟨0, 1⟩

/-! ### Operand values -/

/-- The value of an operand: an exact non-zero number, a signed zero, an infinity or a NaN. -/
inductive XV where
  | nan (signalling : Bool)
  | inf (neg : Bool)
  | zero (neg : Bool)
  | fin (q : Q)
  deriving DecidableEq, Repr

def XV.isNan : XV → Bool
  | .nan _ => true
  | _ => false

def XV.isSnan : XV → Bool
  | .nan s => s
  | _ => false

def XV.isZero : XV → Bool
  | .zero _ => true
  | _ => false

def XV.isInf : XV → Bool
  | .inf _ => true
  | _ => false

def XV.isNeg : XV → Bool
  | .nan _ => false
  | .inf n => n
  | .zero n => n
  | .fin q => q.isNeg

/-- A quiet NaN. -/
def XV.qnan : XV := .nan false

/-- The value of a number: zeros of the given sign. -/
def XV.ofQ (zneg : Bool) (q : Q) : XV := if q.isZero then .zero zneg else .fin q

def XV.neg : XV → XV
  | .nan s => .nan s
  | .inf n => .inf (!n)
  | .zero n => .zero (!n)
  | .fin q => .fin q.neg

def XV.abs : XV → XV
  | .nan s => .nan s
  | .inf _ => .inf false
  | .zero _ => .zero false
  | .fin q => .fin q.abs

def XV.toQ : XV → Q
  | .fin q => q
  | _ => ⟨0, 1⟩

/-- The exact sum; an exact zero sum is -0 only under RD, or where both terms are -0 (R307). -/
def XV.add (rd : Bool) (a b : XV) : XV :=
  match a, b with
  | .nan _, _ | _, .nan _ => .qnan
  | .inf x, .inf y => if x = y then .inf x else .qnan
  | .inf x, _ => .inf x
  | _, .inf y => .inf y
  | .zero x, .zero y => if x = y then .zero x else .zero rd
  | .zero _, .fin q => .fin q
  | .fin q, .zero _ => .fin q
  | .fin p, .fin q => XV.ofQ rd (p.add q)

/-- The exact product; 0 times an infinity is NaN. -/
def XV.mul (a b : XV) : XV :=
  match a, b with
  | .nan _, _ | _, .nan _ => .qnan
  | .inf _, .zero _ | .zero _, .inf _ => .qnan
  | .inf _, _ | _, .inf _ => .inf (a.isNeg != b.isNeg)
  | .fin p, .fin q => .fin (p.mul q)
  | _, _ => .zero (a.isNeg != b.isNeg)

/-- The exact quotient, and whether it is a division of a finite number by zero (R307). -/
def XV.quot (a b : XV) : XV × Bool :=
  let s := a.isNeg != b.isNeg
  match a, b with
  | .nan _, _ | _, .nan _ => (.qnan, false)
  | .inf _, .inf _ | .zero _, .zero _ => (.qnan, false)
  | .inf _, _ => (.inf s, false)
  | _, .inf _ => (.zero s, false)
  | .fin _, .zero _ => (.inf s, true)
  | .zero _, .fin _ => (.zero s, false)
  | .fin p, .fin q => (.fin (p.div q), false)

/-- Order of two values that are not NaN, zeros of both signs equal: less, equal, greater as -1, 0, 1. -/
def XV.cmp (a b : XV) : Int :=
  match a, b with
  | .inf x, .inf y => if x = y then 0 else if x then -1 else 1
  | .inf x, _ => if x then -1 else 1
  | _, .inf y => if y then 1 else -1
  | _, _ => if a.toQ.lt b.toQ then -1 else if b.toQ.lt a.toQ then 1 else 0

/-! ### Square roots -/

/-- floor of the square root, digit by digit: fuel is the number of binary digits of the root. -/
def isqrtGo : Nat → Nat → Nat → Nat
  | 0, _, r => r
  | k + 1, x, r =>
    let r' := r + 2 ^ k
    if r' * r' ≤ x then isqrtGo k x r' else isqrtGo k x r

def isqrt (x : Nat) : Nat := isqrtGo (bitLen x / 2 + 1) x 0

/-- The square root of a positive number: exact where it is rational with a small denominator, else its first 140 or more
binary digits with a half digit added (the sticky digit), which rounds as the exact value does in every format of 24 or
fewer digits. -/
def Q.sqrt (a : Q) : Q :=
  -- sqrt(n/d) = sqrt(n*d)/d
  let m := a.num.toNat * a.den
  let k := 160
  let x := m * 2 ^ (2 * k)
  let r := isqrt x
  if r * r = x then ⟨r, a.den * 2 ^ k⟩ else ⟨2 * r + 1, a.den * 2 ^ (k + 1)⟩

/-! ### Formats -/

inductive Policy where
  | ieee | fn | none
  deriving DecidableEq, Repr

/-- A format a value can be decoded from or rounded to. -/
inductive Fmt where
  /-- KIND 0 (R266): sign width, exponent width, mantissa width, bias, policy -/
  | narrow (s e m : Nat) (bias : Int) (pol : Policy)
  /-- KIND 1: two's complement of m + 1 bits, times 2^-bias -/
  | twos (m : Nat) (bias : Int)
  /-- the IEEE 754 layouts of R263: exponent width and fraction width -/
  | ieee (e m : Nat)
  /-- the integer elements of R265 -/
  | int (signed : Bool) (width : Nat)
  deriving DecidableEq, Repr

def Fmt.f32 : Fmt := .ieee 8 23
def Fmt.f16 : Fmt := .ieee 5 10
def Fmt.bf16 : Fmt := .ieee 8 7
def Fmt.f64 : Fmt := .ieee 11 52

def Fmt.width : Fmt → Nat
  | .narrow s e m _ _ => s + e + m
  | .twos m _ => m + 1
  | .ieee e m => 1 + e + m
  | .int _ w => w

/-- Sign, exponent and mantissa widths, bias and policy of a floating format. -/
def Fmt.parts : Fmt → Nat × Nat × Nat × Int × Policy
  | .narrow s e m b p => (s, e, m, b, p)
  | .ieee e m => (1, e, m, 2 ^ (e - 1) - 1, .ieee)
  | .twos m b => (1, 0, m, b, .none)
  | .int sg w => (if sg then 1 else 0, 0, w, 0, .none)

/-- emin of R274: 1 - BIAS. -/
def Fmt.emin (f : Fmt) : Int := 1 - f.parts.2.2.2.1

/-- P of R274. -/
def Fmt.prec (f : Fmt) : Nat := f.parts.2.2.1

/-- R266, R263: the value of a code. -/
def decodeF (f : Fmt) (x : Nat) : XV :=
  match f with
  | .twos m bias => XV.ofQ false (Q.scaled (sgn (m + 1) x) (-bias))
  | .int sg w => XV.ofQ false (Q.ofInt (if sg then sgn w x else (x % 2 ^ w : Nat)))
  | .narrow .. | .ieee .. =>
    let (sw, ew, mw, bias, pol) := f.parts
    let s := sw == 1 && bitOf x (ew + mw)
    let e := bitsOf x mw ew
    let m := bitsOf x 0 mw
    let sg : Int := if s then -1 else 1
    if ew = 0 then XV.ofQ s (Q.scaled (sg * m) (-bias))
    else if pol = .ieee ∧ e = 2 ^ ew - 1 then
      if m = 0 then .inf s else .nan (!(bitOf m (mw - 1)))
    else if pol = .fn ∧ e = 2 ^ ew - 1 ∧ m = 2 ^ mw - 1 then .nan false
    else if e = 0 then XV.ofQ s (Q.scaled (sg * m) (1 - bias - mw))
    else .fin (Q.scaled (sg * (2 ^ mw + m : Nat)) ((e : Int) - bias - mw))

/-- The code of the largest finite magnitude, without its sign (R267). -/
def Fmt.maxCode : Fmt → Nat
  | .twos m _ => 2 ^ m - 1
  | .int sg w => if sg then 2 ^ (w - 1) - 1 else 2 ^ w - 1
  | f =>
    let (_, ew, mw, _, pol) := f.parts
    if ew = 0 then 2 ^ mw - 1
    else match pol with
      | .ieee => (2 ^ ew - 2) * 2 ^ mw + (2 ^ mw - 1)
      | .fn => 2 ^ (ew + mw) - 2
      | .none => 2 ^ (ew + mw) - 1

/-- max(f) of R267 as a number. -/
def Fmt.maxQ (f : Fmt) : Q := (decodeF f f.maxCode).toQ

def Fmt.signBit (f : Fmt) (neg : Bool) : Nat :=
  let (sw, ew, mw, _, _) := f.parts
  if neg && sw == 1 then 2 ^ (ew + mw) else 0

/-- The default NaN of the format: R263 and R276. -/
def Fmt.nanCode (f : Fmt) : Nat :=
  let (_, ew, mw, _, pol) := f.parts
  match pol with
  | .fn => 2 ^ (ew + mw) - 1
  | _ => (2 ^ ew - 1) * 2 ^ mw + 2 ^ (mw - 1)

def Fmt.infCode (f : Fmt) (neg : Bool) : Nat :=
  let (_, ew, mw, _, _) := f.parts
  (2 ^ ew - 1) * 2 ^ mw + f.signBit neg

/-! ### Flags (R277) -/

/-- The conditions of FPFLAGS. -/
abbrev FpFlags := BitVec 6
def flInvalid : FpFlags := 1#6
def flDivZero : FpFlags := 2#6
def flOverflow : FpFlags := 4#6
def flUnderflow : FpFlags := 8#6
def flInexact : FpFlags := 16#6
def flBadsc : FpFlags := 32#6

/-! ### Rounding -/

/-- One step of the stochastic-rounding register (R275). -/
def lfsrStep (seed : Word) : Word :=
  let x := seed >>> 1
  if seed.getLsbD 0 then x ^^^ 0x80200003#32 else x

/-- The columns of R276. -/
inductive Column where
  | ieee | fn | none | integer
  deriving DecidableEq, Repr

def Fmt.column : Fmt → Column
  | .ieee .. => .ieee
  | .twos .. | .int .. => .integer
  | .narrow _ e _ _ p => if e = 0 then .none else match p with
    | .ieee => .ieee
    | .fn => .fn
    | .none => .none

/-- The format has no sign: S = 0 or an unsigned type. -/
def Fmt.unsigned (f : Fmt) : Bool := f.parts.1 == 0

/-- The exponent of the quantum (R274): quantum(f, a) = 2^quantumExp. -/
def quantumExp (f : Fmt) (a : Q) : Int :=
  match f with
  | .twos _ b => -b
  | .int .. => 0
  | _ =>
    let (_, ew, mw, b, _) := f.parts
    if ew = 0 then -b else max a.log2 (1 - b) - mw

/-- The least and the greatest number of quanta of an integer column. -/
def Fmt.intRange : Fmt → Int × Int
  | .twos m _ => (-(2 ^ m), 2 ^ m - 1)
  | .int true w => (-(2 ^ (w - 1)), 2 ^ (w - 1) - 1)
  | .int false w => (0, 2 ^ w - 1)
  | _ => (0, 0)

/-- The code of a magnitude n * 2^qe of a floating or fixed-point format, without its sign. -/
def magCode (f : Fmt) (n : Nat) (qe : Int) : Nat :=
  let (_, ew, mw, b, _) := f.parts
  if n = 0 then 0
  else if ew = 0 then (Q.scaled n (qe + b)).floorNat
  else
    let ex : Int := (bitLen n : Int) - 1 + qe
    if ex < 1 - b then (Q.scaled n (qe - (1 - b - mw))).floorNat
    else (ex + b - 1).toNat * 2 ^ mw + (Q.scaled n (qe + mw - ex)).floorNat

/-- special_in of R276. -/
def specialIn (x : XV) (f : Fmt) (sat : Bool) : Nat × FpFlags :=
  match x with
  | .inf s =>
    match f.column with
    | .integer => (wrap f.width (if s then f.intRange.1 else f.intRange.2), flInvalid)
    | c =>
      if s && f.unsigned then (0, flInvalid)
      else match c with
        | .ieee => (if sat then f.maxCode + f.signBit s else f.infCode s, 0#6)
        | .fn => if sat then (f.maxCode + f.signBit s, 0#6) else (f.nanCode, flInvalid)
        | _ => (f.maxCode + f.signBit s, flOverflow)
  | _ =>
    match f.column with
    | .integer => (0, flInvalid)
    | .none => (f.maxCode, flInvalid)
    | _ => (f.nanCode, if x.isSnan then flInvalid else 0#6)

/-- zero_out of R276. -/
def zeroOut (f : Fmt) (neg : Bool) : Nat × FpFlags :=
  match f.column with
  | .integer => (0, 0#6)
  | _ => (f.signBit neg, 0#6)

/-- range_out of R276 for n quanta of 2^qe; what leaves the range of an integer or a missing sign raises invalid beside the inexact
flag that it was rounded with (R277); one is set for FRND, which never underflows (R310). -/
def rangeOut (f : Fmt) (rnd : Nat) (sat : Bool) (one : Bool) (neg : Bool) (n : Nat) (qe : Int) (fl : FpFlags) :
    Nat × FpFlags :=
  match f.column with
  | .integer =>
    let v : Int := if neg then -(n : Int) else n
    if v < f.intRange.1 then (wrap f.width f.intRange.1, fl ||| flInvalid)
    else if f.intRange.2 < v then (wrap f.width f.intRange.2, fl ||| flInvalid)
    else (wrap f.width v, fl)
  | c =>
    if neg && f.unsigned then if n = 0 then (0, fl) else (0, fl ||| flInvalid)
    else
      let code := magCode f n qe
      if f.maxCode < code then
        let toMax := sat || c == .none || (c == .ieee && (rnd == 1 || (rnd == 2 && !neg) || (rnd == 3 && neg)))
        let code' := if toMax then f.maxCode + f.signBit neg else if c == .fn then f.nanCode else f.infCode neg
        (code', flOverflow ||| flInexact)
      else
        let under := fl == flInexact && n != 0 && !one && f.parts.2.1 != 0 && code < 2 ^ f.parts.2.2.1
        (code + f.signBit neg, if under then fl ||| flUnderflow else fl)

/-- Whether round_to takes the larger neighbour (R274): rem / d is the fraction, u the 24 bits of SEED. -/
def roundUp (rnd : Nat) (neg : Bool) (n rem d : Nat) (u : Nat) : Bool :=
  match rnd with
  | 0 => d < 2 * rem || (2 * rem == d && n % 2 == 1)
  | 2 => rem != 0 && neg
  | 3 => rem != 0 && !neg
  | 4 => d ≤ 2 * rem
  | 5 => u * d < rem * 2 ^ 24
  | _ => false

/-- The rounding of a non-zero number to quanta of 2^qe. -/
def roundAt (q : Q) (f : Fmt) (rnd : Nat) (sat : Bool) (u : Nat) (one : Bool) (qe : Int) : Nat × FpFlags :=
  let m := (q.abs).shift (-qe)
  let n := m.num.toNat / m.den
  let rem := m.num.toNat % m.den
  let n' := if roundUp rnd q.isNeg n rem m.den u then n + 1 else n
  rangeOut f rnd sat one q.isNeg n' qe (if rem = 0 then 0#6 else flInexact)

/-- round_to of R274; u is bits [31:8] of the stepped SEED, read only under SR. -/
def roundTo (x : XV) (f : Fmt) (rnd : Nat) (sat : Bool) (u : Nat) : Nat × FpFlags :=
  match x with
  | .zero n => zeroOut f n
  | .fin q => roundAt q f rnd sat u false (quantumExp f q)
  | _ => specialIn x f sat

/-- FRND's rounding: a quantum of 1 (R310). -/
def roundOne (x : XV) (f : Fmt) (rnd : Nat) (u : Nat) : Nat × FpFlags :=
  match x with
  | .zero n => zeroOut f n
  | .fin q => roundAt q f rnd false u true 0
  | _ => specialIn x f false

/-- A rounding with the SEED register threaded: one step under SR, whatever the value (R275). -/
def roundSeed (seed : Word) (x : XV) (f : Fmt) (rnd : Nat) (sat : Bool) : Nat × FpFlags × Word :=
  let seed' := if rnd = 5 then lfsrStep seed else seed
  let r := roundTo x f rnd sat (seed' >>> 8).toNat
  (r.1, r.2, seed')

/-! ### Block scales (R270) -/

inductive ScaleF where
  | none | ue4m3 | ue8m0
  deriving DecidableEq, Repr

/-- The value of a scale byte; none for an invalid code. -/
def scaleValue (f : ScaleF) (b : Nat) : Option Q :=
  match f with
  | .none => some ⟨1, 1⟩
  | .ue4m3 =>
    if b ≥ 128 || b == 0x7F then none
    else
      let e := b / 8
      let m := b % 8
      some (if e = 0 then Q.scaled m (-9) else Q.scaled (8 + m : Nat) ((e : Int) - 10))
  | .ue8m0 => if b = 255 then none else some (Q.scaled 1 ((b : Int) - 127))

/-! ### Format descriptors (R268, R272) -/

def fdKind (d : DWord) : Nat := bitsOf d.toNat 0 4
def fdS (d : DWord) : Nat := bitsOf d.toNat 4 1
def fdE (d : DWord) : Nat := bitsOf d.toNat 5 3
def fdM (d : DWord) : Nat := bitsOf d.toNat 8 3
def fdBias (d : DWord) : Int := sgn 8 (bitsOf d.toNat 12 8)
def fdPolicyCode (d : DWord) : Nat := bitsOf d.toNat 20 2
def fdScaleCode (d : DWord) : Nat := bitsOf d.toNat 22 2
def fdBlkCode (d : DWord) : Nat := bitsOf d.toNat 24 3
def fdFallback (d : DWord) : Nat := bitsOf d.toNat 28 5
def fdFbValid (d : DWord) : Bool := bitOf d.toNat 33
def fdEsc (d : DWord) : Bool := bitOf d.toNat 34
def fdBvalid (d : DWord) : Bool := bitOf d.toNat 35
def fdBound (d : DWord) : Nat := bitsOf d.toNat 36 6

def fdPolicy (d : DWord) : Policy :=
  match fdPolicyCode d with
  | 0 => .ieee
  | 1 => .fn
  | _ => .none

def fdScale (d : DWord) : ScaleF :=
  match fdScaleCode d with
  | 1 => .ue4m3
  | 2 => .ue8m0
  | _ => .none

/-- Block length; 0 for none. -/
def fdBlk (d : DWord) : Nat :=
  match fdBlkCode d with
  | 1 => 8
  | 2 => 16
  | 3 => 32
  | 4 => 64
  | _ => 0

/-- The element format of a descriptor. -/
def fdFmt (d : DWord) : Fmt :=
  match fdKind d with
  | 0 => .narrow (fdS d) (fdE d) (fdM d) (fdBias d) (fdPolicy d)
  | 1 => .twos (fdM d) (fdBias d)
  | 2 => .f16
  | 3 => .bf16
  | _ => .f32

/-- R268. -/
def fdValid (d : DWord) : Bool :=
  let k := fdKind d
  let pol := fdPolicyCode d
  let e := fdE d
  let m := fdM d
  k < 5
  && (k < 2 || (bitsOf d.toNat 4 7 == 0 && bitsOf d.toNat 12 10 == 0))
  && (k != 1 || (fdS d == 1 && e == 0 && m ≥ 1 && pol == 2))
  && (k != 0 || (fdS d + e + m ≤ 8 && e + m ≥ 1
      && (pol != 0 || (e ≥ 2 && m ≥ 1)) && (pol != 1 || (e ≥ 1 && e + m ≥ 2)) && (e != 0 || pol == 2)))
  && (fdScaleCode d == 0) == (fdBlkCode d == 0)
  && pol < 3 && fdScaleCode d < 3 && fdBlkCode d < 5
  && bitsOf d.toNat 42 22 == 0 && !(bitOf d.toNat 27) && !(bitOf d.toNat 11)

/-! ### The windowed dot product (R279 to R281) -/

/-- The window widths of R281; 0 for the reserved code. -/
def windowBits (c : Nat) : Nat := if c < 7 then 32 + 16 * c else 0

/-- zero_of of R279. -/
def zeroOf (f : Fmt) (x : Nat) : XV :=
  match decodeF f x with
  | .nan _ => .zero false
  | _ =>
    let (sw, ew, mw, _, _) := f.parts
    match f with
    | .twos m _ => .zero (bitOf x m)
    | _ => .zero (sw == 1 && bitOf x (ew + mw))

/-- One scaled element: its value, or none where its scale is invalid (R270, R271). -/
def scaledElem (f : Fmt) (sf : ScaleF) (x sb : Nat) : Option XV :=
  match scaleValue sf sb with
  | none => none
  | some q => if q.isZero then some (zeroOf f x) else some ((decodeF f x).mul (.fin q))

/-- exact_product of R279, with its badsc mark. -/
def exactProduct (a b : Option XV) : XV × Bool :=
  match a, b with
  | some x, some y => (x.mul y, false)
  | _, _ => (.qnan, true)

/-- The aligned terms of window_dot: the sum in units of half the window's lowest bit, and whether a bit was lost. -/
def windowSum (ge : Int) : List XV → Int × Bool
  | [] => (0, false)
  | .fin q :: t =>
    let r := windowSum ge t
    let m := q.abs.shift (-ge)
    let k := m.num.toNat / m.den
    let lost := m.num.toNat % m.den != 0
    let u : Int := 2 * k + (if lost then 1 else 0)
    (r.1 + (if q.isNeg then -u else u), r.2 || lost)
  | _ :: t => windowSum ge t

def maxLog2 : List XV → Option Int
  | [] => none
  | .fin q :: t =>
    match maxLog2 t with
    | some e => some (max q.log2 e)
    | none => some q.log2
  | _ :: t => maxLog2 t

/-- window_dot of R279: the value and the lost-significance mark. -/
def windowDot (t : List XV) (W : Nat) : XV × Bool :=
  let pinf := t.contains (.inf false)
  let ninf := t.contains (.inf true)
  if t.any XV.isNan || (pinf && ninf) then (.qnan, false)
  else if pinf then (.inf false, false)
  else if ninf then (.inf true, false)
  else match maxLog2 t with
    | none => (.zero (t.all XV.isNeg), false)
    | some emax =>
      let ge := emax - W + 1
      let r := windowSum ge t
      (XV.ofQ false (Q.scaled r.1 (ge - 1)), r.2)

/-- round_once of R280. -/
def roundOnce (v : XV) (acc : Fmt) : Nat × FpFlags := roundTo v acc 0 false 0

/-- ulpexp of R283. -/
def ulpexp (acc : Fmt) (x : XV) : Int :=
  match x with
  | .fin q => max q.log2 acc.emin
  | _ => acc.emin

end Sys2Proof.Machine
end

