-- ==== Sys2Proof/Machine/Approx.lean ====
section
/-! DEFINITION. The functions of FEXP2, FLOG2, FSIN, FCOS, FTANH and FSIGM (R311) as rational approximations in fixed point
of fixBits binary digits. The architecture defines each result as the correctly rounded exact value; the approximations
are meant to differ from the exact values by far less than the distance to any rounding boundary that a binary32
operand can meet (notes/assumptions/9.md, UNVERIFIED). -/

namespace Sys2Proof.Machine

/-- Binary digits after the point. -/
def fixBits : Nat := 768

/-- floor(pi * 2^fixBits). -/
def piFix : Nat := 0x3243f6a8885a308d313198a2e03707344a4093822299f31d0082efa98ec4e6c89452821e638d01377be5466cf34e90c6cc0ac29b7c97c50dd3f84d5b5b54709179216d5d98979fb1bd1310ba698dfb5ac2ffd72dbd01adfb7b8e1afed6a267e96

/-- floor(ln 2 * 2^fixBits). -/
def ln2Fix : Nat := 0xb17217f7d1cf79abc9e3b39803f2f6af40f343267298b62d8a0d175b8baafa2be7b876206debac98559552fb4afa1b10ed2eae35c138214427573b291169b8253e96ca16224ae8c51acbda11317c387eb9ea9bc3b136603b256fa0ec7657f74b

/-- The fixed-point value of a rational number, rounded down. -/
def toFix (q : Q) : Int := q.num * 2 ^ fixBits / (q.den : Int)

def fixMul (a b : Int) : Int := a * b / 2 ^ fixBits

/-- Terms of an exponential series: term k is term k-1 times y over k. -/
def expSeries : Nat → Nat → Int → Int → Int → Int
  | 0, _, _, _, acc => acc
  | n + 1, k, y, t, acc =>
    let t' := fixMul t y / (k : Int)
    expSeries n (k + 1) y t' (acc + t')

/-- e^y in fixed point, for 0 <= y < 1. -/
def expFix (y : Int) : Int := expSeries 170 1 y (2 ^ fixBits) (2 ^ fixBits)

/-- 2^x: its integer exponent and its fixed-point factor in [1, 2). -/
def exp2Parts (x : Q) : Int × Int :=
  let f := toFix x
  let i := f / 2 ^ fixBits
  (i, expFix (fixMul (f - i * 2 ^ fixBits) ln2Fix))

/-- e^x as integer exponent and factor: 2^(x / ln 2). -/
def expParts (x : Q) : Int × Int :=
  let f := toFix x * 2 ^ fixBits / (ln2Fix : Int)
  let i := f / 2 ^ fixBits
  (i, expFix (fixMul (f - i * 2 ^ fixBits) ln2Fix))

/-- The terms z^(2k+1)/(2k+1) of the inverse hyperbolic tangent. -/
def atanhSeries : Nat → Nat → Int → Int → Int → Int
  | 0, _, _, _, acc => acc
  | n + 1, k, z2, p, acc =>
    let p' := fixMul p z2
    atanhSeries n (k + 2) z2 p' (acc + p' / (k : Int))

/-- log2 of a positive number: its exponent and ln of its factor over ln 2. -/
def log2Q (x : Q) : Q :=
  let e := x.log2
  let m := toFix (x.shift (-e))
  let one : Int := 2 ^ fixBits
  let z := (m - one) * one / (m + one)
  let ln := 2 * atanhSeries 250 3 (fixMul z z) z z
  ⟨e * one + ln * one / (ln2Fix : Int), 2 ^ fixBits⟩

/-- Terms of sine (n = 1) and cosine (n = 0): each is the last times -r^2 over (n+1)(n+2). -/
def trigSeries : Nat → Nat → Int → Int → Int → Int
  | 0, _, _, _, acc => acc
  | k + 1, n, r2, t, acc =>
    let t' := -(fixMul t r2 / (((n + 1) * (n + 2) : Nat) : Int))
    trigSeries k (n + 2) r2 t' (acc + t')

/-- The argument reduced to [-pi, pi]. -/
def trigReduce (x : Q) : Int :=
  let f := toFix x
  let p : Int := piFix
  let k := (f + p) / (2 * p)
  f - k * (2 * p)

def sinQ (x : Q) : Q :=
  let r := trigReduce x
  ⟨trigSeries 100 1 (fixMul r r) r r, 2 ^ fixBits⟩

def cosQ (x : Q) : Q :=
  let r := trigReduce x
  ⟨trigSeries 100 0 (fixMul r r) (2 ^ fixBits) (2 ^ fixBits), 2 ^ fixBits⟩

/-- The number factor * 2^e of the pairs above. -/
def partsQ (p : Int × Int) : Q := Q.scaled p.2 (p.1 - fixBits)

/-- 2^x; outside +-2000 the result only has to lie beyond every format. -/
def exp2Q (x : Q) : Q :=
  if (Q.ofInt 2000).lt x.abs then Q.scaled 1 (if x.isNeg then -3000 else 3000) else partsQ (exp2Parts x)

/-- A number just below 1. -/
def belowOne : Q := ⟨2 ^ 600 - 1, 2 ^ 600⟩

def tanhQ (x : Q) : Q :=
  let a := x.abs
  let v :=
    if (Q.ofInt 200).lt a then belowOne
    else
      let e := partsQ (expParts (a.add a))
      (e.sub ⟨1, 1⟩).div (e.add ⟨1, 1⟩)
  if x.isNeg then v.neg else v

def sigmQ (x : Q) : Q :=
  if (Q.ofInt 2000).lt x.abs then (if x.isNeg then Q.scaled 1 (-3000) else belowOne)
  else
    let e := partsQ (expParts x)
    e.div (e.add ⟨1, 1⟩)

end Sys2Proof.Machine
end

