-- ==== Sys2Proof/Machine/Alu.lean ====
section
/-! DEFINITION. The results of the 0x001, 0x040 and 0x080 groups (R286 to R330) as functions of operand values alone: one
lane of an integer or floating-point instruction, and all lanes of a conversion or cross-lane instruction. -/

namespace Sys2Proof.Machine

/-! ### Elements (R74) -/

/-- Width of one element of a TYPE. -/
def elemWidth (ty : Nat) : Nat :=
  if wideTy ty then 64 else if ty == 6 || ty == 7 then 8
  else if ty == 4 || ty == 5 || (9 ≤ ty && ty ≤ 12) then 16 else 32

/-- The format of one element of a TYPE. -/
def elemFmt (ty : Nat) : Fmt :=
  if ty < 8 then .int (ty % 2 == 0) (elemWidth ty)
  else if ty == 8 then .f32
  else if ty == 9 || ty == 11 then .f16
  else if ty == 13 then .f64
  else .bf16

/-- Elements of a value, element 0 lowest. -/
def elemsOf (w n x : Nat) : List Nat := (List.range n).map (fun k => bitsOf x (w * k) w)

def joinElems (w : Nat) : List Nat → Nat
  | [] => 0
  | e :: t => e % 2 ^ w + 2 ^ w * joinElems w t

/-! ### The result of one lane -/

/-- What an arithmetic instruction computes in one lane: the value (low word in the low half), the predicate bit of
PDST, the FPFLAGS conditions, and SEED after the lane's roundings. -/
structure LaneRes where
  val  : Nat
  pd   : Bool
  fl   : FpFlags
  seed : Word
  deriving DecidableEq, Repr

/-- The inputs of a lane: sources at their widths and the lane's predicates p0 to p7. -/
structure LaneIn where
  a : Nat
  b : Nat
  c : Nat
  p : Nat
  deriving DecidableEq, Repr

/-! ### Integers (R294 to R302) -/

/-- Clamp to the element (R265). -/
def clampInt (sg : Bool) (w : Nat) (x : Int) : Int :=
  let lo : Int := if sg then -(2 ^ (w - 1)) else 0
  let hi : Int := if sg then 2 ^ (w - 1) - 1 else 2 ^ w - 1
  max lo (min hi x)

def fitInt (sg sat : Bool) (w : Nat) (x : Int) : Nat := wrap w (if sat then clampInt sg w x else x)

/-- The integer an element stands for. -/
def elemInt (sg : Bool) (w x : Nat) : Int := if sg then sgn w x else (x % 2 ^ w : Nat)

def popCount (w x : Nat) : Nat := ((List.range w).filter (bitOf x)).length

def revBits (w x : Nat) : Nat := ((List.range w).foldl (fun acc i => 2 * acc + (if bitOf x i then 1 else 0)) 0)

/-- DIV of R296. -/
def divInt (sg : Bool) (w : Nat) (a b : Int) : Int :=
  if b = 0 then
    if sg then (if 0 ≤ a then 2 ^ (w - 1) - 1 else -(2 ^ (w - 1))) else 2 ^ w - 1
  else Int.tdiv a b

/-- The exact integer of one element (R294): x, y, z are the element's bits. -/
def intExact (op : AOp) (sg : Bool) (w : Nat) (x y z : Nat) : Int :=
  let a := elemInt sg w x
  let b := elemInt sg w y
  let c := elemInt sg w z
  let n := y % w
  match op with
  | .add => a + b
  | .sub => a - b
  | .mul => a * b
  | .mulhi => a * b / 2 ^ w
  | .mad => a * b + c
  | .div => divInt sg w a b
  | .rem => if b = 0 then a else Int.tmod a b
  | .min => if a ≤ b then a else b
  | .max => if a ≤ b then b else a
  | .abs => a.natAbs
  | .neg => -a
  | .and => (x &&& y : Nat)
  | .or => (x ||| y : Nat)
  | .xor => (x ^^^ y : Nat)
  | .andn => (x &&& (2 ^ w - 1 - y) : Nat)
  | .not => (2 ^ w - 1 - x : Nat)
  | .shl => a * 2 ^ n
  | .shr => (x / 2 ^ n : Nat)
  | .sar => sgn w x / 2 ^ n
  | .rotl => (x * 2 ^ n + x / 2 ^ (w - n) : Nat)
  | .clz => (w - bitLen x : Nat)
  | .popc => (popCount w x : Nat)
  | .brev => (revBits w x : Nat)
  | .sel => if z = 0 then y else x
  | _ => x

/-- The conditions of ISET and FSET: codes 0 to 5 on a comparison of -1, 0 or 1. -/
def condHolds (code : Nat) (c : Int) : Bool :=
  match code with
  | 0 => c == 0
  | 1 => c != 0
  | 2 => c < 0
  | 3 => c ≤ 0
  | 4 => 0 < c
  | _ => 0 ≤ c

def cmpInt (a b : Int) : Int := if a < b then -1 else if a = b then 0 else 1

/-- BFX of R298. -/
def bfx (sg : Bool) (w a b : Nat) : Nat :=
  let pos := bitsOf b 0 8
  let len := bitsOf b 8 8
  if len = 0 then 0
  else if sg then wrap w (sgn len (wrap len (sgn w a / 2 ^ pos)))
  else bitsOf a pos len % 2 ^ w

/-- BFI of R298. -/
def bfi (w a b c : Nat) : Nat :=
  let pos := bitsOf c 0 8
  let len := bitsOf c 8 8
  let m := (2 ^ len - 1) * 2 ^ pos % 2 ^ w
  let ins := (b % 2 ^ len) * 2 ^ pos % 2 ^ w
  (a % 2 ^ w - (a % 2 ^ w &&& m)) + ins

/-- One byte of BPERM (R302). -/
def bpermByte (ab sel : Nat) : Nat :=
  let x := bitsOf ab (8 * (sel % 8)) 8
  if sel ≥ 8 then (if x ≥ 128 then 255 else 0) else x

/-- The predicate a two-operand result writes by default (R289). -/
def plain (seed : Word) (v : Nat) : LaneRes := ⟨v, v != 0, 0#6, seed⟩

/-- One lane of an integer or logic instruction (R294 to R305). -/
def intLane (op : AOp) (w : FWord) (seed : Word) (i : LaneIn) : LaneRes :=
  let ty := w.ty
  let sg := tySgn ty
  let wd := elemWidth ty
  let n := tyElems ty
  let ea := elemsOf wd n i.a
  let eb := elemsOf wd n i.b
  let ec := elemsOf wd n i.c
  match op with
  | .madw => plain seed (fitInt sg w.sat 64 (elemInt sg 32 i.a * elemInt sg 32 i.b + elemInt sg 64 i.c))
  | .bfx => plain seed (bfx sg wd i.a i.b)
  | .bfi => plain seed (bfi wd i.a i.b i.c)
  | .iset =>
    let r := List.zipWith (fun x y => condHolds w.opx (cmpInt (elemInt sg wd x) (elemInt sg wd y))) ea eb
    { val := joinElems wd (r.map (fun h => if h then 2 ^ wd - 1 else 0)), pd := r.all id, fl := 0#6, seed := seed }
  | .lea => plain seed (wrap wd ((i.a : Int) + sgn 32 i.b * 2 ^ w.opx))
  | .addc =>
    let cin := if w.opx ≥ 8 && bitOf i.p (w.opx % 8) then 1 else 0
    let t := i.a % 2 ^ wd + i.b % 2 ^ wd + cin
    { val := t % 2 ^ wd, pd := 2 ^ wd ≤ t, fl := 0#6, seed := seed }
  | .subb =>
    let cin := if w.opx ≥ 8 && bitOf i.p (w.opx % 8) then 1 else 0
    let t : Int := (i.a % 2 ^ wd : Nat) - (i.b % 2 ^ wd : Nat) - (cin : Nat)
    { val := wrap wd t, pd := t < 0, fl := 0#6, seed := seed }
  | .dup => plain seed (joinElems wd (List.replicate n (bitsOf i.a (wd * w.opx) wd)))
  | .plop =>
    let k := 2 * bitsOf i.p (w.fld 12 3) 1 + bitsOf i.p (w.fld 9 3) 1
    plain seed (bitsOf w.opx k 1)
  | .pmov => plain seed (if w.opx = 0 then i.p % 256 else i.a % 128)
  | .sad =>
    let d := (List.zipWith (fun x y => (elemInt sg wd x - elemInt sg wd y).natAbs) ea eb).sum
    plain seed (fitInt false w.sat 32 ((i.c + d : Nat) : Int))
  | .dot4 =>
    let d := (List.zipWith (fun x y => elemInt sg wd x * elemInt sg wd y) ea eb).sum
    plain seed (fitInt sg w.sat 32 (elemInt sg 32 i.c + d))
  | .bperm =>
    let ab := i.a + 2 ^ 32 * i.b
    plain seed (joinElems 8 ((elemsOf 4 4 i.c).map (bpermByte ab)))
  | _ =>
    let r := List.zipWith (fun x (yz : Nat × Nat) => fitInt sg w.sat wd (intExact op sg wd x yz.1 yz.2)) ea (eb.zip ec)
    plain seed (joinElems wd r)

/-! ### Floating point (R306 to R315) -/

def snanFlag (l : List XV) : FpFlags := if l.any XV.isSnan then flInvalid else 0#6

/-- invalid when a NaN comes from operands that are not NaN (R277). -/
def newNan (l : List XV) (r : XV) : FpFlags := if r.isNan && !(l.any XV.isNan) then flInvalid else 0#6

/-- FMIN (big false) and FMAX of two codes (R308). -/
def minMaxCode (f : Fmt) (big : Bool) (x y : Nat) : Nat :=
  let a := decodeF f x
  let b := decodeF f y
  if a.isNan then (if b.isNan then f.nanCode else y)
  else if b.isNan then x
  else
    let c0 := a.cmp b
    let c := if c0 = 0 then cmpInt (if a.isNeg then 0 else 1) (if b.isNeg then 0 else 1) else c0
    if big then (if 0 ≤ c then x else y) else (if c ≤ 0 then x else y)

/-- The special operands of the approximated functions (R312), and their values: the value, its flags, and whether it is
exact. -/
def approxValue (op : AOp) (a : XV) : XV × FpFlags × Bool :=
  let one : XV := .fin ⟨1, 1⟩
  match a with
  | .nan _ => (.qnan, 0#6, true)
  | .inf neg =>
    match op with
    | .frcp => (.zero neg, 0#6, true)
    | .frsq => if neg then (.qnan, flInvalid, true) else (.zero false, 0#6, true)
    | .fexp2 => if neg then (.zero false, 0#6, true) else (.inf false, 0#6, true)
    | .flog2 => if neg then (.qnan, flInvalid, true) else (.inf false, 0#6, true)
    | .ftanh => (if neg then .fin ⟨-1, 1⟩ else one, 0#6, true)
    | .fsigm => (if neg then .zero false else one, 0#6, true)
    | _ => (.qnan, flInvalid, true)
  | .zero neg =>
    match op with
    | .frcp | .frsq => (.inf neg, flDivZero, true)
    | .flog2 => (.inf true, flDivZero, true)
    | .fexp2 | .fcos => (one, 0#6, true)
    | .fsigm => (.fin ⟨1, 2⟩, 0#6, true)
    | _ => (.zero neg, 0#6, true)
  | .fin q =>
    match op with
    | .frcp => (.fin ((Q.ofInt 1).div q), 0#6, true)
    | .frsq => if q.isNeg then (.qnan, flInvalid, true) else (.fin ((Q.ofInt 1).div q).sqrt, 0#6, true)
    | .fexp2 =>
      if q.num.natAbs % q.den = 0 then
        (.fin (Q.scaled 1 (max (-3000) (min 3000 (q.num / (q.den : Int))))), 0#6, true)
      else (.fin (exp2Q q), 0#6, false)
    | .flog2 =>
      if q.isNeg then (.qnan, flInvalid, true)
      else if (Q.scaled 1 q.log2).eqv q then (XV.ofQ false (Q.ofInt q.log2), 0#6, true)
      else (.fin (log2Q q), 0#6, false)
    | .fsin => (XV.ofQ false (sinQ q), 0#6, false)
    | .fcos => (XV.ofQ false (cosQ q), 0#6, false)
    | .ftanh => (.fin (tanhQ q), 0#6, false)
    | _ => (.fin (sigmQ q), 0#6, false)

/-- The class bit of FCLASS (R314). -/
def classBit (f : Fmt) (x : Nat) : Nat :=
  match decodeF f x with
  | .nan s => if s then 0 else 1
  | .inf n => if n then 2 else 9
  | .zero n => if n then 5 else 6
  | .fin q =>
    let normal := decide (f.emin ≤ q.log2)
    if q.isNeg then (if normal then 3 else 4) else (if normal then 8 else 7)

/-- The tests of FCLASS (R314). -/
def classTest (test bit : Nat) (neg : Bool) : Bool :=
  match test with
  | 0 => bit ≤ 1
  | 1 => bit == 0
  | 2 => bit == 2 || bit == 9
  | 3 => bit == 5 || bit == 6
  | 4 => bit == 4 || bit == 7
  | 5 => bit == 3 || bit == 8
  | 6 => neg
  | _ => 3 ≤ bit && bit ≤ 8

/-- The exact value of the rounded instructions (R306, R307), with the divide-by-zero flag. -/
def fpExact (op : AOp) (rd : Bool) (a b c : XV) : XV × FpFlags :=
  match op with
  | .fadd => (XV.add rd a b, 0#6)
  | .fsub => (XV.add rd a b.neg, 0#6)
  | .fmul => (a.mul b, 0#6)
  | .ffma => (XV.add rd (a.mul b) c, 0#6)
  | .ffms => (XV.add rd (a.mul b) c.neg, 0#6)
  | .fdiv => let r := a.quot b; (r.1, if r.2 then flDivZero else 0#6)
  | _ =>
    match a with
    | .fin q => (if q.isNeg then .qnan else .fin q.sqrt, 0#6)
    | .inf true => (.qnan, 0#6)
    | .nan _ => (.qnan, 0#6)
    | x => (x, 0#6)

/-- One element of a floating-point instruction: its code, predicate test, flags and SEED. -/
def fpElem (op : AOp) (w : FWord) (f : Fmt) (seed : Word) (x y z : Nat) : LaneRes :=
  let a := decodeF f x
  let b := decodeF f y
  let c := decodeF f z
  match op with
  | .fmin => ⟨minMaxCode f false x y, false, snanFlag [a, b], seed⟩
  | .fmax => ⟨minMaxCode f true x y, false, snanFlag [a, b], seed⟩
  | .fclamp => ⟨minMaxCode f false (minMaxCode f true x y) z, false, snanFlag [a, b, c], seed⟩
  | .fabs => ⟨if a.isNan then f.nanCode else x % 2 ^ (f.width - 1), false, 0#6, seed⟩
  | .fneg => ⟨if a.isNan then f.nanCode else (x + 2 ^ (f.width - 1)) % 2 ^ f.width, false, 0#6, seed⟩
  | .fset =>
    let un := a.isNan || b.isNan
    let h := if w.opx = 6 then un else if w.opx = 7 then !un else if un then w.opx == 1 else condHolds w.opx (a.cmp b)
    ⟨if h then 2 ^ f.width - 1 else 0, h, snanFlag [a, b], seed⟩
  | .frnd =>
    let seed' := if w.rnd = 5 then lfsrStep seed else seed
    let r := roundOne a f w.rnd (seed' >>> 8).toNat
    ⟨r.1, false, r.2, seed'⟩
  | .fscale =>
    let e := max (-4000) (min 4000 (sgn f.width y))
    let v : XV := match a with
      | .fin q => .fin (q.shift e)
      | t => t
    match a with
    | .fin _ | .nan _ =>
      let r := roundSeed seed v f w.rnd w.sat
      ⟨r.1, false, r.2.1, r.2.2⟩
    | _ => ⟨x, false, 0#6, if w.rnd = 5 then lfsrStep seed else seed⟩
  | .fgetexp =>
    match a with
    | .zero _ => ⟨f.infCode true, false, flDivZero, seed⟩
    | .inf _ => ⟨f.infCode false, false, 0#6, seed⟩
    | .nan s => ⟨f.nanCode, false, if s then flInvalid else 0#6, seed⟩
    | .fin q => let r := roundTo (XV.ofQ false (Q.ofInt q.log2)) f 0 false 0; ⟨r.1, false, r.2, seed⟩
  | .fclass =>
    let k := classBit f x
    ⟨2 ^ k, classTest w.opx k (bitOf x (f.width - 1)), 0#6, seed⟩
  | .frcp | .frsq | .fexp2 | .flog2 | .fsin | .fcos | .ftanh | .fsigm =>
    let v := approxValue op a
    let r := roundTo v.1 f 0 false 0
    ⟨r.1, false, r.2 ||| v.2.1 ||| snanFlag [a] ||| (if v.2.2 then 0#6 else flInexact), seed⟩
  | _ =>
    let ops := [a, b, c].take op.row.n
    let v := fpExact op (w.rnd == 2) a b c
    let r := roundSeed seed v.1 f w.rnd w.sat
    ⟨r.1, false, r.2.1 ||| v.2 ||| snanFlag ops ||| newNan ops v.1, r.2.2⟩

/-- The elements of a lane, one after another, SEED threaded (R275). -/
def fpElems (op : AOp) (w : FWord) (f : Fmt) : Word → List (Nat × Nat × Nat) → List LaneRes
  | _, [] => []
  | seed, (x, y, z) :: t =>
    let r := fpElem op w f seed x y z
    r :: fpElems op w f r.seed t

/-- SEED after a list of element results. -/
def lastSeed (seed : Word) (l : List LaneRes) : Word := (l.getLast?.map LaneRes.seed).getD seed

def orFlags (l : List LaneRes) : FpFlags := l.foldl (fun acc r => acc ||| r.fl) 0#6

/-- One lane of a floating-point instruction (R306 to R315). -/
def fpLane (op : AOp) (w : FWord) (seed : Word) (i : LaneIn) : LaneRes :=
  let ty := w.ty
  let f := elemFmt ty
  let n := tyElems ty
  let wd := elemWidth ty
  match op with
  | .fdot2 =>
    let ea := (elemsOf 16 2 i.a).map (decodeF f)
    let eb := (elemsOf 16 2 i.b).map (decodeF f)
    let c := decodeF .f32 i.c
    let v := windowDot (List.zipWith XV.mul ea eb ++ [c]) (windowBits w.opx)
    let r := roundOnce v.1 .f32
    let ops := ea ++ eb ++ [c]
    ⟨r.1, v.2, r.2 ||| snanFlag ops ||| newNan ops v.1, seed⟩
  | _ =>
    let l := fpElems op w f seed ((elemsOf wd n i.a).zip ((elemsOf wd n i.b).zip (elemsOf wd n i.c)))
    let v := joinElems wd (l.map LaneRes.val)
    let pd := match op with
      | .fset => l.all LaneRes.pd
      | .fclass => l.any LaneRes.pd
      | _ => v != 0
    ⟨v, pd, orFlags l, lastSeed seed l⟩

/-! ### Conversions (R316, R317) -/

/-- One element of CVT. -/
def cvtElem (w : FWord) (seed : Word) (x : Nat) : LaneRes :=
  let sf := elemFmt w.opx
  let df := elemFmt w.ty
  if tyInt w.opx && tyInt w.ty then
    let v := fitInt (tySgn w.ty) w.sat (elemWidth w.ty) (elemInt (tySgn w.opx) (elemWidth w.opx) x)
    ⟨v, false, 0#6, seed⟩
  else
    let r := roundSeed seed (decodeF sf x) df w.rnd w.sat
    ⟨r.1, false, r.2.1, r.2.2⟩

def cvtElems (w : FWord) : Word → List Nat → List LaneRes
  | _, [] => []
  | seed, x :: t =>
    let r := cvtElem w seed x
    r :: cvtElems w r.seed t

/-- The source elements of CVT: an absent SB gives element 1 zero (R316). -/
def cvtSources (w : FWord) (i : LaneIn) : List Nat :=
  if tyElems w.ty == 2 && tyElems w.opx == 1 then [i.a, if isNone w.sb then 0 else i.b]
  else elemsOf (elemWidth w.opx) (tyElems w.opx) i.a

def cvtLane (w : FWord) (seed : Word) (i : LaneIn) : LaneRes :=
  let l := cvtElems w seed (cvtSources w i)
  let v := joinElems (elemWidth w.ty) (l.map LaneRes.val)
  ⟨v, v != 0, orFlags l, lastSeed seed l⟩

/-- QCVT (R318): one element under the format register's descriptor. -/
def qcvtElems (w : FWord) (nf : Fmt) : Word → List Nat → List LaneRes
  | _, [] => []
  | seed, x :: t =>
    let wf := elemFmt w.ty
    let r := if w.opx = 0 then roundSeed seed (decodeF wf x) nf w.rnd w.sat
      else roundSeed seed (decodeF nf x) wf w.rnd w.sat
    ⟨r.1, false, r.2.1, r.2.2⟩ :: qcvtElems w nf r.2.2 t

def qcvtLane (w : FWord) (desc : DWord) (seed : Word) (i : LaneIn) : LaneRes :=
  let n := tyElems w.ty
  let ww := elemWidth w.ty
  let l := qcvtElems w (fdFmt desc) seed (elemsOf (if w.opx = 0 then ww else 8) n i.a)
  let v := joinElems (if w.opx = 0 then 8 else ww) (l.map LaneRes.val)
  ⟨v, v != 0, orFlags l, lastSeed seed l⟩

/-! ### Block quantisation (R319 to R322) -/

/-- The condition of R319 on the named format register. -/
def blockFmtOk (desc : DWord) (n : Nat) : Bool :=
  fdKind desc < 2 && fdScaleCode desc != 0 && fdBlk desc ≤ 32 * n

/-- The scale of a block whose active elements are given (R320). -/
def blockScale (desc : DWord) (l : List XV) : Nat × FpFlags :=
  let ue4 := fdScale desc == .ue4m3
  if l.any (fun x => x.isNan || x.isInf) then (if ue4 then 0x7F else 0xFF, flInvalid)
  else
    let amax := l.foldl (fun (acc : Q) x => if acc.lt x.toQ.abs then x.toQ.abs else acc) ⟨0, 1⟩
    if amax.isZero then (0, 0#6)
    else
      let q := amax.div (fdFmt desc).maxQ
      if ue4 then ((roundTo (.fin q) (.narrow 0 4 3 7 .fn) 3 true 0).1, 0#6)
      else
        let k := if (Q.scaled 1 q.log2).eqv q then q.log2 else q.log2 + 1
        ((max 0 (min 254 (k + 127))).toNat, 0#6)

/-- QPACK of one element (R321). -/
def qpackElem (w : FWord) (desc : DWord) (sb : Nat) (seed : Word) (x : Nat) : LaneRes :=
  let f := fdFmt desc
  let v := decodeF (elemFmt w.ty) x
  match scaleValue (fdScale desc) sb with
  | none =>
    let r := roundSeed seed .qnan f w.rnd w.sat
    ⟨r.1, false, r.2.1 ||| flBadsc, r.2.2⟩
  | some s =>
    if s.isZero then ⟨0, false, if v.isZero then 0#6 else flInexact, if w.rnd = 5 then lfsrStep seed else seed⟩
    else
      let v' := match v with
        | .fin q => XV.fin (q.div s)
        | t => t
      let r := roundSeed seed v' f w.rnd w.sat
      ⟨r.1, false, r.2.1, r.2.2⟩

/-- QUNPACK of one element (R322): a signalling NaN code that is read sets invalid (R264). -/
def qunpackElem (w : FWord) (desc : DWord) (sb : Nat) (seed : Word) (x : Nat) : LaneRes :=
  let f := fdFmt desc
  let v := decodeF f x
  let s := scaleValue (fdScale desc) sb
  let e := scaledElem f (fdScale desc) x sb
  let r := roundSeed seed (e.getD .qnan) (elemFmt w.ty) w.rnd w.sat
  let zero := (s.map Q.isZero).getD true
  ⟨r.1, false, r.2.1 ||| (if s.isNone then flBadsc else 0#6) ||| (if !zero then snanFlag [v] else 0#6), r.2.2⟩

def mapSeed (g : Word → Nat → LaneRes) : Word → List Nat → List LaneRes
  | _, [] => []
  | seed, x :: t =>
    let r := g seed x
    r :: mapSeed g r.seed t

/-! ### All lanes of a word -/

/-- The inputs of a whole word: the active lanes, and per lane its sources and predicates. -/
structure WordIn where
  act  : Mask
  lane : Lanes LaneIn
  /-- the descriptor the word's format operand names, for QCVT, QPACK, QUNPACK and SCALEGEN -/
  desc : DWord

/-- The results of a whole word. -/
structure WordRes where
  lane : Lanes LaneRes
  fl   : FpFlags
  seed : Word
  deriving DecidableEq, Repr

def noRes : LaneRes := ⟨0, false, 0#6, 0#32⟩
def noIn : LaneIn := ⟨0, 0, 0, 0⟩

/-- The active lanes with their inputs, lowest first. -/
def WordIn.actives (x : WordIn) : List (Nat × LaneIn) :=
  (lanesOf x.act).map (fun l => (l, vget x.lane noIn l))

/-- Lane results computed one after another in ascending order, SEED threaded (R275). -/
def runLanes (g : Word → LaneIn → LaneRes) : Word → List (Nat × LaneIn) → List (Nat × LaneRes)
  | _, [] => []
  | seed, (l, i) :: t =>
    let r := g seed i
    (l, r) :: runLanes g r.seed t

/-- A word's results from a list of lane results. -/
def collectRes (seed : Word) (l : List (Nat × LaneRes)) : WordRes :=
  { lane := vof 32 (fun i => Tab.getD l noRes i)
    fl := orFlags (l.map (fun e => e.2))
    seed := lastSeed seed (l.map (fun e => e.2)) }

def eachLane (g : Word → LaneIn → LaneRes) (seed : Word) (x : WordIn) : WordRes :=
  collectRes seed (runLanes g seed x.actives)

/-- A word whose lanes have these values and predicate bits and raise no flag. -/
def laneVals (seed : Word) (x : WordIn) (g : Nat → LaneIn → Nat × Bool) : WordRes :=
  collectRes seed (x.actives.map (fun e => (e.1, { val := (g e.1 e.2).1, pd := (g e.1 e.2).2, fl := 0#6, seed := seed })))

def laneA (x : WordIn) (l : Nat) : Nat := (vget x.lane noIn l).a

/-- The bits of a result of the type: .f16 and .bf16 clear bits [31:16] (R74). -/
def typeBits (ty x : Nat) : Nat := x % 2 ^ (elemWidth ty * tyElems ty)

/-- SCALEGEN (R320). -/
def scalegen (w : FWord) (seed : Word) (x : WordIn) : WordRes :=
  let n := tyElems w.ty
  let blk := fdBlk x.desc
  let els := x.actives.flatMap (fun e => (elemsOf (elemWidth w.ty) n e.2.a).mapIdx
    (fun j c => ((e.1 * n + j) / blk, decodeF (elemFmt w.ty) c)))
  let sc := fun (b : Nat) => blockScale x.desc ((els.filter (fun e => e.1 == b)).map (fun e => e.2))
  collectRes seed (x.actives.map (fun e =>
    let v := (sc (e.1 * n / blk)).1
    let fl := (elemsOf (elemWidth w.ty) n e.2.a).mapIdx (fun j _ => (sc ((e.1 * n + j) / blk)).2)
    (e.1, { val := v, pd := v != 0, fl := fl.foldl (· ||| ·) 0#6, seed := seed })))

/-- QPACK (R321): the codes of the active lanes, then the words of the stream. -/
def qpack (w : FWord) (seed : Word) (x : WordIn) : WordRes :=
  let n := tyElems w.ty
  let cw := (fdFmt x.desc).width
  let codes := runLanes (fun sd i =>
    let l := mapSeed (qpackElem w x.desc (i.b % 256)) sd (elemsOf (elemWidth w.ty) n i.a)
    ⟨joinElems cw (l.map LaneRes.val), false, orFlags l, lastSeed sd l⟩) seed x.actives
  let stream := codes.foldl (fun acc e => acc + e.2.val * 2 ^ (cw * n * e.1)) 0
  collectRes seed (codes.map (fun e =>
    let v := bitsOf stream (32 * e.1) 32
    (e.1, { e.2 with val := v, pd := v != 0 })))

/-- QUNPACK (R322). -/
def qunpack (w : FWord) (seed : Word) (x : WordIn) : WordRes :=
  let n := tyElems w.ty
  let cw := (fdFmt x.desc).width
  let stream := x.actives.foldl (fun acc e => acc + (e.2.a % 2 ^ 32) * 2 ^ (32 * e.1)) 0
  let withLane := x.actives.map (fun e => (e.1, { e.2 with a := bitsOf stream (cw * n * e.1) (cw * n) }))
  collectRes seed (runLanes (fun sd i =>
    let l := mapSeed (qunpackElem w x.desc (i.b % 256)) sd (elemsOf cw n i.a)
    let v := joinElems (elemWidth w.ty) (l.map LaneRes.val)
    ⟨v, v != 0, orFlags l, lastSeed sd l⟩) seed withLane)

/-- The active lanes of the group of lane l: 2^k lanes (R324). -/
def groupLanes (act : Mask) (k l : Nat) : List Nat := (lanesOf act).filter (fun m => m / 2 ^ k == l / 2 ^ k)

/-- AMAX (R324). -/
def amax (w : FWord) (seed : Word) (x : WordIn) : WordRes :=
  let f := elemFmt w.ty
  let n := tyElems w.ty
  collectRes seed (x.actives.map (fun e =>
    let cs := (groupLanes x.act (w.opx % 8) e.1).flatMap (fun l => elemsOf f.width n (laneA x l))
    let vs := cs.map (decodeF f)
    let mags := cs.map (fun c => c % 2 ^ (f.width - 1))
    let code := if vs.any XV.isNan then f.nanCode else mags.foldl max 0
    let v := joinElems f.width (List.replicate n code)
    (e.1, { val := v, pd := v != 0, fl := snanFlag vs, seed := seed })))

/-- The source lane of a shuffle, where it is valid (R325). -/
def shuffleLane (op : AOp) (k l i : Nat) : Option Nat :=
  let w := 2 ^ k
  let base := l - l % w
  match op with
  | .shfl => some (base + i % w)
  | .shflx => some (base + ((l % w) ^^^ (i % w)))
  | .shflup => if base + i ≤ l then some (l - i) else none
  | _ => if l + i < base + w then some (l + i) else none

/-- The shuffles (R325). -/
def shuffle (op : AOp) (w : FWord) (seed : Word) (x : WordIn) : WordRes :=
  laneVals seed x (fun l i =>
    match shuffleLane op (w.opx % 8) l (i.b % 2 ^ 32) with
    | some m => if x.act.getLsbD m then (typeBits w.ty (laneA x m), true) else (typeBits w.ty i.a, false)
    | none => (typeBits w.ty i.a, false))

/-- BCAST (R326). -/
def bcast (w : FWord) (seed : Word) (x : WordIn) : WordRes :=
  let low := (lowLane x.act).getD 0
  let j := (vget x.lane noIn low).b % 32
  let ok := x.act.getLsbD j
  laneVals seed x (fun _ _ => (typeBits w.ty (laneA x (if ok then j else low)), ok))

/-- VOTE (R327). -/
def vote (w : FWord) (seed : Word) (x : WordIn) : WordRes :=
  let pass := maskOf (fun l => x.act.getLsbD l && laneA x l % 2 ^ 32 != 0)
  let all := pass == x.act
  let any := pass != 0#32
  laneVals seed x (fun l _ =>
    let h := match w.opx with
      | 0 => all
      | 1 => any
      | _ => all || !any
    if w.opx = 3 then (pass.toNat, pass.getLsbD l) else (if h then 1 else 0, h))

/-- MATCH (R329). -/
def matchVals (w : FWord) (seed : Word) (x : WordIn) : WordRes :=
  let n := elemWidth w.ty * tyElems w.ty
  let m := fun l => maskOf (fun k => x.act.getLsbD k && laneA x k % 2 ^ n == laneA x l % 2 ^ n)
  let same := (lanesOf x.act).all (fun l => m l == x.act)
  laneVals seed x (fun l _ => ((m l).toNat, same))

/-! ### REDUX and PSCAN (R328) -/

/-- The combination of one element so far: an exact integer, or a float code. -/
inductive Acc where
  | int (x : Int)
  | bits (x : Nat)
  deriving DecidableEq, Repr

/-- One step of the combination of an element. -/
def scanStep (w : FWord) (acc : Option Acc) (seed : Word) (x : Nat) : Acc × FpFlags × Word :=
  let k := w.opx % 8
  let f := elemFmt w.ty
  let sg := tySgn w.ty
  if tyInt w.ty then
    let v := elemInt sg f.width x
    let r : Acc := match acc, k with
      | none, 3 | none, 4 | none, 5 => .bits x
      | none, _ => .int v
      | some (.int a), 0 => .int (a + v)
      | some (.int a), 1 => .int (min a v)
      | some (.int a), _ => .int (max a v)
      | some (.bits a), 3 => .bits (a &&& x)
      | some (.bits a), 4 => .bits (a ||| x)
      | some (.bits a), _ => .bits (a ^^^ x)
    (r, 0#6, seed)
  else
    let v := decodeF f x
    let sf := snanFlag [v]
    match acc, k with
    | some (.bits a), 0 =>
      let p := decodeF f a
      let t := XV.add (w.rnd == 2) p v
      let r := roundSeed seed t f w.rnd w.sat
      (.bits r.1, r.2.1 ||| sf ||| newNan [p, v] t, r.2.2)
    | _, 0 =>
      let r := roundSeed seed v f w.rnd w.sat
      (.bits r.1, r.2.1 ||| sf, r.2.2)
    | some (.bits a), _ => (.bits (minMaxCode f (k == 2) a x), sf, seed)
    | _, _ => (.bits (if v.isNan then f.nanCode else x), sf, seed)

/-- One lane added to the combination of every element. -/
def scanLane (w : FWord) : List (Option Acc) → Word → List Nat → List Acc × FpFlags × Word
  | a :: ta, seed, x :: tx =>
    let r := scanStep w a seed x
    let t := scanLane w ta r.2.2 tx
    (r.1 :: t.1, r.2.1 ||| t.2.1, t.2.2)
  | _, seed, _ => ([], 0#6, seed)

/-- What one lane leaves: the combination before it, the combination with it, its flags and SEED. -/
structure ScanRow where
  lane   : Nat
  before : List (Option Acc)
  after  : List Acc
  fl     : FpFlags
  seed   : Word

def scanRows (w : FWord) : List (Option Acc) → Word → List (Nat × LaneIn) → List ScanRow
  | _, _, [] => []
  | st, seed, (l, i) :: t =>
    let r := scanLane w st seed (elemsOf (elemWidth w.ty) (tyElems w.ty) i.a)
    ⟨l, st, r.1, r.2.1, r.2.2⟩ :: scanRows w (r.1.map some) r.2.2 t

/-- The identity of an exclusive scan (R328). -/
def scanIdentity (w : FWord) : Nat :=
  let f := elemFmt w.ty
  match w.opx % 8 with
  | 3 => 2 ^ f.width - 1
  | 1 => if tyInt w.ty then wrap f.width f.intRange.2 else f.infCode false
  | 2 => if tyInt w.ty then wrap f.width f.intRange.1 else f.infCode true
  | _ => 0

def Acc.code (w : FWord) : Acc → Nat
  | .int x => fitInt (tySgn w.ty) w.sat (elemWidth w.ty) x
  | .bits x => x % 2 ^ elemWidth w.ty

def scan (red : Bool) (w : FWord) (seed : Word) (x : WordIn) : WordRes :=
  let n := tyElems w.ty
  let rows := scanRows w (List.replicate n none) seed x.actives
  let total := ((rows.getLast?.map ScanRow.after).getD []).map some
  collectRes seed (rows.map (fun r =>
    let st := if red then total else if w.opx ≥ 8 then r.before else r.after.map some
    let v := joinElems (elemWidth w.ty) (st.map (fun a => (a.map (Acc.code w)).getD (scanIdentity w)))
    (r.lane, { val := v, pd := v != 0, fl := r.fl, seed := r.seed })))

/-! ### Every arithmetic word -/

/-- The results of an F-form word of the 0x001, 0x040 and 0x080 groups. -/
def aluWord (op : AOp) (w : FWord) (seed : Word) (x : WordIn) : WordRes :=
  match op with
  | .add | .sub | .mul | .mulhi | .mad | .madw | .div | .rem | .min | .max | .abs | .neg | .and | .or | .xor
  | .andn | .not | .shl | .shr | .sar | .rotl | .clz | .popc | .brev | .bfx | .bfi | .sel | .iset | .lea | .addc
  | .subb | .mov | .dup | .plop | .pmov | .sad | .dot4 | .bperm => eachLane (intLane op w) seed x
  | .fadd | .fsub | .fmul | .ffma | .ffms | .fmin | .fmax | .fabs | .fneg | .fset | .fclamp | .frnd | .frcp | .frsq
  | .fsqrt | .fdiv | .fexp2 | .flog2 | .fsin | .fcos | .ftanh | .fsigm | .fscale | .fgetexp | .fclass | .fdot2 =>
    eachLane (fpLane op w) seed x
  | .cvt => eachLane (cvtLane w) seed x
  | .qcvt => eachLane (qcvtLane w x.desc) seed x
  | .qpack => qpack w seed x
  | .qunpack => qunpack w seed x
  | .scalegen => scalegen w seed x
  | .amax => amax w seed x
  | .shfl | .shflx | .shflup | .shfldn => shuffle op w seed x
  | .bcast => bcast w seed x
  | .vote => vote w seed x
  | .redux => scan true w seed x
  | .pscan => scan false w seed x
  | .matchLanes => matchVals w seed x

/-- The long-latency producers of these groups (R291). -/
def isLongLatency (op : AOp) : Bool :=
  match op with
  | .div | .rem | .frcp | .frsq | .fsqrt | .fdiv | .fexp2 | .flog2 | .ftanh | .fsigm | .fsin | .fcos => true
  | _ => false

end Sys2Proof.Machine
end

