-- ==== Sys2Proof/Machine/Operands.lean ====
section
/-! DEFINITION. Reading the operands of a word: constants and lane values under a type (R69, R70), registers at a width
(R71), and the waits and traps of sources (R52, R53, R57). -/

namespace Sys2Proof.Machine

/-! ### Constants and lane values -/

/-- The value of a float constant: exact, or its binary64 rounding where it has no short value (R69). -/
def floatConst (i : Nat) : XV :=
  match i with
  | 0 => .zero false
  | 1 => .fin ⟨1, 1⟩
  | 2 => .fin ⟨-1, 1⟩
  | 3 => .fin ⟨1, 2⟩
  | 4 => .fin ⟨2, 1⟩
  | 5 => .fin ⟨-1, 2⟩
  | 6 => .fin ⟨-2, 1⟩
  | 7 => .fin ⟨4, 1⟩
  | 8 => .fin ⟨1, 4⟩
  | 9 => .fin ⟨3, 1⟩
  | 10 => .fin ⟨10, 1⟩
  | 11 => .fin ⟨2 ^ fixBits, ln2Fix⟩
  | 12 => .fin ⟨ln2Fix, 2 ^ fixBits⟩
  | 13 => .fin ⟨piFix, 2 ^ fixBits⟩
  | 14 => .fin (Q.sqrt ⟨1, 2⟩)
  | _ => .inf false

/-- A float constant under a type: converted by RNE into every element, or the binary32 or binary64 encoding under an
integer type (R69). -/
def floatConstBits (ty i : Nat) : Nat :=
  if tyInt ty then (roundTo (floatConst i) (if wideTy ty then .f64 else .f32) 0 false 0).1
  else joinElems (elemWidth ty) (List.replicate (tyElems ty) (roundTo (floatConst i) (elemFmt ty) 0 false 0).1)

/-- An integer constant under a type (R69). -/
def intConstBits (ty i : Nat) : Nat :=
  let e := if tyInt ty then i else (roundTo (XV.ofQ false (Q.ofInt i)) (elemFmt ty) 0 false 0).1
  joinElems (elemWidth ty) (List.replicate (tyElems ty) e)

/-- The lane values of R70. -/
def laneValue (x : At) (act : Mask) (s : State) (i l : Nat) : Nat :=
  match i with
  | 0 => l
  | 1 => x.sd.mask.toNat
  | 2 => act.toNat
  | 3 => 2 ^ l - 1
  | 4 => slotOf x.c
  | 5 => x.st
  | 6 => x.co.tcourse
  | 7 => x.co.teamid
  | 8 => x.co.pteam.getD 0xFFFFFFFF
  | 9 => coreOf x.c % 64
  | 10 => dieOf x.c
  | 11 => x.co.name.toNat
  | 12 => x.sd.depth
  | _ => ((s.team x.co.team).map Team.ncourses).getD 1

/-! ### Registers -/

/-- A source as one lane reads it. -/
structure SrcVal where
  val    : Nat
  full   : Bool := true
  poison : Bool := false
  deriving DecidableEq, Repr

def SrcVal.ofEntry (e : Entry) : SrcVal := ⟨e.val.toNat, e.full, e.poison⟩

/-- Two entries as one 64-bit value: full only when both are, poisoned when either is (R71). -/
def SrcVal.pair (lo hi : Entry) : SrcVal :=
  ⟨lo.val.toNat + 2 ^ 32 * hi.val.toNat, lo.full && hi.full, lo.poison || hi.poison⟩

def Strand.queueAt (sd : Strand) (l n : Nat) : Entry := vget (vget sd.q (vconst 16 {}) l) {} n
def Course.vAt (co : Course) (n l : Nat) : Entry := vget (vget co.v (vconst 32 {}) n) {} l

/-- A source operand of a word in one lane, under a type and at a width (R68 to R71). -/
def readSrc (x : At) (act : Mask) (s : State) (ty : Nat) (wide : Bool) (code : BitVec 8) (l : Nat) : SrcVal :=
  let c := code.toNat
  if c < 0x10 then
    if wide then SrcVal.pair (x.sd.queueAt l (c + 1)) (x.sd.queueAt l c) else SrcVal.ofEntry (x.sd.queueAt l c)
  else if c < 0x20 then ⟨intConstBits ty (c - 0x10), true, false⟩
  else if c < 0x40 then
    let g := vget x.sd.g {} (c - 0x20)
    ⟨if wide then g.val.toNat else g.val.toNat % 2 ^ 32, g.full, g.poison⟩
  else if c < 0x80 then
    if wide then SrcVal.pair (x.co.vAt (c - 0x40) l) (x.co.vAt (c - 0x3F) l) else SrcVal.ofEntry (x.co.vAt (c - 0x40) l)
  else if c < 0x90 then ⟨floatConstBits ty (c - 0x80), true, false⟩
  else if c < 0x9E then
    let v := laneValue x act s (c - 0x90) l
    ⟨if wide then v else v % 2 ^ 32, true, false⟩
  else ⟨0, true, false⟩

/-! ### Waits and traps of sources -/

/-- A source of a word: its operand field (R53), code, T bit, type and width. -/
structure SrcRef where
  fld  : Nat
  code : BitVec 8
  t    : Bool := false
  ty   : Nat := 1
  wide : Bool := false
  /-- a stored .b128 value: vn to vn+3, or qn+3 down to qn (R165) -/
  quad : Bool := false
  /-- the code the word names, where the source is the second register of a pair that one code names (R335) -/
  named : Option (BitVec 8) := none
  deriving DecidableEq, Repr

/-- The operand code a record shows for a source. -/
def SrcRef.shown (r : SrcRef) : Nat := (r.named.getD r.code).toNat

/-- The entries a source names. -/
def SrcRef.span (r : SrcRef) : Nat := if r.quad then 4 else if r.wide then 2 else 1

/-- Words 0 to 3 of a .b128 source (R165). -/
def quadEntry (x : At) (c l i : Nat) : Entry :=
  if c < 0x10 then x.sd.queueAt l (c + 3 - i) else x.co.vAt (c - 0x40 + i) l

def readQuad (x : At) (c l : Nat) : SrcVal :=
  let e := (List.range 4).map (quadEntry x c l)
  ⟨(e.map (fun w => w.val.toNat)).foldr (fun w acc => w + 2 ^ 32 * acc) 0, e.all Entry.full, e.any Entry.poison⟩

/-- A source as one lane reads it. -/
def SrcRef.read (r : SrcRef) (x : At) (act : Mask) (s : State) (l : Nat) : SrcVal :=
  if r.quad then readQuad x r.code.toNat l else readSrc x act s r.ty r.wide r.code l

/-- The active lanes in which a source is empty. -/
def emptyMask (x : At) (act : Mask) (s : State) (r : SrcRef) : Mask :=
  maskOf (fun l => act.getLsbD l && !(r.read x act s l).full)

/-- The active lanes in which a source is poisoned. -/
def poisonMask (x : At) (act : Mask) (s : State) (r : SrcRef) : Mask :=
  maskOf (fun l => act.getLsbD l && (r.read x act s l).poison)

/-- The record layout of EMPTY_READ and REG_POISON (R53, R445). -/
def srcTrap (code : Nat) (r : SrcRef) (m : Mask) : Trap :=
  { code := code, cls := cls4 r.fld m.toNat r.shown 0 }

def firstSrcTrap (code : Nat) (f : Mask → SrcRef → Mask) : List (Mask × SrcRef) → Option Trap
  | [] => none
  | (m, r) :: t => if f m r != 0#32 then some (srcTrap code r (f m r)) else firstSrcTrap code f t

/-- Sources with the active lanes each is read in, in field order: wait for the sources whose T bit is 0, then trap
EMPTY_READ for one whose bit is 1, then REG_POISON (R52, R57, R110). -/
def srcsVerdict (x : At) (s : State) (l : List (Mask × SrcRef)) : Verdict :=
  if l.any (fun r => !r.2.t && emptyMask x r.1 s r.2 != 0#32) then .wait
  else match firstSrcTrap cEmptyRead (fun m r => emptyMask x m s r) (l.filter (fun r => r.2.t)) with
    | some t => .trap t
    | none => match firstSrcTrap cRegPoison (fun m r => poisonMask x m s r) l with
      | some t => .trap t
      | none => .go

/-- The sources of a word that are all read in its active lanes. -/
def srcVerdict (x : At) (s : State) (act : Mask) (refs : List SrcRef) : Verdict :=
  srcsVerdict x s (refs.map (fun r => (act, r)))

/-- Register word i of a source as a lane holds it: an entry of the queue or of a v register; the strand's one g copy for every
lane. -/
def SrcRef.word (r : SrcRef) (x : At) (i l : Nat) : Entry :=
  let c := r.code.toNat
  if c < 0x10 then x.sd.queueAt l (c + i)
  else if 0x40 ≤ c && c < 0x80 then x.co.vAt (c - 0x40 + i) l
  else if 0x20 ≤ c && c < 0x40 && i = 0 then
    let g := vget x.sd.g {} (c - 0x20)
    { poison := g.poison, noted := g.noted }
  else {}

/-- The lanes outside the active ones, held by the strand, in which word i of a source is poisoned and not yet reported. -/
def latentMask (x : At) (act : Mask) (r : SrcRef) (i : Nat) : Mask :=
  maskOf (fun l => x.sd.mask.getLsbD l && !(act.getLsbD l) && (r.word x i l).poison && !(r.word x i l).noted)

/-- The entries of a v register changed in some lanes. -/
def Course.mapV (co : Course) (n : Nat) (m : Mask) (f : Entry → Entry) : Course :=
  { co with v := vset co.v n (vmapIdx (fun l e => if m.getLsbD l then f e else e) (vget co.v (vconst 32 {}) n)) }

/-- The strand of a word as a state holds it. -/
def At.now (x : At) (s : State) : At := { x with co := s.courseD x.c, sd := (s.courseD x.c).strand x.st }

/-- The LATENT_POISON record of a strand: the code under which the word was read, and the lanes that hold it (R445). -/
def postLatent (x : At) (code : Nat) (m : Mask) (s : State) : State :=
  s.post x.co.ctx { name := x.co.name, pc := x.sd.pc, code := cLatentPoison, cls := cls4 (code % 256 + 256 * x.st) m.toNat 0 0 }

/-- Word i of a source noted in some lanes. -/
def noteWord (x : At) (r : SrcRef) (i : Nat) (m : Mask) (s : State) : State :=
  let c := r.code.toNat
  let mark := fun (e : Entry) => { e with noted := true }
  if c < 0x10 then
    s.modStrand x.c x.st (fun sd => { sd with q := vmapIdx (fun l ql =>
      if m.getLsbD l then vset ql (c + i) (mark (vget ql {} (c + i))) else ql) sd.q })
  else if c < 0x40 then
    s.modStrand x.c x.st (fun sd => { sd with g := vset sd.g (c - 0x20) { vget sd.g {} (c - 0x20) with noted := true } })
  else s.modCourse x.c (fun co => co.mapV (c - 0x40 + i) m mark)

/-- LATENT_POISON for one register word of a source, which is noted so that later reads, be it of the same word, post nothing
(R57, R445). -/
def noteLatentWord (x : At) (act : Mask) (r : SrcRef) (s : State) (i : Nat) : State :=
  let m := latentMask (x.now s) act r i
  if m = 0#32 then s else noteWord x r i m (postLatent x r.shown m s)

/-- LATENT_POISON for every register word of one source. -/
def noteLatentOne (x : At) (act : Mask) (s : State) (r : SrcRef) : State :=
  (List.range r.span).foldl (noteLatentWord x act r) s

/-- LATENT_POISON for a predicate that a word reads in its active lanes and other lanes of the strand hold poisoned (R57). A
predicate has no operand code: the record's is a free value (DESIGN CHOICE, notes/assumptions/62.md). -/
def noteLatentPred (x : At) (act : Mask) (s : State) (n : Nat) : State :=
  let co := s.courseD x.c
  let m := x.sd.mask &&& ~~~act &&& vget co.pBad 0#32 n &&& ~~~(vget co.pNoted 0#32 n)
  if m = 0#32 then s
  else (postLatent x (Config.regField (2 * n)).toNat m s).modCourse x.c
    (fun y => { y with pNoted := vset y.pNoted n (vget y.pNoted 0#32 n ||| m) })

/-- The v registers a source names. -/
def SrcRef.vregs (r : SrcRef) : List Nat :=
  if isV r.code then (List.range r.span).map (fun i => r.code.toNat - 0x40 + i) else []

/-- The acquire of the first read of a register that an RSTV from another core filled (R142). -/
def acquireFilled (x : At) (act : Mask) (refs : List SrcRef) (s : State) : State :=
  let l := refs.flatMap SrcRef.vregs
  if act = 0#32 || !(x.co.filled.any (fun n => l.contains n)) then s
  else (s.acquire x.c 4).modCourse x.c (fun co => { co with filled := co.filled.filter (fun n => !(l.contains n)) })

/-- What reading the sources of a word does besides giving their values. -/
def noteLatent (x : At) (act : Mask) (refs : List SrcRef) (s : State) : State :=
  acquireFilled x act refs (refs.foldl (noteLatentOne x act) s)

/-- The same for a word that reads predicates in its active lanes as well. -/
def noteReads (x : At) (act : Mask) (refs : List SrcRef) (preds : List Nat) (s : State) : State :=
  preds.foldl (noteLatentPred x act) (noteLatent x act refs s)

/-! ### Sources read as plain numbers -/

/-- Source i of an F-form word. -/
def srcOf (w : FWord) (i : Nat) : BitVec 8 :=
  match i with
  | 0 => w.sa
  | 1 => w.sb
  | _ => w.sc

/-- The T bit of source i of an F-form word (R60). -/
def tbitOf (w : FWord) (i : Nat) : Bool := w.t.getLsbD (2 - i)

/-- Source i of an F-form word that reads unsigned numbers of 32 or 64 bits. -/
def numRef (w : FWord) (i : Nat) (wide : Bool) : SrcRef :=
  { fld := i, code := srcOf w i, t := tbitOf w i, ty := if wide then 3 else 1, wide := wide }

/-- The value of a source in a lane. -/
def SrcRef.at_ (r : SrcRef) (x : At) (act : Mask) (s : State) (l : Nat) : Nat :=
  (r.read x act s l).val

/-- The value of a source in the lowest active lane. -/
def SrcRef.low (r : SrcRef) (x : At) (act : Mask) (s : State) : Nat :=
  match lowLane act with
  | some l => r.at_ x act s l
  | none => 0

/-! ### The sources of an arithmetic word -/

/-- The type under which source i of an arithmetic word is read: its own type, but for the operands the instruction
chapters read as integers or under another type (R294, R299, R313, R315, R316, R318 to R325). -/
def srcTyOf (op : AOp) (w : FWord) (i : Nat) : Nat :=
  match op, i with
  | .madw, 2 => 2 + w.ty
  | .lea, 1 => 0
  | .sad, 2 | .dot4, 2 => if tySgn w.ty then 0 else 1
  | .fscale, 1 => if w.ty == 9 || w.ty == 10 then 4 else 0
  | .fdot2, 2 => 8
  | .cvt, _ => w.opx
  | .qcvt, 1 | .qpack, 1 | .qpack, 2 | .qunpack, 0 | .qunpack, 1 | .qunpack, 2 | .scalegen, 1 => 1
  | .shfl, 1 | .shflx, 1 | .shflup, 1 | .shfldn, 1 => 1
  | _, _ => w.ty

/-- The sources an arithmetic word reads, in field order. -/
def refsOf (op : AOp) (w : FWord) : List SrcRef :=
  ((List.range 3).filter (fun i => !(isNone (srcOf w i)))).map
    (fun i => { fld := i, code := srcOf w i, t := tbitOf w i, ty := srcTyOf op w i, wide := op.srcWide w i })

/-- The predicates an arithmetic word reads or writes besides PRED (R51). -/
def predsOf (op : AOp) (w : FWord) : List Nat :=
  match op with
  | .plop => [w.fld 12 3, w.fld 9 3, w.pdst]
  | .pmov => [0, 1, 2, 3, 4, 5, 6, w.pdst]
  | .addc | .subb => if w.opx ≥ 8 then [w.opx % 8, w.pdst] else [w.pdst]
  | _ => [w.pdst]

/-- The predicates an arithmetic word reads besides PRED. -/
def predReads (op : AOp) (w : FWord) : List Nat :=
  match op with
  | .plop => [w.fld 12 3, w.fld 9 3]
  | .pmov => if w.opx = 0 then [0, 1, 2, 3, 4, 5, 6] else []
  | .addc | .subb => if w.opx ≥ 8 then [w.opx % 8] else []
  | _ => []

/-- The predicates of a lane as a number, bit r from pr. -/
def predBits (co : Course) (l : Nat) : Nat :=
  (List.range 8).foldr (fun r acc => 2 * acc + (if (vget co.p 0#32 r).getLsbD l then 1 else 0)) 0

/-- The value of source i of a word in a lane, 0 where the word has none. -/
def valueOf (op : AOp) (w : FWord) (x : At) (act : Mask) (s : State) (i l : Nat) : Nat :=
  if isNone (srcOf w i) then 0 else (readSrc x act s (srcTyOf op w i) (op.srcWide w i) (srcOf w i) l).val

/-- The inputs of a lane. -/
def laneInOf (op : AOp) (w : FWord) (x : At) (act : Mask) (s : State) (l : Nat) : LaneIn :=
  { a := valueOf op w x act s 0 l, b := valueOf op w x act s 1 l, c := valueOf op w x act s 2 l, p := predBits x.co l }

end Sys2Proof.Machine
end

