-- ==== Sys2Proof/Machine/Flags.lean ====
section
/-! DEFINITION. The flags a word writes: the floating-point flags of the course (R277, R290), the predicate of PDST (R289)
and SEED (R275). Every flag an instruction computes is part of its result in Alu.lean; here it is written. -/

namespace Sys2Proof.Machine

/-- FPFLAGS accumulate; only MTS clears them (R277). -/
def Course.orFlags (co : Course) (fl : FpFlags) : Course := { co with fpflags := co.fpflags ||| fl.setWidth 32 }

/-- The predicate bits of a word's result, one per lane. -/
def WordRes.pbits (r : WordRes) : Mask := maskOf (fun l => (vget r.lane noRes l).pd)

/-- The flags of a word whose value is full at once: PDST in the active lanes, FPFLAGS, SEED. -/
def Course.writeFlags (co : Course) (act : Mask) (pdst : Nat) (r : WordRes) : Course :=
  { (co.writeP pdst act r.pbits).orFlags r.fl with seed := if act = 0#32 then co.seed else r.seed }

/-- The value of a lane of a word's result. -/
def WordRes.val (r : WordRes) (l : Nat) : Nat := (vget r.lane noRes l).val

end Sys2Proof.Machine
end

