-- ==== Sys2Proof/Decode.lean ====
section
/-! DEFINITION. Decoding, total on every 64-bit word, and the encoder (R58, R59, R63, R76, R78). decodeRaw reads the
fields of a word and loses none of its bits; decode refuses, by the name of the trap, a word that is not well formed.
An encoder gives the word of an instruction back, from the same layouts. -/

namespace Sys2Proof

/-! ### Fields of a word (R58, R59, R63, R76) -/

/-- Bits [62:54], the opcode (R58). -/
def opField (w : DWord) : Nat := (w.extractLsb' 54 9).toNat

def readF (w : DWord) : FWord :=
  { pn := w.getLsbD 53, pred := w.extractLsb' 50 3, sa := w.extractLsb' 42 8, sb := w.extractLsb' 34 8
    sc := w.extractLsb' 26 8, d := w.extractLsb' 18 8, t := w.extractLsb' 15 3, mod := w.extractLsb' 0 15 }

def readI (w : DWord) : IWord :=
  { pn := w.getLsbD 53, pred := w.extractLsb' 50 3, imm := w.extractLsb' 18 32, d := w.extractLsb' 10 8
    ty := w.extractLsb' 6 4, rsv := w.extractLsb' 0 6 }

def readM (w : DWord) : MWord :=
  { pn := w.getLsbD 53, pred := w.extractLsb' 50 3, base := w.extractLsb' 42 8, data := w.extractLsb' 34 8
    d := w.extractLsb' 26 8, off := w.extractLsb' 10 16, t := w.extractLsb' 8 2, size := w.extractLsb' 4 4
    amode := w.extractLsb' 2 2, hint := w.extractLsb' 0 2 }

def readB (w : DWord) : BWord :=
  { pn := w.getLsbD 53, pred := w.extractLsb' 50 3, val := w.extractLsb' 42 8, woff := w.extractLsb' 10 32
    join := w.extractLsb' 4 6, bop := w.extractLsb' 0 4 }

def readRep (w : DWord) : RepWord :=
  { pn := w.getLsbD 53, pred := w.extractLsb' 50 3, count := w.extractLsb' 42 8, stepA := w.extractLsb' 38 4
    stepB := w.extractLsb' 34 4, stepC := w.extractLsb' 30 4, stepD := w.extractLsb' 26 4, rsv := w.extractLsb' 0 26 }

/-- A slot, from the bit its 31 bits start at. -/
def readSlot (w : DWord) (lo : Nat) : Slot :=
  { op7 := w.extractLsb' (lo + 24) 7, pred := w.extractLsb' (lo + 21) 3, sa := w.extractLsb' (lo + 13) 8
    sb := w.extractLsb' (lo + 5) 8, t := w.extractLsb' (lo + 3) 2, mod3 := w.extractLsb' lo 3 }

/-! ### The opcode map (R78) -/

/-- The F-form instruction of an opcode. -/
def ofF (op : Nat) (w : FWord) : Option Instr :=
  match op with
  | 0x001 => some (.add w)
  | 0x002 => some (.sub w)
  | 0x003 => some (.mul w)
  | 0x004 => some (.mulhi w)
  | 0x005 => some (.mad w)
  | 0x006 => some (.madw w)
  | 0x007 => some (.div w)
  | 0x008 => some (.rem w)
  | 0x009 => some (.min w)
  | 0x00A => some (.max w)
  | 0x00B => some (.abs w)
  | 0x00C => some (.neg w)
  | 0x00D => some (.and w)
  | 0x00E => some (.or w)
  | 0x00F => some (.xor w)
  | 0x010 => some (.andn w)
  | 0x011 => some (.not w)
  | 0x012 => some (.shl w)
  | 0x013 => some (.shr w)
  | 0x014 => some (.sar w)
  | 0x015 => some (.rotl w)
  | 0x016 => some (.clz w)
  | 0x017 => some (.popc w)
  | 0x018 => some (.brev w)
  | 0x019 => some (.bfx w)
  | 0x01A => some (.bfi w)
  | 0x01B => some (.sel w)
  | 0x01C => some (.iset w)
  | 0x01D => some (.lea w)
  | 0x01E => some (.addc w)
  | 0x01F => some (.subb w)
  | 0x020 => some (.mov w)
  | 0x023 => some (.dup w)
  | 0x024 => some (.plop w)
  | 0x025 => some (.pmov w)
  | 0x026 => some (.sad w)
  | 0x027 => some (.dot4 w)
  | 0x028 => some (.bperm w)
  | 0x040 => some (.fadd w)
  | 0x041 => some (.fsub w)
  | 0x042 => some (.fmul w)
  | 0x043 => some (.ffma w)
  | 0x044 => some (.ffms w)
  | 0x045 => some (.fmin w)
  | 0x046 => some (.fmax w)
  | 0x047 => some (.fabs w)
  | 0x048 => some (.fneg w)
  | 0x049 => some (.fset w)
  | 0x04A => some (.fclamp w)
  | 0x04B => some (.frnd w)
  | 0x04C => some (.frcp w)
  | 0x04D => some (.frsq w)
  | 0x04E => some (.fsqrt w)
  | 0x04F => some (.fdiv w)
  | 0x050 => some (.fexp2 w)
  | 0x051 => some (.flog2 w)
  | 0x052 => some (.fsin w)
  | 0x053 => some (.fcos w)
  | 0x054 => some (.ftanh w)
  | 0x055 => some (.fsigm w)
  | 0x056 => some (.fscale w)
  | 0x057 => some (.fgetexp w)
  | 0x058 => some (.fclass w)
  | 0x059 => some (.fdot2 w)
  | 0x080 => some (.cvt w)
  | 0x081 => some (.qcvt w)
  | 0x082 => some (.qpack w)
  | 0x083 => some (.qunpack w)
  | 0x084 => some (.scalegen w)
  | 0x085 => some (.amax w)
  | 0x086 => some (.shfl w)
  | 0x087 => some (.shflx w)
  | 0x088 => some (.shflup w)
  | 0x089 => some (.shfldn w)
  | 0x08A => some (.bcast w)
  | 0x08B => some (.vote w)
  | 0x08C => some (.redux w)
  | 0x08D => some (.pscan w)
  | 0x08E => some (.matchLanes w)
  | 0x0CF => some (.fence w)
  | 0x0D0 => some (.qfence w)
  | 0x100 => some (.chain w)
  | 0x101 => some (.cpy w)
  | 0x102 => some (.sealBatch w)
  | 0x103 => some (.waitb w)
  | 0x104 => some (.bstat w)
  | 0x105 => some (.cbdef w)
  | 0x106 => some (.cbprod w)
  | 0x107 => some (.cbcons w)
  | 0x108 => some (.cbwait w)
  | 0x109 => some (.sfill w)
  | 0x10A => some (.spush w)
  | 0x10B => some (.sbind w)
  | 0x10C => some (.codebk w)
  | 0x10D => some (.swz w)
  | 0x10E => some (.btlook w)
  | 0x10F => some (.btref w)
  | 0x110 => some (.btalloc w)
  | 0x111 => some (.btfree w)
  | 0x112 => some (.migr w)
  | 0x140 => some (.mma w)
  | 0x141 => some (.mmaz w)
  | 0x142 => some (.accz w)
  | 0x143 => some (.accld w)
  | 0x144 => some (.accst w)
  | 0x145 => some (.accmv w)
  | 0x146 => some (.acctest w)
  | 0x147 => some (.accclr w)
  | 0x148 => some (.fmtset w)
  | 0x149 => some (.fmtget w)
  | 0x14A => some (.bndset w)
  | 0x14B => some (.region w)
  | 0x14C => some (.normrd w)
  | 0x14D => some (.errinj w)
  | 0x181 => some (.brx w)
  | 0x183 => some (.ret w)
  | 0x184 => some (.exit w)
  | 0x185 => some (.join w)
  | 0x188 => some (.prio w)
  | 0x189 => some (.yield w)
  | 0x18A => some (.sleep w)
  | 0x18B => some (.nop w)
  | 0x18C => some (.bar w)
  | 0x18D => some (.bara w)
  | 0x18E => some (.barw w)
  | 0x18F => some (.barinit w)
  | 0x190 => some (.empty w)
  | 0x191 => some (.waitf w)
  | 0x1C0 => some (.rstv w)
  | 0x1C1 => some (.nameq w)
  | 0x1C2 => some (.coll w)
  | 0x1C3 => some (.collw w)
  | 0x1C4 => some (.swsize w)
  | 0x1C5 => some (.swbuild w)
  | 0x1C6 => some (.swsend w)
  | 0x1C7 => some (.swdiff w)
  | 0x1C8 => some (.swpeel w)
  | 0x1C9 => some (.swapply w)
  | 0x1E0 => some (.mfs w)
  | 0x1E1 => some (.mts w)
  | 0x1E2 => some (.trap w)
  | 0x1E3 => some (.bkpt w)
  | 0x1E4 => some (.signal w)
  | 0x1E5 => some (.time w)
  | 0x1E6 => some (.clock w)
  | 0x1E7 => some (.ptew w)
  | _ => none

/-- The M-form instruction of an opcode. -/
def ofM (op : Nat) (w : MWord) : Option Instr :=
  match op with
  | 0x0C0 => some (.ld w)
  | 0x0C1 => some (.st w)
  | 0x0C2 => some (.lds w)
  | 0x0C3 => some (.sts w)
  | 0x0C4 => some (.ldf w)
  | 0x0C5 => some (.stf w)
  | 0x0C6 => some (.sete w)
  | 0x0C7 => some (.setf w)
  | 0x0C8 => some (.atom w)
  | 0x0C9 => some (.atoms w)
  | 0x0CA => some (.pref w)
  | 0x0CB => some (.discard w)
  | 0x0CC => some (.lastuse w)
  | 0x0CD => some (.flushl w)
  | 0x0CE => some (.invl w)
  | _ => none

/-- The I-form instruction of an opcode. -/
def ofI (op : Nat) (w : IWord) : Option Instr :=
  match op with
  | 0x021 => some (.movi w)
  | 0x022 => some (.movhi w)
  | 0x05A => some (.fmovi w)
  | _ => none

/-- The B-form instruction of an opcode. -/
def ofB (op : Nat) (w : BWord) : Option Instr :=
  match op with
  | 0x180 => some (.bra w)
  | 0x182 => some (.call w)
  | 0x187 => some (.loop w)
  | _ => none

/-- The single word of an opcode, in the form the opcode fixes (R59, R79). -/
def ofSingle (w : DWord) : Option Instr :=
  let op := opField w
  if op = 0x186 then some (.rep (readRep w))
  else
    match ofI op (readI w) with
    | some i => some i
    | none =>
      match ofM op (readM w) with
      | some i => some i
      | none =>
        match ofB op (readB w) with
        | some i => some i
        | none => ofF op (readF w)

/-- Every word read into its fields: a pair word, a single word, or a word whose opcode is unassigned (R58, R78). -/
def decodeRaw (w : DWord) : Instr :=
  if unassigned w then .illegalOpcode w
  else if w.getLsbD 63 then .pairWord (w.getLsbD 62) (readSlot w 31) (readSlot w 0)
  else (ofSingle w).getD (.illegalOpcode w)

/-- Decoding: the instruction, or the decode trap the word takes (R62, R110). -/
def decode (w : DWord) : Except DecodeTrap Instr :=
  match wordTrap (decodeRaw w) with
  | some t => .error t
  | none => .ok (decodeRaw w)

/-! ### The encoder -/

def packF (op : BitVec 9) (f : FWord) : DWord :=
  (0#1 ++ op ++ BitVec.ofBool f.pn ++ f.pred ++ f.sa ++ f.sb ++ f.sc ++ f.d ++ f.t ++ f.mod : BitVec 64)

def packI (op : BitVec 9) (f : IWord) : DWord :=
  (0#1 ++ op ++ BitVec.ofBool f.pn ++ f.pred ++ f.imm ++ f.d ++ f.ty ++ f.rsv : BitVec 64)

def packM (op : BitVec 9) (f : MWord) : DWord :=
  (0#1 ++ op ++ BitVec.ofBool f.pn ++ f.pred ++ f.base ++ f.data ++ f.d ++ f.off ++ f.t ++ f.size ++ f.amode ++ f.hint
    : BitVec 64)

def packB (op : BitVec 9) (f : BWord) : DWord :=
  (0#1 ++ op ++ BitVec.ofBool f.pn ++ f.pred ++ f.val ++ f.woff ++ f.join ++ f.bop : BitVec 64)

def packRep (f : RepWord) : DWord :=
  (0#1 ++ 0x186#9 ++ BitVec.ofBool f.pn ++ f.pred ++ f.count ++ f.stepA ++ f.stepB ++ f.stepC ++ f.stepD ++ f.rsv
    : BitVec 64)

def packSlot (s : Slot) : BitVec 31 := (s.op7 ++ s.pred ++ s.sa ++ s.sb ++ s.t ++ s.mod3 : BitVec 31)

def packPair (rsv : Bool) (a b : Slot) : DWord :=
  (1#1 ++ BitVec.ofBool rsv ++ packSlot a ++ packSlot b : BitVec 64)

/-- The word of an instruction; an event of the table has none. -/
def encode (i : Instr) : Option DWord :=
  match i with
  | .add w => some (packF 0x001#9 w)
  | .sub w => some (packF 0x002#9 w)
  | .mul w => some (packF 0x003#9 w)
  | .mulhi w => some (packF 0x004#9 w)
  | .mad w => some (packF 0x005#9 w)
  | .madw w => some (packF 0x006#9 w)
  | .div w => some (packF 0x007#9 w)
  | .rem w => some (packF 0x008#9 w)
  | .min w => some (packF 0x009#9 w)
  | .max w => some (packF 0x00A#9 w)
  | .abs w => some (packF 0x00B#9 w)
  | .neg w => some (packF 0x00C#9 w)
  | .and w => some (packF 0x00D#9 w)
  | .or w => some (packF 0x00E#9 w)
  | .xor w => some (packF 0x00F#9 w)
  | .andn w => some (packF 0x010#9 w)
  | .not w => some (packF 0x011#9 w)
  | .shl w => some (packF 0x012#9 w)
  | .shr w => some (packF 0x013#9 w)
  | .sar w => some (packF 0x014#9 w)
  | .rotl w => some (packF 0x015#9 w)
  | .clz w => some (packF 0x016#9 w)
  | .popc w => some (packF 0x017#9 w)
  | .brev w => some (packF 0x018#9 w)
  | .bfx w => some (packF 0x019#9 w)
  | .bfi w => some (packF 0x01A#9 w)
  | .sel w => some (packF 0x01B#9 w)
  | .iset w => some (packF 0x01C#9 w)
  | .lea w => some (packF 0x01D#9 w)
  | .addc w => some (packF 0x01E#9 w)
  | .subb w => some (packF 0x01F#9 w)
  | .mov w => some (packF 0x020#9 w)
  | .movi w => some (packI 0x021#9 w)
  | .movhi w => some (packI 0x022#9 w)
  | .dup w => some (packF 0x023#9 w)
  | .plop w => some (packF 0x024#9 w)
  | .pmov w => some (packF 0x025#9 w)
  | .sad w => some (packF 0x026#9 w)
  | .dot4 w => some (packF 0x027#9 w)
  | .bperm w => some (packF 0x028#9 w)
  | .fadd w => some (packF 0x040#9 w)
  | .fsub w => some (packF 0x041#9 w)
  | .fmul w => some (packF 0x042#9 w)
  | .ffma w => some (packF 0x043#9 w)
  | .ffms w => some (packF 0x044#9 w)
  | .fmin w => some (packF 0x045#9 w)
  | .fmax w => some (packF 0x046#9 w)
  | .fabs w => some (packF 0x047#9 w)
  | .fneg w => some (packF 0x048#9 w)
  | .fset w => some (packF 0x049#9 w)
  | .fclamp w => some (packF 0x04A#9 w)
  | .frnd w => some (packF 0x04B#9 w)
  | .frcp w => some (packF 0x04C#9 w)
  | .frsq w => some (packF 0x04D#9 w)
  | .fsqrt w => some (packF 0x04E#9 w)
  | .fdiv w => some (packF 0x04F#9 w)
  | .fexp2 w => some (packF 0x050#9 w)
  | .flog2 w => some (packF 0x051#9 w)
  | .fsin w => some (packF 0x052#9 w)
  | .fcos w => some (packF 0x053#9 w)
  | .ftanh w => some (packF 0x054#9 w)
  | .fsigm w => some (packF 0x055#9 w)
  | .fscale w => some (packF 0x056#9 w)
  | .fgetexp w => some (packF 0x057#9 w)
  | .fclass w => some (packF 0x058#9 w)
  | .fdot2 w => some (packF 0x059#9 w)
  | .fmovi w => some (packI 0x05A#9 w)
  | .cvt w => some (packF 0x080#9 w)
  | .qcvt w => some (packF 0x081#9 w)
  | .qpack w => some (packF 0x082#9 w)
  | .qunpack w => some (packF 0x083#9 w)
  | .scalegen w => some (packF 0x084#9 w)
  | .amax w => some (packF 0x085#9 w)
  | .shfl w => some (packF 0x086#9 w)
  | .shflx w => some (packF 0x087#9 w)
  | .shflup w => some (packF 0x088#9 w)
  | .shfldn w => some (packF 0x089#9 w)
  | .bcast w => some (packF 0x08A#9 w)
  | .vote w => some (packF 0x08B#9 w)
  | .redux w => some (packF 0x08C#9 w)
  | .pscan w => some (packF 0x08D#9 w)
  | .matchLanes w => some (packF 0x08E#9 w)
  | .ld w => some (packM 0x0C0#9 w)
  | .st w => some (packM 0x0C1#9 w)
  | .lds w => some (packM 0x0C2#9 w)
  | .sts w => some (packM 0x0C3#9 w)
  | .ldf w => some (packM 0x0C4#9 w)
  | .stf w => some (packM 0x0C5#9 w)
  | .sete w => some (packM 0x0C6#9 w)
  | .setf w => some (packM 0x0C7#9 w)
  | .atom w => some (packM 0x0C8#9 w)
  | .atoms w => some (packM 0x0C9#9 w)
  | .pref w => some (packM 0x0CA#9 w)
  | .discard w => some (packM 0x0CB#9 w)
  | .lastuse w => some (packM 0x0CC#9 w)
  | .flushl w => some (packM 0x0CD#9 w)
  | .invl w => some (packM 0x0CE#9 w)
  | .fence w => some (packF 0x0CF#9 w)
  | .qfence w => some (packF 0x0D0#9 w)
  | .chain w => some (packF 0x100#9 w)
  | .cpy w => some (packF 0x101#9 w)
  | .sealBatch w => some (packF 0x102#9 w)
  | .waitb w => some (packF 0x103#9 w)
  | .bstat w => some (packF 0x104#9 w)
  | .cbdef w => some (packF 0x105#9 w)
  | .cbprod w => some (packF 0x106#9 w)
  | .cbcons w => some (packF 0x107#9 w)
  | .cbwait w => some (packF 0x108#9 w)
  | .sfill w => some (packF 0x109#9 w)
  | .spush w => some (packF 0x10A#9 w)
  | .sbind w => some (packF 0x10B#9 w)
  | .codebk w => some (packF 0x10C#9 w)
  | .swz w => some (packF 0x10D#9 w)
  | .btlook w => some (packF 0x10E#9 w)
  | .btref w => some (packF 0x10F#9 w)
  | .btalloc w => some (packF 0x110#9 w)
  | .btfree w => some (packF 0x111#9 w)
  | .migr w => some (packF 0x112#9 w)
  | .mma w => some (packF 0x140#9 w)
  | .mmaz w => some (packF 0x141#9 w)
  | .accz w => some (packF 0x142#9 w)
  | .accld w => some (packF 0x143#9 w)
  | .accst w => some (packF 0x144#9 w)
  | .accmv w => some (packF 0x145#9 w)
  | .acctest w => some (packF 0x146#9 w)
  | .accclr w => some (packF 0x147#9 w)
  | .fmtset w => some (packF 0x148#9 w)
  | .fmtget w => some (packF 0x149#9 w)
  | .bndset w => some (packF 0x14A#9 w)
  | .region w => some (packF 0x14B#9 w)
  | .normrd w => some (packF 0x14C#9 w)
  | .errinj w => some (packF 0x14D#9 w)
  | .bra w => some (packB 0x180#9 w)
  | .brx w => some (packF 0x181#9 w)
  | .call w => some (packB 0x182#9 w)
  | .ret w => some (packF 0x183#9 w)
  | .exit w => some (packF 0x184#9 w)
  | .join w => some (packF 0x185#9 w)
  | .rep w => some (packRep w)
  | .loop w => some (packB 0x187#9 w)
  | .nop w => some (packF 0x18B#9 w)
  | .prio w => some (packF 0x188#9 w)
  | .yield w => some (packF 0x189#9 w)
  | .sleep w => some (packF 0x18A#9 w)
  | .bar w => some (packF 0x18C#9 w)
  | .bara w => some (packF 0x18D#9 w)
  | .barw w => some (packF 0x18E#9 w)
  | .barinit w => some (packF 0x18F#9 w)
  | .empty w => some (packF 0x190#9 w)
  | .waitf w => some (packF 0x191#9 w)
  | .rstv w => some (packF 0x1C0#9 w)
  | .nameq w => some (packF 0x1C1#9 w)
  | .coll w => some (packF 0x1C2#9 w)
  | .collw w => some (packF 0x1C3#9 w)
  | .swsize w => some (packF 0x1C4#9 w)
  | .swbuild w => some (packF 0x1C5#9 w)
  | .swsend w => some (packF 0x1C6#9 w)
  | .swdiff w => some (packF 0x1C7#9 w)
  | .swpeel w => some (packF 0x1C8#9 w)
  | .swapply w => some (packF 0x1C9#9 w)
  | .mfs w => some (packF 0x1E0#9 w)
  | .mts w => some (packF 0x1E1#9 w)
  | .trap w => some (packF 0x1E2#9 w)
  | .bkpt w => some (packF 0x1E3#9 w)
  | .signal w => some (packF 0x1E4#9 w)
  | .time w => some (packF 0x1E5#9 w)
  | .clock w => some (packF 0x1E6#9 w)
  | .ptew w => some (packF 0x1E7#9 w)
  | .pairWord rsv a b => some (packPair rsv a b)
  | .illegalOpcode w => some w
  | _ => none

/-- What the decoder reads from an instruction whose low bits are w: the 64-bit word of the spec (R58), bits above nbits
zero. -/
def decodeTableWord (nbits w : Nat) : Option Instr :=
  match decode (BitVec.ofNat 64 (w % 2 ^ nbits)) with
  | .ok i => some i
  | .error _ => none



end Sys2Proof
end

