-- ==== Sys2Proof/Machine/Home.lean ====
section
/-! DEFINITION. Translation at the home of a line, with its translation cache, leases and accessed and dirty bits (R425 to
R429), and the fetch of instruction words through it (R58, R82, R422). -/

namespace Sys2Proof.Machine

/-- A field of n bytes at an offset, least significant byte first. -/
def fieldOf (b : List Byte) (off n : Nat) : Nat := ofBytes ((b.drop off).take n)

/-! ### The home of a line (R8, R133, R451, R464) -/

def stacksOf (r : MapRegion) : List Nat := (List.range 16).filter (fun i => bitOf r.stackSet i)

/-- The die that homes an address under a region table: near dies 0 to 3, far dies 4 and 5. Granule g of an HBM region lies on
the selected stack of rank g mod S. -/
def homeIn (l : List MapRegion) (ia : Nat) : Option Nat :=
  match l.find? (fun r => r.base ≤ ia && ia < r.limit) with
  | none => none
  | some r =>
    match r.kind with
    | 0 => ((stacksOf r)[(ia - r.base) / 4096 % (stacksOf r).length]?).map (· / 4)
    | 3 => some (4 + r.port / 2)
    | k => some (3 + k)

/-- The one home of a line of a device (R133). -/
def homeDie (s : State) (dev ia : Nat) : Option Nat := homeIn (s.dev dev).regions ia

/-- A line whose new home still waits for drain markers: it holds the requests of the new generation (R157). -/
def movedHeld (s : State) (dev ia : Nat) : Bool :=
  let d := s.dev dev
  !d.markers.isEmpty && homeIn d.oldRegions ia != homeIn d.regions ia

/-- The granule of an address is being copied to a new home (R457): the new table of the MOVE, and its region and granule. -/
def granuleMoving (s : State) (dev ia : Nat) : Bool :=
  match (s.dev dev).move with
  | none => false
  | some (l, r, g, _) => homeIn l ia != homeIn (s.dev dev).regions ia && (l[r]?).any (fun q => (q.base + 4096 * g) / 4096 == ia / 4096)

/-- The home of an address is in a power state, or entering one: requests wait until it is ACTIVE again (R475). -/
def homeSleeps (s : State) (dev ia : Nat) : Bool := ((homeDie s dev ia).map (fun h => (s.die h).pstate != 0)).getD false

/-- A request to an address may not be performed yet: its home sleeps, or waits for drain markers (R157, R475); a write also waits
for a migration of its page and for a MOVE of its granule (R226, R457). -/
def iaHeld (s : State) (dev : Nat) (write : Bool) (ia : Nat) : Bool :=
  homeSleeps s dev ia || movedHeld s dev ia || (write && (granuleMoving s dev ia || (migratingPage s dev ia).isSome))

/-- The next word of a strand has a home that does not answer yet (R157, R475). -/
def fetchHeld (s : State) (cx : Ctx) (pc : Nat) : Bool :=
  match findRange cx pc with
  | some (_, r) => !(rrPod r) && iaHeld s cx.dev false (rangeIa r pc)
  | none => false

/-- A line of another die brought into a near die's remote-data cache for a class (R133, R434); the home drops it at the next write
of the line (R135). -/
def fillRdc (die dev ia key cls : Nat) (nc : Bool) (s : State) : State :=
  s.fill (if nc || homeDie s dev ia == some die then none else (homeDie s dev ia).map (fun _ => die)) true (key / 128) cls

/-- A line brought into its home's L2 for a class (R8, R434). -/
def fillHome (dev ia key cls : Nat) (s : State) : State := s.fill (homeDie s dev ia) false (key / 128) cls

/-! ### Region tables (R464) -/

/-- The bytes of the staging area. -/
def stageBytes (d : Dev) : List Byte := (List.range 1024).flatMap (fun i => toBytes 8 (Tab.getD d.mapStage 0#64 i).toNat)

/-- Entry i of the staging area, with whether its reserved bits are zero. -/
def stageEntry (b : List Byte) (i : Nat) : MapRegion × Bool :=
  let n := fun (off k : Nat) => fieldOf b (32 * i + off) k
  ({ base := n 0 8, limit := n 8 8, kind := n 16 1 % 4, port := n 17 1 % 4, stackSet := n 18 2, pbase := n 24 8 },
   n 16 1 < 4 && n 17 1 < 4 && n 20 4 == 0)

/-- The entries up to the first whose LIMIT is zero. -/
def stageEntries (b : List Byte) : List (MapRegion × Bool) :=
  ((List.range 256).map (stageEntry b)).takeWhile (fun e => e.1.limit != 0)

/-- Stack k of near die d can home lines of a device. -/
def stackUp (s : State) (dev d k : Nat) : Bool :=
  (s.die d).fence == .none && (s.die d).stackPass.getLsbD k && devOfDie s.mode d == dev

/-- A far die belongs to a device (R14). -/
def farOfDev (m : Mode) (dev f : Nat) : Bool :=
  match m with
  | .one => true
  | .two => dev == f
  | .four => dev / 2 == f

/-- A CXL port belongs to a device (R14, R464). -/
def portOfDev (m : Mode) (dev p : Nat) : Bool :=
  match m with
  | .one => true
  | .two => dev == p / 2
  | .four => dev == p

/-- The application carve-out's share of far die f: half of it, or all where the other far die is fenced (R9, R450). -/
def carveShare (s : State) (f : Nat) : Nat :=
  if (s.die (4 + f)).fence != .none then 0
  else if (s.die (5 - f)).fence != .none then s.carveOut else s.carveOut / 2

/-- The part of far die f's LPDDR-6 that a device's map may use: in mode FOUR the lower eight channels for the device on the
lower near die and the upper eight for the other (R14); never the carve-out, at the top of the die (R9; DESIGN CHOICE,
notes/assumptions/60.md). -/
def farPart (s : State) (dev f : Nat) : Nat × Nat :=
  let top := 2 ^ 40 - carveShare s f
  match s.mode with
  | .four => if dev % 2 = 0 then (0, min (2 ^ 39) top) else (2 ^ 39, top)
  | _ => (0, top)

/-- The homes of a region exist, belong to the device, and hold it: a stack holds 64 GiB; a far die's part is that of farPart;
CXL memory is as large as it was found at boot (R10, R14, R464). -/
def regionHomed (s : State) (dev : Nat) (r : MapRegion) : Bool :=
  let size := r.limit - r.base
  match r.kind with
  | 0 =>
    let l := stacksOf r
    !l.isEmpty && l.all (fun i => stackUp s dev (i / 4) (i % 4))
      && r.pbase + (size / 4096 + l.length - 1) / l.length * 4096 ≤ 2 ^ 36
  | 3 =>
    r.stackSet == 0 && portOfDev s.mode dev r.port && (s.die (4 + r.port / 2)).fence == .none
      && r.pbase + size ≤ Tab.getD s.cxl 0 r.port
  | k =>
    r.stackSet == 0 && farOfDev s.mode dev (k - 1) && (s.die (3 + k)).fence == .none
      && (farPart s dev (k - 1)).1 ≤ r.pbase && r.pbase + size ≤ (farPart s dev (k - 1)).2

/-- The regions are 2 MiB aligned, in rising order, and apart. -/
def regionsOrdered (l : List MapRegion) : Bool :=
  l.all (fun r => r.base % 2 ^ 21 == 0 && r.limit % 2 ^ 21 == 0 && r.pbase % 2 ^ 21 == 0 && r.base < r.limit)
    && (l.zip (l.drop 1)).all (fun e => e.1.limit ≤ e.2.base)

/-- 8-byte words of a byte list by index. -/
def wordsTab (l : List Byte) : Tab DWord :=
  (List.range ((l.length + 7) / 8)).map (fun i => (i, BitVec.ofNat 64 (ofBytes ((l.drop (8 * i)).take 8))))

/-- A planned region on every surviving stack of its device, where it lies in HBM (R14, R451). -/
def onStacks (s : State) (dev : Nat) (r : MapRegion) : MapRegion :=
  if r.kind = 0 then
    { r with stackSet := ((List.range 16).filter (fun i => stackUp s dev (i / 4) (i % 4))).foldl (fun a i => a + 2 ^ i) 0 }
  else r

/-- A region as an entry of the staging area. -/
def MapRegion.bytes (r : MapRegion) : List Byte :=
  toBytes 8 r.base ++ toBytes 8 r.limit ++ toBytes 1 r.kind ++ toBytes 1 r.port ++ toBytes 2 r.stackSet ++ toBytes 4 0 ++ toBytes 8 r.pbase

/-- The map planned at boot for the mode and a bank comes into force: of the plan, the regions that have their homes; the staging
area shows the table in force (R14, R464, R470). -/
def loadPlan (s : State) (dev : Nat) : State :=
  let b := Tab.getD s.plans [] (4 * s.mode.code + dev)
  let l := ((stageEntries (b ++ List.replicate 8192 0#8)).map (fun e => onStacks s dev e.1)).filter (regionHomed s dev)
  let used := if regionsOrdered l then l else []
  s.modDev dev (fun d => { d with mapStage := wordsTab (used.flatMap MapRegion.bytes), regions := used })

/-! ### The home's translation (R425, R427, R429) -/

/-- What an access asks of the home's walker: device, intermediate address, whether it is a write (R427), which entry of a
disagreeing run applies (R426), the owners that pass, and the tenant class of its fills (R434). -/
structure XReq where
  dev   : Nat
  ia    : Nat
  write : Bool
  pick  : Bool
  owner : Nat → Bool
  cls   : Nat := 0

/-- The answer: the physical key of the byte with the leaf entry, or a code with the bytes 40 to 43 of its record. -/
inductive XRes where
  | ok (key : Nat) (entry : DWord)
  | fault (code info : Nat)
  deriving DecidableEq, Repr

/-- The checks on a sound leaf: write permission, then the owner (R425). -/
def leafFault (r : XReq) (e : DWord) : Option XRes :=
  if r.write && !pteWr e then some (.fault cPageFault (szLevel (pteSz e) + 4 * 2))
  else if !(r.owner (pteOwner e)) then some (.fault cOwnerFault 0)
  else none

/-- A translation kept until its lease ends (R429). -/
def State.cacheLeaf (s : State) (r : XReq) (e : DWord) (key pa expiry : Nat) : State :=
  s.modDev r.dev (fun d => { d with
    tlb := Tab.put d.tlb (r.ia / 4096) { entry := e, key := key, page := pa / 4096 * 4096, expiry := expiry } })

/-- The physical addresses of the entries that a walk reads from a level's table down. -/
def pathFrom (s : State) (dev ia : Nat) : Nat → Nat → List Nat
  | level, tbl =>
    let at_ := tbl + 8 * (ia / levelBytes level % 512)
    let e := readPte s dev at_
    at_ :: (if !pteV e || pteLeaf e then []
      else match level with
        | 0 => []
        | n + 1 => pathFrom s dev ia n (ptePa e))

/-- The walker reads the levels of a walk at the homes of their lines, in the firmware's class (R425, R434). -/
def walkerFills (dev ia : Nat) (s : State) : State :=
  let root := (s.dev dev).ptroot
  (if root.getLsbD 0 then pathFrom s dev ia 3 (bitsOf root.toNat 12 32 * 4096) else []).foldl
    (fun acc pa => acc.fill (Config.nearHome dev pa) false (physKey dev pa / 128) 0) s

/-- A translated access reaches its line: in L2 from now on, under the page's key slot (R8, R433, R434). -/
def reach (r : XReq) (e : DWord) (key : Nat) (s : State) : State :=
  fillHome r.dev r.ia key r.cls (s.takeKey (pteKey e) key 1)

/-- Translation by a walk from the root, A and D set at the entry's home (R425, R427). -/
def walkXlate (r : XReq) (s : State) : State × XRes :=
  match walk s r.dev r.ia r.pick with
  | .fault level reason => (s, .fault cPageFault (level + 4 * reason))
  | .leaf e _ key pa =>
    match leafFault r e with
    | some f => (s, f)
    | none =>
      let e2 := markPte r.write e
      let s0 := walkerFills r.dev r.ia s
      let s1 := if e2 = e then s0 else s0.setPte key e2
      (reach r e2 (physKey r.dev pa) (s1.cacheLeaf r e2 key pa (s.aon + 1000 * (s.dev r.dev).lease)), .ok (physKey r.dev pa) e2)

/-- Translation at the home: through a cached translation within its lease, whose first write sets D by a
compare-and-swap and walks again when the entry has changed; else by a walk. -/
def homeXlate (r : XReq) (s : State) : State × XRes :=
  match Tab.find (s.dev r.dev).tlb (r.ia / 4096) with
  | none => walkXlate r s
  | some t =>
    if t.expiry ≤ s.aon then walkXlate r s
    else match leafFault r t.entry with
      | some f => (s, f)
      | none =>
        let pa := t.page + r.ia % 4096
        if r.write && !pteD t.entry then
          if s.memNum t.key 8 = t.entry.toNat then
            let e2 := markPte true t.entry
            (reach r e2 (physKey r.dev pa) ((s.setPte t.key e2).cacheLeaf r e2 t.key pa t.expiry), .ok (physKey r.dev pa) e2)
          else walkXlate r s
        else (reach r t.entry (physKey r.dev pa) s, .ok (physKey r.dev pa) t.entry)

/-- The owners a context's own requests pass (R425). -/
def ctxOwner (cx : Ctx) (o : Nat) : Bool := cx.owners.contains o

/-! ### Fetch -/

/-- The code range that holds an address, with its index (R422). -/
def codeRange (cx : Ctx) (pc : Nat) : Option (Nat × RangeReg) :=
  match findRange cx pc with
  | some (i, r) => if rrX r && !rrPod r then some (i, r) else none
  | none => none

/-- The word at a PC: fetched, or FETCH_FAULT (R82). -/
def fetchWord (cx : Ctx) (pc : DWord) (s : State) : State × Except Trap DWord :=
  match codeRange cx pc.toNat with
  | none => (s, .error { code := cFetchFault })
  | some (_, r) =>
    let ia := rangeIa r pc.toNat
    let t : Trap := { code := cFetchFault, ia := ia }
    if pc.toNat % 8 != 0 || 2 ^ 48 ≤ ia then (s, .error t)
    else match homeXlate { dev := cx.dev, ia := ia, write := false, pick := false, owner := ctxOwner cx, cls := cx.tclass } s with
      | (s1, .fault _ _) => (s1, .error t)
      | (s1, .ok key _) =>
        if s1.poisoned key 8 then (s1, .error t) else (s1, .ok (BitVec.ofNat 64 (s1.memNum key 8)))

/-- The trap a word takes at decode (R62, R110). -/
def trapOfDecode (t : DecodeTrap) : Trap :=
  match t with
  | .illegalOpcode => { code := cIllegalOpcode }
  | .illegalEncoding => { code := cIllegalEncoding }
  | .illegalOperand => { code := cIllegalOperand }

/-- A word that traps whatever its operands. -/
def trapWord (t : Trap) (s : State) : Out := issueWord (fun _ _ => .trap t) (fun _ u => u) s

end Sys2Proof.Machine
end

