-- ==== Sys2Proof/Machine/Strands.lean ====
section
/-! DEFINITION. How a course splits into strands and joins again (R26 to R36, R83, R91), the arrival of a course at a
barrier (R400, R401, R404), and the end of strands, courses and teams (R26, R89, R90). -/

namespace Sys2Proof.Machine

/-! ### Barriers -/

/-- The key of a barrier in a course's arrival state (R392). -/
def BarRef.key : BarRef → Nat
  | .lane => 52
  | .core i => i
  | .panel i => 32 + i
  | .pod i => 48 + i

/-- The barrier a course names. -/
def barOf (s : State) (c : Nat) (b : BarRef) : Barrier :=
  match b with
  | .lane => {}
  | .core i => vget (s.core (coreOf c)).bars {} (((s.team (s.courseD c).team).map Team.bar0).getD 0 + i)
  | .panel i =>
    match (s.team (s.courseD c).team).bind Team.panel with
    | some p => ((Tab.find s.panels p).map (fun x => vget x.bars {} i)).getD {}
    | none => {}
  | .pod i => (vget s.podBars {} i).bar

def setBar (s : State) (c : Nat) (b : BarRef) (x : Barrier) : State :=
  match b with
  | .lane => s
  | .core i =>
    s.modCore (coreOf c) (fun k => { k with bars := vset k.bars (((s.team (s.courseD c).team).map Team.bar0).getD 0 + i) x })
  | .panel i =>
    match (s.team (s.courseD c).team).bind Team.panel with
    | some p => { s with panels := Tab.upd s.panels p (fun y => { y with bars := vset y.bars i x }) }
    | none => s
  | .pod i => { s with podBars := vset s.podBars i { vget s.podBars {} i with bar := x } }

/-- A course's pending arrival: it arrived in the barrier's current phase (R400). -/
def pendingAt (s : State) (c : Nat) (b : BarRef) : Bool :=
  Tab.find (s.courseD c).arr b.key == some (barOf s c b).phase && b != .lane

/-- complete(b) of R401: the count in force for the new phase is found first, then every drop owed is applied (R404). -/
def Barrier.complete (b : Barrier) : Barrier :=
  { phase := (b.phase + 1) % 2 ^ 15, arrivals := 0, expected := b.nextExp.getD b.expected - b.drops }

/-- A release of a course: its region ends (R147, R148). -/
def State.release (s : State) (c : Nat) : State :=
  s.modCourse c (fun co => { co with relCount := co.relCount + 1, readLog := [] })

/-- The trap of a release: the failure of a remote write it covers (R234), then the course's 2^48th release (R147). -/
def Course.releaseTrap (co : Course) : Option Trap :=
  match co.remoteFail with
  | some (code, _) => some { code := code, remote := true }
  | none => if co.relCount ≥ 2 ^ 48 - 1 then some { code := cReleaseLimit } else none

def releaseLimit (x : At) : Verdict :=
  match x.co.releaseTrap with
  | some t => .trap t
  | none => .go

/-- A course's arrival (R401): a release, then the arrival counted. -/
def arriveBarrier (s : State) (c : Nat) (b : BarRef) : State :=
  let s1 := s.release c
  match b with
  | .lane => s1
  | _ =>
    let x := barOf s1 c b
    let s2 := s1.modCourse c (fun co => { co with arr := Tab.put co.arr b.key x.phase })
    let y := { x with arrivals := x.arrivals + 1 }
    setBar s2 c b (if y.expected ≤ y.arrivals then y.complete else y)

/-- A drop of one in a barrier's expected count when a course ends (R404). -/
def dropBarrier (pending : Bool) (b : Barrier) : Barrier :=
  if pending then { b with drops := b.drops + 1 }
  else
    let y := { b with expected := b.expected - 1, nextExp := b.nextExp.map (· - 1) }
    if y.expected ≤ y.arrivals then y.complete else y

/-! ### Merging (R32 to R36) -/

/-- The live strands that merge at a PC with a call depth (R32). -/
def mergers (co : Course) (pc : DWord) (depth : Nat) : List Nat :=
  co.liveStrands.filter (fun i =>
    let x := co.strand i
    x.pc == pc && x.depth == depth && x.dstack.isEmpty && x.repi == 0)

/-- The strand of a list that owns a lane. -/
def ownerOf (co : Course) (l : List Nat) (lane : Nat) : Nat :=
  (l.find? (fun i => (co.strand i).mask.getLsbD lane)).getD (l.head?.getD 0)

def unionMask (co : Course) (l : List Nat) : Mask := l.foldl (fun m i => m ||| (co.strand i).mask) 0#32

/-- The g registers whose copies differ among merging strands (R34). R34 speaks of values only. DESIGN CHOICE
(notes/assumptions/18.md): copies of equal data of which one is empty, or which await different arrivals, differ as well;
poison is not compared. -/
def conflicts (co : Course) (l : List Nat) : Mask :=
  maskOf (fun n =>
    let g0 := vget (co.strand (l.head?.getD 0)).g {} n
    l.any (fun i =>
      let g := vget (co.strand i).g {} n
      g.val != g0.val || g.full != g0.full || g.await != g0.await))

/-- What a merged strand waits for: at a JOIN word since the first arrival. DESIGN CHOICE (notes/assumptions/18.md), where R34 is
silent: a sleep or a yield in which one of the strands stands goes on for all the lanes. -/
def mergedWait (co : Course) (l : List Nat) : Wait :=
  l.foldl (fun w i =>
    match w, (co.strand i).wait with
    | .joinWord a k, .joinWord b _ => .joinWord (min a b) k
    | w, .joinAddr _ => w
    | .none, x => x
    | w, _ => w) .none

/-- The merged strand's state (R34). DESIGN CHOICE (notes/assumptions/18.md), where R34 is silent: level, age count and
ready_since are those of the strand of the lowest slot. -/
def mergeStrands (co : Course) (l : List Nat) : Course :=
  let slot := l.head?.getD 0
  let mask := unionMask co l
  let low := ownerOf co l ((lowLane mask).getD 0)
  let base := co.strand slot
  let merged : Strand := { base with
    mask := mask
    join := none
    dstack := []
    q := vmapIdx (fun lane _ => vget (co.strand (ownerOf co l lane)).q (vconst 16 {}) lane) base.q
    g := (co.strand low).g
    wait := mergedWait co l
    mark := if l.all (fun i => (co.strand i).mark == base.mark) then base.mark else none
    inBar := if l.all (fun i => (co.strand i).inBar == base.inBar) then base.inBar else none }
  let cm := conflicts co l
  let co1 := { co with strands := vmapIdx (fun i (x : Strand) =>
    if i = slot then merged else if l.contains i then { x with live := false, mask := 0#32 } else x) co.strands }
  if cm = 0#32 then co1 else { co1 with uconflict := true, ucidx := (lowLane cm).getD 0 }

/-- The record of UNIFORM_CONFLICT (R36). -/
def uniformTrap (co : Course) (l : List Nat) : Trap :=
  let low := ownerOf co l ((lowLane (unionMask co l)).getD 0)
  { code := cUniformConflict
    cls := cls4 (conflicts co l).toNat (co.strand low).mask.toNat (unionMask co (l.filter (· != low))).toNat 0 }

/-- The merge test at a strand's PC (R32, R36): the strands that meet become one, or the course stops. -/
def mergeAt (c st : Nat) (s : State) : State :=
  let co := s.courseD c
  let x := co.strand st
  let l := mergers co x.pc x.depth
  if !(l.contains st) || l.length < 2 then s
  else if co.strict && conflicts co l != 0#32 then takeTrap c st (uniformTrap co l) s
  else s.modCourse c (fun y => mergeStrands y l)

/-! ### Arriving at an address (R28, R33) -/

/-- The deferral rule of R28, as long as the strand stands at the join address of its top entry. -/
def deferralGo : Nat → Strand → Strand
  | 0, x => x
  | fuel + 1, x =>
    match x.dstack with
    | [] => x
    | e :: t =>
      if e.join != x.pc then x
      else if e.phase2 then deferralGo fuel { x with mask := x.mask ||| e.parked, dstack := t }
      else deferralGo fuel { x with
        mask := e.mask, pc := e.addr, dstack := { e with parked := x.mask, phase2 := true } :: t }

/-- What happens when a strand's PC has changed: deferral entries, merging, and the wait at its recorded join address. -/
def arriveAt (c st : Nat) (s : State) : State :=
  let s1 := s.modStrand c st (deferralGo 12)
  let s2 := mergeAt c st s1
  let x := (s2.courseD c).strand st
  if x.live && x.join == some x.pc && x.wait == .none then
    s2.modStrand c st (fun y => { y with wait := .joinAddr (s2.clockOf c) })
  else s2

/-- A strand sent on to an address. -/
def moveTo (c st : Nat) (pc : DWord) (s : State) : State :=
  arriveAt c st (s.modStrand c st (fun y => { y with pc := pc }))

/-! ### Barrier arrivals and JOIN releases of a course -/

/-- The barrier at which every live strand of a course is marked (R401). -/
def markedAll (co : Course) : Option BarRef :=
  match co.liveStrands with
  | [] => none
  | i :: t =>
    match (co.strand i).mark with
    | none => none
    | some (b, _) => if t.all (fun j => ((co.strand j).mark.map Prod.fst) == some b) then some b else none

/-- A marked strand that executed BAR, and so waits in it after the arrival. -/
def waitsInBar (b : BarRef) (y : Strand) : Bool := (y.mark.map Prod.snd).getD false && b != .lane

/-- A marked strand once its course has arrived: it waits in its BAR, or goes on at the next word (R401). -/
def Strand.passBarrier (b : BarRef) (y : Strand) : Strand :=
  if !y.live then y
  else if waitsInBar b y then { y with mark := none, inBar := some b }
  else { y with mark := none, pc := y.pc + 8#64 }

/-- The arrival of a strand that an earlier merge may have ended. -/
def arriveLive (c st : Nat) (s : State) : State := if ((s.courseD c).strand st).live then arriveAt c st s else s

/-- The lanes of a course's live strands. -/
def liveMask (co : Course) : Mask := co.liveStrands.foldl (fun m i => m ||| (co.strand i).mask) 0#32

/-- The scope of the release that an arrival makes (R139, R399). -/
def barScope (b : BarRef) : Nat :=
  match b with
  | .lane => 0
  | .core _ => 1
  | .panel _ => 4
  | .pod _ => 5

/-- The course's arrival, once every live strand is marked and what its release covers has been performed (R401, R140). -/
def barCheck (c : Nat) (s : State) : State :=
  let co := s.courseD c
  match markedAll co with
  | none => s
  | some b =>
    if s.pendingAcc c (liveMask co) (barScope b) || co.cstate != .run then s
    else match co.releaseTrap, co.liveStrands with
    | some t, i :: _ =>
      takeTrap c i t (co.liveStrands.foldl (fun acc j => acc.modStrand c j (fun y => { y with mark := none })) s)
    | _, _ =>
      let s1 := arriveBarrier s c b
      let s2 := s1.modCourse c (fun y => { y with strands := vmap (Strand.passBarrier b) y.strands })
      co.liveStrands.foldl (fun acc i => if waitsInBar b (co.strand i) then acc else arriveLive c i acc) s2

/-- A strand that waits at a JOIN word as the only live strand of its course goes on (R91). -/
def joinCheck (c : Nat) (s : State) : State :=
  let co := s.courseD c
  match co.liveStrands with
  | [i] =>
    match (co.strand i).wait with
    | .joinWord _ _ => moveTo c i ((co.strand i).pc + 8#64) (s.modStrand c i (fun y => { y with wait := .none }))
    | _ => s
  | _ => s

def tidy (c : Nat) (s : State) : State := joinCheck c (barCheck c s)

/-! ### Divergence (R83) -/

/-- One group of lanes on its way to an address, with the call depth it goes with. -/
structure Group where
  mask  : Mask
  addr  : DWord
  depth : Nat
  deriving DecidableEq, Repr

/-- A group put before the first whose lowest lane is higher. -/
def placeGroup (g : Group) : List Group → List Group
  | [] => [g]
  | h :: t => if (lowLane g.mask).getD 32 ≤ (lowLane h.mask).getD 32 then g :: h :: t else h :: placeGroup g t

/-- The groups with lanes, group 0 first, the others by lowest lane. -/
def orderGroups (l : List Group) : List Group :=
  match l.filter (fun g => g.mask != 0#32) with
  | [] => []
  | g :: t => g :: t.foldr placeGroup []

/-- How many of the groups beyond the first must be deferred. -/
def spillOf (co : Course) (n : Nat) : Nat := (n - 1) - (4 - co.liveStrands.length)

/-- DIVERGENCE_OVERFLOW (R29, R61, R83). -/
def divergeTrap (x : At) (gs : List Group) (join : Option DWord) : Verdict :=
  let spill := spillOf x.co (orderGroups gs).length
  Verdict.trapIf (spill > 0 && (join.isNone || x.sd.dstack.length + spill > 4)) { code := cDivergenceOverflow }

/-- A new strand of a split (R27). -/
def newStrand (sd : Strand) (g : Group) (join : Option DWord) (now : Nat) : Strand :=
  { live := true, pc := g.addr, mask := g.mask, join := join, depth := g.depth, q := sd.q, g := sd.g, readySince := now }

/-- The groups after the first placed in the free slots. -/
def placeGroups (sd : Strand) (join : Option DWord) (now : Nat) : List Group → List Nat → Course → Course
  | g :: gs, i :: is, co =>
    placeGroups sd join now gs is { co with strands := vset co.strands i (newStrand sd g join now) }
  | _, _, co => co

/-- diverge of R83, for groups that do not overflow. -/
def diverge (x : At) (gs : List Group) (join : Option DWord) (s : State) : State :=
  match orderGroups gs with
  | [] => s
  | g0 :: rest =>
    let spill := spillOf x.co (rest.length + 1)
    let split := rest.take (rest.length - spill)
    let defer := rest.drop (rest.length - spill)
    let free := (List.range 4).filter (fun i => !(x.co.strand i).live)
    let now := s.clockOf x.c
    let entries := defer.map (fun g => ({ join := join.getD 0#64, addr := g.addr, mask := g.mask } : Defer))
    let s1 := s.modCourse x.c (fun co => placeGroups x.sd join now split free co)
    let s2 := s1.modStrand x.c x.st (fun y => { y with
      mask := g0.mask, pc := g0.addr, depth := g0.depth,
      join := (if split.isEmpty then y.join else join),
      dstack := entries.reverse ++ y.dstack })
    (x.st :: free.take split.length).foldl (fun acc i => arriveLive x.c i acc) s2

/-! ### The issue of a word -/

/-- A strand whose sleep or yield is over: at its recorded join address it begins its wait there (R33). -/
def Strand.wake (now : Nat) (y : Strand) : Strand :=
  { y with wait := if y.join == some y.pc then .joinAddr now else .none, readySince := now }

/-- One more word of its course has issued: its own, or a younger one. -/
def Access.overtaken (a : Access) : Access := if a.past then { a with skid := a.skid + 1 } else { a with past := true }
def MatOp.overtaken (o : MatOp) : MatOp := if o.past then { o with skid := o.skid + 1 } else { o with past := true }

/-- What every issue does besides the word's own effect: level and age restart (R382), a yielding sibling becomes ready
(R397), and accesses and matrix operations in flight are overtaken by one more word (R169, R347). -/
def issued (x : At) (s : State) : State :=
  let now := s.clockOf x.c
  let f := fun (i : Nat) (y : Strand) =>
    if i = x.st then { y with level := 0, age := 0, readySince := now + 1, wasReady := false }
    else match y.wait with
      | .yield _ true => y.wake (now + 1)
      | _ => y
  let s1 := s.modCourse x.c (fun co => { co with strands := vmapIdx f co.strands })
  let g := fun (e : Nat × Access) => if e.2.course = x.c then (e.1, e.2.overtaken) else e
  let h := fun (o : MatOp) => if o.owner.course = x.c ∧ o.owner.name = x.co.name then o.overtaken else o
  let s2 := if (s.core (coreOf x.c)).mq.isEmpty then s1 else s1.modCore (coreOf x.c) (fun k => { k with mq := k.mq.map h })
  { s2 with accesses := s2.accesses.map g }

/-- A word that does not branch: the PC moves on, within a REP the execution index (R93, R94). -/
def advance (x : At) (s : State) : State :=
  match x.rep with
  | none => moveTo x.c x.st (x.sd.pc + 8#64) s
  | some (i, n) =>
    if i + 1 < n then s.modStrand x.c x.st (fun y => { y with repi := i + 1 })
    else moveTo x.c x.st (x.sd.pc + 16#64) (s.modStrand x.c x.st (fun y => { y with repi := 0 }))

/-- The end of an ordinary word. -/
def finish (x : At) (s : State) : State := tidy x.c (advance x (issued x s))

/-- What a word does: its verdict on the state before it, and its effect. -/
structure Meaning where
  verdict : At → State → Verdict
  effect  : At → State → State

/-- A word with a predicate whose checks are first, those of its privilege and its sources, and v, and whose effect in its active
lanes is f, then the PC moves on. -/
def firstMeaning (pn : Bool) (pred : BitVec 3) (first v : At → Mask → State → Verdict) (f : At → Mask → State → State) :
    Meaning :=
  { verdict := fun x t => (framed x t pred (first x (activeOf x pn pred) t)).and_ (v x (activeOf x pn pred) t)
    effect := fun x t => finish x (f x (activeOf x pn pred) t) }

/-- A word without first checks. -/
def plainMeaning (pn : Bool) (pred : BitVec 3) (v : At → Mask → State → Verdict) (f : At → Mask → State → State) :
    Meaning :=
  { verdict := fun x t => (frameCheck x t pred).and_ (v x (activeOf x pn pred) t)
    effect := fun x t => finish x (f x (activeOf x pn pred) t) }

/-- A word that moves the PC itself. -/
def movingMeaning (pn : Bool) (pred : BitVec 3) (first v : At → Mask → State → Verdict) (f : At → Mask → State → State) :
    Meaning :=
  { verdict := fun x t => (framed x t pred (first x (activeOf x pn pred) t)).and_ (v x (activeOf x pn pred) t)
    effect := fun x t => tidy x.c (f x (activeOf x pn pred) (issued x t)) }

/-- A word with sources: first the checks that precede them, then the sources, then the word's own checks; its effect
begins with the reports of latent poison. -/
def sourcedMeaning (pn : Bool) (pred : BitVec 3) (pre : At → Mask → State → Verdict) (refs : List SrcRef)
    (v : At → Mask → State → Verdict) (f : At → Mask → State → State) : Meaning :=
  firstMeaning pn pred (fun x act t => (pre x act t).and_ (srcVerdict x t act refs)) v
    (fun x act t => f x act (noteLatent x act refs t))

/-- No check of its own. -/
def noCheck (_ : At) (_ : Mask) (_ : State) : Verdict := .go

/-- A stop after the word (R103, R104): its record is posted with its PC, the strand moves to the next word, where all that
reaching an address does is done (R28, R32, R33), and the course stops there. -/
def stopAfter (x : At) (t : Trap) (s : State) : State :=
  (moveTo x.c x.st (x.sd.pc + 8#64) (postTrap x.c x.st t s)).stopCourse x.c

/-- A word issued. -/
def runWord (m : Meaning) (s : State) : Out := issueWord m.verdict m.effect s

def plainWord (pn : Bool) (pred : BitVec 3) (v : At → Mask → State → Verdict) (f : At → Mask → State → State)
    (s : State) : Out :=
  runWord (plainMeaning pn pred v f) s

/-- A course held by hxdb with a reason, unless it is held already: a word that waits at a JOIN has not issued, and issues
afresh on resume (R111). -/
def Course.hold (reason : Nat) (co : Course) : Course :=
  { co with
    halted := if co.halted.isSome then co.halted else some reason
    strands := vmap (fun (y : Strand) => match y.wait with
      | .joinWord _ _ => { y with wait := .none }
      | _ => y) co.strands }

/-! ### Ends (R26, R89, R90) -/

/-- The resumption of the top deferral entry when a strand's mask has become empty (R89). DESIGN CHOICE (notes/assumptions/64.md): an
entry holds no call depth, so the lanes of an entry that a CALL pushed go on at the depth of the strand, also where the lanes that
exited had called deeper. -/
def resumeDeferred : Nat → Strand → Strand
  | 0, x => x
  | fuel + 1, x =>
    match x.dstack with
    | [] => { x with live := false }
    | e :: t =>
      if !e.phase2 then { x with mask := e.mask, pc := e.addr, dstack := { e with parked := 0#32, phase2 := true } :: t }
      else if e.parked != 0#32 then { x with mask := e.parked, pc := e.join, dstack := t }
      else resumeDeferred fuel { x with dstack := t }

/-- The barriers whose counts fall when a course ends (R404). -/
def endBarriers (s : State) (c : Nat) : State :=
  let co := s.courseD c
  match s.team co.team with
  | none => s
  | some t =>
    let names := (List.range t.nbars).map BarRef.core ++
      (if t.panel.isSome then (List.range 16).map BarRef.panel else [])
    names.foldl (fun acc b => setBar acc c b (dropBarrier (pendingAt acc c b) (barOf acc c b))) s

/-- A team's part of its core given back when its last course ends (R26). -/
def endTeam (s : State) (tid : Nat) : State :=
  match s.team tid with
  | none => s
  | some t =>
    let s1 := if t.resident then
        s.modCore t.core (fun k => { k with
          ls := Memory.clear k.ls (16 * t.lsBase) (16 * t.lsSize)
          lsEmpty := k.lsEmpty.filter (fun g => !(t.lsBase ≤ g && g < t.lsBase + t.lsSize))
          lsPoison := k.lsPoison.filter (fun g => !(t.lsBase ≤ g && g < t.lsBase + t.lsSize))
          tiles := k.tiles.filter (fun e => !(t.tile0 ≤ e.1 && e.1 < t.tile0 + t.ntiles)) })
      else s
    let s2 := { s1 with
      teams := Tab.del s1.teams tid
      gran := s1.gran.filter (fun e => e.2.team != tid)
      savedTeams := Tab.del s1.savedTeams tid
      injected := Tab.del s1.injected tid }
    match t.panel with
    | none => s2
    | some p =>
      match Tab.find s2.panels p with
      | none => s2
      | some x =>
        if x.members.length = x.nteams && (Tab.vals x.members).all (fun m => (s2.team m).isNone) then
          { s2 with panels := Tab.del s2.panels p }
        else s2

/-- Engine work of a team that its core still holds: copies are performed after their course has ended (R89); a chain that
is parked has nothing more to perform. -/
def teamBusy (s : State) (tid : Nat) : Bool :=
  match s.team tid with
  | none => false
  | some t =>
    let k := s.core t.core
    (Tab.vals k.claimed).any (fun e => e.2.owner.team == tid)
      || (vlist k.chans).any (fun ch => !ch.parked && ch.items.any (fun i => match i with
        | .chain o _ _ _ => o.team == tid
        | .copy r => r.owner.team == tid
        | .codebook o _ _ => o.team == tid
        | .fence _ => false))
      || k.mq.any (fun o => o.fence.isNone && o.owner.team == tid) || k.collq.any (fun o => o.fence.isNone && o.owner.team == tid)
      || k.swq.any (fun o => o.fence.isNone && o.owner.team == tid)

/-- A team without courses ends as soon as its engine work is done. -/
def reapTeam (tid : Nat) (s : State) : State :=
  match s.team tid with
  | some t => if t.live = 0 && !(teamBusy s tid) then endTeam s tid else s
  | none => s

/-- A course's end counted in its launch: ended, and ready where it had not signalled (R90, R106). -/
def countEnd (lid : Nat) (wasReady : Bool) (s : State) : State :=
  { s with launches := Tab.upd s.launches lid (fun l => { l with
      ended := l.ended + 1, readyCnt := if wasReady then l.readyCnt else l.readyCnt + 1 }) }

/-- An entry of the completion FIFO of a die (R455): the launch, and whether the course had signalled. -/
def fifoEntry (lid : Nat) (wasReady : Bool) : DWord := BitVec.ofNat 64 (2 * lid + (if wasReady then 1 else 0))

/-- A course's end handed to the dispatch of its die: counted, or held while no scheduler core is active (R455). -/
def recordEnd (c lid : Nat) (wasReady : Bool) (s : State) : State :=
  if (s.die (dieOf c)).sched.running then countEnd lid wasReady s
  else s.modDie (dieOf c) (fun d => { d with fifo := d.fifo ++ [fifoEntry lid wasReady] })

/-- The entry of an engine operation of a launch that has completed. -/
def engineEntry (lid : Nat) : DWord := BitVec.ofNat 64 (2 ^ 63 + 2 * lid)

/-- An engine operation of a launch has completed on a core: while no scheduler core of its die is active, it enters the FIFO too
(R455). DESIGN CHOICE (notes/assumptions/36.md): a full FIFO, at which ends wait, leaves it out. -/
def engineEnd (core lid : Nat) (s : State) : State :=
  let d := s.die (core / 64)
  if d.sched.running || 4096 ≤ d.fifo.length then s
  else s.modDie (core / 64) (fun y => { y with fifo := y.fifo ++ [engineEntry lid] })

/-- The end of a course (R26, R90, R404). -/
def endCourse (c : Nat) (s : State) : State :=
  let co := s.courseD c
  let s1 := recordEnd c (((s.team co.team).map Team.launch).getD 0) co.readySent (endBarriers s c)
  let s2 := { s1 with
    courses := Tab.del s1.courses c
    slots := Tab.del s1.slots c
    arrivals := s1.arrivals.filter (fun e => e.2.course != c)
    accesses := s1.accesses.filter (fun e => e.2.course != c) }
  reapTeam co.team (s2.modTeam co.team (fun t => { t with live := t.live - 1 }))

end Sys2Proof.Machine
end

