-- ==== Sys2Proof/Machine/Sync.lean ====
section
/-! DEFINITION. The synchronisation and priority instructions but WAITF (R395 to R406), and the events of waiting strands
(R382, R397, R398). -/

namespace Sys2Proof.Machine

/-- A word of this chapter with one source read in the lowest active lane; without an active lane it has no effect (R395). -/
def syncWord (w : FWord) (pre : At → State → Verdict) (refs : List SrcRef) (v : At → Nat → State → Verdict) (f : At → Nat → State → State)
    (s : State) : Out :=
  runWord (sourcedMeaning w.pn w.pred (fun x act t => if act = 0#32 then .go else pre x t) refs
    (fun x act t => if act = 0#32 then .go else v x ((numRef w 0 false).low x act t) t)
    (fun x act t => if act = 0#32 then t else f x ((numRef w 0 false).low x act t) t)) s

/-! ### PRIO, YIELD, SLEEP (R396 to R398) -/

def prioFromReg (w : FWord) : Bool := w.fld 4 1 == 1

/-- PRIO. -/
def execPrio (w : FWord) (s : State) : Out :=
  syncWord w (fun _ _ => .go) (if prioFromReg w then [numRef w 0 false] else []) (fun _ _ _ => .go)
    (fun x v t => t.modCourse x.c (fun co => { co.cleanSreg 3 with prio := min 15 (if prioFromReg w then v else w.fld 0 4) })) s

/-- The strand a word belongs to waits from now on. -/
def State.waitAs (s : State) (x : At) (wt : Wait) (ready : Nat) : State :=
  s.modStrand x.c x.st (fun y => { y with wait := wt, readySince := ready })

/-- The end of a word after which its strand waits. -/
def finishWaiting (x : At) (wt : Wait) (ready : Nat) (s : State) : State :=
  tidy x.c (advance x ((issued x s).waitAs x wt ready))

/-- YIELD: not ready in the next cycle, or with SIB until a sibling issues or for 64 cycles. -/
def yieldWait (w : FWord) (x : At) (now : Nat) : Wait :=
  if w.fld 0 1 == 1 && x.co.liveStrands.length > 1 then .yield (now + 65) true else .yield (now + 2) false

def execYield (w : FWord) (s : State) : Out :=
  runWord
    { verdict := fun x t => frameCheck x t w.pred
      effect := fun x t =>
        if activeOf x w.pn w.pred = 0#32 then finish x t
        else finishWaiting x (yieldWait w x (t.clockOf x.c)) (t.clockOf x.c + 2) t } s

/-- SLEEP: until the always-on counter reaches its value at issue plus d. -/
def execSleep (w : FWord) (s : State) : Out :=
  runWord
    { verdict := fun x t => framed x t w.pred (srcVerdict x t (activeOf x w.pn w.pred) [numRef w 0 false])
      effect := fun x t =>
        let act := activeOf x w.pn w.pred
        let d := (numRef w 0 false).low x act t
        let t1 := noteLatent x act [numRef w 0 false] t
        if act = 0#32 || d = 0 then finish x t1
        else finishWaiting x (.sleep (t.aon + d) (w.fld 0 1 == 1)) (t.clockOf x.c) t1 } s

/-- SLEEP_EXPIRE. -/
def execSleepExpire (c st : Nat) (s : State) : Out :=
  match ((s.courseD c).strand st).wait with
  | .sleep t _ => if t ≤ s.aon then .next (s.modStrand c st (Strand.wake (s.clockOf c))) else .next s
  | _ => .next s

/-- YIELD_TIMEOUT. -/
def execYieldTimeout (c st : Nat) (s : State) : Out :=
  match ((s.courseD c).strand st).wait with
  | .yield t _ => if t ≤ s.clockOf c then .next (s.modStrand c st (Strand.wake (s.clockOf c))) else .next s
  | _ => .next s

/-- AGE_LEVEL_UP: an age count that has reached 2^16 becomes a level (R382). -/
def execAgeLevelUp (c st : Nat) (s : State) : Out :=
  if 2 ^ 16 ≤ ((s.courseD c).strand st).age then
    .next (s.modStrand c st (fun y => { y with age := 0, level := y.level + 1 }))
  else .next s

/-! ### Barriers (R399 to R403) -/

/-- The barrier a word names by SCOPE and INDEX. -/
def barRefOf (w : FWord) : BarRef :=
  let i := w.fld 3 5
  match w.fld 0 3 with
  | 0 => .lane
  | 1 => .core i
  | 5 => .pod i
  | _ => .panel i

/-- The name is valid for the course (R399). -/
def barValid (w : FWord) (x : At) (s : State) : Bool :=
  let i := w.fld 3 5
  let sc := w.fld 0 3
  match sc with
  | 0 => i == 0
  | 1 => match s.team x.co.team with
    | some t => i < t.nbars
    | none => false
  | 5 => i < 4 && (vget s.podBars {} i).granted.contains x.co.ctx
  | _ =>
    match ((s.team x.co.team).bind Team.panel).bind (Tab.find s.panels) with
    | some p => p.scope.toNat == sc && i < ((p.shape.panel.map (fun e => e.2.2)).getD 0)
    | none => false

def barRange (w : FWord) (x : At) (s : State) : Verdict := Verdict.trapIf (!(barValid w x s)) { code := cBarrierRange }

/-- Every other live strand of the course is marked at the barrier: this word brings the course's arrival. -/
def bringsArrival (x : At) (b : BarRef) : Bool :=
  x.co.liveStrands.all (fun i => i == x.st || ((x.co.strand i).mark.map Prod.fst) == some b)

/-- BAR and BARA before they are marked (R401). -/
def barVerdict (w : FWord) (x : At) (s : State) : Verdict :=
  Verdict.all [barRange w x s,
    Verdict.trapIf (!x.sd.dstack.isEmpty) { code := cBarrierDivergent },
    Verdict.waitIf (pendingAt s x.c (barRefOf w)),
    if bringsArrival x (barRefOf w) then releaseLimit x else .go]

/-- A strand marked at its barrier; the course arrives when its last strand is marked. -/
def markAt (w : FWord) (isBar : Bool) (x : At) (s : State) : State :=
  tidy x.c ((issued x s).modStrand x.c x.st (fun y => { y with mark := some (barRefOf w, isBar) }))

/-- BAR: arrives and waits; a strand whose course has arrived waits as BARW does (R401, R405). -/
def execBar (w : FWord) (s : State) : Out :=
  runWord
    { verdict := fun x t => (frameCheck x t w.pred).and_
        (if activeOf x w.pn w.pred = 0#32 then .go
         else match x.sd.inBar with
          | some b => Verdict.waitIf (pendingAt t x.c b)
          | none => barVerdict w x t)
      effect := fun x t =>
        if activeOf x w.pn w.pred = 0#32 then finish x t
        else match x.sd.inBar with
          | some _ =>
            finish x ((t.acquire x.c (w.fld 0 3)).modStrand x.c x.st (fun y => { y with inBar := none }))
          | none => markAt w true x t } s

/-- BARA: arrives and goes on. -/
def execBara (w : FWord) (s : State) : Out :=
  runWord
    { verdict := fun x t => (frameCheck x t w.pred).and_
        (if activeOf x w.pn w.pred = 0#32 then .go else barVerdict w x t)
      effect := fun x t => if activeOf x w.pn w.pred = 0#32 then finish x t else markAt w false x t } s

/-- BARW: waits while the course has a pending arrival (R402). -/
def execBarw (w : FWord) (s : State) : Out :=
  plainWord w.pn w.pred
    (fun x act t => if act = 0#32 then .go else (barRange w x t).and_ (Verdict.waitIf (pendingAt t x.c (barRefOf w))))
    (fun x act t => if act = 0#32 then t else t.acquire x.c (w.fld 0 3)) s

/-- The expected count a BARINIT sets: at once while the phase has no arrivals, else for the next phase (R403). -/
def initBarrier (n : Nat) (b : Barrier) : Barrier :=
  if b.arrivals = 0 then { b with expected := n, nextExp := none } else { b with nextExp := some n }

/-- BARINIT. -/
def execBarinit (w : FWord) (s : State) : Out :=
  syncWord w (fun x t => Verdict.trapIf (w.fld 0 3 == 5 && !(x.ctx t).priv) { code := cPrivileged }) [numRef w 0 false]
    (fun x n t => Verdict.all [
      Verdict.trapIf (n = 0 || 65535 < n) { code := cIllegalOperand },
      barRange w x t])
    (fun x n t => setBar t x.c (barRefOf w) (initBarrier n (barOf t x.c (barRefOf w)))) s

/-! ### EMPTY (R406) -/

def emptyCount (w : FWord) : Nat := w.fld 0 4 + 1

/-- A register of the range still awaits an arrival (R55). -/
def emptyPending (w : FWord) (x : At) (act : Mask) : Bool := destPending x act w.d (emptyCount w)
  || (isG w.d && (List.range (emptyCount w)).any (fun i => (vget x.sd.g {} (w.d.toNat - 0x20 + i)).await.isSome))

/-- Registers set empty, their data unchanged. -/
def emptyEffect (w : FWord) (x : At) (act : Mask) (s : State) : State :=
  if act = 0#32 then s
  else if isG w.d then
    s.modStrand x.c x.st (fun y => (List.range (emptyCount w)).foldl
      (fun acc i => acc.writeG (w.d.toNat - 0x20 + i) { vget acc.g {} (w.d.toNat - 0x20 + i) with full := false }) y)
  else
    s.modCourse x.c (fun co => (List.range (emptyCount w)).foldl
      (fun acc i => acc.mapV (w.d.toNat - 0x40 + i) act (fun e => { e with full := false })) co)

/-- EMPTY. -/
def execEmpty (w : FWord) (s : State) : Out :=
  plainWord w.pn w.pred (fun x act _ => Verdict.waitIf (act != 0#32 && emptyPending w x act)) (emptyEffect w) s

end Sys2Proof.Machine
end

