-- ==== Sys2Proof/Machine/Access.lean ====
section
/-! DEFINITION. The way of a memory access from its issue to its result: its place in the order of its course (R136, R140,
R146), translation at the home (R425), race checking (R150), the performing of reads, writes and atomics (R135, R182),
faults met after issue (R169, R170), and the arrival of long-latency values (R49). -/

namespace Sys2Proof.Machine

/-! ### Order within a course -/

/-- The lanes of an access that are not decided. -/
def Access.open_ (a : Access) : List LaneAcc := (Tab.vals a.lanes).filter (fun l => !l.stage.decided)

def AccKind.isAtomic : AccKind → Bool
  | .atomic _ _ => true
  | _ => false

/-- What a check passed at its home must precede (R146), and what copy-on-write takes for a write (R223): the writes and every
atomic. -/
def AccKind.updates (k : AccKind) : Bool := k.writes || k.isAtomic

/-- The kinds that return what they read. -/
def AccKind.reads : AccKind → Bool
  | .store | .discard => false
  | .atomic aop _ => aop != 9
  | _ => true

/-- The operations that are acquires (R139). -/
def Access.acquires (a : Access) : Bool :=
  match a.kind with
  | .atomic _ _ => a.order % 2 == 1
  | .btref | .ptew _ _ => true
  | _ => false

/-- An older undecided lane b holds a lane a: same line, or same block (R136); a write of one strand that a copy-on-write or a
migration holds up, and what waits behind it, do not hold another strand (R224). -/
def LaneAcc.holds (sameStrand writes heldUp : Bool) (b a : LaneAcc) : Bool :=
  match b.block, a.block with
  | false, false => b.pod == a.pod && b.ia / 128 == a.ia / 128 && (sameStrand || !heldUp)
  | true, true => b.addr / 2 ^ 32 == a.addr / 2 ^ 32 && (sameStrand || !heldUp)
  | _, _ => writes && !heldUp

def LaneAcc.isStalled (x : LaneAcc) : Bool :=
  match x.stage with
  | .stalled _ => true
  | _ => false

/-- Two accesses of a course come from one strand, or from strands that split or merged: they share lanes (R27, R34, R144). -/
def Access.sameStrand (a b : Access) : Bool := (a.own &&& b.own) != 0#32

/-- A lane is stalled, or its access may wait behind a stalled one of its strand. -/
def State.heldUp (s : State) (ib : Nat) (b : Access) (lb : LaneAcc) : Bool :=
  lb.isStalled || s.accesses.any (fun e => e.1 ≤ ib && e.2.course == b.course && e.2.sameStrand b && e.2.open_.any LaneAcc.isStalled)

/-- Access a waits for the older access b of its course (R136, R140, R146); the atomics of a strand keep their order (R144). What
stands behind a copy-on-write or a migration of one strand holds no other strand (R224). -/
def State.mustFollow (s : State) (a : Access) (ib : Nat) (b : Access) : Bool :=
  let same := a.sameStrand b
  b.open_.any (fun lb =>
      let up := s.heldUp ib b lb
      a.open_.any (fun la => LaneAcc.holds same (a.kind.writes || b.kind.writes) up lb la)
        || (b.acquires && (same || !up)))
    || (b.unchecked && (a.kind.updates || a.unchecked))
    || (same && a.kind.isAtomic && b.kind.isAtomic && b.undecided)

/-- Another course of the core has stored to a line of access a earlier, and only L1 shows it so far: a read that does not find
the copy waits for the home, and so does a write, which the other course's store would else follow there (R140, R144). -/
def State.behindCore (s : State) (id : Nat) (a : Access) : Bool :=
  s.accesses.any (fun e => e.1 < id && e.2.course != a.course && coreOf e.2.course == coreOf a.course && e.2.kind == .store &&
    e.2.open_.any (fun y => y.inL1 && a.open_.any (fun x => !x.block && x.pod.isNone && x.ia / 128 == y.ia / 128
      && (s.ctx e.2.ctx).dev == (s.ctx a.ctx).dev
      && (a.kind.updates || (Tab.find (s.core (coreOf a.course)).l1 (l1Key (s.ctx a.ctx).dev x.ia)).isNone))))

/-- The intermediate address of a lane's memory on its own device, where it is known or a lookup of its block gives it. -/
def LaneAcc.localIa (s : State) (a : Access) (x : LaneAcc) : Option Nat :=
  if x.pod.isSome then none
  else if x.block && x.stage == .issued then
    match blockLook s a.ctx x.addr with
    | .ok d => some (d.ia + refOff x.addr)
    | .error _ => none
  else some x.ia

/-- A lane's home does not answer: it sleeps, or, for a write, its granule is being moved (R457, R475). -/
def State.homeHolds (s : State) (a : Access) : Bool :=
  let dev := (s.ctx a.ctx).dev
  a.open_.any (fun x => ((x.localIa s a).map (fun ia => homeSleeps s dev ia || (a.kind.updates && granuleMoving s dev ia))).getD false)

/-- A request of the new generation for a line whose new home still waits for drain markers (R157). -/
def State.behindMarker (s : State) (a : Access) : Bool :=
  let dev := (s.ctx a.ctx).dev
  a.mapGen == (s.dev dev).mapGen && !(s.dev dev).markers.isEmpty
    && a.open_.any (fun x => ((x.localIa s a).map (movedHeld s dev)).getD false)

/-- An access may not be performed yet. -/
def State.mustWait (s : State) (id : Nat) (a : Access) : Bool :=
  s.accesses.any (fun e => e.1 < id && e.2.course == a.course && s.mustFollow a e.1 e.2)
    || ((a.kind.reads || a.kind.updates) && s.behindCore id a) || s.behindMarker a || s.homeHolds a

/-! ### Lanes -/

def State.modAccess (s : State) (id : Nat) (f : Access → Access) : State :=
  { s with accesses := Tab.upd s.accesses id f }

def State.setLane (s : State) (id l : Nat) (x : LaneAcc) : State :=
  s.modAccess id (fun a => { a with lanes := Tab.put a.lanes l x })

/-- A lane that has faulted after issue. -/
def LaneAcc.failed (x : LaneAcc) (code ia cls : Nat) : LaneAcc := { x with stage := .fault code ia cls }

def LaneAcc.finished (x : LaneAcc) (bytes : List Byte) : LaneAcc := { x with stage := .done bytes }

/-! ### L1 (R134, R167) -/

/-- A younger store of the course has updated the copy of a line: an older load does not read it there (R136). -/
def overwritten (s : State) (id : Nat) (a : Access) (x : LaneAcc) : Bool :=
  s.accesses.any (fun e => id < e.1 && e.2.course == a.course && e.2.kind == .store &&
    (Tab.vals e.2.lanes).any (fun y => y.inL1 && y.ia / 128 == x.ia / 128))

/-- A plain load may be answered from the core's copy of its line. -/
def l1Hit (s : State) (id : Nat) (a : Access) (x : LaneAcc) : Option (List Byte) :=
  match a.kind with
  | .load _ =>
    if x.block || x.pod.isSome || x.chk == 0 || overwritten s id a x then none
    else (Tab.find (s.core (coreOf a.course)).l1 (l1Key (s.ctx a.ctx).dev x.ia)).map
      (fun e => (e.2.drop (x.ia % 128)).take a.size)
  | _ => none

/-- A write of the core to a line that has not been performed. -/
def lineInFlight (s : State) (core dev ia : Nat) : Bool :=
  (Tab.vals s.accesses).any (fun a => coreOf a.course == core && (s.ctx a.ctx).dev == dev && a.kind.writes &&
    a.open_.any (fun x => !x.block && x.pod.isNone && x.ia / 128 == ia / 128))

/-- A line put into L1, which holds 8 lines in each of 128 sets; the line filled first leaves a full set (R10; DESIGN CHOICE,
notes/assumptions/6.md). -/
def Core.putL1 (key : Nat) (line : Bool × List Byte) (k : Core) : Core :=
  let order := k.l1Order.filter (fun x => x != key && (Tab.find k.l1 x).isSome)
  let same := order.filter (fun x => x % 128 == key % 128)
  let out := if same.length < 8 then none else same.getLast?
  { k with
    l1 := Tab.put (match out with
      | some v => Tab.del k.l1 v
      | none => k.l1) key line
    l1Order := key :: order.filter (fun x => some x != out) }

/-- A line brought into L1 by a load or a PREF: unchecked and read-only lines of cacheable pages only. -/
def fillL1 (core dev ia key chk : Nat) (nc : Bool) (s : State) : State :=
  let line := key / 128 * 128
  if chk == 0 || nc || s.poisoned line 128 || lineInFlight s core dev ia then s
  else s.modCore core (Core.putL1 (l1Key dev ia) (chk == 1, s.readMem line 128))

def dropL1 (core dev ia : Nat) (s : State) : State :=
  s.modCore core (fun k => { k with l1 := Tab.del k.l1 (l1Key dev ia) })

/-- Every L1 copy of a line dropped (R185). -/
def dropAllL1 (dev ia : Nat) (s : State) : State :=
  { s with cores := s.cores.map (fun e => (e.1, { e.2 with l1 := Tab.del e.2.l1 (l1Key dev ia) })) }

/-- A store's own update of its core's copy at issue (R134). -/
def storeL1 (core dev ia : Nat) (bytes : List Byte) (s : State) : State :=
  let k := l1Key dev ia
  match Tab.find (s.core core).l1 k with
  | none => s
  | some (ro, old) =>
    let o := ia % 128
    s.modCore core (fun x => { x with l1 := Tab.put x.l1 k (ro, old.take o ++ bytes ++ old.drop (o + bytes.length)) })

/-! ### Remote lanes (R231, R235) -/

/-- The remote kind of an access. -/
def AccKind.remote (k : AccKind) : RemoteKind :=
  match k with
  | .store => .write
  | .discard => .discard
  | .atomic aop size => .atomic (BitVec.ofNat 4 aop) (BitVec.ofNat 4 size)
  | _ => .read

/-- The core combines the lanes of an access that name one address, but for CAS, whose lanes stay apart. -/
def AccKind.combines : AccKind → Bool
  | .atomic aop _ => aop != 7
  | .store => false
  | _ => true

/-- Lanes of an access that name one remote address. -/
structure RemoteGroup where
  pod   : Nat
  ia    : Nat
  lanes : List Nat
  deriving DecidableEq, Repr

def remoteGroups (join : Bool) : List (Nat × LaneAcc) → List RemoteGroup → List RemoteGroup
  | [], acc => acc
  | (l, x) :: t, acc =>
    match x.pod with
    | none => remoteGroups join t acc
    | some p =>
      if join && acc.any (fun g => g.pod == p && g.ia == x.ia) then
        remoteGroups join t (acc.map (fun g => if g.pod == p && g.ia == x.ia then { g with lanes := g.lanes ++ [l] } else g))
      else remoteGroups join t (acc ++ [{ pod := p, ia := x.ia, lanes := [l] }])

/-- A floating-point or integer step of a combination: the atomic's operation on two values (R181). -/
def atomFmt (size : Nat) : Option (Fmt × Nat × Nat) :=
  match size with
  | 4 => some (.f32, 32, 1)
  | 5 => some (.f16, 16, 2)
  | 6 => some (.bf16, 16, 2)
  | 7 => some (.f64, 64, 1)
  | _ => none

def atomBytes (size : Nat) : Nat := if atomWide size then 8 else 4

def atomFloat (aop : Nat) (f : Fmt) (x y : Nat) : Nat :=
  match aop with
  | 0 => (roundTo (XV.add false (decodeF f x) (decodeF f y)) f 0 false 0).1
  | 1 => minMaxCode f false x y
  | _ => minMaxCode f true x y

def atomInt (aop size x y : Nat) : Nat :=
  let w := 8 * atomBytes size
  let sg := size == 1 || size == 3
  let lt := if sg then decide (sgn w x < sgn w y) else decide (x < y)
  match aop with
  | 0 => (x + y) % 2 ^ w
  | 1 => if lt then x else y
  | 2 => if lt then y else x
  | 3 => x &&& y
  | 4 => x ||| y
  | _ => x ^^^ y

/-- ADD, MIN, MAX and the bitwise operations of R181. -/
def atomFold (aop size x y : Nat) : Nat :=
  match atomFmt size with
  | none => atomInt aop size x y
  | some (f, w, n) =>
    joinElems w (List.zipWith (atomFloat aop f) (elemsOf w n x) (elemsOf w n y))

/-- The value an atomic stores (R181). -/
def atomNew (aop size old data cmp : Nat) : Nat :=
  match aop with
  | 6 | 9 => data
  | 7 => if old = cmp then data else old
  | 8 => old
  | _ => atomFold aop size old data

/-- What a combined group sends: its lanes' data folded, or the last lane's for SWAP and STORE. -/
def combineData (k : AccKind) (datas : List (List Byte)) : List Byte :=
  match k with
  | .atomic aop size =>
    if aop < 6 then
      match datas.map ofBytes with
      | [] => []
      | d :: t => toBytes (atomBytes size) (t.foldl (atomFold aop size) d)
    else datas.getLast?.getD []
  | _ => datas.getLast?.getD []

/-- The failure mark and record of a remote write that failed after its course had passed it (R234). -/
def remoteWriteFail (c : Nat) (name pc : DWord) (ctx code ia pod : Nat) (s : State) : State :=
  let s1 := s.post ctx { name := name, pc := pc, code := cRemoteWriteFailed, ia := ia, cls := code % 2 ^ 32 }
  if (s1.courseD c).name = name then s1.modCourse c (fun co => { co with remoteFail := some (code, pod) }) else s1

/-- The lanes of a remote group of an access that has failed: a plain write is passed and marks its course; any other lane
faults, with the level and reason of a PAGE_FAULT (R232, R234, R425). -/
def failRemote (id : Nat) (lanes : List Nat) (code info : Nat) (s : State) : State :=
  match Tab.find s.accesses id with
  | none => s
  | some a =>
    let plainWrite := a.kind == .store || a.kind == .discard
    let s1 := lanes.foldl (fun acc l =>
      match Tab.find a.lanes l with
      | none => acc
      | some x => acc.setLane id l (if plainWrite then x.finished [] else x.failed code x.ia info)) s
    if plainWrite then
      match lanes.head?.bind (Tab.find a.lanes) with
      | some x => remoteWriteFail a.course (s.courseD a.course).name a.pc a.ctx code x.ia (x.pod.getD 0) s1
      | none => s1
    else s1

/-- The groups that travel together: for an atomic, those of one aligned 8-byte word of one device, in order (R182, R235). -/
def wordGroups (k : AccKind) : List RemoteGroup → List (List RemoteGroup) → List (List RemoteGroup)
  | [], acc => acc
  | g :: t, acc =>
    let same := fun (l : List RemoteGroup) => k.isAtomic && l.any (fun h => h.pod == g.pod && h.ia / 8 == g.ia / 8)
    wordGroups k t (if acc.any same then acc.map (fun l => if same l then l ++ [g] else l) else acc ++ [[g]])

/-- What a group asks: its address, its lanes' data combined, and the compare data. -/
def groupOp (a : Access) (g : RemoteGroup) : AtomLane :=
  { ia := g.ia, data := combineData a.kind (g.lanes.filterMap (fun l => (Tab.find a.lanes l).map LaneAcc.data))
    cmp := ((g.lanes.head?.bind (Tab.find a.lanes)).map LaneAcc.cmp).getD [] }

/-- One request to another device, for groups that travel together; it fails at once where the device is fenced (R240). -/
def sendRemote (id : Nat) (a : Access) (s : State) (gs : List RemoteGroup) : State :=
  let dev := (s.ctx a.ctx).dev
  let lanes := gs.flatMap RemoteGroup.lanes
  match gs.map (groupOp a), gs.head? with
  | o :: more, some g =>
    if (Tab.getD (s.dev dev).peers {} g.pod).fenced then failRemote id lanes cTargetUnavailable 0 s
    else
      lanes.foldl (fun acc l =>
        match Tab.find a.lanes l with
        | none => acc
        | some x => acc.setLane id l { x with stage := .remote })
        (addRequest { dev := dev, pod := g.pod, ctx := a.ctx, for_ := .access id (maskOf (fun l => lanes.contains l)), seq := 0
                      kind := a.kind.remote, ia := o.ia, size := a.size, data := o.data, cmp := o.cmp, more := more } s)
  | _, _ => s

/-- The issued remote lanes of an access sent on their way. -/
def sendLanes (id : Nat) (a : Access) (s : State) : State :=
  (wordGroups a.kind (remoteGroups a.kind.combines (a.lanes.filter (fun e => e.2.pod.isSome && e.2.stage == .issued)) []) []).foldl
    (sendRemote id a) s

/-! ### PAGE_WALK: translation at the home -/

/-- A read performed through the lane's page: the bytes, or poison (R433, R447). -/
def readLane (s : State) (key n : Nat) (x : LaneAcc) : LaneAcc :=
  if s.poisoned key n then { x with stage := .poisoned } else x.finished (s.readUnder x.slot key n)

/-- The copies that a load leaves: in its die's RDC a line of another die, in L1 as its hint and range allow (R133, R134, R167). -/
def fillCopies (a : Access) (x : LaneAcc) (key : Nat) (s : State) : State :=
  let dev := (s.ctx a.ctx).dev
  let s1 := fillRdc (dieOf a.course) dev x.ia key (s.ctx a.ctx).tclass x.nc s
  if x.block || !(a.hint == 0 || a.hint == 2) then s1 else fillL1 (coreOf a.course) dev x.ia key x.chk x.nc s1

/-- The line of another device as a die's RDC names it: within the package by its place in memory, so that the home's writes drop
it (R135); else by its device and address. -/
def podLine (s : State) (pod ia : Nat) : Option Nat :=
  match s.devOfPod pod with
  | some d => (iaKey s d ia).map (fun k => k.1 / 128)
  | none => some (2 ^ 62 + pod * 2 ^ 41 + ia / 128)

/-- A line of a read-only POD range brought into a die's RDC for a class (R133, R231, R434). -/
def fillRdcPod (die pod ia chk cls : Nat) (s : State) : State :=
  match podLine s pod ia with
  | some l => s.fill (if chk = 1 then some die else none) true l cls
  | none => s

/-- The stage of a lane after its translation: an unchecked load is performed, and brings its line into caches. -/
def afterWalk (id l : Nat) (a : Access) (x : LaneAcc) (key : Nat) (s : State) : State :=
  match a.kind with
  | .load _ =>
    if x.checked a.kind then s.setLane id l { x with stage := .at_ key }
    else fillCopies a x key (s.setLane id l (readLane s key a.size x))
  | _ => s.setLane id l { x with stage := .at_ key }

/-- Translation of a lane whose intermediate address is known. -/
def walkAt (id l : Nat) (a : Access) (x : LaneAcc) (pick : Bool) (s : State) : State :=
  let cx := s.ctx a.ctx
  if 2 ^ 48 ≤ x.ia then s.setLane id l (x.failed cPageFault x.ia 3)
  else match homeXlate { dev := cx.dev, ia := x.ia, write := a.kind.writes, pick := pick, owner := ctxOwner cx, cls := cx.tclass } s with
    | (s1, .fault code info) => s1.setLane id l (x.failed code x.ia info)
    | (s1, .ok key e) => afterWalk id l a { x with nc := pteNc e, slot := pteKey e } key s1

/-- BTLOOK's part of a descriptor (R219): its reserved fields read as zero (R5, R216). -/
def lookPart (d : Desc) (part : Nat) : List Byte :=
  match part with
  | 0 => toBytes 8 d.ia
  | 1 => toBytes 2 d.count ++ toBytes 1 (d.state % 8) ++ toBytes 1 0 ++ toBytes 2 d.tag ++ toBytes 2 0
  | 2 => toBytes 4 d.gen ++ toBytes 4 0
  | _ => toBytes 8 d.migia

/-- The page under migration that an operation on the block table may write to (R226). -/
def tablePage (s : State) (ctx ref : Nat) : Option Nat :=
  let t := tableOf (s.ctx ctx) ref
  [(mapVaOf (s.ctx ctx) ref, 4), (t.pool, 32 * t.poollen), (t.freestk, 8 + 4 * t.freecap)].findSome?
    (fun e => migratingVa s ctx e.1 e.2)

/-- Translation of a lane, but a write to a page under migration stalls. -/
def walkFree (id l : Nat) (a : Access) (x : LaneAcc) (pick : Bool) (s : State) : State :=
  match if a.kind.writes then migratingPage s (s.ctx a.ctx).dev x.ia else none with
  | some p => s.setLane id l { x with stage := .stalled p }
  | none => walkAt id l a x pick s

/-- The walker's A on the pages of the map entry and the descriptor that a lookup has read (R427). -/
def lookMarks (ctx : Nat) (d : Desc) (s : State) : State := s.markVa ctx false [(d.mapVa, 4), (d.va, 32)]

/-- A block-indexed lane: its lookup, then its translation (R217). -/
def walkBlock (id l : Nat) (a : Access) (x : LaneAcc) (pick : Bool) (s : State) : State :=
  match blockLook s a.ctx x.addr with
  | .error c => s.setLane id l (x.failed c 0 0)
  | .ok d =>
    match a.kind with
    | .btlook part => (lookMarks a.ctx d s).setLane id l (x.finished (lookPart d part))
    | _ =>
      let y := { x with ia := d.ia + refOff x.addr, idx := d.idx }
      let s1 := lookMarks a.ctx d s
      if d.enc then s1.setLane id l (y.failed cBtEncoded y.ia 0)
      else if a.kind.updates && (d.tier == 2 || (cowOn s d.key).isSome) then s1.setLane id l { y with stage := .stalled d.key }
      else walkFree id l a y pick s1

/-- The operations on the block table itself, which have no block of memory to translate. -/
def AccKind.tableOp : AccKind → Bool
  | .btref | .btalloc | .btfree => true
  | _ => false

/-- One lane at its home. -/
def walkLane (id : Nat) (a : Access) (pick : Bool) (s : State) (e : Nat × LaneAcc) : State :=
  let x := e.2
  if x.stage != .issued || x.pod.isSome || a.kind.tableOp then s
  else if x.block then walkBlock id e.1 a x pick s
  else match l1Hit s id a x with
    | some b => s.setLane id e.1 (x.finished b)
    | none => walkFree id e.1 a x pick s

/-! ### Faults after issue (R169, R170) -/

/-- The lanes of an access. -/
def Access.mask (a : Access) : Mask := maskOf (fun l => (Tab.find a.lanes l).isSome)

/-- The lanes of an access that have faulted. -/
def Access.failing (a : Access) : Mask :=
  maskOf (fun l => match (Tab.find a.lanes l).map LaneAcc.stage with
    | some (.fault _ _ _) => true
    | _ => false)

/-- PTEW's one access serves every active lane, by its lowest. -/
def AccKind.shared : AccKind → Bool
  | .ptew _ _ => true
  | _ => false

/-- The lanes whose results a fault holds back. -/
def Access.faults (a : Access) : Mask :=
  if a.kind.shared && a.failing != 0#32 then a.mask else a.failing

/-- Nothing of an access has begun. -/
def Access.untouched (a : Access) : Bool := (Tab.vals a.lanes).all (fun l => l.stage == .issued)

/-- The replay entry of the faulting lanes (R169). -/
def Access.replayEntry (a : Access) : Access :=
  { a with
    lanes := (a.lanes.filter (fun e => a.faults.getLsbD e.1)).map (fun e => (e.1, { e.2 with stage :=
      match e.2.stage with
      | .fault _ _ _ => .issued
      | y => y }))
    replay := true, taken := false, skid := 0 }

/-- The younger accesses of a course that have not begun wait with it for its resumption, in their order. -/
def holdYounger (id c : Nat) (s : State) : State :=
  let mine := fun (e : Nat × Access) => id < e.1 && e.2.course == c && e.2.untouched
  let held : List (Nat × Access) := (s.accesses.filter mine).map (fun e => (e.1, { e.2 with replay := true }))
  ({ s with accesses := s.accesses.filter (fun e => !(mine e)) }).modCourse c (fun co =>
    { co with replay := held.foldl (fun t (e : Nat × Access) => Tab.put t e.1 e.2) co.replay })

/-- Words of a course younger than an access, whose memory operations have not completed: their accesses, but loads that have been
read, and their local-store operations. -/
def heldWords (id c : Nat) (s : State) : Nat :=
  (s.accesses.filter (fun e => id < e.1 && e.2.course == c && (e.2.undecided || e.2.kind.updates))).length
    + ((((s.gran.filter (fun e => e.2.course == c)).map (fun e => e.2.word)).filter (fun w => id < w)).dedup).length

/-- The skid of a faulting access: the younger words issued; for MEMORY_MODEL those that completed (R151). -/
def faultSkid (id code : Nat) (a : Access) (s : State) : Nat :=
  if code = cMemoryModel then a.skid - heldWords id a.course s else a.skid

/-- The faults of a decided access taken together: poison marks, replay entry, record, and the course stops. -/
def takeFaults (id : Nat) (a : Access) (s : State) : State :=
  match lowLane a.failing with
  | none => s
  | some l =>
    match (Tab.find a.lanes l).map LaneAcc.stage with
    | some (.fault code ia cls) =>
      let c := a.course
      let s1 := s.modCourse c (fun co =>
        let y := co.deliver id a.words a.signed a.mask (fun _ => none) a.faults
        { y with replay := Tab.put y.replay id a.replayEntry })
      let s2 := s1.modAccess id (fun y => { y with taken := true })
      let s3 := holdYounger id c s2
      let s4 := s3.post a.ctx { name := (s.courseD c).name, pc := a.pc, code := code, stop := true, replay := true
                                skid := faultSkid id code a s, ia := ia, cls := cls }
      s4.stopCourse c
    | _ => s

/-- What follows once every lane of an access is decided: its faults; an access without results is over. -/
def settle (id : Nat) (s : State) : State :=
  match Tab.find s.accesses id with
  | none => s
  | some a =>
    if a.undecided then s
    else
      let s1 := if a.taken || a.faults = 0#32 then s else takeFaults id a s
      let s2 := if a.acquires then s1.acquire a.course a.scope else s1
      tidy a.course (if a.words = 0 then { s2 with accesses := Tab.del s2.accesses id } else s2)

/-- A request stamped with an older map generation for a line that has moved: the old home forwards it to the new one, where it
is performed (R157). -/
def forwardAccess (id : Nat) (a : Access) (s : State) : State :=
  let d := s.dev (s.ctx a.ctx).dev
  if a.mapGen != d.mapGen && a.open_.any (fun x =>
      ((x.localIa s a).map (fun i => homeIn d.oldRegions i != homeIn d.regions i)).getD false) then
    s.modAccess id (fun y => { y with fwd := true })
  else s

/-- PAGE_WALK (R425): the lanes of an access that have been issued and may go on are translated at their homes, remote
lanes sent; pick tells which entry of a disagreeing run applies (R426). -/
def execPageWalk (id : Nat) (pick : Bool) (s : State) : Out :=
  match Tab.find s.accesses id with
  | none => .next s
  | some a =>
    if s.mustWait id a then .next s
    else .next (settle id (sendLanes id a (a.lanes.foldl (walkLane id a pick) (forwardAccess id a s))))

/-! ### Performing writes and atomics -/

/-- A block's write or atomic judged at its home, by the map entry and the descriptor that its lookup found, whatever has been
written to them since (R218): none where it may be performed in place; else the state with the lane stalled or failed (R223,
R224). A copy-on-write that finds 128 records of the core in flight begins when one has completed. -/
def judgeBlock (id l : Nat) (a : Access) (x : LaneAcc) (s : State) : Option State :=
  let cx := s.ctx a.ctx
  match readDesc s a.ctx (tableOf cx x.addr) (mapVaOf cx x.addr) x.idx with
  | .error c => some (s.setLane id l (x.failed c x.ia 0))
  | .ok d =>
    if d.enc then some (s.setLane id l (x.failed cBtEncoded x.ia 0))
    else if d.tier == 2 || (cowOn s d.key).isSome then some (s.setLane id l { x with stage := .stalled d.key })
    else if d.count > 1 then
      if 128 ≤ recordCount s (coreOf a.course) then
        some (s.setLane id l { x with stage := .stalled (cowRoom (coreOf a.course)) })
      else match startCow (coreOf a.course) a.ctx x.addr d s with
        | .error c => some (s.setLane id l (x.failed c x.ia 0))
        | .ok s1 => some (s1.setLane id l { x with stage := .stalled d.key })
    else none

/-- The frames that a page-table entry maps anew have no shadow: their lines are first mapped now (R149). -/
def freshFrame (dev : Nat) (old new : DWord) (s : State) : State :=
  if !(pteV new && pteLeaf new) || (pteV old && pteLeaf old && ptePa old = ptePa new && pteSz old = pteSz new) then s
  else s.clearFrame (physKey dev (ptePa new)) (levelBytes (szLevel (pteSz new)))

/-- PTEW at the entry's home (R109). -/
def performPtew (id l : Nat) (a : Access) (cas gen : Bool) (x : LaneAcc) (key : Nat) (s : State) : State :=
  let old := s.readUnder x.slot key 8
  let writes := !cas || old == x.cmp
  let new := BitVec.ofNat 64 (ofBytes x.data)
  let s1 := if writes then
      freshFrame (s.ctx a.ctx).dev (BitVec.ofNat 64 (ofBytes old)) new ((s.writeMem key x.data x.slot).clearShadow key 8)
    else s
  let s2 := if gen && writes then s1.modCtx a.ctx (fun c => { c with pageGen := c.pageGen + 1 }) else s1
  s2.setLane id l (x.finished old)

/-- An atomic of one lane at its home (R181, R182): the line leaves the issuing core's L1, its shadow becomes zero. -/
def performAtomic (id l : Nat) (a : Access) (aop size : Nat) (x : LaneAcc) (key : Nat) (s : State) : State :=
  let n := atomBytes size
  let s0 := dropL1 (coreOf a.course) (s.ctx a.ctx).dev x.ia s
  if s.poisoned key n then s0.setLane id l { x with stage := .poisoned }
  else
    let old := s.readUnder x.slot key n
    let new := atomNew aop size (ofBytes old) (ofBytes x.data) (ofBytes x.cmp)
    let s1 := if aop = 8 then s0 else s0.writeMem key (toBytes n new) x.slot
    (s1.clearShadow key n).setLane id l (x.finished old)

/-- A line dropped at its home: it reads as zeros, and every L1 copy goes (R156, R185). -/
def dropLine (dev ia key : Nat) (s : State) : State := dropAllL1 dev ia (s.zeroLine (key / 128))

/-- One lane's operation on the block table: its result, or its fault (R220 to R222). -/
def tableLane (a : Access) (x : LaneAcc) (s : State) : Except Nat (Nat × State) :=
  match a.kind with
  | .btref => btRef a.ctx x.addr (ofBytes x.data) s
  | .btalloc => btAlloc a.ctx x.addr s
  | _ => btFree a.ctx x.addr (ofBytes x.data) s

def performTable (id l : Nat) (a : Access) (x : LaneAcc) (s : State) : State :=
  match tableLane a x s with
  | .error c => s.setLane id l (x.failed c 0 0)
  | .ok (v, s1) => s1.setLane id l (x.finished (toBytes 4 v))

/-- A block-indexed store updates its core's copy of the line, which a range may have brought in, once its address is known
(R134). -/
def storeBlockL1 (a : Access) (x : LaneAcc) (s : State) : State :=
  if x.block then storeL1 (coreOf a.course) (s.ctx a.ctx).dev x.ia x.data s else s

/-- An unchecked write or atomic performed at its home (R135). -/
def performLane (id l : Nat) (a : Access) (x : LaneAcc) (key : Nat) (s : State) : State :=
  match a.kind with
  | .store => (storeBlockL1 a x (s.writeMem key x.data x.slot)).setLane id l (x.finished [])
  | .atomic aop size => performAtomic id l a aop size x key s
  | .discard => (dropLine (s.ctx a.ctx).dev x.ia key s).setLane id l (x.finished [])
  | .ptew cas gen => performPtew id l a cas gen x key s
  | .load _ | .lastuse _ => s.setLane id l (readLane s key a.size x)
  | .btlook _ | .btref | .btalloc | .btfree => s

/-- One lane of HOME_WRITE_PERFORMED. -/
def writeLane (id : Nat) (a : Access) (s : State) (e : Nat × LaneAcc) : State :=
  if a.kind.tableOp then
    (if e.2.stage != .issued then s
     else match tablePage s a.ctx e.2.addr with
      | some p => s.setLane id e.1 { e.2 with stage := .stalled p }
      | none => performTable id e.1 a e.2 s)
  else match e.2.stage with
    | .at_ key =>
      if e.2.checked a.kind then s
      else match if e.2.block && a.kind.updates then judgeBlock id e.1 a e.2 s else none with
        | some s1 => s1
        | none => performLane id e.1 a e.2 key s
    | _ => s

/-- The lines that a LASTUSE drops after its reads: of the lanes read by this event, each line once (R186). -/
def lastLines (a : Access) (s : State) (id : Nat) : List (LaneAcc × Nat) :=
  let now := ((Tab.find s.accesses id).map Access.lanes).getD []
  let read := a.lanes.filterMap (fun e =>
    match e.2.stage, (Tab.find now e.1).map LaneAcc.stage with
    | .at_ key, some (.done _) | .at_ key, some .poisoned => if e.2.checked a.kind then none else some (e.2, key)
    | _, _ => none)
  read.foldl (fun (acc : List (LaneAcc × Nat)) e => if acc.any (fun y => y.2 / 128 == e.2 / 128) then acc else acc ++ [e]) []

/-- HOME_WRITE_PERFORMED (R135): the writes, atomics and table operations of an access that race checking does not cover,
lanes in ascending order (R171, R182). -/
def execHomeWritePerformed (id : Nat) (s : State) : Out :=
  match Tab.find s.accesses id with
  | none => .next s
  | some a =>
    if s.mustWait id a then .next s
    else
      let s1 := a.lanes.foldl (writeLane id a) s
      let s2 := match a.kind with
        | .lastuse _ => (lastLines a s1 id).foldl
            (fun acc e => dropLine (s.ctx a.ctx).dev e.1.ia e.2 acc) s1
        | _ => s1
      .next (settle id s2)

/-! ### CHECK_ACCESS: race checking at the home (R149, R150) -/

def shWid (h : BitVec 96) : Nat := bitsOf h.toNat 0 13
def shValid (h : BitVec 96) : Bool := bitOf h.toNat 13
def shGen (h : BitVec 96) : Nat := bitsOf h.toNat 14 14
def shRc (h : BitVec 96) : Nat := bitsOf h.toNat 28 48
def shReaders (h : BitVec 96) : Nat := bitsOf h.toNat 76 16

def mkShadow (wid gen rc readers : Nat) : BitVec 96 :=
  BitVec.ofNat 96 (wid + 2 ^ 13 + gen * 2 ^ 14 + rc % 2 ^ 48 * 2 ^ 28 + readers * 2 ^ 76)

/-- Generation of a course name (R241). -/
def nameGen (n : DWord) : Nat := bitsOf n.toNat 16 14

/-- The course a probe finds open: bound, of that generation, its release count still current (R150). -/
def regionOpen (s : State) (wid gen rc : Nat) : Option Course :=
  match s.course wid with
  | some co => if nameGen co.name = gen && co.relCount % 2 ^ 48 = rc then some co else none
  | none => none

/-- The first reader of a line on a core whose logical number ends in b: by core, then slot. -/
def readerAt (s : State) (dev c line b : Nat) : Option Course :=
  (s.courses.find? (fun e => e.1 != c && coreOf e.1 % 16 == b && devOfDie s.mode (dieOf e.1) == dev
    && e.2.readLog.contains line)).map Prod.snd

def firstReader (s : State) (dev c line readers : Nat) : Option Course :=
  ((List.range 16).filter (bitOf readers)).findSome? (readerAt s dev c line)

/-- The access found in conflict: kind (0 RAW, 1 WAW, 2 WAR) and the other course. -/
def raceWith (s : State) (dev c line : Nat) (isLoad : Bool) : Option (Nat × Course) :=
  let h := Tab.getD s.shadow 0#96 line
  match if shValid h && shWid h != c then regionOpen s (shWid h) (shGen h) (shRc h) else none with
  | some w => some (if isLoad then 0 else 1, w)
  | none => if isLoad then none else (firstReader s dev c line (shReaders h)).map (fun r => (2, r))

/-- A line in a read log of at most 64 lines, the oldest dropped (R148). -/
def logLine (line : Nat) (l : List Nat) : List Nat := if l.contains line then l else (line :: l).take 64

/-- What a check that passes records: the reader, or the writer. -/
def recordAccess (c line : Nat) (isLoad : Bool) (s : State) : State :=
  let co := s.courseD c
  if isLoad then
    let h := Tab.getD s.shadow 0#96 line
    ({ s with shadow := Tab.put s.shadow line (h ||| BitVec.ofNat 96 (2 ^ (76 + coreOf c % 16))) }).modCourse c
      (fun y => { y with readLog := logLine line y.readLog })
  else { s with shadow := Tab.put s.shadow line (mkShadow c (nameGen co.name) co.relCount 0) }

/-- Class-specific bytes of MEMORY_MODEL (R151). -/
def raceCls (kind : Nat) (other : Course) (size key : Nat) : Nat :=
  other.name.toNat + 2 ^ 64 * (kind + 4 * Nat.log2 size + 64 * (key % 128))

/-- check_access of R150 for one lane, then the access itself. -/
def checkLane (id : Nat) (a : Access) (s : State) (e : Nat × LaneAcc) : State :=
  match e.2.stage with
  | .at_ key =>
    if !(e.2.checked a.kind) then s
    else
      let x := e.2
      let line := key / 128
      let isLoad := match a.kind with
        | .load _ | .lastuse _ => true
        | _ => false
      match raceWith s (s.ctx a.ctx).dev a.course line isLoad with
      | some (k, other) => s.setLane id e.1 (x.failed cMemoryModel x.ia (raceCls k other a.size key))
      | none => performLane id e.1 a x key (recordAccess a.course line isLoad s)
  | _ => s

/-- The discards of a checked LASTUSE, each line once, after the reads; a line whose discard conflicts fails the lanes that
read it (R186). -/
def checkLast (id : Nat) (a : Access) (s : State) : List (Nat × LaneAcc) → List Nat → State
  | [], _ => s
  | e :: t, seen =>
    match e.2.stage, ((Tab.find s.accesses id).bind (fun y => Tab.find y.lanes e.1)).map LaneAcc.stage with
    | .at_ key, some (.done _) | .at_ key, some .poisoned =>
      let line := key / 128
      if !(e.2.checked a.kind) || seen.contains line then checkLast id a s t seen
      else
        match raceWith s (s.ctx a.ctx).dev a.course line false with
        | some (k, other) =>
          let s1 := (a.lanes.filter (fun y => match y.2.stage with
              | .at_ k2 => y.2.checked a.kind && k2 / 128 == line
              | _ => false)).foldl
            (fun acc y => acc.setLane id y.1 (y.2.failed cMemoryModel y.2.ia (raceCls k other a.size key))) s
          checkLast id a s1 t (line :: seen)
        | none =>
          checkLast id a (dropLine (s.ctx a.ctx).dev e.2.ia key (recordAccess a.course line false s)) t
            (line :: seen)
    | _, _ => checkLast id a s t seen

/-- CHECK_ACCESS (R150): the checked lanes of an access at their homes, in ascending order, and their performing. -/
def execCheckAccess (id : Nat) (s : State) : Out :=
  match Tab.find s.accesses id with
  | none => .next s
  | some a =>
    if s.mustWait id a then .next s
    else
      let s1 := a.lanes.foldl (checkLane id a) s
      let s2 := match a.kind with
        | .lastuse _ => checkLast id a s1 a.lanes []
        | _ => s1
      .next (settle id s2)

/-! ### LONG_LATENCY_ARRIVAL (R49) -/

/-- The value a lane of an access delivers. -/
def laneValueOf (a : Access) (x : LaneAcc) : Option Nat :=
  match x.stage with
  | .done b =>
    let v := ofBytes b
    let sx := match a.kind with
      | .load sg | .lastuse sg => sg
      | _ => false
    some (if sx then wrap 32 (sgn (8 * a.size) v) else v)
  | .poisoned => some 0
  | _ => none

def deliverAccess (id : Nat) (a : Access) (s : State) : State :=
  let bad := maskOf (fun l => (Tab.find a.lanes l).map LaneAcc.stage == some .poisoned)
  let src := fun (l : Nat) => if a.kind.shared then a.lanes.head?.map Prod.snd else Tab.find a.lanes l
  let s1 := s.modCourse a.course (fun co => co.deliver id a.words a.signed a.mask
    (fun l => (src l).bind (laneValueOf a)) bad)
  { s1 with accesses := Tab.del s1.accesses id }

/-- The lanes of an arrival whose granule operations are still to be served, or whose names another package looks up. -/
def lanesLeft (id : Nat) (s : State) : Mask :=
  maskOf (fun l => (Tab.vals s.gran).any (fun g => g.result == some id && g.lane == l)
    || (Tab.vals s.remotes).any (fun r => match r.for_ with
      | .nameq i m => i == id && m.getLsbD l
      | _ => false))

/-- The lanes of an arrival that can be delivered now. -/
def lanesReady (id : Nat) (a : Arrival) (s : State) : Mask := a.lanes &&& ~~~(lanesLeft id s) &&& ~~~a.sent

def deliverArrival (id : Nat) (a : Arrival) (s : State) : State :=
  let r := lanesReady id a s
  let sent := a.sent ||| r
  let s1 := s.modCourse a.course (fun co =>
    (co.deliver id a.words a.signed a.lanes (fun l => if r.getLsbD l then some (vget a.vals 0 l) else none) (a.bad &&& r)).orFlags
      a.fl |>.writeP a.pdst (r &&& co.heldLanes) a.pbits)
  if sent = a.lanes then { s1 with arrivals := Tab.del s1.arrivals id }
  else { s1 with arrivals := Tab.put s1.arrivals id { a with sent := sent } }

/-- The strands that waited for a result go on (R109). -/
def wakeResult (id c : Nat) (s : State) : State :=
  s.modCourse c (fun co => { co with strands := vmap (fun (y : Strand) =>
    if y.wait == .result id then y.wake (s.clockOf c) else y) co.strands })

/-- LONG_LATENCY_ARRIVAL (R49): a value that has been computed or read reaches the entries that await it. -/
def execLongLatencyArrival (id : Nat) (s : State) : Out :=
  match Tab.find s.arrivals id with
  | some a => if 8192 ≤ a.course then .next s else .next (tidy a.course (wakeResult id a.course (deliverArrival id a s)))
  | none =>
    match Tab.find s.accesses id with
    | some a => if a.undecided then .next s else .next (tidy a.course (wakeResult id a.course (deliverAccess id a s)))
    | none => .next s

end Sys2Proof.Machine
end

