-- ==== Sys2Proof/Machine/Arith.lean ====
section
/-! DEFINITION. The shared meaning of the words of the 0x001, 0x040 and 0x080 groups (R286 to R293): their waits and
traps, their results pushed and named, and the long-latency producers among them; the pair word (R63 to R67). -/

namespace Sys2Proof.Machine

/-! ### Verdicts -/

/-- The source that names a format register (R318, R319). -/
def formatSrc (op : AOp) : Option Nat :=
  match op with
  | .qcvt | .scalegen => some 1
  | .qpack | .qunpack => some 2
  | _ => none

/-- The descriptor a word names: bits [4:0] of the lowest active lane's operand, read at issue (R273, R318, R319). -/
def formatOf (op : AOp) (w : FWord) (x : At) (act : Mask) (s : State) : DWord :=
  match formatSrc op, lowLane act with
  | some i, some l => vget (x.ctx s).formats 4#64 (valueOf op w x act s i l % 32)
  | _, _ => 4#64

/-- The condition on the named format register (R318, R319). -/
def formatOk (op : AOp) (w : FWord) (x : At) (act : Mask) (s : State) : Bool :=
  act == 0#32 ||
  match op with
  | .qcvt => fdKind (formatOf op w x act s) < 2
  | .qpack | .qunpack | .scalegen => blockFmtOk (formatOf op w x act s) (tyElems w.ty)
  | _ => true

/-- The entries a word pushes: two for a 64-bit result and for a CVT of two elements to one (R48, R316). -/
def arithWords (op : AOp) (w : FWord) : Nat :=
  if op.resWide w || (op == .cvt && cvtTwoEntries w) then 2 else 1

/-- PMOV.PUT pushes nothing (R305). -/
def isPut (op : AOp) (w : FWord) : Bool := op == .pmov && w.opx == 1

/-- The waits of an arithmetic word apart from its sources (R51, R55). -/
def arithWaits (op : AOp) (w : FWord) (x : At) (act : Mask) (s : State) : Bool :=
  (predsOf op w).any (predPending x s) || destPending x act w.d (arithWords op w)

/-- The first checks of an arithmetic word: its waits, then its sources with the predicates it reads. -/
def arithFirst (op : AOp) (w : FWord) (x : At) (act : Mask) (s : State) : Verdict :=
  (Verdict.waitIf (arithWaits op w x act s)).and_
    ((srcVerdict x s act (refsOf op w)).withPoison (Verdict.all ((predReads op w).map (predCheck x act))))

def arithCheck (op : AOp) (w : FWord) (x : At) (act : Mask) (s : State) : Verdict :=
  Verdict.trapIf (!(formatOk op w x act s)) { code := cIllegalOperand }

/-! ### Effects -/

/-- The results of a word on the state before it. -/
def arithResult (op : AOp) (w : FWord) (x : At) (act : Mask) (s : State) : WordRes :=
  aluWord op w x.co.seed { act := act, lane := vof 32 (laneInOf op w x act s), desc := formatOf op w x act s }

/-- The result type sign-extends into a g copy: .i32 (R72). -/
def signedRes (op : AOp) (w : FWord) : Bool := w.ty == 0 && op != .plop

/-- A long-latency result: the entries are pushed empty, and the value, PDST and flags are on their way (R51, R291). -/
def pushLater (op : AOp) (w : FWord) (x : At) (act : Mask) (r : WordRes) (s : State) : State :=
  if act = 0#32 then produceLater x act w.d (arithWords op w) 0 s
  else
    let (id, s1) := s.fresh
    let a : Arrival := { course := x.c, lanes := act, words := arithWords op w, vals := vof 32 r.val, pdst := w.pdst
                         pbits := r.pbits, fl := r.fl, signed := signedRes op w }
    let s2 := { s1 with arrivals := Tab.put s1.arrivals id a }
    let s3 := s2.modCourse x.c (fun co => { co with seed := r.seed })
    produceLater x act w.d (arithWords op w) id s3

/-- What an arithmetic word does with its results: pushed, named and flagged at once, or later. -/
def commitArith (op : AOp) (w : FWord) (x : At) (act : Mask) (r : WordRes) (s : State) : State :=
  if isLongLatency op then pushLater op w x act r s
  else if isPut op w then
    s.modCourse x.c (fun co => (List.range 7).foldl
      (fun acc i => acc.writeP i act (maskOf (fun l => bitOf (r.val l) i))) co)
  else
    produce x act w.d (arithWords op w) (signedRes op w) r.val
      (s.modCourse x.c (fun co => co.writeFlags act w.pdst r))

def arithEffect (op : AOp) (w : FWord) (x : At) (act : Mask) (s : State) : State :=
  commitArith op w x act (arithResult op w x act s) (noteReads x act (refsOf op w) (predReads op w) s)

/-- Every arithmetic word (R286). -/
def arithMeaning (op : AOp) (w : FWord) : Meaning := firstMeaning w.pn w.pred (arithFirst op w) (arithCheck op w) (arithEffect op w)

def arithWord (op : AOp) (w : FWord) (s : State) : Out := runWord (arithMeaning op w) s

/-! ### Immediates (R303) -/

/-- The entries an immediate pushes. -/
def immWords (ty : Nat) : Nat := if wideTy ty then 2 else 1

def immWaits (w : IWord) (x : At) (act : Mask) : Verdict := Verdict.waitIf (destPending x act w.d (immWords w.ty.toNat))

/-- MOVI: IMM32 as its bits, sign-extended for .i64, zero-extended for .n64. -/
def moviValue (w : IWord) : Nat :=
  if w.ty.toNat = 2 then wrap 64 (sgn 32 w.imm.toNat) else w.imm.toNat

/-- FMOVI: the binary32 value of IMM32 under the type, by RNE. -/
def fmoviValue (w : IWord) : Nat :=
  let ty := w.ty.toNat
  if ty = 8 then w.imm.toNat
  else joinElems (elemWidth ty)
    (List.replicate (tyElems ty) (roundTo (decodeF .f32 w.imm.toNat) (elemFmt ty) 0 false 0).1)

def immWord (val : IWord → Nat) (w : IWord) (s : State) : Out :=
  plainWord w.pn w.pred (fun x act _ => immWaits w x act)
    (fun x act t => produce x act w.d (immWords w.ty.toNat) (w.ty.toNat == 0) (fun _ => val w) t) s

/-- The one source of MOVHI: q0 from before the word, which has no T bit (R303, R54). DESIGN CHOICE (notes/assumptions/62.md): R53
lists no operand field for it, and its REG_POISON record shows field 0. -/
def movhiRef : SrcRef := { fld := 0, code := 0x00#8 }

def movhiWord (w : IWord) (s : State) : Out :=
  runWord (firstMeaning w.pn w.pred
    (fun x act t => (Verdict.waitIf (destPending x act w.d 2)).and_ (srcVerdict x t act [movhiRef])) noCheck
    (fun x act t => produce x act w.d 2 false
      (fun l => (readSrc x act t 1 false 0x00#8 l).val + 2 ^ 32 * w.imm.toNat) (noteLatent x act [movhiRef] t))) s

/-! ### Pair words (R63 to R67) -/

/-- The sources of a slot, with the operand fields of R53: base, base + 1 and 12 for the implied third. -/
def slotRefs (base : Nat) (op : AOp) (w : FWord) : List SrcRef :=
  (refsOf op w).map (fun r => { r with fld := if r.fld = 2 then 12 else base + r.fld })

/-- The active lanes of a slot (R63). -/
def slotAct (x : At) (w : FWord) : Mask := activeOf x false w.pred

/-- Both slots read the state before the word; the waits of both come first, then the traps, slot A's before slot B's
(R67, R110). -/
def pairVerdict (a b : AOp × FWord) (x : At) (s : State) : Verdict :=
  let aa := slotAct x a.2
  let ab := slotAct x b.2
  let refs := (slotRefs 5 a.1 a.2).map (fun r => (aa, r)) ++ (slotRefs 7 b.1 b.2).map (fun r => (ab, r))
  (Verdict.waitIf (frameWait x s a.2.pred || frameWait x s b.2.pred || arithWaits a.1 a.2 x aa s
    || arithWaits b.1 b.2 x ab s)).and_
    ((srcsVerdict x s (refs.filter (fun r => r.2.fld != 12) ++ refs.filter (fun r => r.2.fld == 12))).withPoison (Verdict.all
      [predCheck x x.sd.mask a.2.pred.toNat, Verdict.all ((predReads a.1 a.2).map (predCheck x aa)),
        predCheck x x.sd.mask b.2.pred.toNat, Verdict.all ((predReads b.1 b.2).map (predCheck x ab))]))

/-- Slot A pushes first, slot B second, each with the results formed before the word (R66). -/
def pairEffect (a b : AOp × FWord) (x : At) (s : State) : State :=
  let aa := slotAct x a.2
  let ab := slotAct x b.2
  let ra := arithResult a.1 a.2 x aa s
  let rb := arithResult b.1 b.2 x ab s
  let s1 := noteReads x ab (slotRefs 7 b.1 b.2) (predReads b.1 b.2) (noteReads x aa (slotRefs 5 a.1 a.2) (predReads a.1 a.2) s)
  finish x (commitArith b.1 b.2 x ab rb (commitArith a.1 a.2 x aa ra s1))

/-- A pair word; a slot that is no pairable instruction traps ILLEGAL_OPCODE, and the checks of R64 to R67 are those of
wordTrap. -/
def execPairWord (rsv : Bool) (a b : Slot) (s : State) : Out :=
  match wordTrap (.pairWord rsv a b) with
  | some .illegalOpcode => issueWord (fun _ _ => .trap { code := cIllegalOpcode }) (fun _ t => t) s
  | some .illegalEncoding => issueWord (fun _ _ => .trap { code := cIllegalEncoding }) (fun _ t => t) s
  | some .illegalOperand => issueWord (fun _ _ => .trap { code := cIllegalOperand }) (fun _ t => t) s
  | none =>
    match a.arith?, b.arith? with
    | some oa, some ob => issueWord (pairVerdict oa ob) (pairEffect oa ob) s
    | _, _ => issueWord (fun _ _ => .trap { code := cIllegalOpcode }) (fun _ t => t) s

end Sys2Proof.Machine
end

