-- ==== Sys2Proof/Machine/LocalStore.lean ====
section
/-! DEFINITION. The local store: its addresses (R174), its full/empty bits, and LDS, STS, LDF, STF, SETE, SETF and ATOMS
(R175 to R179, R183). -/

namespace Sys2Proof.Machine

/-! ### A team's allocation, resident or saved (R174) -/

/-- A team, or one that holds nothing. -/
def teamD (s : State) (tid : Nat) : Team :=
  (s.team tid).getD { launch := 0, ctx := 0, core := 0, teamid := 0, lsBase := 0, lsSize := 0, tile0 := 0, ntiles := 0
                      bar0 := 0, nbars := 0, ncourses := 0, live := 0 }

/-- A local store, or a saved image of a team's part of it, with the first granule of the team. -/
structure LsView where
  cells  : List Host.Cell
  empty  : List Nat
  poison : List Nat
  base   : Nat

def lsView (s : State) (tid : Nat) : LsView :=
  match s.team tid with
  | none => ⟨[], [], [], 0⟩
  | some t =>
    if t.resident then
      let k := s.core t.core
      ⟨k.ls, k.lsEmpty, k.lsPoison, t.lsBase⟩
    else match Tab.find s.savedTeams tid with
      | some y => ⟨y.ls, y.lsEmpty, y.lsPoison, 0⟩
      | none => ⟨[], [], [], 0⟩

def lsPut (s : State) (tid : Nat) (v : LsView) : State :=
  match s.team tid with
  | none => s
  | some t =>
    if t.resident then s.modCore t.core (fun k => { k with ls := v.cells, lsEmpty := v.empty, lsPoison := v.poison })
    else { s with savedTeams := Tab.upd s.savedTeams tid (fun y => { y with
      ls := v.cells, lsEmpty := v.empty, lsPoison := v.poison }) }

/-- Bytes of a saved team's record, at an offset in it, beside what State holds of the record (R174, R393). -/
def recordPut (tid off : Nat) (b : List Byte) (s : State) : State :=
  match s.team tid with
  | none => s
  | some t =>
    if t.resident then s
    else match devWriteVa s t.ctx (t.recAt + off) b with
      | .ok s1 => s1
      | .error _ => s

/-- Offset of the local store in a team's record, and of its full/empty bits (R393). -/
def recordLs : Nat := 64
def recordFull (t : Team) : Nat := 64 + 16 * t.lsSize

/-- Bits of a granule map as bytes: bit j of byte k for granule 8 * k + j. -/
def bitByte (f : Nat → Bool) (k : Nat) : Byte :=
  BitVec.ofNat 8 (((List.range 8).map (fun j => if f (8 * k + j) then 2 ^ j else 0)).sum)

/-- Bytes of a team's allocation. -/
def lsRead (s : State) (tid off n : Nat) : List Byte :=
  let v := lsView s tid
  Memory.readN v.cells (16 * v.base + off) n

/-- The granules a range of bytes touches. -/
def granulesOf (off n : Nat) : List Nat :=
  (List.range ((off + n + 15) / 16 - off / 16)).map (fun i => off / 16 + i)

/-- A granule of the range is poisoned (R447). -/
def lsPoisoned (s : State) (tid off n : Nat) : Bool :=
  let v := lsView s tid
  (granulesOf off n).any (fun g => v.poison.contains (v.base + g))

/-- Bytes written; a granule's poison mark goes only when all its bytes are written (R447). -/
def lsWrite (tid off : Nat) (bytes : List Byte) (s : State) : State :=
  let v := lsView s tid
  let whole := (granulesOf off bytes.length).filter (fun g => off ≤ 16 * g && 16 * g + 16 ≤ off + bytes.length)
  recordPut tid (recordLs + off) bytes (lsPut s tid { v with
    cells := Memory.writeN v.cells (16 * v.base + off) bytes
    poison := v.poison.filter (fun g => !(whole.any (fun w => v.base + w == g))) })

/-- Granules marked poisoned. -/
def lsMark (tid : Nat) (gs : List Nat) (s : State) : State :=
  let v := lsView s tid
  lsPut s tid { v with poison := gs.foldl (fun acc g => insertSorted (v.base + g) acc) v.poison }

def lsFull (s : State) (tid g : Nat) : Bool :=
  let v := lsView s tid
  !(v.empty.contains (v.base + g))

def lsSetFull (tid g : Nat) (full : Bool) (s : State) : State :=
  let v := lsView s tid
  let rest := v.empty.filter (· != v.base + g)
  let e := if full then rest else insertSorted (v.base + g) rest
  let t := teamD s tid
  recordPut tid (recordFull t + g / 8) [bitByte (fun i => i < t.lsSize && !(e.contains (v.base + i))) (g / 8)]
    (lsPut s tid { v with empty := e })

/-! ### Addresses (R174) -/

inductive LsAt where
  | ok (team off : Nat)
  /-- the member has not started (R24) -/
  | wait
  | bad
  deriving DecidableEq, Repr

/-- The member of a team's panel as a local-store address names it. -/
def memberTeam (s : State) (tid i : Nat) : LsAt :=
  match ((s.team tid).bind Team.panel).bind (Tab.find s.panels) with
  | none => .bad
  | some p =>
    if p.nteams ≤ i then .bad
    else match Tab.find p.members i with
      | none => .wait
      | some t =>
        match s.team t with
        | some m => if m.started then .ok t 0 else .wait
        | none => .bad

/-- A local-store address as a team's courses and engine operations use it. -/
def lsAtTeam (s : State) (tid addr n : Nat) : LsAt :=
  let off := bitsOf addr 0 19
  let fit := fun (t : Nat) =>
    match s.team t with
    | some m => if 16 * m.lsSize < off + n then LsAt.bad else .ok t off
    | none => .bad
  if bitsOf addr 26 6 != 0 then .bad
  else if bitOf addr 25 then
    match memberTeam s tid (bitsOf addr 19 6) with
    | .ok t _ => fit t
    | w => w
  else if bitsOf addr 19 6 != 0 then .bad
  else fit tid

def lsAt (x : At) (s : State) (addr n : Nat) : LsAt := lsAtTeam s x.co.team addr n

/-- The smallest scope that contains two cores (R137). -/
def coreScope (m : Mode) (a b : Nat) : Nat :=
  if a = b then 1
  else if a / 4 = b / 4 then 2
  else if a / 64 = b / 64 then 3
  else if devOfDie m (a / 64) = devOfDie m (b / 64) then 4
  else 5

/-- Scope of a full-read, or of an ATOMS order, on a team's granule (R141, R183). -/
def lsScope (s : State) (c tid : Nat) : Nat :=
  if (s.courseD c).team = tid then 1
  else match s.team tid with
    | none => 1
    | some t =>
      if t.resident then coreScope s.mode (coreOf c) t.core
      else ((t.panel.bind (Tab.find s.panels)).map (fun p => p.scope.toNat)).getD 4

/-! ### Operations of a lane -/

def GranKind.reads : GranKind → Bool
  | .ldf _ | .lds _ => true
  | .atoms aop _ _ => aop != 9
  | .stf _ | .sts | .setf _ => false

/-- The acquires among the operations (R139, R183). -/
def GranKind.acquires : GranKind → Bool
  | .ldf _ => true
  | .atoms _ _ acq => acq
  | _ => false

def GranKind.isAtomic : GranKind → Bool
  | .atoms _ _ _ => true
  | _ => false

/-- Operations that change the local store (R146). -/
def GranKind.changes : GranKind → Bool
  | .lds _ => false
  | .ldf consume => consume
  | .atoms aop _ _ => aop != 8
  | .sts | .stf _ | .setf _ => true

/-- The counted waiters of R179. -/
def GranKind.counted : GranKind → Bool
  | .ldf _ => true
  | .stf wait => wait
  | _ => false

/-- The operations that wait before issue for room among the 256 (R179). -/
def GranKind.limited : GranKind → Bool
  | .ldf _ | .stf _ => true
  | _ => false

/-- SETE and SETF, which are performed in issue order with every local-store access of their course (R178). -/
def GranKind.inOrder : GranKind → Bool
  | .setf _ => true
  | _ => false

/-- A waiting operation of a saved course goes on only while its team is resident (R179). -/
def heldSaved (s : State) (g : GranOp) : Bool :=
  8192 ≤ g.course && match (Tab.find s.saved (g.course - 8192)).bind (fun v => s.team v.course.team) with
    | some t => !t.resident
    | none => false

/-- An access still to be performed or checked, or held as a replay entry until its course runs again. -/
def accessOpen (s : State) (id : Nat) : Bool :=
  (match Tab.find s.accesses id with
    | some a => a.undecided
    | none => false)
  || (Tab.vals s.courses).any (fun co => (Tab.find co.replay id).isSome)
  || (Tab.vals s.saved).any (fun y => (Tab.find y.course.replay id).isSome)

/-- An operation may be performed: its full/empty condition, the older operations of its course on the granule (R136,
R177), or any where one of the two is a SETE or a SETF (R178), and the operations and accesses before it (R140, R144, R146). -/
def granReady (s : State) (id : Nat) (g : GranOp) : Bool :=
  let full := lsFull s g.team (g.off / 16)
  let cond := match g.kind with
    | .ldf _ => full
    | .stf wait => !wait || !full
    | _ => true
  cond && !(heldSaved s g) && !(s.gran.any (fun e => e.1 < id && e.2.course == g.course
      && (g.kind.inOrder || e.2.kind.inOrder || (e.2.team == g.team && e.2.off / 16 == g.off / 16))))
    && !(g.after.any (fun i => (Tab.find s.gran i).isSome || accessOpen s i))

/-- The result of an operation placed in its arrival. -/
def granResult (g : GranOp) (v : Nat) (bad : Bool) (s : State) : State :=
  match g.result with
  | none => s
  | some id =>
    { s with arrivals := Tab.upd s.arrivals id (fun a => { a with
        vals := vset a.vals g.lane v, bad := if bad then a.bad ||| laneBit g.lane else a.bad }) }

def GranOp.read (g : GranOp) (s : State) : Nat × Bool := (ofBytes (lsRead s g.team g.off g.size), lsPoisoned s g.team g.off g.size)

/-- One operation performed in the local store. -/
def performGran (g : GranOp) (s : State) : State :=
  let (v, bad) := g.read s
  let gr := g.off / 16
  match g.kind with
  | .lds signed => granResult g (if signed then wrap 32 (sgn (8 * g.size) v) else v) bad s
  | .sts => lsWrite g.team g.off g.data s
  | .setf full => lsSetFull g.team gr full s
  | .stf _ => lsSetFull g.team gr true (lsWrite g.team g.off g.data s)
  | .ldf consume =>
    let s1 := granResult g v bad s
    let s2 := if consume then lsSetFull g.team gr false s1 else s1
    s2.acquire g.course (lsScope s g.course g.team)
  | .atoms aop size acq =>
    let s1 := granResult g v bad s
    let new := atomNew aop size v (ofBytes g.data) (ofBytes g.cmp)
    let s2 := if bad || aop == 8 then s1 else lsWrite g.team g.off (toBytes g.size new) s1
    if acq then s2.acquire g.course (lsScope s g.course g.team) else s2

/-- An operation issued: performed at once, or queued. -/
def issueGran (s : State) (g : GranOp) : State :=
  let (id, s1) := s.fresh
  if granReady s1 id g then performGran g s1 else { s1 with gran := Tab.put s1.gran id g }

/-- The waiting operations that are performed with one, indivisibly: for an ATOMS those of its word's lanes in one aligned 8-byte
word (R182, R183). -/
def granGroup (id : Nat) (g : GranOp) (s : State) : List Nat :=
  if g.kind.isAtomic then
    (s.gran.filter (fun e => e.2.word == g.word && e.2.kind.isAtomic && e.2.team == g.team && e.2.off / 8 == g.off / 8)).map Prod.fst
  else [id]

/-- A waiting operation performed, where it may be. -/
def serveGran (s : State) (id : Nat) : State :=
  match Tab.find s.gran id with
  | none => s
  | some g =>
    if granReady s id g && ((s.team g.team).isSome) then performGran g { s with gran := Tab.del s.gran id } else s

/-- GRANULE_OP_COMPLETE (R179): a waiting operation whose condition has come about, with its group. -/
def execGranuleOpComplete (id : Nat) (s : State) : Out :=
  match Tab.find s.gran id with
  | none => .next s
  | some g => if granReady s id g then .next (tidy g.course ((granGroup id g s).foldl serveGran s)) else .next s

/-! ### The words -/

/-- The sources of an M-form word: BASE, DATA, the index in D, the expected value (R53, R54, R164). -/
def memBase (w : MWord) (local_ : Bool) : SrcRef :=
  { fld := 3, code := w.base, t := w.t.getLsbD 1, ty := if local_ then 1 else 3, wide := !local_ }

def memIndex (w : MWord) (load : Bool) : List SrcRef :=
  if w.am = 1 then
    [if load then { fld := 4, code := w.data, t := w.t.getLsbD 0, ty := 0 } else { fld := 9, code := w.d, ty := 0 }]
  else []

/-- The type under which the constants of a stored value are read: plain words of its size (R69, R165). -/
def memData (w : MWord) : SrcRef :=
  { fld := 4, code := w.data, t := w.t.getLsbD 0, ty := if w.sz = 5 then 3 else 1, wide := w.sz == 5, quad := w.sz == 6 }

/-- Bytes of SIZE (R165). -/
def sizeBytes (sz : Nat) : Nat :=
  match sz with
  | 0 | 1 => 1
  | 2 | 3 => 2
  | 4 => 4
  | 5 => 8
  | _ => 16

/-- Entries a load pushes (R165). -/
def sizeWords (sz : Nat) : Nat :=
  match sz with
  | 5 => 2
  | 6 => 4
  | _ => 1

def sizeSigned (sz : Nat) : Bool := sz == 1 || sz == 3

/-- OFFSET, signed (R60). -/
def offsetOf (w : MWord) : Int := w.off.toInt

/-- The address of a lane: wrapped to its width; a block reference's offset field wraps alone (R164, R217). -/
def laneAddr (w : MWord) (local_ load : Bool) (n : Nat) (x : At) (act : Mask) (s : State) (l : Nat) : Nat :=
  let b := (memBase w local_).at_ x act s l
  let i : Int := match memIndex w load with
    | r :: _ => sgn 32 (r.at_ x act s l)
    | [] => 0
  if w.am = 2 then b / 2 ^ 32 * 2 ^ 32 + wrap 32 ((b % 2 ^ 32 : Nat) + offsetOf w * n)
  else wrap (if local_ then 32 else 64) (b + (i + offsetOf w) * n)

/-- A trap for the lanes of a mask, with the lowest one's address (R166, R168). -/
def laneTrap (code : Nat) (m : Mask) (addr : Nat → Nat) : Verdict :=
  match lowLane m with
  | none => .go
  | some l => .trap { code := code, cls := addr l % 2 ^ 64 + 2 ^ 64 * m.toNat }

def lanesWhere (act : Mask) (f : Nat → Bool) : Mask := maskOf (fun l => act.getLsbD l && f l)

/-- The active lanes whose operand is that of the lowest one: the lanes that name the address of a word that acts once
(R166). -/
def namedLanes (act : Mask) (f : Nat → Nat) : Mask :=
  match lowLane act with
  | some k => lanesWhere act (fun l => f l == f k)
  | none => 0#32

/-- ALIGNMENT (R166). -/
def alignCheck (act : Mask) (n : Nat) (addr : Nat → Nat) : Verdict :=
  laneTrap cAlignment (lanesWhere act (fun l => addr l % n != 0)) addr

/-- The local-store checks: the wait for a member, then LCL_RANGE (R24, R168). -/
def lsCheck (x : At) (act : Mask) (s : State) (n : Nat) (addr : Nat → Nat) : Verdict :=
  (Verdict.waitIf ((lanesOf act).any (fun l => lsAt x s (addr l) n == .wait))).and_
    (laneTrap cLclRange (lanesWhere act (fun l => lsAt x s (addr l) n == .bad)) addr)

/-- What a local-store word asks of one lane. -/
structure LocalWord where
  kind   : GranKind
  size   : Nat
  words  : Nat := 0
  signed : Bool := false
  release : Bool := false

/-- A waiting operation of a strand's own, or of the strands it came from. -/
def GranOp.ofStrand (x : At) (g : GranOp) : Bool := g.course == x.c && (g.mask &&& x.sd.mask) != 0#32

/-- A waiting operation that a younger access or operation of the course may not be performed before: an acquire of its own
strand (R140, R144), one wider than core for a load of any strand (R140), or, for an atomic, an atomic of its own strand
(R144). -/
def GranOp.precedes (x : At) (s : State) (reads atomic : Bool) (g : GranOp) : Bool :=
  (g.ofStrand x && (g.kind.acquires || (atomic && g.kind.isAtomic)))
    || (reads && g.course == x.c && g.kind.acquires && 2 ≤ lsScope s x.c g.team)

/-- A global access that a local-store operation of the course may not be performed before: an acquire (R140), one still to be
checked where the operation writes (R146), or, for an atomic, an atomic of its own strand (R144). -/
def Access.precedes (x : At) (k : GranKind) (a : Access) : Bool :=
  a.course == x.c && a.undecided &&
    (a.acquires || (k.changes && a.unchecked) || (k.isAtomic && a.kind.isAtomic && (a.own &&& x.sd.mask) != 0#32))

/-- What an operation of a strand may not be performed before. -/
def olderThan (x : At) (s : State) (k : GranKind) : List Nat :=
  (s.gran.filter (fun e => e.2.precedes x s k.reads k.isAtomic)).map Prod.fst
    ++ (s.accesses.filter (fun e => e.2.precedes x k)).map Prod.fst

/-- A global access of the strand waits to issue: its local-store acquires and atomics are performed first (R140, R144). -/
def heldByLocal (x : At) (s : State) (reads : Bool) : Bool := (Tab.vals s.gran).any (GranOp.precedes x s reads true)

/-- The operations of the active lanes, in ascending order. -/
def granOps (q : LocalWord) (x : At) (act : Mask) (s : State) (addr : Nat → Nat) (data cmp : Nat → Nat) (rid : Option Nat) :
    List GranOp :=
  let older := olderThan x s q.kind
  (lanesOf act).filterMap (fun l =>
    match lsAt x s (addr l) q.size with
    | .ok t off => some { course := x.c, team := t, off := off, kind := q.kind, size := q.size, lane := l, mask := x.sd.mask
                          data := toBytes q.size (data l), cmp := toBytes q.size (cmp l), result := rid, word := s.nextId
                          after := older }
    | _ => none)

/-- The effect of a local-store word: its results pushed empty, its operations issued. -/
def localEffect (q : LocalWord) (d : BitVec 8) (addr data cmp : At → Mask → State → Nat → Nat) (x : At) (act : Mask)
    (s : State) : State :=
  if act = 0#32 then (if q.words = 0 then s else produceLater x act d q.words 0 s)
  else
    let s0 := if q.release then s.release x.c else s
    if q.words = 0 then (granOps q x act s (addr x act s) (data x act s) (cmp x act s) none).foldl issueGran s0
    else
      let (rid, s1) := s0.fresh
      let a : Arrival := { course := x.c, lanes := act, words := q.words, vals := vconst 32 0, signed := q.signed }
      let s2 := produceLater x act d q.words rid { s1 with arrivals := Tab.put s1.arrivals rid a }
      (granOps q x act s (addr x act s) (data x act s) (cmp x act s) (some rid)).foldl issueGran s2

/-- A copy record that waits for a granule under WAITFE. -/
def Record.waitsGranule (r : Record) : Bool := r.blocked == .granule

/-- A matrix operation that has begun and reads or writes its rows granule by granule under WAITFE. -/
def MatOp.waitsGranules (o : MatOp) : Bool :=
  o.started && match decodeRaw o.word with
    | .accld w => w.fld 9 1 == 1
    | .accst w => w.fld 13 1 == 1
    | _ => false

/-- The engine waits on full/empty of a core: copy records, fills of streams, and the WAITFE rows of a matrix operation that
has begun (R179, R212). -/
def engineWaits (s : State) (core : Nat) : Nat :=
  let k := s.core core
  ((Tab.vals k.claimed).filter (fun e => e.2.waitsGranule)).length
    + (s.teams.filter (fun e => e.2.resident && e.2.core == core)).foldl (fun n (e : Nat × Team) =>
        n + (((vlist e.2.streams).flatMap Stream.frags).filter (fun f => f.fill.isSome)).length) 0
    + (match k.mq with
      | o :: _ => if o.waitsGranules then 1 else 0
      | [] => 0)

/-- The counted operations waiting in a core's local-store unit (R179). -/
def granWaiting (s : State) (core : Nat) : Nat :=
  ((Tab.vals s.gran).filter (fun g => g.kind.counted && ((s.team g.team).map (fun t => t.resident && t.core == core)).getD false)).length
    + engineWaits s core

def granCores (x : At) (act : Mask) (s : State) (n : Nat) (addr : Nat → Nat) : List Nat :=
  (lanesOf act).filterMap (fun l => match lsAt x s (addr l) n with
    | .ok t _ => (s.team t).map Team.core
    | _ => none)

/-- The 256 waiting operations a core holds (R179). -/
def granLimit (q : LocalWord) (x : At) (act : Mask) (s : State) (addr : Nat → Nat) (after : State) : Verdict :=
  Verdict.waitIf (q.kind.limited && (granCores x act s q.size addr).any (fun k =>
    256 ≤ granWaiting s k || 256 < granWaiting after k))

/-- The widest scope of the granules that a word's active lanes name: that of the release they make (R141, R183). -/
def localScope (x : At) (act : Mask) (s : State) (q : LocalWord) (addr : Nat → Nat) : Nat :=
  (lanesOf act).foldl (fun n l => match lsAt x s (addr l) q.size with
    | .ok t _ => max n (lsScope s x.c t)
    | _ => n) 1

/-- The plain value of a source, 0 where the word has none. -/
def refVal (refs : List SrcRef) (x : At) (act : Mask) (s : State) (l : Nat) : Nat :=
  match refs with
  | r :: _ => r.at_ x act s l
  | [] => 0

/-- A local-store word: sources, ALIGNMENT, LCL_RANGE, then the release it performs and the room it needs. -/
def localMeaning (w : MWord) (q : LocalWord) (load : Bool) (data cmp : List SrcRef) : Meaning :=
  let addr := fun (x : At) (act : Mask) (t : State) => laneAddr w true load q.size x act t
  let d := if q.words = 0 then 0xFF#8 else w.d
  let eff := localEffect q d addr (refVal data) (refVal cmp)
  sourcedMeaning w.pn w.pred (fun x act _ => Verdict.waitIf (destPending x act d q.words))
    ([memBase w true] ++ data ++ memIndex w load ++ cmp)
    (fun x act t => Verdict.all [
      alignCheck act q.size (addr x act t),
      lsCheck x act t q.size (addr x act t),
      (if q.release && act != 0#32 then (Verdict.waitIf (x.pending t (localScope x act t q (addr x act t)))).and_ (releaseLimit x)
        else .go),
      granLimit q x act t (addr x act t) (eff x act t)])
    eff

/-- LDS; a g copy receives its value as LD's does (notes/assumptions/61.md). -/
def ldsMeaning (w : MWord) : Meaning :=
  localMeaning w { kind := .lds (sizeSigned w.sz), size := sizeBytes w.sz, words := sizeWords w.sz } true [] []

def execLds (w : MWord) (s : State) : Out := runWord (ldsMeaning w) s

/-- STS. -/
def stsMeaning (w : MWord) : Meaning :=
  localMeaning w { kind := .sts, size := sizeBytes w.sz } false [memData w] []

def execSts (w : MWord) (s : State) : Out := runWord (stsMeaning w) s

/-- LDF: HINT 1 consumes. -/
def ldfMeaning (w : MWord) : Meaning :=
  localMeaning w { kind := .ldf (w.ht == 1), size := sizeBytes w.sz, words := sizeWords w.sz } true [] []

def execLdf (w : MWord) (s : State) : Out := runWord (ldfMeaning w) s

/-- STF: HINT 0 waits for empty. -/
def stfMeaning (w : MWord) : Meaning :=
  localMeaning w { kind := .stf (w.ht == 0), size := sizeBytes w.sz, release := true } false [memData w] []

def execStf (w : MWord) (s : State) : Out := runWord (stfMeaning w) s

/-- SETE. -/
def seteMeaning (w : MWord) : Meaning :=
  localMeaning w { kind := .setf false, size := 16 } false [] []

def execSete (w : MWord) (s : State) : Out := runWord (seteMeaning w) s

/-- SETF. -/
def setfMeaning (w : MWord) : Meaning :=
  localMeaning w { kind := .setf true, size := 16, release := true } false [] []

def execSetf (w : MWord) (s : State) : Out := runWord (setfMeaning w) s

/-- The sources of an atomic (R180). -/
def atomTy (size : Nat) : Nat :=
  match size with
  | 0 => 1
  | 1 => 0
  | 2 => 3
  | 3 => 2
  | 4 => 8
  | 5 => 9
  | 6 => 10
  | _ => 13

def atomData (w : MWord) : List SrcRef :=
  if w.aop = 8 then [] else [{ fld := 4, code := w.data, t := w.t.getLsbD 0, ty := atomTy w.sz, wide := atomWide w.sz }]

def atomCmp (w : MWord) : List SrcRef :=
  if w.aop = 7 then [{ fld := 10, code := w.cmp, ty := atomTy w.sz, wide := atomWide w.sz }] else []

/-- An atomic has no address offset: its fields stand in place of OFFSET. -/
def noOffset (w : MWord) : MWord := { w with off := 0#16 }

/-- Entries an atomic pushes (R181). -/
def atomWords (w : MWord) : Nat := if w.aop = 9 then 0 else if atomWide w.sz then 2 else 1

/-- ATOMS. -/
def atomsMeaning (w : MWord) : Meaning :=
  localMeaning (noOffset w)
    { kind := .atoms w.aop w.sz (w.order % 2 == 1), size := atomBytes w.sz, words := atomWords w
      signed := w.sz == 1, release := 2 ≤ w.order }
    false (atomData w) (atomCmp w)

def execAtoms (w : MWord) (s : State) : Out := runWord (atomsMeaning w) s

/-! ### WAITF (R407) -/

def isGran (w : FWord) : Bool := w.fld 0 1 == 1

/-- The granules of the active lanes are full, and no older operation of the course on them is queued. -/
def granulesFull (x : At) (act : Mask) (s : State) (addr : Nat → Nat) : Bool :=
  (lanesOf act).all (fun l => match lsAt x s (addr l) 16 with
    | .ok t off => lsFull s t (off / 16)
        && !((Tab.vals s.gran).any (fun g => g.course == x.c && g.team == t && g.off / 16 == off / 16))
    | _ => true)

def waitfCheck (w : FWord) (x : At) (act : Mask) (s : State) : Verdict :=
  if isGran w then
    let addr := (numRef w 0 false).at_ x act s
    Verdict.all [alignCheck act 16 addr, lsCheck x act s 16 addr, Verdict.waitIf (!(granulesFull x act s addr))]
  else .go

/-- The acquire of WAITF on granules (R408). -/
def waitfEffect (w : FWord) (x : At) (act : Mask) (s : State) : State :=
  if isGran w then
    (lanesOf act).foldl (fun acc l => match lsAt x s ((numRef w 0 false).at_ x act s l) 16 with
      | .ok t _ => acc.acquire x.c (lsScope s x.c t)
      | _ => acc) s
  else s

/-- WAITF (R407, R408): waits for a register, or for granules, in every active lane. -/
def execWaitf (w : FWord) (s : State) : Out :=
  runWord (sourcedMeaning w.pn w.pred noCheck [numRef w 0 false] (waitfCheck w) (waitfEffect w)) s

end Sys2Proof.Machine
end

