-- ==== Sys2Proof/Machine/Migrate.lean ====
section
/-! DEFINITION. Migration hints and migrations: MIGR, and the events of the far dies' migration engines (R225 to R227). -/

namespace Sys2Proof.Machine

/-! ### Hints (R225) -/

/-- The far die whose engine serves the courses of a near die (R14; DESIGN CHOICE for mode ONE, notes/assumptions/55.md). -/
def farOf (die : Nat) : Nat := die / 2

def poolKey (ctx : Nat) (page near : Bool) : Nat := 4 * ctx + (if page then 2 else 0) + (if near then 1 else 0)

def State.migEngine (s : State) (f : Nat) : MigEngine := vget s.mig {} f
def State.modMig (s : State) (f : Nat) (g : MigEngine → MigEngine) : State := { s with mig := vset s.mig f (g (s.migEngine f)) }

/-- The pool a migration takes its destination from. -/
def poolOf (s : State) (f : Nat) (m : Migration) : List Nat :=
  Tab.getD (s.migEngine f).pools [] (poolKey m.ctx (!m.block) m.promote)

/-- A hint dropped, and counted in telemetry. -/
def dropHint (ctx : Nat) (s : State) : State := s.count ctx 112 1

/-- The page a hint names is in the tier the hint wants to leave. -/
def pageTierOk (dev : Nat) (promote : Bool) (pa : Nat) : Bool := Config.farTier dev pa == promote

/-- The block state a hint of a direction needs: near for a demotion, far for a promotion. -/
def tierOk (promote : Bool) (tier : Nat) : Bool := tier == (if promote then 1 else 0)

/-- The page that holds an intermediate address is mapped to the context. -/
def ownsIa (cx : Ctx) (ia : Nat) (s : State) : Bool :=
  match walk s cx.dev (ia % 2 ^ 48) false with
  | .leaf e _ _ _ => ctxOwner cx (pteOwner e)
  | .fault _ _ => false

/-- A hint for a block: none where it is dropped, as where a read of the block would fault. -/
def blockHint (x : At) (promote enc : Bool) (ref : Nat) (s : State) : Option Migration :=
  let cx := x.ctx s
  let t := tableOf cx ref
  if refRange cx ref 0 || !bitOf t.perm 0 then none
  else match blockLook s x.co.ctx ref with
    | .error _ => none
    | .ok d =>
      if tierOk promote d.tier && ownsIa cx (d.ia + refOff ref) s then
        some { ctx := x.co.ctx, dev := cx.dev, core := coreOf x.c, team := x.co.team, promote := promote, enc := enc
               block := true, ia := d.key, size := 2 ^ t.log2bs }
      else none

/-- Bytes of a page of a size code (R424). -/
def pageBytes (sz : Nat) : Nat := levelBytes (szLevel sz) * szRun sz

/-- A hint for the page that holds an intermediate address: none where it is not mapped to the context, in the tier already, or
migrating. -/
def pageAt (x : At) (promote : Bool) (ia : Nat) (s : State) : Option Migration :=
  let cx := x.ctx s
  match walk s cx.dev (ia % 2 ^ 48) false with
  | .fault _ _ => none
  | .leaf e _ _ pa =>
    if 2 ^ 48 ≤ ia || !(ctxOwner cx (pteOwner e)) || !(pageTierOk cx.dev promote pa) || (migratingPage s cx.dev (ia % 2 ^ 48)).isSome then none
    else
      let n := pageBytes (pteSz e)
      some { ctx := x.co.ctx, dev := cx.dev, core := coreOf x.c, team := x.co.team, promote := promote, enc := false
             block := false, ia := ia % 2 ^ 48 / n * n, size := n }

/-- A hint for the page that holds a virtual address, where a read of it would not fault. -/
def pageHint (x : At) (promote : Bool) (va : Nat) (s : State) : Option Migration :=
  match findRange (x.ctx s) va with
  | none => none
  | some (_, r) => if rrPod r || !rrR r then none else pageAt x promote (rangeIa r va) s

/-- A hint handed to the engine, or dropped: its pool must hold space. -/
def giveHint (x : At) (h : Option Migration) (s : State) : State :=
  match h with
  | none => dropHint x.co.ctx s
  | some m =>
    let f := farOf (dieOf x.c)
    if (poolOf s f m).isEmpty then dropHint x.co.ctx s
    else s.modMig f (fun e => { e with queue := e.queue ++ [m] })

/-- MIGR's hint, from the operand of the lowest active lane (R191). -/
def migrHint (w : FWord) (x : At) (v : Nat) (s : State) : Option Migration :=
  match w.fld 0 2 with
  | 0 => blockHint x false (w.fld 2 1 == 1) v s
  | 1 => blockHint x true false v s
  | 2 => pageHint x false v s
  | _ => pageHint x true v s

/-- MIGR. -/
def execMigr (w : FWord) (s : State) : Out :=
  runWord (sourcedMeaning w.pn w.pred noCheck [numRef w 0 true] noCheck
    (fun x act t =>
      if act = 0#32 then t
      else giveHint x (migrHint w x ((numRef w 0 true).low x act t) t) t)) s

/-! ### The engine (R226) -/

/-- The descriptor a block migration works on. -/
def migDesc (s : State) (m : Migration) : Desc := descFrom 0 0 0 m.ia (s.readUnder (Tab.getD s.lineKey 0 (m.ia / 128)) m.ia 32)

/-- A field of a descriptor written at its home. -/
def putDesc (m : Migration) (off n v : Nat) (s : State) : State :=
  s.writeMem (m.ia + off) (toBytes n v) (Tab.getD s.lineKey 0 (m.ia / 128))

/-- The issuing team owns the core's codebook (R227). -/
def ownsCodebook (s : State) (m : Migration) : Bool :=
  match (s.core m.core).codebook with
  | some t => t.team == m.team
  | none => false

/-- A queued migration may still begin. -/
def migStarts (s : State) (f : Nat) (m : Migration) : Bool :=
  !(poolOf s f m).isEmpty &&
  (if m.block then tierOk m.promote (migDesc s m).tier && (!m.enc || ownsCodebook s m)
   else match walk s m.dev m.ia false with
    | .leaf _ _ _ pa => pageTierOk m.dev m.promote pa && (migratingPage s m.dev m.ia).isNone
    | .fault _ _ => false)

/-- A lane of a write that has found its block by a descriptor, and has not been performed. -/
def throughDesc (s : State) (a : Access) (desc : Nat) (x : LaneAcc) : Bool :=
  x.block && (match x.stage with
    | .at_ _ => true
    | _ => false) && match readDesc s a.ctx (tableOf (s.ctx a.ctx) x.addr) 0 x.idx with
      | .ok d => d.key == desc
      | .error _ => false

/-- A migration waits for a copy-on-write of its block to end, and for the writes on their way to its block or page, so that none
of them is performed in the copy that the flip leaves behind (R226). -/
def migHeld (s : State) (m : Migration) : Bool :=
  if m.block then (cowOn s m.ia).isSome || (Tab.vals s.accesses).any (fun a => a.kind.updates && (Tab.vals a.lanes).any (throughDesc s a m.ia))
  else (Tab.vals s.accesses).any (fun a => a.kind.writes && (s.ctx a.ctx).dev == m.dev && (Tab.vals a.lanes).any (fun x =>
    match x.stage with
    | .at_ _ => m.ia ≤ x.ia && x.ia < m.ia + m.size
    | _ => false))

/-- MIGRATION_START (R226): the hint at the head begins, or is dropped. -/
def execMigrationStart (far : Nat) (s : State) : Out :=
  match (s.migEngine far).active, (s.migEngine far).queue with
  | none, m :: rest =>
    if migHeld s m then .next s
    else if !(migStarts s far m) then .next (dropHint m.ctx (s.modMig far (fun e => { e with queue := rest })))
    else
      let dest := (poolOf s far m).head?.getD 0
      let s1 := s.modMig far (fun e => { e with
        queue := rest, active := some { m with dest := dest, table := if m.enc then (s.core m.core).codebook else none }
        pools := Tab.put e.pools (poolKey m.ctx (!m.block) m.promote) ((poolOf s far m).drop 1) })
      if m.block then .next (putDesc m 24 8 dest (putDesc m 10 1 ((migDesc s m).state / 4 * 4 + 2) s1)) else .next s1
  | _, _ => .next s

/-- Squared distance of a group of elements from a codebook entry: both as 8 elements of 16 bits (R227). DESIGN CHOICE
(notes/assumptions/66.md), where R227 gives none: a NaN and an infinite element count as 0. -/
def groupDist (bf16 : Bool) (a b : List Byte) : Q :=
  let f := if bf16 then Fmt.bf16 else Fmt.f16
  Q.sum (List.zipWith (fun x y =>
    let d := (decodeF f x).toQ.sub (decodeF f y).toQ
    d.mul d) (elemsOf 16 8 (ofBytes a)) (elemsOf 16 8 (ofBytes b)))

/-- Nearest entry of a table to a group, the lowest index on a tie. -/
def nearest (t : Codebook) (g : List Byte) : Nat :=
  ((List.range t.count).foldl (fun (best : Option (Nat × Q)) i =>
    let d := groupDist t.bf16 g ((t.bytes.drop (16 * i)).take 16)
    match best with
    | none => some (i, d)
    | some (j, e) => if d.lt e then some (i, d) else some (j, e)) none).map Prod.fst |>.getD 0

/-- The indices of a block, packed: 8 bits for at most 256 entries, else 12 (R227). DESIGN CHOICE (notes/assumptions/66.md), where
R227 is silent: the bytes of a block that is encoded already are encoded like any others. -/
def encodeBlock (t : Codebook) (bytes : List Byte) : List Byte :=
  let n := bytes.length / 16
  let idx := (List.range n).map (fun i => nearest t ((bytes.drop (16 * i)).take 16))
  if t.count ≤ 256 then idx.map (BitVec.ofNat 8) else toBytes ((12 * n + 7) / 8) (joinElems 12 idx)

/-- Shadows moved with a page (R226); the old frame has none, when it is mapped again (R149). -/
def moveShadow (k k2 n : Nat) (s : State) : State :=
  { s with shadow := (List.range (n / 128)).foldl (fun t i =>
      match Tab.find s.shadow (k / 128 + i) with
      | some h => Tab.put (Tab.del t (k / 128 + i)) (k2 / 128 + i) h
      | none => Tab.del t (k2 / 128 + i)) s.shadow }

/-- The block's bytes copied, or encoded with the table the migration began with; none where a byte cannot be reached. -/
def copyBlock (m : Migration) (d : Desc) (s : State) : Option State :=
  match m.table with
  | some t => (iaRead s m.dev d.ia m.size).bind (fun b => iaWrite s m.dev m.dest (encodeBlock t b))
  | none =>
    let l := blockPieces d.ia m.dest m.size
    if l.all (fun e => (iaKey s m.dev e.1).isSome && (iaKey s m.dev e.2.1).isSome) then some (copyIa m.dev s l) else none

/-- The records that were claimed before a block's descriptor flips go on reading the copy that it names now (R226, R227). -/
def keepSource (d : Desc) (s : State) : State :=
  { s with cores := s.cores.map (fun e => (e.1, { e.2 with claimed := e.2.claimed.map (fun c =>
      if c.2.2.skind == 1 && (Tab.find c.2.2.was d.key).isNone then
        (c.1, (c.2.1, { c.2.2 with was := Tab.put c.2.2.was d.key (d.ia, d.state, d.tag) }))
      else c) })) }

/-- The flip of a block: the copy is complete, and the descriptor is rewritten in one write; none where the block cannot be
copied. -/
def flipBlock (m : Migration) (s : State) : Option State :=
  let d := migDesc s m
  let tier := if m.promote then 0 else 1
  (copyBlock m d (keepSource d s)).map (fun s1 =>
    let s2 := putDesc m 10 1 (if m.enc then tier + 4 else d.state / 4 * 4 + tier) (putDesc m 0 8 m.dest s1)
    let s3 := match m.table with
      | some t => putDesc m 12 2 t.tag s2
      | none => s2
    putDesc m 16 4 ((d.gen + 1) % 2 ^ 32) s3)

/-- The page entries of a page, each with its key and the share of the page it maps. -/
def pageEntries (s : State) (dev ia : Nat) : List (Nat × DWord × Nat) :=
  match walk s dev ia false with
  | .fault _ _ => []
  | .leaf e level key _ =>
    (List.range (szRun (pteSz e))).map (fun i => (key + 8 * i, BitVec.ofNat 64 (s.memNum (key + 8 * i) 8), levelBytes level))

/-- An entry with another page address. -/
def withPa (e : DWord) (pa : Nat) : DWord :=
  BitVec.ofNat 64 (e.toNat / 2 ^ 48 * 2 ^ 48 + pa / 4096 % 2 ^ 32 * 2 ^ 16 + e.toNat % 2 ^ 16)

/-- The read logs follow the lines of a page to its new frame (R148, R152). -/
def moveLogs (k k2 n : Nat) (s : State) : State :=
  { s with courses := s.courses.map (fun e => (e.1, { e.2 with readLog := e.2.readLog.map (fun l =>
      if k / 128 ≤ l && l < (k + n) / 128 then k2 / 128 + (l - k / 128) else l) })) }

/-- The flip of a page: its bytes, poison, shadows and read logs moved, then every entry of its run; no home keeps a translation
to the old frame. -/
def flipPage (m : Migration) (s : State) : State :=
  let es := pageEntries s m.dev m.ia
  let s1 := ((List.range es.length).zip es).foldl (fun acc (i, key, e, n) =>
    let k := physKey m.dev (ptePa e)
    let k2 := physKey m.dev (m.dest + i * n)
    let a1 := acc.writeMem k2 (acc.readUnder (pteKey e) k n) (pteKey e)
    let bad := (linesOf k n).filter (fun l => acc.memPoison.contains l)
    let a2 := { a1 with memPoison := bad.foldl (fun t l => insertSorted (k2 / 128 + (l - k / 128)) t) a1.memPoison }
    (moveLogs k k2 n (moveShadow k k2 n a2)).setPte key (withPa e (m.dest + i * n))) s
  s1.modDev m.dev (fun d => { d with tlb := d.tlb.filter (fun e => !(m.ia ≤ 4096 * e.1 && 4096 * e.1 < m.ia + m.size)) })

/-- A migration abandoned: STATE restored, the destination given back, the writes go on. -/
def abandonMig (far : Nat) (m : Migration) (s : State) : State :=
  let s1 := s.modMig far (fun e => { e with
    active := none, pools := Tab.put e.pools (poolKey m.ctx (!m.block) m.promote) (m.dest :: poolOf s far m) })
  let s2 := if m.block then putDesc m 10 1 ((migDesc s m).state / 4 * 4 + (if m.promote then 1 else 0)) s1 else s1
  s2.unstall m.ia

/-- MIGRATION_FLIP (R226); a block that cannot be copied stays where it is. -/
def execMigrationFlip (far : Nat) (s : State) : Out :=
  match (s.migEngine far).active with
  | none => .next s
  | some m =>
    let s1 := s.modMig far (fun e => { e with active := none })
    match if m.block then flipBlock m s1 else some (flipPage m s1) with
    | some t => .next (t.unstall m.ia)
    | none => .next (abandonMig far m s)

/-- MIGRATION_ABANDON (R226). -/
def execMigrationAbandon (far : Nat) (s : State) : Out :=
  match (s.migEngine far).active with
  | none => .next s
  | some m => .next (abandonMig far m s)

end Sys2Proof.Machine
end

