-- ==== Sys2Proof/Machine/System.lean ====
section
/-! DEFINITION. The system instructions: special registers, traps, signals and counters (R97 to R108). PTEW is with the
memory instructions. -/

namespace Sys2Proof.Machine

/-! ### Special registers (R98 to R102) -/

def modeCode : Mode → Nat
  | .one => 0
  | .two => 1
  | .four => 2

/-- STATUS (R99). -/
def statusOf (x : At) (s : State) : Nat :=
  (if x.co.uconflict then 1 else 0) + 2 * (x.co.ucidx % 32) + (if x.co.readySent then 2 ^ 8 else 0)
    + (if (x.ctx s).priv then 2 ^ 9 else 0) + 2 ^ 10 * modeCode s.mode
    + 2 ^ 12 * ((x.co.liveStrands.map (fun i => 2 ^ i)).sum)

/-- DEVINFO (R98). -/
def devinfoOf (x : At) (s : State) : Nat :=
  let d := (x.ctx s).dev
  modeCode s.mode + 4 * d + 16 * (s.dev d).podId.toNat

/-- The value of a special register as a strand reads it (R98, R101). -/
def sregValue (x : At) (s : State) (n : Nat) : Nat :=
  match n with
  | 0x000 => statusOf x s
  | 0x001 => x.co.seed.toNat
  | 0x002 => x.co.fpflags.toNat % 64
  | 0x003 => x.co.prio % 16 + 16 * min 15 (x.co.prio + x.sd.level)
  | 0x004 => x.co.region
  | 0x005 => x.co.corcnt.toNat
  | 0x006 => x.co.reiscnt.toNat
  | 0x008 => x.co.name.toNat
  | 0x009 => (x.ctx s).asid
  | 0x00A => devinfoOf x s
  | 0x010 => (x.ctx s).errq.toNat
  | 0x020 => (s.aon + s.pkgBase.toNat) % 2 ^ 64
  | 0x021 => s.pkgSkew.toNat
  | _ => 0

def sregWide (n : Nat) : Bool := n == 0x008 || n == 0x010 || n == 0x020

/-- Registers that only a privileged context reads (R97). -/
def sregPriv (n : Nat) : Bool := n == 0x020 || n == 0x021

/-- A queued operation of the course owes a value to lanes of the strand. -/
def owesValue (x : At) (o : Owner) (act : Mask) (result : Option Nat) : Bool :=
  result.isSome && o.course == x.c && o.name == x.co.name && (act &&& x.sd.mask) != 0#32

/-- An older long-latency value of the strand is still to arrive, wherever it is to land (R51). -/
def valuesPending (x : At) (s : State) : Bool :=
  (Tab.vals s.arrivals).any (fun a => a.course == x.c && (a.lanes &&& x.sd.mask) != 0#32)
    || (s.core (coreOf x.c)).mq.any (fun o => owesValue x o.owner o.act o.result)
    || (s.core (coreOf x.c)).swq.any (fun o => owesValue x o.owner o.act o.result)
    || x.co.remat.any (fun o => owesValue x o.owner o.act o.result)
    || (Tab.vals s.accesses).any (fun a => a.course == x.c && a.words != 0 && a.lanes.any (fun e => x.sd.mask.getLsbD e.1))
    || (lanesOf x.sd.mask).any (fun l => (vlist (vget x.sd.q (vconst 16 {}) l)).any (fun e => e.await.isSome))

/-- PRIVILEGED, the first check of MFS (R97, R110). -/
def mfsFirst (w : FWord) (x : At) (s : State) : Verdict :=
  Verdict.trapIf (sregPriv (w.fld 0 12) && !(x.ctx s).priv) { code := cPrivileged }

def mfsCheck (w : FWord) (x : At) (act : Mask) (s : State) : Verdict :=
  let n := w.fld 0 12
  Verdict.all [
    Verdict.waitIf (n == 0x002 && valuesPending x s),
    Verdict.waitIf (destPending x act w.d (if sregWide n then 2 else 1)),
    Verdict.trapIf (act != 0#32 && x.co.sBad.contains n) (regTrap (8 + n) act)]

/-- MFS (R101). -/
def execMfs (w : FWord) (s : State) : Out :=
  runWord (firstMeaning w.pn w.pred (fun x _ t => mfsFirst w x t) (mfsCheck w)
    (fun x act t => produce x act w.d (if sregWide (w.fld 0 12) then 2 else 1) false (fun _ => sregValue x t (w.fld 0 12)) t)) s

/-- The course after a write of a special register: RO fields ignore it, W1C fields clear (R99, R100, R102). -/
def writeSreg (n v : Nat) (co : Course) : Course :=
  match n with
  | 0x000 => if v % 2 = 1 then { co with uconflict := false, ucidx := 0 } else co
  | 0x001 => { co with seed := if v = 0 then 1#32 else BitVec.ofNat 32 v }
  | 0x002 => { co with fpflags := co.fpflags &&& ~~~(BitVec.ofNat 32 v) }
  | _ => co

/-- MTS (R102): the value of the lowest active lane; nothing with no lane active. -/
def execMts (w : FWord) (s : State) : Out :=
  runWord (sourcedMeaning w.pn w.pred (fun x _ t => Verdict.waitIf (w.fld 0 12 == 0x002 && valuesPending x t))
    [numRef w 0 false] noCheck
    (fun x act t =>
      if act = 0#32 then t
      else t.modCourse x.c (fun co => (writeSreg (w.fld 0 12) ((numRef w 0 false).low x act t) co).cleanSreg (w.fld 0 12)))) s

/-! ### Errors of the register files (R56) -/

/-- The word of a register poisoned, for every lane it is kept in. -/
def poisonReg (p : RegPlace) (co : Course) : Course :=
  let bad := fun (e : Entry) => { e with poison := true, noted := false }
  match p with
  | .q st n m => co.modStrand st (fun y => { y with q := vmapIdx (fun l ql =>
      if m.getLsbD l then vset ql n (bad (vget ql {} n)) else ql) y.q })
  | .v n m => co.mapV n m bad
  | .g st n => co.modStrand st (fun y => { y with g := vset y.g n { vget y.g {} n with poison := true, noted := false } })
  | .p n => if n < 7 then { co with pBad := vset co.pBad n 0xFFFFFFFF#32, pNoted := vset co.pNoted n 0#32 } else co
  | .sreg n => { co with sBad := n :: co.sBad.filter (· != n) }

/-- A bit error found: a corrected one only counts, another poisons the word. -/
def regError (c : Nat) (p : RegPlace) (corrected : Bool) (s : State) : State :=
  match s.course c with
  | none => s
  | some co => if corrected then s.count co.ctx 88 1 else s.modCourse c (poisonReg p)

/-- An uncorrectable error in the line at an intermediate address, found at its home: the line is marked, and MEM_UE posted once
(R447). -/
def memError (dev ia : Nat) (s : State) : State :=
  match iaKey s dev (ia / 128 * 128) with
  | none => s
  | some (key, _) =>
    if s.memPoison.contains (key / 128) then s
    else { s with memPoison := insertSorted (key / 128) s.memPoison }.postMlog dev { code := cMemUe, ia := ia }

/-! ### TRAP and BKPT (R103, R104) -/

def trapRefs (w : FWord) : List SrcRef := if isNone w.sa then [] else [numRef w 0 false]

def softwareTrap (w : FWord) (x : At) (act : Mask) (s : State) : Trap :=
  { code := cSoftwareTrap
    cls := cls4 (w.fld 0 8) (if isNone w.sa then 0 else (numRef w 0 false).low x act s) act.toNat 0 }

/-- TRAP (R103): with a lane active the course stops after the word; with none, TRAP has no effect. -/
def execTrap (w : FWord) (s : State) : Out :=
  runWord
    { verdict := fun x t => framed x t w.pred (srcVerdict x t (activeOf x w.pn w.pred) (trapRefs w))
      effect := fun x t =>
        let act := activeOf x w.pn w.pred
        let t1 := noteLatent x act (trapRefs w) t
        if act = 0#32 then finish x t1 else stopAfter x (softwareTrap w x act t) t1 } s

/-- BREAKPOINT's trap. -/
def breakTrap (w : FWord) (x : At) : Trap := { code := cBreakpoint, cls := cls4 (w.fld 0 8) x.sd.mask.toNat 0 0 }

/-- BKPT (R104): a halt with its own reason, be the course let go for this word alone, where hxdb is attached to the context, else BREAKPOINT; the saved PC is that of the next word. -/
def execBkpt (w : FWord) (s : State) : Out :=
  runWord
    { verdict := fun x t => frameCheck x t w.pred
      effect := fun x t =>
        if (x.ctx t).debugger then finish x (t.modCourse x.c (fun co => { co.hold (w.fld 0 8) with halted := some (w.fld 0 8) })) else stopAfter x (breakTrap w x) t } s

/-! ### SIGNAL (R105 to R107) -/

/-- The launch of a course. -/
def launchOf (x : At) (s : State) : Nat := ((s.team x.co.team).map Team.launch).getD 0

/-- The notifications of a launch that the hub holds (R107, R481). -/
def notesHeld (s : State) (dev launch : Nat) : Nat :=
  (((s.dev dev).noteApp ++ (s.dev dev).noteHost).filter (fun n => n.launch == launch)).length

def isNotify (w : FWord) : Bool := w.fld 0 4 == 1

/-- The waits and the trap of the release a SIGNAL performs (R106, R107, R140, R147). -/
def signalCheck (w : FWord) (x : At) (act : Mask) (s : State) : Verdict :=
  if act = 0#32 || (!isNotify w && x.co.readySent) then .go
  else (Verdict.waitIf (x.pending s 4
      || (isNotify w && 64 ≤ notesHeld s (x.ctx s).dev (launchOf x s)))).and_ (releaseLimit x)

/-- A notification handed to the hub for the agent the command named. -/
def raiseNote (x : At) (v : Word) (s : State) : State :=
  match Tab.find s.launches (launchOf x s) with
  | none => s
  | some l =>
    let n : Note := { launch := launchOf x s, queue := l.queue, seq := l.seq, value := v }
    s.modDev (x.ctx s).dev (fun d =>
      if l.toHost then { d with noteHost := d.noteHost ++ [n] } else { d with noteApp := d.noteApp ++ [n] })

def signalEffect (w : FWord) (x : At) (act : Mask) (s : State) : State :=
  if act = 0#32 then s
  else if isNotify w then raiseNote x (BitVec.ofNat 32 ((numRef w 0 false).low x act s)) (s.release x.c)
  else if x.co.readySent then s
  else
    let s1 := (s.release x.c).modCourse x.c (fun co => { co with readySent := true })
    { s1 with launches := Tab.upd s1.launches (launchOf x s) (fun l => { l with readyCnt := l.readyCnt + 1 }) }

/-- SIGNAL (R105). -/
def execSignal (w : FWord) (s : State) : Out :=
  runWord (sourcedMeaning w.pn w.pred noCheck (if isNotify w then [numRef w 0 false] else [])
    (signalCheck w) (signalEffect w)) s

/-! ### Counters (R108) -/

def counterWord (w : FWord) (v : At → State → Nat) (s : State) : Out :=
  plainWord w.pn w.pred (fun x act _ => Verdict.waitIf (destPending x act w.d 2))
    (fun x act t => produce x act w.d 2 false (fun _ => v x t % 2 ^ 64) t) s

/-- TIME: the always-on counter. -/
def execTime (w : FWord) (s : State) : Out := counterWord w (fun _ t => t.aon) s

/-- CLOCK: the cycle counter of the die. -/
def execClock (w : FWord) (s : State) : Out := counterWord w (fun x t => t.clockOf x.c) s

end Sys2Proof.Machine
end

