-- ==== Sys2Proof/Machine/Memory.lean ====
section
/-! DEFINITION. The global memory instructions (R164 to R189), the block-table instructions (R219 to R222) and PTEW (R109):
their checks at issue, and the accesses they issue. -/

namespace Sys2Proof.Machine

/-- The word of an instruction (R59). -/
def wordOf (i : Instr) : DWord := (encode i).getD 0#64

/-! ### Checks at issue (R166, R168) -/

/-- What an access asks of a range or a block table. -/
structure Need where
  r : Bool := false
  w : Bool := false

/-- An address of a lane: virtual, or a block reference. -/
structure Where where
  block : Bool
  addr  : Nat → Nat
  n     : Nat

def denies (cx : Ctx) (q : Where) (need : Need) (l : Nat) : Bool :=
  if q.block then
    let p := (tableOf cx (q.addr l)).perm
    (need.r && !bitOf p 0) || (need.w && !bitOf p 1)
  else match findRange cx (q.addr l) with
    | some (_, r) => (need.r && !rrR r) || (need.w && !rrW r)
    | none => false

/-- RANGE_FAULT: of the address itself, or, for a block reference, of its map entry. -/
def uncovered (cx : Ctx) (q : Where) (l : Nat) : Bool :=
  let a := if q.block then mapVaOf cx (q.addr l) else q.addr l
  match findRange cx a with
  | some (_, r) => r.limit.toNat < a + (if q.block then 4 else q.n)
  | none => true

/-- BT_RANGE, RANGE_FAULT, PERMISSION_FAULT, in that order (R168). -/
def globalCheck (cx : Ctx) (act : Mask) (q : Where) (need : Need) : Verdict :=
  Verdict.all [
    laneTrap cBtRange (lanesWhere act (fun l => q.block && refRange cx (q.addr l) q.n)) q.addr,
    laneTrap cRangeFault (lanesWhere act (uncovered cx q)) q.addr,
    laneTrap cPermissionFault (lanesWhere act (denies cx q need)) q.addr]

/-! ### Issue of an access -/

/-- What a global memory word asks for. -/
structure GlobalWord where
  kind    : AccKind
  size    : Nat
  /-- bytes whose alignment is tested -/
  align   : Nat
  need    : Need
  words   : Nat := 0
  signed  : Bool := false
  order   : Nat := 0
  scope   : Nat := 4
  hint    : Nat := 0
  release : Bool := false
  acquire : Bool := false

/-- A lane of an access as it is issued. -/
def newLane (cx : Ctx) (block : Bool) (addr : Nat) (data cmp : List Byte) : LaneAcc :=
  if block then { addr := addr, block := true, data := data, cmp := cmp }
  else match findRange cx addr with
    | some (_, r) =>
      { addr := addr, chk := rrChk r, ia := rangeIa r addr, pod := if rrPod r then some (rrPodId r) else none
        data := data, cmp := cmp }
    | none => { addr := addr, data := data, cmp := cmp }

/-- The access of a word, stamped with the map generation of its device; a store notes which L1 copies it updates. -/
def newAccess (q : GlobalWord) (word : DWord) (block : Bool) (addr data cmp : Nat → Nat) (x : At) (act : Mask) (s : State) :
    Access :=
  let cx := x.ctx s
  let held := fun (y : LaneAcc) => q.kind == .store && !y.block && y.pod.isNone
    && (Tab.find (s.core (coreOf x.c)).l1 (l1Key cx.dev y.ia)).isSome
  { course := x.c, ctx := x.co.ctx, st := x.st, pc := x.sd.pc, word := word, kind := q.kind, size := q.size, own := x.sd.mask
    order := q.order, scope := q.scope, hint := q.hint, words := q.words, signed := q.signed, mapGen := (s.dev cx.dev).mapGen
    lanes := (lanesOf act).map (fun l =>
      let y := newLane cx block (addr l) (toBytes q.size (data l)) (toBytes q.size (cmp l))
      (l, { y with inL1 := held y })) }

/-- The range registers that the addresses of a word's lanes need, in the core's first-level window table (R423). -/
def lookWindow (block : Bool) (addr : Nat → Nat) (x : At) (act : Mask) (s : State) : State :=
  let cx := x.ctx s
  (lanesOf act).foldl (fun acc l =>
    match findRange cx (if block then mapVaOf cx (addr l) else addr l) with
    | some (i, _) => acc.modCore (coreOf x.c) (Core.look x.co.ctx i)
    | none => acc) s

/-- A store updates its core's L1 copy when it issues (R134). -/
def issueL1 (a : Access) (dev : Nat) (s : State) : State :=
  match a.kind with
  | .store => (Tab.vals a.lanes).foldl (fun acc x =>
      if x.block || x.pod.isSome then acc else storeL1 (coreOf a.course) dev x.ia x.data acc) s
  | _ => s

/-- The access of a word put under way, its results pushed empty (R49, R172). -/
def issueAccess (q : GlobalWord) (word : DWord) (d : BitVec 8) (block : Bool) (addr data cmp : Nat → Nat) (x : At) (act : Mask)
    (s : State) : State :=
  if act = 0#32 then (if q.words = 0 then s else produceLater x act d q.words 0 s)
  else
    let (id, s1) := (if q.release then s.release x.c else s).fresh
    let a := newAccess q word block addr data cmp x act s
    let s2 := issueL1 a (x.ctx s).dev (lookWindow block addr x act { s1 with accesses := Tab.put s1.accesses id a })
    if q.words = 0 then s2 else produceLater x act d q.words id s2

/-- The wait and the traps of a release at a scope (R140, R147, R234). -/
def releaseCheck (x : At) (s : State) (scope : Nat) : Verdict :=
  Verdict.all [Verdict.waitIf (x.pending s scope), releaseLimit x]

def globalChecks (q : GlobalWord) (w : Where) (x : At) (act : Mask) (s : State) : Verdict :=
  Verdict.all [
    alignCheck act q.align w.addr,
    globalCheck (x.ctx s) act w q.need,
    Verdict.waitIf (act != 0#32 && heldByLocal x s q.kind.reads),
    (if q.release && act != 0#32 then releaseCheck x s q.scope else .go)]

/-- A global M-form word. -/
def globalMeaning (w : MWord) (q : GlobalWord) (word : DWord) (load : Bool) (data cmp : List SrcRef) : Meaning :=
  let addr := fun (x : At) (act : Mask) (s : State) => laneAddr w false load q.size x act s
  let d := if q.words = 0 then 0xFF#8 else w.d
  sourcedMeaning w.pn w.pred (fun x act _ => Verdict.waitIf (destPending x act d q.words))
    ([memBase w false] ++ data ++ memIndex w load ++ cmp)
    (fun x act s => globalChecks q { block := w.am == 2, addr := addr x act s, n := q.size } x act s)
    (fun x act s => issueAccess q word d (w.am == 2) (addr x act s) (refVal data x act s) (refVal cmp x act s) x act s)

/-! ### Loads, stores, atomics (R172, R173, R182, R185, R186) -/

def ldWord (w : MWord) : GlobalWord :=
  { kind := .load (sizeSigned w.sz), size := sizeBytes w.sz, align := sizeBytes w.sz, need := { r := true }
    words := sizeWords w.sz, hint := w.ht }

def ldMeaning (w : MWord) : Meaning := globalMeaning w (ldWord w) (wordOf (.ld w)) true [] []

/-- LD: a g copy receives an .s8 or .s16 value as R165 extends it to 32 bits, and zero-extended beyond them, since R72 names only
the signed 32-bit types (DESIGN CHOICE, notes/assumptions/61.md). -/
def execLd (w : MWord) (s : State) : Out := runWord (ldMeaning w) s

def stMeaning (w : MWord) : Meaning :=
  globalMeaning w { kind := .store, size := sizeBytes w.sz, align := sizeBytes w.sz, need := { w := true }, hint := w.ht }
    (wordOf (.st w)) false [memData w] []

/-- ST. -/
def execSt (w : MWord) (s : State) : Out := runWord (stMeaning w) s

def atomWord (w : MWord) : GlobalWord :=
  { kind := .atomic w.aop w.sz, size := atomBytes w.sz, align := atomBytes w.sz
    need := { r := w.aop != 9, w := w.aop != 8 }, words := atomWords w, signed := w.sz == 1
    order := w.order, scope := w.scope, release := 2 ≤ w.order }

/-- ATOM. -/
def atomMeaning (w : MWord) : Meaning :=
  globalMeaning (noOffset w) (atomWord w) (wordOf (.atom w)) false (atomData w) (atomCmp w)

def execAtom (w : MWord) (s : State) : Out := runWord (atomMeaning w) s

/-- DISCARD. -/
def discardMeaning (w : MWord) : Meaning :=
  globalMeaning w { kind := .discard, size := 128, align := 128, need := { w := true } } (wordOf (.discard w)) false
    [] []

def execDiscard (w : MWord) (s : State) : Out := runWord (discardMeaning w) s

/-- LASTUSE. -/
def lastuseMeaning (w : MWord) : Meaning :=
  globalMeaning w { ldWord w with kind := .lastuse (sizeSigned w.sz), need := { r := true, w := true } }
    (wordOf (.lastuse w)) true [] []

def execLastuse (w : MWord) (s : State) : Out := runWord (lastuseMeaning w) s

/-! ### Lines (R184, R187) -/

/-- An older write of the strand through the same table and logical block is not performed (R412). -/
def blockBusy (x : At) (s : State) (ref : Nat) : Bool :=
  (Tab.vals s.accesses).any (fun a => a.course == x.c && (a.own &&& x.sd.mask) != 0#32 && a.kind.updates &&
    a.open_.any (fun y => y.block && y.addr / 2 ^ 32 == ref / 2 ^ 32))

/-- The sources and effect of a line instruction that drops or brings copies; a block's map entry is used as the strand's older
writes leave it (R412). -/
def lineMeaning (w : MWord) (check : Bool) (f : At → State → Nat → State) : Meaning :=
  let addr := fun (x : At) (act : Mask) (t : State) => laneAddr w false false 128 x act t
  sourcedMeaning w.pn w.pred noCheck [memBase w false]
    (fun x act t =>
      (if check then
        globalChecks { kind := .load false, size := 128, align := 128, need := { r := true } }
          { block := w.am == 2, addr := addr x act t, n := 128 } x act t
      else .go).and_ (Verdict.waitIf (w.am == 2 && (lanesOf act).any (fun l => blockBusy x t (addr x act t l)))))
    (fun x act t => (lanesOf act).foldl (fun acc l => f x acc (addr x act t l)) t)

/-- What a read of the line that an address of a context names would find. -/
inductive LineAt where
  | fault
  /-- memory of another device: its pod identifier and address, and CHK of the range -/
  | remote (pod ia chk : Nat)
  /-- intermediate address, physical key, CHK of the range, NC of the page -/
  | at_ (ia key chk : Nat) (nc : Bool)

def lineAt (cx : Ctx) (ia chk : Nat) (s : State) : LineAt :=
  if 2 ^ 48 ≤ ia then .fault
  else match walk s cx.dev ia false with
  | .leaf e _ _ pa => if ctxOwner cx (pteOwner e) then .at_ ia (physKey cx.dev pa) chk (pteNc e) else .fault
  | .fault _ _ => .fault

/-- The line an address names; a block's line is in no range, and counts as one that L1 may not take. -/
def lineOf (w : MWord) (x : At) (s : State) (va : Nat) : LineAt :=
  let cx := x.ctx s
  if w.am == 2 then
    if refRange cx va 0 || !bitOf (tableOf cx va).perm 0 then .fault
    else match blockLook s x.co.ctx va with
      | .ok d => if d.enc then .fault else lineAt cx (d.ia + refOff va) 0 s
      | .error _ => .fault
  else match findRange cx va with
    | some (_, r) => if !rrR r then .fault else if rrPod r then .remote (rrPodId r) (rangeIa r va) (rrChk r) else lineAt cx (rangeIa r va) (rrChk r) s
    | none => .fault

/-- The line of an address leaves the issuing core's L1; a block's line may be there through a range. -/
def dropNamed (w : MWord) (x : At) (s : State) (va : Nat) : State :=
  let drop := fun (ia : Nat) => dropL1 (coreOf x.c) (x.ctx s).dev ia s
  if w.am == 2 then
    match blockLook s x.co.ctx va with
    | .ok d => drop (d.ia + refOff va)
    | .error _ => s
  else match findRange (x.ctx s) va with
    | some (_, r) => if rrPod r then s else drop (rangeIa r va)
    | none => s

/-- INVL. -/
def invlMeaning (w : MWord) : Meaning := lineMeaning w true (dropNamed w)

def execInvl (w : MWord) (s : State) : Out := runWord (invlMeaning w) s

/-- A die's RDC copy of a line dropped; where the die is its home, the line is clean in L2 (R187). -/
def State.flushLine (s : State) (die line : Nat) (home : Bool) : State :=
  { s with cached := s.cached.filterMap (fun e =>
      if e.die != die || e.line != line then some e
      else if e.rdc then none
      else some { e with dirty := e.dirty && !home }) }

/-- FLUSHL: the L1 copy and the die's RDC copy dropped; a dirty line homed on the die written back, valid in L2. DESIGN CHOICE
(notes/assumptions/65.md), where R187 is silent: a line that cannot be reached (an unmapped or encoded block, a page that is not
mapped to the context) raises nothing, and only the L1 copy is dropped; so for INVL. -/
def flushNamed (w : MWord) (x : At) (s : State) (va : Nat) : State :=
  let s1 := dropNamed w x s va
  match lineOf w x s va with
  | .at_ ia key _ _ => s1.flushLine (dieOf x.c) (key / 128) (homeDie s (x.ctx s).dev ia == some (dieOf x.c))
  | .remote pod ia _ => ((podLine s pod ia).map (fun l => s1.flushLine (dieOf x.c) l false)).getD s1
  | .fault => s1

/-- FLUSHL. -/
def flushlMeaning (w : MWord) : Meaning := lineMeaning w true (flushNamed w)

def execFlushl (w : MWord) (s : State) : Out := runWord (flushlMeaning w) s

/-- PREF: never faults; an address that would is dropped and counted. HINT 0 and 1 bring the line into the die's RDC where
another die homes it, or another device and the range is read-only (R231), HINT 1 also into L1; HINT 2 is a promotion hint for
its page, dropped for memory of another device (R225). -/
def prefNamed (w : MWord) (x : At) (s : State) (va : Nat) : State :=
  match lineOf w x s va with
  | .fault => s.count x.co.ctx 104 1
  | .remote pod ia chk => if w.ht = 2 then giveHint x none s else fillRdcPod (dieOf x.c) pod ia chk (x.ctx s).tclass s
  | .at_ ia key chk nc =>
    let dev := (x.ctx s).dev
    if w.ht = 2 then giveHint x (pageAt x true ia s) s
    else
      let s1 := fillRdc (dieOf x.c) dev ia key (x.ctx s).tclass nc s
      if w.ht = 1 then fillL1 (coreOf x.c) dev ia key chk nc s1 else s1

/-- PREF. -/
def prefMeaning (w : MWord) : Meaning := lineMeaning w false (prefNamed w)

def execPref (w : MWord) (s : State) : Out := runWord (prefMeaning w) s

/-! ### FENCE (R188) -/

def fenceKind (w : FWord) : Nat := w.fld 3 2

/-- A FENCE acts once when any lane is active: both kinds wait for what the strand's accesses before it have to do (R138, R140),
a release counts, an acquire drops L1 lines. -/
def execFence (w : FWord) (s : State) : Out :=
  plainWord w.pn w.pred
    (fun x act t =>
      if act = 0#32 then .go
      else if 2 ≤ fenceKind w then releaseCheck x t (if fenceKind w = 2 then w.fld 0 3 else 4)
      else Verdict.waitIf (x.pending t 4))
    (fun x act t =>
      if act = 0#32 then t
      else
        let t1 := if 2 ≤ fenceKind w then t.release x.c else t
        if fenceKind w % 2 = 1 then t1.acquire x.c (w.fld 0 3) else t1) s

/-! ### The block table (R219 to R222) -/

def blockWord (w : FWord) (q : GlobalWord) (word : DWord) (refs : List SrcRef) (v : At → Mask → State → Verdict) (s : State) :
    Out :=
  let ref := numRef w 0 true
  runWord (sourcedMeaning w.pn w.pred (fun x act _ => Verdict.waitIf (destPending x act w.d q.words)) (ref :: refs)
    (fun x act t => Verdict.all [v x act t,
      globalCheck (x.ctx t) act { block := true, addr := ref.at_ x act t, n := 0 } q.need,
      Verdict.waitIf (act != 0#32 && heldByLocal x t q.kind.reads),
      (if q.release && act != 0#32 then releaseCheck x t q.scope else .go)])
    (fun x act t => issueAccess q word w.d true (ref.at_ x act t) (refVal refs x act t) (fun _ => 0) x act t)) s

/-- BTLOOK. -/
def execBtlook (w : FWord) (s : State) : Out :=
  blockWord w { kind := .btlook (w.fld 0 2), size := 8, align := 1, need := { r := true }, words := 2 } (wordOf (.btlook w)) []
    noCheck s

/-- A delta outside −32,768 to 32,767 in an active lane (R220). -/
def badDelta (w : FWord) (x : At) (act : Mask) (s : State) : Bool :=
  (lanesOf act).any (fun l =>
    let d := sgn 32 ((numRef w 1 false).at_ x act s l)
    d < -32768 || 32767 < d)

/-- BTREF. -/
def execBtref (w : FWord) (s : State) : Out :=
  blockWord w { kind := .btref, size := 4, align := 1, need := {}, words := 1, release := true, acquire := true }
    (wordOf (.btref w)) [numRef w 1 false]
    (fun x act t => Verdict.trapIf (badDelta w x act t) { code := cIllegalOperand }) s

/-- BTALLOC. -/
def execBtalloc (w : FWord) (s : State) : Out :=
  blockWord w { kind := .btalloc, size := 4, align := 1, need := {}, words := 1 } (wordOf (.btalloc w)) [] noCheck s

/-- BTFREE. -/
def execBtfree (w : FWord) (s : State) : Out :=
  blockWord w { kind := .btfree, size := 4, align := 1, need := {}, words := 1 } (wordOf (.btfree w)) [numRef w 1 false]
    noCheck s

/-! ### PTEW (R109) -/

def ptewCas (w : FWord) : Bool := w.fld 0 1 == 1
def ptewGen (w : FWord) : Bool := w.fld 1 1 == 1

def ptewRefs (w : FWord) : List SrcRef := [numRef w 0 true, numRef w 1 true] ++ (if ptewCas w then [numRef w 2 true] else [])

def ptewWord (w : FWord) : GlobalWord :=
  { kind := .ptew (ptewCas w) (ptewGen w), size := 8, align := 8, need := { w := true }, words := 2, release := true
    acquire := true }

/-- PTEW's access: the lowest active lane's entry; its result goes to every active lane. Its identifier is State.nextId. -/
def ptewEffect (w : FWord) (x : At) (act : Mask) (s : State) : State :=
  match lowLane act with
  | none => produceLater x act w.d 2 0 s
  | some l =>
    let cx := x.ctx s
    let val := fun i => (numRef w i true).at_ x act s l
    let (id, s1) := (s.release x.c).fresh
    let lane := newLane cx false (val 0) (toBytes 8 (val 1)) (toBytes 8 (if ptewCas w then val 2 else 0))
    let a : Access :=
      { course := x.c, ctx := x.co.ctx, st := x.st, pc := x.sd.pc, word := wordOf (.ptew w), kind := (ptewWord w).kind, own := x.sd.mask
        size := 8, words := 2, mapGen := (s.dev cx.dev).mapGen
        lanes := (lanesOf act).map (fun i => (i, if i = l then lane else { lane with stage := .done [] })) }
    let s2 := { s1 with accesses := Tab.put s1.accesses id a }
    produceLater x act w.d 2 id s2

/-- PTEW. -/
def execPtew (w : FWord) (s : State) : Out :=
  runWord
    { verdict := fun x t =>
        let act := activeOf x w.pn w.pred
        Verdict.all [framed x t w.pred (Verdict.all [Verdict.trapIf (!(x.ctx t).priv) { code := cPrivileged },
            Verdict.waitIf (destPending x act w.d 2), srcVerdict x t act (ptewRefs w)]),
          globalChecks (ptewWord w) { block := false, addr := (numRef w 0 true).at_ x act t, n := 8 } x
            (namedLanes act ((numRef w 0 true).at_ x act t)) t]
      effect := fun x t =>
        let act := activeOf x w.pn w.pred
        let t1 := noteLatent x act (ptewRefs w) t
        if act = 0#32 then finish x (ptewEffect w x act t1)
        else finishWaiting x (.result t1.nextId) (t.clockOf x.c) (ptewEffect w x act t1) } s

end Sys2Proof.Machine
end

