-- ==== Sys2Proof/Machine/Engine.lean ====
section
/-! DEFINITION. The engine instructions of the 0x100 group at issue, and QFENCE (R189 to R214): what they wait for, what
they queue, and the batches, buffers and streams of a course and its team. -/

namespace Sys2Proof.Machine

/-! ### Shared -/

/-- The owner of an engine operation. -/
def ownerOfWord (x : At) (s : State) : Owner :=
  { course := x.c, name := x.co.name, ctx := x.co.ctx, team := x.co.team, launch := launchOf x s }

/-- The issue of an engine operation is ordered after the accesses of its course (R146, R154). -/
def engineWait (x : At) (s : State) : Verdict := Verdict.waitIf (x.pending s 4)

/-- An engine word with operands of the lowest active lane, without results; with no lane active it does nothing (R191). -/
def engineWord (w : FWord) (refs : List SrcRef) (v : At → Mask → State → Verdict) (f : At → Mask → State → State)
    (s : State) : Out :=
  runWord (sourcedMeaning w.pn w.pred noCheck refs (fun x act t => if act = 0#32 then .go else v x act t)
    (fun x act t => if act = 0#32 then t else f x act t)) s

/-- An engine word that pushes, its value the same in every active lane (R191). -/
def engineValue (w : FWord) (words : Nat) (refs : List SrcRef) (v : At → Mask → State → Verdict) (val : At → Mask → State → Nat)
    (f : At → Mask → State → State) (s : State) : Out :=
  runWord (sourcedMeaning w.pn w.pred (fun x act _ => Verdict.waitIf (destPending x act w.d words)) refs
    (fun x act t => if act = 0#32 then .go else v x act t)
    (fun x act t => produce x act w.d words false (fun _ => val x act t) (if act = 0#32 then t else f x act t))) s

/-- ALIGNMENT of the address that the lowest active lane names. -/
def lowAlign (act : Mask) (addr : Nat → Nat) (n : Nat) : Verdict := alignCheck (namedLanes act addr) n addr

def illegalIf (b : Bool) : Verdict := Verdict.trapIf b { code := cIllegalOperand }

/-! ### Queues of a core and QFENCE (R153, R189) -/

def State.modChan (s : State) (core ch : Nat) (f : Channel → Channel) : State :=
  s.modCore core (fun k => { k with chans := vset k.chans ch (f (vget k.chans {} ch)) })

/-- Whether a channel has a record under way. -/
def chanBusy (k : Core) (ch : Nat) : Bool := (Tab.vals k.claimed).any (fun e => e.1 == ch)

/-- The fence at the head of queue q of a core: 0 to 7 the channels, 8 the matrix queue, 9 the collective queue, 10 the
swatch queue. A record under way in a channel is still before the fence. -/
def fenceAt (k : Core) (q : Nat) : Option Nat :=
  if q < 8 then
    match (vget k.chans {} q).items with
    | .fence id :: _ => if chanBusy k q then none else some id
    | _ => none
  else if q = 8 then k.mq.head?.bind MatOp.fence
  else if q = 9 then k.collq.head?.bind CollOp.fence
  else k.swq.head?.bind SwOp.fence

def dropHead (k : Core) (q : Nat) : Core :=
  if q < 8 then { k with chans := vset k.chans q { vget k.chans {} q with items := (vget k.chans {} q).items.drop 1 } }
  else if q = 8 then { k with mq := k.mq.drop 1 }
  else if q = 9 then { k with collq := k.collq.drop 1 }
  else { k with swq := k.swq.drop 1 }

/-- One fence of a core that stands at the head of every queue it names. -/
def openFence (s : State) (core : Nat) : Option (Nat × List Nat) :=
  let k := s.core core
  ((List.range 11).filterMap (fenceAt k)).findSome? (fun id =>
    match Tab.find s.fences id with
    | some qs => if qs.all (fun q => fenceAt k q == some id) then some (id, qs) else none
    | none => none)

/-- Every fence that can pass has passed (R153). -/
def passFences (core : Nat) : Nat → State → State
  | 0, s => s
  | n + 1, s =>
    match openFence s core with
    | none => s
    | some (id, qs) =>
      passFences core n
        ({ s with fences := Tab.del s.fences id }.modCore core (fun k => qs.foldl dropHead k))

def fencesOf (core : Nat) (s : State) : State := passFences core (s.fences.length + 1) s

/-- One entry of a fence in a queue. -/
def addFence (o : Owner) (id : Nat) (k : Core) (q : Nat) : Core :=
  if q < 8 then { k with chans := vset k.chans q { vget k.chans {} q with items := (vget k.chans {} q).items ++ [.fence id] } }
  else if q = 8 then
    { k with mq := k.mq ++ [{ owner := o, fence := some id }] }
  else if q = 9 then { k with collq := k.collq ++ [{ owner := o, num := 0, desc := 0, fence := some id }] }
  else { k with swq := k.swq ++ [{ owner := o, word := 0#64, a := 0, b := 0, c := 0, act := 0#32, params := none, fence := some id }] }

/-- QFENCE: one entry in each named queue; the course does not wait. -/
def execQfence (w : FWord) (s : State) : Out :=
  engineWord w [] (fun x _ t => engineWait x t)
    (fun x _ t =>
      let qs := (List.range 11).filter (fun q => bitOf (w.fld 0 11) q)
      let (id, t1) := t.fresh
      let o := ownerOfWord x t
      fencesOf (coreOf x.c)
        ({ t1 with fences := Tab.put t1.fences id qs }.modCore (coreOf x.c) (fun k => qs.foldl (addFence o id) k))) s

/-! ### Batches (R202 to R204, R416) -/

/-- The open batch changed. -/
def Course.modOpen (co : Course) (f : Batch → Batch) : Course :=
  match co.batches with
  | b :: t => { co with batches := f b :: t }
  | [] => co

def Course.openNum (co : Course) : Nat := (co.batches.head?.map Batch.num).getD 0

/-- Batches finished in order, oldest first: one is finished when it is sealed, complete, and every earlier one is. -/
def finishBatches : Bool → List Batch → List Batch
  | _, [] => []
  | ok, b :: t =>
    let f := b.finished || (ok && b.closed && b.pending == 0)
    { b with finished := f } :: finishBatches (ok && f) t

/-- Failing batches enter the failure memory, newest first, when they finish. -/
def rememberFailed (before after : List Batch) (mem : List (Nat × Nat)) : List (Nat × Nat) :=
  ((before.zip after).foldl (fun m e =>
    match e.2.failed with
    | some (foff, _) => if e.2.finished && !e.1.finished then (e.2.num, foff) :: m else m
    | none => m) mem).take 16

def Course.settleBatches (co : Course) : Course :=
  let old := co.batches.reverse
  let new := finishBatches true old
  { co with batches := new.reverse, failMem := rememberFailed old new co.failMem }

/-- Sealed batches that are not finished. -/
def unfinished (co : Course) : Nat := (co.batches.filter (fun b => b.closed && !b.finished)).length

/-- SEAL: the open batch closed; the newest 256 sealed ones stay known. -/
def Course.seal (co : Course) : Course :=
  let n := (co.openNum + 1) % 2 ^ 16
  let co1 := co.modOpen (fun b => { b with closed := true })
  ({ co1 with batches := { num := n } :: co1.batches.take 256 }).settleBatches

/-- SEAL. -/
def execSealBatch (w : FWord) (s : State) : Out :=
  engineValue w 1 [] (fun x _ _ => Verdict.waitIf (256 ≤ unfinished x.co)) (fun x _ _ => x.co.openNum)
    (fun x _ t => t.modCourse x.c Course.seal) s

/-- WAITB: an acquire at core scope, which drops nothing (R155). -/
def execWaitb (w : FWord) (s : State) : Out :=
  engineWord w [] (fun x _ _ => Verdict.waitIf (w.fld 0 8 < unfinished x.co)) (fun _ _ t => t) s

/-- What BSTAT says of a batch: number and state below, FOFF above (R204). -/
def batchStatus (co : Course) (n : Nat) : Nat :=
  match co.batches.find? (fun b => b.num == n) with
  | some b =>
    let st := if !b.closed then 0 else if !b.finished then 1 else if b.failed.isSome then 3 else 2
    n + 2 ^ 16 * st + 2 ^ 32 * ((b.failed.map Prod.fst).getD 0)
  | none =>
    match co.failMem.find? (fun e => e.1 == n) with
    | some e => n + 2 ^ 16 * 3 + 2 ^ 32 * e.2
    | none => n + 2 ^ 16 * 2

/-- BSTAT. -/
def execBstat (w : FWord) (s : State) : Out :=
  let ref := numRef w 0 false
  engineValue w 2 [ref] (fun _ _ _ => .go) (fun x act t => batchStatus x.co (ref.low x act t % 2 ^ 16)) (fun _ _ t => t) s

/-! ### CHAIN, CPY, CODEBK, SWZ (R200, R201, R206, R207) -/

/-- Heads of chains that the channel has not reached. -/
def pendingHeads (k : Core) (ch : Nat) : Nat :=
  ((vget k.chans {} ch).items.filter (fun i => match i with
    | .chain _ _ _ started => !started
    | _ => false)).length

def chOf (w : FWord) : Nat := w.fld 0 3

def queueItem (core ch : Nat) (i : ChanItem) (s : State) : State :=
  s.modChan core ch (fun c => { c with items := c.items ++ [i] })

/-- One more operation of the open batch: its record number. -/
def State.addPending (s : State) (c : Nat) (records : Nat) : State :=
  s.modCourse c (fun co => co.modOpen (fun b => { b with pending := b.pending + 1, count := b.count + records }))

/-- CHAIN: a head queued, or a parked channel resumed. -/
def execChain (w : FWord) (s : State) : Out :=
  let ref := numRef w 0 true
  engineWord w [ref]
    (fun x act t => Verdict.all [lowAlign act (ref.at_ x act t) 64, engineWait x t,
      Verdict.waitIf (8 ≤ pendingHeads (t.core (coreOf x.c)) (chOf w))])
    (fun x act t =>
      let head := ref.low x act t
      if head = 0 then t.modChan (coreOf x.c) (chOf w) (fun c => { c with parked := false })
      else queueItem (coreOf x.c) (chOf w) (.chain (ownerOfWord x t) x.co.openNum head false) (t.addPending x.c 0)) s

/-- CPY records of a course that no channel has claimed (R388); a record of a chain that was suspended is none. -/
def unclaimedCpy (s : State) (c : Nat) (name : DWord) : Nat :=
  ((vlist (s.core (coreOf c)).chans).map (fun ch => (ch.items.filter (fun i => match i with
    | .copy r => r.at_.isNone && r.owner.course == c && r.owner.name == name
    | _ => false)).length)).sum

def cpyRefs (w : FWord) : List SrcRef := [numRef w 0 true, numRef w 1 true, numRef w 2 false]

/-- The record CPY builds (R201). -/
def cpyRecord (w : FWord) (x : At) (act : Mask) (s : State) : Record :=
  { owner := ownerOfWord x s
    batch := x.co.openNum
    number := (x.co.batches.head?.map Batch.count).getD 0
    at_ := none
    skind := w.fld 3 4
    dkind := w.fld 7 4
    xform := 0
    waitFe := w.fld 11 1 == 1
    length := (numRef w 2 false).low x act s
    src := BitVec.ofNat 64 ((numRef w 1 true).low x act s)
    dst := BitVec.ofNat 64 ((numRef w 0 true).low x act s)
    rows := 1
    drows := 0
    sstride := 0
    dstride := 0
    xparam := 0#64
    bad := false }

/-- CPY. -/
def execCpy (w : FWord) (s : State) : Out :=
  engineWord w (cpyRefs w)
    (fun x _ t => (engineWait x t).and_ (Verdict.waitIf (32 ≤ unclaimedCpy t x.c x.co.name)))
    (fun x act t => queueItem (coreOf x.c) (chOf w) (.copy (cpyRecord w x act t)) (t.addPending x.c 1)) s

/-- A source block as a record's reads see it: one that has migrated since the record was claimed is read where it was (R226,
R227). -/
def Record.sees (r : Record) (d : Desc) : Desc :=
  match Tab.find r.was d.key with
  | some (ia, state, tag) => { d with ia := ia, state := state, tag := tag }
  | none => d

/-- A record reads its core's codebook: a codebook record, or a copy whose source is an encoded block (R205, R227). -/
def Record.usesTable (r : Record) (s : State) : Bool :=
  r.xform == 1 || r.xform == 2 || (r.skind == 1 && (match blockLook s r.owner.ctx r.src.toNat with
    | .ok d => (r.sees d).enc
    | .error _ => false))

/-- A claimed record of a core that reads the codebook has not completed (R192, R206). -/
def codebookInUse (s : State) (core : Nat) : Bool := (Tab.vals (s.core core).claimed).any (fun e => e.2.usesTable s)

/-- CODEBK. -/
def execCodebk (w : FWord) (s : State) : Out :=
  let n := fun (x : At) (act : Mask) (t : State) => (numRef w 1 false).low x act t % 2 ^ 13
  engineWord w [numRef w 0 true, numRef w 1 false]
    (fun x act t => Verdict.all [illegalIf (n x act t = 0 || 4096 < n x act t), engineWait x t,
      Verdict.waitIf (codebookInUse t (coreOf x.c))])
    (fun x act t => queueItem (coreOf x.c) (chOf w)
      (.codebook (ownerOfWord x t) ((numRef w 0 true).low x act t) ((numRef w 1 false).low x act t)) t) s

/-- SWZ: takes effect when it issues (R418). -/
def execSwz (w : FWord) (s : State) : Out :=
  engineWord w [] (fun _ _ _ => .go)
    (fun x _ t =>
      let z : Swizzle := { on := w.fld 13 1 == 1, chunk := w.fld 4 3, shift := w.fld 7 4, width := w.fld 11 2 + 1 }
      t.modTeam x.co.team (fun m => { m with swz := vset m.swz (w.fld 0 4) z })) s

/-- swz of R207. -/
def Swizzle.map (z : Swizzle) (a : Nat) : Nat :=
  if z.on then a ^^^ ((a / 2 ^ (7 + z.shift) % 2 ^ z.width) * 2 ^ (4 + z.chunk)) else a

/-! ### Circular buffers (R208 to R211) -/

def CircBuf.held (b : CircBuf) : Nat := (b.p + 2 ^ 32 - b.c) % 2 ^ 32
def CircBuf.room (b : CircBuf) : Nat := 2 ^ b.log2n - b.held

/-- Local-store offset of element k. -/
def CircBuf.at_ (b : CircBuf) (k : Nat) : Nat := b.base + k % 2 ^ b.log2n * b.size

def cbOf (s : State) (tid i : Nat) : Option CircBuf := Tab.find (teamD s tid).cbs i
def setCb (tid i : Nat) (b : CircBuf) (s : State) : State := s.modTeam tid (fun t => { t with cbs := Tab.put t.cbs i b })

def State.modStream (s : State) (tid i : Nat) (f : Stream → Stream) : State :=
  s.modTeam tid (fun t => { t with streams := vset t.streams i (f (vget t.streams {} i)) })

def streamOf (s : State) (tid i : Nat) : Stream := vget (teamD s tid).streams {} i

/-- Elements of a buffer that streams hold (R211, R214). -/
def takenOf (s : State) (tid i : Nat) : Nat :=
  (((vlist (teamD s tid).streams).flatMap Stream.frags).filter (fun f => f.cb == some i)).length

/-- A record names a buffer. -/
def Record.names (r : Record) (tid i : Nat) : Bool :=
  r.owner.team == tid && ((r.skind == 3 && r.src.toNat == i) || (r.dkind == 3 && r.dst.toNat == i))

/-- An engine operation is pending on a buffer: a copy of it claimed or queued, or a matrix operation that has claimed a
fragment taken from it (R192). -/
def cbPending (s : State) (core tid i : Nat) : Bool :=
  let k := s.core core
  (Tab.vals k.claimed).any (fun e => e.2.names tid i)
    || (vlist k.chans).any (fun ch => ch.items.any (fun it => match it with
      | .copy r => r.names tid i
      | _ => false))
    || (vlist (teamD s tid).streams).any (fun st => st.frags.any (fun f => f.claim.isSome && f.cb == some i))

/-- A stream's bindings to a buffer ended, and its taken elements no longer counted. -/
def unbindFrom (i : Nat) (forget : Bool) (st : Stream) : Stream :=
  { st with
    bind := if (st.bind.map Prod.fst) == some i then none else st.bind
    frags := if forget then st.frags.map (fun f => if f.cb == some i then { f with cb := none } else f) else st.frags }

def cbIdx (w : FWord) : Nat := w.fld 0 6

/-- A buffer of a base, size and count fits its team's allocation. -/
def cbFits (s : State) (tid base bytes : Nat) : Bool :=
  bitsOf base 19 13 == 0 && base + bytes ≤ 16 * (teamD s tid).lsSize

/-- CBDEF. -/
def execCbdef (w : FWord) (s : State) : Out :=
  let base := fun (x : At) (act : Mask) (t : State) => (numRef w 0 false).low x act t
  let size := fun (x : At) (act : Mask) (t : State) => (numRef w 1 false).low x act t
  engineWord w [numRef w 0 false, numRef w 1 false]
    (fun x act t => Verdict.all [
      illegalIf (size x act t < 16 || 65536 < size x act t || size x act t % 16 != 0 || base x act t % 16 != 0),
      (if cbFits t x.co.team (base x act t) (size x act t * 2 ^ w.fld 6 4) then .go
       else laneTrap cLclRange (namedLanes act ((numRef w 0 false).at_ x act t)) (fun _ => base x act t)),
      engineWait x t,
      Verdict.waitIf (cbPending t (coreOf x.c) x.co.team (cbIdx w))])
    (fun x act t =>
      let t1 := t.modTeam x.co.team (fun m => { m with streams := vmap (unbindFrom (cbIdx w) true) m.streams })
      setCb x.co.team (cbIdx w) { base := base x act t, size := size x act t, log2n := w.fld 6 4 } t1) s

/-- The count operand of CBPROD and CBCONS: only zero is illegal; a count beyond the room or the held count is an overrun or an
underrun, whatever its size (R209). -/
def countOk (n : Nat) : Bool := 1 ≤ n

/-- CBPROD and CBCONS: the buffer's count moved by one side. -/
def cbMove (w : FWord) (limit : CircBuf → Nat) (code : Nat) (f : CircBuf → Nat → CircBuf) (s : State) : Out :=
  let n := fun (x : At) (act : Mask) (t : State) => (numRef w 0 false).low x act t
  engineWord w [numRef w 0 false]
    (fun x act t =>
      match cbOf t x.co.team (cbIdx w) with
      | none => illegalIf true
      | some b => Verdict.all [illegalIf (!(countOk (n x act t))), Verdict.trapIf (limit b < n x act t) { code := code },
          engineWait x t])
    (fun x act t =>
      match cbOf t x.co.team (cbIdx w) with
      | none => t
      | some b => setCb x.co.team (cbIdx w) (f b (n x act t)) t) s

/-- CBPROD. -/
def execCbprod (w : FWord) (s : State) : Out :=
  cbMove w CircBuf.room cCbOverrun (fun b n => { b with p := (b.p + n) % 2 ^ 32 }) s

/-- CBCONS. -/
def execCbcons (w : FWord) (s : State) : Out :=
  cbMove w CircBuf.held cCbUnderrun (fun b n => { b with c := (b.c + n) % 2 ^ 32 }) s

def wantsRoom (w : FWord) : Bool := w.fld 6 1 == 1

/-- CBWAIT. -/
def execCbwait (w : FWord) (s : State) : Out :=
  let n := fun (x : At) (act : Mask) (t : State) => (numRef w 0 false).low x act t
  engineValue w 1 [numRef w 0 false]
    (fun x act t =>
      match cbOf t x.co.team (cbIdx w) with
      | none => illegalIf true
      | some b => Verdict.waitIf ((if wantsRoom w then b.room else b.held) < n x act t))
    (fun x _ t =>
      match cbOf t x.co.team (cbIdx w) with
      | none => 0
      | some b => if wantsRoom w then b.p else b.c)
    (fun _ _ t => t) s

/-! ### Operand streams (R212 to R214) -/

/-- The first poisoned granule of a range of a team's local store. -/
def poisonedAt (s : State) (tid off n : Nat) : Option Nat :=
  let v := lsView s tid
  ((granulesOf off n).find? (fun g => v.poison.contains (v.base + g))).map (· * 16)

/-- Bytes of a team's local store, each at its swizzled offset. -/
def lsReadSwz (s : State) (tid : Nat) (z : Swizzle) (off n : Nat) : List Byte :=
  if z.on then
    let v := lsView s tid
    (List.range n).map (fun i => Memory.read v.cells (16 * v.base + z.map (off + i)))
  else lsRead s tid off n

/-- The swizzle of a stream, where the word asks for it. -/
def streamSwz (s : State) (tid st : Nat) (unsw : Bool) : Swizzle :=
  if unsw then vget (teamD s tid).swz {} (8 + st) else {}

/-- A fragment read from local store. -/
def readFragment (s : State) (tid src off n : Nat) (z : Swizzle) : Fragment :=
  { bytes := some (lsReadSwz s src z off n), poison := if src = tid then poisonedAt s src off n else none }

def sfillLenOk (n : Nat) : Bool := 16 ≤ n && n ≤ 2048 && n % 16 == 0

def stOf (w : FWord) : Nat := w.fld 0 3

/-- The trap and the wait of a word that appends to a stream (R192, R212). DESIGN CHOICE (notes/assumptions/68.md), where R213 is
silent: the fragment that an SPUSH has opened and not ended is none of the stream's 8. -/
def streamCheck (s : State) (tid st : Nat) : Verdict :=
  (Verdict.trapIf (streamOf s tid st).bind.isSome { code := cStreamBound }).and_
    (Verdict.waitIf (8 ≤ (streamOf s tid st).frags.length))

/-- SFILL. -/
def execSfill (w : FWord) (s : State) : Out :=
  let a := fun (x : At) (act : Mask) (t : State) => (numRef w 0 false).low x act t
  let n := fun (x : At) (act : Mask) (t : State) => (numRef w 1 false).low x act t
  let fe := w.fld 4 1 == 1
  engineWord w [numRef w 0 false, numRef w 1 false]
    (fun x act t => Verdict.all [
      illegalIf (!(sfillLenOk (n x act t))),
      (if fe then lowAlign act ((numRef w 0 false).at_ x act t) 16 else .go),
      lsCheck x (namedLanes act ((numRef w 0 false).at_ x act t)) t (n x act t) (fun _ => a x act t),
      streamCheck t x.co.team (stOf w), engineWait x t])
    (fun x act t =>
      match lsAt x t (a x act t) (n x act t) with
      | .ok src off =>
        let z := streamSwz t x.co.team (stOf w) (w.fld 3 1 == 1)
        let fr : Fragment := if fe then { bytes := none, fill := some (src, off, n x act t), unsw := w.fld 3 1 == 1 }
          else readFragment t x.co.team src off (n x act t) z
        t.modStream x.co.team (stOf w) (fun y => { y with frags := y.frags ++ [fr] })
      | _ => t) s

/-- The 128 bytes an SPUSH appends (R213). -/
def spushBytes (w : FWord) (x : At) (act : Mask) (s : State) : List Byte :=
  (List.range 32).flatMap (fun l => toBytes 4 (if act.getLsbD l then (numRef w 0 false).at_ x act s l else 0))

/-- SPUSH. -/
def execSpush (w : FWord) (s : State) : Out :=
  engineWord w [numRef w 0 false]
    (fun x _ t => (streamCheck t x.co.team (stOf w)).and_ (engineWait x t))
    (fun x act t =>
      let b := ((streamOf t x.co.team (stOf w)).open_.getD []) ++ spushBytes w x act t
      t.modStream x.co.team (stOf w) (fun y =>
        if w.fld 3 1 == 1 || 2048 ≤ b.length then { y with frags := y.frags ++ [{ bytes := some b }], open_ := none }
        else { y with open_ := some b })) s

/-- The element size a stream can be bound to. -/
def bindable (b : CircBuf) : Bool := 16 ≤ b.size && b.size ≤ 2048

/-- SBIND. -/
def execSbind (w : FWord) (s : State) : Out :=
  let cb := w.fld 3 6
  let off := w.fld 9 1 == 1
  engineWord w []
    (fun x _ t =>
      if off then engineWait x t
      else (illegalIf (!(((cbOf t x.co.team cb).map bindable).getD false))).and_ (engineWait x t))
    (fun x _ t =>
      if off then t.modStream x.co.team (stOf w) (fun y => { y with bind := none })
      else
        let t1 := t.modTeam x.co.team (fun m => { m with streams := vmap (unbindFrom cb false) m.streams })
        t1.modStream x.co.team (stOf w) (fun y => { y with bind := some (cb, w.fld 10 1 == 1) })) s

/-! ### Released fragments (R333) -/

def MatOp.claims (o : MatOp) : List Nat := (o.fragA.toList ++ o.fragB.toList).map Latch.claim

def Course.claims (co : Course) : List Nat := (co.latchA.toList ++ co.latchB.toList).map Latch.claim

/-- The claims of a team's fragments that an MMA or a latch still holds. -/
def heldClaims (s : State) (tid : Nat) : List Nat :=
  (s.core (teamD s tid).core).mq.flatMap MatOp.claims
    ++ (Tab.vals s.courses).flatMap (fun co => if co.team = tid then co.claims else [])
    ++ (Tab.vals s.saved).flatMap (fun y => if y.course.team = tid then y.course.claims else [])

/-- A fragment that its last MMA has released. -/
def Fragment.released (held : List Nat) (f : Fragment) : Bool :=
  match f.claim with
  | some i => !(held.contains i)
  | none => false

/-- Released fragments dropped, their buffers' consumer pointers advanced (R211, R333). -/
def releaseFrags (tid : Nat) (s : State) : State :=
  match s.team tid with
  | none => s
  | some t =>
    let held := heldClaims s tid
    let gone := ((vlist t.streams).flatMap Stream.frags).filter (Fragment.released held)
    if gone.isEmpty then s
    else
      let s1 := s.modTeam tid (fun y => { y with
        streams := vmap (fun (z : Stream) => { z with frags := z.frags.filter (fun f => !(f.released held)) }) y.streams })
      (gone.filterMap Fragment.cb).foldl (fun acc i =>
        match cbOf acc tid i with
        | some b => setCb tid i { b with c := (b.c + 1) % 2 ^ 32 } acc
        | none => acc) s1

/-! ### STREAM_FILL (R212, R214) -/

/-- A WAITFE fragment reads the granules that are full now, each at its swizzled place. -/
def fillFragment (s : State) (z : Swizzle) (f : Fragment) : Fragment :=
  match f.fill with
  | none => f
  | some (src, off, n) =>
    let zf : Swizzle := if f.unsw then z else {}
    let got := (List.range (n / 16)).foldl (fun (t : Tab (List Byte)) i =>
      if (Tab.find t i).isNone && lsFull s src (zf.map (off + 16 * i) / 16) then
        Tab.put t i (lsReadSwz s src zf (off + 16 * i) 16)
      else t) f.got
    if got.length = n / 16 then { f with bytes := some ((Tab.vals got).flatten), fill := none, got := [], poison := poisonedAt s src off n }
    else { f with got := got }

/-- The next element of a bound stream. -/
def nextElement (s : State) (tid st : Nat) : Option Fragment :=
  let y := streamOf s tid st
  match y.bind with
  | none => none
  | some (cb, unsw) =>
    match cbOf s tid cb with
    | none => none
    | some b =>
      let taken := takenOf s tid cb
      if 8 ≤ y.frags.length || b.held ≤ taken then none
      else some { readFragment s tid tid (b.at_ (b.c + taken)) b.size (streamSwz s tid st unsw) with cb := some cb }

/-- What a stream can take now: full granules, then one element of its buffer; fragments that no MMA or latch holds any more,
because a course has ended, are released. -/
def fillStream (tid st : Nat) (s0 : State) : State :=
  let s := releaseFrags tid s0
  let s1 := s.modStream tid st (fun y => { y with frags := y.frags.map (fillFragment s (streamSwz s tid st true)) })
  match nextElement s1 tid st with
  | some f => s1.modStream tid st (fun y => { y with frags := y.frags ++ [f] })
  | none => s1

/-- The resident teams of a core. -/
def teamsOn (s : State) (core : Nat) : List Nat :=
  (s.teams.filter (fun e => e.2.core == core && e.2.resident && e.2.started)).map Prod.fst

/-- STREAM_FILL: stream st of each team of the core. -/
def execStreamFill (core st : Nat) (s : State) : Out :=
  .next ((teamsOn s core).foldl (fun acc t => fillStream t st acc) s)

end Sys2Proof.Machine
end

