-- ==== Sys2Proof/Machine/Copy.lean ====
section
/-! DEFINITION. The copy units: what a channel claims and when (R197, R200, R417, R480), how a record is moved (R195, R196,
R199, R205, R207, R211), how it completes (R198), and the load of a codebook (R206). -/

namespace Sys2Proof.Machine

/-! ### Memory as an engine reaches it -/

/-- STATUS of a fault (R198). -/
def statusOfCode (code : Nat) : Nat :=
  if code = cOwnerFault then 2
  else if code = cPageFault then 3
  else if code = cRangeFault then 4
  else if code = cPermissionFault then 5
  else if code = cBtEncoded then 6
  else if code = cBtNoFree then 7
  else if code = cBtRange || code = cBtUnmapped then 8
  else if code = cLclRange then 9
  else if code = cTargetUnavailable || code = cPeerReset then 10
  else 3

/-- Pieces of intermediate addresses read at their homes: the bytes and whether any is poisoned, or a STATUS. -/
def homeRead (cx : Ctx) : List (Nat × Nat) → State → State × Except Nat (List Byte × Bool)
  | [], s => (s, .ok ([], false))
  | (ia, n) :: t, s =>
    if 2 ^ 48 ≤ ia then (s, .error 3)
    else match homeXlate { dev := cx.dev, ia := ia, write := false, pick := false, owner := ctxOwner cx, cls := cx.tclass } s with
      | (s1, .fault code _) => (s1, .error (statusOfCode code))
      | (s1, .ok key e) =>
        match homeRead cx t s1 with
        | (s2, .error e) => (s2, .error e)
        | (s2, .ok (b, bad)) => (s2, .ok (s1.readUnder (pteKey e) key n ++ b, s1.poisoned key n || bad))

/-- An engine's bytes in its core's copies of their lines (R134, R155; DEDUCED, notes/assumptions/20.md). -/
def engineL1 (core dev ia : Nat) : Nat → List Byte → State → State
  | 0, _, s => s
  | fuel + 1, b, s =>
    let n := 128 - ia % 128
    if b.isEmpty then s else engineL1 core dev (ia + n) fuel (b.drop n) (storeL1 core dev ia (b.take n) s)

/-- Poison marks on the lines of a key range (R447). -/
def State.poisonLines (s : State) (key n : Nat) : State :=
  { s with memPoison := (linesOf key n).foldl (fun acc l => insertSorted l acc) s.memPoison }

/-- Pieces of intermediate addresses written at their homes by an engine of a core. -/
def homeWrite (core : Nat) (cx : Ctx) (bad : Bool) : List (Nat × Nat) → List Byte → State → State × Option Nat
  | [], _, s => (s, none)
  | (ia, n) :: t, b, s =>
    if 2 ^ 48 ≤ ia then (s, some 3)
    else match homeXlate { dev := cx.dev, ia := ia, write := true, pick := false, owner := ctxOwner cx, cls := cx.tclass } s with
      | (s1, .fault code _) => (s1, some (statusOfCode code))
      | (s1, .ok key e) =>
        let d := b.take n
        let s2 := (s1.writeMem key d (pteKey e)).clearShadow key n
        let s3 := engineL1 core cx.dev ia (n / 128 + 2) d s2
        homeWrite core cx bad t (b.drop n) (if bad then s3.poisonLines key n else s3)

/-- The pieces of n bytes by page. -/
def byPage (a n : Nat) : List (Nat × Nat) := pageChunks (n / 4096 + 2) a n

/-- An engine's access to a virtual range of its own device waits for a home (R157, R226, R457, R475). -/
def vaHeld (s : State) (ctx va n : Nat) (write : Bool) : Bool :=
  (byPage va n).any (fun e => match findRange (s.ctx ctx) e.1 with
    | some (_, r) => !(rrPod r) && [e.1, e.1 + e.2 - 1].any (fun a => iaHeld s (s.ctx ctx).dev write (rangeIa r a))
    | none => false)

/-- A virtual range of an engine: a STATUS, another device's memory, or an intermediate address. -/
inductive VaAt where
  | fail (status : Nat)
  | remote (pod ia : Nat)
  | local_ (ia : Nat)
  deriving DecidableEq, Repr

def vaAt (cx : Ctx) (va n : Nat) (write : Bool) : VaAt :=
  match findRange cx va with
  | none => .fail 4
  | some (_, r) =>
    if r.limit.toNat < va + n then .fail 4
    else if (if write then !rrW r else !rrR r) then .fail 5
    else if rrPod r then .remote (rrPodId r) (rangeIa r va)
    else .local_ (rangeIa r va)

/-! ### A record's shape (R196, R205) -/

def Record.isCode (r : Record) : Bool := r.xform == 1 || r.xform == 2

/-- Units of one row: indices of a codebook record, else bytes. -/
def Record.perRow (r : Record) : Nat := if r.xform = 2 then r.length / 3 * 2 else r.length

/-- Bytes written per unit. -/
def Record.scale (r : Record) : Nat := if r.isCode then 16 else 1

/-- Output bytes of one row. -/
def Record.outRow (r : Record) : Nat := r.perRow * r.scale

def Record.units (r : Record) : Nat := r.perRow * r.rows

/-- Offset of the first source byte of unit p. -/
def Record.srcOff (r : Record) (p : Nat) : Nat := if r.xform = 2 then p / 2 * 3 + p % 2 else p

/-- Source bytes that are done with once the first p units have been moved. -/
def Record.consumed (r : Record) (p : Nat) : Nat := if r.xform = 2 then p / 2 * 3 + p % 2 else p

/-- A side's address: virtual, block reference, local store, buffer element, or stream. -/
inductive Place where
  | va (a : Nat)
  | block (ref : Nat)
  | ls (a : Nat)
  /-- buffer, elements beyond the pointer, offset in the element -/
  | cb (i elem off : Nat)
  | stream (i : Nat)
  deriving DecidableEq, Repr

/-- The address at an offset of a side. -/
def placeAt (kind : Nat) (base : DWord) (move : Int) : Place :=
  match kind with
  | 0 => .va (wrap 64 (base.toNat + move))
  | 1 => .block (base.toNat / 2 ^ 32 * 2 ^ 32 + wrap 32 ((base.toNat % 2 ^ 32 : Nat) + move))
  | 2 => .ls (wrap 32 (base.toNat + move))
  | _ => .stream base.toNat

def cbSize (s : State) (tid i : Nat) : Nat := ((cbOf s tid i).map CircBuf.size).getD 1

/-- Source place of source byte pos, for a record that has moved its first p units. -/
def Record.srcPlace (r : Record) (s : State) (p pos : Nat) : Place :=
  if r.skind = 3 then
    let z := cbSize s r.owner.team r.src.toNat
    .cb r.src.toNat (pos / z - r.consumed p / z) (pos % z)
  else placeAt r.skind r.src ((pos / r.length : Nat) * r.sstride + (pos % r.length : Nat))

/-- Destination place of output byte pos. -/
def Record.dstPlace (r : Record) (s : State) (pos : Nat) : Place :=
  if r.dkind = 3 then .cb r.dst.toNat 0 (pos % cbSize s r.owner.team r.dst.toNat)
  else placeAt r.dkind r.dst ((pos / r.outRow : Nat) * r.dstride + (pos % r.outRow : Nat))

/-- Bytes of an allocation from a local-store address on. -/
def lsRoom (s : State) (tid a : Nat) : Nat :=
  match lsAtTeam s tid a 1 with
  | .ok t off => 16 * (teamD s t).lsSize - off
  | _ => 1

/-- Bytes of a virtual address's page, and of its range; a line of another device. -/
def vaRoom (cx : Ctx) (a : Nat) : Nat :=
  match findRange cx a with
  | some (_, r) => min (if rrPod r then 128 - a % 128 else 4096 - a % 4096) (r.limit.toNat - a)
  | none => 1

/-- Bytes that can be moved in one piece from a place on; the swizzle keeps 16-byte pieces together. -/
def roomAt (s : State) (r : Record) (swz : Bool) (p : Place) : Nat :=
  match p with
  | .va a => vaRoom (s.ctx r.owner.ctx) a
  | .block ref => 16 - ref % 16
  | .ls a => min (lsRoom s r.owner.team a) (if r.waitFe || swz then 16 - a % 16 else 4096)
  | .cb i _ off => min (cbSize s r.owner.team i - off) (if swz then 16 - off % 16 else 65536)
  | .stream _ => r.outRow

/-- Bytes read in one piece from a place on: those of one line, or of one granule of local store, so that a poison mark goes
nowhere but where the bytes it covers go (R447). -/
def readRoom (s : State) (r : Record) (p : Place) : Nat :=
  min (roomAt s r false p) (match p with
    | .va a => 128 - a % 128
    | .ls a => 16 - a % 16
    | .cb _ _ off => 16 - off % 16
    | .block _ | .stream _ => 65536)

/-- What one piece of a record moves: units, source offset and bytes, output offset. -/
structure Piece where
  units : Nat
  spos  : Nat
  sn    : Nat
  opos  : Nat

def Record.piece (r : Record) (s : State) : Piece :=
  let p := r.from_
  if r.isCode then { units := 1, spos := r.srcOff p, sn := if r.xform = 2 then 2 else 1, opos := 16 * p }
  else
    let n := min (r.length - p % r.length)
      (min (readRoom s r (r.srcPlace s p p)) (roomAt s r (r.xform == 3) (r.dstPlace s p)))
    { units := max n 1, spos := p, sn := max n 1, opos := p }

/-! ### Reading a side -/

/-- FOFF of a failure: the first byte not moved, or of an index of two bytes its byte that could not be read. -/
def Record.foff (r : Record) : Nat := r.srcOff r.from_ + (if r.isCode then r.rd.length % (if r.xform = 2 then 2 else 1) else 0)

/-- What a side answers: done, not yet and what it waits for of what R389 names, a STATUS, or a request to another device. -/
inductive SideRes (α : Type) where
  | ok (a : α)
  | wait (on : RecWait)
  | fail (status : Nat)
  | remote (pod ia : Nat)

/-- The index of group g of an encoded block (R227). -/
def encodedIndex (wide : Bool) (g : Nat) (b : List Byte) : Nat :=
  if wide then (if g % 2 = 0 then ofBytes b % 4096 else ofBytes b / 16 % 4096) else ofBytes b % 256

/-- Entry i of a codebook; entries beyond the loaded count read as zero (R205). -/
def Codebook.entry (t : Codebook) (i : Nat) : List Byte :=
  if i < t.count then (t.bytes.drop (16 * i)).take 16 else List.replicate 16 0#8

/-- Bytes of an encoded block, expanded through the core's table; within one group (R227). -/
def readEncoded (core : Nat) (cx : Ctx) (d : Desc) (off n : Nat) (s : State) : State × SideRes (List Byte × Bool) :=
  match (s.core core).codebook with
  | none => (s, .fail 6)
  | some t =>
    if t.tag != d.tag then (s, .fail 6)
    else
      let wide := decide (256 < t.count)
      let g := off / 16
      match homeRead cx (if wide then byPage (d.ia + g / 2 * 3 + g % 2) 2 else byPage (d.ia + g) 1) s with
      | (s1, .error e) => (s1, .fail e)
      | (s1, .ok (b, bad)) => (s1, .ok (((t.entry (encodedIndex wide g b)).drop (off % 16)).take n, bad))

/-- Bytes of a block (R217, R227). -/
def readBlock (core : Nat) (r : Record) (ref n : Nat) (s : State) : State × SideRes (List Byte × Bool) :=
  let cx := s.ctx r.owner.ctx
  if refRange cx ref n then (s, .fail 8)
  else if !bitOf (tableOf cx ref).perm 0 then (s, .fail 5)
  else match blockLook s r.owner.ctx ref with
    | .error c => (s, .fail (statusOfCode c))
    | .ok d0 =>
      let d := r.sees d0
      if iaHeld s cx.dev false (if d.enc then d.ia else d.ia + refOff ref) then (s, .wait .none)
      else if d.enc then readEncoded core cx d (refOff ref) n s
      else match homeRead cx (byPage (d.ia + refOff ref) n) s with
        | (s1, .error e) => (s1, .fail e)
        | (s1, .ok v) => (s1, .ok v)

def readVa (r : Record) (va n : Nat) (s : State) : State × SideRes (List Byte × Bool) :=
  let cx := s.ctx r.owner.ctx
  match vaAt cx va n false with
  | .fail e => (s, .fail e)
  | .remote pod ia => (s, .remote pod ia)
  | .local_ ia =>
    if iaHeld s cx.dev false ia then (s, .wait .none)
    else match homeRead cx (byPage ia n) s with
      | (s1, .error e) => (s1, .fail e)
      | (s1, .ok v) => (s1, .ok v)

def readLs (r : Record) (a n : Nat) (s : State) : SideRes (List Byte × Bool) :=
  match lsAtTeam s r.owner.team a n with
  | .wait => .wait .none
  | .bad => .fail 9
  | .ok t off =>
    if r.waitFe && !((granulesOf off n).all (lsFull s t)) then .wait .granule
    else .ok (lsRead s t off n, lsPoisoned s t off n)

/-- Bytes of buffer elements from the consumer pointer on. -/
def readCb (r : Record) (i elem off n : Nat) (s : State) : SideRes (List Byte × Bool) :=
  match cbOf s r.owner.team i with
  | none => .fail 12
  | some b =>
    let need := elem + (off + n + b.size - 1) / b.size
    if b.held < need then .wait .buffer
    else
      let at_ := fun k => b.at_ (b.c + elem + (off + k) / b.size) + (off + k) % b.size
      .ok ((List.range n).flatMap (fun k => lsRead s r.owner.team (at_ k) 1),
        (List.range n).any (fun k => lsPoisoned s r.owner.team (at_ k) 1))

/-- The source bytes of a piece. -/
def readSide (core : Nat) (r : Record) (p : Place) (n : Nat) (s : State) : State × SideRes (List Byte × Bool) :=
  match p with
  | .va a => readVa r a n s
  | .block ref => readBlock core r ref n s
  | .ls a => (s, readLs r a n s)
  | .cb i e off => (s, readCb r i e off n s)
  | .stream _ => (s, .fail 12)

/-! ### Writing a side -/

/-- A block written: in place, after a copy-on-write, or not yet (R217, R223, R226). DESIGN CHOICE (notes/assumptions/66.md),
where R198 and R227 name no code for it: a write to an encoded block ends with STATUS 6. -/
def writeBlock (core : Nat) (r : Record) (ref : Nat) (bytes : List Byte) (bad : Bool) (s : State) : State × SideRes Unit :=
  let cx := s.ctx r.owner.ctx
  if refRange cx ref bytes.length then (s, .fail 8)
  else if !bitOf (tableOf cx ref).perm 1 then (s, .fail 5)
  else match blockLook s r.owner.ctx ref with
    | .error c => (s, .fail (statusOfCode c))
    | .ok d =>
      if d.enc then (s, .fail 6)
      else if d.tier == 2 || (cowOn s d.key).isSome || iaHeld s cx.dev true (d.ia + refOff ref) then (s, .wait .none)
      else if d.count > 1 then
        if 128 ≤ recordCount s core then (s, .wait .none)
        else match startCow core r.owner.ctx ref d s with
          | .error c => (s, .fail (statusOfCode c))
          | .ok s1 => (s1, .wait .none)
      else match homeWrite core cx bad (byPage (d.ia + refOff ref) bytes.length) bytes s with
        | (s1, some e) => (s1, .fail e)
        | (s1, none) => (s1, .ok ())

def writeVa (core : Nat) (r : Record) (va : Nat) (bytes : List Byte) (bad : Bool) (s : State) : State × SideRes Unit :=
  let cx := s.ctx r.owner.ctx
  match vaAt cx va bytes.length true with
  | .fail e => (s, .fail e)
  | .remote pod ia => (s, .remote pod ia)
  | .local_ ia =>
    if iaHeld s cx.dev true ia then (s, .wait .none)
    else match homeWrite core cx bad (byPage ia bytes.length) bytes s with
      | (s1, some e) => (s1, .fail e)
      | (s1, none) => (s1, .ok ())

/-- Bytes put into a team's local store, each piece of 16 at its swizzled place, poison carried. DESIGN CHOICE
(notes/assumptions/68.md), where R207 is silent: a swizzled place is not tested against the team's allocation. -/
def putLs (tid : Nat) (z : Swizzle) (bad : Bool) (off : Nat) (bytes : List Byte) (s : State) : State :=
  let s1 := if z.on then
      (List.range bytes.length).foldl (fun acc i => lsWrite tid (z.map (off + i)) ((bytes.drop i).take 1) acc) s
    else lsWrite tid off bytes s
  let gs := (granulesOf off bytes.length).map (fun g => z.map (16 * g) / 16)
  if bad then lsMark tid gs s1
  else if z.on then
    (granulesOf off bytes.length).foldl (fun acc g =>
      if off ≤ 16 * g && 16 * g + 16 ≤ off + bytes.length then
        lsWrite tid (z.map (16 * g)) (lsRead acc tid (z.map (16 * g)) 16) acc
      else acc) s1
  else s1

/-- The swizzle of a record's channel (R207). DESIGN CHOICE (notes/assumptions/68.md), where R207 is silent: a record under way
takes the channel's setting as it is at each piece. -/
def Record.swizzle (r : Record) (s : State) (ch : Nat) : Swizzle :=
  if r.xform = 3 then vget (teamD s r.owner.team).swz {} ch else {}

/-- A local-store destination written; under WAITFE a granule becomes full with its last byte (R195). -/
def writeLs (ch : Nat) (r : Record) (a : Nat) (bytes : List Byte) (bad : Bool) (s : State) : State × SideRes Unit :=
  match lsAtTeam s r.owner.team a bytes.length with
  | .wait => (s, .wait .none)
  | .bad => (s, .fail 9)
  | .ok t off =>
    let z := r.swizzle s ch
    let at_ := fun (g : Nat) => z.map (16 * g) / 16
    let gs := granulesOf off bytes.length
    if r.waitFe && gs.any (fun g => lsFull s t (at_ g)) then (s, .wait .granule)
    else
      let s1 := putLs t z bad off bytes s
      let whole := gs.filter (fun g => 16 * g + 16 ≤ off + bytes.length)
      (if r.waitFe then whole.foldl (fun acc g => lsSetFull t (at_ g) true acc) s1 else s1, .ok ())

def writeCb (ch : Nat) (r : Record) (i off : Nat) (bytes : List Byte) (bad : Bool) (s : State) : State × SideRes Unit :=
  match cbOf s r.owner.team i with
  | none => (s, .fail 12)
  | some b =>
    if off = 0 && b.room = 0 then (s, .wait .buffer)
    else (putLs r.owner.team (r.swizzle s ch) bad (b.at_ b.p + off) bytes s, .ok ())

/-- The output bytes of a piece written; a stream's bytes are gathered in the record. -/
def writeSide (core ch : Nat) (r : Record) (p : Place) (bytes : List Byte) (bad : Bool) (s : State) : State × SideRes Unit :=
  match p with
  | .va a => writeVa core r a bytes bad s
  | .block ref => writeBlock core r ref bytes bad s
  | .ls a => writeLs ch r a bytes bad s
  | .cb i _ off => writeCb ch r i off bytes bad s
  | .stream _ => (s, .ok ())

/-! ### Moving a record -/

/-- The indices and output of a piece's source bytes (R205). -/
def Record.output (r : Record) (k : Core) (b : List Byte) : List Byte :=
  if r.isCode then
    let v := ofBytes b
    let i := if r.xform = 1 then v % 256 else if r.from_ % 2 = 0 then v % 4096 else v / 16 % 4096
    match k.codebook with
    | some t => t.entry ((r.xparam.toNat % 4096 + i) % 4096)
    | none => List.replicate 16 0#8
  else b

/-- Where a record stands after it was tried. -/
inductive Moved where
  | moved
  /-- not yet; what it waits for of what R389 names -/
  | wait (on : RecWait)
  | fail (status : Nat)
  deriving DecidableEq, Repr

/-- A request of a record's piece to another device (R231). -/
def sendCopy (core id : Nat) (r : Record) (pod ia : Nat) (kind : RemoteKind) (n : Nat) (data : List Byte) (s : State) :
    State × Record × Moved :=
  let dev := (s.ctx r.owner.ctx).dev
  let peer := Tab.getD (s.dev dev).peers {} pod
  if r.rfail != 0 then (s, r, .fail r.rfail)
  else if peer.fenced then (s, r, .fail 10)
  else if r.waiting then (s, r, .wait .none)
  else
    (addRequest { dev := dev, pod := pod, ctx := r.owner.ctx, for_ := .copy core id, seq := 0, kind := kind, ia := ia, size := n
                  data := data } s, { r with waiting := true }, .wait .none)

/-- The buffer pointers of a record that has moved a piece (R211). -/
def movePointers (r : Record) (q : Piece) (s : State) : State :=
  let t := r.owner.team
  let s1 := if r.skind = 3 then
      match cbOf s t r.src.toNat with
      | some b => setCb t r.src.toNat { b with
          c := (b.c + (r.consumed (r.from_ + q.units) / b.size - r.consumed r.from_ / b.size)) % 2 ^ 32 } s
      | none => s
    else s
  if r.dkind = 3 then
    match cbOf s1 t r.dst.toNat with
    | some b => setCb t r.dst.toNat { b with
        p := (b.p + ((q.opos + q.units * r.scale) / b.size - q.opos / b.size)) % 2 ^ 32 } s1
    | none => s1
  else s1

/-- A piece written: the record beyond it, its fragment appended where a row of a stream is complete and the stream has a place
(R212). -/
def afterPiece (r : Record) (q : Piece) (out : List Byte) (bad : Bool) (s : State) : State × Record × Moved :=
  let s1 := movePointers r q s
  let r1 := { r with from_ := r.from_ + q.units, rd := [], rdBad := false, put := 0, waiting := false, poison := r.poison || bad
                     blocked := .none }
  if r.dkind = 4 then
    let buf := r.buf ++ out
    let b := r.bufBad || bad
    if (q.opos + out.length) % r.outRow = 0 then
      if 8 ≤ (streamOf s r.owner.team r.dst.toNat).frags.length then (s, r, .wait .none)
      else
      let fr : Fragment := { bytes := some buf, poison := if b then some 0 else none }
      (s1.modStream r.owner.team r.dst.toNat (fun y => { y with frags := y.frags ++ [fr] }), { r1 with buf := [], bufBad := false }, .moved)
    else (s1, { r1 with buf := buf, bufBad := b }, .moved)
  else (s1, r1, .moved)

/-- The destination of a piece whose source bytes have been read: as much of the rest of its output as lies together. -/
def movePut (core id ch : Nat) (r : Record) (q : Piece) (s : State) : State × Record × Moved :=
  let out := r.output (s.core core) r.rd
  if out.length ≤ r.put then afterPiece r q out r.rdBad s
  else
    let p := r.dstPlace s (q.opos + r.put)
    let b := (out.drop r.put).take (roomAt s r (r.xform == 3) p)
    match writeSide core ch r p b r.rdBad s with
    | (s1, .ok ()) => (s1, { r with put := r.put + b.length }, .moved)
    | (s1, .wait n) => (s1, r, .wait n)
    | (s1, .fail e) => (s1, r, .fail e)
    | (s1, .remote pod ia) => sendCopy core id r pod ia .write b.length b s1

/-- One step of a piece of a record: source bytes that lie together read, or output bytes that lie together written (R199). -/
def movePiece (core id ch : Nat) (r : Record) (s : State) : State × Record × Moved :=
  let q := r.piece s
  if q.sn ≤ r.rd.length then movePut core id ch r q s
  else
    let p := r.srcPlace s r.from_ (q.spos + r.rd.length)
    let n := min (q.sn - r.rd.length) (max (readRoom s r p) 1)
    match readSide core r p n s with
    | (s1, .ok (b, bad)) => (s1, { r with rd := r.rd ++ b, rdBad := r.rdBad || bad }, .moved)
    | (s1, .wait w) => (s1, r, .wait w)
    | (s1, .fail e) => (s1, r, .fail e)
    | (s1, .remote pod ia) => sendCopy core id r pod ia .read n [] s1

/-- Pieces moved until the record is complete, waits or fails. -/
def moveAll (core id ch : Nat) : Nat → Record → State → State × Record × Moved
  | 0, r, s => (s, r, .moved)
  | fuel + 1, r, s =>
    if r.units ≤ r.from_ then (s, r, .moved)
    else match movePiece core id ch r s with
      | (s1, r1, .moved) => moveAll core id ch fuel r1 s1
      | res => res

/-! ### Batches and completion (R198, R202) -/

/-- The course of an owner, where it is still bound. -/
def ownerCourse (s : State) (o : Owner) : Option Course :=
  match s.course o.course with
  | some co => if co.name = o.name then some co else none
  | none => none

/-- A batch of an owner's course changed. -/
def modBatch (o : Owner) (num : Nat) (f : Batch → Batch) (s : State) : State :=
  match ownerCourse s o with
  | none => s
  | some _ => s.modCourse o.course (fun co =>
      ({ co with batches := co.batches.map (fun b => if b.num = num then f b else b) } : Course).settleBatches)

/-- A failing record: the lowest-numbered one's FOFF stands. -/
def Batch.fail (b : Batch) (number foff : Nat) : Batch :=
  match b.failed with
  | some (_, n) => if n ≤ number then b else { b with failed := some (foff, number) }
  | none => { b with failed := some (foff, number) }

def copyRecord (o : Owner) (code addr status : Nat) (s : State) : State :=
  s.post o.ctx { name := o.name, pc := 0#64, code := code, cls := addr + 2 ^ 64 * status }

/-- A write of the engine into a record in memory; nothing where it can no longer be reached. -/
def recWrite (core : Nat) (o : Owner) (va : Nat) (bytes : List Byte) (s : State) : State :=
  match vaAt (s.ctx o.ctx) va bytes.length true with
  | .local_ ia => (homeWrite core (s.ctx o.ctx) false (byPage ia bytes.length) bytes s).1
  | _ => s

/-- The bytes of CONTROL in memory. -/
def recControl (o : Owner) (va : Nat) (s : State) : Nat :=
  match vaAt (s.ctx o.ctx) va 4 false with
  | .local_ ia => match (homeRead (s.ctx o.ctx) (byPage ia 4) s).2 with
    | .ok (b, _) => ofBytes b
    | .error _ => 0
  | _ => 0

/-- STATUS and FOFF written, then OWN cleared (R197). -/
def writeStatus (core : Nat) (r : Record) (status foff : Nat) (s : State) : State :=
  match r.at_ with
  | none => s
  | some va =>
    let s1 := recWrite core r.owner (va + 58) (toBytes 2 (foff / 2 ^ 24 % 256) ++ toBytes 4 (status + 2 ^ 8 * (foff % 2 ^ 24))) s
    let ctl := recControl r.owner (va + 8) s1
    recWrite core r.owner (va + 8) (toBytes 4 (ctl / 2 * 2)) s1

/-- The chain at the head of a channel goes on, or has ended. -/
def chainNext (core ch : Nat) (s : State) : State :=
  match (vget (s.core core).chans {} ch).items with
  | .chain o n 0 _ :: _ =>
    modBatch o n (fun b => { b with pending := b.pending - 1 }) (s.modChan core ch (fun c => { c with items := c.items.drop 1 }))
  | _ => s

/-- A claimed record complete: its status, its batch, the error record, and what may follow it. -/
def completeRecord (core id ch : Nat) (r : Record) (status foff : Nat) (s : State) : State :=
  let s1 := writeStatus core r status foff (s.modCore core (fun k => { k with claimed := Tab.del k.claimed id }))
  let s2 := modBatch r.owner r.batch (fun b =>
    let b1 := { b with pending := b.pending - 1 }
    if status = 1 then b1 else b1.fail r.number foff) s1
  let addr := r.at_.getD 0
  let s3 := if status = 1 then s2 else copyRecord r.owner cCopyFault addr status s2
  let s4 := if r.poison then copyRecord r.owner cCopyPoison addr status s3 else s3
  let s5 := if r.at_.isSome then chainNext core ch s4 else s4
  reapTeam r.owner.team (fencesOf core (engineEnd core r.owner.launch (s5.unstall (cowRoom core))))

/-- The record's course still runs, or is no longer bound (its copies go on, R89). -/
def ownerRuns (s : State) (o : Owner) : Bool :=
  match ownerCourse s o with
  | some co => co.cstate == .run
  | none => true

/-- Writes of the engine into the record at an address wait (R157, R226, R457, R475). -/
def recStalled (s : State) (o : Owner) (va : Nat) : Bool := vaHeld s o.ctx va 64 true

def Record.stalled (s : State) (r : Record) : Bool := (r.at_.map (recStalled s r.owner)).getD false

/-- What RECORD_COMPLETE does: as much of the record as can be moved; its end waits until its STATUS can be written. -/
def runRecord (core id ch : Nat) (r : Record) (s : State) : State × Record × Moved :=
  if r.status != 0 then (s, r, if r.stalled s then .wait .none else .fail r.status)
  else if r.blocked != .none && !(ownerRuns s r.owner) then (s, r, .wait r.blocked)
  else match moveAll core id ch (20 * r.units + 1) r s with
    | (s1, r1, .wait w) => (s1, r1, .wait w)
    | (s1, r1, .moved) => (s1, r1, if r1.stalled s1 then .wait .none else .moved)
    | (s1, r1, .fail e) => if r1.stalled s1 then (s1, { r1 with status := e }, .wait .none) else (s1, r1, .fail e)

/-- RECORD_COMPLETE (R198, R211). -/
def execRecordComplete (core id : Nat) (s : State) : Out :=
  match Tab.find (s.core core).claimed id with
  | none => .next s
  | some (ch, r) =>
    match runRecord core id ch r s with
    | (s1, r1, .moved) => .next (completeRecord core id ch r1 1 0 s1)
    | (s1, r1, .fail e) => .next (completeRecord core id ch r1 e r1.foff s1)
    | (s1, r1, .wait b) => .next (s1.modCore core (fun k => { k with
        claimed := Tab.put k.claimed id (ch, { r1 with blocked := b }) }))

/-! ### Claiming (R197, R417, R480) -/

/-- A codebook load has begun on the core: records that read the table wait for it. -/
def tableLoading (k : Core) : Bool := (vlist k.chans).any Channel.loading

/-- A record as the engine reads it (R194): NEXT, and the record. -/
def parseRecord (o : Owner) (batch number va : Nat) (b : List Byte) : Nat × Record :=
  let f := fun off n => ofBytes ((b.drop off).take n)
  let ctl := f 8 4
  let rows := if f 32 4 = 0 then 1 else f 32 4
  let drows := f 40 4
  let x := bitsOf ctl 12 4
  let r : Record :=
    { owner := o
      batch := batch
      number := number
      at_ := some va
      skind := bitsOf ctl 4 4
      dkind := bitsOf ctl 8 4
      xform := x
      waitFe := bitOf ctl 1
      length := f 12 4
      src := BitVec.ofNat 64 (f 16 8)
      dst := BitVec.ofNat 64 (f 24 8)
      rows := rows
      drows := drows
      sstride := sgn 32 (f 36 4)
      dstride := sgn 32 (f 44 4)
      xparam := BitVec.ofNat 64 (f 48 8)
      bad := bitsOf ctl 16 16 != 0 || bitsOf ctl 2 2 != 0 || (drows != 0 && drows != rows) }
  (f 0 8, { r with dstride := if r.dstride = 0 then r.length else r.dstride })

/-- BAD_RECORD (R195, R196, R198, R205). -/
def badRecord (s : State) (r : Record) : Bool :=
  let t := r.owner.team
  let cbBad := fun (i : DWord) (n : Nat) =>
    match if i.toNat < 64 then cbOf s t i.toNat else none with
    | some b => n % b.size != 0
    | none => true
  r.bad || 3 < r.skind || 4 < r.dkind || 3 < r.xform || 2 ^ 32 < r.length * r.rows
    || (r.skind == 3 && cbBad r.src r.length) || (r.dkind == 3 && cbBad r.dst r.outRow)
    || (r.dkind == 4 && (7 < r.dst.toNat || !(sfillLenOk r.outRow) || (streamOf s t r.dst.toNat).bind.isSome))
    || (r.isCode && r.xparam.toNat / 2 ^ 12 != 0) || (r.xform == 2 && r.length % 3 != 0)
    || (r.waitFe && ((r.skind == 2 && r.length % 16 != 0) || (r.dkind == 2 && r.outRow % 16 != 0)))

/-- ALIGNMENT of a local-store side under WAITFE. -/
def badAlign (r : Record) : Bool :=
  let side := fun (kind : Nat) (a : DWord) (stride : Int) => kind == 2 && (a.toNat % 16 != 0 || (1 < r.rows && stride % 16 != 0))
  r.waitFe && (side r.skind r.src r.sstride || side r.dkind r.dst r.dstride)

/-- The issuing team owns the core's table. -/
def ownsTable (s : State) (core : Nat) (r : Record) : Bool := ((s.core core).codebook.map Codebook.team) == some r.owner.team

/-- The status a record has at its claim. -/
def claimStatus (s : State) (core : Nat) (r : Record) : Nat :=
  if badRecord s r then 12
  else if badAlign r then 11
  else if r.isCode && !(ownsTable s core r) then 6
  else 0

/-- Elements of its source buffer that a record has still to take, and of its destination buffer that it has still to fill. -/
def Record.takes (r : Record) (size : Nat) : Nat := r.consumed r.units / size - r.consumed r.from_ / size
def Record.fills (r : Record) (size : Nat) : Nat := r.units * r.scale / size - r.from_ * r.scale / size

/-- Elements, or room for elements, of a buffer that the core's claimed records have still to use. -/
def bespoke (s : State) (core tid i : Nat) (fills : Bool) (size : Nat) : Nat :=
  ((Tab.vals (s.core core).claimed).map (fun e =>
    let r := e.2
    if r.owner.team != tid then 0
    else if fills then (if r.dkind == 3 && r.dst.toNat == i then r.fills size else 0)
    else (if r.skind == 3 && r.src.toNat == i then r.takes size else 0))).sum

/-- The buffers let the record be claimed: they hold an element, or room for one, beyond what the records claimed before it will
use (R417). -/
def buffersReady (s : State) (core : Nat) (r : Record) : Bool :=
  let t := r.owner.team
  let ok := fun (kind : Nat) (i : DWord) (f : CircBuf → Bool) =>
    kind != 3 || (match cbOf s r.owner.team i.toNat with
      | some b => f b
      | none => true)
  ok r.skind r.src (fun b => bespoke s core t r.src.toNat false b.size < b.held)
    && ok r.dkind r.dst (fun b => bespoke s core t r.dst.toNat true b.size < b.room)

def claimable (s : State) (core : Nat) (r : Record) : Bool :=
  buffersReady s core r && recordCount s core < 128 && !(tableLoading (s.core core) && r.usesTable s)

/-- A record put under way. -/
def putClaimed (core ch : Nat) (r : Record) (s : State) : State :=
  let (id, s1) := s.fresh
  s1.modCore core (fun k => { k with claimed := Tab.put k.claimed id (ch, r) })

/-- The 64 bytes of a chain's record and the state after the engine's translation, or the STATUS that ends the chain. -/
def readRecord (o : Owner) (va : Nat) (s : State) : State × Except Nat (List Byte) :=
  let cx := s.ctx o.ctx
  if va % 64 != 0 then (s, .error 11)
  else match vaAt cx va 64 false, vaAt cx va 64 true with
    | .fail e, _ => (s, .error e)
    | _, .fail e => (s, .error e)
    | .local_ ia, _ =>
      if 2 ^ 48 ≤ ia then (s, .error 3)
      else match homeXlate { dev := cx.dev, ia := ia, write := false, pick := false, owner := ctxOwner cx, cls := cx.tclass } s with
        | (s1, .fault code _) => (s1, .error (statusOfCode code))
        | (s1, .ok key e) =>
          if !pteWr e || s1.poisoned key 64 then (s1, .error 3) else (s1, .ok (s1.readUnder (pteKey e) key 64))
    | .remote _ _, _ => (s, .error 3)

/-- A chain that meets a record it cannot read and write ends there (R480). -/
def chainFail (core ch : Nat) (o : Owner) (batch va status : Nat) (s : State) : State :=
  let number := (((ownerCourse s o).bind (fun co => co.batches.find? (fun b => b.num == batch))).map Batch.count).getD 0
  let s1 := modBatch o batch (fun b => ({ b with pending := b.pending - 1 } : Batch).fail number 0)
    (s.modChan core ch (fun c => { c with items := c.items.drop 1 }))
  reapTeam o.team (fencesOf core (copyRecord o cCopyFault va status s1))

/-- The chain item at the head of a channel replaced. -/
def setHead (core ch : Nat) (i : ChanItem) (s : State) : State :=
  s.modChan core ch (fun c => { c with items := i :: c.items.drop 1 })

/-- A chain's record claimed: BATCH written, and STATUS 0 (claimed, in progress), the chain moved on to NEXT (R197, R198). -/
def claimChain (core ch : Nat) (o : Owner) (batch va : Nat) (b : List Byte) (s : State) : Option State :=
  let number := (((ownerCourse s o).bind (fun co => co.batches.find? (fun y => y.num == batch))).map Batch.count).getD 0
  let (next, r) := parseRecord o batch number va b
  if !(claimable s core r) then none
  else
    let r1 := { r with status := claimStatus s core r }
    let s1 := modBatch o batch (fun y => { y with pending := y.pending + 1, count := y.count + 1 }) s
    let s2 := setHead core ch (.chain o batch next true)
      (recWrite core o (va + 60) (toBytes 1 0) (recWrite core o (va + 56) (toBytes 2 batch) s1))
    some (putClaimed core ch r1 s2)

/-- Whose work it is. -/
def ChanItem.owner : ChanItem → Option Owner
  | .chain o _ _ _ => some o
  | .copy r => some r.owner
  | .codebook o _ _ => some o
  | .fence _ => none

/-- Work whose course is being unbound, or is halted with quiesce, is not claimed (R387, R461). -/
def heldBack (s : State) (i : ChanItem) : Bool :=
  match i.owner.bind (ownerCourse s) with
  | some co => co.cstate != .run || co.quiesce
  | none => false

/-- What RECORD_CLAIM does at the head of a channel; none where it does nothing. -/
def claimHead (core ch : Nat) (s : State) : Option State :=
  let c := vget (s.core core).chans {} ch
  if c.parked || c.loading || chanBusy (s.core core) ch || (c.items.head?.map (heldBack s)).getD false then none
  else match c.items with
    | [] => none
    | .fence _ :: _ => none
    | .codebook _ _ _ :: _ =>
      if codebookInUse s core || tableLoading (s.core core) then none
      else some (s.modChan core ch (fun y => { y with loading := true, got := [], asked := false, failed := false }))
    | .copy r :: _ =>
      let r1 := if r.at_.isNone && r.from_ = 0 then { r with dstride := r.length, status := claimStatus s core r } else r
      if claimable s core r then
        some (putClaimed core ch r1 (s.modChan core ch (fun y => { y with items := y.items.drop 1 })))
      else none
    | .chain o batch va _ :: _ =>
      if recStalled s o va then none
      else match readRecord o va s with
        | (s1, .error e) => some (chainFail core ch o batch va e s1)
        | (s1, .ok b) =>
          if !bitOf (ofBytes ((b.drop 8).take 4)) 0 then
            some (setHead core ch (.chain o batch va true) (s1.modChan core ch (fun y => { y with parked := true })))
          else claimChain core ch o batch va b s1

/-- RECORD_CLAIM (R197). -/
def execRecordClaim (core ch : Nat) (s : State) : Out := .next ((claimHead core ch s).getD s)

/-! ### CODEBOOK_LOAD_COMPLETE (R206) -/

/-- The table that a load's bytes and control word make. -/
def tableOfBytes (o : Owner) (ctl : Nat) (b : List Byte) : Codebook :=
  { bytes := b, count := bitsOf ctl 0 13, tag := bitsOf ctl 16 16, bf16 := bitOf ctl 13, team := o.team }

/-- A request for bytes of a table in another device's memory (R231); none where the device is fenced or one has failed. -/
def sendTable (core ch : Nat) (o : Owner) (pod ia n : Nat) (s : State) : Option State :=
  let dev := (s.ctx o.ctx).dev
  if (Tab.getD (s.dev dev).peers {} pod).fenced then none
  else
    some ((addRequest { dev := dev, pod := pod, ctx := o.ctx, for_ := .table core ch, seq := 0, kind := .read, ia := ia
                        size := n } s).modChan core ch (fun y => { y with asked := true }))

/-- A load at its end: the table replaced as one step, or as it was where a byte could not be read. -/
def endLoad (core ch : Nat) (o : Owner) (t : Option Codebook) (s : State) : State :=
  let s1 := s.modChan core ch (fun y => { y with
    items := y.items.drop 1, loading := false, got := [], asked := false, failed := false })
  reapTeam o.team (fencesOf core (engineEnd core o.launch (match t with
    | some _ => s1.modCore core (fun k => { k with codebook := t })
    | none => s1)))

/-- As much of a table read as can be: page by page, or a line at a time from another device. -/
def loadTable (core ch : Nat) (o : Owner) (va ctl : Nat) : Nat → State → State
  | 0, s => s
  | fuel + 1, s =>
    let c := vget (s.core core).chans {} ch
    let cx := s.ctx o.ctx
    let a := va + c.got.length
    let n := min (16 * bitsOf ctl 0 13 - c.got.length) (vaRoom cx a)
    if c.failed then endLoad core ch o none s
    else if c.asked then s
    else if 16 * bitsOf ctl 0 13 ≤ c.got.length then endLoad core ch o (some (tableOfBytes o ctl c.got)) s
    else match vaAt cx a n false with
      | .fail _ => endLoad core ch o none s
      | .remote pod ia => (sendTable core ch o pod ia n s).getD (endLoad core ch o none s)
      | .local_ ia =>
        if iaHeld s cx.dev false ia then s
        else match homeRead cx (byPage ia n) s with
          | (s1, .error _) => endLoad core ch o none s1
          | (s1, .ok (b, _)) => loadTable core ch o va ctl fuel (s1.modChan core ch (fun y => { y with got := y.got ++ b }))

/-- CODEBOOK_LOAD_COMPLETE: the table replaced as one step, once every byte of it has been read. -/
def execCodebookLoadComplete (core ch : Nat) (s : State) : Out :=
  let c := vget (s.core core).chans {} ch
  match c.loading, c.items with
  | true, .codebook o va ctl :: _ => .next (loadTable core ch o va ctl (16 * bitsOf ctl 0 13 + 2) s)
  | _, _ => .next s

/-- A load that goes on now: no reply is due, and its next bytes have a home that answers. -/
def loadDue (s : State) (core ch : Nat) : Bool :=
  let c := vget (s.core core).chans {} ch
  match c.loading, c.items with
  | true, .codebook o va ctl :: _ =>
    c.failed || (!c.asked && (match vaAt (s.ctx o.ctx) (va + c.got.length) 1 false with
      | .local_ ia => 16 * bitsOf ctl 0 13 ≤ c.got.length || !(iaHeld s (s.ctx o.ctx).dev false ia)
      | _ => true))
  | _, _ => false

/-! ### What is due -/

/-- The record would move, complete or fail now. -/
def recordDue (s : State) (core id : Nat) : Bool :=
  match Tab.find (s.core core).claimed id with
  | none => false
  | some (ch, r) =>
    match runRecord core id ch r s with
    | (s1, r1, .wait b) => { r1 with blocked := b } != r || s1.cows.length != s.cows.length
    | _ => true

end Sys2Proof.Machine
end

