-- ==== Sys2Proof/Machine/Guard.lean ====
section
/-! DEFINITION. The numbers of the matrix engine: fragments (R331, R332), the elements of an MMA (R342), and the guard's
check, correction and acceptance (R345, R346, R283, R284). -/

namespace Sys2Proof.Machine

/-! ### Widths (R331) -/

/-- Element width of an MMA operand, none for a format that is not one. -/
def operandWidth (d : DWord) : Option Nat :=
  match fdKind d with
  | 0 => some (fdS d + fdE d + fdM d)
  | 1 => some (fdM d + 1)
  | 2 | 3 => some 16
  | _ => none

/-- K of two element widths. -/
def depthOf (wa wb : Nat) : Nat :=
  let w := max wa wb
  if w = 16 then 32 else if 5 ≤ w then 64 else 128

/-! ### Operands (R332, R335) -/

/-- The scaled elements of one row of A, or one column of B: codes of width w, K of them, scale bytes by block. -/
def operandRow (f : Fmt) (sf : ScaleF) (w K blk bits : Nat) (scales : List Nat) : List (Option XV) :=
  (List.range K).map (fun k => scaledElem f sf (bitsOf bits (w * k) w) (if blk = 0 then 0 else scales.getD (k / blk) 0))

/-- The 32 rows of A, or columns of B. -/
def operandRows (d : DWord) (w K blk : Nat) (frag scales : List Byte) : List (List (Option XV)) :=
  let bits := ofBytes frag
  let n := if blk = 0 then 0 else K / blk
  let sb := scales.map BitVec.toNat
  let sf := if blk = 0 then ScaleF.none else fdScale d
  (List.range 32).map (fun r => operandRow (fdFmt d) sf w K blk (bits / 2 ^ (w * K * r)) ((sb.drop (n * r)).take n))

/-! ### The elements of an MMA (R342) -/

/-- One element before and after: its reference value, its code, and its LS and BADSC. -/
structure MmaElem where
  v   : XV
  ref : Nat
  ls  : Bool := false
  bad : Bool := false

/-- An element of an active row. -/
def mmaElem (acc : Fmt) (win : Nat) (c : XV) (a b : List (Option XV)) : MmaElem :=
  let ps := List.zipWith exactProduct a b
  let r := windowDot (c :: ps.map Prod.fst) (windowBits win)
  { v := r.1, ref := (roundOnce r.1 acc).1, ls := r.2, bad := ps.any Prod.snd }

/-- Rows of 32 of a list. -/
def rows32 {α : Type} (l : List α) : List (List α) := (List.range 32).map (fun i => (l.drop (32 * i)).take 32)

def transpose32 {α : Type} (l : List (List α)) : List (List α) :=
  (List.range 32).map (fun j => l.filterMap (fun r => r[j]?))

/-- The elements of an MMA; rows that are not active keep their values (R343). -/
def mmaElems (acc : Fmt) (win : Nat) (zero : Bool) (act : Mask) (old : List (List Nat)) (a b : List (List (Option XV))) :
    List (List MmaElem) :=
  (List.range 32).map (fun i =>
    let row := old.getD i []
    if act.getLsbD i then
      (List.range 32).map (fun j =>
        mmaElem acc win (if zero then .zero false else decodeF acc (row.getD j 0)) (a.getD i []) (b.getD j []))
    else row.map (fun x => { v := decodeF acc x, ref := x }))

/-! ### The guard (R345, R283) -/

/-- Class of a value: finite, +infinity, -infinity, NaN. -/
def classOf (x : XV) : Nat :=
  match x with
  | .nan _ => 3
  | .inf n => if n then 2 else 1
  | _ => 0

/-- What the guard finds of one row or column. -/
structure Line where
  mismatch : Bool
  wrong    : Bool
  d        : Q
  tau      : Q

/-- The sum of the values of a list whose element is of finite class. -/
def finiteSum (l : List (XV × Bool)) : Q := Q.sum ((l.filter Prod.snd).map (fun e => e.1.toQ))

/-- tau of R283 from the elements before and as stored. -/
def tauOf (acc : Fmt) (old stored : List XV) : Q :=
  let e := ((old ++ stored).map (ulpexp acc)).foldl max acc.emin
  (Q.scaled 34 (e - acc.prec))

/-- One row or column against its reference sums. -/
def checkLine (acc : Fmt) (exact : Bool) (ref : List MmaElem) (old stored : List Nat) : Line :=
  let sv := stored.map (decodeF acc)
  let cls := ref.map (fun e => classOf (decodeF acc e.ref) == 0)
  let wrong := (List.zipWith (fun (e : MmaElem) x => classOf (decodeF acc e.ref) != classOf x) ref sv).any id
  let d := (finiteSum ((ref.map MmaElem.v).zip cls)).sub
    (finiteSum (sv.zip (List.zipWith (fun (f : Bool) x => f && classOf x == 0) cls sv)))
  let tau := tauOf acc (old.map (decodeF acc)) sv
  let m := if exact then ref.map MmaElem.ref != stored else wrong || tau.lt d.abs
  { mismatch := m, wrong := wrong, d := d, tau := tau }

def checkLines (acc : Fmt) (exact : Bool) (ref : List (List MmaElem)) (old stored : List (List Nat)) : List Line :=
  (List.range 32).map (fun i => checkLine acc exact (ref.getD i []) (old.getD i []) (stored.getD i []))

def checkCols (acc : Fmt) (exact : Bool) (ref : List (List MmaElem)) (old stored : List (List Nat)) : List Line :=
  checkLines acc exact (transpose32 ref) (transpose32 old) (transpose32 stored)

def mismatches (l : List Line) : Mask := maskOf (fun i => ((l[i]?).map Line.mismatch).getD false)

/-! ### Acceptance, correction, retry (R346) -/

/-- What the guard makes of one attempt. -/
inductive GuardRes where
  | accept (stored : List (List Nat))
  /-- the element corrected -/
  | corrected (stored : List (List Nat)) (row col : Nat)
  /-- a mismatch accepted in the tolerant region -/
  | tolerated (stored : List (List Nat))
  | retry (rows cols : Mask)
  deriving DecidableEq, Repr

def setElem (l : List (List Nat)) (i j x : Nat) : List (List Nat) := l.set i ((l.getD i []).set j x)

def getElem (l : List (List Nat)) (i j : Nat) : Nat := (l.getD i []).getD j 0

/-- The corrected element, where R284 gives one and it passes the check. -/
def correction (acc : Fmt) (exact : Bool) (ref : List (List MmaElem)) (old stored : List (List Nat)) (rows cols : List Line)
    (i j : Nat) : Option (List (List Nat)) :=
  match rows[i]?, cols[j]?, (ref[i]?).bind (fun r => r[j]?) with
  | some r, some c, some e =>
    let agree := exact || ((r.d.sub c.d).abs.le (if r.tau.lt c.tau then c.tau else r.tau))
    let x := if exact then e.ref
      else (roundTo (XV.add false (decodeF acc (getElem stored i j)) (XV.ofQ false r.d)) acc 0 false 0).1
    let new := setElem stored i j x
    let ri := checkLine acc exact (ref.getD i []) (old.getD i []) (new.getD i [])
    let cj := checkLine acc exact ((transpose32 ref).getD j []) ((transpose32 old).getD j []) ((transpose32 new).getD j [])
    if agree && !ri.mismatch && !cj.mismatch then some new else none
  | _, _, _ => none

/-- The tolerant region's bound: no element of the wrong class, every delta within 2^8 of its tolerance. -/
def tolerable (rows cols : List Line) : Bool :=
  (rows ++ cols).all (fun l => !l.wrong && l.d.abs.le (l.tau.mul ⟨256, 1⟩))

/-- One attempt of the guard: region 0 exact, 1 checked, 2 tolerant. -/
def guardAttempt (acc : Fmt) (region : Nat) (ref : List (List MmaElem)) (old stored : List (List Nat)) : GuardRes :=
  let exact := region == 0
  let rows := checkLines acc exact ref old stored
  let cols := checkCols acc exact ref old stored
  let rm := mismatches rows
  let cm := mismatches cols
  let retry := if region = 2 && tolerable rows cols then GuardRes.tolerated stored else .retry rm cm
  if rm = 0#32 && cm = 0#32 then .accept stored
  else match lanesOf rm, lanesOf cm with
    | [i], [j] =>
      if region = 2 then retry
      else match correction acc exact ref old stored rows cols i j with
        | some new => .corrected new i j
        | none => retry
    | _, _ => retry

/-- The third attempt: the tolerant region keeps what it has. -/
def lastAttempt (region : Nat) (stored : List (List Nat)) (r : GuardRes) : GuardRes :=
  match r with
  | .retry a b => if region = 2 then .tolerated stored else .retry a b
  | x => x

/-- Flipped bits of the overscaled result. -/
def applyFlips (width : Nat) (l : List (List Nat)) (flips : List (Nat × Nat × Nat)) : List (List Nat) :=
  flips.foldl (fun acc f => if f.2.2 < width then setElem acc f.1 f.2.1 (getElem acc f.1 f.2.1 ^^^ 2 ^ f.2.2) else acc) l

end Sys2Proof.Machine
end

