-- ==== Sys2Proof/Machine/Journal.lean ====
section
/-! DEFINITION. The journal of a near die (R380, R454), its slots (R379), and the pre-emption of a bound course or of a team
(R387, R414). -/

namespace Sys2Proof.Machine

/-! ### The journal (R380, R454) -/

/-- A journal entry. -/
structure JEntry where
  seq     : Nat
  kind    : Nat
  core    : Nat
  index   : Nat
  payload : List Byte
  deriving DecidableEq, Repr

/-- The bytes of an entry before its check field, and after it. -/
def JEntry.head (e : JEntry) : List Byte := toBytes 8 e.seq ++ toBytes 1 e.kind ++ toBytes 1 e.core ++ toBytes 2 e.index
def JEntry.tail (e : JEntry) : List Byte := (e.payload ++ List.replicate 32 0#8).take 32 ++ toBytes 16 0

/-- The 64 bytes of an entry, with their CRC-32C. -/
def JEntry.bytes (e : JEntry) : List Byte := e.head ++ toBytes 4 (crc32c (e.head ++ e.tail)) ++ e.tail

/-- An entry read back; none where its CRC-32C does not match. -/
def JEntry.ofBytes (b : List Byte) : Option JEntry :=
  let f := fun off n => Machine.ofBytes ((b.drop off).take n)
  if f 12 4 == crc32c (b.take 12 ++ b.drop 16) then
    some { seq := f 0 8, kind := f 8 1, core := f 9 1, index := f 10 2, payload := (b.drop 16).take 32 }
  else none

/-- The dispatch of a near die is at work: a scheduler core runs (R453 to R456). -/
def dispatching (s : State) (die : Nat) : Bool := (s.die die).sched.running && (s.die die).fence == .none

/-- An entry journalled at its slot of the ring, and its effect taken at once: JAPPLIED follows. -/
def journal (die kind core index : Nat) (payload : List Byte) (s : State) : State :=
  s.modDie die (fun d =>
    let e : JEntry := { seq := d.jnext, kind := kind, core := core, index := index, payload := payload }
    { d with journal := Tab.put d.journal (d.jnext % d.jsize) e.bytes, jnext := d.jnext + 1, japplied := d.jnext })

/-- An entry put among others in sequence order. -/
def insertEntry (e : JEntry) : List JEntry → List JEntry
  | [] => [e]
  | y :: t => if e.seq < y.seq then e :: y :: t else y :: insertEntry e t

/-- The entries that a take-over replays, in sequence order (R454). -/
def unapplied (d : Die) : List JEntry :=
  (((Tab.vals d.journal).filterMap JEntry.ofBytes).filter (fun e => d.japplied < e.seq)).foldr insertEntry []

/-! ### Slots (R379) -/

/-- The 32 bytes of a bind record. -/
def BindRec.bytes (r : BindRec) : List Byte :=
  toBytes 8 r.entryPc.toNat ++ toBytes 2 r.asid ++ toBytes 1 r.slot ++ toBytes 1 r.cprio ++ toBytes 4 r.teamid ++ toBytes 2 r.panel
    ++ toBytes 2 r.gen ++ toBytes 2 r.lsBase ++ toBytes 2 r.lsSize ++ toBytes 1 r.tiles ++ toBytes 1 r.ntiles ++ toBytes 1 r.bars
    ++ toBytes 1 r.nbars ++ toBytes 4 r.saveIdx

def slotAt (s : State) (c : Nat) : SlotEntry := Tab.getD s.slots {} c

def setSlot (c : Nat) (r : BindRec) (st : SlotState) (s : State) : State := { s with slots := Tab.put s.slots c { rec_ := r, state := st } }

/-! ### Pre-emption (R387, R414) -/

/-- A slot set to UNBIND: the core stops issue for the course and takes its matrix operations back; a course that a fault has
stopped stays stopped. -/
def unbindSlot (c : Nat) (s : State) : State :=
  abandonMats c ((setSlot c (slotAt s c).rec_ .unbind s).modCourse c (fun y =>
    { y with cstate := if y.cstate = .stopped then .stopped else .unbind }))

/-- Belaujor sets a slot that is RUN to UNBIND. -/
def preemptSlot (c : Nat) (s : State) : State :=
  if (slotAt s c).state == .run && (s.course c).any (fun co => co.cstate != .unbind) && dispatching s (dieOf c) then
    unbindSlot c (journal (dieOf c) 3 (coreOf c % 64) (slotOf c) (slotAt s c).rec_.bytes s)
  else s

/-- Every bound course of a team pre-empted, in slot order; the team stays saved until hxdb lets it go on (R414). -/
def preemptTeam (tid : Nat) (s : State) : State :=
  (s.courses.filter (fun e => e.2.team == tid)).foldl (fun acc e => preemptSlot e.1 acc)
    { s with injected := Tab.put s.injected tid false }

/-- The first attempt of an MMA of a course begins: an armed pre-emption of its team fires (R414). -/
def firePreempt (o : Owner) (s : State) : State :=
  if s.armed.contains o.name then preemptTeam o.team { s with armed := s.armed.filter (· != o.name) } else s

/-- hxdb's inject preempt, a privileged command, and the continue after it (R414). -/
def inject (i : Inject) (s : State) : State :=
  let named := fun (c : Nat) (f : Course → State) =>
    match s.course c with
    | some co => if (s.ctx co.ctx).priv then f co else s
    | none => s
  match i with
  | .atMma c => named c (fun co => { s with armed := co.name :: s.armed.filter (· != co.name) })
  | .now c => named c (fun co => preemptTeam co.team s)
  | .goOn => { s with injected := s.injected.map (fun e => (e.1, true)) }

end Sys2Proof.Machine
end

