-- ==== Sys2Proof/Machine/Matrix.lean ====
section
/-! DEFINITION. The matrix instructions at issue (R333 to R336, R341, R358 to R369), the matrix queue (R339, R340), the
guard's attempts (R346, R347), the rail controller (R350 to R352, R448) and the norm monitor (R353 to R356). -/

namespace Sys2Proof.Machine

/-! ### Tiles (R337) -/

def tileAt (k : Core) (t : Nat) : Tile := Tab.getD k.tiles Tile.zero t

/-- The code of an element: binary32, or binary64 over a pair. -/
def elemCode (k : Core) (t : Nat) (wide : Bool) (i j : Nat) : Nat :=
  (vget (tileAt k t).elems 0#32 (32 * i + j)).toNat
    + (if wide then 2 ^ 32 * (vget (tileAt k (t + 1)).elems 0#32 (32 * i + j)).toNat else 0)

def tileCodes (k : Core) (t : Nat) (wide : Bool) : List (List Nat) :=
  (List.range 32).map (fun i => (List.range 32).map (fun j => elemCode k t wide i j))

def elemFlags (k : Core) (t i j : Nat) : BitVec 4 := vget (tileAt k t).flags 0#4 (32 * i + j)

def fLs : BitVec 4 := 1#4
def fCor : BitVec 4 := 2#4
def fOob : BitVec 4 := 4#4
def fBadsc : BitVec 4 := 8#4

def Core.modTile (k : Core) (t : Nat) (f : Tile → Tile) : Core := { k with tiles := Tab.put k.tiles t (f (tileAt k t)) }

/-- A binary32 code as a multiple of 2^-149; none where it is not finite. -/
def unitsOf (w : Word) : Option Int :=
  let e := bitsOf w.toNat 23 8
  let m := bitsOf w.toNat 0 23
  let v : Int := if e = 0 then (m : Nat) else ((2 ^ 23 + m) * 2 ^ (e - 1) : Nat)
  if e = 255 then none else some (if w.getLsbD 31 then -v else v)

/-- The sideband of a tile's elements (R338). DESIGN CHOICE (notes/assumptions/63.md): each tile of a binary64 pair keeps the
sums of its own words. -/
def sideOf (elems : Vector Word 1024) : Sideband :=
  let row := fun (i : Nat) => (List.range 32).map (fun j => unitsOf (vget elems 0#32 (32 * i + j)))
  let col := fun (j : Nat) => (List.range 32).map (fun i => unitsOf (vget elems 0#32 (32 * i + j)))
  { rows := vof 32 (fun i => ((row i).filterMap id).sum)
    cols := vof 32 (fun j => ((col j).filterMap id).sum)
    rowsOut := maskOf (fun i => (row i).any Option.isNone)
    colsOut := maskOf (fun j => (col j).any Option.isNone) }

/-- A tile with other elements; its sideband follows (R338). -/
def Tile.withElems (t : Tile) (e : Vector Word 1024) : Tile := { t with elems := e, side := sideOf e }

/-- Elements of one tile written. -/
def Tile.put (g : Nat → Nat → Option Word) (t : Tile) : Tile :=
  t.withElems (vmapIdx (fun n old => (g (n / 32) (n % 32)).getD old) t.elems)

/-- Flags of one tile's elements changed. -/
def Tile.mapFlags (g : Nat → Nat → BitVec 4 → BitVec 4) (t : Tile) : Tile :=
  { t with flags := vmapIdx (fun n old => g (n / 32) (n % 32) old) t.flags }

/-- Elements and flags of a tile, or of a pair, written; a write of a pair clears the flags of its second tile (R337). -/
def putElems (t : Nat) (wide : Bool) (code : Nat → Nat → Option Nat) (flags : Nat → Nat → BitVec 4 → BitVec 4) (k : Core) : Core :=
  let k1 := k.modTile t (fun y => (y.put (fun i j => (code i j).map (BitVec.ofNat 32))).mapFlags flags)
  if wide then
    k1.modTile (t + 1) (fun y => (y.put (fun i j => (code i j).map (fun c => BitVec.ofNat 32 (c / 2 ^ 32)))).mapFlags
      (fun _ _ _ => 0#4))
  else k1

/-- Codes and flags written in the rows of a mask, their flags cleared. -/
def putRows (t : Nat) (wide : Bool) (act : Mask) (code : Nat → Nat → Nat) (k : Core) : Core :=
  putElems t wide (fun i j => if act.getLsbD i then some (code i j) else none)
    (fun i _ f => if act.getLsbD i then 0#4 else f) k

def accFmt (wide : Bool) : Fmt := if wide then .f64 else .f32

/-! ### Issue -/

/-- The place of a tile of a team in its core. -/
def tileIdx (s : State) (tid t : Nat) : Nat := (teamD s tid).tile0 + t

/-- TILE_RANGE and the odd tile of a pair (R336, R358). -/
def tileRange (s : State) (tid t : Nat) (wide : Bool) : Verdict :=
  Verdict.trapIf ((teamD s tid).ntiles ≤ t + (if wide then 1 else 0)) { code := cTileRange }

def oddPair (t : Nat) (wide : Bool) : Verdict := illegalIf (wide && t % 2 == 1)

/-- Room in the matrix queue: 64 operations, 16 of the course (R339). -/
def matRoom (x : At) (s : State) : Verdict :=
  let q := (s.core (coreOf x.c)).mq.filter (fun o => o.fence.isNone)
  Verdict.waitIf (64 ≤ q.length || 16 ≤ (q.filter (fun o => o.owner.course == x.c && o.owner.name == x.co.name)).length)

/-- The operation of a word. -/
def matOp (w : FWord) (i : Instr) (refs : List SrcRef) (x : At) (act : Mask) (s : State) : MatOp :=
  let val := fun (n : Nat) => vof 32 (fun l => if act.getLsbD l then
    ((refs.find? (fun r => r.fld == n)).map (fun r => r.at_ x act s l)).getD 0 else 0)
  { owner := ownerOfWord x s, word := wordOf i, act := act, pc := x.sd.pc, opa := val 0, opb := val 1
    descA := vget (x.ctx s).formats 4#64 (w.fld 6 5) }

def pushMat (core : Nat) (o : MatOp) (s : State) : State := s.modCore core (fun k => { k with mq := k.mq ++ [o] })

/-- An operation queued, its results pushed empty (R340, R358). -/
def queueMat (x : At) (act : Mask) (d : BitVec 8) (words : Nat) (o : MatOp) (s : State) : State :=
  if words = 0 then pushMat (coreOf x.c) o s
  else
    let (id, s1) := s.fresh
    produceLater x act d words id (pushMat (coreOf x.c) { o with result := some id } s1)

/-- A word that queues an operation: with no lane active it only pushes. -/
def matWord (w : FWord) (i : Instr) (words : Nat) (refs : List SrcRef) (pre v : At → Mask → State → Verdict) (s : State) : Out :=
  runWord (sourcedMeaning w.pn w.pred
    (fun x act t => (Verdict.waitIf (destPending x act w.d words)).and_ (if act = 0#32 then .go else pre x act t)) refs
    (fun x act t => if act = 0#32 then .go else Verdict.all [v x act t, engineWait x t, matRoom x t])
    (fun x act t =>
      if act = 0#32 then (if words = 0 then t else produceLater x act w.d words 0 t)
      else queueMat x act w.d words (matOp w i refs x act t) t)) s

def tileOf (w : FWord) : Nat := w.fld 0 6

/-! ### MMA and MMAZ at issue (R333 to R336, R341, R342) -/

/-- The two halves of the format block: gN and gN+1. -/
def mmaRefs (w : FWord) : List SrcRef :=
  [numRef w 0 true, { numRef w 0 true with code := w.sa + 1#8, named := some w.sa }]

/-- A format block and what it names. -/
structure MmaBlock where
  descA : DWord
  descB : DWord
  wa : Nat
  wb : Nat
  blkA : Nat
  blkB : Nat
  win    : Nat
  wide   : Bool
  rovr   : Nat
  sca : Nat
  scb : Nat

def blkLen (code : Nat) (d : DWord) : Nat :=
  match code with
  | 1 => 8
  | 2 => 16
  | 3 => 32
  | 4 => 64
  | 7 => fdBlk d
  | _ => 0

def mmaBlock (g0 g1 : Nat) (descA descB : DWord) : MmaBlock :=
  { descA := descA, descB := descB, wa := (operandWidth descA).getD 0, wb := (operandWidth descB).getD 0
    blkA := blkLen (bitsOf g0 5 3) descA, blkB := blkLen (bitsOf g0 13 3) descB, win := bitsOf g0 16 3, wide := bitOf g0 19
    rovr := bitsOf g0 20 2, sca := bitsOf g1 0 32, scb := bitsOf g1 32 32 }

def MmaBlock.K (b : MmaBlock) : Nat := depthOf b.wa b.wb

/-- Bytes of a scale array. -/
def scaleBytes (K blk : Nat) : Nat := if blk = 0 then 0 else 32 * (K / blk)

/-- A scale array that is not wholly in the team's own allocation. -/
def scaleBad (s : State) (tid addr n : Nat) : Bool :=
  n != 0 && (bitOf addr 25 || lsAtTeam s tid addr n == .bad)

/-- The format block of a word in a state. -/
def mmaBlockAt (w : FWord) (x : At) (act : Mask) (s : State) : Nat × Nat × MmaBlock :=
  let val := fun (i : Nat) => (((mmaRefs w)[i]?).map (fun r => r.low x act s)).getD 0
  let g0 := val 0
  let f := fun n => vget (x.ctx s).formats 4#64 n
  (g0, val 1, mmaBlock g0 (val 1) (f (bitsOf g0 0 5)) (f (bitsOf g0 8 5)))

/-- R336, in the table's order. -/
def mmaBlockCheck (w : FWord) (x : At) (act : Mask) (s : State) : Verdict :=
  let (g0, _, b) := mmaBlockAt w x act s
  let rsv := fun (c : Nat) => c == 5 || c == 6
  let blkBad := fun (blk : Nat) (d : DWord) => blk != 0 && (fdScaleCode d == 0 || b.K < blk)
  let tid := x.co.team
  let lcl := fun (a n : Nat) => Verdict.trapIf (scaleBad s tid a n) { code := cLclRange, cls := a + 2 ^ 64 * act.toNat }
  Verdict.all [
    illegalIf (bitsOf g0 22 42 != 0 || rsv (bitsOf g0 5 3) || rsv (bitsOf g0 13 3) || b.win == 7),
    illegalIf ((operandWidth b.descA).isNone || (operandWidth b.descB).isNone),
    illegalIf (blkBad b.blkA b.descA || blkBad b.blkB b.descB),
    oddPair (tileOf w) b.wide,
    tileRange s tid (tileOf w) b.wide,
    lcl b.sca (scaleBytes b.K b.blkA),
    lcl b.scb (scaleBytes b.K b.blkB)]

/-- Fragments of a stream that no MMA has claimed. -/
def freeFrags (s : State) (tid st : Nat) : List Fragment := (streamOf s tid st).frags.filter (fun f => f.claim.isNone)

/-- The fragment an operand would bind: its latch, or the stream's next, the second one where the other operand takes the
first. -/
def boundBytes (s : State) (tid st : Nat) (latch : Option Latch) (skip : Bool) : Option (List Byte) :=
  match latch with
  | some l => some l.bytes
  | none => ((freeFrags s tid st)[if skip then 1 else 0]?).bind Fragment.bytes

def stA (w : FWord) : Nat := w.fld 6 3
def stB (w : FWord) : Nat := w.fld 9 3

/-- B takes the second fragment of the stream that A takes the first of. -/
def sameStream (w : FWord) (co : Course) : Bool := stA w == stB w && co.latchA.isNone

def latchBad (l : Option Latch) (st : Nat) : Bool :=
  match l with
  | some y => y.stream != st
  | none => false

/-- The binding of both operands: latches of other streams, the wait for fragments, FRAGMENT_SIZE (R333, R334). -/
def bindCheck (w : FWord) (x : At) (act : Mask) (s : State) : Verdict :=
  let (_, _, b) := mmaBlockAt w x act s
  let fa := boundBytes s x.co.team (stA w) x.co.latchA false
  let fb := boundBytes s x.co.team (stB w) x.co.latchB (sameStream w x.co)
  let bad := fun (f : Option (List Byte)) (n : Nat) => (f.map (fun (y : List Byte) => y.length != n)).getD false
  Verdict.all [
    illegalIf (latchBad x.co.latchA (stA w) || latchBad x.co.latchB (stB w)),
    Verdict.waitIf (fa.isNone || fb.isNone),
    Verdict.trapIf (bad fa (4 * b.K * b.wa) || bad fb (4 * b.K * b.wb)) { code := cFragmentSize }]

/-- The next unclaimed fragment of a list claimed. -/
def claimFirst (id : Nat) : List Fragment → List Fragment
  | [] => []
  | f :: t => if f.claim.isNone then { f with claim := some id } :: t else f :: claimFirst id t

/-- One operand bound: the latch, or a new claim. -/
def bindOne (tid st : Nat) (latch : Option Latch) (s : State) : Option Latch × State :=
  match latch with
  | some l => (some l, s)
  | none =>
    match freeFrags s tid st with
    | [] => (none, s)
    | f :: _ =>
      let (id, s1) := s.fresh
      (some { stream := st, claim := id, bytes := f.bytes.getD [], poison := f.poison },
        s1.modStream tid st (fun y => { y with frags := claimFirst id y.frags }))

/-- An MMA bound and queued, with what its binding needs taken from a course and word (R342). -/
def bindMma (w : FWord) (c : Nat) (o : MatOp) (s : State) : State :=
  let co := s.courseD c
  let (fa, s1) := bindOne co.team (stA w) co.latchA s
  let (fb, s2) := bindOne co.team (stB w) co.latchB s1
  let s3 := s2.modCourse c (fun y => { y with
    latchA := if w.fld 12 1 == 1 then fa else none, latchB := if w.fld 13 1 == 1 then fb else none })
  pushMat (coreOf c) { o with fragA := fa, fragB := fb, latA := co.latchA, latB := co.latchB } s3

/-- The injection an MMA into a tile takes with it (R369). -/
def takeInject (c t : Nat) (s : State) : Option Word × State :=
  match (s.courseD c).errinj with
  | some (tile, sel) => if tile = t then (some sel, s.modCourse c (fun co => { co with errinj := none })) else (none, s)
  | none => (none, s)

def mmaEffect (w : FWord) (i : Instr) (x : At) (act : Mask) (s : State) : State :=
  if act = 0#32 then s
  else
    let (g0, g1, b) := mmaBlockAt w x act s
    let (inj, s1) := takeInject x.c (tileOf w) s
    bindMma w x.c
      { owner := ownerOfWord x s, word := wordOf i, act := act, pc := x.sd.pc
        block := BitVec.ofNat 64 g0, scales := BitVec.ofNat 64 g1, descA := b.descA, descB := b.descB
        region := if b.rovr = 0 then x.co.region else b.rovr - 1, inject := inj } s1

def mmaWord (w : FWord) (i : Instr) (s : State) : Out :=
  runWord (sourcedMeaning w.pn w.pred noCheck (mmaRefs w)
    (fun x act t => if act = 0#32 then .go
      else Verdict.all [mmaBlockCheck w x act t, bindCheck w x act t, engineWait x t, matRoom x t])
    (mmaEffect w i)) s

/-- MMA. -/
def execMma (w : FWord) (s : State) : Out := mmaWord w (.mma w) s

/-- MMAZ. -/
def execMmaz (w : FWord) (s : State) : Out := mmaWord w (.mmaz w) s

/-! ### The other queued instructions at issue (R358 to R364, R367) -/

def tileCheck (t : Nat) (wide : Bool) (x : At) (_ : Mask) (s : State) : Verdict := tileRange s x.co.team t wide

/-- ACCZ. -/
def execAccz (w : FWord) (s : State) : Out :=
  let wide := w.fld 6 1 == 1
  matWord w (.accz w) 0 [] (fun _ _ _ => oddPair (tileOf w) wide) (tileCheck (tileOf w) wide) s

/-- Format and bytes of an ACCLD source element. -/
def srcFmt (c : Nat) : Fmt × Nat :=
  match c with
  | 0 => (.f32, 4)
  | 1 => (.f64, 8)
  | 2 => (.f16, 2)
  | _ => (.bf16, 2)

/-- An address of the team's own allocation that is not wholly inside it, or names another member. -/
def ownBad (s : State) (tid a n : Nat) : Bool := bitOf a 25 || lsAtTeam s tid a n == .bad

/-- ACCLD. -/
def execAccld (w : FWord) (s : State) : Out :=
  let wide := w.fld 8 1 == 1
  let addr := fun (x : At) (act : Mask) (t : State) => (numRef w 0 false).at_ x act t
  let n := 32 * (srcFmt (w.fld 6 2)).2
  matWord w (.accld w) 0 [numRef w 0 false] (fun _ _ _ => oddPair (tileOf w) wide)
    (fun x act t => Verdict.all [tileCheck (tileOf w) wide x act t, alignCheck act 16 (addr x act t),
      laneTrap cLclRange (lanesWhere act (fun l => ownBad t x.co.team (addr x act t l) n)) (addr x act t)]) s

def accstDesc (w : FWord) (x : At) (s : State) : DWord := vget (x.ctx s).formats 4#64 (w.fld 6 5)

/-- Scale bytes of one row. -/
def rowScales (d : DWord) : Nat := if fdScaleCode d = 0 then 0 else (32 + fdBlk d - 1) / fdBlk d

/-- ACCST. -/
def execAccst (w : FWord) (s : State) : Out :=
  let wide := w.fld 11 1 == 1
  let a := fun (x : At) (act : Mask) (t : State) => (numRef w 0 false).at_ x act t
  let b := fun (x : At) (act : Mask) (t : State) => (numRef w 1 false).at_ x act t
  let refs := [numRef w 0 false] ++ (if isNone w.sb then [] else [numRef w 1 false])
  matWord w (.accst w) 1 refs
    (fun x _ t => illegalIf ((wide && tileOf w % 2 == 1) || (fdScaleCode (accstDesc w x t) != 0 && isNone w.sb)))
    (fun x act t =>
      let d := accstDesc w x t
      let n := 4 * (fdFmt d).width
      Verdict.all [tileCheck (tileOf w) wide x act t, alignCheck act 16 (a x act t),
        (if w.fld 13 1 == 1 && n % 16 != 0 then laneTrap cAlignment act (a x act t) else .go),
        lsCheck x act t n (a x act t),
        (if rowScales d = 0 then .go else lsCheck x act t (rowScales d) (b x act t))]) s

def accmvDir (w : FWord) : Nat := w.fld 12 2
def accmvWide (w : FWord) : Bool := w.fld 14 1 == 1

/-- The sources of ACCMV. -/
def accmvRefs (w : FWord) : List SrcRef :=
  match accmvDir w with
  | 0 => []
  | 1 => [numRef w 1 false]
  | _ => [numRef w 0 (accmvWide w), numRef w 1 false]

/-- ACCMV. -/
def execAccmv (w : FWord) (s : State) : Out :=
  let wide := accmvWide w
  let t2 := w.fld 6 6
  matWord w (.accmv w) (if accmvDir w = 1 then (if wide then 2 else 1) else 0) (accmvRefs w)
    (fun _ _ _ => illegalIf (wide && (tileOf w % 2 == 1 || (accmvDir w == 0 && t2 % 2 == 1))))
    (fun x act t => Verdict.all [tileCheck (tileOf w) wide x act t,
      (if accmvDir w = 0 then tileCheck t2 wide x act t else .go)]) s

/-- ACCTEST. -/
def execAcctest (w : FWord) (s : State) : Out :=
  matWord w (.acctest w) 1 [] noCheck (tileCheck (tileOf w) false) s

/-- ACCCLR. -/
def execAccclr (w : FWord) (s : State) : Out :=
  let wide := w.fld 11 1 == 1
  matWord w (.accclr w) 0 [] (fun _ _ _ => oddPair (tileOf w) wide) (tileCheck (tileOf w) wide) s

/-- NORMRD. -/
def execNormrd (w : FWord) (s : State) : Out := matWord w (.normrd w) 2 [] noCheck noCheck s

/-! ### Escalation (R356, R357) -/

def Ctx.charged (c : Ctx) : Nat := (Tab.vals c.charges).sum
def Ctx.remaining (c : Ctx) : Nat := c.escBudget.toNat - c.charged
/-- The remaining budget in 4 KiB units, saturating. -/
def Ctx.budgetUnits (c : Ctx) : Nat := min (c.remaining / 4096) (2 ^ 32 - 1)

def setFormat (f : Nat) (d : DWord) (c : Ctx) : Ctx := { c with formats := vset c.formats f d }

/-- The outcome of a request for format register f of a context: escalated, deferred, or neither. -/
inductive EscRes where
  | granted | deferred_
  deriving DecidableEq, Repr

/-- A request whose register has a fallback and is not escalated: granted within the budget, else deferred, and the context
saturated with one record (R356). -/
def escalate (ctx : Nat) (name pc : DWord) (f : Nat) (s : State) : EscRes × State :=
  let c := s.ctx ctx
  let cost := (vget c.escCost 0#64 f).toNat
  if cost ≤ c.remaining then
    (.granted, s.modCtx ctx (fun y =>
      setFormat f (vget y.formats 4#64 f ||| 0x400000000#64) { y with charges := Tab.put y.charges f cost }))
  else
    let s1 := s.modCtx ctx (fun y => { y with deferred := y.deferred ||| laneBit f, saturated := true })
    (.deferred_, if c.saturated then s1
      else s1.post ctx { name := name, pc := pc, code := cEscalationSaturated, cls := cls4 f c.budgetUnits 0 0 })

/-- FMTSET writing ESC = 0: the charge released, the deferred mark cleared (R357). -/
def releaseEsc (f : Nat) (c : Ctx) : Ctx :=
  { c with
    deferred := c.deferred &&& ~~~(laneBit f)
    charges := Tab.del c.charges f
    saturated := if (Tab.find c.charges f).isSome then false else c.saturated }

/-- FMTSET at the context's home (R365): the status and the state after it. -/
def fmtset (x : At) (f : Nat) (d : DWord) (s : State) : Nat × State :=
  let ctx := x.co.ctx
  if !fdValid d then (1, s)
  else if !fdEsc d then (0, s.modCtx ctx (fun c => setFormat f d (releaseEsc f c)))
  else if fdEsc (vget (s.ctx ctx).formats 4#64 f) then
    (0, s.modCtx ctx (fun c => setFormat f d { c with deferred := c.deferred &&& ~~~(laneBit f) }))
  else
    let s1 := s.modCtx ctx (fun c => setFormat f (d &&& ~~~0x400000000#64) { c with deferred := c.deferred &&& ~~~(laneBit f) })
    if !fdFbValid d then (0, s1)
    else match escalate ctx x.co.name x.sd.pc f s1 with
      | (.granted, s2) => (0, s2)
      | (.deferred_, s2) => (2, s2)

/-! ### Words answered by the context's home (R365 to R368) -/

/-- A value answered by the home: the same for every active lane, on its way. -/
def answer (x : At) (act : Mask) (d : BitVec 8) (words : Nat) (v : Nat) (s : State) : State :=
  let (id, s1) := s.fresh
  let a : Arrival := { course := x.c, lanes := act, words := words, vals := vconst 32 v }
  produceLater x act d words id { s1 with arrivals := Tab.put s1.arrivals id a }

/-- A word that acts once at the home, where a check of its own lets it, and pushes what it answers. -/
def homeWordIf (v : At → Mask → State → Verdict) (w : FWord) (words : Nat) (refs : List SrcRef)
    (f : At → Mask → State → Nat × State) (s : State) : Out :=
  runWord (sourcedMeaning w.pn w.pred (fun x act _ => Verdict.waitIf (destPending x act w.d words)) refs v
    (fun x act t =>
      if act = 0#32 then produceLater x act w.d words 0 t
      else answer x act w.d words (f x act t).1 (f x act t).2)) s

/-- A word that acts once at the home and pushes what it answers. -/
def homeWord (w : FWord) (words : Nat) (refs : List SrcRef) (f : At → Mask → State → Nat × State) (s : State) : Out :=
  homeWordIf noCheck w words refs f s

/-- An operation is an ACCST. -/
def MatOp.isAccst (o : MatOp) : Bool :=
  match decodeRaw o.word with
  | .accst _ => true
  | _ => false

/-- A course's escalation request may still be on its way: an ACCST in the queue or to be issued again, or a norm check not
yet performed at the home (R356). -/
def requestsPending (s : State) (c : Nat) (co : Course) : Bool :=
  (s.core (coreOf c)).mq.any (fun o => o.owner.course == c && o.owner.name == co.name && o.isAccst)
    || co.remat.any MatOp.isAccst || (s.dev (s.ctx co.ctx).dev).norms.any (fun n => n.ctx == co.ctx && n.name == co.name)

/-- FMTSET. One that writes ESC = 1 makes a request, after those of the course's older ACCSTs (R356). -/
def execFmtset (w : FWord) (s : State) : Out :=
  let v := fun (x : At) (act : Mask) (t : State) => BitVec.ofNat 64 ((numRef w 0 true).low x act t)
  homeWordIf (fun x act t => Verdict.waitIf (act != 0#32 && fdEsc (v x act t) && requestsPending t x.c x.co))
    w 1 [numRef w 0 true] (fun x act t => fmtset x (w.fld 0 5) (v x act t) t) s

/-- What FMTGET answers (R366). -/
def fmtget (w : FWord) (c : Ctx) : Nat :=
  let f := w.fld 0 5
  let d := vget c.formats 4#64 f
  if w.fld 5 1 == 1 then
    (if fdEsc d then 1 else if c.deferred.getLsbD f then 2 else 0) + 2 ^ 32 * c.budgetUnits
  else d.toNat

/-- FMTGET. -/
def execFmtget (w : FWord) (s : State) : Out := homeWord w 2 [] (fun x _ t => (fmtget w (x.ctx t), t)) s

/-- A bound register from BNDSET's words, none where they are refused (R367). -/
def boundOf (w0 w1 : Nat) (keep : Bool) (old : BoundReg) : Option BoundReg :=
  let lo := decodeF .f32 (bitsOf w0 0 32)
  let hi := decodeF .f32 (bitsOf w0 32 32)
  if (!lo.isNan && !hi.isNan && 0 < lo.cmp hi) || bitsOf w1 0 2 == 3 || bitsOf w1 2 6 != 0 || bitsOf w1 16 16 != 0 then none
  else some { old with
    lo := BitVec.ofNat 32 w0, hi := BitVec.ofNat 32 (w0 / 2 ^ 32), nref := if keep then old.nref else BitVec.ofNat 32 (w1 / 2 ^ 32)
    factor := BitVec.ofNat 8 (bitsOf w1 8 8), action := BitVec.ofNat 2 (bitsOf w1 0 2) }

def bndset (w : FWord) (x : At) (w0 w1 : Nat) (s : State) : Nat × State :=
  let b := w.fld 0 6
  match boundOf w0 w1 (w.fld 6 1 == 1) (vget (x.ctx s).bounds {} b) with
  | none => (1, s)
  | some r => (0, s.modCtx x.co.ctx (fun c => { c with bounds := vset c.bounds b r }))

/-- BNDSET. -/
def execBndset (w : FWord) (s : State) : Out :=
  homeWord w 1 [numRef w 0 true, numRef w 1 true]
    (fun x act t => bndset w x ((numRef w 0 true).low x act t) ((numRef w 1 true).low x act t) t) s

/-- REGION. -/
def execRegion (w : FWord) (s : State) : Out :=
  plainWord w.pn w.pred noCheck
    (fun x act t => if act = 0#32 then t else t.modCourse x.c (fun co => { co.cleanSreg 4 with region := w.fld 0 2 })) s

/-- ERRINJ (R369). -/
def execErrinj (w : FWord) (s : State) : Out :=
  let sel := fun (x : At) (act : Mask) (t : State) => (numRef w 0 false).low x act t
  runWord (sourcedMeaning w.pn w.pred
    (fun x _ t => Verdict.trapIf (!(x.ctx t).priv) { code := cPrivileged }) [numRef w 0 false]
    (fun x act t => if act = 0#32 then .go
      else (illegalIf (bitsOf (sel x act t) 16 16 != 0)).and_ (tileRange t x.co.team (tileOf w) false))
    (fun x act t => if act = 0#32 then t
      else t.modCourse x.c (fun co => { co with errinj := some (tileOf w, BitVec.ofNat 32 (sel x act t)) }))) s

/-! ### Completing an operation -/

/-- An operation's results on their way to the entries that await them. -/
def giveResult (o : MatOp) (words : Nat) (vals : Nat → Nat) (s : State) : State :=
  match o.result, ownerCourse s o.owner with
  | some id, some _ =>
    let a : Arrival := { course := o.owner.course, lanes := o.act, words := words, vals := vof 32 vals }
    { s with arrivals := Tab.put s.arrivals id a }
  | _, _ => s

/-- The head of the matrix queue done. -/
def popMat (core : Nat) (o : MatOp) (s : State) : State :=
  let s1 := releaseFrags o.owner.team (s.modCore core (fun k => { k with mq := k.mq.drop 1 }))
  reapTeam o.owner.team (fencesOf core (engineEnd core o.owner.launch s1))

/-- The head of the matrix queue changed. -/
def setMat (core : Nat) (o : MatOp) (s : State) : State := s.modCore core (fun k => { k with mq := o :: k.mq.drop 1 })

/-- An operation that stops its course (R347): the record, and the operation with every later one of the course to be
issued again. -/
def failMat (core : Nat) (o : MatOp) (code cls : Nat) (s : State) : State :=
  let bound := (ownerCourse s o.owner).isSome
  let s1 := s.post o.owner.ctx { name := o.owner.name, pc := o.pc, code := code, stop := bound, replay := bound
                                 skid := min 256 o.skid, cls := cls }
  if bound then fencesOf core ((setMat core { o with started := false } s1).stopCourse o.owner.course)
  else popMat core o s1

/-! ### MATRIX_OP_START (R339, R342, R354, R361) -/

def MatOp.tile (o : MatOp) : Nat := bitsOf o.word.toNat 0 6

def MatOp.mmaBlock (o : MatOp) : MmaBlock := Machine.mmaBlock o.block.toNat o.scales.toNat o.descA o.descB

/-- An MMA's start: a poisoned fragment stops the course (R447); the scale bytes are read. -/
def startMma (core : Nat) (o : MatOp) (s : State) : State :=
  match (o.fragA.bind Latch.poison).or (o.fragB.bind Latch.poison) with
  | some off => failMat core o cMemPoison off s
  | none =>
    let b := o.mmaBlock
    let rd := fun (a n : Nat) => lsRead s o.owner.team (bitsOf a 0 19) n
    firePreempt o.owner (setMat core { o with
      started := true, attempts := 0, vcode := (s.core core).vcode, got := [(0, rd b.sca (scaleBytes b.K b.blkA)), (1, rd b.scb (scaleBytes b.K b.blkB))] } s)

/-- A value outside its bound, and what a clamp stores (R354). -/
def boundSide (b : BoundReg) (x : XV) : Option XV :=
  let lo := decodeF .f32 b.lo.toNat
  let hi := decodeF .f32 b.hi.toNat
  if x.isNan || (!lo.isNan && x.cmp lo < 0) then some lo
  else if !hi.isNan && 0 < x.cmp hi then some hi
  else none

/-- The sum of squares of R355. -/
def normSum (l : List XV) : Word :=
  if l.any (fun x => x.isNan || x.isInf) then 0x7F800000#32
  else BitVec.ofNat 32 (roundTo (XV.ofQ false (Q.sum (l.map (fun x => x.toQ.mul x.toQ)))) .f32 0 false 0).1

/-- The code of an element of a scaled format, as QPACK encodes it (R321). -/
def scaledCode (d : DWord) (sat : Bool) (sb : Nat) (x : XV) : Nat :=
  let f := fdFmt d
  match scaleValue (fdScale d) sb with
  | none => (roundTo .qnan f 0 sat 0).1
  | some q =>
    if q.isZero then 0
    else (roundTo (match x with
      | .fin y => .fin (y.div q)
      | y => y) f 0 sat 0).1

/-- A row as ACCST stores it: its bytes and its scale bytes (R361). -/
def storeRow (d : DWord) (sat : Bool) (row : List XV) : List Byte × List Byte :=
  let f := fdFmt d
  let w := f.width
  if fdScaleCode d = 0 then (toBytes (4 * w) (joinElems w (row.map (fun x => (roundTo x f 0 sat 0).1))), [])
  else
    let blk := fdBlk d
    let blocks := (List.range (rowScales d)).map (fun i => (row.drop (blk * i)).take blk)
    let sbs := blocks.map (fun l => (blockScale d l).1)
    (toBytes (4 * w) (joinElems w ((List.zipWith (fun sb l => l.map (scaledCode d sat sb)) sbs blocks).flatten)),
      sbs.map (BitVec.ofNat 8))

/-- The bytes of a row under the keys of MatOp.got: whole, or by granule under WAITFE; scale bytes from 512 on. -/
def storePieces (fe : Bool) (l : Nat) (r : List Byte × List Byte) : Tab (List Byte) :=
  (if fe then (List.range (r.1.length / 16)).map (fun i => (1024 * l + 16 * i, (r.1.drop (16 * i)).take 16)) else [(1024 * l, r.1)])
    ++ (if r.2.isEmpty then [] else [(1024 * l + 512, r.2)])

/-- The rows an ACCST stores, by lane. -/
def accstRows (k : Core) (t : Nat) (wide : Bool) (act : Mask) : List (Nat × List Nat) :=
  (lanesOf act).map (fun i => (i, (List.range 32).map (fun j => elemCode k t wide i j)))

/-- ACCST's start: bound check, norm sum, conversion (R354, R355, R361). -/
def startAccst (core : Nat) (o : MatOp) (w : FWord) (s : State) : State :=
  let wide := w.fld 11 1 == 1
  let acc := accFmt wide
  let d := o.descA
  let t := tileIdx s o.owner.team o.tile
  let rows := accstRows (s.core core) t wide o.act
  let b := fdBound d
  let br := vget (s.ctx o.owner.ctx).bounds {} b
  let side := fun (c : Nat) => if fdBvalid d then boundSide br (decodeF acc c) else none
  let oob := fun (i j : Nat) => o.act.getLsbD i && (side (elemCode (s.core core) t wide i j)).isSome
  let n := (rows.map (fun r => (r.2.filter (fun c => (side c).isSome)).length)).sum
  let s1 := if n = 0 then s else (s.modCore core (fun k => k.modTile t (fun y => y.mapFlags (fun i j f => if oob i j then f ||| fOob else f)))).count
    o.owner.ctx 64 n
  let first := (rows.flatMap (fun r => ((List.range 32).zip r.2).map (fun e => (r.1, e.1, e.2)))).find? (fun e => (side e.2.2).isSome)
  match first with
  | some (i, j, c) =>
    if br.action = 2#2 then
      failMat core { o with result := none } cBoundViolation (i + 32 * j + 1024 * b + 2 ^ 32 * c) (giveResult o 1 (fun _ => 2) s1)
    else accstGo core o w s1 rows br.action acc side b br
  | none => accstGo core o w s1 rows 0#2 acc side b br
where
  /-- The rows as they are stored, and the norm check they make. -/
  accstGo (core : Nat) (o : MatOp) (w : FWord) (s : State) (rows : List (Nat × List Nat)) (action : BitVec 2) (acc : Fmt)
      (side : Nat → Option XV) (b : Nat) (br : BoundReg) : State :=
    let d := o.descA
    let val := fun (c : Nat) => if action = 1#2 then (side c).getD (decodeF acc c) else decodeF acc c
    let vals := rows.map (fun r => (r.1, r.2.map val))
    let stat := vof 32 (fun l => if action = 1#2 && ((rows.find? (fun r => r.1 == l)).map (fun r => r.2.any (fun c => (side c).isSome))).getD false then 1 else 0)
    let pieces := vals.flatMap (fun r => storePieces (w.fld 13 1 == 1) r.1 (storeRow d (w.fld 12 1 == 1) r.2))
    let s1 := if fdBvalid d && br.factor != 0#8 then
        s.modDev (s.ctx o.owner.ctx).dev (fun y => { y with norms := y.norms ++
          [{ ctx := o.owner.ctx, core := core, name := o.owner.name, pc := o.pc, freg := w.fld 6 5, breg := b
             sum := normSum (vals.flatMap Prod.snd) }] })
      else s
    setMat core { o with started := true, got := pieces, status := stat } s1

/-- The operation at the head begins. -/
def startMat (core : Nat) (o : MatOp) (s : State) : State :=
  match decodeRaw o.word with
  | .mma _ | .mmaz _ => startMma core o s
  | .accst w => startAccst core o w s
  | _ => setMat core { o with started := true } s

/-- MATRIX_OP_START: fences that can pass have passed, then the operation at the head begins. -/
def execMatrixOpStart (core : Nat) (s : State) : Out :=
  let s1 := fencesOf core s
  match (s1.core core).mq with
  | [] => .next s1
  | o :: _ => if o.fence.isSome || o.started then .next s1 else .next (startMat core o s1)

/-! ### MMA_ATTEMPT_COMPLETE (R346, R347) -/

/-- The elements of the MMA at the head. -/
def MatOp.elems (o : MatOp) (k : Core) (t : Nat) : List (List MmaElem) :=
  let b := o.mmaBlock
  let fr := fun (l : Option Latch) => (l.map Latch.bytes).getD []
  let sc := fun i => (Tab.find o.got i).getD []
  let zero := o.word.extractLsb' 54 9 == 0x141#9
  mmaElems (accFmt b.wide) b.win zero o.act (tileCodes k t b.wide)
    (operandRows b.descA b.wa b.K b.blkA (fr o.fragA) (sc 0)) (operandRows b.descB b.wb b.K b.blkB (fr o.fragB) (sc 1))

/-- The armed flip of attempt 0, where its bit lies in the element. -/
def MatOp.flip (o : MatOp) : List (Nat × Nat × Nat) :=
  match o.inject with
  | some sel =>
    let v := sel.toNat
    if o.attempts = 0 && bitsOf v 10 6 < (if o.mmaBlock.wide then 64 else 32) then [(bitsOf v 0 5, bitsOf v 5 5, bitsOf v 10 6)] else []
  | none => []

/-- Flags of an accepted MMA: cleared first by MMAZ, then LS, BADSC and COR. -/
def mmaFlags (o : MatOp) (el : List (List MmaElem)) (cor : Option (Nat × Nat)) (i j : Nat) (f : BitVec 4) : BitVec 4 :=
  let e := (el[i]?).bind (fun r => r[j]?)
  let f0 := if o.act.getLsbD i && o.word.extractLsb' 54 9 == 0x141#9 then 0#4 else f
  let f1 := if ((e.map MmaElem.ls).getD false) then f0 ||| fLs else f0
  let f2 := if ((e.map MmaElem.bad).getD false) then f1 ||| fBadsc else f1
  if cor = some (i, j) then f2 ||| fCor else f2

/-- A tolerant mismatch recorded in the status word: TMIS, and MCNT saturating. -/
def tolerate (t : Tile) : Tile :=
  let n := min (t.status.toNat % 2 ^ 16 + 1) 0xFFFF
  { t with status := BitVec.ofNat 32 (2 ^ 16 + n) }

/-- An accepted MMA: the tile, its flags and the counts (R346, R371, R372). -/
def acceptMma (core : Nat) (o : MatOp) (el : List (List MmaElem)) (st : List (List Nat)) (cor : Option (Nat × Nat)) (tol : Bool)
    (s : State) : State :=
  let b := o.mmaBlock
  let t := tileIdx s o.owner.team o.tile
  let ctx := o.owner.ctx
  let macs := 1024 * b.K
  let injected := (o.flip.head?.map (fun f => (f.1, f.2.1))) == cor && cor.isSome
  let s1 := s.modCore core (fun k =>
    let k1 := putElems t b.wide (fun i j => some (getElem st i j)) (mmaFlags o el cor) k
    let k2 := if tol then k1.modTile t tolerate else k1
    { k2 with
      perMacs := k2.perMacs + macs
      railCor := if cor.isSome then k2.railCor + 1#32 else k2.railCor
      perCor := if cor.isSome && !injected then k2.perCor + 1 else k2.perCor })
  let ls := ((el.flatMap id).filter MmaElem.ls).length
  let s2 := ((s1.count ctx 16 macs).count ctx (128 + 8 * o.vcode) 1).count ctx 56 ls
  let s3 := if tol then s2.count ctx 120 1 else s2
  let s4 := if cor.isSome && !injected then s3.count ctx 24 1 else s3
  let s5 := match cor, ownerCourse s4 o.owner with
    | some _, some _ => s4.modCourse o.owner.course (fun co => { co with corcnt := co.corcnt + 1#32 })
    | _, _ => s4
  popMat core o s5

/-- A re-issue: the counts, the rail 10 mV up from where this MMA runs, the next attempt (R346, R351, R352). -/
def retryMma (core : Nat) (o : MatOp) (s : State) : State :=
  let s1 := (setMat core { o with attempts := o.attempts + 1, vcode := min 34 (o.vcode + 2) } s).modCore core (fun k => { k with
    railReis := k.railReis + 1#32, vcode := min 34 (k.vcode + 2) })
  let s2 := s1.count o.owner.ctx 40 1
  match ownerCourse s2 o.owner with
  | some _ => s2.modCourse o.owner.course (fun co => { co with reiscnt := co.reiscnt + 1#32 })
  | none => s2

/-- R448: four uncorrectable errors of a core within 2^30 engine cycles hold its rail at 0.75 V. -/
def noteUe (core : Nat) (s : State) : State :=
  let now := (s.die (core / 64)).clock
  let l := now :: (s.core core).ueTimes.filter (fun t => now < t + 2 ^ 30)
  if 4 ≤ l.length then
    (s.modCore core (fun k => { k with ueTimes := [], vtarget := 0, vcode := 34 })).postMlog (devOfDie s.mode (core / 64))
      { code := cMatrixRailPinned, cls := core }
  else s.modCore core (fun k => { k with ueTimes := l })

/-- MATRIX_UNCORRECTABLE (R347). -/
def failMma (core : Nat) (o : MatOp) (rows cols : Mask) (s : State) : State :=
  noteUe core (failMat core o cMatrixUncorrectable
    (cls4 (o.tile + 64 * o.region) rows.toNat cols.toNat o.vcode) s)

/-- One attempt of the MMA at the head; errs are the bits its overscaled path got wrong. -/
def attemptMma (core : Nat) (o : MatOp) (errs : List (Nat × Nat × Nat)) (s : State) : State :=
  let b := o.mmaBlock
  let t := tileIdx s o.owner.team o.tile
  let el := o.elems (s.core core) t
  let ref := el.map (fun r => r.map MmaElem.ref)
  let stored := applyFlips (if b.wide then 64 else 32) ref (errs ++ o.flip)
  let s1 := if o.flip.isEmpty then s else s.count o.owner.ctx 32 1
  let res := guardAttempt (accFmt b.wide) o.region el (tileCodes (s.core core) t b.wide) stored
  match if o.attempts < 2 then res else lastAttempt o.region stored res with
  | .accept st => acceptMma core o el st none false s1
  | .corrected st i j => acceptMma core o el st (some (i, j)) false s1
  | .tolerated st => acceptMma core o el st none true s1
  | .retry rows cols => if o.attempts < 2 then retryMma core o s1 else failMma core o rows cols s1

/-- MMA_ATTEMPT_COMPLETE. -/
def execMmaAttemptComplete (core : Nat) (errs : List (Nat × Nat × Nat)) (s : State) : Out :=
  match (s.core core).mq with
  | [] => .next s
  | o :: _ => if o.started && o.isMma then .next (attemptMma core o errs s) else .next s

/-! ### MATRIX_OP_COMPLETE (R340, R359 to R364, R367) -/

/-- The granules of an ACCLD row that can be read now, added to those already read. -/
def gatherRow (s : State) (tid addr n l : Nat) (got : Tab (List Byte)) : Tab (List Byte) :=
  (List.range (n / 16)).foldl (fun t i =>
    let a := bitsOf addr 0 19 + 16 * i
    if (Tab.find t (1024 * l + 16 * i)).isNone && lsFull s tid (a / 16) then Tab.put t (1024 * l + 16 * i) (lsRead s tid a 16) else t) got

/-- The bytes of every active row of an ACCLD that has read them all. -/
def accldBytes (o : MatOp) (w : FWord) (n : Nat) (s : State) : Tab (List Byte) × Bool :=
  if w.fld 9 1 == 1 then
    let got := (lanesOf o.act).foldl (fun t l => gatherRow s o.owner.team (vget o.opa 0 l) n l t) o.got
    (got, got.length == (lanesOf o.act).length * (n / 16))
  else ((lanesOf o.act).map (fun l => (1024 * l, lsRead s o.owner.team (bitsOf (vget o.opa 0 l) 0 19) n)), true)

/-- The first poisoned granule of an ACCLD's rows (R447). -/
def accldPoison (o : MatOp) (n : Nat) (s : State) : Option Nat :=
  (lanesOf o.act).findSome? (fun l => poisonedAt s o.owner.team (bitsOf (vget o.opa 0 l) 0 19) n)

/-- The bytes of one lane's row, from its pieces. -/
def laneBytes (got : Tab (List Byte)) (l : Nat) : List Byte :=
  ((got.filter (fun e => e.1 / 1024 == l)).map Prod.snd).flatten

/-- ACCLD: rows converted exactly, their flags cleared. -/
def completeAccld (core : Nat) (o : MatOp) (w : FWord) (s : State) : State :=
  let wide := w.fld 8 1 == 1
  let (f, nb) := srcFmt (w.fld 6 2)
  let n := 32 * nb
  match accldBytes o w n s with
  | (got, false) => setMat core { o with got := got } s
  | (got, true) =>
    match accldPoison o n s with
    | some off => failMat core o cMemPoison off s
    | none =>
      let row := fun (i : Nat) => ofBytes (laneBytes got i)
      popMat core o (s.modCore core (putRows (tileIdx s o.owner.team o.tile) wide o.act
        (fun i j => (roundOnce (decodeF f (bitsOf (row i) (8 * nb * j) (8 * nb))) (accFmt wide)).1)))

/-- One piece of an ACCST written, where its granule lets it. -/
def storePiece (o : MatOp) (fe : Bool) (acc : State × Tab (List Byte)) (e : Nat × List Byte) : State × Tab (List Byte) :=
  let l := e.1 / 1024
  let off := e.1 % 1024
  let addr := if off < 512 then vget o.opa 0 l + off else vget o.opb 0 l + (off - 512)
  match lsAtTeam acc.1 o.owner.team addr e.2.length with
  | .ok t a =>
    if fe && off < 512 then
      if lsFull acc.1 t (a / 16) then (acc.1, acc.2 ++ [e])
      else (lsSetFull t (a / 16) true (lsWrite t a e.2 acc.1), acc.2)
    else (lsWrite t a e.2 acc.1, acc.2)
  | _ => acc

def completeAccst (core : Nat) (o : MatOp) (w : FWord) (s : State) : State :=
  let r := o.got.foldl (storePiece o (w.fld 13 1 == 1)) (s, [])
  if r.2.isEmpty then popMat core o (giveResult o 1 (fun l => vget o.status 0 l) r.1)
  else setMat core { o with got := r.2 } r.1

/-- ACCMV. -/
def completeAccmv (core : Nat) (o : MatOp) (w : FWord) (s : State) : State :=
  let wide := accmvWide w
  let k := s.core core
  let t := tileIdx s o.owner.team o.tile
  let col := fun (l : Nat) => vget o.opb 0 l % 32
  match accmvDir w with
  | 0 =>
    let t2 := tileIdx s o.owner.team (w.fld 6 6)
    popMat core o (s.modCore core (putElems t2 wide
      (fun i j => if o.act.getLsbD i then some (elemCode k t wide i j) else none)
      (fun i j f => if o.act.getLsbD i then elemFlags k t i j else f)))
  | 1 => popMat core o (giveResult o (if wide then 2 else 1) (fun l => elemCode k t wide l (col l)) s)
  | _ =>
    popMat core o (s.modCore core (putElems t wide
      (fun i j => if o.act.getLsbD i && col i == j then some (vget o.opa 0 i) else none)
      (fun i j f => if o.act.getLsbD i && col i == j then 0#4 else f)))

/-- What ACCTEST answers in a lane (R363). -/
def acctestValue (k : Core) (t : Nat) (w : FWord) (l : Nat) : Nat :=
  let sel := BitVec.ofNat 4 (w.fld 6 4)
  let hit := fun (i j : Nat) => (elemFlags k t i j &&& sel) != 0#4
  match w.fld 10 2 with
  | 0 => (maskOf (fun r => (List.range 32).any (hit r))).toNat
  | 1 => ((List.range 32).filter (hit l)).length
  | 2 => (maskOf (hit l)).toNat
  | _ => (tileAt k t).status.toNat % 2 ^ 17

/-- ACCCLR. -/
def accclr (o : MatOp) (w : FWord) (t : Nat) (k : Core) : Core :=
  let sel := BitVec.ofNat 4 (w.fld 6 4)
  let f := fun (y : Tile) => y.mapFlags (fun i _ g => if o.act.getLsbD i then g &&& ~~~sel else g)
  let k1 := k.modTile t (fun y => if w.fld 10 1 == 1 then { f y with status := 0#32 } else f y)
  if w.fld 11 1 == 1 then k1.modTile (t + 1) f else k1

/-- A norm check of the core has not reached its context's home: NORMRD reflects every earlier ACCST (R367). -/
def normsPending (s : State) (core : Nat) (o : MatOp) : Bool :=
  (s.dev (s.ctx o.owner.ctx).dev).norms.any (fun n => n.core == core && n.ctx == o.owner.ctx)

/-- The operation at the head completes, or takes in what it waits for. -/
def completeMat (core : Nat) (o : MatOp) (s : State) : State :=
  let t := tileIdx s o.owner.team o.tile
  match decodeRaw o.word with
  | .accz w => popMat core o (s.modCore core (putRows t (w.fld 6 1 == 1) o.act (fun _ _ => 0)))
  | .accld w => completeAccld core o w s
  | .accst w => completeAccst core o w s
  | .accmv w => completeAccmv core o w s
  | .acctest w => popMat core o (giveResult o 1 (acctestValue (s.core core) t w) s)
  | .accclr w => popMat core o (s.modCore core (accclr o w t))
  | .normrd w =>
    if normsPending s core o then s
    else
      let b := vget (s.ctx o.owner.ctx).bounds {} (w.fld 0 6)
      popMat core o (giveResult o 2 (fun _ => b.nref.toNat + 2 ^ 32 * b.lastN.toNat) s)
  | _ => s

/-- MATRIX_OP_COMPLETE. -/
def execMatrixOpComplete (core : Nat) (s : State) : Out :=
  match (s.core core).mq with
  | [] => .next s
  | o :: _ => if o.started && !o.isMma then .next (completeMat core o s) else .next s

/-! ### RAIL_EVALUATE (R351) and NORM_MONITOR_CHECK (R355, R356) -/

/-- The step of R351. -/
def railStep (k : Core) : Nat :=
  if k.vtarget = 0 then 34
  else if k.hold || k.perMacs < 2 ^ 30 then k.vcode
  else if k.perCor * 2 ^ 31 < k.vtarget * k.perMacs then k.vcode - 1
  else if k.vtarget * k.perMacs < k.perCor * 2 ^ 29 then min 34 (k.vcode + 1)
  else k.vcode

/-- RAIL_EVALUATE: every 2^24 engine cycles. An MMA that runs keeps the code it started at. -/
def execRailEvaluate (core : Nat) (s : State) : Out :=
  if (s.die (core / 64)).clock < (s.core core).railAt + 2 ^ 24 then .next s
  else .next (s.modCore core (fun k => { k with vcode := railStep k, perCor := 0, perMacs := 0, railAt := k.railAt + 2 ^ 24 }))

/-- NORM_JUMP (R356). -/
def normJump (n : NormCheck) (nref : Word) (outcome : Nat) (s : State) : State :=
  s.post n.ctx { name := n.name, pc := n.pc, code := cNormJump, cls := cls4 (n.freg + 2 ^ 8 * n.breg) n.sum.toNat nref.toNat outcome }

/-- A jump requests escalation of its format register. -/
def normRequest (n : NormCheck) (nref : Word) (s : State) : State :=
  let d := vget (s.ctx n.ctx).formats 4#64 n.freg
  if !fdFbValid d then normJump n nref 2 s
  else if fdEsc d then normJump n nref 3 s
  else match escalate n.ctx n.name n.pc n.freg s with
    | (.granted, s1) => normJump n nref 0 s1
    | (.deferred_, s1) => s1

/-- NREF + (s - NREF) / 8, rounded once. -/
def nextNref (nref sum : XV) : Word :=
  let v := XV.add false nref ((XV.add false sum nref.neg).mul (.fin ⟨1, 8⟩))
  BitVec.ofNat 32 (roundTo v .f32 0 false 0).1

/-- One norm check at its context's home; a FACTOR of 0 there turns the monitor off (R355). -/
def normCheck (n : NormCheck) (s : State) : State :=
  let b := vget (s.ctx n.ctx).bounds {} n.breg
  let nref := decodeF .f32 b.nref.toNat
  let sum := decodeF .f32 n.sum.toNat
  let put := fun (r : Word) (t : State) => t.modCtx n.ctx (fun c => { c with
    bounds := vset c.bounds n.breg { vget c.bounds {} n.breg with nref := r, lastN := n.sum } })
  if b.factor = 0#8 then s
  else if nref.isZero then put n.sum s
  else if !nref.isNan && 0 < sum.cmp (nref.mul (.fin (Q.ofInt b.factor.toNat))) then normRequest n b.nref (put b.nref s)
  else put (nextNref nref sum) s

/-- NORM_MONITOR_CHECK: the check that arrived first at the home of the device State.bank names. -/
def execNormMonitorCheck (s : State) : Out :=
  match (s.dev s.bank).norms with
  | [] => .next s
  | n :: t => .next (normCheck n (s.modDev s.bank (fun d => { d with norms := t })))

/-! ### Matrix operations issued again (R348, R390) -/

/-- The operation of a course that is to be issued again first, queued now where the queue has room and its fragments are
there; none where it must wait. -/
def reissueFirst (c : Nat) (s : State) : Option State :=
  let co := s.courseD c
  match co.remat with
  | [] => none
  | o :: t =>
    let q := (s.core (coreOf c)).mq.filter (fun y => y.fence.isNone)
    if 64 ≤ q.length then none
    else
      let ow : Owner := { course := c, name := co.name, ctx := co.ctx, team := co.team, launch := o.owner.launch }
      let o1 := { o with owner := ow }
      let s1 := s.modCourse c (fun y => { y with remat := t })
      match decodeRaw o.word with
      | .mma w | .mmaz w =>
        if (boundBytes s co.team (stA w) co.latchA false).isNone || (boundBytes s co.team (stB w) co.latchB (sameStream w co)).isNone then none
        else some (bindMma w c o1 s1)
      | _ => some (pushMat (coreOf c) o1 s1)

/-! ### What is due -/

/-- MATRIX_OP_COMPLETE would change something. -/
def matDue (s : State) (core : Nat) (o : MatOp) : Bool :=
  match decodeRaw o.word with
  | .normrd _ => !(normsPending s core o)
  | .accld w =>
    let r := accldBytes o w (32 * (srcFmt (w.fld 6 2)).2) s
    r.2 || r.1.length != o.got.length
  | .accst w => o.got.isEmpty || (o.got.foldl (storePiece o (w.fld 13 1 == 1)) (s, [])).2.length != o.got.length
  | _ => true

end Sys2Proof.Machine
end

