-- ==== Sys2Proof/Machine/Pod.lean ====
section
/-! DEFINITION. Course names (R241 to R243, R437), remote register stores from their issue to their delivery (R246 to R248,
R469), and NAMEQ (R249). -/

namespace Sys2Proof.Machine

/-! ### Devices and names -/

/-- The fields of a name (R241). -/
def namePod (n : DWord) : Nat := bitsOf n.toNat 52 12
def nameIncarn (n : DWord) : Nat := bitsOf n.toNat 44 8
def nameDie (n : DWord) : Nat := bitsOf n.toNat 41 3
def nameCore (n : DWord) : Nat := bitsOf n.toNat 35 6

/-- A value that names no course whatever is bound (R241). -/
def nameVoid (n : DWord) : Bool := bitsOf n.toNat 0 16 != 0 || 3 < nameDie n

/-- The core a name was bound at, as the senders number their RSTVs to it (R248). -/
def nameHome (n : DWord) : Nat := 512 * namePod n + 64 * nameDie n + nameCore n

/-- Where the course of a name is. -/
inductive NameAt where
  | bound (c : Nat)
  | saved (key : Nat)
  /-- a panel member that has not started, with its context -/
  | waiting (ctx : Nat)
  deriving DecidableEq, Repr

/-- A slot is set to BIND for the course of a name, which it has not bound yet. -/
def binding (s : State) (n : DWord) : Bool :=
  s.slots.any (fun e => e.2.state == .bind && e.1 == 2048 * nameDie n + 32 * nameCore n + bitsOf n.toNat 30 5
    && e.2.rec_.gen % 2 ^ 14 == bitsOf n.toNat 16 14)

/-- The member of a panel whose courses hold a name has not started, or its course is still to be bound (R24). -/
def Panel.waits (p : Panel) (s : State) (n : DWord) : Bool :=
  p.names.any (fun e => e.2 == n && match Tab.find p.members (e.1 / 16) with
    | none => true
    | some t => ((s.team t).map (fun m => !m.started)).getD false || binding s n)

/-- The panel that holds a name of an unstarted member. -/
def waitingPanel (s : State) (n : DWord) : Option (Nat × Panel) := s.panels.find? (fun e => e.2.waits s n)

def nameAt (s : State) (n : DWord) : Option NameAt :=
  if nameVoid n then none
  else match s.courses.find? (fun e => e.2.name == n) with
  | some e => some (.bound e.1)
  | none => match s.saved.find? (fun e => e.2.course.name == n) with
    | some e => some (.saved e.1)
    | none => (waitingPanel s n).bind (fun e => (Tab.find s.launches e.2.launch).map (fun l => .waiting l.ctx))

/-- The context of a course found by its name. -/
def NameAt.ctx (a : NameAt) (s : State) : Nat :=
  match a with
  | .bound c => (s.courseD c).ctx
  | .saved k => ((Tab.find s.saved k).map (fun v => v.course.ctx)).getD 0
  | .waiting ctx => ctx

/-- A name domain holds a sender's stamp (R243, R437). -/
def inDomain (s : State) (pod asid : Nat) (groups : List Nat) (ctx : Nat) : Bool :=
  let cx := s.ctx ctx
  (pod == podOf s cx.dev && asid == cx.asid) || groups.any (fun g => g != 0 && cx.groups.contains g)

/-- A device as another knows it is fenced (R240). -/
def peerFenced (s : State) (dev pod : Nat) : Bool := (Tab.getD (s.dev dev).peers {} pod).fenced

/-- A name of another package bears an incarnation that its device no longer has (R239). -/
def nameOld (s : State) (dev : Nat) (n : DWord) : Bool :=
  match Tab.find (s.dev dev).peers (namePod n) with
  | some p => nameIncarn n != p.incarn.toNat
  | none => false

/-- A word names a course of an unstarted member of its own panel (R24). -/
def waitsForMember (x : At) (s : State) (n : DWord) : Bool :=
  match waitingPanel s n with
  | some e => (s.team x.co.team).bind Team.panel == some e.1
  | none => false

/-! ### Sending (R246, R248) -/

def laneWords (f : Nat → Nat) : Lanes Word := vof 32 (fun l => BitVec.ofNat 32 (f l))

/-- The message of an RSTV to another package (R228). -/
def Rstv.message (r : Rstv) : RstvMessage :=
  { sender := r.owner.name, core := r.from_ % 512, asid := r.asid, groups := r.groups, seq := r.seq, target := r.target
    reg := BitVec.ofNat 6 r.reg, data := vlist r.data }

/-- An RSTV to another package leaves by a port. -/
def sendStore (r : Rstv) (s : State) : State :=
  if (s.devOfPod (namePod r.target)).isSome then s
  else sendFlit (s.ctx r.owner.ctx).dev (namePod r.target) (.rstv r.message) s

/-- An RSTV put on its way, numbered in the sequence of its core to the core that the name carries. -/
def sendRstv (o : Owner) (core : Nat) (target : DWord) (reg : Nat) (data : Lanes Word) (notice : Bool) (s : State) : State :=
  let cx := s.ctx o.ctx
  let key := nameHome target
  let seq := Tab.getD (s.core core).seqTo 0 key
  let (id, s1) := s.fresh
  let r : Rstv :=
    { owner := o, core := some core, from_ := 512 * podOf s cx.dev + core, asid := cx.asid, groups := cx.groups, target := target
      reg := reg, data := data, seq := seq, notice := notice, since := s.aon }
  let s2 := s1.modCore core (fun k => { k with seqTo := Tab.put k.seqTo key (seq + 1) })
  sendStore r { s2 with rstvs := Tab.put s2.rstvs id r }

/-- An owner's course changed, bound or saved. -/
def modOwner (o : Owner) (f : Course → Course) (s : State) : State :=
  match ownerCourse s o with
  | some _ => s.modCourse o.course f
  | none => { s with saved := s.saved.map (fun e =>
      if e.2.course.name == o.name then (e.1, { e.2 with course := f e.2.course }) else e) }

/-- The smallest scope that holds a course and the receiver of an RSTV of it (R137, R246): by the core that the receiver is bound
to or has left, and, for a name that denotes no course, the core it carries. -/
def rstvScope (x : At) (s : State) (n : DWord) : Nat :=
  if (s.devOfPod (namePod n)).isNone then 5
  else coreScope s.mode (coreOf x.c) (match nameAt s n with
    | some (.bound c) => coreOf c
    | some (.saved k) => ((Tab.find s.saved k).map Saved.left).getD 0
    | _ => nameHome n % 512)

/-- RSTV (R246): a release, then the store on its way. -/
def execRstv (w : FWord) (s : State) : Out :=
  let name := fun (x : At) (act : Mask) (t : State) => BitVec.ofNat 64 ((numRef w 0 true).low x act t)
  engineWord w [numRef w 0 true, numRef w 1 false]
    (fun x act t => Verdict.all [
      Verdict.waitIf (32 ≤ x.co.rstvOut || waitsForMember x t (name x act t) || x.pending t (rstvScope x t (name x act t))),
      releaseLimit x])
    (fun x act t =>
      let data := laneWords (fun l => if act.getLsbD l then (numRef w 1 false).at_ x act t l else 0)
      sendRstv (ownerOfWord x t) (coreOf x.c) (name x act t) (w.fld 0 6) data false
        ((t.release x.c).modCourse x.c (fun co => { co with rstvOut := co.rstvOut + 1 }))) s

/-! ### Receiving (R247) -/

/-- A register is empty in all lanes, with no arrival pending on it. -/
def regFree (co : Course) (n : Nat) : Bool := (vlist (vget co.v (vconst 32 {}) n)).all (fun e => !e.full && e.await.isNone)

def fillReg (n : Nat) (data : Lanes Word) (co : Course) : Course :=
  { co with v := vset co.v n (vmap (fun (d : Word) => ({ val := d } : Entry)) data) }

/-- An RSTV before another one of a list, to the same register. -/
def Rstv.samePlace (a b : Rstv) : Bool := a.target == b.target && a.reg == b.reg

/-- The receive buffer that holds values for a course: its core's, or the core's it left. -/
def bufferCore (s : State) (a : NameAt) : Nat :=
  match a with
  | .bound c => coreOf c
  | .saved k => ((Tab.find s.saved k).map Saved.left).getD 0
  | .waiting _ => 0

/-- The register can take a value now. -/
def placeFree (s : State) (a : NameAt) (reg : Nat) : Bool :=
  match a with
  | .bound c => regFree (s.courseD c) reg
  | .saved k => ((Tab.find s.saved k).map (fun v => regFree v.course reg)).getD false
  | .waiting _ => false

/-- What the receiving side makes of an RSTV. -/
inductive RstvFate where
  | refuse (reason : Nat)
  /-- it stalls (R24), or its receiver is in another package -/
  | hold
  | nak
  | take (a : NameAt)
  | buffer (core : Nat)
  deriving DecidableEq, Repr

/-- An older RSTV of the sender to the same register is still on its way. -/
def olderRstv (s : State) (id : Nat) (r : Rstv) : Bool :=
  s.rstvs.any (fun e => e.1 < id && e.2.owner.name == r.owner.name && e.2.samePlace r)

/-- An older RSTV to the same register is held in some core's receive buffer: it may be one that the receiver has left (R248). -/
def heldBefore (s : State) (r : Rstv) : Bool := s.cores.any (fun e => e.2.rbuf.any (fun y => y.samePlace r))

/-- The number the receiving core expects next from a sender's core. -/
def expected (s : State) (r : Rstv) : Nat := Tab.getD (s.core (nameHome r.target % 512)).seqFrom 0 r.from_

def rstvFate (s : State) (id : Nat) (r : Rstv) : RstvFate :=
  match s.devOfPod (namePod r.target) with
  | none => if peerFenced s (s.ctx r.owner.ctx).dev (namePod r.target) || nameOld s (s.ctx r.owner.ctx).dev r.target then .refuse 3 else .hold
  | some d =>
    if expected s r != r.seq || olderRstv s id r then .nak
    else if nameIncarn r.target != (s.dev d).incarn.toNat then .refuse 3
    else match nameAt s r.target with
    | none => .refuse 1
    | some a =>
      if !(inDomain s (r.from_ / 512) r.asid r.groups (a.ctx s)) then .refuse 2
      else match a with
      | .waiting _ => .hold
      | _ =>
        let k := bufferCore s a
        let buf := (s.core k).rbuf
        if placeFree s a r.reg && !(heldBefore s r) then .take a
        else if 64 ≤ buf.length then .nak
        else .buffer k

/-! ### The save image of a register -/

/-- Key of a saved course: its context and its record's index. -/
def savedKey (ctx idx : Nat) : Nat := ctx * 2 ^ 32 + idx

/-- Address of a course record (R392). -/
def imageVa (s : State) (key : Nat) : Nat := (s.ctx (key / 2 ^ 32)).saveBase.toNat + 0x7000 * (key % 2 ^ 32)

/-- Bytes written into a course record; nothing where they cannot be. -/
def imageWrite (key off : Nat) (b : List Byte) (s : State) : State :=
  match devWriteVa s (key / 2 ^ 32) (imageVa s key + off) b with
  | .ok t => t
  | .error _ => s

/-- A v register full with a value in a course record: data, full bits, poison bits. -/
def imageFill (key n : Nat) (data : Lanes Word) (s : State) : State :=
  imageWrite key (0xF00 + 4 * n) (toBytes 4 0) (imageWrite key (0xE00 + 4 * n) (toBytes 4 0xFFFFFFFF)
    (imageWrite key (0x3000 + 128 * n) ((vlist data).flatMap (fun w => toBytes 4 w.toNat)) s))

/-! ### Delivery -/

/-- A register filled by an RSTV from another core waits for the acquire of its first read (R142). -/
def markFilled (from_ : Option Nat) (core n : Nat) (co : Course) : Course :=
  if from_ == some core then { co with filled := co.filled.filter (· != n) }
  else { co with filled := insertSorted n co.filled }

/-- The sleeps that an RSTV ends (R398). -/
def wakeSleepers (now : Nat) (co : Course) : Course :=
  { co with strands := vmap (fun (y : Strand) => match y.wait with
      | .sleep _ true => y.wake now
      | _ => y) co.strands }

/-- The store performed. -/
def putRstv (r : Rstv) (a : NameAt) (s : State) : State :=
  match a with
  | .bound c =>
    s.modCourse c (fun co => wakeSleepers (s.clockOf c) (markFilled r.core (coreOf c) r.reg (fillReg r.reg r.data co)))
  | .saved k =>
    let core := bufferCore s a
    imageFill k r.reg r.data { s with saved := Tab.upd s.saved k (fun v =>
      { v with course := markFilled r.core core r.reg (fillReg r.reg r.data v.course) }) }
  | .waiting _ => s

/-- The sender's count of RSTVs neither delivered nor refused. -/
def rstvOver (r : Rstv) (s : State) : State :=
  match r.core with
  | some _ => modOwner r.owner (fun co => { co with rstvOut := co.rstvOut - 1 }) s
  | none => s

/-- The notice of a SWSEND accepted or refused (R258). -/
def noteResult (r : Rstv) (ok : Bool) (s : State) : State :=
  match r.notice, r.core with
  | true, some k => s.modCore k (fun c => match c.swq with
      | o :: t => { c with swq := { o with note := some (some ok) } :: t }
      | [] => c)
  | _, _ => s

/-- The flit that answers a store of another package: a code, or a reason of refusal (R247). -/
def replyRstv (r : Rstv) (code : Nat) (s : State) : State :=
  match s.devOfPod (namePod r.target) with
  | some d => if r.held then s else sendFlit d (r.from_ / 512) (.rstvReply (r.from_ % 512) r.target r.seq (BitVec.ofNat 16 code)) s
  | none => s

/-- A refusal: the record in the sender's error queue, or the answer to another package (R247). -/
def refuseRstv (r : Rstv) (reason : Nat) (s : State) : State :=
  match r.core with
  | some _ =>
    rstvOver r (s.post r.owner.ctx { name := r.owner.name, code := cRstvUndeliverable
                                     cls := r.target.toNat + 2 ^ 64 * reason + 2 ^ 96 * r.reg })
  | none => replyRstv r reason { s with podReply := (cRstvUndeliverable, [toBytes 4 reason]) }

/-- The receiving core has taken the number. -/
def countRstv (r : Rstv) (s : State) : State :=
  if (s.devOfPod (namePod r.target)).isNone then s
  else s.modCore (nameHome r.target % 512) (fun k => { k with seqFrom := Tab.put k.seqFrom r.from_ (r.seq + 1) })

def dropRstv (id : Nat) (s : State) : State := { s with rstvs := Tab.del s.rstvs id }

/-- The answer to a sender in another package: taken, or NAKed. -/
def answerPod (r : Rstv) (code : Nat) (s : State) : State :=
  match r.core with
  | some _ => s
  | none => replyRstv r code { s with podReply := (code, []) }

/-- The answer to a request or store that is NAKed, and to a store that waits in a receive buffer; no codes of R444 (DESIGN
CHOICE, notes/assumptions/30.md). -/
def cStale : Nat := 0xFFFF
def cHeld : Nat := 0xFFFE

/-- The core that a course has moved to tells the hub of a sender that still names another core (R247). -/
def tellHub (name : DWord) (core : Nat) (s : State) (r : Rstv) : State :=
  if core = nameHome name % 512 then s
  else match r.core with
  | some _ => s.modDev (s.ctx r.owner.ctx).dev (fun d => { d with located := Tab.put d.located name.toNat core })
  | none => match s.devOfPod (namePod name) with
    | some d => sendFlit d (r.from_ / 512) (.located name core) s
    | none => s

/-- Where a course that is bound stands, for the sender of an RSTV to it. -/
def tellPlace (r : Rstv) (s : State) : State :=
  match nameAt s r.target with
  | some (.bound c) => tellHub r.target (coreOf c) s r
  | _ => s

/-- An RSTV delivered: its sender counts it no more; another package's is told. -/
def deliveredRstv (r : Rstv) (s : State) : State := answerPod r 0 (rstvOver r s)

/-- RSTV_DELIVERY (R247). -/
def execRstvDelivery (id : Nat) (s : State) : Out :=
  match Tab.find s.rstvs id with
  | none => .next s
  | some r =>
    if r.nak then .next s
    else match rstvFate s id r with
    | .hold => .next s
    | .nak => .next (answerPod r cStale { s with rstvs := Tab.put s.rstvs id { r with nak := true } })
    | .refuse n => .next (noteResult r false (refuseRstv r n (countRstv r (dropRstv id s))))
    | .take a => .next (tellPlace r (deliveredRstv r (noteResult r true (putRstv r a (countRstv r (dropRstv id s))))))
    | .buffer k =>
      .next (tellPlace r (answerPod r cHeld (noteResult r true
        ((countRstv r (dropRstv id s)).modCore k (fun c => { c with rbuf := c.rbuf ++ [r] })))))

/-- An older NAKed RSTV of the sending core to the same core is sent again first (R248). -/
def olderNak (s : State) (id : Nat) (r : Rstv) : Bool :=
  s.rstvs.any (fun e => e.1 < id && e.2.nak && e.2.from_ == r.from_ && nameHome e.2.target == nameHome r.target)

/-- RSTV_RETRY (R248): a NAKed RSTV is sent again with its number, oldest first. -/
def execRstvRetry (id : Nat) (s : State) : Out :=
  match Tab.find s.rstvs id with
  | none => .next s
  | some r =>
    if r.nak && !(olderNak s id r) then
      .next (sendStore r { s with rstvs := Tab.put s.rstvs id { r with nak := false, since := s.aon } })
    else .next s

/-- An entry of a core's receive buffer that can leave it: its course has ended, or its register is free, and no older one to the
register is still to be forwarded from a core that the course has left (R248). -/
def drainable (s : State) (core : Nat) (r : Rstv) : Bool :=
  match nameAt s r.target with
  | none => true
  | some a => placeFree s a r.reg && (bufferCore s a != core || !(s.cores.any (fun e => e.1 != core && e.2.rbuf.any (fun y => y.samePlace r))))

/-- The first entry that can leave, none before it being for the same register: the entries before it, itself, the rest. -/
def firstDrain (s : State) (core : Nat) : List Rstv → List Rstv → Option (List Rstv × Rstv × List Rstv)
  | _, [] => none
  | before, r :: t =>
    if drainable s core r && !(before.any (fun e => e.samePlace r)) then some (before, r, t) else firstDrain s core (before ++ [r]) t

/-- RSTV_BUFFER_DRAIN (R247): the next value of a core's receive buffer is delivered, in arrival order per register. -/
def execRstvBufferDrain (core : Nat) (s : State) : Out :=
  match firstDrain s core [] (s.core core).rbuf with
  | none => .next s
  | some (l, r, t) =>
    let s1 := s.modCore core (fun k => { k with rbuf := l ++ t })
    match nameAt s r.target with
    | none => .next (refuseRstv r 1 s1)
    | some a => .next (deliveredRstv r (putRstv r a s1))

/-! ### NAMEQ (R249) -/

/-- A saved course whose team already stands on another core than the one it left: it is on its way there (R249, R390). -/
def migrating (s : State) (key : Nat) : Bool :=
  match Tab.find s.saved key with
  | some v => ((s.team v.course.team).map (fun t => t.resident && t.core != v.left)).getD false
  | none => false

/-- The state of a name as a course of a context asks for it, at the name's home in this package. -/
def nameState (s : State) (own : DWord) (pod asid : Nat) (groups : List Nat) (n : DWord) : Nat :=
  match s.devOfPod (namePod n) with
  | none => 0
  | some d =>
    if nameVoid n then 0
    else if nameIncarn n != (s.dev d).incarn.toNat then 6
    else match nameAt s n with
    | none => 0
    | some a =>
      if !(inDomain s pod asid groups (a.ctx s)) then 5
      else match a with
      | .bound c => 1 + (if n = own then 2 ^ 4 else 0) + 2 ^ 5 * (dieOf c % 4) + 2 ^ 7 * (coreOf c % 64)
      | .saved k => if migrating s k then 3 else 2
      | .waiting _ => 4

/-- The lanes of a NAMEQ whose names lie in another package, which answers them. -/
def farNames (x : At) (s : State) (act : Mask) (name : Nat → DWord) : Mask :=
  maskOf (fun l => act.getLsbD l && (s.devOfPod (namePod (name l))).isNone && !(peerFenced s (x.ctx s).dev (namePod (name l)))
    && !(nameOld s (x.ctx s).dev (name l)))

/-- One query to another package. -/
def askName (x : At) (id : Nat) (name : Nat → DWord) (s : State) (l : Nat) : State :=
  addRequest { dev := (x.ctx s).dev, pod := namePod (name l), ctx := x.co.ctx, for_ := .nameq id (laneBit l), seq := 0
               kind := .query, ia := (name l).toNat, size := 8 } s

def nameqEffect (w : FWord) (x : At) (act : Mask) (s : State) : State :=
  if act = 0#32 then produceLater x act w.d 1 0 s
  else
    let cx := x.ctx s
    let name := fun l => BitVec.ofNat 64 ((numRef w 0 true).at_ x act s l)
    let far := farNames x s act name
    let (id, s1) := s.fresh
    let val := fun l =>
      if (s.devOfPod (namePod (name l))).isNone then 6
      else nameState s x.co.name (podOf s cx.dev) cx.asid cx.groups (name l)
    let a : Arrival := { course := x.c, lanes := act, words := 1, vals := vof 32 val }
    let s2 := (lanesOf far).foldl (askName x id name) { s1 with arrivals := Tab.put s1.arrivals id a }
    produceLater x act w.d 1 id s2

/-- NAMEQ. -/
def execNameq (w : FWord) (s : State) : Out :=
  runWord (sourcedMeaning w.pn w.pred (fun x act _ => Verdict.waitIf (destPending x act w.d 1)) [numRef w 0 true]
    (fun x act t => Verdict.waitIf ((lanesOf act).any (fun l =>
      waitsForMember x t (BitVec.ofNat 64 ((numRef w 0 true).at_ x act t l)))))
    (nameqEffect w)) s

end Sys2Proof.Machine
end

