-- ==== Sys2Proof/Machine/Remote.lean ====
section
/-! DEFINITION. Accesses between devices: a request's translation (R236), its performing at the target (R233, R237, R430), its
completion at the source (R232, R234, R235), the loss of a peer (R239, R240, R405), and shoot-downs (R238, R431). -/

namespace Sys2Proof.Machine

/-! ### Completion at the source (R232, R235) -/

/-- The value that a lane of a combined group receives, given the old value and the data of the lanes before it. -/
def groupValue (k : AccKind) (old : List Byte) (before : List (List Byte)) : List Byte :=
  match k with
  | .atomic aop size =>
    let n := atomBytes size
    if aop = 0 then
      match before.map ofBytes with
      | [] => old
      | d :: t => toBytes n (atomFold 0 size (ofBytes old) (t.foldl (atomFold 0 size) d))
    else if aop < 6 then toBytes n ((before.map ofBytes).foldl (atomFold aop size) (ofBytes old))
    else if aop = 6 then before.getLast?.getD old
    else if aop = 9 then []
    else old
  | .store | .discard => []
  | _ => old

/-- The lanes of a group decided, in ascending order. -/
def decideLanes (id : Nat) (a : Access) (old : List Byte) (bad : Bool) : List Nat → List (List Byte) → State → State
  | [], _, s => s
  | l :: t, before, s =>
    match Tab.find a.lanes l with
    | none => decideLanes id a old bad t before s
    | some x =>
      let y : LaneAcc := if bad then { x with stage := .poisoned } else x.finished (groupValue a.kind old before)
      decideLanes id a old bad t (before ++ [x.data]) (s.setLane id l y)

/-- Exactly n bytes of a reply. -/
def sized (n : Nat) (b : List Byte) : List Byte := (b ++ List.replicate n 0#8).take n

/-- The reply to a piece of a codebook load (R206). -/
def tableReply (core ch : Nat) (q : RemoteOut) (code : Nat) (vals : List (List Byte)) (s : State) : State :=
  s.modChan core ch (fun c =>
    if code != 0 && code != cMemPoison then { c with asked := false, failed := true }
    else { c with asked := false, got := c.got ++ sized q.size (vals.head?.getD []) })

/-- The reply to a piece of a copy record. -/
def copyReply (core id : Nat) (q : RemoteOut) (code : Nat) (vals : List (List Byte)) (s : State) : State :=
  match Tab.find (s.core core).claimed id with
  | none => s
  | some (ch, r) =>
    let r1 : Record :=
      if code != 0 && code != cMemPoison then { r with waiting := false, rfail := statusOfCode code }
      else match q.kind with
        | .read => { r with waiting := false, rd := r.rd ++ sized q.size (vals.head?.getD []), rdBad := r.rdBad || code != 0 }
        | _ => { r with waiting := false, put := r.put + q.size }
    s.modCore core (fun k => { k with claimed := Tab.put k.claimed id (ch, r1) })

/-- The reply to the swatch operation at the head of a core's queue. -/
def swatchReply (core va did : Nat) (q : RemoteOut) (code : Nat) (vals : List (List Byte)) (s : State) : State :=
  s.modCore core (fun k => match k.swq with
    | [] => k
    | o :: t =>
      let o1 : SwOp := { o with out := o.out - 1 }
      let o2 : SwOp :=
        if code != 0 && code != cMemPoison then
          { o1 with bad := match o.bad with
              | some (c, v, n) => if n ≤ did then some (c, v, n) else some (code, va, did)
              | none => some (code, va, did) }
        else match q.kind with
          | .read => { o1 with got := ((vals.head?.getD []).zipIdx).foldl (fun (m : Tab Byte) e => Tab.put m (va + e.2) e.1) o.got }
          | _ => o1
      { k with swq := o2 :: t })

/-- A request for a swatch operation or a discard; it fails at once where the device is fenced (R240). -/
def newRequest (q : RemoteOut) (s : State) : State :=
  if (Tab.getD (s.dev q.dev).peers {} q.pod).fenced then
    match q.for_ with
    | .discard c n pc => remoteWriteFail c n pc q.ctx cTargetUnavailable q.ia q.pod s
    | .swatch core va did => swatchReply core va did q cTargetUnavailable [] s
    | _ => s
  else addRequest q s

/-- The discard that follows the reads of a LASTUSE: one of each line, after the last of its lanes (R186). -/
def afterRead (id : Nat) (a : Access) (q : RemoteOut) (s : State) : State :=
  let left := ((Tab.find s.accesses id).map Access.open_).getD []
  match a.kind with
  | .lastuse _ =>
    if left.any (fun x => x.pod == some q.pod && x.ia / 128 == q.ia / 128) then s
    else newRequest { q with
      for_ := .discard a.course (s.courseD a.course).name a.pc, kind := .discard, ia := q.ia / 128 * 128, size := 128, data := []
      cmp := [] } s
  | _ => s

/-- A load leaves its line in the RDC (R133). -/
def AccKind.keepsLine (k : AccKind) : Bool :=
  match k with
  | .load _ => true
  | _ => false

/-- The reply to lanes of an access; of a PAGE_FAULT, info is what bytes 40 to 43 of the record hold (R232, R425). -/
def accessReply (id : Nat) (lanes : Mask) (q : RemoteOut) (code info : Nat) (vals : List (List Byte)) (s : State) : State :=
  match Tab.find s.accesses id with
  | none => s
  | some a =>
    if code != 0 && code != cMemPoison then settle id (failRemote id (lanesOf lanes) code info s)
    else
      let gs := remoteGroups a.kind.combines (a.lanes.filter (fun e => lanes.getLsbD e.1)) []
      let s1 := (gs.zip (vals ++ List.replicate gs.length [])).foldl
        (fun acc e => decideLanes id a e.2 (code != 0) e.1.lanes [] acc) s
      let lines := a.lanes.filterMap (fun e => if code = 0 && lanes.getLsbD e.1 && a.kind.keepsLine then some e.2 else none)
      settle id (lines.foldl (fun acc x => fillRdcPod (dieOf a.course) q.pod x.ia x.chk (acc.ctx a.ctx).tclass acc) (afterRead id a q s1))

/-- The reply to a NAMEQ's query; a peer that is gone gives STATE 6. -/
def nameReply (id : Nat) (lanes : Mask) (code : Nat) (vals : List (List Byte)) (s : State) : State :=
  let v := if code = 0 then ofBytes (vals.head?.getD []) % 2 ^ 32 else 6
  { s with arrivals := Tab.upd s.arrivals id (fun a =>
      { a with vals := vmapIdx (fun l old => if lanes.getLsbD l then v else old) a.vals }) }

/-- A request over: its reply goes to what it was made for. A failure's first value is the level and reason of a PAGE_FAULT. -/
def remoteFinish (id code : Nat) (vals : List (List Byte)) (s : State) : State :=
  match Tab.find s.remotes id with
  | none => s
  | some q =>
    let s1 := { s with remotes := Tab.del s.remotes id }
    let info := if code = 0 then 0 else ofBytes (vals.head?.getD [])
    let vals := if code = 0 || code = cMemPoison then replyVals q vals else vals
    match q.for_ with
    | .access a lanes => accessReply a lanes q code info vals s1
    | .discard c n pc => if code = 0 then tidy c s1 else tidy c (remoteWriteFail c n pc q.ctx code q.ia q.pod s1)
    | .copy core i => copyReply core i q code vals s1
    | .swatch core va n => swatchReply core va n q code vals s1
    | .nameq i lanes => nameReply i lanes code vals s1
    | .table core ch => tableReply core ch q code vals s1

/-- The reply a device of the package has given to a request (R233). -/
def givenReply (s : State) (q : RemoteOut) : Option (Nat × List (List Byte)) :=
  (s.devOfPod q.pod).bind (fun d => Tab.find (Tab.getD (s.dev d).peers {} (podOf s q.dev)).done q.seq)

/-- The request still waits for a port of its device (R230). -/
def waitsToLeave (s : State) (q : RemoteOut) : Bool :=
  (s.dev q.dev).egress.any (fun e => e.1 == q.pod && (match e.2 with
    | .request r => r.seq == q.seq
    | _ => false))

/-- The answer of another package to an RSTV: delivered, taken into a receive buffer, NAKed, or refused with a reason, which an
accepted one can still be (R247, R469). -/
def storeReply (id : Nat) (v : Rstv) (code : BitVec 16) (s : State) : State :=
  if (s.devOfPod (namePod v.target)).isSome || v.nak then s
  else if code = 0#16 then rstvOver v (dropRstv id (if v.held then s else noteResult v true s))
  else if code.toNat = cHeld then (if v.held then s else noteResult v true { s with rstvs := Tab.put s.rstvs id { v with held := true } })
  else if code.toNat = cStale then (if v.held then s else { s with rstvs := Tab.put s.rstvs id { v with nak := true } })
  else refuseRstv v code.toNat (dropRstv id (if v.held then s else noteResult v false s))

/-- REMOTE_COMPLETION (R232): the reply to a request; a device of the package gives its own. An RSTV to another package is
accepted, NAKed or refused with a reason (R247). -/
def execRemoteCompletion (id : Nat) (r : RemoteReply) (s : State) : Out :=
  match Tab.find s.remotes id, Tab.find s.rstvs id with
  | some q, _ =>
    if (s.devOfPod q.pod).isSome then
      match givenReply s q with
      | some (code, vals) => .next (remoteFinish id code vals s)
      | none => .next s
    else if r.incarn != q.incarn then .next (s.modDev q.dev (fun d => { d with oldDropped := d.oldDropped + 1 }))
    else if waitsToLeave s q then .next s
    else if q.gen.isSome || kindQuery q.kind then .next (remoteFinish id r.code.toNat r.vals s)
    else .next s
  | none, some v => .next (storeReply id v r.code s)
  | none, none => .next s

/-! ### Translation at the source (R236, R237) -/

/-- The pod-sharing entry that lets a source's context reach a page of an owner (R430). -/
def shareFor (s : State) (dev pod asid owner : Nat) : Option ShareEntry :=
  (Tab.vals (s.dev dev).share).find? (fun e => e.pod == pod && e.asid == asid && e.owner == owner)

/-- Page-map generation of an exporting context. -/
def exportGen (s : State) (dev : Nat) (e : ShareEntry) : Nat := (s.ctx (65536 * dev + e.exp)).pageGen

/-- What a home answers to a translation fetch: generation, write permission and size of the page, or a code. -/
def answerFetch (s : State) (dev : Nat) (q : RemoteReq) : Except Nat PodReply :=
  if 2 ^ 48 ≤ q.ia then .error cPageFault
  else match walk s dev q.ia false with
  | .fault _ _ => .error cPageFault
  | .leaf e _ _ _ =>
    match shareFor s dev q.src q.asid (pteOwner e) with
    | none => .error cOwnerFault
    | some h => .ok { granted := true, gen := exportGen s dev h, write := pteWr e, sz := pteSz e }

/-- A translation taken into the cache of 16,384 entries. -/
def cachePod (q : RemoteOut) (r : PodReply) (s : State) : State :=
  let n := pageBytes r.sz / 4096
  let e : PodTlb :=
    { ctx := q.ctx, pod := q.pod, incarn := q.incarn, page := q.ia / 4096 / n * n, pages := n, gen := r.gen, write := r.write }
  s.modDev q.dev (fun d => { d with podTlb := (e :: d.podTlb).take 16384 })

/-- A request stamped with the generation of its translation; to another package it leaves now. -/
def setGen (id : Nat) (q : RemoteOut) (gen : Nat) (s : State) : State :=
  let r := { q with gen := some gen }
  sendOut r { s with remotes := Tab.put s.remotes id r }

/-- The answer to the fetch of a request. -/
def fetched (id : Nat) (q : RemoteOut) (r : Except Nat PodReply) (s : State) : State :=
  match r with
  | .error c => remoteFinish id c [] s
  | .ok t => setGen id q t.gen (cachePod q t s)

/-- POD_TRANSLATION_FETCH (R236): a request receives the generation it carries, from the cache or from the target's home. -/
def execPodTranslationFetch (id : Nat) (r : PodReply) (s : State) : Out :=
  match Tab.find s.remotes id with
  | none => .next s
  | some q =>
    if q.gen.isSome || kindQuery q.kind then .next s
    else match podEntry s q with
    | some e => .next (setGen id q e.gen s)
    | none =>
      match s.devOfPod q.pod with
      | some d =>
        .next (fetched id q (if (Tab.getD (s.dev d).peers {} (podOf s q.dev)).refused then .error cTargetUnavailable
          else answerFetch s d (requestOf s q)) s)
      | none => .next (fetched id q (if r.granted then .ok r else .error cOwnerFault) s)

/-- The request has been NAKed by a device of the package. -/
def nakked (s : State) (q : RemoteOut) : Bool :=
  match s.devOfPod q.pod with
  | some d => (Tab.find (Tab.getD (s.dev d).peers {} (podOf s q.dev)).stale q.seq).isSome
  | none => true

/-- STALE_NAK (R237): the source drops the entry and will fetch it again; the request keeps its number. -/
def execStaleNak (id : Nat) (s : State) : Out :=
  match Tab.find s.remotes id with
  | none => .next s
  | some q =>
    if q.gen.isNone || !(nakked s q) then .next s
    else
      let s1 := s.modDev q.dev (fun d => { d with podTlb := d.podTlb.filter (fun e =>
        !(e.ctx == q.ctx && e.pod == q.pod && e.page ≤ q.ia / 4096 && q.ia / 4096 < e.page + e.pages)) })
      .next (sendOut { q with gen := none } { s1 with remotes := Tab.put s1.remotes id { q with gen := none } })

/-! ### Performing at the target (R233, R237, R430) -/

/-- The incarnation of a device as another one knows it. -/
def knownIncarn (s : State) (dev pod : Nat) : BitVec 8 :=
  match s.devOfPod pod with
  | some d => (s.dev d).incarn
  | none => (Tab.getD (s.dev dev).peers {} pod).incarn

/-- An earlier number of another package that has not come, or whose request waits for the same line: it may be for this line. -/
def earlierMissing (p : Peer) (q : RemoteReq) (n : Nat) : Bool :=
  (Tab.find p.done n).isNone && (match Tab.find p.stale n with
    | some line => line == q.ia / 128
    | none => match p.held.find? (fun h => h.seq == n) with
      | some h => h.ia / 128 == q.ia / 128
      | none => true)

/-- An earlier request of the source to the same line is still to be performed (R233). -/
def heldRequest (s : State) (dev : Nat) (q : RemoteReq) : Bool :=
  let peer := Tab.getD (s.dev dev).peers {} q.src
  peer.stale.any (fun e => e.1 < q.seq && e.2 == q.ia / 128)
    || ((s.devOfPod q.src).isNone && (List.range q.seq).any (earlierMissing peer q))
    || (Tab.vals s.remotes).any (fun r => podOf s r.dev == q.src && r.pod == podOf s dev && r.seq < q.seq && r.ia / 128 == q.ia / 128
        && (s.devOfPod q.src).isSome && (Tab.find peer.done r.seq).isNone && !kindQuery r.kind)

/-- One atomic of a group, at the key of the group's first address (R181, R182). -/
def atomicAt (aop size : BitVec 4) (key ia slot : Nat) (acc : State × List (List Byte)) (l : AtomLane) : State × List (List Byte) :=
  let n := atomBytes size.toNat
  let k := key - ia % 8 + l.ia % 8
  let old := acc.1.readUnder slot k n
  let new := atomNew aop.toNat size.toNat (ofBytes old) (ofBytes l.data) (ofBytes l.cmp)
  ((if aop = 8#4 then acc.1 else acc.1.writeMem k (toBytes n new) slot).clearShadow k n, acc.2 ++ [old])

/-- The operation itself, at the key of its first byte: its code, its values and the state after it. -/
def performAt (dev : Nat) (q : RemoteReq) (key slot : Nat) (s : State) : State × Nat × List (List Byte) :=
  match q.kind with
  | .read => (s, if s.poisoned key q.size then cMemPoison else 0, [s.readUnder slot key q.size])
  | .write => ((s.writeMem key q.data slot).clearShadow key q.data.length, 0, [])
  | .discard => ((dropLine dev q.ia key s).clearShadow key 1, 0, [])
  | .atomic aop size =>
    if s.poisoned key 1 then (s, cMemPoison, [])
    else
      let r := (({ ia := q.ia, data := q.data, cmp := q.cmp } : AtomLane) :: q.more).foldl (atomicAt aop size key q.ia slot) (s, [])
      (r.1, 0, r.2)
  | .query | .fetch => (s, 0, [])

def kindWrites (k : RemoteKind) : Bool :=
  match k with
  | .write | .discard => true
  | .atomic aop _ => aop != 8#4
  | .read | .query | .fetch => false

/-- What a target makes of a request: held, NAKed as stale, or answered. -/
inductive Served where
  | held
  | stale
  | done (s : State) (code : Nat) (vals : List (List Byte))

/-- The page-map generation that a request is compared with (R237, R430): that of the context that exports the page to the source;
where none does any more, the newest of those that export anything to it. -/
def currentGen (s : State) (dev : Nat) (q : RemoteReq) : Nat :=
  let newest := (((Tab.vals (s.dev dev).share).filter (fun e => e.pod == q.src && e.asid == q.asid)).map (exportGen s dev)).foldl max 0
  match walk s dev q.ia false with
  | .fault _ _ => newest
  | .leaf e _ _ _ => ((shareFor s dev q.src q.asid (pteOwner e)).map (exportGen s dev)).getD newest

/-- The tenant class of the context that exports to a source (R434). -/
def exportClass (s : State) (dev : Nat) (q : RemoteReq) : Nat :=
  (((Tab.vals (s.dev dev).share).find? (fun e => e.pod == q.src && e.asid == q.asid)).map
    (fun e => (s.ctx (65536 * dev + e.exp)).tclass)).getD 0

/-- A request at its home. It is translated by a walk, so that one of a new generation never goes through an entry that its page
had before (R237, R432); write permission is tested before the share (R425). -/
def serve (dev : Nat) (q : RemoteReq) (s : State) : Served :=
  if kindQuery q.kind then .done s 0 [toBytes 4 (nameState s 0#64 q.src q.asid q.groups (BitVec.ofNat 64 q.ia))]
  else if 2 ^ 48 ≤ q.ia then .done s cPageFault [toBytes 4 3]
  else if q.gen < currentGen s dev q then .stale
  else if iaHeld s dev (kindWrites q.kind) q.ia then .held
  else match walkXlate { dev := dev, ia := q.ia, write := kindWrites q.kind, pick := false
                         owner := fun o => (shareFor s dev q.src q.asid o).isSome, cls := exportClass s dev q } s with
    | (s1, .fault code info) => .done s1 code [toBytes 4 info]
    | (s1, .ok key pte) =>
      let (s2, code, vals) := performAt dev q key (pteKey pte) s1
      .done s2 code vals

/-- The answer to a request; to another package it leaves by a port. -/
def answerReq (dev : Nat) (q : RemoteReq) (code : Nat) (vals : List (List Byte)) (s : State) : State :=
  let s1 := { s with podReply := (code, vals) }
  if (s.devOfPod q.src).isSome then s1 else sendFlit dev q.src (.reply q.seq (BitVec.ofNat 16 code) vals) s1

/-- The answer to a translation fetch as a reply carries it: generation, write permission, size code. -/
def fetchVals (r : Except Nat PodReply) : Nat × List (List Byte) :=
  match r with
  | .error c => (c, [])
  | .ok t => (0, [toBytes 8 t.gen, toBytes 1 (if t.write then 1 else 0), toBytes 1 t.sz])

/-- A request of another package that waits here for an earlier one (R233). -/
def keepHeld (dev : Nat) (q : RemoteReq) (s : State) : State :=
  if (s.devOfPod q.src).isSome then s
  else modPeer dev q.src (fun p => if p.held.any (fun h => h.seq == q.seq) then p else { p with held := p.held ++ [q] }) s

/-- A request that waits no longer. -/
def dropHeld (dev : Nat) (q : RemoteReq) (s : State) : State :=
  if (Tab.getD (s.dev dev).peers {} q.src).held.any (fun h => h.seq == q.seq) then
    modPeer dev q.src (fun p => { p with held := p.held.filter (fun h => h.seq != q.seq) }) s
  else s

/-- A number answered for good: performed, or failed (R233). A request whose translation is refused has failed. -/
def noteAnswer (dev : Nat) (q : RemoteReq) (code : Nat) (vals : List (List Byte)) (s : State) : State :=
  modPeer dev q.src (fun p => { p with stale := Tab.del p.stale q.seq, done := Tab.put p.done q.seq (code, vals) }) (dropHeld dev q s)

/-- A request of another device at its home (R233, R237, R239, R431). -/
def requestAt (dev : Nat) (q : RemoteReq) (s : State) : State :=
  let peer := Tab.getD (s.dev dev).peers {} q.src
  if q.incarn != knownIncarn s dev q.src then s.modDev dev (fun d => { d with oldDropped := d.oldDropped + 1 })
  else if peer.refused then answerReq dev q cTargetUnavailable [] (noteAnswer dev q cTargetUnavailable [] s)
  else if q.kind == .fetch then
    let r := fetchVals (answerFetch s dev q)
    answerReq dev q r.1 r.2 (if r.1 = 0 then s else noteAnswer dev q r.1 r.2 s)
  else match Tab.find peer.done q.seq with
  | some r => answerReq dev q r.1 r.2 s
  | none =>
    if heldRequest s dev q then keepHeld dev q s
    else match serve dev q s with
    | .held => keepHeld dev q s
    | .stale => answerReq dev q cStale []
        (modPeer dev q.src (fun p => { p with stale := Tab.put p.stale q.seq (q.ia / 128) }) (dropHeld dev q s))
    | .done s1 code vals => answerReq dev q code vals (noteAnswer dev q code vals s1)

/-- REMOTE_REQUEST (R233, R237): a request of another device reaches its home. -/
def execRemoteRequest (dev : Nat) (q : RemoteReq) (s : State) : Out := .next (requestAt dev q s)

/-! ### The loss of a peer (R239, R240, R405) -/

/-- The outstanding requests of a device to a peer. -/
def requestsTo (s : State) (dev pod : Nat) : List Nat :=
  (s.remotes.filter (fun e => e.2.dev == dev && e.2.pod == pod)).map Prod.fst

def dropPod (dev pod : Nat) (s : State) : State :=
  s.modDev dev (fun d => { d with podTlb := d.podTlb.filter (fun e => e.pod != pod) })

/-- A strand waits at its course's BAR or BARW of a pod barrier: in a BAR whose course has arrived, or before a BAR, BARA or BARW,
which issues only once the arrival is no longer pending (R401, R402). -/
def waitsAtPod (s : State) (c i st : Nat) : Bool :=
  let co := s.courseD c
  let y := co.strand st
  y.live && (y.inBar == some (.pod i) ||
    match (fetchWord (s.ctx co.ctx) y.pc s).2 with
    | .ok w => match decodeRaw w with
      | .barw f | .bar f | .bara f => barRefOf f == .pod i && activeOf { c := c, st := st, co := co, sd := y } f.pn f.pred != 0#32
      | _ => false
    | .error _ => false)

/-- The courses that wait in a pod barrier's phase, each with a waiting strand. -/
def podWaiters (s : State) (i : Nat) : List (Nat × Nat) :=
  s.courses.filterMap (fun e =>
    if e.2.cstate == .run && pendingAt s e.1 (.pod i) then
      ((List.range 4).find? (waitsAtPod s e.1 i)).map (fun st => (e.1, st))
    else none)

/-- A pod barrier whose phase a lost device breaks (R405). -/
def breakBarrier (pod : Nat) (s : State) (i : Nat) : State :=
  let b := vget s.podBars {} i
  if b.devs.contains pod && 0 < b.bar.arrivals then
    let l := podWaiters s i
    let s1 := { s with podBars := vset s.podBars i { b with bar := b.bar.complete } }
    l.foldl (fun acc e => takeTrap e.1 e.2 { code := cBarrierFailed, cls := cls4 pod i 0 0 } acc) s1
  else s

def breakBarriers (pod : Nat) (s : State) : State := (List.range 4).foldl (breakBarrier pod) s

/-- The group of a collective: 256 * ASID + GROUP of its descriptor (R250). -/
def collGroup (s : State) (o : CollOp) : Nat :=
  256 * (s.ctx o.owner.ctx).asid + (match devReadVa s o.owner.ctx (o.desc + 24) 2 with
    | .ok b => ofBytes b % 256
    | .error _ => 0)

/-- The collectives of a device that wait for a rank of a lost peer: each fails with that rank (R254). -/
def failColls (dev pod : Nat) (s : State) : State :=
  { s with cores := s.cores.map (fun e =>
      (e.1, { e.2 with collq := e.2.collq.map (fun o =>
        if (s.ctx o.owner.ctx).dev != dev then o
        else match ((Tab.getD (s.dev dev).groupDevs [] (collGroup s o)).zipIdx.find? (fun r => r.1 == pod)).map Prod.snd with
          | some k => if o.lost.isSome then o else { o with lost := some k }
          | none => o) })) }

/-- What a lost peer breaks beside the requests to it: pod barriers and collectives (R254, R405). -/
def lostPeer (dev pod : Nat) (s : State) : State := failColls dev pod (breakBarriers pod s)

/-- POD_TIMEOUT (R240): a peer that has left a request unanswered for the pod timeout is fenced. -/
def execPodTimeout (dev peer : Nat) (s : State) : Out :=
  let old := fun (t : Nat) => t + 1000 * (s.dev dev).podTimeout ≤ s.aon
  let late := s.remotes.any (fun e => e.2.dev == dev && e.2.pod == peer && old e.2.since)
    || s.rstvs.any (fun e => e.2.core.isSome && (s.ctx e.2.owner.ctx).dev == dev && namePod e.2.target == peer && !e.2.nak && !e.2.held
      && (s.devOfPod peer).isNone && old e.2.since)
  if late && !(peerFenced s dev peer) then
    let s1 := modPeer dev peer (fun p => { p with fenced := true }) (dropPod dev peer s)
    .next (lostPeer dev peer ((requestsTo s dev peer).foldl (fun acc id => remoteFinish id cTargetUnavailable [] acc) s1))
  else .next s

/-- The cores of a device. -/
def coreOfDev (s : State) (dev k : Nat) : Bool := devOfDie s.mode (k / 64) == dev

/-- The sequences to and from the cores of a peer start anew (R248). -/
def newSequences (dev pod : Nat) (s : State) : State :=
  { s with cores := s.cores.map (fun e =>
      if coreOfDev s dev e.1 then
        (e.1, { e.2 with seqTo := List.filter (fun (x : Nat × Nat) => x.1 / 512 != pod) e.2.seqTo
                         seqFrom := List.filter (fun (x : Nat × Nat) => x.1 / 512 != pod) e.2.seqFrom })
      else e) }

/-- The RSTVs of a device on their way to a peer that has been reset are refused (R247). -/
def refuseOld (dev pod : Nat) (s : State) : State :=
  (s.rstvs.filter (fun e => e.2.core.isSome && (s.ctx e.2.owner.ctx).dev == dev && namePod e.2.target == pod)).foldl
    (fun acc (e : Nat × Rstv) => refuseRstv e.2 3 (dropRstv e.1 (if e.2.held then acc else noteResult e.2 false acc))) s

/-- What has come from an old incarnation of a peer and is not performed or accepted is dropped and counted; what waits in a receive
buffer of the device has been accepted (R239, R247). -/
def dropOld (dev peer : Nat) (p : Peer) (s : State) : State :=
  let old := fun (r : Rstv) => r.core.isNone && r.from_ / 512 == peer && s.devOfPod (namePod r.target) == some dev
  let n := p.held.length + (s.rstvs.filter (fun e => old e.2)).length
  { s with
    rstvs := s.rstvs.filter (fun e => !(old e.2))
    cores := s.cores.map (fun (e : Nat × Core) => (e.1, { e.2 with rbuf := e.2.rbuf.map (fun r => if old r then { r with held := true } else r) })) }.modDev dev
      (fun d => { d with oldDropped := d.oldDropped + n })

/-- A peer's announcement of its incarnation: a new one ends what was under way to the old one; of a fenced device any one
counts as new (R239, R240). -/
def joinFrom (dev peer : Nat) (incarn : BitVec 8) (s : State) : State :=
  let p := Tab.getD (s.dev dev).peers {} peer
  if (s.devOfPod peer).isSome || (p.incarn == incarn && !p.fenced && (Tab.find (s.dev dev).peers peer).isSome) then s
  else
    let s1 := modPeer dev peer (fun _ => { incarn := incarn, told := p.told, refused := p.refused && p.incarn == incarn })
      (dropPod dev peer s)
    let s2 := (requestsTo s dev peer).foldl (fun acc id => remoteFinish id cPeerReset [] acc) (dropOld dev peer p s1)
    lostPeer dev peer (newSequences dev peer (refuseOld dev peer s2))

/-- JOIN_ANNOUNCEMENT (R239): a peer's new incarnation. -/
def execJoinAnnouncement (dev peer : Nat) (incarn : BitVec 8) (s : State) : Out := .next (joinFrom dev peer incarn s)

/-! ### Shoot-downs (R238, R431) -/

/-- The pod identifiers that hold a share of a page: those of the entries for its owner, or, where nothing maps it any
more, of the exporting context's entries. -/
def sharersOf (s : State) (dev : Nat) (h : ShootDown) : List Nat :=
  let l := Tab.vals (s.dev dev).share
  ((match walk s dev h.ia false with
    | .leaf e _ _ _ => l.filter (fun (x : ShareEntry) => x.owner == pteOwner e)
    | .fault _ _ => l.filter (fun (x : ShareEntry) => x.exp == h.asid)).map ShareEntry.pod).dedup

/-- The shoot-down at the head of a device's queue is sent. -/
def startShoot (dev : Nat) (s : State) : State :=
  match (s.dev dev).sdQueue with
  | h :: t =>
    if h.sent then s
    else
      let l := sharersOf s dev h
      (l.filter (fun p => (s.devOfPod p).isNone)).foldl (fun acc p => sendFlit dev p (.shootDown h.ia h.sz) acc)
        (s.modDev dev (fun d => { d with sdQueue := { h with sent := true, due := l, since := s.aon } :: t }))
  | [] => s

/-- SDGO_WRITE (R463): a shoot-down of the bank's registers queued, at most 16 behind the one in progress. -/
def execSdgoWrite (s : State) : Out :=
  let d := s.dev s.bank
  if 16 ≤ (d.sdQueue.filter (fun h => !h.sent)).length then .next s
  else
    let h : ShootDown := { ia := bitsOf d.sdia.toNat 12 36 * 4096, sz := bitsOf d.sdctl.toNat 0 3, asid := bitsOf d.sdctl.toNat 16 16
                           done := d.sddone.toNat }
    .next (startShoot s.bank (s.modDev s.bank (fun y => { y with sdQueue := y.sdQueue ++ [h] })))

/-- A completion word that a hub register names, with SINK_FAULT where it cannot be written (R443). -/
def hubWord (dev asid ia v : Nat) (s : State) : State :=
  match iaWrite s dev ia (toBytes 8 v) with
  | some t => t
  | none => s.sinkFault dev 3 asid ia 0 0

/-- The shoot-down at the head over, and the next one sent. -/
def endShoot (dev v : Nat) (s : State) : State :=
  match (s.dev dev).sdQueue with
  | [] => s
  | h :: t => startShoot dev (hubWord dev h.asid h.done v (s.modDev dev (fun d => { d with sdQueue := t })))

/-- A shoot-down at a device that shares a page (R238): matching entries dropped, and a drain marker placed. -/
def shootAt (dev owner ia sz : Nat) (s : State) : State :=
  let n := pageBytes sz / 4096
  let first := ia / 4096 / n * n
  s.modDev dev (fun d => { d with
    podTlb := d.podTlb.filter (fun e => !(e.pod == owner && first < e.page + e.pages && e.page < first + n))
    sdRecv := d.sdRecv ++ [(owner, ia, sz)] })

/-- SHOOT_DOWN_RECEIVE (R238). -/
def execShootDownReceive (dev owner ia sz : Nat) (s : State) : Out := .next (shootAt dev owner ia sz s)

/-- A device's acknowledgement of the shoot-down at the head of an owner's queue. -/
def ackFrom (o pod : Nat) (s : State) : State :=
  s.modDev o (fun d => { d with sdQueue := match d.sdQueue with
    | h :: u => { h with due := h.due.filter (· != pod) } :: u
    | [] => [] })

/-- A request translated through a dropped entry is still to leave its device. -/
def undrained (s : State) (dev owner ia sz : Nat) : Bool :=
  let n := pageBytes sz
  (Tab.vals s.remotes).any (fun r => r.dev == dev && r.pod == owner && r.gen.isSome && ia / n == r.ia / n
    && (if (s.devOfPod owner).isSome then (givenReply s r).isNone && !(nakked s r) else waitsToLeave s r))

/-- SHOOT_DOWN_DRAINED (R238): the markers of the bank's oldest shoot-down have left, and it is acknowledged. -/
def execShootDownDrained (s : State) : Out :=
  match (s.dev s.bank).sdRecv with
  | [] => .next s
  | (owner, ia, sz) :: t =>
    if undrained s s.bank owner ia sz then .next s
    else
      let s1 := s.modDev s.bank (fun d => { d with sdRecv := t })
      match s.devOfPod owner with
      | none => .next (sendFlit s.bank owner (.shootAck ia sz) { s1 with podReply := (0, [toBytes 8 ia, toBytes 1 sz]) })
      | some o => .next (ackFrom o (podOf s s.bank) s1)

/-- SHOOT_DOWN_COMPLETE (R431): every acknowledgement of the bank's shoot-down has come; devices of the package give theirs
by SHOOT_DOWN_DRAINED. -/
def execShootDownComplete (s : State) : Out :=
  match (s.dev s.bank).sdQueue with
  | [] => .next s
  | h :: _ => if h.sent && h.due.all (fun p => (s.devOfPod p).isNone) then .next (endShoot s.bank 1 s) else .next s

/-- SHOOT_DOWN_TIMEOUT (R431): the devices that have not answered within the pod timeout are fenced: refused from now on, with what
the fencing of a device breaks (R254, R405). -/
def execShootDownTimeout (dev : Nat) (silent : List Nat) (s : State) : Out :=
  match (s.dev dev).sdQueue with
  | [] => .next s
  | h :: _ =>
    let l := h.due.filter (fun p => silent.contains p || (s.devOfPod p).isSome)
    if h.sent && h.since + 1000 * (s.dev dev).podTimeout ≤ s.aon && !l.isEmpty then
      .next (endShoot dev (2 + 2 ^ 32 * l.length) (l.foldl (fun acc p =>
        lostPeer dev p (modPeer dev p (fun x => { x with refused := true }) acc)) s))
    else .next s

end Sys2Proof.Machine
end

