-- ==== Sys2Proof/Machine/Swatch.lean ====
section
/-! DEFINITION. The swatch instructions (R255 to R262): at issue, in the link engine, and the notice of a SWSEND; and the
results R467 and R468 give them. -/

namespace Sys2Proof.Machine

/-! ### At issue (R153, R154, R255, R262) -/

def swOpcode (o : SwOp) : BitVec 9 := o.word.extractLsb' 54 9

/-- The operation of a word, with the operands of its lowest active lane. -/
def swatchOp (i : Instr) (refs : List SrcRef) (x : At) (act : Mask) (s : State) : SwOp :=
  let val := fun (n : Nat) => ((refs.find? (fun r => r.fld == n)).map (fun r => r.low x act s)).getD 0
  { owner := ownerOfWord x s, word := wordOf i, pc := x.sd.pc, a := val 0, b := val 1, c := val 2, act := act
    params := x.co.swatch, notice := i matches .swsend _ && refs.length == 3 }

def pushSw (core : Nat) (o : SwOp) (s : State) : State := s.modCore core (fun k => { k with swq := k.swq ++ [{ o with stamp := s.pkgTime }] })

/-- A word that queues an operation whose status it pushes empty (R262). -/
def swatchWord (w : FWord) (i : Instr) (refs : List SrcRef) (s : State) : Out :=
  runWord (sourcedMeaning w.pn w.pred noCheck refs
    (fun x act t => if act = 0#32 then .go else engineWait x t)
    (fun x act t =>
      if act = 0#32 then produceLater x act w.d 1 0 t
      else
        let (id, t1) := t.fresh
        produceLater x act w.d 1 id (pushSw (coreOf x.c) { swatchOp i refs x act t with result := some id } t1))) s

/-- A number of partitions that SWSIZE accepts (R255). -/
def swatchSizeOk (p : Nat) : Bool := (List.range 13).any (fun i => 2 ^ i == p)

/-- SWSIZE. -/
def execSwsize (w : FWord) (s : State) : Out :=
  let refs := [numRef w 0 false, numRef w 1 true]
  engineWord w refs
    (fun x act t => (illegalIf (!(swatchSizeOk ((numRef w 0 false).low x act t)))).and_ (engineWait x t))
    (fun x act t => pushSw (coreOf x.c) (swatchOp (.swsize w) refs x act t) t) s

/-- SWBUILD. -/
def execSwbuild (w : FWord) (s : State) : Out := swatchWord w (.swbuild w) [numRef w 0 true, numRef w 1 true] s

/-- SWSEND. -/
def execSwsend (w : FWord) (s : State) : Out :=
  swatchWord w (.swsend w) ([numRef w 0 true, numRef w 1 true] ++ (if isNone w.sc then [] else [numRef w 2 true])) s

/-- SWDIFF. -/
def execSwdiff (w : FWord) (s : State) : Out := swatchWord w (.swdiff w) [numRef w 0 true, numRef w 1 true] s

/-- SWPEEL. -/
def execSwpeel (w : FWord) (s : State) : Out :=
  swatchWord w (.swpeel w) [numRef w 0 true, numRef w 1 true, numRef w 2 false] s

/-- SWAPPLY. -/
def execSwapply (w : FWord) (s : State) : Out :=
  swatchWord w (.swapply w) [numRef w 0 true, numRef w 1 true, numRef w 2 false] s

/-! ### Memory as the link engine reaches it (R145, R154, R262) -/

/-- A run of an operation: the state it works on, the bytes it has of other devices, the writes it makes there, newest
first, each with what had been done before it, and what is done. -/
structure SwRun where
  s    : State
  got  : Tab Byte
  puts : List (Nat × List Byte × Nat) := []
  did  : Nat := 0

/-- Why a run stops. -/
inductive SwStop where
  /-- bytes of another device are needed first: virtual address, pod identifier, intermediate address, length, and what had
  been done before -/
  | need (va pod ia n did : Nat)
  | wait
  /-- a fault at an address -/
  | fault (va : Nat)
  /-- the status of R262 -/
  | status (code : Nat)
  deriving DecidableEq, Repr

abbrev SwM := ExceptT SwStop (StateM SwRun)

/-- The pieces of a range by 128-byte line. -/
def linePieces : Nat → Nat → Nat → List (Nat × Nat)
  | 0, _, _ => []
  | fuel + 1, va, n =>
    if n = 0 then []
    else
      let k := min n (128 - va % 128)
      (va, k) :: linePieces fuel (va + k) (n - k)

def readPiece (cx : Ctx) (va n : Nat) : SwM (List Byte) := do
  let r ← get
  match vaAt cx va n false with
  | .fail _ => throw (.fault va)
  | .remote pod ia =>
    match (List.range n).mapM (fun i => Tab.find r.got (va + i)) with
    | some b => return b
    | none => throw (.need va pod ia n r.did)
  | .local_ ia =>
    if iaHeld r.s cx.dev false ia then throw .wait
    else match homeRead cx (byPage ia n) r.s with
    | (s1, .ok (b, _)) =>
      set { r with s := s1 }
      return b
    | (_, .error _) => throw (.fault va)

def readPieces (cx : Ctx) : List (Nat × Nat) → SwM (List Byte)
  | [] => return []
  | (va, n) :: t => do
    let a ← readPiece cx va n
    let b ← readPieces cx t
    return a ++ b

/-- Bytes of a virtual range. -/
def swRead (cx : Ctx) (va n : Nat) : SwM (List Byte) := readPieces cx (linePieces (n / 128 + 2) va n)

def writePiece (core : Nat) (cx : Ctx) (va : Nat) (b : List Byte) : SwM Unit := do
  let r ← get
  match vaAt cx va b.length true with
  | .fail _ => throw (.fault va)
  | .remote _ _ =>
    set { r with puts := (va, b, r.did) :: r.puts
                 got := b.zipIdx.foldl (fun (m : Tab Byte) (e : Byte × Nat) => Tab.put m (va + e.2) e.1) r.got }
  | .local_ ia =>
    if iaHeld r.s cx.dev true ia then throw .wait
    else match homeWrite core cx false (byPage ia b.length) b r.s with
      | (s1, none) => set { r with s := s1 }
      | (_, some _) => throw (.fault va)

def writePieces (core : Nat) (cx : Ctx) : List (Nat × Nat) → List Byte → SwM Unit
  | [], _ => return ()
  | (va, n) :: t, b => do
    writePiece core cx va (b.take n)
    writePieces core cx t (b.drop n)

/-- Bytes written to a virtual range. -/
def swWrite (core : Nat) (cx : Ctx) (va : Nat) (b : List Byte) : SwM Unit :=
  writePieces core cx (linePieces (b.length / 128 + 2) va b.length) b

def swDid (n : Nat) : SwM Unit := modify (fun r => { r with did := n })

/-! ### Cells (R256) -/

/-- fold of R256. -/
def fold16 (x : DWord) : Nat := (x ^^^ (x >>> 16) ^^^ (x >>> 32) ^^^ (x >>> 48)).toNat % 2 ^ 16

def SwatchParams.salt (q : SwatchParams) (i : Nat) : DWord := q.salts.getD i 0#64

/-- The cell of a key in partition i. -/
def cellOf (q : SwatchParams) (i : Nat) (key : DWord) : Nat := i * q.p + fold16 (key ^^^ q.salt i) % q.p

def checkOf (q : SwatchParams) (key : DWord) : Word := BitVec.ofNat 32 (fold16 (key ^^^ q.salt 3))

def SwatchParams.m (q : SwatchParams) : Nat := 3 * q.p

structure Cell where
  count : Word
  key   : DWord
  val   : DWord
  chk   : Word
  deriving DecidableEq, Repr

def Cell.ofBytes (b : List Byte) : Cell :=
  let f := fun off n => Machine.ofBytes ((b.drop off).take n)
  { count := BitVec.ofNat 32 (f 0 4), key := BitVec.ofNat 64 (f 4 8), val := BitVec.ofNat 64 (f 12 8), chk := BitVec.ofNat 32 (f 20 4) }

def Cell.bytes (c : Cell) : List Byte :=
  toBytes 4 c.count.toNat ++ toBytes 8 c.key.toNat ++ toBytes 8 c.val.toNat ++ toBytes 4 c.chk.toNat ++ toBytes 8 0

def Cell.isZero (c : Cell) : Bool := c.count == 0#32 && c.key == 0#64 && c.val == 0#64 && c.chk == 0#32

/-- pure of R256. -/
def Cell.isPure (q : SwatchParams) (c : Cell) : Bool := (c.count == 1#32 || c.count == 0xFFFFFFFF#32) && c.chk == checkOf q c.key

/-- A pair put into a cell, count changed by side. -/
def Cell.add (q : SwatchParams) (side : Word) (k v : DWord) (c : Cell) : Cell :=
  { count := c.count + side, key := c.key ^^^ k, val := c.val ^^^ v, chk := c.chk ^^^ checkOf q k }

/-- c less d (R259). -/
def Cell.sub (c d : Cell) : Cell :=
  { count := c.count - d.count, key := c.key ^^^ d.key, val := c.val ^^^ d.val, chk := c.chk ^^^ d.chk }

/-- What an operation runs with: its core, its context, its parameters. -/
structure SwEnv where
  core : Nat
  cx   : Ctx
  q    : SwatchParams

def rdCell (e : SwEnv) (base i : Nat) : SwM Cell := do return Cell.ofBytes (← swRead e.cx (base + 32 * i) 32)

def wrCell (e : SwEnv) (base i : Nat) (c : Cell) : SwM Unit := swWrite e.core e.cx (base + 32 * i) c.bytes

/-- A pair put into its three cells. -/
def addPair (e : SwEnv) (base : Nat) (side : Word) (k v : DWord) : List Nat → SwM Unit
  | [] => return ()
  | i :: t => do
    let j := cellOf e.q i k
    wrCell e base j ((← rdCell e base j).add e.q side k v)
    addPair e base side k v t

/-- Swatch operands are 32-byte aligned, or the operation ends before it writes (R256). -/
def aligned32 : List Nat → SwM Unit
  | [] => return ()
  | a :: t => if a % 32 = 0 then aligned32 t else throw (.fault a)

/-! ### Set tables (R257) -/

/-- An 8-byte key and an 8-byte value. -/
def rdPair (e : SwEnv) (va : Nat) : SwM (DWord × DWord) := do
  let b ← swRead e.cx va 16
  return (BitVec.ofNat 64 (ofBytes (b.take 8)), BitVec.ofNat 64 (ofBytes (b.drop 8)))

def wrPair (e : SwEnv) (va : Nat) (p : DWord × DWord) : SwM Unit :=
  swWrite e.core e.cx va (toBytes 8 p.1.toNat ++ toBytes 8 p.2.toNat)

def rdNum (e : SwEnv) (va : Nat) : SwM Nat := do return ofBytes (← swRead e.cx va 4)

def entryVa (table i : Nat) : Nat := table + 16 + 16 * i

/-! ### The operations -/

def zeroCells (e : SwEnv) (base : Nat) : List Nat → SwM Unit
  | [] => return ()
  | i :: t => do
    wrCell e base i { count := 0#32, key := 0#64, val := 0#64, chk := 0#32 }
    zeroCells e base t

def insertAll (e : SwEnv) (table base : Nat) : List Nat → SwM Unit
  | [] => return ()
  | i :: t => do
    let p ← rdPair e (entryVa table i)
    addPair e base 1#32 p.1 p.2 [0, 1, 2]
    swDid (i + 1)
    insertAll e table base t

/-- SWBUILD (R257). -/
def runBuild (e : SwEnv) (table base : Nat) : SwM Unit := do
  aligned32 [base]
  zeroCells e base (List.range e.q.m)
  insertAll e table base (List.range (← rdNum e table))

/-- SWSEND's cells (R258). -/
def runSend (e : SwEnv) (src dst : Nat) : List Nat → SwM Unit
  | [] => return ()
  | i :: t => do
    swWrite e.core e.cx (dst + 32 * i) (← swRead e.cx (src + 32 * i) 32)
    swDid (i + 1)
    runSend e src dst t

/-- SWDIFF (R259). -/
def runDiff (e : SwEnv) (a b : Nat) : List Nat → SwM Unit
  | [] => return ()
  | i :: t => do
    let x ← rdCell e a i
    wrCell e a i (x.sub (← rdCell e b i))
    swDid (i + 1)
    runDiff e a b t

/-- One pass of SWPEEL over the cells, with the entries listed so far: the entries listed after it. -/
def peelPass (e : SwEnv) (base list cap : Nat) : Nat → List Nat → SwM Nat
  | n, [] => return n
  | n, c :: t => do
    let x ← rdCell e base c
    if x.isPure e.q then
      if n = cap then throw (.status 2)
      swWrite e.core e.cx (list + 32 * n) (toBytes 8 x.key.toNat ++ toBytes 8 x.val.toNat ++ toBytes 4 x.count.toNat ++ toBytes 12 0)
      swDid (n + 1)
      addPair e base (0#32 - x.count) x.key x.val [0, 1, 2]
      peelPass e base list cap (n + 1) t
    else peelPass e base list cap n t

/-- Passes until one lists nothing. -/
def peelPasses (e : SwEnv) (base list cap : Nat) : Nat → Nat → SwM Nat
  | 0, n => return n
  | fuel + 1, n => do
    let n1 ← peelPass e base list cap n (List.range e.q.m)
    if n1 = n then return n else peelPasses e base list cap fuel n1

/-- Cells that are not zero. -/
def countLeft (e : SwEnv) (base : Nat) : List Nat → SwM Nat
  | [] => return 0
  | i :: t => do
    let x ← rdCell e base i
    return (← countLeft e base t) + (if x.isZero then 0 else 1)

/-- The intermediate address of a virtual one. -/
def swatchIa (cx : Ctx) (va : Nat) : Nat := ((findRange cx va).map (fun r => rangeIa r.2 va)).getD va

/-- SWPEEL (R260, R468). -/
def runPeel (e : SwEnv) (o : SwOp) : SwM Unit := do
  aligned32 [o.a]
  let n ← peelPasses e o.a o.b o.c (o.c + 2) 0
  let left ← countLeft e o.a (List.range e.q.m)
  if left ≠ 0 then
    modify (fun r => { r with s := r.s.post o.owner.ctx { name := o.owner.name, pc := o.pc, code := cPeelFail
                                                          ia := swatchIa e.cx o.a, cls := cls4 n left e.q.m 0 } })
    throw (.status 1)

/-- The first table entry that a test accepts. -/
def findEntry (e : SwEnv) (table : Nat) (f : DWord × DWord → Bool) : List Nat → SwM (Option Nat)
  | [] => return none
  | i :: t => do
    if f (← rdPair e (entryVa table i)) then return some i else findEntry e table f t

/-- One list entry applied (R261). -/
def applyEntry (e : SwEnv) (mirror : Bool) (table : Nat) (p : DWord × DWord) (side : Nat) : SwM Unit := do
  if side = 2 ^ 32 - 1 then
    let n ← rdNum e table
    match ← findEntry e table (fun x => x.1 == p.1) (List.range n) with
    | some i => wrPair e (entryVa table i) p
    | none =>
      if (← rdNum e (table + 8)) ≤ n then throw (.status 3)
      wrPair e (entryVa table n) p
      swWrite e.core e.cx table (toBytes 4 (n + 1))
  else if side = 1 then
    if mirror then
      let n ← rdNum e table
      match ← findEntry e table (fun x => x == p) (List.range n) with
      | some i =>
        wrPair e (entryVa table i) (← rdPair e (entryVa table (n - 1)))
        swWrite e.core e.cx table (toBytes 4 (n - 1))
      | none => return ()
  else throw (.status 9)

def applyAll (e : SwEnv) (mirror : Bool) (list table : Nat) : List Nat → SwM Unit
  | [] => return ()
  | i :: t => do
    let b ← swRead e.cx (list + 32 * i) 32
    applyEntry e mirror table (BitVec.ofNat 64 (ofBytes (b.take 8)), BitVec.ofNat 64 (ofBytes ((b.drop 8).take 8)))
      (ofBytes ((b.drop 16).take 4))
    swDid (i + 1)
    applyAll e mirror list table t

/-- The operation of the queue's head (R255 to R261). -/
def runSwatch (e : SwEnv) (o : SwOp) : SwM Unit :=
  match swOpcode o with
  | 0x1C5#9 => runBuild e o.a o.b
  | 0x1C6#9 => do
    aligned32 [o.a, o.b]
    runSend e o.a o.b (List.range e.q.m)
  | 0x1C7#9 => do
    aligned32 [o.a, o.b]
    runDiff e o.a o.b (List.range e.q.m)
  | 0x1C8#9 => runPeel e o
  | _ => applyAll e (bitOf o.word.toNat 0) o.a o.b (List.range o.c)

/-- SWSIZE's salts (R255). -/
def runSalts (cx : Ctx) (o : SwOp) : SwM SwatchParams := do
  if o.b % 8 ≠ 0 then throw (.fault o.b)
  let b ← swRead cx o.b 32
  return { p := o.a, salts := (List.range 4).map (fun i => BitVec.ofNat 64 (ofBytes ((b.drop (8 * i)).take 8))) }

/-! ### Completion (R153, R262, R467) -/

def setSw (core : Nat) (o : SwOp) (s : State) : State := s.modCore core (fun k => { k with swq := o :: k.swq.drop 1 })

/-- A request of the head to another device. -/
def sendSw (core : Nat) (o : SwOp) (kind : RemoteKind) (va pod ia n : Nat) (data : List Byte) (did : Nat) (s : State) : State :=
  newRequest { dev := (s.ctx o.owner.ctx).dev, pod := pod, ctx := o.owner.ctx, for_ := .swatch core va did, seq := 0, kind := kind
               ia := ia, size := n, data := data, swatch := true, incarn := 0#8, since := 0 } s

/-- The writes of a run to other devices sent, oldest first. -/
def sendPuts (core : Nat) (o : SwOp) (l : List (Nat × List Byte × Nat)) (s : State) : State :=
  l.reverse.foldl (fun acc (w : Nat × List Byte × Nat) =>
    match vaAt (acc.ctx o.owner.ctx) w.1 w.2.1.length true with
    | .remote pod ia => sendSw core o .write w.1 pod ia w.2.1.length w.2.1 w.2.2 acc
    | _ => acc) s

/-- LINK_OP_FAULT (R262). -/
def linkFault (o : SwOp) (va : Nat) (s : State) : State :=
  s.post o.owner.ctx { name := o.owner.name, pc := o.pc, code := cLinkOpFault, cls := va }

/-- The status of a failure at another device. -/
def statusOfPeer (code : Nat) : Nat := if code = cTargetUnavailable then 5 else if code = cPeerReset then 6 else 4

/-- The operation leaves the queue, its status on its way. -/
def popSw (core : Nat) (o : SwOp) (v : Nat) (s : State) : State :=
  let s1 := s.modCore core (fun k => { k with swq := k.swq.drop 1 })
  let s2 := match o.result, ownerCourse s1 o.owner with
    | some id, some _ =>
      { s1 with arrivals := Tab.put s1.arrivals id { course := o.owner.course, lanes := o.act, words := 1, vals := vconst 32 v } }
    | _, _ => s1
  reapTeam o.owner.team (fencesOf core (engineEnd core o.owner.launch s2))

/-- The operation over with a status, a count, and for status 4 the failing address. -/
def finishSw (core : Nat) (o : SwOp) (st count va : Nat) (s : State) : State :=
  popSw core o (st + 2 ^ 8 * (count % 2 ^ 24)) (if st = 4 then linkFault o va s else s)

/-- The head where its bytes have been computed and every request has been answered: it is over, unless its notice is still
to be accepted (R258). -/
def settleSw (core : Nat) (s : State) : State :=
  match (s.core core).swq with
  | [] => s
  | o :: _ =>
    match o.fate with
    | none => s
    | some (st, count, va) =>
      if o.out != 0 then s
      else match o.bad with
      | some (code, bva, did) => finishSw core o (statusOfPeer code) (min did count) bva s
      | none =>
        if st = 0 && o.notice then
          match o.note with
          | some (some ok) => finishSw core o (if ok then 0 else 8) count 0 s
          | _ => s
        else finishSw core o st count va s

/-- A swatch parameter set put in place for the course and for its queued operations (R255). -/
def setParams (core : Nat) (o : SwOp) (q : Option SwatchParams) (s : State) : State :=
  (modOwner o.owner (fun co => { co with swatch := q }) s).modCore core (fun k => { k with swq := k.swq.map (fun y =>
    if y.fence.isNone && y.owner.course == o.owner.course && y.owner.name == o.owner.name then { y with params := q } else y) })

/-- SWSIZE at the head. -/
def stepSize (core : Nat) (o : SwOp) (s : State) : State :=
  let cx := s.ctx o.owner.ctx
  let fail := fun (va : Nat) (t : State) => popSw core o 0 (setParams core o none (linkFault o va t))
  match o.bad with
  | some (_, va, _) => fail va s
  | none =>
    match (runSalts cx o).run { s := s, got := o.got } with
    | (.ok q, r) => popSw core o 0 (setParams core o (some q) r.s)
    | (.error (.need va pod ia n did), _) => sendSw core o .read va pod ia n [] did (setSw core { o with out := 1 } s)
    | (.error (.fault va), r) => fail va r.s
    | (.error _, _) => s

/-- Another operation at the head, its bytes still to be computed. It runs until it needs bytes of another device, and again from
its beginning once it has them: nothing that it writes is in memory before it has them all, or before the read of some of them has
failed; then what it did before that read is in memory, and its count says so (R262, R467). -/
def stepSw (core : Nat) (o : SwOp) (q : SwatchParams) (s : State) : State :=
  let close := fun (r : SwRun) (st va : Nat) =>
    settleSw core (sendPuts core o r.puts (setSw core { o with out := r.puts.length, bad := none, fate := some (st, r.did, va) } r.s))
  match (runSwatch { core := core, cx := s.ctx o.owner.ctx, q := q } o).run { s := s, got := o.got }, o.bad with
    | (.ok (), r), _ => close r 0 0
    | (.error (.need _ _ _ _ _), r), some (code, bva, _) => close r (statusOfPeer code) bva
    | (.error (.need va pod ia n did), _), none => sendSw core o .read va pod ia n [] did (setSw core { o with out := 1 } s)
    | (.error .wait, _), _ => s
    | (.error (.fault va), r), _ => close r 4 va
    | (.error (.status st), r), _ => close r st 0

/-- SWATCH_OP_COMPLETE (R262): as much of the operation at the head of the queue as can be performed. -/
def execSwatchOpComplete (core : Nat) (s : State) : Out :=
  match (s.core core).swq with
  | [] => .next s
  | o :: _ =>
    if o.fence.isSome || o.out != 0 then .next s
    else if o.fate.isSome then .next (settleSw core s)
    else if swOpcode o = 0x1C4#9 then .next (stepSize core o s)
    else match o.params with
      | none => .next (finishSw core o 7 0 0 s)
      | some q => .next (stepSw core o q s)

/-- The head waits for its notice to be sent. -/
def noticeDue (s : State) (core : Nat) : Bool :=
  match (s.core core).swq with
  | [] => false
  | o :: _ => o.notice && o.out == 0 && o.bad.isNone && o.note.isNone && (o.fate.map Prod.fst) == some 0

/-- SWSEND_NOTICE (R258): every cell has been performed, and the RSTV of the notice is sent. -/
def execSwsendNotice (core : Nat) (s : State) : Out :=
  match (s.core core).swq with
  | [] => .next s
  | o :: _ =>
    if noticeDue s core then
      let m := ((o.params.map SwatchParams.m).getD 0)
      let s1 := modOwner o.owner (fun co => { co with rstvOut := co.rstvOut + 1 }) (setSw core { o with note := some none } s)
      .next (sendRstv o.owner core (BitVec.ofNat 64 o.c) (bitsOf o.word.toNat 0 6) (laneWords (fun l => if l = 0 then m else 0)) true s1)
    else .next s

/-- SWATCH_OP_COMPLETE would change the head of a core's queue. -/
def swatchDue (s : State) (core : Nat) : Bool :=
  match (s.core core).swq with
  | [] => false
  | o :: _ =>
    o.fence.isNone && o.out == 0 && match o.fate, o.params with
      | some (st, _, _), _ => o.bad.isSome || st != 0 || !o.notice || (o.note.bind id).isSome
      | none, none => true
      | none, some q =>
        swOpcode o == 0x1C4#9 ||
          !((runSwatch { core := core, cx := s.ctx o.owner.ctx, q := q } o).run { s := s, got := o.got }).1 matches .error .wait

end Sys2Proof.Machine
end

