-- ==== Sys2Proof/Machine/Collective.lean ====
section
/-! DEFINITION. The collectives of the link engine (R250 to R254). The contributions of ranks in other packages, and the order
in which the fabric combines, are arguments of the completion; so is everything of a group whose devices no one has given. -/

namespace Sys2Proof.Machine

/-! ### At issue (R251, R253) -/

/-- COLL: a release at pod; the sequence number is full at once. -/
def execColl (w : FWord) (s : State) : Out :=
  let ref := numRef w 0 true
  engineValue w 1 [ref]
    (fun x act t => Verdict.all [lowAlign act (ref.at_ x act t) 64, engineWait x t, Verdict.waitIf (64 ≤ x.co.colls.length),
      releaseLimit x])
    (fun x _ _ => x.co.collNext)
    (fun x act t =>
      let o : CollOp := { owner := ownerOfWord x t, num := x.co.collNext, desc := ref.low x act t, pc := x.sd.pc
                          formats := (x.ctx t).formats }
      ((t.release x.c).modCourse x.c (fun co => { co with
        collNext := (co.collNext + 1) % 2 ^ 16
        colls := co.colls ++ [o.num] })).modCore (coreOf x.c) (fun k => { k with collq := k.collq ++ [{ o with stamp := s.pkgTime }] })) s

/-- COLLW: an acquire at pod. -/
def execCollw (w : FWord) (s : State) : Out :=
  engineWord w [] (fun x _ _ => Verdict.waitIf (w.fld 0 8 < x.co.colls.length)) (fun x _ t => t.acquire x.c 5) s

/-! ### The descriptor (R250) -/

structure CollDesc where
  src    : Nat
  dst    : Nat
  count  : Nat
  op     : Nat
  red    : Nat
  etype  : Nat
  freg   : Nat
  wcode  : Nat
  win    : Bool
  group  : Nat
  rank   : Nat
  sscale : Nat
  dscale : Nat
  /-- a reserved code or field -/
  bad    : Bool
  deriving DecidableEq, Repr

def CollDesc.ofBytes (b : List Byte) : CollDesc :=
  let f := fun off n => Machine.ofBytes ((b.drop off).take n)
  { src := f 0 8
    dst := f 8 8
    count := f 16 4
    op := f 20 1 % 8
    red := bitsOf (f 20 1) 3 2
    etype := f 21 1
    freg := f 22 1 % 32
    wcode := f 23 1 % 8
    win := bitOf (f 23 1) 3
    group := f 24 2
    rank := f 26 2
    sscale := f 32 8
    dscale := f 40 8
    bad := 3 < f 20 1 % 8 || bitsOf (f 20 1) 3 2 == 3 || bitsOf (f 20 1) 5 3 != 0 || 4 < f 21 1 || bitsOf (f 22 1) 5 3 != 0
      || bitsOf (f 23 1) 4 4 != 0 || 255 < f 24 2 || f 28 4 != 0 || f 48 8 != 0 }

def CollDesc.reduces (d : CollDesc) : Bool := d.op < 2

/-- The elements of a collective: their format, and for narrow ones the descriptor of it. -/
def CollDesc.format (d : CollDesc) (fd : DWord) : Fmt :=
  match d.etype with
  | 0 => .f32
  | 1 => .bf16
  | 2 => .f16
  | 3 => fdFmt fd
  | _ => .int true 32

/-- Block length of the scales, 0 for none. -/
def CollDesc.blk (d : CollDesc) (fd : DWord) : Nat := if d.etype = 3 && fdScaleCode fd != 0 then fdBlk fd else 0

def ceilDiv (a b : Nat) : Nat := if b = 0 then 0 else (a + b - 1) / b

/-! ### Combining (R252) -/

/-- The larger or the smaller of two values, −0 below +0; of a number and a NaN the number (R308). -/
def pickXV (big : Bool) (a b : XV) : XV :=
  if a.isNan then b
  else if b.isNan then a
  else
    let c0 := a.cmp b
    let c := if c0 = 0 then cmpInt (if a.isNeg then 0 else 1) (if b.isNeg then 0 else 1) else c0
    if big then (if 0 ≤ c then a else b) else (if c ≤ 0 then a else b)

/-- One FP32 addition, rounded by RNE. -/
def addF32 (a b : XV) : XV × FpFlags :=
  let v := a.add false b
  let r := roundTo v .f32 0 false 0
  (decodeF .f32 r.1, r.2 ||| (if v.isNan && !a.isNan && !b.isNan then flInvalid else 0#6))

/-- One combination of two contributions. -/
def combine (red : Nat) (a b : XV) : XV × FpFlags :=
  match red with
  | 0 => addF32 a b
  | 1 => (pickXV true a b, 0#6)
  | _ => (pickXV false a b, 0#6)

/-- Combinations in the order the fabric makes them, then whatever is left, by rank. -/
def combineIn (red : Nat) : List (Nat × Nat) → Tab XV → FpFlags → Tab XV × FpFlags
  | [], t, fl => (t, fl)
  | (i, j) :: rest, t, fl =>
    match Tab.find t i, Tab.find t j with
    | some a, some b =>
      if i = j then combineIn red rest t fl
      else
        let r := combine red a b
        combineIn red rest (Tab.put (Tab.del t j) i r.1) (fl ||| r.2)
    | _, _ => combineIn red rest t fl

def reduceOrdered (red : Nat) (order : List (Nat × Nat)) (l : List XV) : XV × FpFlags :=
  let r := combineIn red order (l.zipIdx.map (fun (e : XV × Nat) => (e.2, e.1))) 0#6
  match Tab.vals r.1 with
  | [] => (.zero false, r.2)
  | a :: t => t.foldl (fun (acc : XV × FpFlags) x => let c := combine red acc.1 x; (c.1, acc.2 ||| c.2)) (a, r.2)

/-- The reduced value of one element: by the windowed procedure, or by combinations. -/
def reduceElem (d : CollDesc) (order : List (Nat × Nat)) (l : List XV) : XV × FpFlags :=
  if d.red = 0 && d.win then
    let v := (windowDot l (windowBits d.wcode)).1
    let r := roundOnce v .f32
    (decodeF .f32 r.1, r.2 ||| (if v.isNan && !l.any XV.isNan then flInvalid else 0#6))
  else reduceOrdered d.red order l

/-! ### Element k of the contributions -/

/-- A contribution as elements and block scales. -/
structure Contrib where
  elems  : List Nat
  scales : List Nat
  deriving DecidableEq, Repr

def contribOf (w count : Nat) (b : List Byte × List Byte) : Contrib :=
  { elems := elemsOf w count (ofBytes b.1), scales := b.2.map BitVec.toNat }

/-- The exact value of a contribution's element, with BADSC. -/
def contribElem (d : CollDesc) (fd : DWord) (c : Contrib) (k : Nat) : XV × Bool :=
  let x := c.elems.getD k 0
  if d.blk fd = 0 then (decodeF (d.format fd) x, false)
  else match scaledElem (d.format fd) (fdScale fd) x (c.scales.getD (k / d.blk fd) 0) with
    | some v => (v, false)
    | none => (.qnan, true)

/-- FAILINFO [16] to [18] of a set of flags. -/
def failFlags (fl : FpFlags) (badsc : Bool) : Nat :=
  (if fl &&& flInvalid != 0#6 then 2 ^ 16 else 0) + (if fl &&& flOverflow != 0#6 then 2 ^ 17 else 0) + (if badsc then 2 ^ 18 else 0)

/-- The rounding of one reduced value to the element format, under a block's scale where there is one. -/
def collCode (d : CollDesc) (fd : DWord) (sb : Option Nat) (x : XV) : Nat × FpFlags :=
  match sb with
  | none => roundTo x (d.format fd) 0 false 0
  | some b => match scaleValue (fdScale fd) b with
    | none => roundTo .qnan (d.format fd) 0 false 0
    | some q =>
      if q.isZero then (0, 0#6)
      else roundTo (match x with
        | .fin y => .fin (y.div q)
        | y => y) (d.format fd) 0 false 0

/-- A contribution of a reduction is a signalling NaN (R264). -/
def contribSnan (d : CollDesc) (fd : DWord) (c : Contrib) (k : Nat) : Bool := (decodeF (d.format fd) (c.elems.getD k 0)).isSnan

/-- The reduced elements from first on, as codes and block scales, with FAILINFO's flags. -/
def reduceAll (d : CollDesc) (fd : DWord) (order : List (List (Nat × Nat))) (cs : List Contrib) (first n : Nat) :
    List Nat × List Nat × Nat :=
  let vals := (List.range n).map (fun k =>
    let l := cs.map (fun c => contribElem d fd c (first + k))
    let r := reduceElem d (order.getD (first + k) []) (l.map Prod.fst)
    (r.1, r.2 ||| (if cs.any (fun c => contribSnan d fd c (first + k)) then flInvalid else 0#6), l.any Prod.snd))
  let blk := d.blk fd
  let scales := (List.range (ceilDiv n blk)).map (fun i =>
    (blockScale fd (((vals.map (fun (v : XV × FpFlags × Bool) => v.1)).drop (blk * i)).take blk)).1)
  let codes := vals.zipIdx.map (fun (e : (XV × FpFlags × Bool) × Nat) =>
    collCode d fd (if blk = 0 then none else some (scales.getD (e.2 / blk) 0)) e.1.1)
  let fl := vals.foldl (fun (acc : FpFlags) (v : XV × FpFlags × Bool) => acc ||| v.2.1) 0#6
  let fl2 := codes.foldl (fun (acc : FpFlags) (c : Nat × FpFlags) => acc ||| c.2) fl
  (codes.map Prod.fst, scales, failFlags fl2 (vals.any (fun (v : XV × FpFlags × Bool) => v.2.2)))

/-- What rank r receives (R251): elements, block scales, and FAILINFO's flags. -/
def collResult (d : CollDesc) (fd : DWord) (order : List (List (Nat × Nat))) (cs : List Contrib) : List Nat × List Nat × Nat :=
  let part := d.count / cs.length
  let blk := d.blk fd
  match d.op with
  | 0 => reduceAll d fd order cs 0 d.count
  | 1 => reduceAll d fd order cs (d.rank * part) part
  | 2 => (cs.flatMap (fun c => (List.range d.count).map (fun k => c.elems.getD k 0)),
      cs.flatMap (fun c => (List.range (ceilDiv d.count blk)).map (fun k => c.scales.getD k 0)), 0)
  | _ => (cs.flatMap (fun c => (List.range part).map (fun k => c.elems.getD (d.rank * part + k) 0)),
      cs.flatMap (fun c => (List.range (ceilDiv part blk)).map (fun k => c.scales.getD (d.rank * part / blk + k) 0)), 0)

/-- STATUS 3: a reserved code, a count the ranks do not divide, or a rank that the group does not have. -/
def collBad (d : CollDesc) (ranks : Nat) : Bool :=
  d.bad || ranks ≤ d.rank || (d.op % 2 == 1 && d.count % ranks != 0) || (d.reduces && d.win && d.wcode == 7)

/-! ### COLLECTIVE_COMPLETE (R252 to R254) -/

/-- Bytes of the descriptor, a source or a destination. -/
def collRead (cx : Ctx) (va n : Nat) (s : State) : State × Option (List Byte) :=
  if n = 0 then (s, some [])
  else match vaAt cx va n false with
    | .local_ ia => match homeRead cx (byPage ia n) s with
      | (s1, .ok (b, _)) => (s1, some b)
      | (s1, .error _) => (s1, none)
    | _ => (s, none)

def collWrite (core : Nat) (cx : Ctx) (va : Nat) (b : List Byte) (s : State) : State × Bool :=
  if b.isEmpty then (s, true)
  else match vaAt cx va b.length true with
    | .local_ ia => match homeWrite core cx false (byPage ia b.length) b s with
      | (s1, none) => (s1, true)
      | (s1, some _) => (s1, false)
    | _ => (s, false)

/-- The collective finished at this rank: STATUS and FAILINFO written, its record, its number no longer waited for. -/
def finishColl (core : Nat) (o : CollOp) (status info : Nat) (s : State) : State :=
  let s1 := (collWrite core (s.ctx o.owner.ctx) (o.desc + 56) (toBytes 4 status ++ toBytes 4 info) (engineEnd core o.owner.launch s)).1
  let s2 := if status = 2 then s1.post o.owner.ctx { name := o.owner.name, pc := o.pc, code := cCollFail } else s1
  let s3 := modOwner o.owner (fun co => { co with colls := co.colls.filter (· != o.num) }) s2
  reapTeam o.owner.team (fencesOf core (s3.modCore core (fun k => { k with collq := k.collq.drop 1 })))

/-- This rank's own contribution, read from its memory; none where a byte cannot be reached. -/
def ownContrib (o : CollOp) (d : CollDesc) (s : State) : State × Option (List Byte × List Byte) :=
  let cx := s.ctx o.owner.ctx
  let fd := vget o.formats 4#64 d.freg
  match collRead cx d.src (ceilDiv (d.count * (d.format fd).width) 8) s with
  | (s1, none) => (s1, none)
  | (s1, some b) =>
    match collRead cx d.sscale (ceilDiv d.count (d.blk fd)) s1 with
    | (s2, none) => (s2, none)
    | (s2, some sc) => (s2, some (b, sc))

/-- The result computed and written: STATUS and FAILINFO. -/
def writeColl (core : Nat) (o : CollOp) (order : List (List (Nat × Nat))) (cs : List (List Byte × List Byte)) (d : CollDesc)
    (s : State) : State × Nat × Nat :=
  let cx := s.ctx o.owner.ctx
  let fd := vget o.formats 4#64 d.freg
  let w := (d.format fd).width
  let (elems, scales, info) := collResult d fd order (cs.map (contribOf w d.count))
  match collWrite core cx d.dst (toBytes (ceilDiv (elems.length * w) 8) (joinElems w elems)) s with
  | (s1, false) => (s1, 4, 0)
  | (s1, true) =>
    match collWrite core cx d.dscale (scales.map (BitVec.ofNat 8)) s1 with
    | (s2, true) => (s2, 1, info)
    | (s2, false) => (s2, 4, 0)

/-- Bytes that a collective at a rank reads or writes wait. -/
def collHeld (s : State) (o : CollOp) (d : CollDesc) (ranks : Nat) : Bool :=
  let fd := vget o.formats 4#64 d.freg
  let n := fun (count : Nat) => ceilDiv (count * (d.format fd).width) 8
  let out := if d.op = 2 then d.count * ranks else if d.op = 1 then d.count / max ranks 1 else d.count
  vaHeld s o.owner.ctx d.src (n d.count) false || vaHeld s o.owner.ctx d.dst (n out) true
    || (d.blk fd != 0 && (vaHeld s o.owner.ctx d.sscale (ceilDiv d.count (d.blk fd)) false
      || vaHeld s o.owner.ctx d.dscale (ceilDiv out (d.blk fd)) true))

/-- The contributions with this rank's own. -/
def performColl (core : Nat) (o : CollOp) (r : CollReply) (d : CollDesc) (s : State) : State :=
  match ownContrib o d s with
  | (s1, none) => finishColl core o 4 0 s1
  | (s1, some own) =>
    let e := writeColl core o r.order (r.contribs.set d.rank own) d s1
    finishColl core o e.2.1 e.2.2 e.1

/-! ### Groups whose devices are known (R250, R254) -/

/-- How many collectives of a group a rank has finished. -/
def collNum (s : State) (g rank : Nat) : Nat := Tab.getD s.collNums 0 (65536 * g + rank)

/-- The collective at the head of a core's queue with its descriptor. -/
def collHead (s : State) (core : Nat) : Option (CollOp × CollDesc) :=
  match (s.core core).collq with
  | o :: _ =>
    if o.fence.isSome then none
    else ((collRead (s.ctx o.owner.ctx) o.desc 64 s).2).map (fun b => (o, CollDesc.ofBytes b))
  | [] => none

/-- The rank of a group, on a device of the package, whose next collective stands at the head of a queue. -/
def collPeer (s : State) (g num rank dev : Nat) : Option (CollOp × CollDesc) :=
  (s.cores.filterMap (fun e => collHead s e.1)).find? (fun e =>
    collGroup s e.1 == g && (s.ctx e.1.owner.ctx).dev == dev && e.2.rank == rank && collNum s g rank == num)

/-- Two ranks' descriptors describe one collective. -/
def CollDesc.agrees (a b : CollDesc) : Bool :=
  a.count == b.count && a.op == b.op && a.red == b.red && a.etype == b.etype && a.wcode == b.wcode && a.win == b.win
    && a.group == b.group

/-- What rank j brings to a collective. -/
inductive RankPart where
  | have_ (c : List Byte × List Byte)
  | mismatch
  | failed
  | wait
  deriving DecidableEq, Repr

/-- What has come from a rank of another package, where it is whole. -/
def CollSet.received (t : CollSet) (o : CollOp) (d : CollDesc) (rank : Nat) : Option (List Byte × List Byte) :=
  let fd := vget o.formats 4#64 d.freg
  match Tab.find t.inbox rank with
  | some (b, sc) =>
    if b.length = ceilDiv (d.count * (d.format fd).width) 8 && sc.length = ceilDiv d.count (d.blk fd) then some (b, sc) else none
  | none => none

/-- The part of a rank: known already, read at a device of the package whose rank has come to it, or brought by the fabric; a
rank of another package whose device is lost has failed. -/
def rankPart (s : State) (dev g : Nat) (o : CollOp) (d : CollDesc) (t : CollSet) (r : CollReply) (e : Nat × Nat) : RankPart :=
  match Tab.find t.contribs e.2 with
  | some c => .have_ c
  | none => match s.devOfPod e.1 with
    | some y =>
      match collPeer s g t.num e.2 y with
      | none => .wait
      | some (o2, d2) =>
        if !(d.agrees d2) then .mismatch
        else match (ownContrib o2 d2 s).2 with
          | some c => .have_ c
          | none => .failed
    | none =>
      if peerFenced s dev e.1 || o.lost == some e.2 || r.failed == some e.2 then .failed
      else match t.received o d e.2, r.contribs[e.2]? with
        | some c, _ => .have_ c
        | none, some c => .have_ c
        | none, none => .wait

/-- The set of a group's collective, with the parts that ranks have brought. -/
def withParts (parts : List (Nat × RankPart)) (t : CollSet) : CollSet :=
  { t with
    contribs := parts.foldl (fun m e => match e.2 with
      | .have_ c => Tab.put m e.1 c
      | _ => m) t.contribs
    mismatch := t.mismatch || parts.any (fun e => e.2 == .mismatch)
    failed := match t.failed with
      | some k => some k
      | none => (parts.find? (fun e => e.2 == .failed)).map Prod.fst }

/-- Ranks of the package whose result could not be written at its destination (R254). -/
def faultyRank (s : State) (g : Nat) (u : CollSet) (order : List (List (Nat × Nat))) (l : List Nat) : Option Nat :=
  (l.zipIdx.find? (fun e => match (s.devOfPod e.1).bind (collPeer s g u.num e.2) with
    | some (o, d) => (writeColl 0 o order (Tab.vals u.contribs) d s).2.1 = 4
    | none => false)).map Prod.snd

/-- What a rank brings leaves for the ranks of other packages, in write messages of at most 256 bytes (R228). -/
def sendPart (dev : Nat) (l : List Nat) (g num rank : Nat) (c : List Byte × List Byte) (s : State) : State :=
  let pieces := fun (scales : Bool) (b : List Byte) =>
    (List.range (ceilDiv b.length 256)).map (fun i => FlitBody.collPart g num rank scales ((b.drop (256 * i)).take 256))
  (l.filter (fun p => (s.devOfPod p).isNone)).foldl (fun acc p =>
    (pieces false c.1 ++ pieces true c.2).foldl (fun t b => sendFlit dev p b t) acc) s

/-- A piece of what a rank of another package brings, behind those before it. -/
def takePart (g num rank : Nat) (scales : Bool) (b : List Byte) (s : State) : State :=
  let t := (s.collSets.find? (fun y => y.group == g && y.num == num)).getD { group := g, num := num }
  let old := Tab.getD t.inbox ([], []) rank
  let new := if scales then (old.1, old.2 ++ b) else (old.1 ++ b, old.2)
  { s with collSets := { t with inbox := Tab.put t.inbox rank new } :: s.collSets.filter (fun y => !(y.group == g && y.num == num)) }

/-- A rank has finished the collective of its set: it counts, and the set ends with the last rank of the package. -/
def endPart (g rank : Nat) (local_ : List Nat) (t : CollSet) (s : State) : State :=
  let u := { t with ended := rank :: t.ended }
  let rest := s.collSets.filter (fun y => !(y.group == g && y.num == t.num))
  { s with
    collNums := Tab.put s.collNums (65536 * g + rank) (t.num + 1)
    collSets := if local_.all (fun k => u.ended.contains k) then rest else u :: rest }

/-- A collective of a known group at one rank: nothing, while a rank has not come to it. -/
def groupColl (core : Nat) (o : CollOp) (d : CollDesc) (l : List Nat) (r : CollReply) (s : State) : State :=
  let dev := (s.ctx o.owner.ctx).dev
  let g := collGroup s o
  let num := collNum s g d.rank
  let t := (s.collSets.find? (fun y => y.group == g && y.num == num)).getD { group := g, num := num }
  let parts := l.zipIdx.map (fun e => (e.2, rankPart s dev g o d t r e))
  let u := withParts parts t
  let local_ := (l.zipIdx.filter (fun e => (s.devOfPod e.1).isSome)).map Prod.snd
  let bad := u.mismatch || r.mismatch || collBad d l.length || l.getD d.rank 4096 != podOf s dev
  if bad then finishColl core o 3 0 (endPart g d.rank local_ { u with mismatch := true } s)
  else match u.failed with
    | some k => finishColl core o (if k = d.rank then 4 else 2) (if k = d.rank then 0 else k) (endPart g d.rank local_ u s)
    | none =>
      if parts.any (fun e => e.2 == .wait) then s
      else match if u.ended.isEmpty then faultyRank s g u r.order l else none with
        | some k =>
          finishColl core o (if k = d.rank then 4 else 2) (if k = d.rank then 0 else k) (endPart g d.rank local_ { u with failed := some k } s)
        | none =>
          let e := writeColl core o r.order (Tab.vals u.contribs) d s
          finishColl core o e.2.1 e.2.2 (endPart g d.rank local_ u e.1)

/-- The collective at the head of a core's queue has sent what it brings to the ranks of other packages. -/
def sendHead (core : Nat) (o : CollOp) (d : CollDesc) (l : List Nat) (s : State) : State :=
  let g := collGroup s o
  match (ownContrib o d s).2 with
  | none => s
  | some c =>
    let s1 := s.modCore core (fun k => { k with collq := { o with sent := true } :: k.collq.drop 1 })
    sendPart (s.ctx o.owner.ctx).dev l g (collNum s g d.rank) d.rank c s1

/-- It has still to send it. -/
def mustSend (s : State) (o : CollOp) (d : CollDesc) (l : List Nat) : Bool :=
  !o.sent && l.any (fun p => (s.devOfPod p).isNone) && !(collBad d l.length) && (ownContrib o d s).2.isSome

/-- COLLECTIVE_COMPLETE: the collective at the head of a core's queue, with what the fabric delivers for it. A descriptor that cannot
be read names no group, so that no other rank learns of its fault (DESIGN CHOICE, notes/assumptions/34.md). -/
def execCollectiveComplete (core : Nat) (r : CollReply) (s : State) : Out :=
  match (s.core core).collq with
  | [] => .next s
  | o :: _ =>
    if o.fence.isSome || vaHeld s o.owner.ctx o.desc 64 true then .next s
    else match collRead (s.ctx o.owner.ctx) o.desc 64 s with
      | (s1, none) => .next (finishColl core o 4 0 s1)
      | (s1, some b) =>
        let d := CollDesc.ofBytes b
        let l := Tab.getD (s.dev (s.ctx o.owner.ctx).dev).groupDevs [] (collGroup s o)
        if collHeld s1 o d (if l.isEmpty then r.contribs.length else l.length) then .next s
        else if !l.isEmpty then .next (if mustSend s1 o d l then sendHead core o d l s1 else groupColl core o d l r s1)
        else if r.mismatch || collBad d r.contribs.length then .next (finishColl core o 3 0 s1)
        else match r.failed with
          | some k => .next (finishColl core o 2 (k % 2 ^ 16) s1)
          | none => .next (performColl core o r d s1)

/-- What the fabric delivers to a group that lies within the package: nothing. -/
def noReply : CollReply := { contribs := [], order := [], failed := none, mismatch := false }

/-- The collective at the head of a core's queue can finish without anything from another package. -/
def collDue (s : State) (core : Nat) : Bool :=
  match collHead s core with
  | none => false
  | some (o, d) =>
    let l := Tab.getD (s.dev (s.ctx o.owner.ctx).dev).groupDevs [] (collGroup s o)
    !l.isEmpty && !(vaHeld s o.owner.ctx o.desc 64 true) && !(collHeld s o d l.length)
      && (mustSend s o d l || groupColl core o d l noReply s != s)

end Sys2Proof.Machine
end

