-- ==== Sys2Proof/Machine/Image.lean ====
section
/-! DEFINITION. A course record (R392, R416): the bytes a save writes, and what a restore reads back. Where R392 names the
contents of a part and not the place of each of them, the place is the model's (DESIGN CHOICE, notes/assumptions/40.md). -/

namespace Sys2Proof.Machine

/-! ### Writing (R392) -/

/-- A bit array word: bit l from lane l. -/
def maskBytes (f : Nat → Bool) : List Byte := toBytes 4 (maskOf f).toNat

/-- The header, with the check field as given: name, team record address, strands, flags, counts, and call-stack range
indices. -/
def headerBytes (co : Course) (teamRec : DWord) (cpys check : Nat) : List Byte :=
  let idx := (List.range 256).foldr (fun i acc =>
    8 * acc + (((vget co.calls [] (i / 8)).reverse.map Prod.snd).getD (i % 8) 0) % 8) 0
  toBytes 8 co.name.toNat ++ toBytes 8 teamRec.toNat ++ toBytes 4 ((co.liveStrands.map (fun i => 2 ^ i)).sum)
    ++ toBytes 4 ((if co.replay.isEmpty then 0 else 1) + (if co.remoteFail.isSome then 2 else 0) + (if co.halted.isSome then 4 else 0))
    ++ toBytes 6 co.relCount ++ toBytes 2 co.remat.length ++ toBytes 4 cpys ++ toBytes 4 check ++ toBytes 96 idx ++ toBytes 120 0

/-- The CRC-32C of a header: over its bytes with the check field zero. -/
def headerCheck (b : List Byte) : Nat := crc32c (b.take 36 ++ toBytes 4 0 ++ b.drop 40)

def headerOf (co : Course) (teamRec : DWord) (cpys : Nat) : List Byte :=
  headerBytes co teamRec cpys (headerCheck (headerBytes co teamRec cpys 0))

def deferBytes (d : Defer) : List Byte :=
  toBytes 8 d.join.toNat ++ toBytes 8 d.addr.toNat ++ toBytes 4 d.mask.toNat ++ toBytes 4 d.parked.toNat

def atJoin (y : Strand) : Bool :=
  match y.wait with
  | .joinAddr _ => true
  | _ => false

/-- A strand-table entry. -/
def strandBytes (y : Strand) : List Byte :=
  let ds := y.dstack.reverse
  let phases := (ds.zipIdx.map (fun (e : Defer × Nat) => if e.1.phase2 then 4 * 2 ^ e.2 else 0)).sum
  toBytes 8 y.pc.toNat ++ toBytes 8 (y.join.getD 0#64).toNat ++ toBytes 4 y.mask.toNat ++ toBytes 1 y.depth ++ toBytes 1 y.repi
    ++ toBytes 1 ds.length ++ toBytes 1 0
    ++ toBytes 4 ((if y.live then 1 else 0) + (if atJoin y then 2 else 0) + phases + (if y.inBar.isSome then 64 else 0))
    ++ toBytes 4 0 ++ (ds ++ List.replicate (4 - ds.length) ({ join := 0#64, addr := 0#64, mask := 0#32 } : Defer)).flatMap deferBytes

/-- The special registers of a course in R98 order. -/
def specialBytes (s : State) (c : Nat) (co : Course) : List Byte :=
  let x : At := { c := c, st := 0, co := co, sd := { level := 0 } }
  ([0, 1, 2, 3, 4, 5, 6].flatMap (fun n => toBytes 4 (sregValue x s n))) ++ toBytes 36 0

def gBits (co : Course) (f : GReg → Bool) : List Byte :=
  (vlist co.strands).flatMap (fun y => maskBytes (fun n => f (vget y.g {} n)))

def qBits (co : Course) (f : Entry → Bool) : List Byte :=
  (vlist co.strands).flatMap (fun y => (List.range 16).flatMap (fun n => maskBytes (fun l => f (y.queueAt l n))))

def vBits (co : Course) (f : Entry → Bool) : List Byte :=
  (List.range 64).flatMap (fun n => maskBytes (fun l => f (co.vAt n l)))

def callBytes (co : Course) : List Byte :=
  (List.range 32).flatMap (fun l =>
    let e := (vget co.calls [] l).reverse
    (List.range 8).flatMap (fun i => toBytes 4 ((e.map (fun y => y.1.toNat)).getD i 0)))

/-- Barrier arrival state in normalised form (R400). -/
def arrBytes (s : State) (c : Nat) (co : Course) : List Byte :=
  let t := s.team co.team
  let held := fun (i : Nat) =>
    if i < 32 then decide (i < (t.map Team.nbars).getD 0)
    else if i < 48 then i - 32 < ((t.bind Team.panel).bind (Tab.find s.panels)).elim 0 (fun p => (p.shape.panel.map (fun e => e.2.2)).getD 0)
    else (vget s.podBars {} (i - 48)).granted.contains co.ctx
  let ref := fun (i : Nat) => if i < 32 then BarRef.core i else if i < 48 then .panel (i - 32) else .pod (i - 48)
  (List.range 52).flatMap (fun i =>
    toBytes 2 (if held i then (if pendingAt s c (ref i) then 1 else 0) + 2 * (barOf s c (ref i)).phase else 0)) ++ toBytes 152 0

/-- The batch part (R416). -/
def batchBytes (co : Course) : List Byte :=
  let open_ := ((co.batches.filter (fun b => b.closed && !b.finished)).getLast?).map Batch.num
  toBytes 4 co.openNum ++ toBytes 4 (open_.getD 0xFFFFFFFF)
    ++ (co.failMem.reverse.flatMap (fun e => toBytes 4 e.1 ++ toBytes 4 e.2))
    ++ toBytes (128 - 8 * co.failMem.length) 0 ++ toBytes 120 0

/-- The CPY records of the channel lists, in their order. -/
def cpysOf (chans : Vector (List ChanItem) 8) : List Record :=
  (vlist chans).flatMap (fun l => l.filterMap (fun i => match i with
    | .copy r => if r.at_.isNone then some r else none
    | _ => none))

/-- A CPY record in the layout of R194. -/
def cpyBytes (r : Record) : List Byte :=
  toBytes 8 0 ++ toBytes 4 (1 + (if r.waitFe then 2 else 0) + 16 * r.skind + 256 * r.dkind + 4096 * r.xform) ++ toBytes 4 r.length
    ++ toBytes 8 r.src.toNat ++ toBytes 8 r.dst.toNat ++ toBytes 4 r.rows ++ toBytes 4 (wrap 32 r.sstride) ++ toBytes 4 r.drows
    ++ toBytes 4 (wrap 32 r.dstride) ++ toBytes 8 r.xparam.toNat ++ toBytes 2 r.batch ++ toBytes 6 0

/-- The items of a channel: a chain position; a CPY record by index with [63]; a suspended record with [62], then its first
unmoved byte. A codebook load has no form in R392. -/
def itemWords (cpys : List Record) : List ChanItem → List Nat
  | [] => []
  | .chain _ _ next _ :: t => if next = 0 then itemWords cpys t else next :: itemWords cpys t
  | .copy r :: t =>
    let ref := match r.at_ with
      | some va => va
      | none => 2 ^ 63 + cpys.idxOf r
    (if r.blocked != .none then [ref + 2 ^ 62, r.srcOff r.from_] else [ref]) ++ itemWords cpys t
  | _ :: t => itemWords cpys t

def chanBytes (chans : Vector (List ChanItem) 8) : List Byte :=
  let cpys := cpysOf chans
  (vlist chans).flatMap (fun l =>
    let w := (itemWords cpys l).take 47
    toBytes 8 w.length ++ w.flatMap (toBytes 8) ++ toBytes (8 * (47 - w.length)) 0)

/-- Bytes filled up with zeros. -/
def padTo (n : Nat) (b : List Byte) : List Byte := b ++ toBytes (n - b.length) 0

/-- Swatch parameters: P and four salts; the next collective and, bit i for the i-th before it, those unfinished; RSTVs
outstanding. -/
def softBytes (co : Course) : List Byte :=
  let salts := (co.swatch.map SwatchParams.salts).getD []
  let open_ := ((List.range 64).map (fun i => if co.colls.contains ((co.collNext + 65535 - i) % 2 ^ 16) then 2 ^ i else 0)).sum
  padTo 96 (toBytes 4 ((co.swatch.map SwatchParams.p).getD 0) ++ toBytes 4 co.collNext
    ++ padTo 32 ((salts.take 4).flatMap (fun d => toBytes 8 d.toNat)) ++ toBytes 8 open_ ++ toBytes 4 co.rstvOut)

/-- A latch: its stream and whether it is valid. -/
def latchBytes (l : Option Latch) : List Byte := toBytes 1 ((l.map Latch.stream).getD 0) ++ toBytes 1 (if l.isSome then 1 else 0)

/-- The claims that the latches of a course hold on a stream. -/
def claimCount (co : Course) (i : Nat) : Nat :=
  (((co.latchA.toList ++ co.latchB.toList).filter (fun l => l.stream == i)).map Latch.claim).dedup.length

/-- A saved matrix operation: word, active mask, format block, region, armed ERRINJ. -/
def opBytes (o : MatOp) : List Byte :=
  padTo 64 (toBytes 8 o.word.toNat ++ toBytes 4 o.act.toNat ++ toBytes 4 0 ++ toBytes 8 o.block.toNat ++ toBytes 8 o.scales.toNat
    ++ toBytes 4 o.region ++ toBytes 4 (if o.inject.isSome then 1 else 0) ++ toBytes 4 (o.inject.getD 0#32).toNat)

/-- The matrix part: latches, claim counts, the course's armed ERRINJ, then the saved operations. -/
def matrixBytes (co : Course) : List Byte :=
  let inj := (co.errinj.map (fun e => toBytes 4 (1 + 2 * e.1) ++ toBytes 4 e.2.toNat)).getD []
  padTo 1280 (padTo 256 (latchBytes co.latchA ++ latchBytes co.latchB ++ (List.range 8).flatMap (fun i => toBytes 4 (claimCount co i)) ++ inj)
    ++ (co.remat.take 16).flatMap opBytes)

/-- The replay entry: word, lane mask, per-lane address and data. -/
def replayBytes (co : Course) : List Byte :=
  match co.replay with
  | [] => toBytes 1024 0
  | (_, a) :: _ =>
    let lane := fun (l : Nat) => Tab.getD a.lanes { addr := 0 } l
    padTo 1024 (toBytes 8 a.word.toNat ++ toBytes 4 a.mask.toNat ++ toBytes 4 0
      ++ (List.range 32).flatMap (fun l => toBytes 8 (lane l).addr) ++ (List.range 32).flatMap (fun l => padTo 16 ((lane l).data.take 16)))

/-- The parts of a course record, each with its offset. -/
def imageParts (s : State) (c : Nat) (co : Course) (chans : Vector (List ChanItem) 8) : List (Nat × List Byte) :=
  let cpys := (cpysOf chans).take 32
  let teamRec : DWord := BitVec.ofNat 64 (((s.team co.team).map Team.recAt).getD 0)
  [ (0x0000, headerOf co teamRec cpys.length),
    (0x0100, (vlist co.strands).flatMap strandBytes),
    (0x0300, (vlist co.p).flatMap (fun m => toBytes 4 m.toNat) ++ toBytes 32 0),
    (0x0340, specialBytes s c co),
    (0x0380, gBits co GReg.full ++ gBits co GReg.poison ++ softBytes co),
    (0x0400, (vlist co.strands).flatMap (fun y => (vlist y.g).flatMap (fun g => toBytes 8 g.val.toNat))),
    (0x0800, callBytes co),
    (0x0C00, qBits co Entry.full ++ qBits co Entry.poison ++ vBits co Entry.full ++ vBits co Entry.poison),
    (0x1000, (vlist co.strands).flatMap (fun y =>
      (List.range 16).flatMap (fun n => (List.range 32).flatMap (fun l => toBytes 4 (y.queueAt l n).val.toNat)))),
    (0x3000, (List.range 64).flatMap (fun n => (List.range 32).flatMap (fun l => toBytes 4 (co.vAt n l).val.toNat))),
    (0x5000, arrBytes s c co),
    (0x5100, batchBytes co),
    (0x5200, chanBytes chans),
    (0x5E00, cpys.flatMap cpyBytes ++ toBytes (64 * (32 - cpys.length)) 0),
    (0x6600, matrixBytes co),
    (0x6B00, replayBytes co),
    (0x6F00, toBytes 256 0) ]

/-- A course record written where its context's save area can be written (R387, R392). -/
def writeImage (key c : Nat) (co : Course) (chans : Vector (List ChanItem) 8) (s : State) : State :=
  (imageParts s c co chans).foldl (fun acc (e : Nat × List Byte) => imageWrite key e.1 e.2 acc) s

/-! ### SAVE_POISON (R446) -/

/-- The poisoned words of a course: offset in its record and lanes; a special register is no word of a lane. -/
def poisonedWords (co : Course) : List (Nat × Mask) :=
  let q := co.liveStrands.flatMap (fun i => (List.range 16).map (fun n =>
    let y := co.strand i
    (0x1000 + 2048 * i + 128 * n, maskOf (fun l => y.mask.getLsbD l && (y.queueAt l n).poison))))
  let v := (List.range 64).map (fun n => (0x3000 + 128 * n, maskOf (fun l => (co.vAt n l).poison)))
  let g := co.liveStrands.flatMap (fun i => (List.range 32).map (fun n =>
    let y := co.strand i
    (0x0400 + 256 * i + 8 * n, if (vget y.g {} n).poison then y.mask else 0#32)))
  let p := (List.range 7).map (fun n => (0x0300 + 4 * n, vget co.pBad 0#32 n))
  let sr := (co.sBad.filter (· < 7)).map (fun n => (0x0340 + 4 * n, 0#32))
  (p ++ g ++ q ++ v).filter (fun (e : Nat × Mask) => e.2 != 0#32) ++ sr

def postPoison (co : Course) (s : State) : State :=
  (poisonedWords co).foldl (fun acc (e : Nat × Mask) =>
    acc.post co.ctx { name := co.name, code := cSavePoison, cls := cls4 e.1 e.2.toNat 0 0 }) s

/-! ### Reading back (R390, R391) -/

/-- The bytes of a course record, none where they cannot be read. -/
def readImage (s : State) (key : Nat) : Option (List Byte) :=
  match devReadVa s (key / 2 ^ 32) (imageVa s key) 0x7000 with
  | .ok b => some b
  | .error _ => none

/-- The number in n bytes at an offset. -/
def imNum (b : List Byte) (off n : Nat) : Nat := ofBytes ((b.drop off).take n)

/-- The header's check (R391). -/
def imageSound (b : List Byte) : Bool := imNum b 36 4 == headerCheck (b.take 256)

def imMask (b : List Byte) (off : Nat) : Mask := BitVec.ofNat 32 (imNum b off 4)

/-- A deferral entry at an offset. -/
def imDefer (b : List Byte) (off : Nat) (phase2 : Bool) : Defer :=
  { join := BitVec.ofNat 64 (imNum b off 8), addr := BitVec.ofNat 64 (imNum b (off + 8) 8), mask := imMask b (off + 16)
    parked := imMask b (off + 20), phase2 := phase2 }

/-- A word as restored: what awaited a value goes on awaiting it where it is still empty. -/
def Entry.restored (val : Nat) (full poison : Bool) (e : Entry) : Entry :=
  { e with val := BitVec.ofNat 32 val, full := full, poison := poison, await := if full then none else e.await }

def GReg.restored (val : Nat) (full poison : Bool) (g : GReg) : GReg :=
  { g with val := BitVec.ofNat 64 val, full := full, poison := poison, await := if full then none else g.await }

/-- A strand restored: from its table entry, its g copies and its queue; level and age start afresh. -/
def restoreStrand (b : List Byte) (now i : Nat) (y : Strand) : Strand :=
  let e := 0x100 + 128 * i
  let fl := imNum b (e + 24) 4
  let full := imMask b (0x380 + 4 * i)
  let bad := imMask b (0x390 + 4 * i)
  let join := imNum b (e + 8) 8
  { live := bitOf fl 0
    pc := BitVec.ofNat 64 (imNum b e 8)
    mask := imMask b (e + 16)
    join := if join = 0 then none else some (BitVec.ofNat 64 join)
    depth := imNum b (e + 20) 1
    repi := imNum b (e + 21) 1
    dstack := ((List.range (min 4 (imNum b (e + 22) 1))).map (fun k => imDefer b (e + 32 + 24 * k) (bitOf fl (2 + k)))).reverse
    q := vmapIdx (fun l ql => vmapIdx (fun n x => Entry.restored (imNum b (0x1000 + 2048 * i + 128 * n + 4 * l) 4)
      ((imMask b (0xC00 + 64 * i + 4 * n)).getLsbD l) ((imMask b (0xD00 + 64 * i + 4 * n)).getLsbD l) x) ql) y.q
    g := vmapIdx (fun n g => GReg.restored (imNum b (0x400 + 256 * i + 8 * n) 8) (full.getLsbD n) (bad.getLsbD n) g) y.g
    wait := if bitOf fl 1 then .joinAddr now else .none
    inBar := if bitOf fl 6 then y.inBar else none
    readySince := now }

/-- Call-stack range index of entry e of lane l. -/
def imRange (b : List Byte) (l e : Nat) : Nat := bitsOf (imNum b 40 96) (3 * (8 * l + e)) 3

/-- Arrival state restored (R400). -/
def imArr (b : List Byte) : Tab Nat :=
  (List.range 52).filterMap (fun i =>
    let w := imNum b (0x5000 + 2 * i) 2
    if w % 2 = 1 then some (i, w / 2) else none)

/-- The unit at a byte offset of a record (R389). -/
def Record.unitAt (r : Record) (off : Nat) : Nat := if r.xform = 2 then off / 3 * 2 + off % 3 else off

/-- A record as its item names it: at its address, or a CPY record read from its 64 bytes. R392 has room for 32 of them: a further
one, where suspended records stand beside 32 unclaimed ones (R388), goes on as it was (DESIGN CHOICE,
notes/assumptions/40.md). -/
def Record.refreshed (b : List Byte) (w : Nat) (r : Record) : Record :=
  if bitOf w 63 && 32 ≤ w % 2 ^ 62 then r
  else if bitOf w 63 then
    let p := (parseRecord r.owner r.batch r.number 0 ((b.drop (0x5E00 + 64 * (w % 2 ^ 62))).take 64)).2
    { r with skind := p.skind, dkind := p.dkind, xform := p.xform, waitFe := p.waitFe, length := p.length, src := p.src, dst := p.dst
             rows := p.rows, drows := p.drows, sstride := p.sstride, dstride := p.dstride, xparam := p.xparam, bad := p.bad }
  else { r with at_ := some (w % 2 ^ 62) }

/-- A channel's items, restored from the words of its list. -/
def restoreItems (b : List Byte) : List ChanItem → List Nat → List ChanItem
  | .chain o n next st :: l, w :: t =>
    if next = 0 then .chain o n next st :: restoreItems b l (w :: t) else .chain o n (w % 2 ^ 62) st :: restoreItems b l t
  | .copy r :: l, w :: t =>
    let r1 := r.refreshed b w
    match bitOf w 62, t with
    | true, off :: t1 => .copy { r1 with from_ := r1.unitAt off, blocked := .buffer } :: restoreItems b l t1
    | _, _ => .copy { r1 with blocked := .none } :: restoreItems b l t
  | .codebook o a k :: l, t => .codebook o a k :: restoreItems b l t
  | .fence id :: l, t => .fence id :: restoreItems b l t
  | .chain o n next st :: l, [] => if next = 0 then .chain o n next st :: restoreItems b l [] else restoreItems b l []
  | .copy _ :: l, [] => restoreItems b l []
  | [], _ => []

/-- The channel lists restored (R390 step 5). -/
def restoreChans (b : List Byte) (chans : Vector (List ChanItem) 8) : Vector (List ChanItem) 8 :=
  vmapIdx (fun i l =>
    let at_ := 0x5200 + 384 * i
    restoreItems b l ((List.range (min 47 (imNum b at_ 8))).map (fun k => imNum b (at_ + 8 + 8 * k) 8))) chans

/-- A saved matrix operation restored. -/
def restoreOp (b : List Byte) (i : Nat) (o : MatOp) : MatOp :=
  let a := 0x6700 + 64 * i
  { o with
    word := BitVec.ofNat 64 (imNum b a 8), act := imMask b (a + 8), block := BitVec.ofNat 64 (imNum b (a + 16) 8)
    scales := BitVec.ofNat 64 (imNum b (a + 24) 8), region := imNum b (a + 32) 4
    inject := if bitOf (imNum b (a + 36) 4) 0 then some (imMask b (a + 40)) else none }

/-- The replay entry restored: its word, its lanes, their addresses and data. -/
def restoreReplay (b : List Byte) (l : Tab Access) : Tab Access :=
  match l with
  | [] => []
  | (id, a) :: t =>
    let m := imMask b 0x6B08
    let lane := fun (e : Nat × LaneAcc) => (e.1, { e.2 with
      addr := imNum b (0x6B10 + 8 * e.1) 8, data := ((b.drop (0x6C10 + 16 * e.1)).take 16).take e.2.data.length })
    (id, { a with word := BitVec.ofNat 64 (imNum b 0x6B00 8), lanes := (a.lanes.filter (fun e => m.getLsbD e.1)).map lane }) :: t

/-- Swatch parameters restored; none where P is 0. -/
def restoreSwatch (b : List Byte) : Option SwatchParams :=
  let p := imNum b 0x3A0 4
  if p = 0 then none else some { p := p, salts := (List.range 4).map (fun i => BitVec.ofNat 64 (imNum b (0x3A8 + 8 * i) 8)) }

/-- Failure memory restored, newest first (R416). -/
def restoreFails (b : List Byte) (n : Nat) : List (Nat × Nat) :=
  ((List.range n).map (fun i => (imNum b (0x5108 + 8 * i) 4, imNum b (0x510C + 8 * i) 4))).reverse

/-- A course restored from its record. -/
def restoreCourse (b : List Byte) (now : Nat) (co : Course) : Course :=
  let st := imNum b 0x340 4
  let calls := vmapIdx (fun l (c : List (Word × Nat)) =>
    ((List.range c.length).map (fun e => (BitVec.ofNat 32 (imNum b (0x800 + 32 * l + 4 * e) 4), imRange b l e))).reverse) co.calls
  { co with
    strands := vmapIdx (restoreStrand b now) co.strands
    v := vmapIdx (fun n r => vmapIdx (fun l x => Entry.restored (imNum b (0x3000 + 128 * n + 4 * l) 4)
      ((imMask b (0xE00 + 4 * n)).getLsbD l) ((imMask b (0xF00 + 4 * n)).getLsbD l) x) r) co.v
    p := vset (vof 8 (fun n => imMask b (0x300 + 4 * n))) 7 0xFFFFFFFF#32
    calls := calls
    uconflict := bitOf st 0
    ucidx := bitsOf st 1 5
    readySent := bitOf st 8
    seed := BitVec.ofNat 32 (imNum b 0x344 4)
    fpflags := BitVec.ofNat 32 (imNum b 0x348 4 % 64)
    prio := imNum b 0x34C 1 % 16
    region := imNum b 0x350 1 % 4
    corcnt := BitVec.ofNat 32 (imNum b 0x354 4)
    reiscnt := BitVec.ofNat 32 (imNum b 0x358 4)
    relCount := imNum b 24 6
    remoteFail := if bitOf (imNum b 20 4) 1 then co.remoteFail else none
    halted := if bitOf (imNum b 20 4) 2 then co.halted else none
    arr := imArr b
    swatch := restoreSwatch b
    collNext := imNum b 0x3A4 4 % 2 ^ 16
    failMem := restoreFails b (min 16 co.failMem.length)
    latchA := if imNum b 0x6601 1 = 1 then co.latchA else none
    latchB := if imNum b 0x6603 1 = 1 then co.latchB else none
    errinj := if bitOf (imNum b 0x6624 4) 0 then some (imNum b 0x6624 4 / 2, imMask b 0x6628) else none
    remat := (co.remat.take (imNum b 30 2)).zipIdx.map (fun e => restoreOp b e.2 e.1)
    replay := if bitOf (imNum b 20 4) 0 then restoreReplay b co.replay else [] }

end Sys2Proof.Machine
end

