-- ==== Sys2Proof/Machine/TeamRecord.lean ====
section
/-! DEFINITION. A team's record (R393): what a core holds of a team, the bytes that a save of the team writes, and what a
restore reads back. R393 names the contents of each part and not the place of each of them: those places, and those of the
header's fields, are the model's (DESIGN CHOICE, notes/assumptions/40.md). -/

namespace Sys2Proof.Machine

/-! ### Taking a course's work out of its core -/

/-- The suspended record of a channel that belongs to an owner. -/
def suspendedOf (k : Core) (ch : Nat) (f : Owner → Bool) : List ChanItem :=
  (Tab.vals k.claimed).filterMap (fun e => if e.1 == ch && f e.2.owner then some (.copy e.2) else none)

/-- The work of an owner in a channel: its suspended record, then what is not claimed. -/
def workOf (k : Core) (f : Owner → Bool) : Vector (List ChanItem) 8 :=
  vof 8 (fun ch => suspendedOf k ch f ++ (vget k.chans {} ch).items.filter (fun i => (i.owner.map f).getD false))

def dropWork (f : Owner → Bool) (k : Core) : Core :=
  let mine := fun (i : ChanItem) => (i.owner.map f).getD false
  { k with
    chans := vmap (fun (ch : Channel) => { ch with
      items := ch.items.filter (fun i => !(mine i))
      parked := ch.parked && !((ch.items.head?.map mine).getD false) }) k.chans
    claimed := List.filter (fun (e : Nat × Nat × Record) => !(f e.2.2.owner)) k.claimed }

/-! ### What the core holds of a team -/

/-- A bound stream gives the elements it has taken back to its buffer. -/
def giveBack (y : Stream) : Stream := { y with frags := y.frags.filter (fun f => f.cb.isNone || f.claim.isSome) }

/-- A team's part of its core. -/
def teamPart (k : Core) (t : Team) (tid : Nat) : SavedTeam :=
  let inside := fun (g : Nat) => t.lsBase ≤ g && g < t.lsBase + t.lsSize
  { ls := Memory.slice k.ls (16 * t.lsBase) (16 * t.lsSize) 0
    lsEmpty := (k.lsEmpty.filter inside).map (· - t.lsBase)
    lsPoison := (k.lsPoison.filter inside).map (· - t.lsBase)
    tiles := (k.tiles.filter (fun e => t.tile0 ≤ e.1 && e.1 < t.tile0 + t.ntiles)).map (fun e => (e.1 - t.tile0, e.2))
    bars := (List.range t.nbars).map (fun i => vget k.bars {} (t.bar0 + i))
    codebook := if (k.codebook.map Codebook.team) == some tid then k.codebook else none
    chans := workOf k (fun o => o.team == tid) }

/-- A core after a team has left it. -/
def leaveCore (t : Team) (tid : Nat) (k : Core) : Core :=
  let inside := fun (g : Nat) => t.lsBase ≤ g && g < t.lsBase + t.lsSize
  { dropWork (fun o => o.team == tid) k with
    ls := Memory.clear k.ls (16 * t.lsBase) (16 * t.lsSize)
    lsEmpty := k.lsEmpty.filter (fun g => !(inside g))
    lsPoison := k.lsPoison.filter (fun g => !(inside g))
    tiles := k.tiles.filter (fun e => !(t.tile0 ≤ e.1 && e.1 < t.tile0 + t.ntiles))
    bars := (List.range t.nbars).foldl (fun acc i => vset acc (t.bar0 + i) {}) k.bars
    codebook := if (k.codebook.map Codebook.team) == some tid then none else k.codebook }

/-! ### The parts of a team record, as bytes -/

/-- The allocation byte for byte, then one full/empty bit per granule. -/
def lsPart (t : Team) (y : SavedTeam) : List Byte :=
  Memory.readN y.ls 0 (16 * t.lsSize)
    ++ (List.range ((t.lsSize + 7) / 8)).map (bitByte (fun i => i < t.lsSize && !(y.lsEmpty.contains i)))

def GranKind.code : GranKind → Nat
  | .ldf c => if c then 16 else 0
  | .stf w => if w then 17 else 1
  | .lds g => if g then 18 else 2
  | .sts => 3
  | .setf f => if f then 20 else 4
  | .atoms _ _ q => if q then 21 else 5

/-- A waiting granule operation: offset, kind, size, lane, data. -/
def granBytes (g : GranOp) : List Byte :=
  padTo 16 (toBytes 4 g.off ++ toBytes 1 g.kind.code ++ toBytes 1 g.size ++ toBytes 1 g.lane ++ toBytes 1 0 ++ g.data.take 8)

def granPart (s : State) (tid : Nat) : List Byte := ((Tab.vals s.gran).filter (fun g => g.team == tid)).flatMap granBytes

/-- A sideband: 64 sums of 36 bytes, rows first, and the two masks. -/
def sideBytes (d : Sideband) : List Byte :=
  (vlist d.rows ++ vlist d.cols).flatMap (fun x => toBytes 36 (wrap 288 x)) ++ toBytes 4 d.rowsOut.toNat ++ toBytes 4 d.colsOut.toNat

/-- A tile: elements, flags of 4 bits, status word, sideband. -/
def tileBytes (y : Tile) : List Byte :=
  let f := fun (i : Nat) => (vget y.flags 0#4 i).toNat
  padTo 8192 ((vlist y.elems).flatMap (fun w => toBytes 4 w.toNat)
    ++ (List.range 512).map (fun i => BitVec.ofNat 8 (f (2 * i) + 16 * f (2 * i + 1))) ++ toBytes 4 y.status.toNat ++ sideBytes y.side)

def tilePart (t : Team) (y : SavedTeam) : List Byte := (List.range t.ntiles).flatMap (fun i => tileBytes (Tab.getD y.tiles Tile.zero i))

/-- Core barriers: expected count, arrivals, phase count. -/
def barPart (y : SavedTeam) : List Byte :=
  y.bars.flatMap (fun b => toBytes 2 b.expected ++ toBytes 2 b.arrivals ++ toBytes 4 b.phase)

/-- The bytes of a fragment that holds them. -/
def Fragment.held (f : Fragment) : List Byte := f.bytes.getD []

/-- A stream: whether it is bound, UNSW, its buffer, the number of its fragments, their lengths, and their bytes. -/
def streamBytes (y : Stream) : List Byte :=
  let b := (y.bind.map (fun e => toBytes 1 1 ++ toBytes 1 (if e.2 then 1 else 0) ++ toBytes 1 e.1)).getD (toBytes 3 0)
  padTo 32 (padTo 16 (b ++ toBytes 1 y.frags.length) ++ y.frags.flatMap (fun f => toBytes 2 f.held.length))
    ++ y.frags.flatMap Fragment.held

def streamPart (t : Team) : List Byte := (vlist t.streams).flatMap streamBytes

/-- A buffer's descriptor with its pointers. -/
def cbBytes (c : Option CircBuf) : List Byte :=
  padTo 24 ((c.map (fun b => toBytes 4 b.base ++ toBytes 4 b.size ++ toBytes 1 b.log2n ++ toBytes 1 1 ++ toBytes 2 0
    ++ toBytes 4 b.p ++ toBytes 4 b.c)).getD [])

def cbPart (t : Team) : List Byte := (List.range 64).flatMap (fun i => cbBytes (Tab.find t.cbs i))

def swzPart (t : Team) : List Byte :=
  (vlist t.swz).flatMap (fun z => toBytes 1 (if z.on then 1 else 0) ++ toBytes 1 z.chunk ++ toBytes 1 z.shift ++ toBytes 1 z.width)

/-- The codebook's count, tag and kind, and its table. -/
def codePart (y : SavedTeam) : List Byte :=
  (y.codebook.map (fun k => padTo 16 (toBytes 4 k.count ++ toBytes 2 k.tag ++ toBytes 1 (if k.bf16 then 1 else 0)) ++ k.bytes)).getD []

/-- The parts in the order of R393. -/
def teamParts (s : State) (t : Team) (tid : Nat) (y : SavedTeam) : List (List Byte) :=
  [lsPart t y, granPart s tid, tilePart t y, barPart y, streamPart t, cbPart t, swzPart t, codePart y]

/-- The parts with their offsets, each 64-byte aligned. -/
def layParts : Nat → List (List Byte) → List (Nat × List Byte)
  | _, [] => []
  | a, p :: t => (a, p) :: layParts ((a + p.length + 63) / 64 * 64) t

/-- The check of a team record's header: over its bytes with the check field zero. -/
def teamCheck (h : List Byte) : Nat := crc32c (h.take 60 ++ toBytes 4 0)

/-- The header: offset, in units of 64 bytes, and size of each part; then its CRC-32C. -/
def teamHeader (l : List (Nat × List Byte)) : List Byte :=
  let h := padTo 60 (l.flatMap (fun e => toBytes 2 (e.1 / 64) ++ toBytes 4 e.2.length))
  h ++ toBytes 4 (teamCheck h)

/-- A team record written where Belaujor has placed it. -/
def writeTeam (tid : Nat) (t : Team) (y : SavedTeam) (s : State) : State :=
  let l := layParts 64 (teamParts s t tid y)
  ((0, teamHeader l) :: l).foldl (fun acc (e : Nat × List Byte) => recordPut tid e.1 e.2 acc) s

/-- A team saved when its last course leaves (R41, R387): its record written, its part of the core given back. -/
def saveTeam (tid : Nat) (s : State) : State :=
  match s.team tid with
  | none => s
  | some t =>
    let y := teamPart (s.core t.core) t tid
    let t1 := { t with resident := false, streams := vmap giveBack t.streams }
    let s1 := { s with savedTeams := Tab.put s.savedTeams tid y, teams := Tab.put s.teams tid t1 }
    writeTeam tid t1 y (s1.modCore t.core (leaveCore t tid))

/-! ### A restore (R390, R391, R393) -/

/-- The parts of a team record as its header names them; none where a byte cannot be read or the header's check fails. -/
def readTeam (s : State) (t : Team) : Option (List (List Byte)) :=
  let rd := fun (off n : Nat) => match devReadVa s t.ctx (t.recAt + off) n with
    | .ok b => some b
    | .error _ => none
  match rd 0 64 with
  | none => none
  | some h =>
    if imNum h 60 4 != teamCheck h then none
    else (List.range 8).mapM (fun i => rd (64 * imNum h (6 * i) 2) (imNum h (6 * i + 2) 4))

/-- Part i of a record. -/
def partOf (l : List (List Byte)) (i : Nat) : List Byte := l.getD i []

/-- A tile restored: its elements, flags and status; the sideband is computed anew. -/
def restoreTile (b : List Byte) : Tile :=
  ({ Tile.zero with
      flags := vof 1024 (fun n => BitVec.ofNat 4 (imNum b (4096 + n / 2) 1 / 16 ^ (n % 2)))
      status := imMask b 4608 &&& 0x1FFFF#32 } : Tile).withElems (vof 1024 (fun n => imMask b (4 * n)))

/-- Bytes of tile i in the tile part. -/
def tileAtPart (l : List (List Byte)) (i : Nat) : List Byte := ((partOf l 2).drop (8192 * i)).take 8192

/-- The saved sideband of every tile is that of its restored elements (R391). -/
def tilesSound (t : Team) (l : List (List Byte)) : Bool :=
  (List.range t.ntiles).all (fun i =>
    let b := tileAtPart l i
    sideBytes (restoreTile b).side == (b.drop 4612).take 2312)

/-- The fragments of a stream with their bytes from the record. -/
def restoreFrags : List Fragment → List Byte → List Fragment
  | [], _ => []
  | f :: t, b => { f with bytes := f.bytes.map (fun x => b.take x.length) } :: restoreFrags t (b.drop f.held.length)

/-- The streams with the bytes of their fragments from the record. -/
def restoreStreams : List Stream → List Byte → List Stream
  | [], _ => []
  | y :: t, b =>
    { y with frags := restoreFrags y.frags (b.drop 32) } :: restoreStreams t (b.drop (32 + (y.frags.flatMap Fragment.held).length))

def restoreCb (b : List Byte) (i : Nat) : Option CircBuf :=
  let f := fun off n => imNum b (24 * i + off) n
  if f 9 1 = 1 then some { base := f 0 4, size := f 4 4, log2n := f 8 1, p := f 12 4, c := f 16 4 } else none

/-- What the record gives back of a team itself. -/
def restoreTeamState (l : List (List Byte)) (t : Team) : Team :=
  let st := restoreStreams (vlist t.streams) (partOf l 4)
  { t with
    cbs := (List.range 64).filterMap (fun i => (restoreCb (partOf l 5) i).map (fun b => (i, b)))
    streams := vof 8 (fun i => st.getD i {})
    swz := vof 16 (fun i =>
      let f := fun k => imNum (partOf l 6) (4 * i + k) 1
      { on := f 0 == 1, chunk := f 1, shift := f 2, width := f 3 }) }

/-- What the record gives back of a team's part of its core. -/
def restorePart (t : Team) (l : List (List Byte)) (y : SavedTeam) : SavedTeam :=
  let ls := partOf l 0
  let full := ls.drop (16 * t.lsSize)
  { y with
    ls := Memory.writeN [] 0 (ls.take (16 * t.lsSize))
    lsEmpty := (List.range t.lsSize).filter (fun g => !(bitOf (imNum full (g / 8) 1) (g % 8)))
    tiles := (List.range t.ntiles).filterMap (fun i =>
      let z := restoreTile (tileAtPart l i)
      if z = Tile.zero then none else some (i, z))
    bars := (y.bars.zipIdx).map (fun e =>
      let f := fun off n => imNum (partOf l 3) (8 * e.2 + off) n
      { e.1 with expected := f 0 2, arrivals := f 2 2, phase := f 4 4 })
    codebook := y.codebook.map (fun k => { k with
      count := imNum (partOf l 7) 0 4, tag := imNum (partOf l 7) 4 2, bf16 := bitOf (imNum (partOf l 7) 6 1) 0
      bytes := (partOf l 7).drop 16 }) }

/-- The work of a channel put back: a suspended record at its head, with its chain where that has no further record; the rest
at its tail (R390). -/
def putWork (l : List ChanItem) (ch : Channel) : Channel :=
  match l with
  | .copy r :: rest =>
    if r.blocked != .none then
      let hd := ChanItem.copy { r with blocked := .none }
      match rest with
      | .chain o b 0 st :: t => { ch with items := hd :: .chain o b 0 st :: (ch.items ++ t) }
      | t => { ch with items := hd :: (ch.items ++ t) }
    else { ch with items := ch.items ++ l }
  | l => { ch with items := ch.items ++ l }

def restoreWork (chans : Vector (List ChanItem) 8) (k : Core) : Core :=
  { k with chans := vmapIdx (fun i (ch : Channel) => putWork (vget chans [] i) ch) k.chans }

/-- A saved team placed on a core again, with the parts of its record. -/
def restoreTeam (tid core : Nat) (p : TeamPlace) (l : List (List Byte)) (s : State) : State :=
  match s.team tid, Tab.find s.savedTeams tid with
  | some t, some y0 =>
    let y := restorePart t l y0
    let put := fun (k : Core) =>
      { restoreWork y.chans k with
        ls := Memory.writeCells k.ls (y.ls.map (fun (e : Host.Cell) => (e.1 + 16 * p.lsBase, e.2)))
        lsEmpty := y.lsEmpty.foldl (fun acc g => insertSorted (g + p.lsBase) acc) k.lsEmpty
        lsPoison := y.lsPoison.foldl (fun acc g => insertSorted (g + p.lsBase) acc) k.lsPoison
        tiles := y.tiles.foldl (fun acc (e : Nat × Tile) => Tab.put acc (e.1 + p.tile0) e.2) k.tiles
        bars := (y.bars.zipIdx).foldl (fun acc (e : Barrier × Nat) => vset acc (p.bar0 + e.2) e.1) k.bars
        codebook := if y.codebook.isSome then y.codebook else k.codebook }
    ({ s with savedTeams := Tab.del s.savedTeams tid, injected := Tab.del s.injected tid }.modCore core put).modTeam tid (fun _ =>
      { restoreTeamState l t with
        core := core, lsBase := p.lsBase, tile0 := p.tile0, bar0 := p.bar0, recAt := p.record, resident := true })
  | _, _ => s

end Sys2Proof.Machine
end

