-- ==== Sys2Proof/Machine/Save.lean ====
section
/-! DEFINITION. Pre-emption, the save of a course and of its team, and the resume (R38, R40, R41, R348, R379, R380, R387 to
R393, R405). -/

namespace Sys2Proof.Machine

/-! ### PREEMPT (R387) -/

/-- PREEMPT: Belaujor sets a slot that is RUN to UNBIND. -/
def execPreempt (c : Nat) (s : State) : Out := .next (preemptSlot c s)

/-! ### When a save is complete (R387, R389) -/

def ownedBy (c : Nat) (name : DWord) (o : Owner) : Bool := o.course == c && o.name == name

def ChanItem.ofCourse (c : Nat) (name : DWord) (i : ChanItem) : Bool := (i.owner.map (ownedBy c name)).getD false

/-- The head of a channel is a codebook load under way. -/
def loadingFor (f : Owner → Bool) (ch : Channel) : Bool := ch.loading && ((ch.items.head?.bind ChanItem.owner).map f).getD false

/-- A value of the course that only a waiting granule operation still holds back. -/
def waitsGranule (s : State) (id : Nat) : Bool := (Tab.vals s.gran).any (fun g => g.result == some id)

/-- Every access and value of a course has returned, but for waiting granule operations (R179, R387 step 2). -/
def returned (s : State) (c : Nat) (name : DWord) : Bool :=
  !((Tab.vals s.accesses).any (fun a => a.course == c))
    && !((Tab.vals s.remotes).any (fun r => match r.for_ with
      | .discard d n _ => d == c && n == name
      | _ => false))
    && s.arrivals.all (fun e => e.2.course != c || waitsGranule s e.1)

/-- The engine work of a course has come to rest: its matrix and swatch operations are over, its claimed records complete or
suspended. -/
def atRest (k : Core) (f : Owner → Bool) : Bool :=
  !(k.mq.any (fun o => o.fence.isNone && f o.owner)) && !(k.swq.any (fun o => o.fence.isNone && f o.owner))
    && (Tab.vals k.claimed).all (fun e => !(f e.2.owner) || e.2.blocked != .none) && !((vlist k.chans).any (loadingFor f))

/-- The owner's course has ended. -/
def ownerEnded (s : State) (o : Owner) : Bool :=
  !(s.courses.any (fun e => e.2.name == o.name)) && !(s.saved.any (fun e => e.2.course.name == o.name))

/-- No course of a team is bound, and none is about to be bound (R41). -/
def noneBound (s : State) (tid : Nat) : Bool :=
  s.courses.all (fun e => e.2.team != tid) && s.slots.all (fun e => e.2.state != .bind || e.2.rec_.team != tid)

/-- A copy of another team of the panel is still to move bytes into a team's local store (R387 step 6). -/
def copiesInto (s : State) (tid : Nat) : Bool :=
  s.cores.any (fun k => (Tab.vals k.2.claimed).any (fun e =>
    let r := e.2
    r.blocked == .none && r.owner.team != tid && r.dkind == 2 && (match lsAtTeam s r.owner.team r.dst.toNat 1 with
      | .ok t _ => t == tid
      | _ => false)))

/-- The copies of a team whose courses have ended: none is left to be performed but parked chains (R89, R387 step 6). -/
def endedDone (s : State) (k : Core) (tid : Nat) : Bool :=
  let f := fun (o : Owner) => o.team == tid && ownerEnded s o
  atRest k (fun o => o.team == tid) && (vlist k.chans).all (fun ch => ch.parked || !(ch.items.any (fun i => (i.owner.map f).getD false)))

/-- Whether the save of a course that has been stopped can complete. -/
def saveReady (s : State) (c : Nat) : Bool :=
  match s.course c with
  | none => false
  | some co => co.cstate != .run && returned s c co.name && atRest (s.core (coreOf c)) (ownedBy c co.name)

/-- A resident team has no course on its core any more, some of its courses are saved, and every copy into its local store has
completed or is suspended: its record is to be written (R41, R387 step 6). -/
def teamSaveReady (s : State) (tid : Nat) : Bool :=
  match s.team tid with
  | some t => t.resident && noneBound s tid && s.saved.any (fun e => e.2.course.team == tid)
      && endedDone s (s.core t.core) tid && !(copiesInto s tid)
  | none => false

/-! ### COURSE_SAVE_COMPLETE (R387 step 5, R405, R446) -/

/-- A strand as it is saved: marks are dropped, sleeps and yields end at the next word, other waits begin afresh. -/
def Strand.saved (y : Strand) : Strand :=
  { y with mark := none, level := 0, age := 0, wasReady := false
           wait := match y.wait with
             | .joinAddr n => .joinAddr n
             | .sleep _ _ | .yield _ _ => if y.join == some y.pc then .joinAddr 0 else .none
             | _ => .none }

/-- Values and granule operations of a course under another number. -/
def renumber (c d : Nat) (s : State) : State :=
  { s with
    arrivals := s.arrivals.map (fun e => if e.2.course = c then (e.1, { e.2 with course := d }) else e)
    gran := s.gran.map (fun e => if e.2.course = c then (e.1, { e.2 with course := d }) else e) }

/-- The work of a course's channels: what a resume has not yet put back, then what the core holds. -/
def courseWork (s : State) (c : Nat) (name : DWord) : Vector (List ChanItem) 8 :=
  let old := Tab.getD s.returning (vconst 8 []) c
  vmapIdx (fun i l => vget old [] i ++ l) (workOf (s.core (coreOf c)) (ownedBy c name))

/-- The teams of a core saved that are to be saved. -/
def settleTeams (core : Nat) (s : State) : State :=
  ((s.teams.filter (fun e => e.2.core == core)).map Prod.fst).foldl (fun acc tid => if teamSaveReady acc tid then saveTeam tid acc else acc) s

/-- COURSE_SAVE_COMPLETE: the course record, the slot SAVED and a journal entry (R387 step 5); the team's record after its last
course, also where that one has ended by EXIT, as soon as its copies let it (step 6). -/
def execCourseSaveComplete (c : Nat) (s : State) : Out :=
  match s.course c with
  | none => .next (settleTeams (coreOf c) s)
  | some co =>
    if !(saveReady s c) then .next (settleTeams (coreOf c) s)
    else
      let key := savedKey co.ctx co.saveIdx
      let mine := ownedBy c co.name
      let chans := courseWork s c co.name
      let y := { co with strands := vmap Strand.saved co.strands, readLog := [] }
      let s1 := postPoison y (writeImage key c y chans s)
      let s2 := (renumber c (savedId key) s1).modCore (coreOf c) (dropWork mine)
      let r := (slotAt s c).rec_
      .next (settleTeams (coreOf c) (setSlot c r .saved (journal (dieOf c) 5 (coreOf c % 64) (slotOf c) []
        { s2 with
          courses := Tab.del s2.courses c
          returning := Tab.del s2.returning c
          saved := Tab.put s2.saved key { course := y, rec_ := r, left := coreOf c, chans := chans } })))

/-! ### Scope instances and panels (R20, R22, R23) -/

/-- The number of the scope instance that holds a core. -/
def instanceOf (m : Mode) (scope : BitVec 3) (core : Nat) : Nat :=
  match scope.toNat with
  | 2 => core / 4
  | 3 => core / 64
  | _ => devOfDie m (core / 64)

def inInstance (m : Mode) (scope : BitVec 3) (inst core : Nat) : Bool := instanceOf m scope core == inst

/-- A core of an instance. -/
def firstCore (m : Mode) (scope : BitVec 3) (inst : Nat) : Nat :=
  match scope.toNat with
  | 2 => 4 * inst
  | 3 => 64 * inst
  | _ => 64 * (((List.range 4).find? (fun d => devOfDie m d == inst)).getD 0)

/-- Two scope instances overlap: one contains the other (R22). -/
def overlapping (m : Mode) (sa : BitVec 3) (a : Nat) (sb : BitVec 3) (b : Nat) : Bool :=
  inInstance m sa a (firstCore m sb b) || inInstance m sb b (firstCore m sa a)

def Panel.started (p : Panel) : Bool := p.members.length == p.nteams

/-- The panel's instance holds a core. -/
def Panel.holds (p : Panel) (m : Mode) (core : Nat) : Bool := inInstance m p.scope p.inst core

/-! ### COURSE_RESUME (R390, R391) -/

/-- The core's resources hold a bind record's part (R379). -/
def recordFits (r : BindRec) (slot : Nat) : Bool :=
  r.slot == slot && 1 ≤ r.lsSize && r.lsBase + r.lsSize ≤ 32768 && r.tiles + r.ntiles ≤ 64 && r.bars + r.nbars ≤ 32

def disjoint (a n b m : Nat) : Bool := n == 0 || m == 0 || a + n ≤ b || b + m ≤ a

/-- A part of a core that no team resident there holds. -/
def roomOn (s : State) (core lsBase lsSize tile0 ntiles bar0 nbars : Nat) : Bool :=
  (Tab.vals s.teams).all (fun t => !t.resident || t.core != core
    || (disjoint lsBase lsSize t.lsBase t.lsSize && disjoint tile0 ntiles t.tile0 t.ntiles && disjoint bar0 nbars t.bar0 t.nbars))

/-- A slot without a course. -/
def slotFree (s : State) (c : Nat) : Bool :=
  (s.course c).isNone && ((slotAt s c).state == .free || (slotAt s c).state == .saved)

def Owner.moved (name : DWord) (c : Nat) (o : Owner) : Owner := if o.name = name then { o with course := c } else o

def ChanItem.moved (name : DWord) (c : Nat) : ChanItem → ChanItem
  | .chain o b n st => .chain (o.moved name c) b n st
  | .copy r => .copy { r with owner := r.owner.moved name c }
  | .codebook o a k => .codebook (o.moved name c) a k
  | .fence id => .fence id

/-- What the package still holds of a course by its number, after the course has moved. -/
def rehome (name : DWord) (c : Nat) (s : State) : State :=
  { s with
    cores := s.cores.map (fun e => (e.1, { e.2 with
      collq := e.2.collq.map (fun o => { o with owner := o.owner.moved name c })
      rbuf := e.2.rbuf.map (fun r => { r with owner := r.owner.moved name c }) }))
    rstvs := s.rstvs.map (fun e => (e.1, { e.2 with owner := e.2.owner.moved name c })) }

/-- RSTVs held for a course go, in arrival order, from the core it left to the core it is bound to, before those that have reached
it there (R247, R248). -/
def forwardTo (name : DWord) (core : Nat) (s : State) : State :=
  let held := s.cores.flatMap (fun (e : Nat × Core) => if e.1 = core then [] else e.2.rbuf.filter (fun r => r.target == name))
  if held.isEmpty then s
  else
    let s1 := { s with cores := s.cores.map (fun (e : Nat × Core) =>
      if e.1 = core then e else (e.1, { e.2 with rbuf := e.2.rbuf.filter (fun r => r.target != name) })) }
    held.foldl (tellHub name core) (s1.modCore core (fun k => { k with rbuf := held ++ k.rbuf }))

/-- The bind record of a resume: the saved one with its new place (R379). -/
def resumeRec (v : Saved) (c : Nat) (t : Team) : BindRec :=
  { v.rec_ with slot := slotOf c, lsBase := t.lsBase, tiles := t.tile0, bars := t.bar0, gen := v.rec_.gen % 2 ^ 14 + 2 ^ 14 }

/-- The course's work put back into its channels, and the RSTVs held for it forwarded (R390 steps 5 and 6). -/
def returnWork (c : Nat) (s : State) : State :=
  match Tab.find s.returning c with
  | none => s
  | some w =>
    forwardTo (s.courseD c).name (coreOf c)
      (({ s with returning := Tab.del s.returning c } : State).modCore (coreOf c) (restoreWork w))

/-- The course has performed its replay entry and queued its matrix operations again (R390 steps 3 and 4). -/
def replayed (s : State) (c : Nat) : Bool :=
  (s.courseD c).remat.isEmpty && !((Tab.vals s.accesses).any (fun a => a.course == c && a.replay))

/-- The L1 of the core that a saved course is bound to (R136, R144, R158). -/
def freshL1 (c : Nat) (v : Saved) (s : State) : State :=
  let handles := (((s.team v.course.team).bind (fun t => Tab.find s.launches t.launch)).map Launch.handles).getD []
  s.modCore (coreOf c) (fun k => { k with
    l1 := if !handles.isEmpty then [] else if v.left = coreOf c then k.l1 else k.l1.filter (fun e => e.2.1) })

/-- The course restored into its slot. DESIGN CHOICE (notes/assumptions/18.md), where R36 is silent: the strands that met in a
UNIFORM_CONFLICT are not tested again, and go on apart, or wait where they stand at their join address. Its replay entries and
values go on under their identifiers; its channel work and the RSTVs held for it follow once they are done (R390). On another
core than the one it left, no L1 copy that may be older than its own stores or than what it has acquired stays, nor, where its
launch names handles, one of their ranges (R136, R144, R158). -/
def bindSaved (c key : Nat) (v : Saved) (b : List Byte) (s : State) : State :=
  let co := restoreCourse b (s.clockOf c) v.course
  let name := co.name
  let s1 : State := { s with
    saved := Tab.del s.saved key
    courses := Tab.put s.courses c { co with replay := [], remat := co.remat.map (fun o => { o with owner := o.owner.moved name c }) }
    accesses := co.replay.foldl (fun acc (e : Nat × Access) => Tab.put acc e.1 { e.2 with course := c }) s.accesses }
  let w := vmap (fun (l : List ChanItem) => l.map (ChanItem.moved name c)) (restoreChans b v.chans)
  let s2 := renumber (savedId key) c { s1 with returning := Tab.put s1.returning c w }
  let s3 := freshL1 c v (rehome name c (returnFromStop c s2))
  if replayed s3 c then returnWork c s3 else s3

/-- A restore that its checks refuse: the slot freed, and SAVE_CORRUPT with the address of the record (R391). -/
def saveCorrupt (c va : Nat) (v : Saved) (s : State) : State :=
  setSlot c (slotAt s c).rec_ .free (s.post v.course.ctx { name := v.course.name, code := cSaveCorrupt, cls := va })

/-- The panel of a team, where it has one, has its scope instance around a core (R20). -/
def panelHolds (s : State) (t : Team) (core : Nat) : Bool :=
  ((t.panel.bind (Tab.find s.panels)).map (fun p => p.holds s.mode core)).getD true

/-- n places from some base on are free on a core: a free run begins at 0 or where a part in use ends. -/
def runFree (cap n : Nat) (used : List (Nat × Nat)) : Bool :=
  n == 0 || ((0 :: used.map (fun e => e.1 + e.2)).any (fun b => b + n ≤ cap && used.all (fun e => disjoint b n e.1 e.2)))

/-- A core has room for a team somewhere in its local store, its tiles and its barriers, and slots for its saved courses. -/
def hasRoom (s : State) (core tid : Nat) (t : Team) : Bool :=
  let l := (Tab.vals s.teams).filter (fun y => y.resident && y.core == core)
  (s.saved.filter (fun e => e.2.course.team == tid)).length ≤ ((List.range 32).filter (fun i => slotFree s (32 * core + i))).length &&
  runFree 32768 t.lsSize (l.map (fun y => (y.lsBase, y.lsSize))) && runFree 64 t.ntiles (l.map (fun y => (y.tile0, y.ntiles)))
    && runFree 32 t.nbars (l.map (fun y => (y.bar0, y.nbars)))

/-- A team that hxdb had pre-empted stays saved until it is let go on, and then goes to its core before any other (R414). -/
def injectLets (s : State) (tid : Nat) (t : Team) (core : Nat) : Bool :=
  match Tab.find s.injected tid with
  | none => true
  | some on => on && (core == t.core || !(hasRoom s t.core tid t))

/-- The core a saved course may be bound to: its team's, or, when none of the team is bound, the place given, in the scope
instance of the team's panel (R20). -/
def resumePlace (s : State) (c : Nat) (v : Saved) (t : Team) (p : TeamPlace) : Option TeamPlace :=
  if !(injectLets s v.course.team t (coreOf c)) then none
  else if t.resident then
    (if coreOf c == t.core then some { p with lsBase := t.lsBase, tile0 := t.tile0, bar0 := t.bar0, record := t.recAt } else none)
  else if devOfDie s.mode (dieOf c) == (s.ctx v.course.ctx).dev && panelHolds s t (coreOf c)
      && roomOn s (coreOf c) p.lsBase t.lsSize p.tile0 t.ntiles p.bar0 t.nbars then some p
  else none

/-- BIND_REFUSED (R379): the core sets FREE and posts to the management log of its die's device. -/
def refuseBind (c : Nat) (s : State) : State :=
  setSlot c (slotAt s c).rec_ .free (s.postMlog (devOfDie s.mode (dieOf c)) { code := cBindRefused })

/-- A member of a panel has been pre-empted and is not bound again; one that hxdb keeps saved is not to be bound (R414). -/
def Panel.preempted (p : Panel) (s : State) : Bool :=
  s.saved.any (fun y => y.2.course.cstate == .unbind && (Tab.vals p.members).contains y.2.course.team
    && (Tab.find s.injected y.2.course.team) != some false)

/-- What goes first to another panel: the room of a core in the instance of one that is admitted and not fully started, before
anything else (R23); and every binding of the device, before work that is no member of an admitted panel, to one with a pre-empted
member (R384). -/
def heldForPanel (s : State) (mine : Option Nat) (core : Nat) : Bool :=
  s.panels.any (fun e => mine != some e.1 && ((e.2.holds s.mode core && !e.2.started)
    || (mine.isNone && e.2.dev == devOfDie s.mode (core / 64) && e.2.preempted s)))

/-- The team restored where it is not resident; none where its record's checks fail (R390 step 1, R391). -/
def restoreFirst (tid : Nat) (t : Team) (core : Nat) (p : TeamPlace) (s : State) : Option State :=
  if t.resident then some { s with injected := Tab.del s.injected tid }
  else match readTeam s t with
    | some l => if tilesSound t l then some (restoreTeam tid core p l s) else none
    | none => none

/-- The core's part of a resume: the record's place is tested, the team restored where it is not resident, and the course (R379,
R390, R391). -/
def resumeBound (c save : Nat) (v : Saved) (t : Team) (q : TeamPlace) (s : State) : State :=
  let r := (slotAt s c).rec_
  if !(recordFits r (slotOf c)) then refuseBind c s
  else match restoreFirst v.course.team t (coreOf c) q s, readImage s save with
    | none, _ => saveCorrupt c t.recAt v s
    | _, none => saveCorrupt c (imageVa s save) v s
    | some s2, some b =>
      if !(imageSound b) then saveCorrupt c (imageVa s save) v s
      else tidy c (setSlot c r .run (bindSaved c save v b s2))

/-- COURSE_RESUME: Belaujor binds a saved course to a slot with RESUME set; p places the team where it is not resident. -/
def execCourseResume (c save : Nat) (p : TeamPlace) (s : State) : Out :=
  match Tab.find s.saved save with
  | none => .next s
  | some v =>
    match s.team v.course.team with
    | none => .next s
    | some t =>
      if !(slotFree s c) || !(dispatching s (dieOf c)) || heldForPanel s t.panel (coreOf c) then .next s
      else match resumePlace s c v t p with
      | none => .next s
      | some q =>
        let t1 := { t with lsBase := q.lsBase, tile0 := q.tile0, bar0 := q.bar0 }
        let r := resumeRec v c t1
        .next (resumeBound c save v t q (setSlot c r .bind (journal (dieOf c) 2 (coreOf c % 64) (slotOf c) r.bytes s)))

end Sys2Proof.Machine
end

