-- ==== Sys2Proof/Machine/Launch.lean ====
section
/-! DEFINITION. From a kick to a bound course: command queues, launch commands and their order (R158 to R160, R375 to R378),
panels (R20 to R23), bind records and binding (R25, R379, R380, R384), and completion (R378, R469). -/

namespace Sys2Proof.Machine

/-- The die of a device whose scheduler core serves the device's queues: the lowest one at work (notes/assumptions/50.md). -/
def dispatchDie (s : State) (dev : Nat) : Option Nat :=
  (List.range 4).find? (fun d => devOfDie s.mode d == dev && dispatching s d)

/-! ### Kicks and scans (R375, R376) -/

/-- Command queues of a device in a mode (R14). -/
def queuesIn (m : Mode) : Nat :=
  match m with
  | .one => 1024
  | .two => 512
  | .four => 256

/-- KICK_WRITE: each bit written as 1 sets a pending kick. -/
def execKickWrite (dev j : Nat) (v : DWord) (s : State) : Out :=
  let keep := BitVec.ofNat 64 (2 ^ (min 64 (queuesIn s.mode - 64 * j)) - 1)
  .next (s.modDev dev (fun d => { d with kick := vset d.kick j (vget d.kick 0#64 j ||| (v &&& keep)) }))

/-- The queues whose kick bits are set, in queue-number order. -/
def kicked (d : Dev) : List Nat :=
  (List.range 1024).filter (fun q => (vget d.kick 0#64 (q / 64)).getLsbD (q % 64))

/-- The 64 bytes of a queue-table entry. -/
def queueEntry (s : State) (dev q : Nat) : Option (List Byte) := iaRead s dev ((s.dev dev).cqtable.toNat + 64 * q) 64


/-- The context a queue's commands belong to, where the queue is enabled and the context lives. -/
def queueCtx (s : State) (dev : Nat) (e : List Byte) : Option Nat :=
  let ctx := 65536 * dev + fieldOf e 10 2
  if bitOf (fieldOf e 9 1) 0 && (Tab.find s.ctxs ctx).isSome then some ctx else none

/-- The records of a ring from one count to another, read one by one. -/
def ringRecords (s : State) (dev ring n head : Nat) : Nat → Option (List (List Byte))
  | 0 => some []
  | k + 1 => do
    let b ← iaRead s dev (ring + 64 * (head % 2 ^ n)) 64
    let t ← ringRecords s dev ring n (head + 1) k
    pure (b :: t)

/-- QUEUE_OVERRUN (R376): no record taken, ENABLE cleared, the management log told. -/
def overrun (dev q head tail : Nat) (e : List Byte) (s : State) : State :=
  let s1 := (iaWrite s dev ((s.dev dev).cqtable.toNat + 64 * q + 9) (toBytes 1 (fieldOf e 9 1 / 2 * 2))).getD s
  s1.postMlog dev { code := cQueueOverrun, cls := cls4 q tail head 0 }

/-- A queue taken: every record from the head to the tail read, and the head word written. A queue whose table entry, words
or records cannot be read is left as it is. -/
def takeQueue (dev q : Nat) (s : State) : State :=
  (do
    let die ← dispatchDie s dev
    let e ← queueEntry s dev q
    let ctx ← queueCtx s dev e
    let n := fieldOf e 8 1 % 32
    let head ← iaRead s dev (fieldOf e 16 8) 8
    let tail ← iaRead s dev (fieldOf e 24 8) 8
    let h := ofBytes head
    let t := ofBytes tail
    if t < h || 2 ^ n < t - h then pure (overrun dev q h t e s)
    else if t = h then pure s
    else
      let l ← ringRecords s dev (fieldOf e 0 8) n h (t - h)
      let s1 ← iaWrite (journal die 1 0 q (toBytes 8 t) s) dev (fieldOf e 16 8) (toBytes 8 t)
      pure (s1.modDev dev (fun d => { d with
        commands := d.commands ++ l.map (fun b => ({ queue := q, ctx := ctx, bytes := b } : Command)) }))).getD s

/-- A queue's kick bit cleared, as the queue is taken (R375, R463). -/
def clearKick (q : Nat) (k : Vector DWord 16) : Vector DWord 16 :=
  vset k (q / 64) (vget k 0#64 (q / 64) &&& ~~~(BitVec.ofNat 64 (2 ^ (q % 64))))

/-- QUEUE_SCAN: a scan takes every queue kicked as it begins, and reads them in queue-number order (R159). -/
def execQueueScan (dev q : Nat) (s : State) : Out :=
  let d := s.dev dev
  let l := if d.scanned.isEmpty then kicked d else d.scanned
  match l with
  | [] => .next s
  | h :: t =>
    if h != q || (dispatchDie s dev).isNone then .next s
    else
      .next (takeQueue dev q (s.modDev dev (fun y => { y with scanned := t, kick := clearKick q y.kick })))

/-! ### Commands (R377) -/

def Command.num (m : Command) (off n : Nat) : Nat := fieldOf m.bytes off n
def Command.kind (m : Command) : Nat := m.num 0 2
def Command.early (m : Command) : Bool := bitOf (m.num 2 2) 0

/-- The handle list of a command. -/
def handleList (s : State) (m : Command) : Except Nat (List DWord) :=
  let n := m.num 30 2
  if n = 0 then .ok []
  else if 256 < n then .error cBadCommand
  else match devReadVa s m.ctx (m.num 32 8) (8 * n) with
    | .error _ => .error cBadCommand
    | .ok b => .ok ((List.range n).map (fun i => BitVec.ofNat 64 (fieldOf b (8 * i) 8)))

def handleId (h : DWord) : Nat := h.toNat % 2 ^ 63

/-- Two launches that name a handle, at least one of them to write it. -/
def handlesClash (a b : List DWord) : Bool :=
  a.any (fun x => b.any (fun y => handleId x == handleId y && (x.getLsbD 63 || y.getLsbD 63)))

/-! ### The hank (R21, R125 to R128) -/

/-- A signature matches a device: the family, and each die field of a die that belongs to it (R126). -/
def signatureFits (s : State) (dev sig : Nat) : Bool :=
  bitsOf sig 52 12 == 0x880 && (List.range 4).all (fun d =>
    devOfDie s.mode d != dev || (s.die d).fence != .none || bitsOf sig (5 * d) 5 == 31 || bitsOf sig (5 * d) 5 == (Config.disabledQuad d).val)

/-- The skein entry the loader takes: the first of the table that matches. DESIGN CHOICE (notes/assumptions/41.md), where the
spec gives no outcome: a hank that cannot be read, or has another magic number or no or more than 64 skeins, is refused with
BAD_COMMAND; its format version, edition, family code and file size are not compared. -/
def hankSkein (s : State) (dev : Nat) (m : Command) : Except Nat (List Byte) :=
  let hank := m.num 8 8
  match devReadVa s m.ctx hank 64 with
  | .error _ => .error cBadCommand
  | .ok h =>
    let n := fieldOf h 6 2
    if fieldOf h 0 4 != 0x4B4E4148 || n = 0 || 64 < n then .error cBadCommand
    else match devReadVa s m.ctx (hank + fieldOf h 24 8) (64 * n) with
      | .error _ => .error cBadCommand
      | .ok t =>
        match ((List.range n).map (fun i => (t.drop (64 * i)).take 64)).find? (fun e => signatureFits s dev (fieldOf e 0 8)) with
        | none => .error cNoSkein
        | some e => .ok e

/-- The contents of the first chunk of a tag in a skein image: address and size (R128). -/
def findChunk (s : State) (ctx tag end_ : Nat) : Nat → Nat → Option (Nat × Nat)
  | 0, _ => none
  | fuel + 1, va =>
    if end_ < va + 16 then none
    else match devReadVa s ctx va 16 with
      | .error _ => none
      | .ok h =>
        let n := fieldOf h 4 8
        if fieldOf h 0 4 = tag then some (va + 16, n) else findChunk s ctx tag end_ fuel (va + 16 + (n + 15) / 16 * 16)

/-- The local-store image of a skein: its LCLI chunk, where it has one (R123, R128). DESIGN CHOICE (notes/assumptions/41.md): a
chunk that cannot be read gives an empty image, as no chunk does. -/
def lclImage (s : State) (m : Command) (e : List Byte) (lcl : Nat) : List Byte :=
  let va := m.num 8 8 + fieldOf e 8 8
  match findChunk s m.ctx 0x494C434C (va + fieldOf e 16 8) (fieldOf e 16 8 / 16) va with
  | none => []
  | some (a, n) =>
    match devReadVa s m.ctx a (min n lcl) with
    | .ok b => b
    | .error _ => []

/-! ### The tests of R21 -/

/-- Granules a team is allotted: LSSIZE is at least 1 (R379). -/
def shapeGranules (sh : LaunchShape) : Nat := max 1 ((sh.lcl + 15) / 16)

/-- Teams of a shape that one empty core holds. -/
def teamsPerCore (sh : LaunchShape) : Nat :=
  min (min (32 / sh.courses) (32768 / shapeGranules sh))
    (min (if sh.tiles = 0 then 32 else 64 / sh.tiles) (if sh.bars = 0 then 32 else 32 / sh.bars))

/-- Near dies of a device that are not fenced (R451). -/
def liveDies (s : State) (dev : Nat) : List Nat :=
  (List.range 4).filter (fun d => devOfDie s.mode d == dev && (s.die d).fence == .none)

/-- Named barriers of one instance of a panel scope (R37). -/
def scopeBars (scope : BitVec 3) : Nat := if scope.toNat = 4 then 8 else 16

/-- Cores of an empty instance of a panel scope. -/
def scopeCores (s : State) (dev : Nat) (scope : BitVec 3) : Nat :=
  match scope.toNat with
  | 2 => 4
  | 3 => 64
  | _ => 64 * (liveDies s dev).length

/-- The refusal of a shape (R21). DESIGN CHOICE (notes/assumptions/42.md), where R21 is silent: a team of no courses is
LAUNCH_TEAM_UNFIT, so is one outside a panel that asks for more core barriers than a core has, and a panel of no teams is
LAUNCH_PANEL_UNFIT. -/
def shapeRefusal (s : State) (dev : Nat) (sh : LaunchShape) : Option Nat :=
  if sh.courses = 0 || 16 < sh.courses || 2 ^ 19 < sh.lcl || 64 < sh.tiles then some cTeamUnfit
  else match sh.panel with
    | none => if 32 < sh.bars then some cTeamUnfit else none
    | some (sc, n, b) =>
      if n = 0 || 64 < n || sc.toNat < 2 || 4 < sc.toNat || scopeBars sc < b || scopeCores s dev sc * teamsPerCore sh < n then some cPanelUnfit
      else none

/-! ### Admission (R22) -/

/-- Named barriers a panel's shape asks for. -/
def panelBars (sh : LaunchShape) : Nat := (sh.panel.map (fun e => e.2.2)).getD 0

/-- Named barriers of an instance that its admitted panels hold (R37). -/
def barsHeld (s : State) (scope : BitVec 3) (inst : Nat) : Nat :=
  ((s.panels.filter (fun e => e.2.scope == scope && e.2.inst == inst)).map (fun e => panelBars e.2.shape)).sum

/-- A panel may be admitted in an instance: no panel that is not fully started overlaps it (R22), and the instance has as many
named barriers left as it asks for (R37). -/
def admissible (s : State) (scope : BitVec 3) (inst bars : Nat) : Bool :=
  s.panels.all (fun e => e.2.started || !(overlapping s.mode scope inst e.2.scope e.2.inst))
    && barsHeld s scope inst + bars ≤ scopeBars scope

/-! ### Placing a team (R379, R384) -/

/-- The slot-table entry a place names for a course. -/
def slotIdx (p : TeamPlace) (slot : Nat) : Nat := 32 * p.core + slot % 32

/-- No course of a context has a save index. -/
def saveFree (s : State) (ctx idx : Nat) : Bool :=
  s.courses.all (fun e => !(e.2.ctx == ctx && e.2.saveIdx == idx)) && (Tab.find s.saved (savedKey ctx idx)).isNone

/-- A place stays inside the resources of its core (R379). -/
def inResources (sh : LaunchShape) (p : TeamPlace) : Bool :=
  p.lsBase + shapeGranules sh ≤ 32768 && p.tile0 + sh.tiles ≤ 64 && p.bar0 + sh.bars ≤ 32 && p.slots.all (fun e => e.1 < 32)

/-- There is room for a team at its place now. -/
def canPlace (s : State) (l : Launch) (panel : Option Nat) (p : TeamPlace) : Bool :=
  inResources l.shape p && dispatching s (p.core / 64) && !(heldForPanel s panel p.core)
    && roomOn s p.core p.lsBase (shapeGranules l.shape) p.tile0 l.shape.tiles p.bar0 l.shape.bars
    && p.slots.all (fun e => slotFree s (slotIdx p e.1) && saveFree s l.ctx e.2)

/-- The next name generation of a slot (R242). -/
def genOf (s : State) (c : Nat) : Nat := Tab.getD s.gens 0 c

/-- The name of a course bound at a slot with a generation (R241). -/
def nameOf (s : State) (dev c gen : Nat) : DWord :=
  BitVec.ofNat 64 (podOf s dev * 2 ^ 52 + (s.dev dev).incarn.toNat * 2 ^ 44 + dieOf c * 2 ^ 41 + coreOf c % 64 * 2 ^ 35
    + slotOf c * 2 ^ 30 + gen % 2 ^ 14 * 2 ^ 16)

/-- The bind record of one course of a team. -/
def bindRecOf (l : Launch) (tid : Nat) (panel : Option (Nat × BitVec 3)) (teamid : Nat) (p : TeamPlace) (i slot saveIdx gen : Nat) :
    BindRec :=
  { entryPc := l.shape.entry, asid := l.ctx % 65536, slot := slot, cprio := i + 16 * l.prio, teamid := teamid
    panel := match panel with
      | some (m, sc) => m + 64 + 128 * (sc.toNat - 1)
      | none => 0
    gen := gen, lsBase := p.lsBase, lsSize := shapeGranules l.shape, tiles := p.tile0, ntiles := l.shape.tiles
    bars := p.bar0, nbars := l.shape.bars, saveIdx := saveIdx, team := tid }

/-- A team's part of its core made ready: local store from the image, every granule full; tiles zero; barriers at their
default counts; with handles, no L1 copy left (R25, R123, R158, R399). -/
def readyCore (l : Launch) (p : TeamPlace) (k : Core) : Core :=
  let n := shapeGranules l.shape
  let inside := fun (g : Nat) => p.lsBase ≤ g && g < p.lsBase + n
  { k with
    ls := Memory.writeN (Memory.clear k.ls (16 * p.lsBase) (16 * n)) (16 * p.lsBase) l.image
    lsEmpty := k.lsEmpty.filter (fun g => !(inside g))
    lsPoison := k.lsPoison.filter (fun g => !(inside g))
    tiles := k.tiles.filter (fun e => !(p.tile0 ≤ e.1 && e.1 < p.tile0 + l.shape.tiles))
    bars := (List.range l.shape.bars).foldl (fun acc i => vset acc (p.bar0 + i) { expected := l.shape.courses }) k.bars
    l1 := if l.handles.isEmpty then k.l1 else [] }

/-- A team started at a place: its bind records are written, each after its journal entry, and its slots set to BIND. A place
that leaves the core's resources starts no team; the core refuses its records. -/
def startTeam (lid : Nat) (l : Launch) (panel : Option (Nat × Nat × BitVec 3)) (teamid : Nat) (p : TeamPlace) (s : State) : State :=
  let (tid, s0) := s.fresh
  let part := panel.map (fun e => (e.2.1, e.2.2))
  let gen := fun (t : State) (i c : Nat) =>
    match panel.bind (fun e => (Tab.find s.panels e.1).bind (fun y => Tab.find y.names (16 * e.2.1 + i))) with
    | some n => bitsOf n.toNat 16 14
    | none => genOf t c
  let r := fun (t : State) (i : Nat) (e : Nat × Nat) => bindRecOf l tid part teamid p i e.1 e.2 (gen t i (slotIdx p e.1))
  let fits := p.slots.all (fun e => recordFits (r s 0 e) (e.1 % 32))
  let t : Team :=
    { launch := lid, ctx := l.ctx, core := p.core, teamid := teamid, lsBase := p.lsBase, lsSize := shapeGranules l.shape
      tile0 := p.tile0, ntiles := l.shape.tiles, bar0 := p.bar0, nbars := l.shape.bars, ncourses := l.shape.courses
      live := l.shape.courses, panel := panel.map Prod.fst, pteam := (panel.map (fun e => e.2.1)).getD 0
      recAt := p.record }
  let s1 := if fits then { s0 with teams := Tab.put s0.teams tid t }.modCore p.core (readyCore l p) else s0
  let s2 := match panel with
    | some e => { s1 with panels := Tab.upd s1.panels e.1 (fun y => { y with members := Tab.put y.members e.2.1 tid }) }
    | none => s1
  (p.slots.zipIdx).foldl (fun acc (e : (Nat × Nat) × Nat) =>
    let c := slotIdx p e.1.1
    let rec_ := r acc e.2 e.1
    let s3 := setSlot c rec_ .bind (journal (p.core / 64) 2 (p.core % 64) (e.1.1 % 32) rec_.bytes acc)
    if panel.isSome then s3 else { s3 with gens := Tab.put s3.gens c ((rec_.gen + 1) % 2 ^ 14) }) s2

/-- The names of every course of every member of a panel, allocated at its admission (R22, R242). -/
def nameMembers (dev : Nat) (plan : List TeamPlace) (s : State) : Tab DWord × State :=
  (plan.zipIdx).foldl (fun (acc : Tab DWord × State) (e : TeamPlace × Nat) =>
    (e.1.slots.zipIdx).foldl (fun (a : Tab DWord × State) (y : (Nat × Nat) × Nat) =>
      let c := slotIdx e.1 y.1.1
      (Tab.put a.1 (16 * e.2 + y.2) (nameOf a.2 dev c (genOf a.2 c)),
       { a.2 with gens := Tab.put a.2.gens c ((genOf a.2 c + 1) % 2 ^ 14) })) acc) ([], s)

/-- A panel admitted as its first member starts (R22). -/
def admitPanel (lid : Nat) (l : Launch) (sc : BitVec 3) (n first : Nat) (plan : List TeamPlace) (s : State) : State :=
  let (pid, s0) := s.fresh
  let (names, s1) := nameMembers l.dev plan s0
  match plan with
  | [] => s
  | p :: _ =>
    let y : Panel :=
      { launch := lid, scope := sc, dev := l.dev, inst := instanceOf s.mode sc p.core, nteams := n, members := [], names := names
        bars := vconst 16 { expected := n * l.shape.courses }, shape := l.shape, first := first, plan := plan }
    startTeam lid l (some (pid, 0, sc)) first p { s1 with panels := Tab.put s1.panels pid y }

/-- The lowest base at which n places in a row are free of the parts in use. -/
def firstFit (cap n : Nat) (used : List (Nat × Nat)) : Option Nat :=
  ((0 :: used.map (fun e => e.1 + e.2)).filter (fun b => b + n ≤ cap && used.all (fun e => disjoint b n e.1 e.2))).foldl
    (fun (a : Option Nat) b => some (min b (a.getD b))) none

/-- A team of a launch put where its core has room beside the teams that are there and those planned before it: its lowest free
parts and slots, with the save areas that its place names. -/
def fitPlace (s : State) (l : Launch) (before : List TeamPlace) (p : TeamPlace) : Option TeamPlace := do
  let sh := l.shape
  let here := (Tab.vals s.teams).filter (fun t => t.resident && t.core == p.core)
  let plan := before.filter (fun q => q.core == p.core)
  let ls ← firstFit 32768 (shapeGranules sh) (here.map (fun t => (t.lsBase, t.lsSize)) ++ plan.map (fun q => (q.lsBase, shapeGranules sh)))
  let tile ← firstFit 64 sh.tiles (here.map (fun t => (t.tile0, t.ntiles)) ++ plan.map (fun q => (q.tile0, sh.tiles)))
  let bar ← firstFit 32 sh.bars (here.map (fun t => (t.bar0, t.nbars)) ++ plan.map (fun q => (q.bar0, sh.bars)))
  let free := (List.range 32).filter (fun i => slotFree s (32 * p.core + i) && plan.all (fun q => q.slots.all (fun e => e.1 % 32 != i)))
  if free.length < p.slots.length || heldForPanel s none p.core || !(dispatching s (p.core / 64))
      || !(p.slots.all (fun e => saveFree s l.ctx e.2)) then none
  else some { p with lsBase := ls, tile0 := tile, bar0 := bar, slots := free.zip (p.slots.map Prod.snd) }

/-- A panel put on the cores that a placement table names; none where one of them lacks room (R127). -/
def tablePlan (s : State) (l : Launch) (t : List TeamPlace) : Option (List TeamPlace) :=
  t.foldl (fun (a : Option (List TeamPlace)) p => a.bind (fun q => (fitPlace s l q p).map (fun y => q ++ [y]))) (some [])

/-- Where a panel of a launch is placed: on the cores of the skein's placement table when every one of them has room, else at
the places given (R127). -/
def panelPlan (s : State) (l : Launch) (idx n : Nat) : List TeamPlace :=
  let t := (l.table.drop idx).take n
  match if t.isEmpty then none else tablePlan s l t with
  | some q => q
  | none => l.places.take n

/-- The places of the next team or panel of a launch. -/
def nextPlan (s : State) (l : Launch) : List TeamPlace :=
  match l.shape.panel with
  | none => l.places.take 1
  | some (_, n, _) => panelPlan s l (l.teams - l.places.length) n

/-- The next team or panel of a launch placed, where there is room for it. -/
def placeNext (lid : Nat) (s : State) : Option State :=
  match Tab.find s.launches lid with
  | none => none
  | some l =>
    match l.places with
    | [] => none
    | p :: rest =>
      let idx := l.teams - l.places.length
      let left := fun (q : List TeamPlace) => { s with launches := Tab.put s.launches lid { l with places := q } }
      match l.shape.panel with
      | none => if canPlace s l none p then some (startTeam lid l none idx p (left rest)) else none
      | some (sc, n, b) =>
        let plan := nextPlan s l
        let p0 := plan.head?.getD p
        if admissible s sc (instanceOf s.mode sc p0.core) b && canPlace s l none p0 then
          some (admitPanel lid l sc n idx plan (left (l.places.drop n)))
        else none

def placeMany (lid : Nat) : Nat → State → State
  | 0, s => s
  | n + 1, s =>
    match placeNext lid s with
    | some t => placeMany lid n t
    | none => s

/-! ### COMMAND_LAUNCH (R377, R378) -/

/-- A completion word written, or SINK_FAULT (R378, R443). -/
def writeDone (ctx done queue seq value : Nat) (s : State) : State :=
  match devWriteVa s ctx done (toBytes 8 value) with
  | .ok t => t
  | .error _ => s.sinkFault (s.ctx ctx).dev 3 (ctx % 65536) done queue seq

/-- A launch has completed. -/
def launchOver (s : State) (lid : Nat) : Bool := (Tab.find s.launches lid).isNone

/-- Every course of a launch has signalled or ended (R106). -/
def launchReady (s : State) (lid : Nat) : Bool :=
  match Tab.find s.launches lid with
  | none => true
  | some l => l.courses ≤ l.readyCnt

/-- The predecessor a command is bound early to, while it has not completed. -/
def predecessor (s : State) (dev : Nat) (m : Command) : Option Nat :=
  if m.early then
    (s.launches.find? (fun e => e.2.dev == dev && e.2.queue == m.queue && e.2.seq == m.num 40 8)).map Prod.fst
  else none

/-- The order of R158 lets a launch start: what it reads has been written, what it writes has been written and read, and the
predecessor it is bound early to is ready. -/
def ordered (s : State) (dev : Nat) (m : Command) (hs : List DWord) : Bool :=
  let pred := predecessor s dev m
  let done_ := fun (w : Option Nat) => w.all (launchOver s)
  (pred.all (launchReady s)) && hs.all (fun h =>
    let t := Tab.getD (s.dev dev).handles {} (handleId h)
    if h.getLsbD 63 then done_ t.writer && t.readers.all (launchOver s)
    else done_ t.writer || (t.writer == pred && pred.all (launchReady s)))

/-- An earlier command that is not performed yet stands before a command: a clash of handles, or its predecessor. -/
def behind (s : State) (m : Command) (hs : List DWord) (e : Command) : Bool :=
  e.kind == 1 && ((m.early && e.queue == m.queue && e.num 56 8 == m.num 40 8) ||
    (match handleList s e with
     | .ok l => handlesClash l hs
     | .error _ => false))

/-- What a sound launch command says beyond its bytes. -/
structure Sound where
  placed  : Bool
  handles : List DWord
  args    : List DWord
  region  : BitVec 2
  strict  : Bool
  image   : List Byte

/-- The checks of a launch command. In order: its kind, its context, its handle list, the hank and its skein, the entry, the
shape, the arguments. DESIGN CHOICE (notes/assumptions/41.md), where the spec is silent: the reserved region code 3 of a skein
entry is accepted and becomes REGION as it stands. -/
def soundCommand (s : State) (dev : Nat) (m : Command) (sh : LaunchShape) : Except Nat Sound := do
  if m.kind != 1 || (Tab.find s.ctxs m.ctx).isNone then throw cBadCommand
  let hs ← handleList s m
  let e ← hankSkein s dev m
  if fieldOf e 28 4 ≤ m.num 4 4 then throw cBadCommand
  match shapeRefusal s dev sh with
  | some c => throw c
  | none =>
    match devReadVa s m.ctx (m.num 16 8) (8 * sh.binding.length) with
    | .error _ => if sh.binding.isEmpty then pure () else throw cBadCommand
    | .ok _ => pure ()
    let b := (devReadVa s m.ctx (m.num 16 8) (8 * sh.binding.length)).toOption.getD []
    pure { placed := bitOf (fieldOf e 24 4) 3, handles := hs
           args := (List.range sh.binding.length).map (fun i => BitVec.ofNat 64 (fieldOf b (8 * i) 8))
           region := BitVec.ofNat 2 (bitsOf (fieldOf e 24 4) 1 2), strict := bitOf (fieldOf e 24 4) 0
           image := lclImage s m e sh.lcl }

/-- The command that COMMAND_LAUNCH performs: the first that is no no-operation and that is refused or may start. -/
def nextCommand (s : State) (dev : Nat) (sh : LaunchShape) : List Command → List Command → Option (List Command × Command)
  | _, [] => none
  | earlier, m :: t =>
    let go := match soundCommand s dev m sh with
      | .error _ => true
      | .ok y => ordered s dev m y.handles && !(earlier.any (behind s m y.handles))
    if m.kind != 2 && go then some (earlier ++ t, m) else nextCommand s dev sh (earlier ++ [m]) t

/-- Every slot of a list of places is named once. -/
def slotsApart (l : List TeamPlace) : Bool :=
  let all := l.flatMap (fun p => p.slots.map (fun e => slotIdx p e.1))
  all.dedup.length == all.length

/-- Belaujor's places are places of the device inside the resources of its cores, one for every team, and each panel's lie in
one instance of its scope (R20, R379, R394). -/
def placesFit (s : State) (dev : Nat) (sh : LaunchShape) (count : Nat) (l : List TeamPlace) : Bool :=
  let per := match sh.panel with
    | some (_, n, _) => n
    | none => 1
  l.length == count * per
    && l.all (fun p => inResources sh p && p.core < 256 && (liveDies s dev).contains (p.core / 64) && p.slots.length == sh.courses)
    && (List.range count).all (fun i =>
      let part := (l.drop (per * i)).take per
      slotsApart part && (match sh.panel, part with
        | some (sc, _, _), p :: _ => part.all (fun q => inInstance s.mode sc (instanceOf s.mode sc p.core) q.core)
        | _, _ => true))

/-- The handle table after a launch has been taken (R158). -/
def noteHandles (dev lid : Nat) (hs : List DWord) (s : State) : State :=
  s.modDev dev (fun d => { d with handles := hs.foldl (fun t h =>
    let e := Tab.getD t {} (handleId h)
    if h.getLsbD 63 then Tab.put t (handleId h) { writer := some lid, readers := [] }
    else Tab.put t (handleId h) { e with readers := lid :: e.readers }) d.handles })

/-- A near range is named by a list of handles. -/
def nearNamed (r : NearRange) (l : List DWord) : Bool := l.any (fun h => r.handles.contains (handleId h))

/-- How many queued commands stand before the first that names a range: all of them, and one more, where none does (R386). -/
def nextUse (s : State) (dev : Nat) (r : NearRange) : Nat :=
  let q := (s.dev dev).commands
  let at_ := q.findIdx (fun m => match handleList s m with
    | .ok l => nearNamed r l
    | .error _ => false)
  if at_ < q.length then at_ else q.length + 1

/-- A launch that is bound names a range. -/
def boundUse (s : State) (dev : Nat) (r : NearRange) : Bool :=
  s.launches.any (fun e => e.2.dev == dev && nearNamed r e.2.handles)

/-- The range to demote of those that may be (R386): the farthest next use, then the lowest IA. -/
def victim (s : State) (dev : Nat) (l : List NearRange) : Option NearRange :=
  (l.filter (fun r => !(boundUse s dev r))).foldl (fun (best : Option NearRange) r =>
    match best with
    | none => some r
    | some b =>
      if nextUse s dev b < nextUse s dev r || (nextUse s dev b == nextUse s dev r && r.ia < b.ia) then some r else some b) none

/-- The pages of a range from an address on, handed to the migration engine of the near die's far die. -/
def demotePages (dev ctx f end_ : Nat) : Nat → Nat → State → State
  | 0, _, s => s
  | fuel + 1, ia, s =>
    if end_ ≤ ia then s
    else match walk s dev ia false with
    | .leaf e _ _ pa =>
      let n := pageBytes (pteSz e)
      let m : Migration :=
        { ctx := ctx, dev := dev, core := 0, team := 0, promote := false, enc := false, block := false, ia := ia / n * n, size := n }
      let s1 := if pageTierOk dev false pa then s.modMig f (fun y => { y with queue := y.queue ++ [m] }) else s
      demotePages dev ctx f end_ fuel (ia / n * n + n) s1
    | .fault _ _ => demotePages dev ctx f end_ fuel (ia / 4096 * 4096 + 4096) s

/-- Ranges demoted before a launch's own are placed; the launch that is being bound names none of them, n of them as long as one can be chosen (R386). Where none can, the new
pages lie in the far tier, which is system software's page table. -/
def demote (dev ctx : Nat) : Nat → List NearRange → State → State
  | 0, _, s => s
  | n + 1, l, s =>
    match victim s dev l with
    | none => s
    | some r =>
      demote dev ctx n (l.filter (· != r))
        (demotePages dev ctx (farOf ((dispatchDie s dev).getD 0)) (r.ia + r.size) (r.size / 4096 + 1) r.ia s)

/-- The launch created from a sound command, and its teams placed as far as there is room. DESIGN CHOICE
(notes/assumptions/41.md): the local-store image is read as the launch command is performed and kept with the launch until its
teams bind. The placement table of a pre-placed skein counts where its places are places of the device (R127). -/
def createLaunch (dev : Nat) (m : Command) (r : LaunchChoice) (y : Sound) (s : State) : State :=
  let (lid, s0) := s.fresh
  let l : Launch :=
    { dev := dev, ctx := m.ctx, queue := m.queue, seq := m.num 56 8, done := m.num 48 8, notifyDone := bitOf (m.num 2 2) 1
      toHost := bitOf (m.num 2 2) 2, handles := y.handles, prio := m.num 28 2 % 16, courses := r.places.length * r.shape.courses
      ended := 0, readyCnt := 0, shape := r.shape, region := y.region, strict := y.strict, image := y.image
      teams := r.places.length, places := r.places, args := y.args
      table := if y.placed && placesFit s dev r.shape (m.num 24 4) r.table then r.table else [] }
  placeMany lid r.places.length (noteHandles dev lid y.handles
    (demote dev m.ctx r.demote r.near { s0 with launches := Tab.put s0.launches lid l }))

/-- COMMAND_LAUNCH: the next command is refused, its code in its completion word, or becomes a launch. The shape is that of
the launch entry the command names, whose bytes the spec does not lay out; the places are Belaujor's. -/
def execCommandLaunch (dev : Nat) (r : LaunchChoice) (s : State) : Out :=
  if (dispatchDie s dev).isNone then .next s
  else match nextCommand s dev r.shape [] (s.dev dev).commands with
  | none => .next s
  | some (rest, m) =>
    let s1 := s.modDev dev (fun d => { d with commands := rest })
    match soundCommand s dev m r.shape with
    | .error code => .next (writeDone m.ctx (m.num 48 8) m.queue (m.num 56 8) code s1)
    | .ok y => if placesFit s dev r.shape (m.num 24 4) r.places then .next (createLaunch dev m r y s1) else .next s

/-- COMMAND_NOP: the first no-operation command of the bank's device is taken. -/
def execCommandNop (s : State) : Out :=
  let d := s.dev s.bank
  match d.commands.find? (fun m => m.kind == 2) with
  | none => .next s
  | some m => if (dispatchDie s s.bank).isNone then .next s else .next (s.modDev s.bank (fun y => { y with commands := y.commands.erase m }))

/-- PANEL_MEMBER_START (R23): the panel's next member starts at its planned slots, at a place where there is room. -/
def execPanelMemberStart (panel : Nat) (p : TeamPlace) (s : State) : Out :=
  match Tab.find s.panels panel with
  | none => .next s
  | some y =>
    let k := y.members.length
    match y.plan[k]?, Tab.find s.launches y.launch with
    | some q, some l =>
      if k < y.nteams && p.core == q.core && p.slots == q.slots && canPlace s l (some panel) p then
        .next (startTeam y.launch l (some (panel, k, y.scope)) (y.first + k) p s)
      else .next s
    | _, _ => .next s

/-! ### COURSE_BIND (R25, R98, R379) -/

/-- The g registers at bind: the arguments where the launch binds them, else zero. -/
def boundG (l : Launch) : Vector GReg 32 :=
  (l.shape.binding.zip l.args).foldl (fun acc e => vset acc e.1 { val := e.2 }) (vconst 32 {})

/-- SEED at bind. -/
def boundSeed (teamid tcourse : Nat) : Word :=
  let x := 0x2545F491#32 ^^^ BitVec.ofNat 32 (16 * teamid + tcourse)
  if x = 0#32 then 1#32 else x

/-- A course as a bind record starts it. -/
def boundCourse (s : State) (c : Nat) (r : BindRec) (l : Launch) (t : Team) : Course :=
  let y : Strand := { live := true, pc := r.entryPc, mask := 0xFFFFFFFF#32, g := boundG l, readySince := s.clockOf c }
  { ctx := l.ctx, team := r.team, tcourse := r.cprio % 16, teamid := r.teamid, pteam := t.panel.map (fun _ => t.pteam)
    name := nameOf s l.dev c r.gen, saveIdx := r.saveIdx, strands := vset (vconst 4 {}) 0 y
    seed := boundSeed r.teamid (r.cprio % 16), prio := r.cprio / 16, region := l.region.toNat, strict := l.strict }

/-- The launch whose next team or panel would take a slot, with room for it. -/
def pendingFor (s : State) (c : Nat) : Option Nat :=
  (s.launches.find? (fun e => match nextPlan s e.2 with
    | p :: _ => p.slots.any (fun y => slotIdx p y.1 == c) && (placeNext e.1 s).isSome
    | [] => false)).map Prod.fst

/-- A bind record with RESUME set, as a take-over writes it again: the core resumes the course that it names (R390, R454). -/
def resumeRecorded (c : Nat) (r : BindRec) (s : State) : State :=
  let save := savedKey (65536 * devOfDie s.mode (dieOf c) + r.asid) r.saveIdx
  match Tab.find s.saved save with
  | none => refuseBind c s
  | some v => match s.team v.course.team with
    | none => refuseBind c s
    | some t => resumeBound c save v t { core := coreOf c, lsBase := r.lsBase, tile0 := r.tiles, bar0 := r.bars, slots := []
                                         record := t.recAt } s

/-- COURSE_BIND: a slot set to BIND binds its course, or refuses a record that leaves the core's resources. A team that has
been waiting for the slot has its records written first. -/
def execCourseBind (c : Nat) (s : State) : Out :=
  let s1 := if (slotAt s c).state == .bind then s else ((pendingFor s c).bind (fun lid => placeNext lid s)).getD s
  let e := slotAt s1 c
  if e.state != .bind then .next s
  else if bitOf e.rec_.gen 14 then .next (resumeRecorded c e.rec_ s1)
  else if !(recordFits e.rec_ (slotOf c)) then .next (refuseBind c s1)
  else match s1.team e.rec_.team with
  | none => .next (refuseBind c s1)
  | some t =>
    if !t.resident then .next (refuseBind c s1)
    else match Tab.find s1.launches t.launch with
    | none => .next (refuseBind c s1)
    | some l => .next (setSlot c e.rec_ .run (s1.setCourse c (boundCourse s1 c e.rec_ l t)))

/-! ### LAUNCH_COMPLETE (R158, R378, R469) -/

/-- Every course has ended, every engine operation is done, no RSTV of the launch is still to be delivered, and no completion FIFO
holds an end or a completion of it (R455). -/
def launchDone (s : State) (lid : Nat) (l : Launch) : Bool :=
  l.places.isEmpty && l.courses ≤ l.ended && (Tab.vals s.teams).all (fun t => t.launch != lid)
    && (Tab.vals s.rstvs).all (fun r => r.owner.launch != lid)
    && (vlist s.dies).all (fun d => d.fifo.all (fun e => e.toNat % 2 ^ 63 / 2 != lid))
    && s.cores.all (fun e => e.2.rbuf.all (fun r => r.owner.launch != lid))

/-- The notification of a completion (R377); the spec gives it no payload. -/
def noteDone (lid : Nat) (l : Launch) (s : State) : State :=
  if l.notifyDone then
    let n : Note := { launch := lid, queue := l.queue, seq := l.seq, value := (Config.freeValue s.freeCount).setWidth 32 }
    { s with freeCount := s.freeCount + 1 }.modDev l.dev (fun d =>
      if l.toHost then { d with noteHost := d.noteHost ++ [n] } else { d with noteApp := d.noteApp ++ [n] })
  else s

/-- LAUNCH_COMPLETE: after its journal entry, the completion word is written. -/
def execLaunchComplete (launch : Nat) (s : State) : Out :=
  match Tab.find s.launches launch with
  | none => .next s
  | some l =>
    match dispatchDie s l.dev with
    | none => .next s
    | some die =>
      if !(launchDone s launch l) then .next s
      else
        let pay := toBytes 8 l.done ++ toBytes 8 l.ctx ++ toBytes 8 l.seq
        let s1 := writeDone l.ctx l.done l.queue l.seq 0 (journal die 4 0 l.queue pay s)
        .next { noteDone launch l s1 with launches := Tab.del s1.launches launch }

end Sys2Proof.Machine
end

