-- ==== Sys2Proof/Machine/Context.lean ====
section
/-! DEFINITION. Contexts created, updated and destroyed through CTXCMD (R15, R40, R420 to R423, R443, R451, R456, R463). -/

namespace Sys2Proof.Machine

/-! ### Devices of a mode (R14, R451) -/

/-- Modes by their code. -/
def modeOf (n : Nat) : Mode :=
  match n with
  | 0 => .one
  | 1 => .two
  | _ => .four

/-- A device is presented in a mode: ONE over the near dies that survive, TWO over pairs that survive whole, FOUR over single
dies. -/
def presented (s : State) (m : Mode) (dev : Nat) : Bool :=
  let dies := (List.range 4).filter (fun d => devOfDie m d == dev)
  let up := fun (d : Nat) => (s.die d).fence == Fence.none
  (devices m).contains dev && (if m == .one then dies.any up else dies.all up)

/-! ### The descriptor (R421) -/

/-- Bytes of a descriptor as a number. -/
def descNum (b : List Byte) (off n : Nat) : Nat := fieldOf b off n

/-- A range register from its 32 bytes (R422). -/
def parseRange (b : List Byte) : RangeReg :=
  { base := BitVec.ofNat 64 (fieldOf b 0 8), limit := BitVec.ofNat 64 (fieldOf b 8 8), offset := BitVec.ofNat 64 (fieldOf b 16 8)
    attr := BitVec.ofNat 32 (fieldOf b 24 4) }

def parseRanges (b : List Byte) : Vector RangeReg 8 := vof 8 (fun i => parseRange ((b.drop (0x80 + 32 * i)).take 32))

/-- Reserved bytes and bits of the range registers are zero. -/
def rangesReserved (b : List Byte) : Bool :=
  (List.range 8).all (fun i => descNum b (0x80 + 32 * i + 28) 4 == 0 && bitsOf (descNum b (0x80 + 32 * i + 24) 4) 19 13 == 0)

/-- A valid range is as R422 wants it. -/
def rangeSound (r : RangeReg) : Bool :=
  !(rrValid r) || (r.base.toNat % 4096 == 0 && r.limit.toNat % 4096 == 0 && r.base.toNat < r.limit.toNat && rrChk r != 3
    && (rrChk r != 1 || !(rrW r)) && (!(rrPod r) || rrChk r == 1 || rrChk r == 2) && (rrPod r || rrPodId r == 0)
    && (rrPod r || (rangeIa r r.base.toNat < 2 ^ 48 && rangeIa r r.base.toNat + (r.limit.toNat - r.base.toNat) ≤ 2 ^ 48)))

/-- No two valid ranges overlap. -/
def rangesApart (l : List RangeReg) : Bool :=
  match l with
  | [] => true
  | r :: t => t.all (fun q => !(rrValid r) || !(rrValid q) || r.limit.toNat ≤ q.base.toNat || q.limit.toNat ≤ r.base.toNat)
      && rangesApart t

def rangesOk (b : List Byte) : Bool :=
  let l := vlist (parseRanges b)
  rangesReserved b && l.all rangeSound && rangesApart l

/-- A block-table descriptor from its 64 bytes (R215). -/
def parseTable (b : List Byte) : BlockTab :=
  { map := fieldOf b 0 8, maplen := fieldOf b 8 4, log2bs := fieldOf b 12 1, perm := fieldOf b 13 1, pool := fieldOf b 16 8
    poollen := fieldOf b 24 4, freestk := fieldOf b 32 8, freecap := fieldOf b 40 4 }

def parseTables (b : List Byte) : Vector BlockTab 8 := vof 8 (fun i => parseTable ((b.drop (0x180 + 64 * i)).take 64))

/-- The reserved fields of the block-table descriptors are zero. -/
def tablesOk (b : List Byte) : Bool :=
  (List.range 8).all (fun i =>
    let n := fun (off k : Nat) => descNum b (0x180 + 64 * i + off) k
    n 13 1 < 4 && n 14 2 == 0 && n 28 4 == 0 && n 44 20 == 0)

/-- The owner set: the context's own ASID first, then the entries up to the first zero. -/
def parseOwners (asid : Nat) (b : List Byte) : List Nat :=
  asid :: ((List.range 15).map (fun i => descNum b (0x382 + 2 * i) 2)).takeWhile (· != 0)

/-- The name groups: the entries that are not zero (R437). -/
def parseGroups (b : List Byte) : List Nat := ((List.range 8).map (fun i => descNum b (0x3A0 + 2 * i) 2)).filter (· != 0)

/-- Entries of a register list at an intermediate address; none where it cannot be read. -/
def listAt (s : State) (dev ia n size : Nat) : Option (List Nat) :=
  (iaRead s dev ia (n * size)).map (fun b => (List.range n).map (fun i => fieldOf b (size * i) size))

/-- The format registers a creation supplies, none where one is no valid descriptor (R268, R273). -/
def suppliedFormats (s : State) (dev : Nat) (b : List Byte) : Option (Vector DWord 32) :=
  let m := BitVec.ofNat 64 (descNum b 0x20 8)
  if m = 0#64 then some (vconst 32 4#64)
  else (listAt s dev (descNum b 0x28 8) 32 8).bind (fun l =>
    let at_ := fun (i : Nat) => if m.getLsbD i then BitVec.ofNat 64 (l.getD i 4) else 4#64
    if (List.range 32).all (fun i => fdValid (at_ i)) then some (vof 32 at_) else none)

/-- The bound registers a creation supplies, none where one is refused (R353, R367). -/
def suppliedBounds (s : State) (dev : Nat) (b : List Byte) : Option (Vector BoundReg 64) :=
  let m := BitVec.ofNat 64 (descNum b 0x30 8)
  if m = 0#64 then some (vconst 64 {})
  else (listAt s dev (descNum b 0x38 8) 64 16).bind (fun l =>
    let at_ := fun (i : Nat) =>
      if m.getLsbD i then boundOf (l.getD i 0 % 2 ^ 64) (l.getD i 0 / 2 ^ 64) false {} else some ({} : BoundReg)
    ((List.range 64).mapM at_).map (fun v => vof 64 (fun i => v.getD i {})))

/-- ESCCOST; an address of zero supplies none. -/
def suppliedCosts (s : State) (dev : Nat) (b : List Byte) : Option (Vector DWord 32) :=
  if descNum b 0x48 8 = 0 then some (vconst 32 0#64)
  else (listAt s dev (descNum b 0x48 8) 32 8).map (fun l => vof 32 (fun i => BitVec.ofNat 64 (l.getD i 0)))

/-- The reserved fields outside ranges and tables are zero. -/
def descReserved (b : List Byte) : Bool :=
  descNum b 2 1 < 4 && descNum b 3 1 < 2 && descNum b 4 1 < 16 && descNum b 5 3 == 0 && descNum b 0x50 48 == 0
    && descNum b 0x3B0 64 == 0 && descNum b 0x3F0 8 < 2 ^ 7

/-! ### CONTEXT_CREATE -/

/-- ASID_BUSY: live, or held after a destroy. -/
def asidBusy (s : State) (dev asid : Nat) : Bool :=
  (Tab.find s.ctxs (65536 * dev + asid)).isSome || (s.dev dev).held.any (fun h => h.asid == asid && s.aon < h.till)

/-- The context a sound descriptor describes. -/
def newContext (s : State) (dev : Nat) (b : List Byte) : Option Ctx := do
  let f ← suppliedFormats s dev b
  let q ← suppliedBounds s dev b
  let c ← suppliedCosts s dev b
  let asid := descNum b 0 2
  let cx : Ctx :=
    { dev := dev, asid := asid, priv := descNum b 3 1 == 1, tclass := descNum b 4 1
      errq := BitVec.ofNat 64 (descNum b 8 8), saveBase := BitVec.ofNat 64 (descNum b 0x10 8)
      telPage := BitVec.ofNat 64 (descNum b 0x18 8), formats := f, bounds := q, escBudget := BitVec.ofNat 64 (descNum b 0x40 8)
      escCost := c, ranges := parseRanges b, tables := parseTables b, owners := parseOwners asid b, groups := parseGroups b
      telAt := s.aon }
  if !(descReserved b) || descNum b 2 1 == 3 || asid = 0 || descNum b 4 1 = 0 || !(rangesOk b) || !(tablesOk b) then none
  else some cx

/-- The status of a create, with the context where it is 0: the bank and the mode first, then the descriptor, then the
ASID. -/
def createResult (s : State) (dev : Nat) (b : List Byte) : Nat × Option Ctx :=
  let live := !s.ctxs.isEmpty
  let named := modeOf (descNum b 2 1 % 4)
  let m := if live then s.mode else named
  if !(presented s m dev) then (2, none)
  else if live && named != s.mode then (1, none)
  else match newContext s dev b with
    | none => (2, none)
    | some c => if asidBusy s dev c.asid then (3, none) else (0, some c)

/-- A command is the first of the hub's over all banks: it performs them one at a time, in the order in which they were
written (R15, R420). -/
def firstCmd (s : State) (m : CtxCmd) : Bool :=
  (vlist s.devs).all (fun d => match d.ctxQueue with
    | [] => true
    | e :: _ => m.num ≤ e.num)

/-- The head of the bank's queue with its code, where it is the hub's next command and of a kind. -/
def headCmd (s : State) (code : Nat) : Option (Nat × State) :=
  match (s.dev s.bank).ctxQueue with
  | [] => none
  | m :: t => if m.cmd = code && firstCmd s m then some (m.desc, s.modDev s.bank (fun d => { d with ctxQueue := t })) else none

/-- The head of the bank's queue was written by the external host. -/
def headHost (s : State) : Bool := ((s.dev s.bank).ctxQueue.head?.map CtxCmd.host).getD false

/-- The status word of a context command; nothing is written where it cannot be. -/
def cmdStatus (dev desc v : Nat) (s : State) : State := (iaWrite s dev (desc + 0x3F8) (toBytes 8 v)).getD s

/-- A mode presented: where it changes, the devices take the maps planned for it (R14, R15, R470). -/
def fixMode (m : Mode) (s : State) : State :=
  if m = s.mode then s else (devices m).foldl loadPlan { s with mode := m }

/-- CONTEXT_CREATE: the first context of an empty package fixes the mode (R15). -/
def execContextCreate (s : State) : Out :=
  match headCmd s 1 with
  | none => .next s
  | some (desc, s1) =>
    match iaRead s1 s.bank desc 1024 with
    | none => .next s1
    | some b =>
      match createResult s1 s.bank b with
      | (st, none) => .next (cmdStatus s.bank desc st s1)
      | (st, some c) =>
        .next (cmdStatus s.bank desc st
          (fixMode (modeOf (descNum b 2 1)) { s1 with ctxs := Tab.put s1.ctxs (65536 * s.bank + c.asid) { c with toHost := headHost s } }))

/-! ### CONTEXT_UPDATE (R421, R423, R443, R456) -/

/-- The parts that UPMASK names are sound. -/
def updateOk (s : State) (dev : Nat) (b : List Byte) : Bool :=
  let m := descNum b 0x3F0 8
  descReserved b && (!(bitOf m 0) || rangesOk b) && (!(bitOf m 1) || tablesOk b) && (!(bitOf m 4) || descNum b 4 1 != 0)
    && (!(bitOf m 5) || (suppliedCosts s dev b).isSome)

/-- The parts that UPMASK names replaced; a raised budget ends saturation (R356). -/
def updated (s : State) (dev : Nat) (b : List Byte) (c : Ctx) : Ctx :=
  let m := descNum b 0x3F0 8
  let c0 := if bitOf m 0 then { c with ranges := parseRanges b } else c
  let c1 := if bitOf m 1 then { c0 with tables := parseTables b } else c0
  let c2 := if bitOf m 2 then { c1 with owners := parseOwners c.asid b } else c1
  let c3 := if bitOf m 3 then { c2 with groups := parseGroups b } else c2
  let c4 := if bitOf m 4 then { c3 with tclass := descNum b 4 1 } else c3
  let budget := BitVec.ofNat 64 (descNum b 0x40 8)
  let c5 := if bitOf m 5 then { c4 with
      escBudget := budget, escCost := (suppliedCosts s dev b).getD c4.escCost
      saturated := c4.saturated && !(decide (c4.escBudget.toNat < budget.toNat)) } else c4
  if bitOf m 6 then { c5 with
    errq := BitVec.ofNat 64 (descNum b 8 8), telPage := BitVec.ofNat 64 (descNum b 0x18 8), errFault := false, telFault := false }
  else c5

/-- The dispatch of a die is lost for good (R456). -/
def dispatchLost (s : State) (die : Nat) : Bool :=
  (s.die die).fence == .none && !(s.die die).sched.running && !(s.die die).sched.standby

/-- Launches of a context with teams that wait to be bound on a die whose dispatch is lost are refused with BAD_COMMAND; so are
its launch commands that have been read, where no die of the device dispatches any more (R456). Teams of a refused launch that
are bound already run until they end. -/
def refuseWaiting (ctx : Nat) (s : State) : State :=
  let s1 := (s.launches.filter (fun e => e.2.ctx == ctx && e.2.places.any (fun p => dispatchLost s (p.core / 64)))).foldl
    (fun acc (e : Nat × Launch) =>
      writeDone ctx e.2.done e.2.queue e.2.seq cBadCommand { acc with launches := Tab.del acc.launches e.1 }) s
  let dev := (s.ctx ctx).dev
  let lost := (dispatchDie s dev).isNone && (liveDies s dev).any (dispatchLost s)
  let l := (s.dev dev).commands.filter (fun m => m.ctx == ctx && m.kind == 1)
  if !lost then s1
  else l.foldl (fun acc m => writeDone ctx (m.num 48 8) m.queue (m.num 56 8) cBadCommand acc)
    (s1.modDev dev (fun d => { d with commands := d.commands.filter (fun m => !(m.ctx == ctx && m.kind == 1)) }))

/-- CONTEXT_UPDATE: an update of no live context is refused with BAD_CONTEXT. -/
def execContextUpdate (s : State) : Out :=
  match headCmd s 2 with
  | none => .next s
  | some (desc, s1) =>
    match iaRead s1 s.bank desc 1024 with
    | none => .next s1
    | some b =>
      let ctx := 65536 * s.bank + descNum b 0 2
      if (Tab.find s1.ctxs ctx).isNone || !(updateOk s1 s.bank b) then .next (cmdStatus s.bank desc 2 s1)
      else .next (cmdStatus s.bank desc 0 (refuseWaiting ctx ((s1.modCtx ctx (updated s1 s.bank b)).dropWindow ctx)))

/-! ### CONTEXT_DESTROY (R40, R421) -/

/-- A core without the work of a context. -/
def purgeCore (ctx : Nat) (tids : List Nat) (k : Core) : Core :=
  let mine := fun (o : Owner) => o.ctx == ctx
  let k1 := dropWork mine k
  { k1 with
    mq := k1.mq.filter (fun o => o.fence.isSome || !(mine o.owner))
    collq := k1.collq.filter (fun o => o.fence.isSome || !(mine o.owner))
    swq := k1.swq.filter (fun o => o.fence.isSome || !(mine o.owner))
    rbuf := k1.rbuf.filter (fun r => !(mine r.owner))
    codebook := if (k1.codebook.map (fun t => tids.contains t.team)).getD false then none else k1.codebook }

/-- What a request was made for belongs to a context. -/
def RemoteOut.ofCtx (q : RemoteOut) (ctx : Nat) : Bool := q.ctx == ctx

/-- Every part of a context taken out of the machine: its courses, bound and saved, its teams, panels and launches, and what
they had not performed. -/
def purge (ctx : Nat) (s : State) : State :=
  let dev := (s.ctx ctx).dev
  let tids := (s.teams.filter (fun e => e.2.ctx == ctx)).map Prod.fst
  let cs := (s.courses.filter (fun e => e.2.ctx == ctx)).map Prod.fst
  let ids := (s.saved.filter (fun e => e.2.course.ctx == ctx)).map (fun e => savedId e.1)
  let lids := (s.launches.filter (fun e => e.2.ctx == ctx)).map Prod.fst
  let s1 := tids.foldl (fun acc t => endTeam acc t)
    { s with cores := s.cores.map (fun (e : Nat × Core) => (e.1, purgeCore ctx tids e.2)) }
  { s1 with
    courses := s1.courses.filter (fun e => e.2.ctx != ctx)
    slots := s1.slots.filter (fun e => !(tids.contains e.2.rec_.team))
    saved := s1.saved.filter (fun e => e.2.course.ctx != ctx)
    savedTeams := s1.savedTeams.filter (fun e => !(tids.contains e.1))
    returning := s1.returning.filter (fun e => !(cs.contains e.1))
    panels := s1.panels.filter (fun e => !(lids.contains e.2.launch))
    launches := s1.launches.filter (fun e => e.2.ctx != ctx)
    accesses := s1.accesses.filter (fun e => e.2.ctx != ctx)
    arrivals := s1.arrivals.filter (fun e => !(cs.contains e.2.course) && !(ids.contains e.2.course))
    gran := s1.gran.filter (fun e => !(cs.contains e.2.course) && !(ids.contains e.2.course))
    remotes := s1.remotes.filter (fun e => !(e.2.ofCtx ctx))
    rstvs := s1.rstvs.filter (fun e => e.2.owner.ctx != ctx || e.2.core.isNone)
    cows := s1.cows.filter (fun e => e.2.ctx != ctx)
    mig := vmap (fun (m : MigEngine) => { m with
      queue := m.queue.filter (fun x => x.ctx != ctx), pools := m.pools.filter (fun e => e.1 / 4 != ctx) }) s1.mig
    ctxs := Tab.del s1.ctxs ctx }.modDev dev (fun d => { d with
      commands := d.commands.filter (fun m => m.ctx != ctx)
      norms := d.norms.filter (fun n => n.ctx != ctx)
      podTlb := d.podTlb.filter (fun e => e.ctx != ctx) })

/-- Fences of every core that the work taken out had held up. -/
def freeFences (s : State) : State := s.cores.foldl (fun acc (e : Nat × Core) => fencesOf e.1 acc) s

/-- CONTEXT_DESTROY: every course of the context is unbound, and its ASID is held for the lease. -/
def execContextDestroy (s : State) : Out :=
  match headCmd s 3 with
  | none => .next s
  | some (desc, s1) =>
    match iaRead s1 s.bank desc 2 with
    | none => .next s1
    | some b =>
      let asid := fieldOf b 0 2
      let ctx := 65536 * s.bank + asid
      if (Tab.find s1.ctxs ctx).isNone then .next (cmdStatus s.bank desc 2 s1)
      else
        let s2 := (freeFences ((purge ctx s1).dropWindow ctx)).modDev s.bank (fun d => { d with
          held := d.held.filter (fun h => h.asid != asid) ++ [{ asid := asid, till := s.aon + 1000 * d.lease }] })
        .next (cmdStatus s.bank desc 0 s2)

/-- ASID_HOLD_EXPIRE (R421). -/
def execAsidHoldExpire (dev asid : Nat) (s : State) : Out :=
  .next (s.modDev dev (fun d => { d with held := d.held.filter (fun h => !(h.asid == asid && h.till ≤ s.aon)) }))

/-- CTXSTAT_READ: a command is performed in one step, so BUSY reads 0; OVF is cleared. -/
def execCtxstatRead (s : State) : Out :=
  let d := s.dev s.bank
  .next ({ s with hostRead := BitVec.ofNat 64 (2 * min 16 d.ctxQueue.length + (if d.ctxOvf then 64 else 0)) }.modDev s.bank
    (fun y => { y with ctxOvf := false }))

end Sys2Proof.Machine
end

