-- ==== Sys2Proof/Machine/Hub.lean ====
section
/-! DEFINITION. The hub: the address map and its rewriting (R157, R457, R464), keys (R433, R463, R473), notifications (R481),
leases (R429), telemetry (R436) and way masks (R434). -/

namespace Sys2Proof.Machine

/-! ### Staged tables (R464) -/

/-- Every address of an interval lies in a region of an ordered table. -/
def covered (l : List MapRegion) (lo hi : Nat) : Bool :=
  hi ≤ l.foldl (fun a r => if r.base ≤ a && a < r.limit then r.limit else a) lo

/-- Every intermediate address of a live range register has a home. -/
def rangesHomed (s : State) (dev : Nat) (l : List MapRegion) : Bool :=
  (Tab.vals s.ctxs).all (fun c => c.dev != dev || (vlist c.ranges).all (fun r =>
    !(rrValid r) || rrPod r || covered l (rangeIa r r.base.toNat) (rangeIa r r.base.toNat + (r.limit.toNat - r.base.toNat))))

/-- The staged table, where the hub accepts it. -/
def stagedTable (s : State) (dev : Nat) : Option (List MapRegion) :=
  let e := stageEntries (stageBytes (s.dev dev))
  let l := e.map Prod.fst
  if e.all Prod.snd && regionsOrdered l && l.all (regionHomed s dev) && rangesHomed s dev l then some l else none

/-! ### MAP_MOVE and MAP_SWITCH (R457) -/

/-- The head of the bank's MAPCMD queue, where it is a command of a code: the address of its status word. -/
def headMap (s : State) (code : Nat) : Option (Nat × State) :=
  match (s.dev s.bank).mapCmds with
  | [] => none
  | m :: t => if m % 4 = code then some (bitsOf m 3 45 * 8, s.modDev s.bank (fun d => { d with mapCmds := t })) else none

/-- The regions of a new table, from an index on, that are not regions of the table in force: only their granules can have another
home. -/
def movedFrom (old l : List MapRegion) (i : Nat) : Option Nat :=
  (List.range l.length).find? (fun r => i ≤ r && (l[r]?).any (fun q => !(old.contains q)))

/-- The granule to be copied after one. -/
def nextGranule (old l : List MapRegion) (r g : Nat) : Option (Nat × Nat) :=
  if (l[r]?).any (fun q => q.base + 4096 * (g + 1) < q.limit) then some (r, g + 1) else (movedFrom old l (r + 1)).map (fun i => (i, 0))

/-- A MOVE goes on with a granule, or, with none left, is done: its table is staged, its status word written. -/
def moveOn (dev ia : Nat) (l : List MapRegion) (at_ : Option (Nat × Nat)) (done s : State) : State :=
  match at_ with
  | some (r, g) => s.modDev dev (fun d => { d with move := some (l, r, g, s.aon) })
  | none => hubWord dev 0 ia 0 (done.modDev dev (fun d => { d with staged := l, move := none }))

/-- MAP_MOVE: the staged table is checked, and refused, or its granules are copied to their new homes one after another. Copying a
granule changes no byte that an address reads as (notes/assumptions/52.md); writes to it wait (granuleMoving). -/
def execMapMove (s : State) : Out :=
  match headMap s 1 with
  | none => .next s
  | some (ia, s1) =>
    let old := (s.dev s.bank).regions
    match (s.dev s.bank).move with
    | some (l, r, g, since) => if s.aon ≤ since then .next s else .next (moveOn s.bank ia l (nextGranule old l r g) s1 s)
    | none =>
      match stagedTable s1 s.bank with
      | none => .next (hubWord s.bank 0 ia 1 s1)
      | some l => .next (moveOn s.bank ia l ((movedFrom old l 0).map (fun i => (i, 0))) s1 s)

/-- The dies that home lines of a region table. -/
def homesOf (l : List MapRegion) : List Nat :=
  (l.flatMap (fun r => match r.kind with
    | 0 => (stacksOf r).map (· / 4)
    | 3 => [4 + r.port / 2]
    | k => [3 + k])).dedup

/-- The drain markers of a switch: from each old home to each new one (R157). -/
def markersOf (old new : List MapRegion) : List (Nat × Nat) :=
  (homesOf old).flatMap (fun a => ((homesOf new).filter (· != a)).map (fun b => (a, b)))

/-- A request stamped with an older generation than its device's is still to be performed. -/
def oldRequests (s : State) (dev : Nat) : Bool :=
  (Tab.vals s.accesses).any (fun a => (s.ctx a.ctx).dev == dev && a.mapGen != (s.dev dev).mapGen && a.undecided)

/-- A request that the old home a has still to forward to the new home b, or that b has still to perform: the marker comes
behind it. -/
def markerHeld (s : State) (dev a b : Nat) : Bool :=
  let d := s.dev dev
  (Tab.vals s.accesses).any (fun y => (s.ctx y.ctx).dev == dev && y.mapGen != d.mapGen && y.open_.any (fun x =>
    homeIn d.oldRegions x.ia == some a && homeIn d.regions x.ia == some b))

/-- The bank's SWITCH waits: a drain marker or a request of the generation before is still missing (R157, R457). -/
def switchHeld (s : State) (dev : Nat) : Bool := !(s.dev dev).markers.isEmpty || oldRequests s dev

/-- MAP_SWITCH: the moved table comes into force under a new generation, once no drain marker and no request of the one before
is missing; without a moved table it is refused. -/
def execMapSwitch (s : State) : Out :=
  match headMap s 2 with
  | none => .next s
  | some (ia, s1) =>
    let d := s.dev s.bank
    if switchHeld s s.bank then .next s
    else if d.staged.isEmpty then .next (hubWord s.bank 0 ia 1 s1)
    else .next (hubWord s.bank 0 ia 0 (s1.modDev s.bank (fun y => { y with
      regions := d.staged
      oldRegions := d.regions
      staged := []
      mapGen := (y.mapGen + 1) % 256
      markers := markersOf d.regions d.staged })))

/-- DRAIN_MARKER (R157): a marker arrives at a new home, behind the last request forwarded there. -/
def execDrainMarker (dev fromDie toDie : Nat) (s : State) : Out :=
  if markerHeld s dev fromDie toDie then .next s
  else .next (s.modDev dev (fun d => { d with markers := d.markers.erase (fromDie, toDie) }))

/-! ### Keys (R433, R463, R473) -/

def headKey (s : State) (code : Nat) : Option (Nat × State) :=
  match (s.dev s.bank).klCmds with
  | [] => none
  | m :: t => if m % 4 = code then some (bitsOf m 8 6, s.modDev s.bank (fun d => { d with klCmds := t })) else none

/-- KL_ESTABLISH: the shared secret becomes the key-encryption key. -/
def execKlEstablish (s : State) : Out :=
  match headKey s 1 with
  | none => .next s
  | some (_, s1) =>
    match Config.decapsulate (s.dev s.bank).kempk (s.dev s.bank).kemct with
    | some k => .next (s1.modDev s.bank (fun d => { d with kek := some k, klStat := 0 }))
    | none => .next (s1.modDev s.bank (fun d => { d with klStat := 1 }))

/-- Every line kept under a slot's old key reads as it decrypts under the new one. -/
def rekeyLines (dev slot : Nat) (old new : List Byte) (s : State) : State :=
  (s.lineKey.filter (fun e => e.2 == slot && e.1 / 2 ^ 37 == dev)).foldl (fun acc (e : Nat × Nat) =>
    let b := (Config.rekey old new (e.1 % 2 ^ 37) (acc.readMem (128 * e.1) 128)).take 128
    { acc with mem := Memory.writeN acc.mem (128 * e.1) b }) s

/-- KL_LOAD: a slot loaded with the unwrapped key as one step, or refused. -/
def execKlLoad (s : State) : Out :=
  match headKey s 2 with
  | none => .next s
  | some (slot, s1) =>
    let d := s.dev s.bank
    let key := (do
      let k ← d.kek
      let w ← iaRead s s.bank d.klKey.toNat 72
      if slot = 0 then none else Config.unwrap k w)
    match key with
    | none => .next (s1.modDev s.bank (fun y => { y with klStat := 1 }))
    | some k =>
      .next ((rekeyLines s.bank slot (Tab.getD d.keys [] slot) k s1).modDev s.bank (fun y => { y with
        keys := Tab.put y.keys slot k, klStat := 0 }))

/-! ### Notifications (R481) -/

/-- What a read of a notification FIFO returns. -/
def Note.word (n : Note) : DWord :=
  BitVec.ofNat 64 (n.value.toNat + 2 ^ 32 * (n.queue % 2 ^ 10) + 2 ^ 42 * (n.seq % 2 ^ 21) + 2 ^ 63)

/-- NOTEAPP_READ: the oldest notification of the application cores is taken; an empty FIFO reads as zero. -/
def execNoteappRead (s : State) : Out :=
  match (s.dev s.bank).noteApp with
  | [] => .next { s with hostRead := 0#64 }
  | n :: t => .next ({ s with hostRead := n.word }.modDev s.bank (fun d => { d with noteApp := t }))

/-- NOTEHOST_READ: the same for the external host. -/
def execNotehostRead (s : State) : Out :=
  match (s.dev s.bank).noteHost with
  | [] => .next { s with hostRead := 0#64 }
  | n :: t => .next ({ s with hostRead := n.word }.modDev s.bank (fun d => { d with noteHost := t }))

/-! ### Leases (R429) -/

/-- LEASE_EXPIRE: a home's translation of a page is dropped at the end of its lease. -/
def execLeaseExpire (dev ia : Nat) (s : State) : Out :=
  .next (s.modDev dev (fun d => { d with
    tlb := List.filter (fun (e : Nat × TlbEntry) => !(e.1 == ia / 4096 && e.2.expiry ≤ s.aon)) d.tlb }))

/-! ### Telemetry (R436, R443) -/

/-- The bytes of a telemetry page. -/
def telemetryBytes (c : Ctx) (aon : Nat) : List Byte :=
  toBytes 8 (c.telSeq + 1) ++ toBytes 8 aon ++ (List.range 49).flatMap (fun i => toBytes 8 (Tab.getD c.counters 0 (16 + 8 * i)))
    ++ List.replicate 3688 0#8

def telemetryDue (s : State) (c : Ctx) : Bool := (c.telSeq % 2 == 1 || c.telAt + 100000 ≤ s.aon) && !c.telFault

/-- The next write of a telemetry page: SEQ made odd, then the update with SEQ even (R436). -/
def telemetryWrite (c : Ctx) (aon : Nat) : List Byte := if c.telSeq % 2 = 0 then toBytes 8 (c.telSeq + 1) else telemetryBytes c aon

/-- TELEMETRY_UPDATE: every 100 µs SEQ is made odd, and the page is written, SEQ even after it; a page that cannot be reached is given
up. The page is one that the context may only read, so no write permission is asked for (DEDUCED, notes/assumptions/51.md). -/
def execTelemetryUpdate (dev asid : Nat) (s : State) : Out :=
  let ctx := 65536 * dev + asid
  match Tab.find s.ctxs ctx with
  | none => .next s
  | some c =>
    if !(telemetryDue s c) then .next s
    else match devWriteAs false s ctx c.telPage.toNat (telemetryWrite c s.aon) with
      | .ok t => .next (t.modCtx ctx (fun y => { y with telSeq := y.telSeq + 1, telAt := if c.telSeq % 2 = 0 then y.telAt else s.aon }))
      | .error _ => .next ((s.modCtx ctx (fun y => { y with telFault := true, telAt := s.aon })).sinkFault dev 2 asid c.telPage.toNat 0 0)

/-! ### Way masks (R434, R435) -/

/-- WAYALL_WRITE: a class's mask in every L2 and RDC slice of a die. -/
def execWayallWrite (die cls : Nat) (v : DWord) (s : State) : Out :=
  .next (s.modDie die (fun d => { d with
    wayMask := (List.range 64).foldl (fun t i => Tab.put t (16 * i + cls) (v.setWidth 16)) d.wayMask }))

end Sys2Proof.Machine
end

