-- ==== Sys2Proof/Machine/Recovery.lean ====
section
/-! DEFINITION. The scheduler cores and their take-over (R453 to R456), and the debugger's halt, step and local-store read
(R370, R458 to R461, R466). -/

namespace Sys2Proof.Machine

/-! ### Losing a scheduler core (R453, R456) -/

/-- HEARTBEAT_WRITE: the active core writes its register. -/
def execHeartbeatWrite (die : Nat) (v : DWord) (s : State) : Out :=
  if dispatching s die then .next (s.modDie die (fun d => { d with sched := { d.sched with beat := v, beatAt := s.aon } }))
  else .next s

/-- The active core of a die stopped: the standby is signalled, or, with none, the die's dispatch is lost. -/
def loseScheduler (die : Nat) (s : State) : State :=
  let s1 := s.modDie die (fun d => { d with sched := { d.sched with running := false } })
  if (s.die die).sched.standby then s1 else s1.postMlog (devOfDie s.mode die) { code := cDispatchLost }

/-- HEARTBEAT_TIMEOUT: 1 ms without a heartbeat. -/
def execHeartbeatTimeout (die : Nat) (s : State) : Out :=
  if dispatching s die && (s.die die).sched.beatAt + 1000000 ≤ s.aon then .next (loseScheduler die s) else .next s

/-- SCHEDULER_UE: an uncorrectable error in the active core. -/
def execSchedulerUe (die : Nat) (s : State) : Out := if dispatching s die then .next (loseScheduler die s) else .next s

/-- The last journal entry of an event stands above JAPPLIED: with its effect, or without it. A bind is taken back to the slot
as it was; any other effect is the whole of its event's. -/
def cutEffect (i : Instr) (die : Nat) (done : Bool) (s t : State) : State :=
  let d := t.die die
  let log := fun (u : State) => u.modDie die (fun y => { y with
    journal := d.journal, jnext := d.jnext, japplied := max (s.die die).japplied (d.jnext - 2) })
  match (Tab.find d.journal ((d.jnext - 1) % d.jsize)).bind JEntry.ofBytes with
  | none => t
  | some e =>
    let c := 32 * (64 * die + e.core) + e.index
    let resume := match i with
      | .courseResume _ _ _ => true
      | _ => false
    if done then log t
    else if e.kind = 2 && !resume then log { t with slots := Tab.put t.slots c (slotAt s c), courses := Tab.del t.courses c }
    else log s

/-- An event during which the active scheduler core of a die fails (R453, R454). -/
def cutEvent (i : Instr) (die : Nat) (done : Bool) (s : State) (r : Out) : Out :=
  match r with
  | .next t =>
    if dispatching s die && (s.die die).jnext < (t.die die).jnext then .next (loseScheduler die (cutEffect i die done s t)) else .next s
  | o => o

/-! ### SCHEDULER_TAKEOVER (R454, R455) -/

/-- A bind record read back from its 32 bytes; the team is the one that the core, the ASID and the team index name. -/
def recordFrom (s : State) (dev core : Nat) (b : List Byte) : BindRec :=
  let ctx := 65536 * dev + fieldOf b 8 2
  let tid := ((s.teams.find? (fun e => e.2.ctx == ctx && e.2.teamid == fieldOf b 12 4 && e.2.core == core)).map Prod.fst).getD 0
  { entryPc := BitVec.ofNat 64 (fieldOf b 0 8), asid := fieldOf b 8 2, slot := fieldOf b 10 1, cprio := fieldOf b 11 1
    teamid := fieldOf b 12 4, panel := fieldOf b 16 2, gen := fieldOf b 18 2, lsBase := fieldOf b 20 2, lsSize := fieldOf b 22 2
    tiles := fieldOf b 24 1, ntiles := fieldOf b 25 1, bars := fieldOf b 26 1, nbars := fieldOf b 27 1, saveIdx := fieldOf b 28 4
    team := tid }

/-- A head word that lies behind a journalled head set to it. -/
def replayHead (dev q head : Nat) (s : State) : State :=
  (do
    let e ← queueEntry s dev q
    let w ← iaRead s dev (fieldOf e 16 8) 8
    if head ≤ ofBytes w then pure s else iaWrite s dev (fieldOf e 16 8) (toBytes 8 head)).getD s

/-- One journal entry replayed (R454). -/
def replayEntry (die : Nat) (s : State) (e : JEntry) : State :=
  let dev := devOfDie s.mode die
  let core := 64 * die + e.core
  let c := 32 * core + e.index
  let r := recordFrom s dev core e.payload
  let at_ := slotAt s c
  let sameGen := at_.rec_.gen % 2 ^ 14 == r.gen % 2 ^ 14
  match e.kind with
  | 1 => replayHead dev e.index (fieldOf e.payload 0 8) s
  | 2 => if at_.state == .free || at_.state == .saved then setSlot c r .bind s else s
  | 3 => if at_.state == .run && sameGen && (s.course c).isSome then unbindSlot c s else s
  | 4 => writeDone (fieldOf e.payload 8 8) (fieldOf e.payload 0 8) e.index (fieldOf e.payload 16 8) 0 s
  | _ => s

/-- The ends held in the FIFO counted, in order; a completion of an engine operation counts nothing, but no launch completes
while the FIFO holds an entry of it. -/
def drainFifo (die : Nat) (s : State) : State :=
  (s.die die).fifo.foldl (fun acc e => if e.getLsbD 63 then acc else countEnd (e.toNat / 2) (e.getLsbD 0) acc)
    (s.modDie die (fun d => { d with fifo := [] }))

/-- Every command queue of a device compared with its tail, whatever the kick bits hold. -/
def rescan (dev : Nat) (s : State) : State := (List.range (queuesIn s.mode)).foldl (fun acc q => takeQueue dev q acc) s

/-- SCHEDULER_TAKEOVER: the standby starts, replays, empties the FIFO, scans the queues and says so. -/
def execSchedulerTakeover (die : Nat) (s : State) : Out :=
  let d := s.die die
  if d.fence != .none || d.sched.running || !d.sched.standby then .next s
  else
    let l := unapplied d
    let first := (l.head?.map JEntry.seq).getD 0
    let last := (l.getLast?.map JEntry.seq).getD 0
    let s1 := s.modDie die (fun y => { y with sched := { y.sched with running := true, standby := false, beatAt := s.aon } })
    let s2 := (l.foldl (replayEntry die) s1).modDie die (fun y => { y with japplied := max y.japplied last })
    let s3 := rescan (devOfDie s.mode die) (drainFifo die s2)
    .next (s3.postMlog (devOfDie s.mode die) { code := cSchedTakeover, cls := cls4 first last 0 0 })

/-! ### The debugger (R370, R458 to R461) -/

/-- The reason a course is halted with that is no breakpoint's. -/
def haltedByCommand : Nat := 256

/-- A course halted by hxdb, whose context hxdb is thereby attached to. -/
def haltCourse (c : Nat) (quiesce : Bool) (s : State) : State :=
  match s.course c with
  | none => s
  | some co =>
    (s.modCourse c (fun y => { y.hold haltedByCommand with quiesce := y.quiesce || quiesce, stepping := none })).modCtx co.ctx (fun x => { x with debugger := true })

/-- DEBUG_HALT. -/
def execDebugHalt (c : Nat) (s : State) : Out := .next (haltCourse c false s)

/-- DEBUG_HALT_QUIESCE: the course's channels stop at their next record boundary as well. -/
def execDebugHaltQuiesce (c : Nat) (s : State) : Out := .next (haltCourse c true s)

/-- The operations of a course in a queue of its core, numbered as in Course.stepQueues. -/
def queueCount (c : Nat) (name : DWord) (k : Core) (q : Nat) : Nat :=
  let mine := ownedBy c name
  match q with
  | 0 => (k.mq.filter (fun o => o.fence.isNone && mine o.owner)).length
  | 1 => (k.swq.filter (fun o => o.fence.isNone && mine o.owner)).length
  | 2 => (k.collq.filter (fun o => o.fence.isNone && mine o.owner)).length
  | _ => ((vget k.chans {} (q - 3)).items.filter (fun i => (i.owner.map mine).getD false)).length
      + ((Tab.vals k.claimed).filter (fun e => e.1 == q - 3 && mine e.2.owner)).length

/-- What the word of a step and wait queued is complete (R370): queues are served in their order, and the course has queued
nothing since; one that a pre-emption or a fault has taken back is not complete. -/
def stepDone (s : State) (c : Nat) : Bool :=
  let co := s.courseD c
  co.stepQueues.isEmpty || (co.stepQueues.all (fun q => queueCount c co.name (s.core (coreOf c)) q == 0)
    && co.remat.isEmpty && (Tab.find s.returning c).isNone)

/-- What a step and wait reports (R370, R466): a queue and its depth, the swatch or collective queue where the word placed an
operation there, else the matrix queue; none while it holds the course. -/
def stepReport (s : State) (c : Nat) : Option (Nat × Nat) :=
  let k := s.core (coreOf c)
  if !(stepDone s c) then none
  else if (s.courseD c).stepQueues.contains 1 then some (1, k.swq.length)
  else if (s.courseD c).stepQueues.contains 2 then some (2, k.collq.length)
  else some (0, k.mq.length)

/-- DEBUG_RESUME: issue restarts, ages and levels unchanged, and the channels go on. While a step and wait holds the course it
has no effect (notes/assumptions/45.md). -/
def execDebugResume (c : Nat) (s : State) : Out :=
  .next (if stepDone s c then
    s.modCourse c (fun y => { y with halted := none, quiesce := false, stepping := none, stepQueues := [] })
  else s)

/-- A halted course let go for one word. -/
def stepCourse (c kind : Nat) (s : State) : State :=
  if stepDone s c then
    s.modCourse c (fun y => if y.halted.isSome then { y with stepping := some kind, stepQueues := [] } else y)
  else s

/-- DEBUG_STEP: one word of the course, then it is halted again. -/
def execDebugStep (c : Nat) (s : State) : Out := .next (stepCourse c 1 s)

/-- DEBUG_STEP_WAIT: the same; then the course is held while the engine operations that the word queued are incomplete. -/
def execDebugStepWait (c : Nat) (s : State) : Out := .next (stepCourse c 2 s)

/-- The record writes into a local store: its destination is there, or in a circular buffer. -/
def Record.writesLs (r : Record) : Bool := r.dkind == 2 || r.dkind == 3

/-- Work of a channel that could write into a local store: the records of a chain may. -/
def ChanItem.writesLs (i : ChanItem) : Bool :=
  match i with
  | .chain _ _ _ _ => true
  | .copy r => r.writesLs
  | .codebook _ _ _ | .fence _ => false

/-- The operation stores rows into the local store. -/
def MatOp.writesLs (o : MatOp) : Bool :=
  o.fence.isNone && match decodeRaw o.word with
    | .accst _ => true
    | _ => false

/-- An incomplete engine operation of a course of a team could still write into the team's local store: a copy to it, or an ACCST
(R460). The unclaimed work of a course that is halted with quiesce does not, in the quiescent state (R461). -/
def moving (s : State) (tid : Nat) : Bool :=
  match s.team tid with
  | none => false
  | some t =>
    let k := s.core t.core
    let mine := fun (o : Owner) => o.team == tid
    (Tab.vals k.claimed).any (fun e => mine e.2.owner && e.2.writesLs)
      || (vlist k.chans).any (fun ch => ch.items.any (fun i => (i.owner.map mine).getD false && i.writesLs && !(heldBack s i)))
      || k.mq.any (fun o => mine o.owner && o.writesLs)
      || s.courses.any (fun e => e.2.team == tid && e.2.remat.any MatOp.writesLs)

/-- DEBUG_READ_LS (R458, R460): the granule at an offset of the course's team, and what DBGLS says of it; VALID stays 0 for a
slot without a course or an offset beyond the allocation. -/
def execDebugReadLs (c off : Nat) (s : State) : Out :=
  let core := coreOf c
  match (s.course c).bind (fun co => (s.team co.team).map (fun t => (co.team, t))) with
  | none => .next (s.modCore core (fun k => { k with dbgLs := 0#64 }))
  | some (tid, t) =>
    if 16 * t.lsSize ≤ off then .next (s.modCore core (fun k => { k with dbgLs := 0#64 }))
    else
      let k := s.core core
      let g := t.lsBase + off / 16
      let at_ := fun (i : Nat) => BitVec.ofNat 64 (ofBytes (Memory.readN k.ls (16 * g + i) 8))
      let flags := 1 + (if moving s tid then 4 else 0) + (if k.lsEmpty.contains g then 0 else 8) + (if k.lsPoison.contains g then 16 else 0)
      .next (s.modCore core (fun y => { y with dbgData0 := at_ 0, dbgData1 := at_ 8, dbgLs := BitVec.ofNat 64 flags }))

/-- A command of DBGCMD (R458). -/
def debugCommand (core : Nat) (v : DWord) (s : State) : Out :=
  let c := 32 * core + bitsOf v.toNat 0 5
  match bitsOf v.toNat 5 3 with
  | 1 => execDebugHalt c s
  | 2 => execDebugHaltQuiesce c s
  | 3 => execDebugResume c s
  | 4 => execDebugStep c s
  | 5 => execDebugStepWait c s
  | 6 => execDebugReadLs c (bitsOf v.toNat 32 19 / 16 * 16) s
  | _ => .next s

end Sys2Proof.Machine
end

