-- ==== Sys2Proof/Machine/Window.lean ====
section
/-! DEFINITION. REGISTER_WRITE: writes of the management window (R6, R350, R429, R434, R458, R462 to R464, R474). The places
that the spec names without laying them out are those of notes/assumptions/53.md. -/

namespace Sys2Proof.Machine

/-! ### Hub banks (R463) -/

/-- A command queued by a write of CTXCMD, at most 16, with its number in the hub's order; code 0 is ignored. -/
def queueCtx16 (host : Bool) (v num : Nat) (d : Dev) : Dev :=
  if v % 4 = 0 then d
  else if 16 ≤ d.ctxQueue.length then { d with ctxOvf := true }
  else { d with ctxQueue := d.ctxQueue ++ [({ cmd := v % 4, desc := bitsOf v 10 38 * 1024, num := num, host := host } : CtxCmd)] }

/-- 8 bytes of a byte list replaced from an offset; the list has n bytes. -/
def putBytes (n off : Nat) (b l : List Byte) : List Byte :=
  let full := (l ++ List.replicate n 0#8).take n
  (full.take off ++ b ++ full.drop (off + b.length)).take n

/-- A bank's registers that a write sets, or a command it queues. -/
def bankWrite (off v : Nat) (d : Dev) : Dev :=
  let w := BitVec.ofNat 64 v
  if off = 0x0040 then
    (let n := v % 1024
     if n = 0 || 1000 < n then d else { d with lease := n, leaseMax := max d.leaseMax n })
  else if off = 0x0048 then
    (let n := v % 2 ^ 17
     if n < 100 || 100000 < n then d else { d with podTimeout := n })
  else if off = 0x0050 then { d with mlog := BitVec.ofNat 64 (v / 64 * 64) }
  else if off = 0x0060 then { d with ptroot := w &&& 0x00000FFFFFFFF001#64 }
  else if off = 0x0068 then { d with cqtable := BitVec.ofNat 64 (v / 64 * 64) }
  else if off = 0x0100 then { d with sdia := w &&& 0x0000FFFFFFFFF000#64 }
  else if off = 0x0108 then { d with sdctl := w &&& 0xFFFF0007#64 }
  else if off = 0x0110 then { d with sddone := BitVec.ofNat 64 (v / 8 * 8) }
  else if off = 0x0200 then (if v % 4 = 1 || v % 4 = 2 then { d with mapCmds := d.mapCmds ++ [v] } else d)
  else if off = 0x0300 then (if v % 4 = 1 || v % 4 = 2 then { d with klCmds := d.klCmds ++ [v], klStat := 2 } else d)
  else if off = 0x0308 then { d with klKey := BitVec.ofNat 64 (v / 8 * 8) }
  else if 0x1000 ≤ off && off < 0x3000 then { d with mapStage := Tab.put d.mapStage ((off - 0x1000) / 8) w }
  else if 0x4800 ≤ off && off < 0x4800 + 1568 then { d with kemct := putBytes 1568 (off - 0x4800) (toBytes 8 v) d.kemct }
  else d

/-- A write of a hub bank. -/
def hubWrite (host : Bool) (i off : Nat) (v : DWord) (s : State) : Out :=
  if off = 0x0000 then
    let (num, s1) := s.fresh
    .next (s1.modDev i (queueCtx16 host v.toNat num))
  else if off = 0x0118 then
    match execSdgoWrite { s with bank := i } with
    | .next t => .next { t with bank := s.bank }
    | o => o
  else if 0x0800 ≤ off && off < 0x0880 then execKickWrite i ((off - 0x0800) / 8) v s
  else if 0x0400 ≤ off && off < 0x0420 && i = 0 then
    .next (s.modDie ((off - 0x0400) / 8) (fun d => { d with sched := { d.sched with beat := v } }))
  else if 0x0440 ≤ off && off < 0x0460 && i = 0 then .next (s.modDie ((off - 0x0440) / 8) (fun d => { d with japplied := v.toNat }))
  else .next (s.modDev i (bankWrite off v.toNat))

/-! ### Device regions: the pod-sharing table (R430) -/

/-- System software's grant of pod barrier b (R37, R399; DESIGN CHOICE, notes/assumptions/53.md): a context of the device
granted it or no longer, the expected count, a device of the pod group or no longer. -/
def grantWrite (i b off n : Nat) (s : State) : State :=
  let y := vget s.podBars {} b
  let on := bitOf n 63
  let put := fun (x : Nat) (l : List Nat) => if on then insertSorted x l else l.filter (· != x)
  let z : PodBarrier :=
    if off = 0 then { y with granted := put (65536 * i + bitsOf n 0 16) y.granted }
    else if off = 8 then { y with bar := if y.bar.arrivals = 0 then { y.bar with expected := bitsOf n 0 16 }
                                         else { y.bar with nextExp := some (bitsOf n 0 16) } }
    else { y with devs := put (bitsOf n 0 12) y.devs }
  { s with podBars := vset s.podBars b z }

/-- A collective group of a context given its device of one rank, or no device any more (R250; DESIGN CHOICE,
notes/assumptions/53.md): [15:0] ASID, [23:16] GROUP, [39:24] rank, [51:40] pod identifier, [63] given. -/
def groupWrite (i n : Nat) (s : State) : State :=
  let key := 256 * bitsOf n 0 16 + bitsOf n 16 8
  let rank := bitsOf n 24 16
  s.modDev i (fun d =>
    let l := Tab.getD d.groupDevs [] key
    { d with groupDevs := if bitOf n 63 then
        Tab.put d.groupDevs key ((l ++ List.replicate (rank + 1 - l.length) 4096).set rank (bitsOf n 40 12))
      else Tab.del d.groupDevs key })

/-- System software designates a pod-group master, from when the 100 ms for an exchange with it run, or none any more (R477; DESIGN
CHOICE, notes/assumptions/53.md, for the place). -/
def designate (on : Bool) (s : State) : State := { s with podMaster := on, podSync := if on && !s.podMaster then s.aon else s.podSync }

/-- An entry of the pod-sharing table: source pod, source ASID, owner, exporting ASID; all zero removes it. -/
def shareWrite (i off : Nat) (v : DWord) (s : State) : Out :=
  let n := v.toNat
  if 0xC0000 ≤ off && off < 0xC0080 && off % 0x20 < 0x18 then .next (grantWrite i ((off - 0xC0000) / 0x20) (off % 0x20) n s)
  else if off = 0xC0080 then .next (groupWrite i n s)
  else if off = 0xC0088 then .next (designate (bitOf n 63) s)
  else if 0x10000 ≤ off then .next s
  else
    let e : ShareEntry := { pod := bitsOf n 0 12, asid := bitsOf n 12 16, owner := bitsOf n 28 16, exp := bitsOf n 44 16 }
    .next (s.modDev i (fun d => { d with share := if n = 0 then Tab.del d.share (off / 8) else Tab.put d.share (off / 8) e }))

/-! ### Near dies -/

/-- RAILCTL (R350): VTARGET and HOLD; VTARGET 0 holds the rail at its nominal code. -/
def railWrite (core v : Nat) (s : State) : State :=
  s.modCore core (fun k =>
    let t := v % 64
    { k with vtarget := t, hold := bitOf v 16, vcode := if t = 0 then 34 else k.vcode })

/-- A write of a near die's region. -/
def nearWrite (die off : Nat) (v : DWord) (s : State) : Out :=
  if 0x40000 ≤ off && off < 0x44000 then
    let core := 64 * die + (off - 0x40000) / 0x100
    if off % 0x100 = 0 then .next (railWrite core v.toNat s)
    else if off % 0x100 = 0x10 then debugCommand core v s
    else .next s
  else if 0x50000 ≤ off && off < 0x52000 then
    .next (s.modDie die (fun d => { d with wayMask := Tab.put d.wayMask ((off - 0x50000) / 8) (v.setWidth 16) }))
  else if 0x70000 ≤ off && off < 0x70080 then execWayallWrite die ((off - 0x70000) / 8) v s
  else if off = 0x72000 then .next (s.modDie die (fun d => { d with lattol := v.toNat % 2 ^ 20 }))
  else .next s

/-! ### Far dies -/

/-- A write of a far die's region: LATTOL, or an address given to a pool of the migration engine; zero empties the pool. -/
def farWrite (f off : Nat) (v : DWord) (s : State) : Out :=
  if off = 0xF00000 then .next (s.modDie (4 + f) (fun d => { d with lattol := v.toNat % 2 ^ 20 }))
  else if off < 0x800000 then
    .next (s.modMig f (fun m => { m with
      pools := if v = 0#64 then Tab.del m.pools (off / 8) else Tab.put m.pools (off / 8) (Tab.getD m.pools [] (off / 8) ++ [v.toNat]) }))
  else .next s

/-- The application cores run: their die is not fenced, and the operating system has verified (R450, R470). -/
def appRuns (s : State) : Bool := (s.die 7).fence == .none && !s.appHalt

/-- An address of the window is in no region of a fenced die (R450, R462). -/
def dieReached (addr : Nat) (s : State) : Bool :=
  if 0x1000000 ≤ addr && addr < 0x9000000 then (s.die ((addr - 0x1000000) / 0x2000000)).fence == .none
  else if 0x9000000 ≤ addr && addr < 0xB000000 then (s.die (4 + (addr - 0x9000000) / 0x1000000)).fence == .none
  else true

/-- A write of the window reaches its register: no boot is under way, the application cores run where they write, and the die whose
region it is in is not fenced (R450, R462, R470, R471). -/
def windowOpen (host : Bool) (addr : Nat) (s : State) : Bool :=
  s.booting.isNone && (host || appRuns s) && dieReached addr s

/-- REGISTER_WRITE: an aligned 8-byte write of the management window by the external host or the application cores; what is
reserved or read-only ignores it. -/
def execRegisterWrite (p : WindowPlace) (v : DWord) (s : State) : Out :=
  let addr := p.addr
  if !(windowOpen p.host addr s) then .next s
  else if addr < 0x40000 then hubWrite p.host (addr / 0x10000) (addr % 0x10000) v s
  else if addr < 0x100000 then .next s
  else if addr < 0x500000 then shareWrite (addr / 0x100000 - 1) (addr % 0x100000) v s
  else if addr < 0x1000000 then .next s
  else if addr < 0x9000000 then nearWrite ((addr - 0x1000000) / 0x2000000) ((addr - 0x1000000) % 0x2000000) v s
  else if addr < 0xB000000 then farWrite ((addr - 0x9000000) / 0x1000000) (addr % 0x1000000) v s
  else .next s

end Sys2Proof.Machine
end

