-- ==== Sys2Proof/Machine/Boot.lean ====
section
/-! DEFINITION. Boot and fencing (R450 to R452, R470, R471), power states (R474, R475) and the power controller (R17), package
time (R477), attestation (R472) and management (R478). -/

namespace Sys2Proof.Machine

/-! ### Fencing (R450) -/

/-- The cause of a fence as DIE_FENCED and DIESTAT give it. -/
def Fence.cause (f : Fence) : Nat :=
  match f with
  | .none => 0
  | .authentication => 1
  | .selfTest => 2

/-- A die held in reset, so that no agent reaches it and no link of it carries anything, with its record in the management log of the
package's first device. -/
def fenceDie (die : Nat) (f : Fence) (s : State) : State :=
  (s.modDie die (fun d => { d with fence := f, sched := { d.sched with running := false } })).postMlog 0
    { code := cDieFenced, cls := cls4 die f.cause 0 0 }

/-- Dies that run an image: hub 0, near dies 1, far dies 2, application die 3 (R470, R472). -/
def imageDies (img : Nat) : List Nat :=
  match img with
  | 0 => [6]
  | 1 => [0, 1, 2, 3]
  | 2 => [4, 5]
  | _ => [7]

/-- The measurement of the image that a die runs (R471). -/
def dieMeasure (s : State) (die : Nat) : List Byte :=
  Tab.getD s.measures [] (if die = 6 then 0 else if die < 4 then 1 else if die < 6 then 2 else 3)

/-- The hub's signature check of a die's answer, and the die's check of the hub's (R471). -/
def answerPasses (s : State) (a : AuthAnswer) : Bool :=
  Config.verifies a.die (a.challenge ++ dieMeasure s a.die) a.sig && Config.verifies 6 (a.back ++ dieMeasure s 6) a.hubSig

/-- An image whose signature fails, or whose security version lies below the fused minimum, which counts as that (R470). -/
def imageBad (s : State) (b : BootResults) (img : Nat) : Bool := b.imageFail.contains img || b.svn.getD img 0 < Tab.getD s.svnMin 0 img

/-- A die runs an image that does not pass. -/
def badImage (s : State) (b : BootResults) (die : Nat) : Bool := (List.range 4).any (fun i => (imageDies i).contains die && imageBad s b i)

/-- A quad of a near die that its defect map enables fails self-test (R450, R452). -/
def quadFails (b : BootResults) (die : Nat) : Bool :=
  (List.range 17).any (fun q => !((b.quadPass.getD die 0x1FFFF#32).getLsbD q) && q != (Config.disabledQuad die).val)

/-- A die fails self-test: for a near die an enabled quad, the L2, the RDC, or both scheduler cores (R450). -/
def selfTestFails (b : BootResults) (die : Nat) : Bool :=
  b.selfFail.contains die || (die < 4 && (quadFails b die || 2 ≤ b.schedFail.count die))

/-- The fence of a die in a boot: its image or its authentication first, then its self-test. -/
def bootFence (s : State) (b : BootResults) (die : Nat) : Fence :=
  if (s.die die).fence != .none then (s.die die).fence
  else if badImage s b die || (die != 6 && !(b.auth.any (fun a => a.die == die && answerPasses s a))) then .authentication
  else if selfTestFails b die then .selfTest
  else .none

/-- The module boots: H passes, and at least one near die survives (R450). -/
def boots (s : State) (b : BootResults) : Bool := bootFence s b 6 == .none && (List.range 4).any (fun d => bootFence s b d == .none)

/-- The dies whose answers to the hub's challenge have not come (R471): those with a sound image, which are not fenced. -/
def unanswered (s : State) (b : BootResults) : List Nat :=
  [0, 1, 2, 3, 4, 5, 7].filter (fun d => (s.die d).fence == .none && !(badImage s b d) && !(b.auth.any (fun a => a.die == d)))

/-! ### POWER_ON and WARM_RESET (R470) -/

/-- The journal's size: a power of two from 1,024 to 262,144 entries, 16,384 by default (R380). -/
def journalSize (n : Nat) : Nat := if 1024 ≤ n && n ≤ 262144 && 2 ^ Nat.log2 n == n then n else 16384

/-- A device bank after a boot: its own pod identifier, a new incarnation, key slot 0 and the encapsulation key. -/
def bootDev (b : BootResults) (old : Dev) : Dev :=
  { podId := old.podId, incarn := old.incarn + 1#8, keys := [(0, b.slot0)], kempk := b.kempk }

/-- The application carve-out that a boot plans: 32 to 256 GiB, 64 by default (R9). -/
def carveBytes (n : Nat) : Nat := (if 32 ≤ n && n ≤ 256 then n else 64) * 2 ^ 30

/-- A die after a boot: what self-test found, its journal's place, its scheduler cores. -/
def bootDie (b : BootResults) (aon die : Nat) : Die :=
  { quadPass := if die < 4 then b.quadPass.getD die 0x1FFFF#32 else 0x1FFFF#32
    stackPass := BitVec.ofNat 4 (15 - ((List.range 4).map (fun k => if b.stackFail.contains (4 * die + k) then 2 ^ k else 0)).sum)
    schedFail := b.schedFail.contains die
    sched := { standby := !(b.schedFail.contains die), beatAt := aon }
    jbase := b.jbase.getD die 0, jsize := journalSize b.jsize }

/-- Steps 1 to 3 of a boot: everything at its reset value but the always-on counter, the boot count, the identifiers and
incarnations, the flash and what is fused; the images measured, the dies challenged, and no scheduler core started. -/
def bootStart (b : BootResults) (aon : Nat) (s : State) : State :=
  { devs := vmap (bootDev b) s.devs, dies := vconst 8 { sched := { running := false, standby := false } }, aon := aon
    bootCount := s.bootCount + 1, images := s.images, svnMin := s.svnMin
    measures := (List.range 5).map (fun i => (i, Config.sha3 (if i = 4 then b.osImage else Tab.getD s.images [] i)))
    svn := (List.range 5).map (fun i => (i, b.svn.getD i 0))
    plans := (List.range 12).map (fun i => (i, b.regions.getD i [])), carveOut := carveBytes b.carve
    cxl := (List.range 4).map (fun i => (i, b.cxl.getD i 0))
    booting := some b, bootAt := aon, freeCount := s.freeCount, nextId := s.nextId }

/-- Steps 4 to 7 of a boot, once every die has passed authentication or is fenced: self-test, the map planned, the schedulers
started, the application cores running where their operating system verifies. A module that does not boot is held in reset. -/
def bootEnd (b : BootResults) (s : State) : State :=
  let f := bootFence s b
  let s1 := { s with
    dies := vof 8 (bootDie b s.aon), booting := none, appHalt := b.osFail || imageBad s b 4
    mapMode := if (List.range 6).any (fun d => f d != .none) || !b.stackFail.isEmpty then 1 else 0 }
  if boots s b then
    (devices s1.mode).foldl loadPlan
      ((List.range 8).foldl (fun acc d => if f d == .none then acc else fenceDie d (f d) acc) s1)
  else
    let held := if f 6 == .none then Fence.selfTest else f 6
    { s1 with dies := vmap (fun (d : Die) => { d with fence := held, sched := { d.sched with running := false } }) s1.dies }

/-- A boot goes on to its end unless a die's answer to the hub's challenge is still to come (R470). -/
def bootOn (b : BootResults) (s : State) : State := if (unanswered s b).isEmpty then bootEnd b s else s

def boot (b : BootResults) (aon : Nat) (s : State) : State := bootOn b (bootStart b aon s)

/-- POWER_ON: the always-on counter starts at 0. -/
def execPowerOn (b : BootResults) (s : State) : Out := .next (boot b 0 s)

/-- WARM_RESET: the same boot; the always-on counter goes on (R476). -/
def execWarmReset (b : BootResults) (s : State) : Out := .next (boot b s.aon s)

/-- A die has let the 10 ms for its answer pass (R471). -/
def authLate (s : State) (die : Nat) : Bool :=
  match s.booting with
  | some b => s.bootAt + 10000000 ≤ s.aon && (unanswered s b).contains die
  | none => false

/-- AUTHENTICATION_TIMEOUT (R471): a die that does not answer within 10 ms fails authentication, and the boot goes on. -/
def execAuthenticationTimeout (die : Nat) (s : State) : Out :=
  match s.booting with
  | some b => if authLate s die then .next (bootOn b (s.modDie die (fun d => { d with fence := .authentication }))) else .next s
  | none => .next s

/-! ### Power states (R474, R475) -/

/-- A core has engine work in flight. -/
def coreWorks (k : Core) : Bool :=
  !k.claimed.isEmpty || !k.mq.isEmpty || !k.collq.isEmpty || !k.swq.isEmpty
    || (vlist k.chans).any (fun c => !c.parked && !c.items.isEmpty)

/-- A request to memory that a die homes has not been performed: lanes of an access, a request of another device, a copy-on-write's
blocks, the next word of a strand that would issue. -/
def memoryAsked (s : State) (die : Nat) : Bool :=
  (Tab.vals s.accesses).any (fun a => a.open_.any (fun x =>
    ((x.localIa s a).bind (homeDie s (s.ctx a.ctx).dev)) == some die))
  || (Tab.vals s.remotes).any (fun q => ((s.devOfPod q.pod).bind (fun d => homeDie s d q.ia)) == some die)
  || (Tab.vals s.cows).any (fun w => w.core / 64 == die || (match findRange (s.ctx w.ctx) w.mapVa with
    | some (_, r) => homeDie s (s.ctx w.ctx).dev (rangeIa r w.mapVa) == some die
    | none => false))
  || (vlist s.devs).any (fun d => d.peers.any (fun p => p.2.held.any (fun q => homeIn d.regions q.ia == some die)))
  || s.courses.any (fun e => e.2.cstate == .run && e.2.halted.isNone && e.2.liveStrands.any (fun i =>
    let y := e.2.strand i
    y.wait == .none && y.mark.isNone && (match findRange (s.ctx e.2.ctx) y.pc.toNat with
      | some (_, r) => homeDie s (s.ctx e.2.ctx).dev (rangeIa r y.pc.toNat) == some die
      | none => false)))

/-- An address of a claimed record that the engine asks for next, its record's own among them, is homed on a die. -/
def recordAsks (s : State) (die : Nat) (r : Record) : Bool :=
  let dev := (s.ctx r.owner.ctx).dev
  let at_ := fun (va : Nat) => (match findRange (s.ctx r.owner.ctx) va with
    | some (_, q) => !(rrPod q) && homeDie s dev (rangeIa q va) == some die
    | none => false)
  let block := fun (ref : Nat) => (match blockLook s r.owner.ctx ref with
    | .ok d => homeDie s dev (d.ia + refOff ref) == some die
    | .error _ => false)
  let side := fun (kind va : Nat) => if kind = 0 then at_ va else kind == 1 && block va
  side r.skind (r.src.toNat + r.from_) || side r.dkind (r.dst.toNat + r.from_) || (r.at_.map at_).getD false

/-- An engine or migration operation asks for memory that a die homes. The link engine's operations, which range over memory, and a
channel's unclaimed work, count as asking every die of their device (DESIGN CHOICE, notes/assumptions/71.md). -/
def engineAsks (s : State) (die : Nat) : Bool :=
  s.cores.any (fun e =>
    e.2.claimed.any (fun c => recordAsks s die c.2.2)
    || (e.2.collq.any (fun o => o.fence.isNone) || e.2.swq.any (fun o => o.fence.isNone)
        || (vlist e.2.chans).any (fun c => !c.parked && !c.items.isEmpty))
      && (List.range 6).any (fun d => d == die && (if d < 4 then devOfDie s.mode d == devOfDie s.mode (e.1 / 64)
          else farOfDev s.mode (devOfDie s.mode (e.1 / 64)) (d - 4))))
  || (vlist s.mig).any (fun g => g.active.any (fun m =>
    [if m.block then (migDesc s m).ia else m.ia, m.dest].any (fun ia => homeDie s m.dev ia == some die)))

/-- A die is not quiet: a bound course, an engine or migration operation in flight on it or for it, or a command or memory request
addressed to it (R474). -/
def dieBusy (s : State) (die : Nat) : Bool :=
  let asked := memoryAsked s die || engineAsks s die
  if die < 4 then
    let dev := devOfDie s.mode die
    asked || s.courses.any (fun e => dieOf e.1 == die) || s.slots.any (fun e => dieOf e.1 == die && e.2.state == .bind)
      || s.cores.any (fun e => e.1 / 64 == die && coreWorks e.2)
      || (Tab.vals s.rstvs).any (fun v => nameDie v.target == die && (s.devOfPod (namePod v.target)) == some dev)
      || (dispatchDie s dev == some die && (!(s.dev dev).commands.isEmpty || !(s.dev dev).scanned.isEmpty || !(kicked (s.dev dev)).isEmpty))
  else if die < 6 then
    asked || (s.migEngine (die - 4)).active.isSome || !(s.migEngine (die - 4)).queue.isEmpty
  else true

/-- The deepest state whose exit latency a latency tolerance in µs allows. -/
def deepest (tol : Nat) : Nat :=
  if 20000 ≤ tol then 4 else if 500 ≤ tol then 3 else if 20 ≤ tol then 2 else if 2 ≤ tol then 1 else 0

/-- The die has been quiet for 10 µs, and the deepest state that its LATTOL allows is another than its own: a lowered LATTOL brings
it up again, as far as ACTIVE. -/
def entersState (s : State) (die : Nat) : Bool :=
  let d := s.die die
  die < 6 && d.fence == .none && 10000 ≤ d.quiet && !(dieBusy s die) && d.pstate != deepest d.lattol

/-- The rails of a near die start at the nominal code where it leaves NAP or a deeper state (R350). -/
def railsReset (die from_ to_ : Nat) (s : State) : State :=
  if 2 ≤ from_ && to_ < 2 && die < 4 then
    { s with cores := s.cores.map (fun (e : Nat × Core) => if e.1 / 64 = die then (e.1, { e.2 with vcode := 34 }) else e) }
  else s

/-- POWER_STATE_ENTER: a die that goes off writes its dirty L2 lines to memory and drops its RDC: it holds no line (R475). -/
def execPowerStateEnter (die : Nat) (s : State) : Out :=
  if !(entersState s die) then .next s
  else
    let next_ := deepest (s.die die).lattol
    let s1 := railsReset die (s.die die).pstate next_ (s.modDie die (fun d => { d with pstate := next_ }))
    .next (if next_ = 4 then { s1 with cached := s1.cached.filter (fun e => e.die != die) } else s1)

/-- POWER_STATE_EXIT: a die that is not quiet is ACTIVE again. -/
def execPowerStateExit (die : Nat) (s : State) : Out :=
  let d := s.die die
  if d.pstate = 0 || !(dieBusy s die) then .next s
  else .next (railsReset die d.pstate 0 (s.modDie die (fun y => { y with pstate := 0, quiet := 0 })))

/-- POWER_CONTROLLER_THROTTLE (R17): the die's clock runs slower, or at full rate again. -/
def execPowerControllerThrottle (die : Nat) (on : Bool) (s : State) : Out := .next (s.modDie die (fun d => { d with throttle := on }))

/-! ### Package time (R477) -/

/-- PKGTIME_EXCHANGE: package time corrected by an offset, with its skew bound; with no pod-group master the bound is never
above 4,000 ps. Where a master is designated, only an exchange with it counts, and elsewhere none does. -/
def execPkgtimeExchange (withMaster : Bool) (offset : DWord) (skew : Word) (s : State) : Out :=
  if withMaster then
    .next (if s.podMaster then { s with pkgBase := s.pkgBase + offset, pkgSkew := skew, podSync := s.aon } else s)
  else if s.podMaster then .next s
  else .next { s with pkgBase := s.pkgBase + offset, pkgSkew := if 4000#32 < skew then 4000#32 else skew }

def syncLost (s : State) : Bool := s.podMaster && s.podSync + 100000000 ≤ s.aon && s.pkgSkew != 0xFFFFFFFF#32

/-- PKGTIME_SYNC_LOST: no exchange with the master for 100 ms. -/
def execPkgtimeSyncLost (s : State) : Out := if syncLost s then .next { s with pkgSkew := 0xFFFFFFFF#32 } else .next s

/-! ### Attestation and management (R452, R472, R478) -/

/-- A field of a fixed number of bytes. -/
def fixedBytes (n : Nat) (l : List Byte) : List Byte := (l ++ List.replicate n 0#8).take n

/-- DIESTAT of a die. -/
def dieStat (d : Die) : Nat := d.fence.cause + (if d.schedFail then 4 else 0)

/-- The report over a nonce, without its signature. -/
def reportBody (nonce : List Byte) (s : State) : List Byte :=
  let ids := (List.range 8).flatMap (fun d =>
    if (s.die d).fence == .authentication then List.replicate 64 0#8 else fixedBytes 64 (Config.identityHash d))
  let passed := ((List.range 4).map (fun d => (s.die d).stackPass.toNat * 2 ^ (4 * d))).sum
  toBytes 2 1 ++ fixedBytes 32 nonce ++ ids ++ (List.range 5).flatMap (fun i => fixedBytes 64 (Tab.getD s.measures [] i))
    ++ (List.range 5).flatMap (fun i => toBytes 4 (Tab.getD s.svn 0 i)) ++ toBytes 8 s.bootCount
    ++ toBytes 1 s.mapMode ++ (List.range 8).flatMap (fun d => toBytes 1 (dieStat (s.die d)))
    ++ (List.range 4).flatMap (fun d => toBytes 4 (s.die d).quadPass.toNat) ++ toBytes 2 passed

def report (nonce : List Byte) (s : State) : List Byte :=
  let b := reportBody nonce s
  b ++ fixedBytes 4627 (Config.sign b)

/-- A message sent over the management interface. -/
def State.answer (s : State) (b : List Byte) : State := { s with mgmtOut := s.mgmtOut ++ [b] }

/-- ATTESTATION_REQUEST: a fresh report over the requester's nonce. -/
def execAttestationRequest (nonce : List Byte) (s : State) : Out :=
  .next ({ s with nonce := fixedBytes 32 nonce }.answer (report nonce s))

/-- FIRMWARE_UPDATE: the boot flash only; the image takes effect at the next warm reset. -/
def execFirmwareUpdate (img : Nat) (bytes : List Byte) (s : State) : Out := .next { s with images := Tab.put s.images img bytes }

/-- PLDM_MESSAGE: a management message and its answer; one that the module does not support is not answered. -/
def execPldmMessage (m : MgmtMessage) (s : State) : Out :=
  match m with
  | .sensorPstate die => .next (s.answer (toBytes 4 (s.die die).pstate))
  | .sensorVcode core => .next (s.answer (toBytes 4 (s.core core).vcode))
  | .sensorAnalog _ _ measured => .next (s.answer (toBytes 8 measured.toNat))
  | .spdmCertificates => .next (s.answer Config.certificates)
  | .spdmReport nonce => execAttestationRequest nonce s
  | .pldmBase msg | .platformControl msg => .next (s.answer (Config.pldmReply msg))
  | .unsupported => .next s

end Sys2Proof.Machine
end

