-- ==== Sys2Proof/Machine/Control.lean ====
section
/-! DEFINITION. The control instructions but REP (R81 to R96), the waits at joins (R33, R91), and the words that trap at
fetch or at decode (R78, R82). -/

namespace Sys2Proof.Machine

/-! ### Targets and joins (R60, R61, R82) -/

/-- pc + 8 * WOFF. -/
def targetOf (pc : DWord) (woff : Word) : DWord := pc + 8#64 * woff.signExtend 64

/-- The join address of a JOIN field; none for 0 (R61). -/
def joinAddress (pc : DWord) (join : Nat) : Option DWord :=
  if join = 0 then none else some (BitVec.ofNat 64 (pc.toNat / 128 * 128 + 128 * join))

/-- A word that sends groups of lanes to addresses: DIVERGENCE_OVERFLOW, or the split (R83). -/
def groupsMeaning (pn : Bool) (pred : BitVec 3) (first v : At → Mask → State → Verdict)
    (gs : At → Mask → State → List Group) (join : At → Option DWord) (before : At → Mask → State → State) : Meaning :=
  movingMeaning pn pred first
    (fun x act t => (v x act t).and_ (divergeTrap x (gs x act t) (join x)))
    (fun x act t => diverge x (gs x act t) (join x) (before x act t))

/-! ### BRA (R84) -/

/-- The groups of a branch word: per lane, or all one way. -/
def braGroups (w : BWord) (x : At) (act : Mask) : List Group :=
  let target := targetOf x.sd.pc w.woff
  let next := x.sd.pc + 8#64
  let d := x.sd.depth
  match w.bop.toNat % 4 with
  | 0 => [⟨act, target, d⟩, ⟨x.sd.mask &&& ~~~act, next, d⟩]
  | 1 => [⟨x.sd.mask, if act != 0#32 then target else next, d⟩]
  | _ => [⟨x.sd.mask, if act = x.sd.mask then target else next, d⟩]

def execBra (w : BWord) (s : State) : Out :=
  runWord (groupsMeaning w.pn w.pred noCheck noCheck (fun x act _ => braGroups w x act)
    (fun x => joinAddress x.sd.pc w.join.toNat) (fun _ _ t => t)) s

/-! ### BRX (R85) -/

/-- The lanes of a mask grouped by an address and a call depth each, in the order of their lowest lanes. -/
def addressGroups (f : Nat → DWord × Nat) : List Nat → List Group → List Group
  | [], gs => gs
  | l :: t, gs =>
    let k := f l
    if gs.any (fun g => g.addr == k.1 && g.depth == k.2) then
      addressGroups f t (gs.map (fun g => if g.addr == k.1 && g.depth == k.2 then { g with mask := g.mask ||| laneBit l } else g))
    else addressGroups f t (gs ++ [⟨laneBit l, k.1, k.2⟩])

def brxTarget (w : FWord) (x : At) (act : Mask) (s : State) (l : Nat) : DWord :=
  BitVec.ofNat 64 ((numRef w 0 true).at_ x act s l)

def brxGroups (w : FWord) (x : At) (act : Mask) (s : State) : List Group :=
  addressGroups (fun l => (if act.getLsbD l then brxTarget w x act s l else x.sd.pc + 8#64, x.sd.depth))
    (lanesOf x.sd.mask) []

def brxCheck (w : FWord) (x : At) (act : Mask) (s : State) : Verdict :=
  Verdict.trapIf ((lanesOf act).any (fun l => (brxTarget w x act s l).toNat % 8 != 0)) { code := cBranchTarget }

def execBrx (w : FWord) (s : State) : Out :=
  runWord (groupsMeaning w.pn w.pred (fun x act t => srcVerdict x t act [numRef w 0 true]) (brxCheck w) (brxGroups w) (fun x => joinAddress x.sd.pc (w.fld 0 6))
    (fun x act t => noteLatent x act [numRef w 0 true] t)) s

/-! ### CALL and RET (R86 to R88) -/

/-- The lanes of a CALL that branch. -/
def callers (w : BWord) (x : At) (act : Mask) : Mask :=
  match w.bop.toNat % 4 with
  | 0 => act
  | 1 => if act != 0#32 then x.sd.mask else 0#32
  | _ => if act = x.sd.mask then x.sd.mask else 0#32

def callGroups (w : BWord) (x : At) (act : Mask) : List Group :=
  let m := callers w x act
  if m = 0#32 then [⟨x.sd.mask, x.sd.pc + 8#64, x.sd.depth⟩]
  else [⟨m, targetOf x.sd.pc w.woff, x.sd.depth + 1⟩, ⟨x.sd.mask &&& ~~~m, x.sd.pc + 8#64, x.sd.depth⟩]

/-- The return entry of a CALL: the word offset of the next word from the base of the range that holds the CALL, and
that range's index (R86). -/
def callEntry (x : At) (s : State) : Word × Nat :=
  match findRange (s.ctx x.co.ctx) x.sd.pc.toNat with
  | some (i, r) => (BitVec.ofNat 32 ((x.sd.pc + 8#64 - r.base).toNat / 8), i)
  | none => (0#32, 0)

def pushCalls (m : Mask) (e : Word × Nat) (co : Course) : Course :=
  { co with calls := vmapIdx (fun l (old : List (Word × Nat)) => if m.getLsbD l then e :: old else old) co.calls }

def execCall (w : BWord) (s : State) : Out :=
  runWord (groupsMeaning w.pn w.pred noCheck (fun x _ _ => Verdict.trapIf (x.sd.depth ≥ 8) { code := cCallOverflow })
    (fun x act _ => callGroups w x act) (fun x => joinAddress x.sd.pc w.join.toNat)
    (fun x act t => t.modCourse x.c (pushCalls (callers w x act) (callEntry x t)))) s

/-- The address a lane returns to. -/
def retTarget (x : At) (s : State) (l : Nat) : DWord :=
  match vget x.co.calls [] l with
  | [] => 0#64
  | (off, r) :: _ => (vget (s.ctx x.co.ctx).ranges {} r).base + 8#64 * off.setWidth 64

/-- Where the active lanes of a RET go, and the others. DESIGN CHOICE (notes/assumptions/64.md): a lane that returns to the next
word and one that stays there at the deeper call are two groups, by address and depth. -/
def retGroups (x : At) (act : Mask) (s : State) : List Group :=
  addressGroups (fun l => if act.getLsbD l then (retTarget x s l, x.sd.depth - 1) else (x.sd.pc + 8#64, x.sd.depth))
    (lanesOf x.sd.mask) []

def popCalls (m : Mask) (co : Course) : Course :=
  { co with calls := vmapIdx (fun l (old : List (Word × Nat)) => if m.getLsbD l then old.drop 1 else old) co.calls }

def execRet (w : FWord) (s : State) : Out :=
  runWord (groupsMeaning w.pn w.pred noCheck (fun x _ _ => Verdict.trapIf (x.sd.depth = 0) { code := cRetUnderflow })
    retGroups (fun _ => none) (fun x act t => t.modCourse x.c (popCalls act))) s

/-! ### EXIT (R89, R90) -/

/-- The strand after its active lanes have left. -/
def exitStrand (x : At) (act : Mask) (y : Strand) : Strand :=
  let rest := x.sd.mask &&& ~~~act
  if rest != 0#32 then { y with mask := rest, pc := x.sd.pc + 8#64 }
  else resumeDeferred 5 { y with mask := 0#32 }

/-- The EXIT ends its course. -/
def lastExit (x : At) (act : Mask) : Bool :=
  x.co.liveStrands == [x.st] && !(exitStrand x act x.sd).live

/-- A course ends once its writes are performed (R89, R90, R140), and while the completion FIFO has room (R455). -/
def exitWaits (x : At) (s : State) : Bool :=
  x.pending s 4 || (!(s.die (dieOf x.c)).sched.running && 4096 ≤ (s.die (dieOf x.c)).fifo.length)

def exitEffect (x : At) (act : Mask) (s : State) : State :=
  let s1 := s.modStrand x.c x.st (exitStrand x act)
  let y := (s1.courseD x.c).strand x.st
  if y.live then arriveAt x.c x.st s1
  else if (s1.courseD x.c).liveStrands.isEmpty then endCourse x.c s1
  else s1

def execExit (w : FWord) (s : State) : Out :=
  runWord (movingMeaning w.pn w.pred noCheck
    (fun x act t => (Verdict.waitIf (lastExit x act && exitWaits x t)).and_
      (if lastExit x act && !x.co.readySent then releaseLimit x else .go)) exitEffect) s

/-! ### JOIN (R91, R92) -/

/-- A strand waits at its JOIN word while other strands of its course live; one with a deferral stack passes. -/
def joinPasses (x : At) : Bool := !x.sd.dstack.isEmpty || x.co.liveStrands == [x.st]

def execJoin (w : FWord) (s : State) : Out :=
  runWord
    { verdict := fun x t => frameCheck x t w.pred
      effect := fun x t =>
        if joinPasses x then finish x t
        else t.modStrand x.c x.st (fun y => { y with wait := .joinWord (t.clockOf x.c) (w.fld 0 4) }) } s

/-- The live strands that wait at the JOIN word at a PC, of whatever call depth. -/
def joinWaiters (co : Course) (pc : DWord) : List Nat :=
  co.liveStrands.filter (fun i => (co.strand i).pc == pc && (match (co.strand i).wait with
    | .joinWord _ _ => true
    | _ => false))

/-- The cycle at which the first of the strands that wait at a JOIN word arrived there (R91). -/
def joinSince (co : Course) (pc : DWord) (now : Nat) : Nat :=
  (joinWaiters co pc).foldl (fun t i => match (co.strand i).wait with
    | .joinWord a _ => min t a
    | _ => t) now

/-- The limit of the JOIN word at which a strand waits has passed: 2^(8 + WAIT) cycles since the first arrival (R91). -/
def joinExpired (co : Course) (st now : Nat) : Bool :=
  let x := co.strand st
  match x.live, x.wait with
  | true, .joinWord _ code =>
    decide (code < 15) && decide (joinSince co x.pc now + 2 ^ (8 + code) ≤ now) && co.cstate == .run
  | _, _ => false

/-- JOIN_LIMIT_EXPIRE: the strands that wait at the word, of whatever depth, go on (R91). -/
def execJoinLimitExpire (c st : Nat) (s : State) : Out :=
  let co := s.courseD c
  if joinExpired co st (s.clockOf c) then
    let l := joinWaiters co (co.strand st).pc
    let go := fun (y : Strand) => { y with wait := .none, pc := y.pc + 8#64 }
    .next (tidy c (l.foldl (fun acc i => arriveLive c i acc) (l.foldl (fun acc i => acc.modStrand c i go) s)))
  else .next s

/-- JOIN_WAIT_EXPIRE: after 4,096 cycles at its recorded join address a strand goes on alone (R33). -/
def execJoinWaitExpire (c st : Nat) (s : State) : Out :=
  let x := (s.courseD c).strand st
  match x.live, x.wait with
  | true, .joinAddr since =>
    if since + 4096 ≤ s.clockOf c then .next (s.modStrand c st (fun y => { y with wait := .none, join := none }))
    else .next s
  | _, _ => .next s

/-! ### LOOP and NOP (R95, R96) -/

def loopRef (w : BWord) : SrcRef := { fld := 11, code := w.val, ty := 3, wide := true }

def loopEffect (w : BWord) (x : At) (act : Mask) (s : State) : State :=
  if act = 0#32 then moveTo x.c x.st (x.sd.pc + 8#64) s
  else
    let n := w.val.toNat - 0x20
    let v := (vget x.sd.g {} n).val - 1#64
    moveTo x.c x.st (if v != 0#64 then targetOf x.sd.pc w.woff else x.sd.pc + 8#64)
      (s.modStrand x.c x.st (fun y => y.writeG n { val := v }))

def execLoop (w : BWord) (s : State) : Out :=
  runWord (movingMeaning w.pn w.pred (fun x act t => srcVerdict x t act [loopRef w]) noCheck (loopEffect w)) s

def execNop (w : FWord) (s : State) : Out := plainWord w.pn w.pred noCheck (fun _ _ t => t) s

/-! ### Words that trap at decode or fetch -/

/-- A word of an unassigned opcode (R62, R64, R78). -/
def execIllegalOpcode (_ : DWord) (s : State) : Out := trapWord { code := cIllegalOpcode } s

/-- FETCH_FAULT: the strand's next word cannot be fetched (R82); its PC is the target. -/
def execFetchFault (s : State) : Out :=
  issueWord (fun x t =>
    match (fetchWord (t.ctx x.co.ctx) x.sd.pc t).2 with
    | .error e => .trap e
    | .ok _ => .wait) (fun _ t => t) s

end Sys2Proof.Machine
end

