-- ==== Sys2Proof/Machine/Convert.lean ====
section
/-! DEFINITION. The meanings of the conversion and cross-lane instructions of the 0x080 group (R316 to R329): each is the shared arithmetic word of Arith.lean with
its own operation, whose lane results Alu.lean computes. -/

namespace Sys2Proof.Machine

/-- CVT (R316). -/
def execCvt (w : FWord) (s : State) : Out := arithWord .cvt w s

/-- QCVT (R318). -/
def execQcvt (w : FWord) (s : State) : Out := arithWord .qcvt w s

/-- QPACK (R321). -/
def execQpack (w : FWord) (s : State) : Out := arithWord .qpack w s

/-- QUNPACK (R322). -/
def execQunpack (w : FWord) (s : State) : Out := arithWord .qunpack w s

/-- SCALEGEN (R320). -/
def execScalegen (w : FWord) (s : State) : Out := arithWord .scalegen w s

/-- AMAX (R324). -/
def execAmax (w : FWord) (s : State) : Out := arithWord .amax w s

/-- SHFL (R325). -/
def execShfl (w : FWord) (s : State) : Out := arithWord .shfl w s

/-- SHFLX (R325). -/
def execShflx (w : FWord) (s : State) : Out := arithWord .shflx w s

/-- SHFLUP (R325). -/
def execShflup (w : FWord) (s : State) : Out := arithWord .shflup w s

/-- SHFLDN (R325). -/
def execShfldn (w : FWord) (s : State) : Out := arithWord .shfldn w s

/-- BCAST (R326). -/
def execBcast (w : FWord) (s : State) : Out := arithWord .bcast w s

/-- VOTE (R327). -/
def execVote (w : FWord) (s : State) : Out := arithWord .vote w s

/-- REDUX (R328). -/
def execRedux (w : FWord) (s : State) : Out := arithWord .redux w s

/-- PSCAN (R328). -/
def execPscan (w : FWord) (s : State) : Out := arithWord .pscan w s

/-- MATCH (R329). -/
def execMatchLanes (w : FWord) (s : State) : Out := arithWord .matchLanes w s

end Sys2Proof.Machine
end

