-- ==== Sys2Proof/Machine/Fabric.lean ====
section
/-! DEFINITION. The UALink ports: flits in port-sequence order (R228, R229, R239), and the failure and retraining of links
(R230). -/

namespace Sys2Proof.Machine

/-! ### FLIT_RECEIVE -/

/-- A remote register store of another package reaches this device; one that it has sent before is the same store. -/
def takeMessage (src : Nat) (m : RstvMessage) (s : State) : State :=
  let r : Rstv :=
    { owner := { name := m.sender }, core := none, from_ := 512 * src + m.core % 512, asid := m.asid, groups := m.groups
      target := m.target, reg := m.reg.toNat, data := vof 32 (fun l => m.data.getD l 0#32), seq := m.seq }
  let same := fun (e : Nat × Rstv) => e.2.core.isNone && e.2.from_ == r.from_ && e.2.seq == r.seq
    && nameHome e.2.target == nameHome r.target
  if (s.devOfPod (namePod m.target)).isNone then s
  else if m.seq < expected s r then { s with podReply := (0, []) }
  else match s.rstvs.find? same with
  | some (id, e) => { s with rstvs := Tab.put s.rstvs id { e with nak := false } }
  | none =>
    let (id, s1) := s.fresh
    { s1 with rstvs := Tab.put s1.rstvs id r }

/-- A request has the size of its traffic, within one 256-byte block (R228). -/
def requestFits (q : RemoteReq) : Bool :=
  let within := fun (n : Nat) => 1 ≤ n && n ≤ 256 && q.ia / 256 == (q.ia + n - 1) / 256
  match q.kind with
  | .read => within q.size && (q.swatch || 16 ≤ q.size)
  | .discard => within q.size
  | .write => within q.data.length
  | .atomic _ size => within (atomBytes size.toNat) && q.more.all (fun l => l.ia / 8 == q.ia / 8)
  | .query | .fetch => true

/-- Traffic that the device accepts: a listed type that its contents have, of a size it may have (R228). -/
def flitListed (f : Flit) : Bool :=
  f.kind != .unlisted && f.kind == f.body.traffic && (match f.body with
    | .request q => requestFits q
    | .rstv m => m.data.length ≤ 32
    | .collPart _ _ _ _ b => b.length ≤ 256
    | _ => true)

/-- The reply of another package to a request of this device, by its number: a translation, or the result (R232, R236). -/
def takeReply (dev src seq : Nat) (code : BitVec 16) (vals : List (List Byte)) (s : State) : State :=
  match s.remotes.find? (fun e => e.2.dev == dev && e.2.pod == src && e.2.seq == seq) with
  | none => s
  | some (id, q) =>
    if q.gen.isSome || kindQuery q.kind then
      (if code.toNat = cStale then s else remoteFinish id code.toNat vals s)
    else
      fetched id q (if code = 0#16 then
        .ok { granted := true, gen := ofBytes (vals.getD 0 []), write := ofBytes (vals.getD 1 []) == 1, sz := ofBytes (vals.getD 2 []) % 7 }
        else .error code.toNat) s

/-- The answer of another package to an RSTV of a core of this device. -/
def takeStoreReply (core : Nat) (target : DWord) (seq : Nat) (code : BitVec 16) (s : State) : State :=
  match s.rstvs.find? (fun e => e.2.core == some core && nameHome e.2.target == nameHome target && e.2.seq == seq) with
  | some (id, v) => storeReply id v code s
  | none => s

/-- A flit handed to the transaction layer; what it does not list, and what bears an old incarnation, is dropped and counted
(R228, R239). -/
def takeFlit (port : Nat) (f : Flit) (s : State) : State :=
  let dev := devOfPort s.mode port
  if !(flitListed f) || (f.body != .join && f.incarn != knownIncarn s dev f.src) then
    s.modPort port (fun y => { y with dropped := y.dropped + 1 })
  else match f.body with
  | .request q => requestAt dev { q with src := f.src, incarn := f.incarn } s
  | .reply seq code vals => takeReply dev f.src seq code vals s
  | .rstv m => takeMessage f.src m s
  | .rstvReply core target seq code => takeStoreReply core target seq code s
  | .located n core => s.modDev dev (fun d => { d with located := Tab.put d.located n.toNat core })
  | .shootDown ia sz => shootAt dev f.src ia (sz % 7) s
  | .shootAck _ _ => ackFrom dev f.src s
  | .collPart g num rank scales b => takePart g num rank scales b s
  | .join => joinFrom dev f.src f.incarn s
  | .none => s

/-- A flit in its place among those held, by port sequence number. -/
def insertFlit (f : Flit) : List Flit → List Flit
  | [] => [f]
  | g :: t => if f.seq < g.seq then f :: g :: t else g :: insertFlit f t

/-- The flits that are next in sequence leave the port. -/
def releaseFlits (port : Nat) : Nat → State → State
  | 0, s => s
  | n + 1, s =>
    match (s.port port).held with
    | [] => s
    | f :: t =>
      if f.seq = (s.port port).expect then
        releaseFlits port n (takeFlit port f (s.modPort port (fun p => { p with held := t, expect := p.expect + 1 })))
      else s

/-- A flit that a link has received whole: its acknowledgement frees what the link has sent, and the next is awaited. -/
def linkReceived (port : Nat) (f : Flit) (s : State) : State :=
  s.modLink port f.link (fun l => { l with
    lastGood := f.seq, replays := 0, awaited := l.awaited + 1
    retry := match f.ack with
      | some n => l.retry.filter (fun g => n < g.lseq)
      | none => l.retry })

/-- FLIT_RECEIVE (R228, R229): a link takes flits in its own order; the port discards duplicates and releases the rest in send
order. A data-link flit goes no further than its link. -/
def execFlitReceive (port : Nat) (f : Flit) (s : State) : Out :=
  let p := s.port port
  if !(vget p.links {} f.link).up || f.lseq != (vget p.links {} f.link).awaited then .next s
  else
    let s1 := linkReceived port f s
    if f.kind == .dataLink || f.seq < p.expect || p.held.any (fun g => g.seq == f.seq) then .next s1
    else .next (releaseFlits port (p.held.length + 1) (s1.modPort port (fun y => { y with held := insertFlit f y.held })))

/-! ### Links (R230) -/

/-- LINK_DEGRADED names port, link and lane. -/
def linkDegraded (port link lane : Nat) (s : State) : State :=
  s.postMlog (devOfPort s.mode port) { code := cLinkDegraded, cls := cls4 port link lane 0 }

def ms : Nat := 1000000

/-- A flit of a failed link moved to a surviving link of its port with its port sequence number, or else to another port. -/
def moveFlit (port : Nat) (s : State) (f : Flit) : State :=
  if (upLinks (s.port port)).isEmpty then sendOne (devOfPort s.mode port) f.dst f.body s else putLink port f s

/-- A link declared failed: its unacknowledged flits move, in port-sequence order, to the survivors, and it retrains after 10 ms. -/
def failLink (port link lane : Nat) (s : State) : State :=
  let s1 := s.modLink port link (fun l => { l with
    up := false, lanes := 0, replays := 0, retrains := 0, nextTry := s.aon + 10 * ms, retry := [] })
  linkDegraded port link lane (((vget (s.port port).links {} link).retry.foldr insertFlit []).foldl (moveFlit port) s1)

/-- LANE_LOCK_LOSS: a lane has lost lock for 1 µs. -/
def execLaneLockLoss (port lane : Nat) (s : State) : Out :=
  let s1 := s.modPort port (fun p => { p with lanesUp := vset p.lanesUp lane false })
  if (vget (s.port port).links {} (lane / 4)).up then .next (failLink port (lane / 4) lane s1) else .next s1

/-- LINK_LEVEL_REPLAY: 16 replays that fail one after another fail the link. -/
def execLinkLevelReplay (port link : Nat) (ok : Bool) (s : State) : Out :=
  let l := vget (s.port port).links {} link
  if !l.up then .next s
  else if ok then .next (s.modLink port link (fun y => { y with replays := 0 }))
  else if l.replays + 1 < 16 then .next (s.modLink port link (fun y => { y with replays := y.replays + 1 }))
  else .next (failLink port link 0xFFFFFFFF s)

/-- LINK_RETRAIN: attempts after 10, 20 and 40 ms. -/
def execLinkRetrain (port link : Nat) (ok : Bool) (s : State) : Out :=
  let l := vget (s.port port).links {} link
  if l.up || 3 ≤ l.retrains || s.aon < l.nextTry then .next s
  else if ok then
    .next (flushEgress (devOfPort s.mode port)
      ((s.modLink port link (fun y => { y with up := true, lanes := 4, retrains := 0, next := 0, awaited := 0 })).modPort port (fun p =>
        { p with lanesUp := vmapIdx (fun i b => b || i / 4 == link) p.lanesUp })))
  else
    .next (linkDegraded port link 0xFFFFFFFF (s.modLink port link (fun y => { y with
      retrains := y.retrains + 1, nextTry := s.aon + 10 * ms * 2 ^ (y.retrains + 1) })))

end Sys2Proof.Machine
end

