-- ==== Sys2Proof/Machine/Float.lean ====
section
/-! DEFINITION. The meanings of the floating-point instructions of the 0x040 group (R306 to R315): each is the shared arithmetic word of Arith.lean with
its own operation, whose lane results Alu.lean computes. -/

namespace Sys2Proof.Machine

/-- FADD (R306). -/
def execFadd (w : FWord) (s : State) : Out := arithWord .fadd w s

/-- FSUB (R306). -/
def execFsub (w : FWord) (s : State) : Out := arithWord .fsub w s

/-- FMUL (R306). -/
def execFmul (w : FWord) (s : State) : Out := arithWord .fmul w s

/-- FFMA (R306). -/
def execFfma (w : FWord) (s : State) : Out := arithWord .ffma w s

/-- FFMS (R306). -/
def execFfms (w : FWord) (s : State) : Out := arithWord .ffms w s

/-- FMIN (R308). -/
def execFmin (w : FWord) (s : State) : Out := arithWord .fmin w s

/-- FMAX (R308). -/
def execFmax (w : FWord) (s : State) : Out := arithWord .fmax w s

/-- FABS (R308). -/
def execFabs (w : FWord) (s : State) : Out := arithWord .fabs w s

/-- FNEG (R308). -/
def execFneg (w : FWord) (s : State) : Out := arithWord .fneg w s

/-- FSET (R309). -/
def execFset (w : FWord) (s : State) : Out := arithWord .fset w s

/-- FCLAMP (R308). -/
def execFclamp (w : FWord) (s : State) : Out := arithWord .fclamp w s

/-- FRND (R310). -/
def execFrnd (w : FWord) (s : State) : Out := arithWord .frnd w s

/-- FRCP (R311). -/
def execFrcp (w : FWord) (s : State) : Out := arithWord .frcp w s

/-- FRSQ (R311). -/
def execFrsq (w : FWord) (s : State) : Out := arithWord .frsq w s

/-- FSQRT (R306). -/
def execFsqrt (w : FWord) (s : State) : Out := arithWord .fsqrt w s

/-- FDIV (R306). -/
def execFdiv (w : FWord) (s : State) : Out := arithWord .fdiv w s

/-- FEXP2 (R311). -/
def execFexp2 (w : FWord) (s : State) : Out := arithWord .fexp2 w s

/-- FLOG2 (R311). -/
def execFlog2 (w : FWord) (s : State) : Out := arithWord .flog2 w s

/-- FSIN (R311). -/
def execFsin (w : FWord) (s : State) : Out := arithWord .fsin w s

/-- FCOS (R311). -/
def execFcos (w : FWord) (s : State) : Out := arithWord .fcos w s

/-- FTANH (R311). -/
def execFtanh (w : FWord) (s : State) : Out := arithWord .ftanh w s

/-- FSIGM (R311). -/
def execFsigm (w : FWord) (s : State) : Out := arithWord .fsigm w s

/-- FSCALE (R313). -/
def execFscale (w : FWord) (s : State) : Out := arithWord .fscale w s

/-- FGETEXP (R313). -/
def execFgetexp (w : FWord) (s : State) : Out := arithWord .fgetexp w s

/-- FCLASS (R314). -/
def execFclass (w : FWord) (s : State) : Out := arithWord .fclass w s

/-- FDOT2 (R315). -/
def execFdot2 (w : FWord) (s : State) : Out := arithWord .fdot2 w s

/-- FMOVI: the binary32 immediate under the type (R303). -/
def execFmovi (w : IWord) (s : State) : Out := immWord fmoviValue w s

end Sys2Proof.Machine
end

