-- ==== Sys2Proof/Machine/Integer.lean ====
section
/-! DEFINITION. The meanings of the integer, bit and predicate instructions of the 0x001 group (R294 to R305): each is the shared arithmetic word of Arith.lean with
its own operation, whose lane results Alu.lean computes. -/

namespace Sys2Proof.Machine

/-- ADD (R294). -/
def execAdd (w : FWord) (s : State) : Out := arithWord .add w s

/-- SUB (R294). -/
def execSub (w : FWord) (s : State) : Out := arithWord .sub w s

/-- MUL (R294). -/
def execMul (w : FWord) (s : State) : Out := arithWord .mul w s

/-- MULHI (R294). -/
def execMulhi (w : FWord) (s : State) : Out := arithWord .mulhi w s

/-- MAD (R294). -/
def execMad (w : FWord) (s : State) : Out := arithWord .mad w s

/-- MADW (R294). -/
def execMadw (w : FWord) (s : State) : Out := arithWord .madw w s

/-- DIV (R296). -/
def execDiv (w : FWord) (s : State) : Out := arithWord .div w s

/-- REM (R296). -/
def execRem (w : FWord) (s : State) : Out := arithWord .rem w s

/-- MIN (R294). -/
def execMin (w : FWord) (s : State) : Out := arithWord .min w s

/-- MAX (R294). -/
def execMax (w : FWord) (s : State) : Out := arithWord .max w s

/-- ABS (R294). -/
def execAbs (w : FWord) (s : State) : Out := arithWord .abs w s

/-- NEG (R294). -/
def execNeg (w : FWord) (s : State) : Out := arithWord .neg w s

/-- AND (R294). -/
def execAnd (w : FWord) (s : State) : Out := arithWord .and w s

/-- OR (R294). -/
def execOr (w : FWord) (s : State) : Out := arithWord .or w s

/-- XOR (R294). -/
def execXor (w : FWord) (s : State) : Out := arithWord .xor w s

/-- ANDN (R294). -/
def execAndn (w : FWord) (s : State) : Out := arithWord .andn w s

/-- NOT (R294). -/
def execNot (w : FWord) (s : State) : Out := arithWord .not w s

/-- SHL (R294). -/
def execShl (w : FWord) (s : State) : Out := arithWord .shl w s

/-- SHR (R294). -/
def execShr (w : FWord) (s : State) : Out := arithWord .shr w s

/-- SAR (R294). -/
def execSar (w : FWord) (s : State) : Out := arithWord .sar w s

/-- ROTL (R294). -/
def execRotl (w : FWord) (s : State) : Out := arithWord .rotl w s

/-- CLZ (R294). -/
def execClz (w : FWord) (s : State) : Out := arithWord .clz w s

/-- POPC (R294). -/
def execPopc (w : FWord) (s : State) : Out := arithWord .popc w s

/-- BREV (R294). -/
def execBrev (w : FWord) (s : State) : Out := arithWord .brev w s

/-- BFX (R298). -/
def execBfx (w : FWord) (s : State) : Out := arithWord .bfx w s

/-- BFI (R298). -/
def execBfi (w : FWord) (s : State) : Out := arithWord .bfi w s

/-- SEL (R294). -/
def execSel (w : FWord) (s : State) : Out := arithWord .sel w s

/-- ISET (R297). -/
def execIset (w : FWord) (s : State) : Out := arithWord .iset w s

/-- LEA (R299). -/
def execLea (w : FWord) (s : State) : Out := arithWord .lea w s

/-- ADDC (R300). -/
def execAddc (w : FWord) (s : State) : Out := arithWord .addc w s

/-- SUBB (R300). -/
def execSubb (w : FWord) (s : State) : Out := arithWord .subb w s

/-- MOV (R294). -/
def execMov (w : FWord) (s : State) : Out := arithWord .mov w s

/-- DUP (R301). -/
def execDup (w : FWord) (s : State) : Out := arithWord .dup w s

/-- PLOP (R304). -/
def execPlop (w : FWord) (s : State) : Out := arithWord .plop w s

/-- PMOV (R305). -/
def execPmov (w : FWord) (s : State) : Out := arithWord .pmov w s

/-- SAD (R294). -/
def execSad (w : FWord) (s : State) : Out := arithWord .sad w s

/-- DOT4 (R295). -/
def execDot4 (w : FWord) (s : State) : Out := arithWord .dot4 w s

/-- BPERM (R302). -/
def execBperm (w : FWord) (s : State) : Out := arithWord .bperm w s

/-- MOVI: the immediate as its bits (R303). -/
def execMovi (w : IWord) (s : State) : Out := immWord moviValue w s

/-- MOVHI: the immediate above q0 (R303). -/
def execMovhi (w : IWord) (s : State) : Out := movhiWord w s

end Sys2Proof.Machine
end

