-- ==== Sys2Proof/Machine/Repeat.lean ====
section
/-! DEFINITION. REP (R76, R77, R93, R94): the following word executed with stepped operand fields. -/

namespace Sys2Proof.Machine

/-- The meaning of an M-form instruction. -/
def memMeaning (i : Instr) : Option Meaning :=
  match i with
  | .ld w => some (ldMeaning w)
  | .st w => some (stMeaning w)
  | .lds w => some (ldsMeaning w)
  | .sts w => some (stsMeaning w)
  | .ldf w => some (ldfMeaning w)
  | .stf w => some (stfMeaning w)
  | .sete w => some (seteMeaning w)
  | .setf w => some (setfMeaning w)
  | .atom w => some (atomMeaning w)
  | .atoms w => some (atomsMeaning w)
  | .pref w => some (prefMeaning w)
  | .discard w => some (discardMeaning w)
  | .lastuse w => some (lastuseMeaning w)
  | .flushl w => some (flushlMeaning w)
  | .invl w => some (invlMeaning w)
  | _ => none

/-- The meaning of a word that REP can repeat (R77). -/
def repMeaning (i : Instr) : Option Meaning :=
  match arith? i with
  | some (op, w) => some (arithMeaning op w)
  | none => memMeaning i

/-! ### Stepped words (R76) -/

/-- The code range of an operand code (R77). -/
def codeClass (c : Nat) : Nat :=
  if c < 0x10 then 0
  else if c < 0x20 then 1
  else if c < 0x40 then 2
  else if c < 0x80 then 3
  else if c < 0x90 then 4
  else if c < 0x9E then 5
  else 6

/-- A code after k steps, as a number that may leave the codes. -/
def stepInt (c : BitVec 8) (step : BitVec 4) (k : Nat) : Int := c.toNat + k * step.toInt

def stepCode (c : BitVec 8) (step : BitVec 4) (k : Nat) : BitVec 8 := BitVec.ofInt 8 (stepInt c step k)

/-- Stepping a field is legal in every execution. -/
def stepOk (c : BitVec 8) (step : BitVec 4) (n : Nat) : Bool :=
  step == 0#4 || (!isNone c && (List.range n).all (fun k =>
    let v := stepInt c step k
    0 ≤ v && codeClass v.toNat == codeClass c.toNat))

/-- The following word is of the M-form. -/
def isMForm (i : Instr) : Bool := (memShape i).isSome

/-- Execution k of the following word. -/
def steppedWord (w : RepWord) (word : DWord) (k : Nat) : DWord :=
  let op := word.extractLsb' 54 9
  if isMForm (decodeRaw word) then
    let m := readM word
    packM op { m with base := stepCode m.base w.stepA k, data := stepCode m.data w.stepB k, d := stepCode m.d w.stepD k }
  else
    let f := readF word
    packF op { f with sa := stepCode f.sa w.stepA k, sb := stepCode f.sb w.stepB k, sc := stepCode f.sc w.stepC k
                      d := stepCode f.d w.stepD k }

/-- The steps of REP stay within the codes of the following word's fields. -/
def stepsOk (w : RepWord) (word : DWord) : Bool :=
  let n := w.count.toNat
  if isMForm (decodeRaw word) then
    let m := readM word
    stepOk m.base w.stepA n && stepOk m.data w.stepB n && stepOk m.d w.stepD n
  else
    let f := readF word
    stepOk f.sa w.stepA n && stepOk f.sb w.stepB n && stepOk f.sc w.stepC n && stepOk f.d w.stepD n

/-- The decode trap of a REP word with its following word, checked as one word (R77, R110). -/
def repTrap (w : RepWord) (word : DWord) : Option DecodeTrap :=
  let i := decodeRaw word
  if unassigned word then some .illegalOpcode
  else if wordTrap (.rep w) == some .illegalEncoding || (repMeaning i).isNone || (isMForm i && w.stepC != 0#4)
      || wordTrap i == some .illegalEncoding then some .illegalEncoding
  else if !(stepsOk w word)
      || (List.range w.count.toNat).any (fun k => (wordTrap (decodeRaw (steppedWord w word k))).isSome) then
    some .illegalOperand
  else none

/-- Execution k of the following word, with the strand's PC at the REP; a word that waits leaves the state s from before
its fetch. -/
def runRep (w : RepWord) (word : DWord) (x : At) (k : Nat) (s s1 : State) : Out :=
  match repMeaning (decodeRaw (steppedWord w word k)) with
  | none => trapWord { code := cIllegalEncoding } s1
  | some m =>
    let y := { x with rep := some (k, w.count.toNat) }
    match m.verdict y s1 with
    | .go => .next (m.effect y s1)
    | .wait => .next s
    | .trap t => .next (takeTrap x.c x.st t s1)

/-- REP: one execution of the following word. -/
def execRep (w : RepWord) (s : State) : Out :=
  match s.at_ with
  | none => .fault .noStrand
  | some x =>
    match fetchWord (x.ctx s) (x.sd.pc + 8#64) s with
    | (s1, .error t) => trapWord t s1
    | (s1, .ok word) =>
      match if x.sd.repi = 0 then repTrap w word else none with
      | some t => trapWord (trapOfDecode t) s1
      | none => runRep w word x x.sd.repi s s1

end Sys2Proof.Machine
end

