-- ==== Sys2Proof/Machine/Dispatch.lean ====
section
/-! DEFINITION. exec: one arm per constructor of Instr, each one direct call of its meaning. -/

namespace Sys2Proof.Machine

def exec (i : Instr) (s : State) : Host.Outcome State Fault Refusal :=
  match i with
  | .add w => Sys2Proof.Machine.execAdd w s
  | .sub w => Sys2Proof.Machine.execSub w s
  | .mul w => Sys2Proof.Machine.execMul w s
  | .mulhi w => Sys2Proof.Machine.execMulhi w s
  | .mad w => Sys2Proof.Machine.execMad w s
  | .madw w => Sys2Proof.Machine.execMadw w s
  | .div w => Sys2Proof.Machine.execDiv w s
  | .rem w => Sys2Proof.Machine.execRem w s
  | .min w => Sys2Proof.Machine.execMin w s
  | .max w => Sys2Proof.Machine.execMax w s
  | .abs w => Sys2Proof.Machine.execAbs w s
  | .neg w => Sys2Proof.Machine.execNeg w s
  | .and w => Sys2Proof.Machine.execAnd w s
  | .or w => Sys2Proof.Machine.execOr w s
  | .xor w => Sys2Proof.Machine.execXor w s
  | .andn w => Sys2Proof.Machine.execAndn w s
  | .not w => Sys2Proof.Machine.execNot w s
  | .shl w => Sys2Proof.Machine.execShl w s
  | .shr w => Sys2Proof.Machine.execShr w s
  | .sar w => Sys2Proof.Machine.execSar w s
  | .rotl w => Sys2Proof.Machine.execRotl w s
  | .clz w => Sys2Proof.Machine.execClz w s
  | .popc w => Sys2Proof.Machine.execPopc w s
  | .brev w => Sys2Proof.Machine.execBrev w s
  | .bfx w => Sys2Proof.Machine.execBfx w s
  | .bfi w => Sys2Proof.Machine.execBfi w s
  | .sel w => Sys2Proof.Machine.execSel w s
  | .iset w => Sys2Proof.Machine.execIset w s
  | .lea w => Sys2Proof.Machine.execLea w s
  | .addc w => Sys2Proof.Machine.execAddc w s
  | .subb w => Sys2Proof.Machine.execSubb w s
  | .mov w => Sys2Proof.Machine.execMov w s
  | .movi w => Sys2Proof.Machine.execMovi w s
  | .movhi w => Sys2Proof.Machine.execMovhi w s
  | .dup w => Sys2Proof.Machine.execDup w s
  | .plop w => Sys2Proof.Machine.execPlop w s
  | .pmov w => Sys2Proof.Machine.execPmov w s
  | .sad w => Sys2Proof.Machine.execSad w s
  | .dot4 w => Sys2Proof.Machine.execDot4 w s
  | .bperm w => Sys2Proof.Machine.execBperm w s
  | .fadd w => Sys2Proof.Machine.execFadd w s
  | .fsub w => Sys2Proof.Machine.execFsub w s
  | .fmul w => Sys2Proof.Machine.execFmul w s
  | .ffma w => Sys2Proof.Machine.execFfma w s
  | .ffms w => Sys2Proof.Machine.execFfms w s
  | .fmin w => Sys2Proof.Machine.execFmin w s
  | .fmax w => Sys2Proof.Machine.execFmax w s
  | .fabs w => Sys2Proof.Machine.execFabs w s
  | .fneg w => Sys2Proof.Machine.execFneg w s
  | .fset w => Sys2Proof.Machine.execFset w s
  | .fclamp w => Sys2Proof.Machine.execFclamp w s
  | .frnd w => Sys2Proof.Machine.execFrnd w s
  | .frcp w => Sys2Proof.Machine.execFrcp w s
  | .frsq w => Sys2Proof.Machine.execFrsq w s
  | .fsqrt w => Sys2Proof.Machine.execFsqrt w s
  | .fdiv w => Sys2Proof.Machine.execFdiv w s
  | .fexp2 w => Sys2Proof.Machine.execFexp2 w s
  | .flog2 w => Sys2Proof.Machine.execFlog2 w s
  | .fsin w => Sys2Proof.Machine.execFsin w s
  | .fcos w => Sys2Proof.Machine.execFcos w s
  | .ftanh w => Sys2Proof.Machine.execFtanh w s
  | .fsigm w => Sys2Proof.Machine.execFsigm w s
  | .fscale w => Sys2Proof.Machine.execFscale w s
  | .fgetexp w => Sys2Proof.Machine.execFgetexp w s
  | .fclass w => Sys2Proof.Machine.execFclass w s
  | .fdot2 w => Sys2Proof.Machine.execFdot2 w s
  | .fmovi w => Sys2Proof.Machine.execFmovi w s
  | .cvt w => Sys2Proof.Machine.execCvt w s
  | .qcvt w => Sys2Proof.Machine.execQcvt w s
  | .qpack w => Sys2Proof.Machine.execQpack w s
  | .qunpack w => Sys2Proof.Machine.execQunpack w s
  | .scalegen w => Sys2Proof.Machine.execScalegen w s
  | .amax w => Sys2Proof.Machine.execAmax w s
  | .shfl w => Sys2Proof.Machine.execShfl w s
  | .shflx w => Sys2Proof.Machine.execShflx w s
  | .shflup w => Sys2Proof.Machine.execShflup w s
  | .shfldn w => Sys2Proof.Machine.execShfldn w s
  | .bcast w => Sys2Proof.Machine.execBcast w s
  | .vote w => Sys2Proof.Machine.execVote w s
  | .redux w => Sys2Proof.Machine.execRedux w s
  | .pscan w => Sys2Proof.Machine.execPscan w s
  | .matchLanes w => Sys2Proof.Machine.execMatchLanes w s
  | .ld w => Sys2Proof.Machine.execLd w s
  | .st w => Sys2Proof.Machine.execSt w s
  | .lds w => Sys2Proof.Machine.execLds w s
  | .sts w => Sys2Proof.Machine.execSts w s
  | .ldf w => Sys2Proof.Machine.execLdf w s
  | .stf w => Sys2Proof.Machine.execStf w s
  | .sete w => Sys2Proof.Machine.execSete w s
  | .setf w => Sys2Proof.Machine.execSetf w s
  | .atom w => Sys2Proof.Machine.execAtom w s
  | .atoms w => Sys2Proof.Machine.execAtoms w s
  | .pref w => Sys2Proof.Machine.execPref w s
  | .discard w => Sys2Proof.Machine.execDiscard w s
  | .lastuse w => Sys2Proof.Machine.execLastuse w s
  | .flushl w => Sys2Proof.Machine.execFlushl w s
  | .invl w => Sys2Proof.Machine.execInvl w s
  | .fence w => Sys2Proof.Machine.execFence w s
  | .qfence w => Sys2Proof.Machine.execQfence w s
  | .chain w => Sys2Proof.Machine.execChain w s
  | .cpy w => Sys2Proof.Machine.execCpy w s
  | .sealBatch w => Sys2Proof.Machine.execSealBatch w s
  | .waitb w => Sys2Proof.Machine.execWaitb w s
  | .bstat w => Sys2Proof.Machine.execBstat w s
  | .cbdef w => Sys2Proof.Machine.execCbdef w s
  | .cbprod w => Sys2Proof.Machine.execCbprod w s
  | .cbcons w => Sys2Proof.Machine.execCbcons w s
  | .cbwait w => Sys2Proof.Machine.execCbwait w s
  | .sfill w => Sys2Proof.Machine.execSfill w s
  | .spush w => Sys2Proof.Machine.execSpush w s
  | .sbind w => Sys2Proof.Machine.execSbind w s
  | .codebk w => Sys2Proof.Machine.execCodebk w s
  | .swz w => Sys2Proof.Machine.execSwz w s
  | .btlook w => Sys2Proof.Machine.execBtlook w s
  | .btref w => Sys2Proof.Machine.execBtref w s
  | .btalloc w => Sys2Proof.Machine.execBtalloc w s
  | .btfree w => Sys2Proof.Machine.execBtfree w s
  | .migr w => Sys2Proof.Machine.execMigr w s
  | .mma w => Sys2Proof.Machine.execMma w s
  | .mmaz w => Sys2Proof.Machine.execMmaz w s
  | .accz w => Sys2Proof.Machine.execAccz w s
  | .accld w => Sys2Proof.Machine.execAccld w s
  | .accst w => Sys2Proof.Machine.execAccst w s
  | .accmv w => Sys2Proof.Machine.execAccmv w s
  | .acctest w => Sys2Proof.Machine.execAcctest w s
  | .accclr w => Sys2Proof.Machine.execAccclr w s
  | .fmtset w => Sys2Proof.Machine.execFmtset w s
  | .fmtget w => Sys2Proof.Machine.execFmtget w s
  | .bndset w => Sys2Proof.Machine.execBndset w s
  | .region w => Sys2Proof.Machine.execRegion w s
  | .normrd w => Sys2Proof.Machine.execNormrd w s
  | .errinj w => Sys2Proof.Machine.execErrinj w s
  | .bra w => Sys2Proof.Machine.execBra w s
  | .brx w => Sys2Proof.Machine.execBrx w s
  | .call w => Sys2Proof.Machine.execCall w s
  | .ret w => Sys2Proof.Machine.execRet w s
  | .exit w => Sys2Proof.Machine.execExit w s
  | .join w => Sys2Proof.Machine.execJoin w s
  | .rep w => Sys2Proof.Machine.execRep w s
  | .loop w => Sys2Proof.Machine.execLoop w s
  | .nop w => Sys2Proof.Machine.execNop w s
  | .prio w => Sys2Proof.Machine.execPrio w s
  | .yield w => Sys2Proof.Machine.execYield w s
  | .sleep w => Sys2Proof.Machine.execSleep w s
  | .bar w => Sys2Proof.Machine.execBar w s
  | .bara w => Sys2Proof.Machine.execBara w s
  | .barw w => Sys2Proof.Machine.execBarw w s
  | .barinit w => Sys2Proof.Machine.execBarinit w s
  | .empty w => Sys2Proof.Machine.execEmpty w s
  | .waitf w => Sys2Proof.Machine.execWaitf w s
  | .rstv w => Sys2Proof.Machine.execRstv w s
  | .nameq w => Sys2Proof.Machine.execNameq w s
  | .coll w => Sys2Proof.Machine.execColl w s
  | .collw w => Sys2Proof.Machine.execCollw w s
  | .swsize w => Sys2Proof.Machine.execSwsize w s
  | .swbuild w => Sys2Proof.Machine.execSwbuild w s
  | .swsend w => Sys2Proof.Machine.execSwsend w s
  | .swdiff w => Sys2Proof.Machine.execSwdiff w s
  | .swpeel w => Sys2Proof.Machine.execSwpeel w s
  | .swapply w => Sys2Proof.Machine.execSwapply w s
  | .mfs w => Sys2Proof.Machine.execMfs w s
  | .mts w => Sys2Proof.Machine.execMts w s
  | .trap w => Sys2Proof.Machine.execTrap w s
  | .bkpt w => Sys2Proof.Machine.execBkpt w s
  | .signal w => Sys2Proof.Machine.execSignal w s
  | .time w => Sys2Proof.Machine.execTime w s
  | .clock w => Sys2Proof.Machine.execClock w s
  | .ptew w => Sys2Proof.Machine.execPtew w s
  | .joinWaitExpire c st => Sys2Proof.Machine.execJoinWaitExpire c st s
  | .joinLimitExpire c st => Sys2Proof.Machine.execJoinLimitExpire c st s
  | .longLatencyArrival id => Sys2Proof.Machine.execLongLatencyArrival id s
  | .ageLevelUp c st => Sys2Proof.Machine.execAgeLevelUp c st s
  | .sleepExpire c st => Sys2Proof.Machine.execSleepExpire c st s
  | .yieldTimeout c st => Sys2Proof.Machine.execYieldTimeout c st s
  | .checkAccess id => Sys2Proof.Machine.execCheckAccess id s
  | .homeWritePerformed id => Sys2Proof.Machine.execHomeWritePerformed id s
  | .cowCopyComplete id => Sys2Proof.Machine.execCowCopyComplete id s
  | .pageWalk id pick => Sys2Proof.Machine.execPageWalk id pick s
  | .leaseExpire dev ia => Sys2Proof.Machine.execLeaseExpire dev ia s
  | .granuleOpComplete id => Sys2Proof.Machine.execGranuleOpComplete id s
  | .recordClaim core ch => Sys2Proof.Machine.execRecordClaim core ch s
  | .recordComplete core id => Sys2Proof.Machine.execRecordComplete core id s
  | .streamFill core st => Sys2Proof.Machine.execStreamFill core st s
  | .matrixOpStart core => Sys2Proof.Machine.execMatrixOpStart core s
  | .mmaAttemptComplete core errs => Sys2Proof.Machine.execMmaAttemptComplete core errs s
  | .matrixOpComplete core => Sys2Proof.Machine.execMatrixOpComplete core s
  | .railEvaluate core => Sys2Proof.Machine.execRailEvaluate core s
  | .rstvDelivery id => Sys2Proof.Machine.execRstvDelivery id s
  | .rstvBufferDrain core => Sys2Proof.Machine.execRstvBufferDrain core s
  | .rstvRetry id => Sys2Proof.Machine.execRstvRetry id s
  | .flitReceive port f => Sys2Proof.Machine.execFlitReceive port f s
  | .laneLockLoss port lane => Sys2Proof.Machine.execLaneLockLoss port lane s
  | .linkRetrain port link ok => Sys2Proof.Machine.execLinkRetrain port link ok s
  | .remoteRequest dev q => Sys2Proof.Machine.execRemoteRequest dev q s
  | .staleNak id => Sys2Proof.Machine.execStaleNak id s
  | .remoteCompletion id r => Sys2Proof.Machine.execRemoteCompletion id r s
  | .podTranslationFetch id r => Sys2Proof.Machine.execPodTranslationFetch id r s
  | .shootDownReceive dev owner ia sz => Sys2Proof.Machine.execShootDownReceive dev owner ia sz s
  | .shootDownTimeout dev silent => Sys2Proof.Machine.execShootDownTimeout dev silent s
  | .joinAnnouncement dev peer incarn => Sys2Proof.Machine.execJoinAnnouncement dev peer incarn s
  | .podTimeout dev peer => Sys2Proof.Machine.execPodTimeout dev peer s
  | .collectiveComplete core r => Sys2Proof.Machine.execCollectiveComplete core r s
  | .swatchOpComplete core => Sys2Proof.Machine.execSwatchOpComplete core s
  | .swsendNotice core => Sys2Proof.Machine.execSwsendNotice core s
  | .migrationStart far => Sys2Proof.Machine.execMigrationStart far s
  | .migrationFlip far => Sys2Proof.Machine.execMigrationFlip far s
  | .drainMarker dev fromDie toDie => Sys2Proof.Machine.execDrainMarker dev fromDie toDie s
  | .kickWrite dev j v => Sys2Proof.Machine.execKickWrite dev j v s
  | .queueScan dev q => Sys2Proof.Machine.execQueueScan dev q s
  | .commandLaunch dev r => Sys2Proof.Machine.execCommandLaunch dev r s
  | .panelMemberStart panel p => Sys2Proof.Machine.execPanelMemberStart panel p s
  | .launchComplete launch => Sys2Proof.Machine.execLaunchComplete launch s
  | .courseBind c => Sys2Proof.Machine.execCourseBind c s
  | .courseResume c save p => Sys2Proof.Machine.execCourseResume c save p s
  | .preempt c => Sys2Proof.Machine.execPreempt c s
  | .courseSaveComplete c => Sys2Proof.Machine.execCourseSaveComplete c s
  | .heartbeatWrite die v => Sys2Proof.Machine.execHeartbeatWrite die v s
  | .heartbeatTimeout die => Sys2Proof.Machine.execHeartbeatTimeout die s
  | .schedulerUe die => Sys2Proof.Machine.execSchedulerUe die s
  | .schedulerTakeover die => Sys2Proof.Machine.execSchedulerTakeover die s
  | .wayallWrite die cls v => Sys2Proof.Machine.execWayallWrite die cls v s
  | .debugHalt c => Sys2Proof.Machine.execDebugHalt c s
  | .debugHaltQuiesce c => Sys2Proof.Machine.execDebugHaltQuiesce c s
  | .debugResume c => Sys2Proof.Machine.execDebugResume c s
  | .debugStep c => Sys2Proof.Machine.execDebugStep c s
  | .debugStepWait c => Sys2Proof.Machine.execDebugStepWait c s
  | .debugReadLs c off => Sys2Proof.Machine.execDebugReadLs c off s
  | .registerWrite addr v => Sys2Proof.Machine.execRegisterWrite addr v s
  | .telemetryUpdate dev asid => Sys2Proof.Machine.execTelemetryUpdate dev asid s
  | .powerOn b => Sys2Proof.Machine.execPowerOn b s
  | .warmReset b => Sys2Proof.Machine.execWarmReset b s
  | .authenticationTimeout die => Sys2Proof.Machine.execAuthenticationTimeout die s
  | .powerStateEnter die => Sys2Proof.Machine.execPowerStateEnter die s
  | .powerStateExit die => Sys2Proof.Machine.execPowerStateExit die s
  | .pkgtimeExchange withMaster offset skew => Sys2Proof.Machine.execPkgtimeExchange withMaster offset skew s
  | .attestationRequest nonce => Sys2Proof.Machine.execAttestationRequest nonce s
  | .firmwareUpdate img bytes => Sys2Proof.Machine.execFirmwareUpdate img bytes s
  | .pldmMessage m => Sys2Proof.Machine.execPldmMessage m s
  | .illegalOpcode w => Sys2Proof.Machine.execIllegalOpcode w s
  | .pairWord rsv a b => Sys2Proof.Machine.execPairWord rsv a b s
  | .linkLevelReplay port link ok => Sys2Proof.Machine.execLinkLevelReplay port link ok s
  | .migrationAbandon far => Sys2Proof.Machine.execMigrationAbandon far s
  | .asidHoldExpire dev asid => Sys2Proof.Machine.execAsidHoldExpire dev asid s
  | .codebookLoadComplete core ch => Sys2Proof.Machine.execCodebookLoadComplete core ch s
  | .powerControllerThrottle die on => Sys2Proof.Machine.execPowerControllerThrottle die on s
  | .normMonitorCheck => Sys2Proof.Machine.execNormMonitorCheck s
  | .shootDownDrained => Sys2Proof.Machine.execShootDownDrained s
  | .shootDownComplete => Sys2Proof.Machine.execShootDownComplete s
  | .commandNop => Sys2Proof.Machine.execCommandNop s
  | .contextCreate => Sys2Proof.Machine.execContextCreate s
  | .contextUpdate => Sys2Proof.Machine.execContextUpdate s
  | .contextDestroy => Sys2Proof.Machine.execContextDestroy s
  | .ctxstatRead => Sys2Proof.Machine.execCtxstatRead s
  | .sdgoWrite => Sys2Proof.Machine.execSdgoWrite s
  | .mapMove => Sys2Proof.Machine.execMapMove s
  | .mapSwitch => Sys2Proof.Machine.execMapSwitch s
  | .klEstablish => Sys2Proof.Machine.execKlEstablish s
  | .klLoad => Sys2Proof.Machine.execKlLoad s
  | .noteappRead => Sys2Proof.Machine.execNoteappRead s
  | .notehostRead => Sys2Proof.Machine.execNotehostRead s
  | .pkgtimeSyncLost => Sys2Proof.Machine.execPkgtimeSyncLost s
  | .fetchFault => Sys2Proof.Machine.execFetchFault s

end Sys2Proof.Machine
end

