-- ==== Sys2Proof/Machine/Due.lean ====
section
/-! DEFINITION. Which events of the machine itself have come about in a state (notes/assumptions/2.md): every event listed
here changes the state it is performed in. Events that only an outside agent brings are not listed. -/

namespace Sys2Proof.Machine

/-! ### Memory and strands -/

/-- The events of accesses in flight (R49, R135, R150, R425). -/
def accessDue (s : State) : List Instr :=
  s.accesses.flatMap (fun e =>
    let a := e.2
    let free := !(s.mustWait e.1 a)
    let has := fun (f : LaneAcc → Bool) => free && (Tab.vals a.lanes).any f
    let at_ := fun (x : LaneAcc) => match x.stage with
      | .at_ _ => true
      | _ => false
    (if !a.undecided && a.words != 0 then [.longLatencyArrival e.1] else [])
    ++ (if has (fun x => x.stage == .issued && !a.kind.tableOp) then [.pageWalk e.1 false] else [])
    ++ (if has (fun x => at_ x && x.checked a.kind) then [.checkAccess e.1] else [])
    ++ (if has (fun x => (at_ x && !(x.checked a.kind)) || (a.kind.tableOp && x.stage == .issued)) then
          [.homeWritePerformed e.1] else []))

/-- Values on their way to bound courses (R49). -/
def arrivalDue (s : State) : List Instr :=
  s.arrivals.filterMap (fun e =>
    if e.2.course < 8192 && (lanesReady e.1 e.2 s != 0#32 || e.2.sent == e.2.lanes) then some (.longLatencyArrival e.1) else none)

def granDue (s : State) : List Instr :=
  s.gran.filterMap (fun e => if granReady s e.1 e.2 && (s.team e.2.team).isSome then some (.granuleOpComplete e.1) else none)

def cowDue (s : State) : List Instr := s.cows.filterMap (fun e => if cowHeld s e.2 then none else some (.cowCopyComplete e.1))

/-- The events of waiting strands (R33, R91, R382, R397, R398). -/
def strandDue (s : State) : List Instr :=
  s.courses.flatMap (fun e => (e.2.liveStrands).flatMap (fun st =>
    let y := e.2.strand st
    let now := s.clockOf e.1
    (match y.wait with
     | .sleep t _ => if t ≤ s.aon then [Instr.sleepExpire e.1 st] else []
     | .yield t _ => if t ≤ now then [.yieldTimeout e.1 st] else []
     | .joinAddr t => if t + 4096 ≤ now then [.joinWaitExpire e.1 st] else []
     | .joinWord _ _ => if joinExpired e.2 st now then [.joinLimitExpire e.1 st] else []
     | _ => []) ++ (if 2 ^ 16 ≤ y.age then [.ageLevelUp e.1 st] else [])))

/-- The saves that can complete (R387). -/
def saveDue (s : State) : List Instr :=
  s.courses.filterMap (fun e => if saveReady s e.1 then some (.courseSaveComplete e.1) else none)
    ++ s.teams.filterMap (fun e => if teamSaveReady s e.1 then some (.courseSaveComplete (32 * e.2.core)) else none)

/-! ### Engines of a core -/

/-- The copy channels and streams of a core (R197, R198, R206, R212, R214). -/
def copyDue (s : State) (core : Nat) (k : Core) : List Instr :=
  (List.range 8).flatMap (fun ch =>
    (if (claimHead core ch s).isSome then [Instr.recordClaim core ch] else [])
    ++ (if loadDue s core ch then [.codebookLoadComplete core ch] else []))
  ++ (k.claimed.filterMap (fun e => if recordDue s core e.1 then some (.recordComplete core e.1) else none))
  ++ ((List.range 8).filterMap (fun st =>
    let tids := teamsOn s core
    let t := tids.foldl (fun acc i => fillStream i st acc) s
    if tids.any (fun i => t.team i != s.team i) then some (.streamFill core st) else none))

/-- The matrix engine of a core (R339, R340, R346, R351). -/
def matrixDue (s : State) (core : Nat) (k : Core) : List Instr :=
  (match k.mq with
   | [] => []
   | o :: _ =>
     if o.fence.isSome then []
     else if !o.started then [Instr.matrixOpStart core]
     else if o.isMma then [.mmaAttemptComplete core []]
     else if matDue s core o then [.matrixOpComplete core]
     else [])
  ++ (if k.railAt + 2 ^ 24 ≤ (s.die (core / 64)).clock then [.railEvaluate core] else [])

/-- The swatch engine and the receive buffer of a core (R247, R258, R262). -/
def podCoreDue (s : State) (core : Nat) (k : Core) : List Instr :=
  (if swatchDue s core then [Instr.swatchOpComplete core] else []) ++ (if noticeDue s core then [.swsendNotice core] else [])
  ++ (if (firstDrain s core [] k.rbuf).isSome then [.rstvBufferDrain core] else [])

/-- The collectives that the package finishes by itself (R250). -/
def collectiveDue (s : State) : List Instr :=
  s.cores.filterMap (fun e => if collDue s e.1 then some (.collectiveComplete e.1 noReply) else none)

def coreDue (s : State) : List Instr :=
  s.cores.flatMap (fun e => copyDue s e.1 e.2 ++ matrixDue s e.1 e.2 ++ podCoreDue s e.1 e.2)

/-- The migration engines: they begin and end at once (R226). -/
def migrationDue (s : State) : List Instr :=
  (List.range 2).flatMap (fun f =>
    match (s.migEngine f).active, (s.migEngine f).queue with
    | some _, _ => [Instr.migrationFlip f]
    | none, m :: _ => if migHeld s m then [] else [.migrationStart f]
    | none, [] => [])

/-! ### The pod, inside the package -/

/-- RSTVs on their way (R247, R248): a delivery that does something; a retry that will not be NAKed again. -/
def rstvDue (s : State) : List Instr :=
  s.rstvs.flatMap (fun e =>
    let fate := rstvFate s e.1 e.2
    if e.2.nak then (if !(olderNak s e.1 e.2) && fate != .nak && (s.devOfPod (namePod e.2.target)).isSome then [Instr.rstvRetry e.1] else [])
    else if fate != .hold then [.rstvDelivery e.1]
    else [])

/-- What a device of the package would make of a request now. -/
def servable (s : State) (q : RemoteOut) : Bool :=
  match s.devOfPod q.pod with
  | none => false
  | some d =>
    let r := requestOf s q
    let peer := Tab.getD (s.dev d).peers {} r.src
    (q.gen.isSome || kindQuery q.kind) && (Tab.find peer.done q.seq).isNone && (Tab.find peer.stale q.seq).isNone
      && (peer.refused || !(heldRequest s d r)) && (match serve d r s with
        | .held => false
        | _ => true)

/-- Requests between devices of the package (R232, R233, R236, R237). -/
def remoteDue (s : State) : List Instr :=
  s.remotes.flatMap (fun e =>
    let q := e.2
    match s.devOfPod q.pod with
    | none =>
      if q.gen.isNone && (podEntry s q).isSome && !(kindQuery q.kind) then
        [Instr.podTranslationFetch e.1 { granted := false, gen := 0, write := false }]
      else []
    | some d =>
      (if q.gen.isNone && !(kindQuery q.kind) then [Instr.podTranslationFetch e.1 { granted := false, gen := 0, write := false }] else [])
      ++ (if servable s q then [.remoteRequest d (requestOf s q)] else [])
      ++ (if q.gen.isSome && nakked s q then [.staleNak e.1] else [])
      ++ (if (givenReply s q).isSome then [.remoteCompletion e.1 { code := 0#16, vals := [] }] else []))

/-- Requests of other packages that have waited for earlier ones (R233). -/
def heldDue (s : State) : List Instr :=
  (devices s.mode).flatMap (fun d => (s.dev d).peers.flatMap (fun e => (e.2.held.filter (fun q =>
    !(heldRequest s d q) && (match serve d q s with
      | .held => false
      | _ => true))).map (fun q => Instr.remoteRequest d q)))

/-! ### Devices and the dispatch -/

/-- Command queues, commands and contexts of a device (R375, R377, R420, R421, R429, R457). -/
def hubDue (s : State) (dev : Nat) : List Instr :=
  let d := s.dev dev
  let up := (dispatchDie s dev).isSome
  (match d.mapCmds with
   | [] => []
   | m :: _ => if m % 4 = 1 then (if d.move.any (fun y => s.aon ≤ y.2.2.2) then [] else [.mapMove]) else if switchHeld s dev then [] else [.mapSwitch])
  ++ (match d.klCmds with
   | [] => []
   | m :: _ => if m % 4 = 1 then [.klEstablish] else [.klLoad])
  ++ (d.markers.filterMap (fun e => if markerHeld s dev e.1 e.2 then none else some (Instr.drainMarker dev e.1 e.2)))
  ++ (d.tlb.filterMap (fun e => if e.2.expiry ≤ s.aon then some (Instr.leaseExpire dev (4096 * e.1)) else none))
  ++ (d.held.filterMap (fun h => if h.till ≤ s.aon then some (Instr.asidHoldExpire dev h.asid) else none))
  ++ (if d.norms.isEmpty then [] else [.normMonitorCheck])
  ++ (if up then (match (if d.scanned.isEmpty then kicked d else d.scanned) with
      | [] => []
      | q :: _ => [Instr.queueScan dev q]) else [])
  ++ (if up && d.commands.any (fun m => m.kind == 2) then [.commandNop] else [])
  ++ (match d.sdQueue with
   | [] => []
   | h :: _ => if h.sent && h.due.isEmpty then [Instr.shootDownComplete] else [])
  ++ (match d.sdRecv with
   | [] => []
   | (o, ia, sz) :: _ => if undrained s dev o ia sz then [] else [.shootDownDrained])

/-- The shoot-downs that devices of the package have still to receive (R238, R431). -/
def shootDue (s : State) : List (Instr × Nat) :=
  (devices s.mode).flatMap (fun o =>
    match (s.dev o).sdQueue with
    | [] => []
    | h :: _ => if !h.sent then [] else h.due.filterMap (fun p => (s.devOfPod p).bind (fun t =>
        if (s.dev t).sdRecv.any (fun e => e.1 == podOf s o && e.2.1 == h.ia) then none
        else some (Instr.shootDownReceive t (podOf s o) h.ia h.sz, t))))

/-- The binds, panel members and completions of launches (R23, R378, R379). -/
def launchDue (s : State) : List Instr :=
  (s.slots.filterMap (fun e => if e.2.state == .bind then some (Instr.courseBind e.1) else none))
  ++ (s.panels.filterMap (fun e =>
    match e.2.plan[e.2.members.length]?, Tab.find s.launches e.2.launch with
    | some q, some l => if e.2.members.length < e.2.nteams && canPlace s l (some e.1) q then some (.panelMemberStart e.1 q) else none
    | _, _ => none))
  ++ (s.launches.filterMap (fun e =>
    match nextPlan s e.2 with
    | p :: _ => if (placeNext e.1 s).isSome then (p.slots.head?.map (fun y => Instr.courseBind (slotIdx p y.1))) else none
    | [] => none))
  ++ (s.launches.filterMap (fun e =>
    if launchDone s e.1 e.2 && (dispatchDie s e.2.dev).isSome then some (.launchComplete e.1) else none))

/-- The periodic events of dies and contexts, and the take-over of a stopped scheduler (R436, R453, R474, R475, R477). -/
def timeDue (s : State) : List Instr :=
  ((List.range 4).flatMap (fun d =>
    let y := s.die d
    (if dispatching s d && y.sched.beatAt + 100000 ≤ s.aon then [Instr.heartbeatWrite d (y.sched.beat + 1#64)] else [])
    ++ (if y.fence == .none && !y.sched.running && y.sched.standby then [.schedulerTakeover d] else [])))
  ++ ((List.range 6).flatMap (fun d =>
    (if entersState s d then [Instr.powerStateEnter d] else [])
    ++ (if (s.die d).pstate != 0 && dieBusy s d then [.powerStateExit d] else [])))
  ++ (s.ctxs.filterMap (fun e => if telemetryDue s e.2 then some (.telemetryUpdate e.2.dev e.2.asid) else none))
  ++ (if syncLost s then [.pkgtimeSyncLost] else [])
  ++ ((List.range 8).filterMap (fun d => if authLate s d then some (Instr.authenticationTimeout d) else none))

/-- The context command that the hub performs next, with its bank: a bank that presents no device has its commands refused
(R15, R420, R463). -/
def ctxDue (s : State) : List (Instr × Nat) :=
  (List.range 4).flatMap (fun b => match (s.dev b).ctxQueue with
    | [] => []
    | m :: _ =>
      if !(firstCmd s m) then []
      else [(if m.cmd = 1 then .contextCreate else if m.cmd = 2 then .contextUpdate else .contextDestroy, b)])

/-- Everything that is due, with the hub bank it acts on, in the model's fixed order. -/
def dueEvents (s : State) : List (Instr × Nat) :=
  (timeDue s ++ accessDue s ++ arrivalDue s ++ granDue s ++ cowDue s ++ strandDue s ++ saveDue s ++ coreDue s ++ collectiveDue s ++ migrationDue s
    ++ rstvDue s ++ remoteDue s ++ heldDue s ++ launchDue s).map (fun i => (i, 0))
  ++ ctxDue s ++ (devices s.mode).flatMap (fun d => (hubDue s d).map (fun i => (i, d))) ++ shootDue s

end Sys2Proof.Machine
end

