-- ==== Sys2Proof/Machine/Sched.lean ====
section
/-! DEFINITION. The turns of the machine: the next word of a strand (R58, R381), the choice of the strand that issues
(R381, R382), and what a cycle does to the clocks and the ages. -/

namespace Sys2Proof.Machine

/-! ### One word of a strand -/

/-- A course goes on, after a stop or a save, before any of its strands issues: it performs its replay entry, issues its matrix
operations again, and puts its channels' work back (R169, R347, R348, R390). -/
def comesBack (s : State) (c : Nat) : Bool :=
  (Tab.vals s.accesses).any (fun a => a.course == c && a.replay) || !(s.courseD c).remat.isEmpty || (Tab.find s.returning c).isSome

/-- A strand can issue, apart from what its word waits for (R381): its course runs on a die that is active, is not halted or
is let go for one word, and has nothing left to do again; the strand waits at no address, sleep, yield or barrier, and not for
the home of its word (R157, R475). -/
def runnable (s : State) (c st : Nat) : Bool :=
  match s.course c with
  | none => false
  | some co =>
    let y := co.strand st
    let d := s.die (dieOf c)
    y.live && co.cstate == .run && (co.halted.isNone || co.stepping.isSome) && y.wait == .none && y.mark.isNone
      && d.fence == .none && d.pstate == 0 && !(comesBack s c) && !(fetchHeld s (s.ctx co.ctx) y.pc.toNat)

/-- The word of a strand executed: the trap of its decoding, or its meaning. A REP is checked with the word after it. -/
def runDecoded (w : DWord) (s : State) : Out :=
  let i := decodeRaw w
  match i, wordTrap i with
  | .rep _, _ => exec i s
  | _, none => exec i s
  | _, some t => trapWord (trapOfDecode t) s

/-- The next word of a strand fetched and executed, with the strand as the current one. -/
def strandWord (c st : Nat) (s : State) : Out :=
  let s0 := { s with cur := some (c, st) }
  let co := s.courseD c
  match fetchWord (s.ctx co.ctx) (co.strand st).pc s0 with
  | (s1, .error _) => exec .fetchFault s1
  | (s1, .ok w) => runDecoded w s1

/-- What a course does again next, once its replay entry is performed: the first of its matrix operations is issued (R347, R348);
when none is left, its channels' work is put back (R390 steps 5 and 6); none where it must wait, or has nothing to do. A halt does
not hold it. -/
def doAgain (c : Nat) (s : State) : Option State :=
  let d := s.die (dieOf c)
  match s.course c with
  | none => none
  | some co =>
    if co.cstate != .run || d.fence != .none || d.pstate != 0 || (Tab.vals s.accesses).any (fun a => a.course == c && a.replay) then none
    else if !co.remat.isEmpty then reissueFirst c s
    else if (Tab.find s.returning c).isSome then some (returnWork c s)
    else none

/-! ### Readiness and selection (R381, R382) -/

/-- The clock of a die advances at the end of the running nanosecond: always, or, throttled, every second time (R17; R108,
R450, R474: a die in a state in which its clock stands has none). -/
def dieTicks (s : State) (die : Nat) : Bool :=
  let d := s.die die
  d.fence == .none && d.pstate ≤ 1 && (!d.throttle || s.aon % 2 == 0)

/-- The strand would issue in the running cycle of its die: its turn changes its course. -/
def readyNow (s : State) (c st : Nat) : Bool :=
  dieTicks s (dieOf c) && runnable s c st &&
  match strandWord c st s with
  | .next t => t.course c != s.course c
  | _ => true

/-- Issue scheduler of a course: core and slot / 8 (R19). -/
def schedulerOf (c : Nat) : Nat := 4 * coreOf c + slotOf c / 8

/-- The strands of a scheduler. -/
def schedStrands (s : State) (k : Nat) : List (Nat × Nat) :=
  (s.courses.filter (fun e => schedulerOf e.1 == k)).flatMap (fun e => e.2.liveStrands.map (fun st => (e.1, st)))

def epOf (s : State) (c st : Nat) : Nat := min 15 ((s.courseD c).prio + ((s.courseD c).strand st).level)

/-- The cycle since which a strand that is ready now has been ready (R381). -/
def readyFrom (s : State) (c st : Nat) : Nat :=
  let y := (s.courseD c).strand st
  if y.wasReady then y.readySince else s.clockOf c

/-- Whether the first strand comes before the second. -/
def before (s : State) (a b : Nat × Nat) : Bool :=
  let ea := epOf s a.1 a.2
  let eb := epOf s b.1 b.2
  let ra := readyFrom s a.1 a.2
  let rb := readyFrom s b.1 b.2
  eb < ea || (ea == eb && (ra < rb || (ra == rb && (a.1 < b.1 || (a.1 == b.1 && a.2 < b.2)))))

def best (s : State) : List (Nat × Nat) → Option (Nat × Nat)
  | [] => none
  | a :: t =>
    match best s t with
    | none => some a
    | some b => if before s a b then some a else some b

/-- select of R381 for one scheduler. -/
def select (s : State) (k : Nat) : Option (Nat × Nat) := best s ((schedStrands s k).filter (fun e => readyNow s e.1 e.2))

/-- The schedulers that hold a course, each once. -/
def schedulers (s : State) : List Nat := (s.courses.map (fun e => schedulerOf e.1)).dedup

/-- The live strands of the package. -/
def allStrands (s : State) : List (Nat × Nat) :=
  s.courses.flatMap (fun e => e.2.liveStrands.map (fun st => (e.1, st)))

/-- A cycle (R381): every scheduler selects a strand in the state in which the cycle begins, each of them issues its word, and
the cycle ends. -/
def cycleTurns (s : State) : List Turn :=
  let sel := (schedulers s).filterMap (select s)
  let waiting := (allStrands s).filter (fun e => !(sel.contains e) && readyNow s e.1 e.2)
  sel.map (fun e => Turn.strand e.1 e.2) ++ [.cycle sel waiting]

/-! ### Time -/

/-- One nanosecond: one cycle of every running die, for a throttled one every second time, and the time for which a die has
been quiet (notes/assumptions/4.md). -/
def tick (s : State) : State :=
  let f := fun (i : Nat) (d : Die) =>
    { d with
      clock := if dieTicks s i then d.clock + 1 else d.clock
      quiet := if d.fence != .none || dieBusy s i then 0 else d.quiet + 1 }
  { s with aon := s.aon + 1, dies := vmapIdx f s.dies }

/-- A strand that did not issue in a cycle: ready, it grows older; else it stops being ready (R381, R382). -/
def Strand.passed (ready : Bool) (now : Nat) (y : Strand) : Strand :=
  if ready then { y with age := y.age + 1, wasReady := true, readySince := if y.wasReady then y.readySince else now }
  else { y with wasReady := false }

/-- The strands that did not issue in a cycle, on the dies that had one. -/
def ageStrands (selected waiting : List (Nat × Nat)) (s : State) : State :=
  ((allStrands s).filter (fun e => !(selected.contains e) && dieTicks s (dieOf e.1))).foldl
    (fun acc e => acc.modStrand e.1 e.2 (Strand.passed (waiting.contains e) (s.clockOf e.1))) s

/-- The end of a cycle (R381, R382). -/
def endCycle (selected waiting : List (Nat × Nat)) (s : State) : State := tick (ageStrands selected waiting s)

/-- The queues, numbered as in Course.stepQueues, that hold more operations of a course after a word than before it. -/
def queuedBy (c : Nat) (name : DWord) (k t : Core) : List Nat :=
  (List.range 11).filter (fun q => queueCount c name k q < queueCount c name t q)

/-- A strand waits at a JOIN: its word has not issued (R111). -/
def joinWaits (s : State) (c st : Nat) : Bool :=
  match ((s.courseD c).strand st).wait with
  | .joinWord _ _ => true
  | _ => false

/-- A course that was let go for one word is held again as soon as the word has issued; after a step and wait until what the
word queued has completed (R370). -/
def endStep (c st : Nat) (s t : State) : State :=
  let co := s.courseD c
  if co.stepping.isSome && t.course c != s.course c && !(joinWaits t c st) then
    let l := if co.stepping == some 2 then queuedBy c co.name (s.core (coreOf c)) (t.core (coreOf c)) else []
    t.modCourse c (fun y => { y.hold haltedByCommand with stepping := none, stepQueues := l })
  else t

/-- A strand's turn: its word. A strand that cannot issue leaves the turn unused. -/
def strandTurn (c st : Nat) (s : State) : Out :=
  if runnable s c st then
    match strandWord c st s with
    | .next t => .next (endStep c st s { t with cur := none })
    | o => o
  else .next s

/-- A turn of the agenda. -/
def runTurn (t : Turn) (s : State) : Out :=
  match t with
  | .event i bank => exec i { s with bank := bank }
  | .strand c st => strandTurn c st s
  | .cycle sel waiting => .next (endCycle sel waiting s)
  | .regError c p corrected => .next (regError c p corrected s)
  | .inject i => .next (inject i s)
  | .again c => .next ((doAgain c s).getD s)
  | .memError dev ia => .next (memError dev ia s)
  | .cut i bank die done => cutEvent i die done s (exec i { s with bank := bank })

/-- The turns that come next: those of the agenda, an event that is due, what a course has to do again, or a cycle. -/
def nextTurns (s : State) : List Turn :=
  match s.agenda with
  | t :: l => t :: l
  | [] =>
    match dueEvents s with
    | (i, b) :: _ => [.event i b]
    | [] =>
      match s.courses.find? (fun e => (doAgain e.1 s).isSome) with
      | some e => [.again e.1]
      | none => cycleTurns s

/-- One turn: the first of those that come next. -/
def turn (s : State) : Out :=
  match nextTurns s with
  | t :: l => runTurn t { s with agenda := l }
  | [] => .next (tick s)

/-! ### A word placed where the machine fetches it -/

/-- A page-table entry that points at a table, or maps a page to the context's own owner. -/
def tableEntry (pa : Nat) : Nat := 1 + pa / 4096 * 2 ^ 16
def leafEntry (owner pa : Nat) : Nat := 1 + 2 + 4 + 16 + pa / 4096 * 2 ^ 16 + owner * 2 ^ 48

/-- The context that withWord gives the course: one code range, one owner. -/
def wordCtx : Ctx :=
  { asid := 1, owners := [1]
    ranges := vset (vconst 8 {}) 0 { base := 0x10000#64, limit := 0x11000#64, offset := 0#64, attr := 0x2B#32 } }

/-- The course that withWord binds: index 0, one strand with all its lanes. -/
def wordCourse : Course :=
  { ctx := 1, strands := vset (vconst 4 {}) 0 { live := true, pc := 0x10000#64, mask := 0xFFFFFFFF#32 } }

/-- A word stored at the PC of strand 0 of course 0, which is bound to a context whose code range maps it, and that
strand's turn next. -/
def withWord (s : State) (bytes : List Byte) : State :=
  let put := fun (m : List Host.Cell) (a x : Nat) => Memory.writeN m a (toBytes 8 x)
  let m := put (put (put (put s.mem 0x1000 (tableEntry 0x2000)) 0x2000 (tableEntry 0x3000)) 0x3000 (tableEntry 0x4000))
    0x4080 (leafEntry 1 0x10000)
  { s with
    devs := vset s.devs 0 { s.dev 0 with ptroot := 0x1001#64, tlb := [] }
    mem := Memory.writeN m 0x10000 bytes
    ctxs := Tab.put s.ctxs 1 wordCtx
    courses := Tab.put s.courses 0 wordCourse
    agenda := [.strand 0 0] }

end Sys2Proof.Machine
end

