-- ==== Sys2Proof/Machine/Step.lean ====
section
/-! DEFINITION. One step of the machine, and a word placed where it is fetched next. -/

namespace Sys2Proof.Machine

/-- One step: the next turn (notes/assumptions/2.md). -/
def step (s : State) : Host.Outcome State Fault Refusal := turn s

/-- The state with an instruction stored where the next step fetches it (notes/assumptions/11.md). -/
def State.withFetchWord (s : State) (nbits w : Nat) : State := withWord s (toBytes 8 (w % 2 ^ nbits))

end Sys2Proof.Machine
end

