-- ==== Sys2Proof/Machine/WindowRead.lean ====
section
/-! DEFINITION. What an aligned 8-byte read of the management window returns (R350, R375, R379, R380, R416, R429, R430, R434,
R452, R458, R462, R463, R465, R474). Such a read changes nothing, but for the three whose effects are events of their own:
CTXSTAT_READ, NOTEAPP_READ and NOTEHOST_READ. -/

namespace Sys2Proof.Machine

/-- Eight bytes of a list from an offset, as a number; zero beyond its end. -/
def eightAt (b : List Byte) (off : Nat) : Nat := ofBytes ((b.drop off).take 8)

/-- SDGO as it reads: busy, and the shoot-downs queued behind the one in progress (R431, R463). -/
def sdgoWord (d : Dev) : Nat := (if d.sdQueue.isEmpty then 0 else 1) + 2 * (d.sdQueue.length - 1)

/-- A word of the staging area as it reads: reserved bits of an entry read as zero (R5, R464). -/
def stageWord (d : Dev) (i : Nat) : Nat :=
  let w := Tab.getD d.mapStage 0#64 i
  (if i % 4 = 2 then w &&& 0xFFFF0303#64 else w).toNat

/-- A hub bank (R463); the heartbeats and JAPPLIED stand in bank 0 alone. -/
def bankRead (s : State) (i off : Nat) : Nat :=
  let d := s.dev i
  if off = 0x0008 then 2 * min 16 d.ctxQueue.length + (if d.ctxOvf then 64 else 0)
  else if off = 0x0040 then d.lease
  else if off = 0x0048 then d.podTimeout
  else if off = 0x0050 then d.mlog.toNat
  else if off = 0x0058 then d.mlogLost % 2 ^ 64
  else if off = 0x0060 then d.ptroot.toNat
  else if off = 0x0068 then d.cqtable.toNat
  else if off = 0x0070 then (d.noteApp.head?.map (fun n => n.word.toNat)).getD 0
  else if off = 0x0078 then (d.noteHost.head?.map (fun n => n.word.toNat)).getD 0
  else if off = 0x0100 then d.sdia.toNat
  else if off = 0x0108 then d.sdctl.toNat
  else if off = 0x0110 then d.sddone.toNat
  else if off = 0x0118 then sdgoWord d
  else if off = 0x0208 then (if d.mapCmds.isEmpty then 0 else 1) + 2 ^ 8 * (d.mapGen % 256)
  else if off = 0x0308 then d.klKey.toNat
  else if off = 0x0310 then d.klStat + (if d.kek.isSome then 2 ^ 8 else 0)
  else if 0x0400 ≤ off && off < 0x0420 && i = 0 then (s.die ((off - 0x0400) / 8)).sched.beat.toNat
  else if 0x0440 ≤ off && off < 0x0460 && i = 0 then (s.die ((off - 0x0440) / 8)).japplied
  else if 0x0800 ≤ off && off < 0x0880 then (vget d.kick 0#64 ((off - 0x0800) / 8)).toNat
  else if 0x1000 ≤ off && off < 0x3000 then stageWord d ((off - 0x1000) / 8)
  else if 0x4000 ≤ off && off < 0x4620 then eightAt d.kempk (off - 0x4000)
  else 0

/-- An entry of the pod-sharing table (R430). -/
def ShareEntry.word (e : ShareEntry) : Nat := e.pod + 2 ^ 12 * e.asid + 2 ^ 28 * e.owner + 2 ^ 44 * e.exp

/-- State codes of R379. -/
def SlotState.code (st : SlotState) : Nat :=
  match st with
  | .free => 0
  | .bind => 1
  | .run => 2
  | .unbind => 3
  | .saved => 4

/-- A copy, matrix, collective or swatch operation, a load, an atomic or a long-latency value that a course issued is incomplete;
what its channels have not claimed counts unless a halt quiesce has stopped them (R459, R461). -/
def incomplete (s : State) (c : Nat) (co : Course) : Bool :=
  let k := s.core (coreOf c)
  let mine := ownedBy c co.name
  (Tab.vals s.accesses).any (fun a => a.course == c && (a.words != 0 || a.kind.isAtomic))
    || (Tab.vals s.arrivals).any (fun a => a.course == c)
    || (Tab.vals s.gran).any (fun g => g.course == c && g.result.isSome)
    || (Tab.vals k.claimed).any (fun e => mine e.2.owner) || (vlist k.chans).any (loadingFor mine)
    || k.mq.any (fun o => o.fence.isNone && mine o.owner) || !co.remat.isEmpty
    || k.collq.any (fun o => o.fence.isNone && mine o.owner) || k.swq.any (fun o => o.fence.isNone && mine o.owner)
    || (!co.quiesce && (vlist k.chans).any (fun ch => ch.items.any (ChanItem.ofCourse c co.name)))

/-- A halted course is quiescent (R459). -/
def quiescent (s : State) (c : Nat) (co : Course) : Bool := co.halted.isSome && !(incomplete s c co)

/-- DBGSTAT (R458). -/
def dbgstat (s : State) (core : Nat) : Nat :=
  let bits := fun (f : Nat → Course → Bool) => ((List.range 32).map (fun i =>
    if ((s.course (32 * core + i)).map (f (32 * core + i))).getD false then 2 ^ i else 0)).sum
  bits (fun _ co => co.halted.isSome) + 2 ^ 32 * bits (quiescent s)

/-- The registers of a core (R350, R458), at the places of notes/assumptions/53.md. -/
def coreRead (s : State) (core off : Nat) : Nat :=
  let k := s.core core
  if off = 0x00 then k.vtarget + 2 ^ 8 * k.vcode + (if k.hold then 2 ^ 16 else 0)
  else if off = 0x08 then k.railCor.toNat + 2 ^ 32 * k.railReis.toNat
  else if off = 0x18 then dbgstat s core
  else if off = 0x20 then k.dbgLs.toNat
  else if off = 0x28 then k.dbgData0.toNat
  else if off = 0x30 then k.dbgData1.toNat
  else 0

/-- The course engine state of a slot (R462): the batch part, the channel lists, and the matrix latches, claim counts and saved
matrix operations; the rest is zero. -/
def engineRead (s : State) (c off : Nat) : Nat :=
  match s.course c with
  | none => 0
  | some co =>
    if off < 0x100 then eightAt (batchBytes co) off
    else if off < 0xD00 then eightAt (chanBytes (workOf (s.core (coreOf c)) (ownedBy c co.name))) (off - 0x100)
    else if off < 0x1200 then eightAt (matrixBytes co) (off - 0xD00)
    else 0

/-- The lines of a slice that a class has filled (R434). -/
def linesHeld (s : State) (die slice cls : Nat) : Nat :=
  (s.cached.filter (fun e => e.die == die && cacheSlice e.rdc e.line == slice && e.cls == cls)).length

/-- The region of a near die (R462). -/
def nearRead (s : State) (die off : Nat) : Nat :=
  let d := s.die die
  if off < 0x40000 then
    let e := slotAt s (2048 * die + 32 * (off / 0x1000) + off % 0x1000 / 0x40)
    if off % 0x1000 < 0x800 then eightAt (e.rec_.bytes ++ toBytes 4 e.state.code) (off % 0x40) else 0
  else if off < 0x44000 then coreRead s (64 * die + (off - 0x40000) / 0x100) (off % 0x100)
  else if 0x50000 ≤ off && off < 0x52000 then (Tab.getD d.wayMask 0xFFFF#16 ((off - 0x50000) / 8)).toNat
  else if 0x60000 ≤ off && off < 0x62000 then linesHeld s die ((off - 0x60000) / 0x80) ((off - 0x60000) % 0x80 / 8) % 2 ^ 15
  else if off = 0x71000 then d.jbase
  else if off = 0x71008 then d.jsize
  else if off = 0x71010 then d.jnext - 1
  else if off = 0x72000 then d.lattol
  else if off = 0x72008 then d.pstate
  else if 0x73000 ≤ off && off < 0x73200 then Config.physCore die ((off - 0x73000) / 8)
  else if 0x100000 ≤ off && off < 0x180000 then
    (((s.dev (devOfDie s.mode die)).held.find? (fun h => h.asid == (off - 0x100000) / 8)).map HeldAsid.till).getD 0
  else if 0x1000000 ≤ off then
    (if off % 0x40000 / 0x2000 < 32 then
      engineRead s (2048 * die + 32 * ((off - 0x1000000) / 0x40000) + off % 0x40000 / 0x2000) (off % 0x2000)
    else 0)
  else 0

/-- A migration as four words (DESIGN CHOICE, notes/assumptions/53.md): [31:0] context, [39:32] device, [40] to the near tier, [41]
encoded, [42] a block; what it moves; its destination; its bytes. -/
def Migration.words (m : Migration) : List Nat :=
  [m.ctx % 2 ^ 32 + 2 ^ 32 * (m.dev % 2 ^ 8) + (if m.promote then 2 ^ 40 else 0) + (if m.enc then 2 ^ 41 else 0)
    + (if m.block then 2 ^ 42 else 0), m.ia, m.dest, m.size]

/-- The region of a far die (R462): a pool's next address, the queue of its migration engine, the migration under way, LATTOL and
PSTATE, at the places of notes/assumptions/53.md. -/
def farRead (s : State) (f off : Nat) : Nat :=
  let d := s.die (4 + f)
  let g := s.migEngine f
  if off = 0xF00000 then d.lattol
  else if off = 0xF00008 then d.pstate
  else if off < 0x800000 then (Tab.getD g.pools [] (off / 8)).head?.getD 0
  else if off < 0xE00000 then ((g.queue[(off - 0x800000) / 0x20]?).bind (fun m => m.words[off % 0x20 / 8]?)).getD 0
  else if off < 0xE00020 then (g.active.bind (fun m => m.words[off % 0x20 / 8]?)).getD 0
  else 0

/-- A device's region (R462): the pod-sharing table; a bit for each key slot that is loaded; the name directory, with for each course
slot the name bound there and its die, core and slot, at the places of notes/assumptions/53.md. -/
def deviceRead (s : State) (i off : Nat) : Nat :=
  if off < 0x10000 then ((Tab.find (s.dev i).share (off / 8)).map ShareEntry.word).getD 0
  else if off = 0x10000 then (((s.dev i).keys.filter (fun e => e.1 < 64)).map (fun e => 2 ^ e.1)).sum
  else if 0x20000 ≤ off && off < 0x40000 then
    (let c := (off - 0x20000) / 16
     match s.course c with
     | some co =>
       if (s.ctx co.ctx).dev != i then 0
       else if off % 16 = 0 then co.name.toNat
       else slotOf c + 2 ^ 8 * (coreOf c % 64) + 2 ^ 16 * dieOf c
     | none => 0)
  else 0

/-- An aligned 8-byte read of the management window; the region of a fenced die, which no agent reaches, reads as zero (R450; DESIGN
CHOICE, notes/assumptions/53.md). -/
def windowRead (addr : Nat) (s : State) : DWord :=
  BitVec.ofNat 64 (
    if !(dieReached addr s) then 0
    else if addr < 0x40000 then bankRead s (addr / 0x10000) (addr % 0x10000)
    else if addr < 0x100000 then 0
    else if addr < 0x500000 then deviceRead s (addr / 0x100000 - 1) (addr % 0x100000)
    else if addr < 0x1000000 then 0
    else if addr < 0x9000000 then nearRead s ((addr - 0x1000000) / 0x2000000) ((addr - 0x1000000) % 0x2000000)
    else if addr < 0xB000000 then farRead s ((addr - 0x9000000) / 0x1000000) (addr % 0x1000000)
    else if addr < 0xC000000 then eightAt (report s.nonce s) (addr - 0xB000000)
    else 0)

end Sys2Proof.Machine
end

