-- ==== Sys2Proof/Safety.lean ====
section
/-! DEFINITION. The terms in which claims are stated: what a safe step is, the canonical form that every step keeps, when a
word may issue, what it leaves alone, and what a push and a named destination leave in the registers. -/

namespace Sys2Proof

open Sys2Proof.Machine

/-! ### Steps and the canonical form -/

/-- A step that neither faults nor is refused. -/
def Steps (s : State) : Prop := ∃ t, step s = .next t

/-- The canonical form of a state: memory lists its bytes in rising order, and none that reads as an unlisted byte does. -/
def Inv (s : State) : Prop := Memory.wf s.mem = true

/-! ### What a change leaves alone -/

/-- The states agree but for their courses, and in every course but c. -/
def OnlyCourse (c : Nat) (s t : State) : Prop := { t with courses := s.courses } = s ∧ ∀ k, k ≠ c → t.course k = s.course k

/-- The states agree but for their cores, and in every core but k. -/
def OnlyCore (k : Nat) (s t : State) : Prop := { t with cores := s.cores } = s ∧ ∀ j, j ≠ k → t.core j = s.core j

/-- The states agree but for what posting a record changes: memory and what is known of its lines, the contexts and devices,
the messages sent to the management agent, and the counter of free values (R439 to R443, R478). -/
def OnlyPosted (s t : State) : Prop :=
  ∃ m d k p h c v o n, t = { s with mem := m, cached := d, lineKey := k, memPoison := p, shadow := h, ctxs := c,
                                    devs := v, mgmtOut := o, freeCount := n }

/-- The states agree but for what posting a record changes, for courses and for cores: all that reading the sources of a
word can change (R57, R142). -/
def OnlyNoted (s t : State) : Prop := ∃ u, OnlyPosted s u ∧ ∃ cs ks, t = { u with courses := cs, cores := ks }

/-! ### When a word may issue -/

/-- The word of strand x may issue with the active lanes act as far as its predicate, its named destination of some words,
and its sources are concerned (R51, R52, R55, R57, R58, R169). -/
structure Issues (x : At) (act : Mask) (pn : Bool) (pred : BitVec 3) (d : BitVec 8) (words : Nat) (refs : List SrcRef) (s : State) :
    Prop where
  /-- x is the strand whose word is executed -/
  here : s.at_ = some x
  lanes : act = activeOf x pn pred
  /-- no write to its predicate is on its way, no fault has waited for 256 words, and its predicate is not poisoned -/
  unheld : frameCheck x s pred = .go
  /-- no value is on its way to its named destination -/
  dest : destPending x act d words = false
  /-- every source is full, and not poisoned, in every active lane -/
  readable : ∀ r ∈ refs, ∀ l, l < 32 → act.getLsbD l = true → (r.read x act s l).full = true ∧ (r.read x act s l).poison = false

/-- The strand is the only live one of its course, in no divergent branch, waits for nothing, is marked at no barrier, and
its next word is not its recorded join address. -/
structure Alone (x : At) : Prop where
  only : x.co.liveStrands = [x.st]
  plain : x.sd.dstack = []
  goes : x.sd.wait = .none ∧ x.sd.mark = none
  open_ : x.sd.join ≠ some (x.sd.pc + 8#64)
  single : x.rep = none

/-! ### What a word leaves in the registers -/

/-- The result queue of strand st of course c after pushes of `words` entries, in u, against s before them: an active lane
holds the entries e, the last pushed newest; another lane of the strand holds as many copies of its old q0; a lane of another
strand is untouched (R44, R47, R48). -/
def Pushed (c st : Nat) (act : Mask) (words : Nat) (e : Nat → Nat → Entry) (s u : State) : Prop :=
  let old := (s.courseD c).strand st
  ∀ l n, l < 32 → n < 16 → ((u.courseD c).strand st).queueAt l n =
    if old.mask.getLsbD l then
      (if n < words then (if act.getLsbD l then e l (words - 1 - n) else old.queueAt l 0) else old.queueAt l (n - words))
    else old.queueAt l n

/-- The v registers after a write of `words` registers from the one D names, in the active lanes (R44, R72). -/
def WroteV (c : Nat) (act : Mask) (d : BitVec 8) (words : Nat) (e : Nat → Nat → Entry) (s u : State) : Prop :=
  ∀ n l, n < 64 → l < 32 → (u.courseD c).vAt n l =
    if isV d && d.toNat ≤ n + 0x40 && n + 0x40 < d.toNat + words && act.getLsbD l then e l (n + 0x40 - d.toNat)
    else (s.courseD c).vAt n l

/-- The strand's g copies after a write of the one D names, where any lane is active (R72). -/
def WroteG (c st : Nat) (act : Mask) (d : BitVec 8) (g : Nat → GReg) (s u : State) : Prop :=
  ∀ n, n < 32 → vget ((u.courseD c).strand st).g {} n =
    match lowLane act with
    | some l => if isG d && n + 0x20 == d.toNat then g l else vget ((s.courseD c).strand st).g {} n
    | none => vget ((s.courseD c).strand st).g {} n

/-- The course's strands differ at most in the queue and the g copies of strand st, and the rest of the course at most in its
v registers (R44). -/
def OnlyRegisters (c st : Nat) (s u : State) : Prop :=
  OnlyCourse c s u ∧
  { u.courseD c with strands := (s.courseD c).strands, v := (s.courseD c).v } = s.courseD c ∧
  (∀ i, i < 4 → i ≠ st → (u.courseD c).strand i = (s.courseD c).strand i) ∧
  { (u.courseD c).strand st with q := ((s.courseD c).strand st).q, g := ((s.courseD c).strand st).g } = (s.courseD c).strand st

/-- A value of a lane as entry k of its push: word k of it, full. -/
def valueWord (v : Nat) (k : Nat) : Entry := { val := BitVec.ofNat 32 (v / 2 ^ (32 * k)) }

/-- Entry k of a push that awaits arrival id (R49). -/
def awaiting (id k : Nat) : Entry := { full := false, await := some (8 * id + k) }

/-- The value val l of each active lane l pushed, `words` entries wide, and written to the destination D names, and nothing
else (R72). -/
structure Produced (x : At) (act : Mask) (d : BitVec 8) (words : Nat) (signed : Bool) (val : Nat → Nat) (s u : State) : Prop where
  only : OnlyRegisters x.c x.st s u
  queue : Pushed x.c x.st act words (fun l k => valueWord (val l) k) s u
  v : WroteV x.c act d words (fun l k => valueWord (val l) k) s u
  g : WroteG x.c x.st act d (fun l => { val := extendG words signed (val l) }) s u

/-- The same push with entries, and a destination, that await arrival id (R49, R51). -/
structure ProducedLater (x : At) (act : Mask) (d : BitVec 8) (words id : Nat) (s u : State) : Prop where
  only : OnlyRegisters x.c x.st s u
  queue : Pushed x.c x.st act words (fun _ k => awaiting id k) s u
  v : WroteV x.c act d words (fun _ k => awaiting id k) s u
  g : WroteG x.c x.st act d (fun _ => { full := false, await := some (8 * id) }) s u

/-! ### Results of arithmetic words -/

/-- What an arithmetic word with the results r leaves in u of the state s after the reports of its sources: its value pushed
and named, PDST, FPFLAGS and SEED written at once; for a long-latency producer all of it but SEED on its way as an arrival;
for PMOV.PUT the predicates p0 to p6 (R48, R51, R72, R275, R277, R289, R291, R305). -/
def Committed (op : AOp) (w : FWord) (x : At) (act : Mask) (r : WordRes) (s u : State) : Prop :=
  if isLongLatency op = true then
    if act = 0#32 then ProducedLater x act w.d (arithWords op w) 0 s u
    else
      let a : Arrival := { course := x.c, lanes := act, words := arithWords op w, vals := vof 32 r.val, pdst := w.pdst
                           pbits := r.pbits, fl := r.fl, signed := signedRes op w }
      ProducedLater x act w.d (arithWords op w) s.nextId
        ({ s with nextId := s.nextId + 1, arrivals := Tab.put s.arrivals s.nextId a }.modCourse x.c
          (fun co => { co with seed := r.seed })) u
  else if isPut op w = true then
    OnlyCourse x.c s u ∧
    { u.courseD x.c with p := (s.courseD x.c).p, pBad := (s.courseD x.c).pBad, pNoted := (s.courseD x.c).pNoted } = s.courseD x.c ∧
      ∀ i l, i < 8 → l < 32 →
        (vget (u.courseD x.c).p 0#32 i).getLsbD l =
          (if i < 7 && act.getLsbD l then bitOf (r.val l) i else (vget (s.courseD x.c).p 0#32 i).getLsbD l) ∧
        (vget (u.courseD x.c).pBad 0#32 i).getLsbD l =
          (!(i < 7 && act.getLsbD l) && (vget (s.courseD x.c).pBad 0#32 i).getLsbD l) ∧
        (vget (u.courseD x.c).pNoted 0#32 i).getLsbD l =
          (!(i < 7 && act.getLsbD l) && (vget (s.courseD x.c).pNoted 0#32 i).getLsbD l)
  else
    Produced x act w.d (arithWords op w) (signedRes op w) r.val
      (s.modCourse x.c (fun co => { co.writeP w.pdst act r.pbits with
        fpflags := co.fpflags ||| r.fl.setWidth 32, seed := if act = 0#32 then co.seed else r.seed })) u

/-! ### When memory words may issue -/

/-- A release may be performed: every access and local-store operation it covers has been, no failed remote write is to be reported, and the course is
not at its last release (R140, R147, R234). -/
structure Releases (x : At) (s : State) : Prop where
  performed : x.pending s 4 = false
  sound : x.co.remoteFail = none
  room : x.co.relCount < 2 ^ 48 - 1

/-- The addresses of a global memory word are in range of their block table, covered, permitted and aligned (R166, R168,
R215, R422). -/
structure GlobalReady (q : Where) (align : Nat) (need : Need) (x : At) (act : Mask) (s : State) : Prop where
  aligned : ∀ l, l < 32 → act.getLsbD l = true → q.addr l % align = 0
  table : ∀ l, l < 32 → act.getLsbD l = true → q.block = true → refRange (x.ctx s) (q.addr l) q.n = false
  covered : ∀ l, l < 32 → act.getLsbD l = true →
    ∃ i r, findRange (x.ctx s) (if q.block then mapVaOf (x.ctx s) (q.addr l) else q.addr l) = some (i, r) ∧
      (if q.block then mapVaOf (x.ctx s) (q.addr l) + 4 else q.addr l + q.n) ≤ r.limit.toNat ∧
      (q.block = false → (need.r = true → rrR r = true) ∧ (need.w = true → rrW r = true))
  permitted : ∀ l, l < 32 → act.getLsbD l = true → q.block = true →
    (need.r = true → bitOf (tableOf (x.ctx s) (q.addr l)).perm 0 = true) ∧
    (need.w = true → bitOf (tableOf (x.ctx s) (q.addr l)).perm 1 = true)

/-- The local-store addresses of a word lie inside the allocation they name, whose member has started (R24, R166, R168). -/
structure LocalReady (n align : Nat) (addr : Nat → Nat) (x : At) (act : Mask) (s : State) : Prop where
  aligned : ∀ l, l < 32 → act.getLsbD l = true → addr l % align = 0
  inside : ∀ l, l < 32 → act.getLsbD l = true → ∃ t off, lsAt x s (addr l) n = .ok t off

/-- A global memory word: its instruction, fields, what it asks for, whether its index stands in DATA, and its data and
expected-value sources (R164 to R187). -/
structure GlobalForm where
  instr : Instr
  w     : MWord
  q     : GlobalWord
  load  : Bool
  data  : List SrcRef
  cmp   : List SrcRef

/-- The global memory words that access bytes. -/
def globalForms (w : MWord) : List GlobalForm :=
  [⟨.ld w, w, ldWord w, true, [], []⟩,
   ⟨.st w, w, { kind := .store, size := sizeBytes w.sz, align := sizeBytes w.sz, need := { w := true }, hint := w.ht }, false,
     [memData w], []⟩,
   ⟨.atom w, noOffset w, atomWord w, false, atomData w, atomCmp w⟩,
   ⟨.discard w, w, { kind := .discard, size := 128, align := 128, need := { w := true } }, false, [], []⟩,
   ⟨.lastuse w, w, { ldWord w with kind := .lastuse (sizeSigned w.sz), need := { r := true, w := true } }, true, [], []⟩]

def GlobalForm.dest (f : GlobalForm) : BitVec 8 := if f.q.words = 0 then 0xFF#8 else f.w.d
def GlobalForm.refs (f : GlobalForm) : List SrcRef := [memBase f.w false] ++ f.data ++ memIndex f.w f.load ++ f.cmp
def GlobalForm.addr (f : GlobalForm) (x : At) (act : Mask) (s : State) : Nat → Nat := laneAddr f.w false f.load f.q.size x act s

/-- A local-store word. -/
structure LocalForm where
  instr : Instr
  w     : MWord
  q     : LocalWord
  load  : Bool
  data  : List SrcRef
  cmp   : List SrcRef

/-- The local-store words (R164 to R183). -/
def localForms (w : MWord) : List LocalForm :=
  [⟨.lds w, w, { kind := .lds (sizeSigned w.sz), size := sizeBytes w.sz, words := sizeWords w.sz }, true, [], []⟩,
   ⟨.sts w, w, { kind := .sts, size := sizeBytes w.sz }, false, [memData w], []⟩,
   ⟨.ldf w, w, { kind := .ldf (w.ht == 1), size := sizeBytes w.sz, words := sizeWords w.sz }, true, [], []⟩,
   ⟨.stf w, w, { kind := .stf (w.ht == 0), size := sizeBytes w.sz, release := true }, false, [memData w], []⟩,
   ⟨.sete w, w, { kind := .setf false, size := 16 }, false, [], []⟩,
   ⟨.setf w, w, { kind := .setf true, size := 16, release := true }, false, [], []⟩,
   ⟨.atoms w, noOffset w, { kind := .atoms w.aop w.sz (w.order % 2 == 1), size := atomBytes w.sz, words := atomWords w
                            signed := w.sz == 1, release := 2 ≤ w.order }, false, atomData w, atomCmp w⟩]

def LocalForm.dest (f : LocalForm) : BitVec 8 := if f.q.words = 0 then 0xFF#8 else f.w.d
def LocalForm.refs (f : LocalForm) : List SrcRef := [memBase f.w true] ++ f.data ++ memIndex f.w f.load ++ f.cmp
def LocalForm.addr (f : LocalForm) (x : At) (act : Mask) (s : State) : Nat → Nat := laneAddr f.w true f.load f.q.size x act s

/-- A word of the block table with one access of the descriptor each lane's reference names (R219 to R222). -/
structure BlockForm where
  instr : Instr
  q     : GlobalWord
  refs  : List SrcRef

def blockForms (w : FWord) : List BlockForm :=
  [⟨.btlook w, { kind := .btlook (w.fld 0 2), size := 8, align := 1, need := { r := true }, words := 2 }, []⟩,
   ⟨.btref w, { kind := .btref, size := 4, align := 1, need := {}, words := 1, release := true, acquire := true }, [numRef w 1 false]⟩,
   ⟨.btalloc w, { kind := .btalloc, size := 4, align := 1, need := {}, words := 1 }, []⟩,
   ⟨.btfree w, { kind := .btfree, size := 4, align := 1, need := {}, words := 1 }, [numRef w 1 false]⟩]

/-- The state after the effect of a word that puts the access a of its active lanes under way, with its results to come: the
access joins those under way, a store updates its core's own L1 copies, and the entries pushed await it (R49, R134, R172). -/
def Issued (x : At) (act : Mask) (d : BitVec 8) (words : Nat) (a : Access) (dev : Nat) (s u : State) : Prop :=
  let t := issueL1 a dev { s with nextId := s.nextId + 1, accesses := Tab.put s.accesses s.nextId a }
  if words = 0 then u = t else ProducedLater x act d words s.nextId t u

/-! ### When engine words may issue -/

/-- Room in the matrix queue: fewer than 64 operations, fewer than 16 of the course (R339). -/
structure MatRoom (x : At) (s : State) : Prop where
  all : ((s.core (coreOf x.c)).mq.filter (fun o => o.fence.isNone)).length < 64
  own : (((s.core (coreOf x.c)).mq.filter (fun o => o.fence.isNone)).filter
    (fun o => o.owner.course == x.c && o.owner.name == x.co.name)).length < 16

/-- A tile, or a pair of tiles of which the first is even, inside the team's tiles (R336, R358). -/
def TileOk (s : State) (tid t : Nat) (wide : Bool) : Prop :=
  (wide = true → t % 2 = 0) ∧ t + (if wide then 1 else 0) < (teamD s tid).ntiles

/-- A word that queues a matrix operation other than an MMA: its instruction, the entries it pushes, its sources, and what its
tiles and addresses must satisfy (R358 to R364, R367). -/
structure MatForm where
  instr : Instr
  words : Nat
  refs  : List SrcRef
  ready : At → Mask → State → Prop

def matForms (w : FWord) : List MatForm :=
  let t := w.fld 0 6
  let a := numRef w 0 false
  let b := numRef w 1 false
  [⟨.accz w, 0, [], fun x _ s => TileOk s x.co.team t (w.fld 6 1 == 1)⟩,
   ⟨.accld w, 0, [a], fun x act s => TileOk s x.co.team t (w.fld 8 1 == 1) ∧
      ∀ l, l < 32 → act.getLsbD l = true → a.at_ x act s l % 16 = 0 ∧
        ownBad s x.co.team (a.at_ x act s l) (32 * (srcFmt (w.fld 6 2)).2) = false⟩,
   ⟨.accst w, 1, [a] ++ (if isNone w.sb then [] else [b]), fun x act s =>
      let d := vget (x.ctx s).formats 4#64 (w.fld 6 5)
      let n := 4 * (fdFmt d).width
      TileOk s x.co.team t (w.fld 11 1 == 1) ∧ (fdScaleCode d ≠ 0 → isNone w.sb = false) ∧ (w.fld 13 1 = 1 → n % 16 = 0) ∧
        LocalReady n 16 (a.at_ x act s) x act s ∧ (rowScales d ≠ 0 → LocalReady (rowScales d) 1 (b.at_ x act s) x act s)⟩,
   ⟨.accmv w, if w.fld 12 2 = 1 then (if w.fld 14 1 = 1 then 2 else 1) else 0, accmvRefs w, fun x _ s =>
      TileOk s x.co.team t (w.fld 14 1 == 1) ∧ (w.fld 12 2 = 0 → TileOk s x.co.team (w.fld 6 6) (w.fld 14 1 == 1))⟩,
   ⟨.acctest w, 1, [], fun x _ s => TileOk s x.co.team t false⟩,
   ⟨.accclr w, 0, [], fun x _ s => TileOk s x.co.team t (w.fld 11 1 == 1)⟩,
   ⟨.normrd w, 2, [], fun _ _ _ => True⟩]

/-- The format block of an MMA and what it names satisfy R336, and both operands have their fragments (R333, R334). -/
structure MmaReady (w : FWord) (x : At) (act : Mask) (s : State) : Prop where
  codes : let g0 := (mmaBlockAt w x act s).1
    bitsOf g0 22 42 = 0 ∧ bitsOf g0 5 3 ≠ 5 ∧ bitsOf g0 5 3 ≠ 6 ∧ bitsOf g0 13 3 ≠ 5 ∧ bitsOf g0 13 3 ≠ 6 ∧ bitsOf g0 16 3 ≠ 7
  formats : let b := (mmaBlockAt w x act s).2.2
    (operandWidth b.descA).isSome = true ∧ (operandWidth b.descB).isSome = true
  blocks : let b := (mmaBlockAt w x act s).2.2
    (b.blkA ≠ 0 → fdScaleCode b.descA ≠ 0 ∧ b.blkA ≤ b.K) ∧ (b.blkB ≠ 0 → fdScaleCode b.descB ≠ 0 ∧ b.blkB ≤ b.K)
  tile : TileOk s x.co.team (w.fld 0 6) (mmaBlockAt w x act s).2.2.wide
  scales : let b := (mmaBlockAt w x act s).2.2
    scaleBad s x.co.team b.sca (scaleBytes b.K b.blkA) = false ∧ scaleBad s x.co.team b.scb (scaleBytes b.K b.blkB) = false
  latches : latchBad x.co.latchA (w.fld 6 3) = false ∧ latchBad x.co.latchB (w.fld 9 3) = false
  fragA : ∃ y, boundBytes s x.co.team (w.fld 6 3) x.co.latchA false = some y ∧
    y.length = 4 * (mmaBlockAt w x act s).2.2.K * (mmaBlockAt w x act s).2.2.wa
  fragB : ∃ y, boundBytes s x.co.team (w.fld 9 3) x.co.latchB (sameStream w x.co) = some y ∧
    y.length = 4 * (mmaBlockAt w x act s).2.2.K * (mmaBlockAt w x act s).2.2.wb

end Sys2Proof
end

