-- ==== Sys2Proof/Certificates/Slice0/Obligations.lean ====
section
/-! DEFINITION. The statements for the provers. A word is issued by its strand x with the active lanes act; s' is the state
after the reports that reading its sources makes (Obligations.QuietSources: none as a rule), u the state after the word's own
effect, and finish x u the state after its strand has moved on (Obligations.NextWord). -/

open Sys2Proof Sys2Proof.Machine

/-! ### Arithmetic, logic and conversion words -/

/-- R48, R51, R72, R275, R277, R289, R291, R305: every word of the 0x001 and 0x080 groups with F-form operands completes when
its sources are readable: its value is pushed and named, PDST, FPFLAGS and SEED are written, at once or, for the long-latency
producers, as an arrival; PMOV.PUT writes p0 to p6. -/
def Obligations.ArithmeticWords : Prop :=
  ∀ (i : Instr) (op : AOp) (w : FWord) (x : At) (act : Mask) (s : State),
    arith? i = some (op, w) →
    Issues x act w.pn w.pred w.d (arithWords op w) (refsOf op w) s →
    (∀ n ∈ predsOf op w, predPending x s n = false) → (∀ n ∈ predReads op w, badPred x act n = 0#32) → formatOk op w x act s = true →
    ∃ u, exec i s = .next (finish x u) ∧
      Committed op w x act (arithResult op w x act s) (noteReads x act (refsOf op w) (predReads op w) s) u

/-- R303, R54: MOVI, FMOVI and MOVHI complete: IMM32 as bits, sign-extended for .i64; the binary32 value of IMM32 under the
type; q0 from before the word as the low half and IMM32 as the high one. -/
def Obligations.ImmediateWords : Prop :=
  ∀ (w : IWord) (x : At) (act : Mask) (s : State),
    (Issues x act w.pn w.pred w.d (immWords w.ty.toNat) [] s →
      (∃ u, exec (.movi w) s = .next (finish x u) ∧
        Produced x act w.d (immWords w.ty.toNat) (w.ty.toNat == 0)
          (fun _ => if w.ty.toNat = 2 then wrap 64 (sgn 32 w.imm.toNat) else w.imm.toNat) s u) ∧
      (∃ u, exec (.fmovi w) s = .next (finish x u) ∧
        Produced x act w.d (immWords w.ty.toNat) (w.ty.toNat == 0) (fun _ => fmoviValue w) s u)) ∧
    (Issues x act w.pn w.pred w.d 2 [movhiRef] s →
      ∃ u, exec (.movhi w) s = .next (finish x u) ∧
        Produced x act w.d 2 false (fun l => (x.sd.queueAt l 0).val.toNat + 2 ^ 32 * w.imm.toNat) (noteLatent x act [movhiRef] s) u)

/-- R63, R66, R67: a pair word of two pairable slots completes when the waits of neither hold it and the sources of both are
readable in the active lanes of their own predicates; both slots take their results from the state before the word, slot A
pushes first and slot B second. -/
def Obligations.PairWords : Prop :=
  ∀ (rsv : Bool) (a b : Slot) (oa ob : AOp) (wa wb : FWord) (x : At) (s : State),
    wordTrap (.pairWord rsv a b) = none → a.arith? = some (oa, wa) → b.arith? = some (ob, wb) →
    Issues x (activeOf x false wa.pred) false wa.pred wa.d (arithWords oa wa) (refsOf oa wa) s →
    Issues x (activeOf x false wb.pred) false wb.pred wb.d (arithWords ob wb) (refsOf ob wb) s →
    (∀ n ∈ predsOf oa wa ++ predsOf ob wb, predPending x s n = false) →
    let aa := activeOf x false wa.pred
    let ab := activeOf x false wb.pred
    (∀ n ∈ predReads oa wa, badPred x aa n = 0#32) → (∀ n ∈ predReads ob wb, badPred x ab n = 0#32) →
    let s' := noteReads x ab (slotRefs 7 ob wb) (predReads ob wb) (noteReads x aa (slotRefs 5 oa wa) (predReads oa wa) s)
    ∃ t u, exec (.pairWord rsv a b) s = .next (finish x u) ∧
      Committed oa wa x aa (arithResult oa wa x aa s) s' t ∧ Committed ob wb x ab (arithResult ob wb x ab s) t u

/-- R76, R77, R93, R94: REP executes its following word, stepped k times where the strand stands at its execution k: an
arithmetic one has its effect with the stepped operands; any other repeatable one has its own meaning's effect. -/
def Obligations.RepWords : Prop :=
  ∀ (w : RepWord) (word : DWord) (x : At) (s s1 : State),
    s.at_ = some x → fetchWord (x.ctx s) (x.sd.pc + 8#64) s = (s1, .ok word) → (x.sd.repi = 0 → repTrap w word = none) →
    let i := decodeRaw (steppedWord w word x.sd.repi)
    let y := { x with rep := some (x.sd.repi, w.count.toNat) }
    (∀ op v act, arith? i = some (op, v) → act = activeOf x v.pn v.pred → frameCheck y s1 v.pred = .go →
      arithWaits op v y act s1 = false → (∀ n ∈ predReads op v, badPred y act n = 0#32) → formatOk op v y act s1 = true →
      (∀ r ∈ refsOf op v, ∀ l, l < 32 → act.getLsbD l = true →
        (r.read y act s1 l).full = true ∧ (r.read y act s1 l).poison = false) →
      ∃ u, exec (.rep w) s = .next (finish y u) ∧
        Committed op v y act (arithResult op v y act s1) (noteReads y act (refsOf op v) (predReads op v) s1) u) ∧
    (∀ m, memMeaning i = some m → m.verdict y s1 = .go → exec (.rep w) s = .next (m.effect y s1))

/-! ### Special registers, counters, traps and signals -/

/-- R98, R101, R108: MFS, TIME and CLOCK complete and push the value of the special register, the always-on counter or the
cycle counter of the die; NAME, ERRQ and PKGTIME are 64 bits wide. R57: a poisoned special register, and a predicate poisoned in
a lane of the strand, trap REG_POISON in the word that reads them. That a predicate is poisoned lane by lane, and the operand code
that the record shows for either, are the model's choice (DESIGN CHOICE, notes/assumptions/62.md). -/
def Obligations.RegisterReadWords : Prop :=
  ∀ (w : FWord) (x : At) (act : Mask) (s : State),
    (let n := w.fld 0 12
     Issues x act w.pn w.pred w.d (if sregWide n then 2 else 1) [] s → (sregPriv n = true → (x.ctx s).priv = true) →
     (n = 0x002 → valuesPending x s = false) → (act ≠ 0#32 → x.co.sBad.contains n = false) →
     ∃ u, exec (.mfs w) s = .next (finish x u) ∧
       Produced x act w.d (if sregWide n then 2 else 1) false (fun _ => sregValue x s n) s u) ∧
    (let n := w.fld 0 12
     Issues x act w.pn w.pred w.d (if sregWide n then 2 else 1) [] s → (sregPriv n = true → (x.ctx s).priv = true) →
     (n = 0x002 → valuesPending x s = false) → act ≠ 0#32 → x.co.sBad.contains n = true →
     exec (.mfs w) s = .next (takeTrap x.c x.st (regTrap (8 + n) act) s) ∧ (regTrap (8 + n) act).code = 0x0202) ∧
    (s.at_ = some x → frameWait x s w.pred = false → badPred x x.sd.mask w.pred.toNat ≠ 0#32 →
     let trapped := .next (takeTrap x.c x.st (regTrap w.pred.toNat (badPred x x.sd.mask w.pred.toNat)) s)
     ((sregPriv (w.fld 0 12) = true → (x.ctx s).priv = true) → exec (.mfs w) s = trapped) ∧
     exec (.time w) s = trapped ∧ exec (.clock w) s = trapped) ∧
    (Issues x act w.pn w.pred w.d 2 [] s →
      (∃ u, exec (.time w) s = .next (finish x u) ∧ Produced x act w.d 2 false (fun _ => s.aon % 2 ^ 64) s u) ∧
      (∃ u, exec (.clock w) s = .next (finish x u) ∧ Produced x act w.d 2 false (fun _ => (s.die (dieOf x.c)).clock % 2 ^ 64) s u))

/-- R97, R109, R369, R403: without privilege MFS of a register that only a privileged context reads, ERRINJ, PTEW, and BARINIT at
pod scope with an active lane trap PRIVILEGED. R110: they do so before any trap of their predicate or of their sources. -/
def Obligations.PrivilegedWords : Prop :=
  ∀ (w : FWord) (x : At) (s : State), s.at_ = some x → frameWait x s w.pred = false → (x.ctx s).priv = false →
    let p := takeTrap x.c x.st { code := 0x0104 } s
    (sregPriv (w.fld 0 12) = true → exec (.mfs w) s = .next p) ∧ exec (.errinj w) s = .next p ∧ exec (.ptew w) s = .next p ∧
    (w.fld 0 3 = 5 → activeOf x w.pn w.pred ≠ 0#32 → exec (.barinit w) s = .next p)

/-- R99, R100, R102: MTS completes and writes from the lowest active lane: bit 0 of a value for STATUS clears UCONFLICT and
UCIDX, SEED takes the value and 1 for 0, FPFLAGS clears the bits that are 1; the other registers keep theirs; the register's
poison goes; with no lane active it writes nothing. -/
def Obligations.RegisterWriteWords : Prop :=
  ∀ (w : FWord) (x : At) (act : Mask) (s : State),
    Issues x act w.pn w.pred 0xFF#8 0 [numRef w 0 false] s → (w.fld 0 12 = 0x002 → valuesPending x s = false) →
    let s' := noteLatent x act [numRef w 0 false] s
    let v := (numRef w 0 false).low x act s
    ∃ u, exec (.mts w) s = .next (finish x u) ∧
      (act = 0#32 → u = s') ∧
      (act ≠ 0#32 →
        let wrote := fun (f : Course → Course) => u = s'.modCourse x.c (fun co => (f co).cleanSreg (w.fld 0 12))
        (w.fld 0 12 = 0x000 → wrote (fun co => if v % 2 = 1 then { co with uconflict := false, ucidx := 0 } else co)) ∧
        (w.fld 0 12 = 0x001 → wrote (fun co => { co with seed := if v = 0 then 1#32 else BitVec.ofNat 32 v })) ∧
        (w.fld 0 12 = 0x002 → wrote (fun co => { co with fpflags := co.fpflags &&& ~~~(BitVec.ofNat 32 v) })) ∧
        (2 < w.fld 0 12 → wrote id))

/-- R103, R104, R38: TRAP with an active lane takes SOFTWARE_TRAP, and BKPT without a debugger BREAKPOINT, each with the PC of
the next word saved and the course stopped; with none active TRAP goes on, and with a debugger attached BKPT halts the course with
its own reason, be the course held for another one or let go for this word alone. -/
def Obligations.TrapWords : Prop :=
  ∀ (w : FWord) (x : At) (act : Mask) (s : State), Issues x act w.pn w.pred 0xFF#8 0 (trapRefs w) s →
    (act ≠ 0#32 → exec (.trap w) s = .next (stopAfter x
      { code := 0x0305
        cls := cls4 (w.fld 0 8) (if isNone w.sa then 0 else (numRef w 0 false).low x act s) act.toNat 0 }
      (noteLatent x act (trapRefs w) s))) ∧
    (act = 0#32 → exec (.trap w) s = .next (finish x (noteLatent x act (trapRefs w) s))) ∧
    ((x.ctx s).debugger = false → exec (.bkpt w) s = .next (stopAfter x
      { code := 0x0306, cls := cls4 (w.fld 0 8) x.sd.mask.toNat 0 0 } s)) ∧
    ((x.ctx s).debugger = true →
      exec (.bkpt w) s = .next (finish x (s.modCourse x.c (fun co => { co.hold (w.fld 0 8) with halted := some (w.fld 0 8) }))))

/-- R105 to R107: SIGNAL performs a release; READY counts its course once in its launch, NOTIFY hands the operand to the hub
for the agent the command named; with no lane active, or READY a second time, it does nothing. -/
def Obligations.SignalWords : Prop :=
  ∀ (w : FWord) (x : At) (act : Mask) (s : State),
    let refs := if w.fld 0 4 = 1 then [numRef w 0 false] else []
    Issues x act w.pn w.pred 0xFF#8 0 refs s →
    let s' := noteLatent x act refs s
    (act = 0#32 ∨ (w.fld 0 4 ≠ 1 ∧ x.co.readySent = true) → exec (.signal w) s = .next (finish x s')) ∧
    (act ≠ 0#32 → w.fld 0 4 ≠ 1 → x.co.readySent = false → Releases x s →
      ∃ u, exec (.signal w) s = .next (finish x u) ∧
        u = (let t := (s'.release x.c).modCourse x.c (fun co => { co with readySent := true })
             { t with launches := Tab.upd t.launches (launchOf x s) (fun l => { l with readyCnt := l.readyCnt + 1 }) })) ∧
    (act ≠ 0#32 → w.fld 0 4 = 1 → Releases x s → notesHeld s (x.ctx s).dev (launchOf x s) < 64 →
      ∃ u, exec (.signal w) s = .next (finish x u) ∧
        u = raiseNote x (BitVec.ofNat 32 ((numRef w 0 false).low x act s)) (s'.release x.c))

/-! ### Synchronisation and priority -/

/-- R57, R96, R396, R368: NOP, PRIO and REGION complete: PRIO sets the base priority of the course to its field or operand, no
more than 15, and REGION its region, and the poison of the register written goes; nothing changes with no lane active. -/
def Obligations.PlainWords : Prop :=
  ∀ (w : FWord) (x : At) (act : Mask) (s : State),
    (Issues x act w.pn w.pred 0xFF#8 0 [] s →
      exec (.nop w) s = .next (finish x s) ∧
      exec (.region w) s = .next (finish x (if act = 0#32 then s else s.modCourse x.c (fun co => { co.cleanSreg 4 with region := w.fld 0 2 }))) ∧
      (w.fld 4 1 ≠ 1 → exec (.prio w) s = .next (finish x
        (if act = 0#32 then s else s.modCourse x.c (fun co => { co.cleanSreg 3 with prio := min 15 (w.fld 0 4) }))))) ∧
    (Issues x act w.pn w.pred 0xFF#8 0 [numRef w 0 false] s → w.fld 4 1 = 1 →
      let s' := noteLatent x act [numRef w 0 false] s
      exec (.prio w) s = .next (finish x
        (if act = 0#32 then s' else s'.modCourse x.c (fun co => { co.cleanSreg 3 with prio := min 15 ((numRef w 0 false).low x act s) }))))

/-- R397, R398: YIELD leaves its strand not ready in the next cycle, or with SIB and a live sibling until one issues or for 64
cycles; SLEEP leaves it waiting until the always-on counter reaches its value at issue plus the operand; with no lane active,
or for 0, the strand goes on. -/
def Obligations.WaitingWords : Prop :=
  ∀ (w : FWord) (x : At) (act : Mask) (s : State),
    let now := (s.die (dieOf x.c)).clock
    (Issues x act w.pn w.pred 0xFF#8 0 [] s →
      (act = 0#32 → exec (.yield w) s = .next (finish x s)) ∧
      (act ≠ 0#32 → exec (.yield w) s = .next (finishWaiting x
        (if w.fld 0 1 = 1 ∧ x.co.liveStrands.length > 1 then .yield (now + 65) true else .yield (now + 2) false) (now + 2) s))) ∧
    (Issues x act w.pn w.pred 0xFF#8 0 [numRef w 0 false] s →
      let s' := noteLatent x act [numRef w 0 false] s
      let d := (numRef w 0 false).low x act s
      (act = 0#32 ∨ d = 0 → exec (.sleep w) s = .next (finish x s')) ∧
      (act ≠ 0#32 → d ≠ 0 → exec (.sleep w) s = .next (finishWaiting x (.sleep (s.aon + d) (w.fld 0 1 == 1)) now s')))

/-- R399 to R405: BAR and BARA of a valid barrier, outside a divergent branch and with no arrival of the course pending there,
mark their strand, and the course arrives when its last strand is marked; BAR after its course's arrival, and BARW, go on once
no arrival of the course is pending, and acquire; BARINIT sets the expected count at once in a phase without arrivals, and
else for the next. -/
def Obligations.BarrierWords : Prop :=
  ∀ (w : FWord) (x : At) (act : Mask) (s : State),
    let b := barRefOf w
    (Issues x act w.pn w.pred 0xFF#8 0 [] s →
      (act = 0#32 → ∀ i ∈ [Instr.bar w, .bara w, .barw w], exec i s = .next (finish x s)) ∧
      (act ≠ 0#32 → barValid w x s = true → pendingAt s x.c b = false →
        exec (.barw w) s = .next (finish x (s.acquire x.c (w.fld 0 3))) ∧
        (x.sd.dstack = [] → (bringsArrival x b = true → x.co.remoteFail = none ∧ x.co.relCount < 2 ^ 48 - 1) →
          (x.sd.inBar = none → exec (.bar w) s = .next (tidy x.c ((issued x s).modStrand x.c x.st (fun y => { y with mark := some (b, true) })))) ∧
          exec (.bara w) s = .next (tidy x.c ((issued x s).modStrand x.c x.st (fun y => { y with mark := some (b, false) }))))) ∧
      (∀ a, act ≠ 0#32 → x.sd.inBar = some a → pendingAt s x.c a = false →
        exec (.bar w) s = .next (finish x ((s.acquire x.c (w.fld 0 3)).modStrand x.c x.st (fun y => { y with inBar := none }))))) ∧
    (Issues x act w.pn w.pred 0xFF#8 0 [numRef w 0 false] s → (w.fld 0 3 = 5 → (x.ctx s).priv = true) →
      let s' := noteLatent x act [numRef w 0 false] s
      let n := (numRef w 0 false).low x act s
      (act = 0#32 → exec (.barinit w) s = .next (finish x s')) ∧
      (act ≠ 0#32 → 1 ≤ n → n ≤ 65535 → barValid w x s = true →
        let y := barOf s' x.c b
        exec (.barinit w) s = .next (finish x (setBar s' x.c b
          (if y.arrivals = 0 then { y with expected := n, nextExp := none } else { y with nextExp := some n })))))

/-- R406, R55: EMPTY completes when no arrival is on its way to a register of its range, and makes the active lanes of its v
registers, or the strand's copies of its g registers, empty, their data unchanged. R407, R408: WAITF completes once its
register, and with GRAN the granules it names, are full in every active lane; a wait on granules acquires. -/
def Obligations.EmptyAndWaitfWords : Prop :=
  (∀ (w : FWord) (x : At) (act : Mask) (s : State),
      let n := w.fld 0 4 + 1
      Issues x act w.pn w.pred w.d n [] s → (act ≠ 0#32 → emptyPending w x act = false) →
      ∃ u, exec (.empty w) s = .next (finish x u) ∧ OnlyCourse x.c s u ∧
        (isV w.d = true → ∀ i l, i < 64 → l < 32 → (u.courseD x.c).vAt i l =
          if w.d.toNat ≤ i + 0x40 ∧ i + 0x40 < w.d.toNat + n ∧ act.getLsbD l = true then { (s.courseD x.c).vAt i l with full := false }
          else (s.courseD x.c).vAt i l) ∧
        (isG w.d = true → ∀ i, i < 32 → vget ((u.courseD x.c).strand x.st).g {} i =
          if w.d.toNat ≤ i + 0x20 ∧ i + 0x20 < w.d.toNat + n ∧ act ≠ 0#32 then { vget x.sd.g {} i with full := false }
          else vget x.sd.g {} i)) ∧
  (∀ (w : FWord) (x : At) (act : Mask) (s : State), Issues x act w.pn w.pred 0xFF#8 0 [numRef w 0 false] s →
      let s' := noteLatent x act [numRef w 0 false] s
      (w.fld 0 1 ≠ 1 → exec (.waitf w) s = .next (finish x s')) ∧
      (w.fld 0 1 = 1 → LocalReady 16 16 ((numRef w 0 false).at_ x act s) x act s →
        granulesFull x act s ((numRef w 0 false).at_ x act s) = true →
        exec (.waitf w) s = .next (finish x ((lanesOf act).foldl
          (fun acc l => match lsAt x s ((numRef w 0 false).at_ x act s l) 16 with
            | .ok t _ => acc.acquire x.c (lsScope s' x.c t)
            | _ => acc) s'))))

/-! ### Control -/

/-- R83 to R88: BRA, BRX, CALL and RET send their groups of lanes on when no DIVERGENCE_OVERFLOW stops them, with the targets
aligned and the call depth within its bounds; CALL pushes the return entry in the lanes that branch, RET pops the one it
returns to. That a lane which returns to the next word and one which stays there at the deeper call make two groups, by address and
depth, is the model's choice (DESIGN CHOICE, notes/assumptions/64.md). -/
def Obligations.BranchWords : Prop :=
  ∀ (w : BWord) (v : FWord) (x : At) (act : Mask) (s : State),
    (Issues x act w.pn w.pred 0xFF#8 0 [] s →
      let join := joinAddress x.sd.pc w.join.toNat
      (divergeTrap x (braGroups w x act) join = .go →
        exec (.bra w) s = .next (tidy x.c (diverge x (braGroups w x act) join (issued x s)))) ∧
      (x.sd.depth < 8 → divergeTrap x (callGroups w x act) join = .go →
        exec (.call w) s = .next (tidy x.c (diverge x (callGroups w x act) join
          ((issued x s).modCourse x.c (pushCalls (callers w x act) (callEntry x s))))))) ∧
    (Issues x act v.pn v.pred 0xFF#8 0 [numRef v 0 true] s →
      (∀ l, l < 32 → act.getLsbD l = true → (brxTarget v x act s l).toNat % 8 = 0) →
      let join := joinAddress x.sd.pc (v.fld 0 6)
      divergeTrap x (brxGroups v x act s) join = .go →
        exec (.brx v) s = .next (tidy x.c (diverge x (brxGroups v x act s) join (noteLatent x act [numRef v 0 true] (issued x s))))) ∧
    (Issues x act v.pn v.pred 0xFF#8 0 [] s → 1 ≤ x.sd.depth → divergeTrap x (retGroups x act s) none = .go →
      exec (.ret v) s = .next (tidy x.c (diverge x (retGroups x act s) none ((issued x s).modCourse x.c (popCalls act)))))

/-- R95: LOOP with an active lane subtracts one from its g register and branches while the result is not zero; with none active
it goes on to the next word, its register unchanged. -/
def Obligations.LoopWords : Prop :=
  ∀ (w : BWord) (x : At) (act : Mask) (s : State), Issues x act w.pn w.pred 0xFF#8 0 [loopRef w] s →
    let g := (vget x.sd.g {} (w.val.toNat - 0x20)).val - 1#64
    (act = 0#32 → exec (.loop w) s = .next (tidy x.c (moveTo x.c x.st (x.sd.pc + 8#64) (issued x s)))) ∧
    (act ≠ 0#32 → exec (.loop w) s = .next (tidy x.c (moveTo x.c x.st
      (if g ≠ 0#64 then targetOf x.sd.pc w.woff else x.sd.pc + 8#64)
      ((issued x s).modStrand x.c x.st (fun y => y.writeG (w.val.toNat - 0x20) { val := g })))))

/-- R89 to R91, R140: a JOIN word is passed by the only live strand of its course and by a strand in a divergent branch, and
held by any other, which then waits there; EXIT takes its active lanes out of the strand, resumes the top deferred group of a
strand left without lanes, and ends the course with its last lane, once its accesses are performed. -/
def Obligations.JoinAndExitWords : Prop :=
  ∀ (w : FWord) (x : At) (act : Mask) (s : State), Issues x act w.pn w.pred 0xFF#8 0 [] s →
    (x.sd.dstack ≠ [] ∨ x.co.liveStrands = [x.st] → exec (.join w) s = .next (finish x s)) ∧
    (x.sd.dstack = [] → x.co.liveStrands ≠ [x.st] → exec (.join w) s = .next (s.modStrand x.c x.st
      (fun y => { y with wait := .joinWord (s.die (dieOf x.c)).clock (w.fld 0 4) }))) ∧
    ((lastExit x act = true → exitWaits x s = false ∧ (x.co.readySent = false → x.co.remoteFail = none ∧ x.co.relCount < 2 ^ 48 - 1)) →
      exec (.exit w) s = .next (tidy x.c (exitEffect x act (issued x s)))) ∧
    (x.sd.mask &&& ~~~act ≠ 0#32 → exitStrand x act x.sd = { x.sd with mask := x.sd.mask &&& ~~~act, pc := x.sd.pc + 8#64 })

/-! ### Memory words -/

/-- R134, R140, R164, R166, R168, R171, R172, R180, R181, R185, R186: LD, ST, ATOM, DISCARD and LASTUSE complete when their
addresses are aligned, in range, covered and permitted and, where they release, their release may be performed: each active lane's
access, with its address, its data and the expected value of a compare-and-swap, is put under way with the order, scope, hint and
size of the word. -/
def Obligations.GlobalAccessWords : Prop :=
  ∀ (w : MWord) (f : GlobalForm) (x : At) (act : Mask) (s : State), f ∈ globalForms w →
    Issues x act f.w.pn f.w.pred f.dest f.q.words f.refs s →
    GlobalReady { block := f.w.am == 2, addr := f.addr x act s, n := f.q.size } f.q.align f.q.need x act s →
    (act ≠ 0#32 → heldByLocal x s f.q.kind.reads = false) → (f.q.release = true → act ≠ 0#32 → Releases x s) →
    let s' := noteLatent x act f.refs s
    let s'' := if f.q.release then s'.release x.c else s'
    let addr := f.addr x act s
    let a := newAccess f.q (wordOf f.instr) (f.w.am == 2) addr (refVal f.data x act s) (refVal f.cmp x act s) x act s'
    ∃ u, exec f.instr s = .next (finish x u) ∧
      (act = 0#32 → if f.q.words = 0 then u = s' else ProducedLater x act f.dest f.q.words 0 s' u) ∧
      (act ≠ 0#32 → Issued x act f.dest f.q.words a (x.ctx s').dev (lookWindow (f.w.am == 2) addr x act s'') u ∧
        a.course = x.c ∧ a.pc = x.sd.pc ∧ a.kind = f.q.kind ∧ a.size = f.q.size ∧ a.order = f.q.order ∧ a.scope = f.q.scope ∧
        a.lanes.map (fun e => (e.1, e.2.addr, e.2.data, e.2.cmp)) = (lanesOf act).map (fun l => (l, addr l,
          toBytes f.q.size (refVal f.data x act s l), toBytes f.q.size (refVal f.cmp x act s l))))

/-- R140, R219 to R222: BTLOOK, BTREF, BTALLOC and BTFREE complete when their references are in range and their map entries
covered, BTREF with a delta between −32,768 and 32,767 and its release performable: an access of each active lane's block is
put under way. -/
def Obligations.BlockTableWords : Prop :=
  ∀ (w : FWord) (f : BlockForm) (x : At) (act : Mask) (s : State), f ∈ blockForms w →
    Issues x act w.pn w.pred w.d f.q.words (numRef w 0 true :: f.refs) s →
    GlobalReady { block := true, addr := (numRef w 0 true).at_ x act s, n := 0 } 1 f.q.need x act s →
    (act ≠ 0#32 → heldByLocal x s f.q.kind.reads = false) → (f.q.release = true → act ≠ 0#32 → Releases x s) →
    (f.q.kind = .btref → badDelta w x act s = false) →
    let s' := noteLatent x act (numRef w 0 true :: f.refs) s
    let s'' := if f.q.release then s'.release x.c else s'
    let addr := (numRef w 0 true).at_ x act s
    let a := newAccess f.q (wordOf f.instr) true addr (refVal f.refs x act s) (fun _ => 0) x act s'
    ∃ u, exec f.instr s = .next (finish x u) ∧
      (act = 0#32 → ProducedLater x act w.d f.q.words 0 s' u) ∧
      (act ≠ 0#32 → Issued x act w.d f.q.words a (x.ctx s').dev (lookWindow true addr x act s'') u ∧
        a.course = x.c ∧ a.kind = f.q.kind ∧ a.size = f.q.size ∧
        a.lanes.map (fun e => (e.1, e.2.addr, e.2.block, e.2.data)) =
          (lanesOf act).map (fun l => (l, addr l, true, toBytes f.q.size (refVal f.refs x act s l))))

/-- R109, R140: PTEW in a privileged context, with the entry it names aligned and writable and its release performable, puts
one access of the lowest active lane's entry under way, whose result goes to every active lane, and its strand, once its result is
pushed, goes on to the next word and waits there until the access has been performed; with no lane active it only pushes. -/
def Obligations.PtewWords : Prop :=
  ∀ (w : FWord) (x : At) (act : Mask) (s : State), Issues x act w.pn w.pred w.d 2 (ptewRefs w) s → (x.ctx s).priv = true →
    GlobalReady { block := false, addr := (numRef w 0 true).at_ x act s, n := 8 } 8 { w := true } x
      (namedLanes act ((numRef w 0 true).at_ x act s)) s →
    (act ≠ 0#32 → heldByLocal x s (ptewWord w).kind.reads = false ∧ Releases x s) →
    let s' := noteLatent x act (ptewRefs w) s
    let u := ptewEffect w x act s'
    (act = 0#32 → exec (.ptew w) s = .next (finish x u) ∧ ProducedLater x act w.d 2 0 s' u) ∧
    (act ≠ 0#32 → exec (.ptew w) s = .next (finishWaiting x (.result s'.nextId) (s.clockOf x.c) u) ∧
      ∃ a, Tab.find u.accesses s'.nextId = some a ∧ a.course = x.c ∧
        a.kind = .ptew (w.fld 0 1 == 1) (w.fld 1 1 == 1) ∧ a.words = 2 ∧ a.lanes.map Prod.fst = lanesOf act)

/-- R184, R187, R412: PREF completes without a trap whatever its addresses; FLUSHL and INVL when theirs are aligned, covered and
readable; each acts on the line of every active lane in ascending order, a block-indexed one once no older write of the strand
through the same table and block is still to be performed. -/
def Obligations.LineWords : Prop :=
  ∀ (w : MWord) (x : At) (act : Mask) (s : State), Issues x act w.pn w.pred 0xFF#8 0 [memBase w false] s →
    let s' := noteLatent x act [memBase w false] s
    let addr := laneAddr w false false 128 x act s
    (w.am = 2 → ∀ l, l < 32 → act.getLsbD l = true → blockBusy x s (addr l) = false) →
    exec (.pref w) s = .next (finish x ((lanesOf act).foldl (fun acc l => prefNamed w x acc (addr l)) s')) ∧
    (GlobalReady { block := w.am == 2, addr := addr, n := 128 } 128 { r := true } x act s →
      exec (.flushl w) s = .next (finish x ((lanesOf act).foldl (fun acc l => flushNamed w x acc (addr l)) s')) ∧
      exec (.invl w) s = .next (finish x ((lanesOf act).foldl (fun acc l => dropNamed w x acc (addr l)) s')))

/-- R140, R147, R188, R189: FENCE with an active lane waits for the accesses of its course, counts a release with kinds 2 and
3, and drops the unchecked lines of its core's L1 with kinds 1 and 3 at a scope wider than core; QFENCE puts one entry into each
queue it names, and the course does not wait; with no lane active neither has an effect. -/
def Obligations.FenceWords : Prop :=
  ∀ (w : FWord) (x : At) (act : Mask) (s : State), Issues x act w.pn w.pred 0xFF#8 0 [] s →
    (act = 0#32 → exec (.fence w) s = .next (finish x s) ∧ exec (.qfence w) s = .next (finish x s)) ∧
    (act ≠ 0#32 → x.pending s 4 = false →
      (w.fld 3 2 < 2 → exec (.fence w) s = .next (finish x (if w.fld 3 2 = 1 then s.acquire x.c (w.fld 0 3) else s))) ∧
      (2 ≤ w.fld 3 2 → Releases x s → exec (.fence w) s = .next (finish x
        (if w.fld 3 2 % 2 = 1 then (s.release x.c).acquire x.c (w.fld 0 3) else s.release x.c))) ∧
      (let qs := (List.range 11).filter (fun q => bitOf (w.fld 0 11) q)
       exec (.qfence w) s = .next (finish x (fencesOf (coreOf x.c)
         ({ s with nextId := s.nextId + 1, fences := Tab.put s.fences s.nextId qs }.modCore (coreOf x.c)
           (fun k => qs.foldl (addFence (ownerOfWord x s) s.nextId) k))))))

/-- R136, R140, R164, R166, R178, R179, R180, R182, R183: LDS, STS, LDF, STF, SETE, SETF and ATOMS complete when their addresses
are aligned and inside the allocation they name, their release may be performed, and the local-store unit has room: the operations
of the active lanes are issued in ascending order, each performed at once or queued, and their results pushed empty. -/
def Obligations.LocalStoreWords : Prop :=
  ∀ (w : MWord) (f : LocalForm) (x : At) (act : Mask) (s : State), f ∈ localForms w →
    Issues x act f.w.pn f.w.pred f.dest f.q.words f.refs s → LocalReady f.q.size f.q.size (f.addr x act s) x act s →
    (f.q.release = true → act ≠ 0#32 → Releases x s) →
    let data := refVal f.data x act
    let cmp := refVal f.cmp x act
    let eff := localEffect f.q f.dest (fun _ _ => f.addr x act) (fun _ _ => data) (fun _ _ => cmp) x act
    (f.q.kind.counted = true → ∀ k ∈ granCores x act s f.q.size (f.addr x act s), granWaiting s k < 256 ∧ granWaiting (eff s) k ≤ 256) →
    let s' := noteLatent x act f.refs s
    let s'' := if f.q.release then s'.release x.c else s'
    ∃ u, exec f.instr s = .next (finish x u) ∧
      (act = 0#32 → if f.q.words = 0 then u = s' else ProducedLater x act f.dest f.q.words 0 s' u) ∧
      (act ≠ 0#32 → f.q.words = 0 →
        u = (granOps f.q x act s' (f.addr x act s) (data s) (cmp s) none).foldl issueGran s'') ∧
      (act ≠ 0#32 → f.q.words ≠ 0 → ∃ t,
        ProducedLater x act f.dest f.q.words s''.nextId { s'' with
          nextId := s''.nextId + 1
          arrivals := Tab.put s''.arrivals s''.nextId
            { course := x.c, lanes := act, words := f.q.words, vals := vconst 32 0, signed := f.q.signed } } t ∧
        u = (granOps f.q x act s' (f.addr x act s) (data s) (cmp s) (some s''.nextId)).foldl issueGran t)

/-! ### Engine words -/

/-- R191, R200, R201, R206, R207: CHAIN, CPY, CODEBK and SWZ with an active lane, the course's accesses performed and room in
the queue, put their operation at the end of the channel's queue (a CHAIN of 0 resumes a parked channel), each CPY counted in
the open batch; SWZ sets the team's swizzle at once; with no lane active they have no effect. -/
def Obligations.CopyWords : Prop :=
  ∀ (w : FWord) (x : At) (act : Mask) (s : State),
    let k := coreOf x.c
    let ch := w.fld 0 3
    let put := fun (i : ChanItem) (t : State) => t.modChan k ch (fun c => { c with items := c.items ++ [i] })
    (Issues x act w.pn w.pred 0xFF#8 0 [numRef w 0 true] s →
      let s' := noteLatent x act [numRef w 0 true] s
      let head := (numRef w 0 true).low x act s
      (act = 0#32 → exec (.chain w) s = .next (finish x s')) ∧
      (act ≠ 0#32 → (∀ l, l < 32 → (namedLanes act ((numRef w 0 true).at_ x act s)).getLsbD l = true → (numRef w 0 true).at_ x act s l % 64 = 0) →
        x.pending s 4 = false → pendingHeads (s.core k) ch < 8 →
        exec (.chain w) s = .next (finish x (if head = 0 then s'.modChan k ch (fun c => { c with parked := false })
          else put (.chain (ownerOfWord x s) x.co.openNum head false) (s'.addPending x.c 0))))) ∧
    (Issues x act w.pn w.pred 0xFF#8 0 (cpyRefs w) s →
      let s' := noteLatent x act (cpyRefs w) s
      (act = 0#32 → exec (.cpy w) s = .next (finish x s')) ∧
      (act ≠ 0#32 → x.pending s 4 = false → unclaimedCpy s x.c x.co.name < 32 →
        exec (.cpy w) s = .next (finish x (put (.copy (cpyRecord w x act s)) (s'.addPending x.c 1))))) ∧
    (Issues x act w.pn w.pred 0xFF#8 0 [numRef w 0 true, numRef w 1 false] s →
      let s' := noteLatent x act [numRef w 0 true, numRef w 1 false] s
      let n := (numRef w 1 false).low x act s
      (act = 0#32 → exec (.codebk w) s = .next (finish x s')) ∧
      (act ≠ 0#32 → 1 ≤ n % 2 ^ 13 → n % 2 ^ 13 ≤ 4096 → x.pending s 4 = false → codebookInUse s k = false →
        exec (.codebk w) s = .next (finish x (put (.codebook (ownerOfWord x s) ((numRef w 0 true).low x act s) n) s')))) ∧
    (Issues x act w.pn w.pred 0xFF#8 0 [] s →
      (act = 0#32 → exec (.swz w) s = .next (finish x s)) ∧
      (act ≠ 0#32 → exec (.swz w) s = .next (finish x (s.modTeam x.co.team (fun m => { m with
        swz := vset m.swz (w.fld 0 4) { on := w.fld 13 1 == 1, chunk := w.fld 4 3, shift := w.fld 7 4, width := w.fld 11 2 + 1 } })))))

/-- R155, R191, R202 to R204: SEAL pushes the number of the open batch and closes it, with fewer than 256 sealed batches
unfinished; WAITB completes once no more than its count are unfinished; BSTAT pushes the batch's number, state and first
failure. That SEAL and BSTAT push full entries at once is the model's reading (DEDUCED, notes/assumptions/17.md). -/
def Obligations.BatchWords : Prop :=
  ∀ (w : FWord) (x : At) (act : Mask) (s : State),
    (Issues x act w.pn w.pred w.d 1 [] s → (act ≠ 0#32 → unfinished x.co < 256) →
      ∃ u, exec (.sealBatch w) s = .next (finish x u) ∧ Produced x act w.d 1 false (fun _ => x.co.openNum)
        (if act = 0#32 then s else s.modCourse x.c Course.seal) u) ∧
    (Issues x act w.pn w.pred 0xFF#8 0 [] s → (act ≠ 0#32 → unfinished x.co ≤ w.fld 0 8) → exec (.waitb w) s = .next (finish x s)) ∧
    (Issues x act w.pn w.pred w.d 2 [numRef w 0 false] s →
      ∃ u, exec (.bstat w) s = .next (finish x u) ∧ Produced x act w.d 2 false
        (fun _ => batchStatus x.co ((numRef w 0 false).low x act s % 2 ^ 16)) (noteLatent x act [numRef w 0 false] s) u)

/-- R191, R192, R208 to R210: CBDEF of a valid size, inside the team's allocation, with no engine operation pending on the buffer,
defines it empty and ends its bindings; CBPROD and CBCONS of no more than the room or the elements held advance P or C; CBWAIT
completes once there are as many, and pushes P or C. -/
def Obligations.BufferWords : Prop :=
  ∀ (w : FWord) (x : At) (act : Mask) (s : State),
    let tid := x.co.team
    let i := w.fld 0 6
    let a := (numRef w 0 false).low x act s
    (Issues x act w.pn w.pred 0xFF#8 0 [numRef w 0 false, numRef w 1 false] s →
      let s' := noteLatent x act [numRef w 0 false, numRef w 1 false] s
      let size := (numRef w 1 false).low x act s
      (act = 0#32 → exec (.cbdef w) s = .next (finish x s')) ∧
      (act ≠ 0#32 → 16 ≤ size → size ≤ 65536 → size % 16 = 0 → a % 16 = 0 → cbFits s tid a (size * 2 ^ w.fld 6 4) = true →
        x.pending s 4 = false → cbPending s (coreOf x.c) tid i = false →
        exec (.cbdef w) s = .next (finish x (setCb tid i { base := a, size := size, log2n := w.fld 6 4 }
          (s'.modTeam tid (fun m => { m with streams := vmap (unbindFrom i true) m.streams })))))) ∧
    (Issues x act w.pn w.pred 0xFF#8 0 [numRef w 0 false] s →
      let s' := noteLatent x act [numRef w 0 false] s
      (act = 0#32 → exec (.cbprod w) s = .next (finish x s') ∧ exec (.cbcons w) s = .next (finish x s')) ∧
      (∀ b, act ≠ 0#32 → cbOf s tid i = some b → 1 ≤ a → x.pending s 4 = false →
        (a ≤ b.room → exec (.cbprod w) s = .next (finish x (setCb tid i { b with p := (b.p + a) % 2 ^ 32 } s'))) ∧
        (a ≤ b.held → exec (.cbcons w) s = .next (finish x (setCb tid i { b with c := (b.c + a) % 2 ^ 32 } s'))))) ∧
    (Issues x act w.pn w.pred w.d 1 [numRef w 0 false] s →
      let s' := noteLatent x act [numRef w 0 false] s
      ∀ b, cbOf s tid i = some b → (act ≠ 0#32 → a ≤ (if w.fld 6 1 = 1 then b.room else b.held)) →
        ∃ u, exec (.cbwait w) s = .next (finish x u) ∧
          Produced x act w.d 1 false (fun _ => if w.fld 6 1 = 1 then b.p else b.c) s' u)

/-- R191, R192, R212, R213, R214: SFILL of a length the rules allow, from inside the allocation it names, appends a fragment
to an unbound stream with room, read at once or, with WAITFE, as its granules fill; SPUSH appends the 128 bytes of the lanes to
the open fragment and closes it with END or at 2,048 bytes; SBIND binds a stream to a buffer of 16 to 2,048 bytes, or unbinds
it. -/
def Obligations.StreamWords : Prop :=
  ∀ (w : FWord) (x : At) (act : Mask) (s : State),
    let tid := x.co.team
    let st := w.fld 0 3
    (Issues x act w.pn w.pred 0xFF#8 0 [numRef w 0 false, numRef w 1 false] s →
      let s' := noteLatent x act [numRef w 0 false, numRef w 1 false] s
      let a := (numRef w 0 false).low x act s
      let n := (numRef w 1 false).low x act s
      (act = 0#32 → exec (.sfill w) s = .next (finish x s')) ∧
      (∀ src off, act ≠ 0#32 → 16 ≤ n → n ≤ 2048 → n % 16 = 0 → (w.fld 4 1 = 1 → a % 16 = 0) → lsAt x s a n = .ok src off →
        (streamOf s tid st).bind = none → (streamOf s tid st).frags.length < 8 → x.pending s 4 = false →
        exec (.sfill w) s = .next (finish x (s'.modStream tid st (fun y => { y with frags := y.frags ++
          [if w.fld 4 1 = 1 then { bytes := none, fill := some (src, off, n), unsw := w.fld 3 1 == 1 }
           else readFragment s' tid src off n (streamSwz s' tid st (w.fld 3 1 == 1))] }))))) ∧
    (Issues x act w.pn w.pred 0xFF#8 0 [numRef w 0 false] s →
      let s' := noteLatent x act [numRef w 0 false] s
      let b := ((streamOf s tid st).open_.getD []) ++
        (List.range 32).flatMap (fun l => toBytes 4 (if act.getLsbD l then (numRef w 0 false).at_ x act s l else 0))
      (act = 0#32 → exec (.spush w) s = .next (finish x s')) ∧
      (act ≠ 0#32 → (streamOf s tid st).bind = none → (streamOf s tid st).frags.length < 8 → x.pending s 4 = false →
        exec (.spush w) s = .next (finish x (s'.modStream tid st (fun y =>
          if w.fld 3 1 = 1 ∨ 2048 ≤ b.length then { y with frags := y.frags ++ [{ bytes := some b }], open_ := none }
          else { y with open_ := some b }))))) ∧
    (Issues x act w.pn w.pred 0xFF#8 0 [] s →
      (act = 0#32 → exec (.sbind w) s = .next (finish x s)) ∧
      (act ≠ 0#32 → x.pending s 4 = false → w.fld 9 1 = 1 →
        exec (.sbind w) s = .next (finish x (s.modStream tid st (fun y => { y with bind := none })))) ∧
      (∀ b, act ≠ 0#32 → x.pending s 4 = false → w.fld 9 1 ≠ 1 → cbOf s tid (w.fld 3 6) = some b → 16 ≤ b.size → b.size ≤ 2048 →
        exec (.sbind w) s = .next (finish x ((s.modTeam tid (fun m => { m with
          streams := vmap (unbindFrom (w.fld 3 6) false) m.streams })).modStream tid st
            (fun y => { y with bind := some (w.fld 3 6, w.fld 10 1 == 1) })))))

/-- R225, R436: MIGR never traps for its operand: with an active lane it hands the hint of the lowest one to its far die's engine,
or drops it and counts it; with none active it has no effect. Which far die's engine that is, and that a queue of hints is never
full, are the model's choices (notes/assumptions/55.md, notes/assumptions/26.md). -/
def Obligations.MigrationWords : Prop :=
  ∀ (w : FWord) (x : At) (act : Mask) (s : State), Issues x act w.pn w.pred 0xFF#8 0 [numRef w 0 true] s →
    let s' := noteLatent x act [numRef w 0 true] s
    (act = 0#32 → exec (.migr w) s = .next (finish x s')) ∧
    (act ≠ 0#32 → exec (.migr w) s = .next (finish x
      (match migrHint w x ((numRef w 0 true).low x act s) s' with
       | none => s'.count x.co.ctx 112 1
       | some m => if (poolOf s' (farOf (dieOf x.c)) m).isEmpty then s'.count x.co.ctx 112 1
         else s'.modMig (farOf (dieOf x.c)) (fun e => { e with queue := e.queue ++ [m] }))))

/-! ### Matrix words -/

/-- R333 to R336, R339, R342, R369: MMA and MMAZ, with a format block that R336 allows, fragments of the right size for both
operands and room in the queue, bind their operands and join the queue, the injection for their tile with them; with no lane
active they have no effect. -/
def Obligations.MmaWords : Prop :=
  ∀ (w : FWord) (i : Instr) (x : At) (act : Mask) (s : State), i = .mma w ∨ i = .mmaz w →
    Issues x act w.pn w.pred 0xFF#8 0 (mmaRefs w) s →
    let s' := noteLatent x act (mmaRefs w) s
    let b := mmaBlockAt w x act s'
    (act = 0#32 → exec i s = .next (finish x s')) ∧
    (act ≠ 0#32 → MmaReady w x act s → x.pending s 4 = false → MatRoom x s →
      let inj := takeInject x.c (w.fld 0 6) s'
      exec i s = .next (finish x (bindMma w x.c
        { owner := ownerOfWord x s, word := wordOf i, act := act, pc := x.sd.pc
          block := BitVec.ofNat 64 b.1, scales := BitVec.ofNat 64 b.2.1, descA := b.2.2.descA, descB := b.2.2.descB
          region := if b.2.2.rovr = 0 then x.co.region else b.2.2.rovr - 1, inject := inj.1 } inj.2)))

/-- R339, R340, R358 to R364, R367: ACCZ, ACCLD, ACCST, ACCMV, ACCTEST, ACCCLR and NORMRD with their tiles in range and their
addresses aligned and inside their allocation join the matrix queue, the entries they push empty until they complete; with no
lane active they only push. -/
def Obligations.MatrixQueueWords : Prop :=
  ∀ (w : FWord) (f : MatForm) (x : At) (act : Mask) (s : State), f ∈ matForms w →
    Issues x act w.pn w.pred w.d f.words f.refs s →
    (act ≠ 0#32 → f.ready x act s ∧ x.pending s 4 = false ∧ MatRoom x s) →
    let s' := noteLatent x act f.refs s
    let o := matOp w f.instr f.refs x act s'
    ∃ u, exec f.instr s = .next (finish x u) ∧
      (act = 0#32 → if f.words = 0 then u = s' else ProducedLater x act w.d f.words 0 s' u) ∧
      (act ≠ 0#32 → if f.words = 0 then u = s'.modCore (coreOf x.c) (fun k => { k with mq := k.mq ++ [o] })
        else ProducedLater x act w.d f.words s'.nextId ({ s' with nextId := s'.nextId + 1 }.modCore (coreOf x.c)
          (fun k => { k with mq := k.mq ++ [{ o with result := some s'.nextId }] })) u)

/-- R365 to R367: FMTSET, FMTGET and BNDSET complete: the context's home answers once for all active lanes, and the answer is on
its way: the status and the changed registers of FMTSET (with ESC set, after the requests of the course's older ACCSTs) and
BNDSET, the descriptor or the escalation state of FMTGET; with no lane active they only push. -/
def Obligations.FormatWords : Prop :=
  ∀ (w : FWord) (x : At) (act : Mask) (s : State),
    let answered := fun (words : Nat) (r : Nat × State) (u : State) => ProducedLater x act w.d words r.2.nextId
      { r.2 with nextId := r.2.nextId + 1
                 arrivals := Tab.put r.2.arrivals r.2.nextId { course := x.c, lanes := act, words := words, vals := vconst 32 r.1 } } u
    let a := (numRef w 0 true).low x act s
    (Issues x act w.pn w.pred w.d 1 [numRef w 0 true] s →
      (act ≠ 0#32 → fdEsc (BitVec.ofNat 64 a) = true → requestsPending s x.c x.co = false) →
      let s' := noteLatent x act [numRef w 0 true] s
      ∃ u, exec (.fmtset w) s = .next (finish x u) ∧ (act = 0#32 → ProducedLater x act w.d 1 0 s' u) ∧
        (act ≠ 0#32 → answered 1 (fmtset x (w.fld 0 5) (BitVec.ofNat 64 a) s') u)) ∧
    (Issues x act w.pn w.pred w.d 2 [] s →
      ∃ u, exec (.fmtget w) s = .next (finish x u) ∧ (act = 0#32 → ProducedLater x act w.d 2 0 s u) ∧
        (act ≠ 0#32 → answered 2 (fmtget w (x.ctx s), s) u)) ∧
    (Issues x act w.pn w.pred w.d 1 [numRef w 0 true, numRef w 1 true] s →
      let s' := noteLatent x act [numRef w 0 true, numRef w 1 true] s
      ∃ u, exec (.bndset w) s = .next (finish x u) ∧ (act = 0#32 → ProducedLater x act w.d 1 0 s' u) ∧
        (act ≠ 0#32 → answered 1 (bndset w x a ((numRef w 1 true).low x act s) s') u))

/-- R369: ERRINJ in a privileged context, with the upper half of its operand 0 and its tile in range, notes the injection for
the next MMA into that tile; with no lane active it has no effect. -/
def Obligations.InjectWords : Prop :=
  ∀ (w : FWord) (x : At) (act : Mask) (s : State), Issues x act w.pn w.pred 0xFF#8 0 [numRef w 0 false] s →
    (x.ctx s).priv = true →
    let s' := noteLatent x act [numRef w 0 false] s
    let sel := (numRef w 0 false).low x act s
    (act = 0#32 → exec (.errinj w) s = .next (finish x s')) ∧
    (act ≠ 0#32 → bitsOf sel 16 16 = 0 → w.fld 0 6 < (teamD s x.co.team).ntiles →
      exec (.errinj w) s = .next (finish x (s'.modCourse x.c (fun co => { co with errinj := some (w.fld 0 6, BitVec.ofNat 32 sel) }))))

/-! ### Pod words -/

/-- R24, R140, R246, R248: RSTV with an active lane, fewer than 32 of its course outstanding and its release performable is a
release, and puts one remote store of the register's lanes on its way, numbered in the sequence of its core to the core that
the name carries; with no lane active it has no effect. That the name's core gives the number is the model's reading (DEDUCED,
notes/assumptions/37.md). -/
def Obligations.RemoteStoreWords : Prop :=
  ∀ (w : FWord) (x : At) (act : Mask) (s : State), Issues x act w.pn w.pred 0xFF#8 0 [numRef w 0 true, numRef w 1 false] s →
    let s' := noteLatent x act [numRef w 0 true, numRef w 1 false] s
    let target := BitVec.ofNat 64 ((numRef w 0 true).low x act s)
    (act = 0#32 → exec (.rstv w) s = .next (finish x s')) ∧
    (act ≠ 0#32 → x.co.rstvOut < 32 → waitsForMember x s target = false → Releases x s →
      let t := (s'.release x.c).modCourse x.c (fun co => { co with rstvOut := co.rstvOut + 1 })
      exec (.rstv w) s = .next (finish x (sendRstv (ownerOfWord x s) (coreOf x.c) target (w.fld 0 6)
        (vof 32 (fun l => if act.getLsbD l then BitVec.ofNat 32 ((numRef w 1 false).at_ x act s l) else 0#32)) false t)))

/-- R249: NAMEQ completes once no active lane names a course of an unstarted member of its own panel: one word per active
lane is on its way, 6 for a name of another package, for whose state that package is asked, else the state of the name at its
home. That the names of this package are answered at issue, and the 6 that stands until another package answers, are the model's
reading (DEDUCED, notes/assumptions/37.md). -/
def Obligations.NameQueryWords : Prop :=
  ∀ (w : FWord) (x : At) (act : Mask) (s : State), Issues x act w.pn w.pred w.d 1 [numRef w 0 true] s →
    let name := fun l => BitVec.ofNat 64 ((numRef w 0 true).at_ x act s l)
    (∀ l, l < 32 → act.getLsbD l = true → waitsForMember x s (name l) = false) →
    let s' := noteLatent x act [numRef w 0 true] s
    let val := fun l => if (s'.devOfPod (namePod (name l))).isNone then 6
      else nameState s' x.co.name (podOf s' (x.ctx s').dev) (x.ctx s').asid (x.ctx s').groups (name l)
    ∃ u, exec (.nameq w) s = .next (finish x u) ∧ (act = 0#32 → ProducedLater x act w.d 1 0 s' u) ∧
      (act ≠ 0#32 → ∃ t, ProducedLater x act w.d 1 s'.nextId t u ∧
        t = (lanesOf (farNames x s' act name)).foldl (askName x s'.nextId name) { s' with
          nextId := s'.nextId + 1
          arrivals := Tab.put s'.arrivals s'.nextId { course := x.c, lanes := act, words := 1, vals := vof 32 val } })

/-- R140, R250, R251, R253, R477: COLL of an aligned descriptor, with fewer than 64 collectives of its course unfinished and its
release performable, is a release, queues the collective with the package time and pushes its number; COLLW completes once no more
than its count are unfinished, and acquires at pod; with no lane active neither has an effect but COLL's push. -/
def Obligations.CollectiveWords : Prop :=
  ∀ (w : FWord) (x : At) (act : Mask) (s : State),
    (Issues x act w.pn w.pred w.d 1 [numRef w 0 true] s →
      (act ≠ 0#32 → x.co.colls.length < 64 ∧ Releases x s ∧
        ∀ l, l < 32 → (namedLanes act ((numRef w 0 true).at_ x act s)).getLsbD l = true → (numRef w 0 true).at_ x act s l % 64 = 0) →
      let s' := noteLatent x act [numRef w 0 true] s
      let o : CollOp := { owner := ownerOfWord x s, num := x.co.collNext, desc := (numRef w 0 true).low x act s, pc := x.sd.pc
                          formats := (x.ctx s').formats }
      ∃ u, exec (.coll w) s = .next (finish x u) ∧ Produced x act w.d 1 false (fun _ => x.co.collNext)
        (if act = 0#32 then s' else ((s'.release x.c).modCourse x.c (fun co => { co with
          collNext := (co.collNext + 1) % 2 ^ 16, colls := co.colls ++ [x.co.collNext] })).modCore (coreOf x.c)
            (fun k => { k with collq := k.collq ++ [{ o with stamp := s.pkgTime }] })) u) ∧
    (Issues x act w.pn w.pred 0xFF#8 0 [] s →
      (act = 0#32 → exec (.collw w) s = .next (finish x s)) ∧
      (act ≠ 0#32 → x.co.colls.length ≤ w.fld 0 8 → exec (.collw w) s = .next (finish x (s.acquire x.c 5))))

/-- R146, R255, R262, R477: SWSIZE of a number of partitions the rules allow, and SWBUILD, SWSEND, SWDIFF, SWPEEL and SWAPPLY, with
the course's accesses performed, join the swatch queue with the operands of the lowest active lane, the course's parameters and the
package time;
all but SWSIZE push a status that is empty until they complete; with no lane active they only push. -/
def Obligations.SwatchWords : Prop :=
  ∀ (w : FWord) (x : At) (act : Mask) (s : State),
    let push := fun (o : SwOp) (t : State) => t.modCore (coreOf x.c) (fun k => { k with swq := k.swq ++ [{ o with stamp := s.pkgTime }] })
    (let refs := [numRef w 0 false, numRef w 1 true]
     Issues x act w.pn w.pred 0xFF#8 0 refs s →
      let s' := noteLatent x act refs s
      (act = 0#32 → exec (.swsize w) s = .next (finish x s')) ∧
      (act ≠ 0#32 → x.pending s 4 = false → (∃ n, n < 13 ∧ (numRef w 0 false).low x act s = 2 ^ n) →
        exec (.swsize w) s = .next (finish x (push (swatchOp (.swsize w) refs x act s) s')))) ∧
    (∀ i refs, (i, refs) ∈ [(Instr.swbuild w, [numRef w 0 true, numRef w 1 true]),
        (.swsend w, [numRef w 0 true, numRef w 1 true] ++ (if isNone w.sc then [] else [numRef w 2 true])),
        (.swdiff w, [numRef w 0 true, numRef w 1 true]), (.swpeel w, [numRef w 0 true, numRef w 1 true, numRef w 2 false]),
        (.swapply w, [numRef w 0 true, numRef w 1 true, numRef w 2 false])] →
      Issues x act w.pn w.pred w.d 1 refs s → (act ≠ 0#32 → x.pending s 4 = false) →
      let s' := noteLatent x act refs s
      ∃ u, exec i s = .next (finish x u) ∧ (act = 0#32 → ProducedLater x act w.d 1 0 s' u) ∧
        (act ≠ 0#32 → ProducedLater x act w.d 1 s'.nextId
          (push { swatchOp i refs x act s with result := some s'.nextId } { s' with nextId := s'.nextId + 1 }) u))

/-! ### What lies around a word's own effect -/

/-- R57, R142: reading its sources and predicates changes nothing where no lane of the strand outside the active ones holds a
poisoned word or predicate among them that has not been reported, and no register among them waits for its first read after an
RSTV. -/
def Obligations.QuietSources : Prop :=
  ∀ (x : At) (act : Mask) (refs : List SrcRef) (preds : List Nat) (s : State),
    let y := x.now s
    (∀ r ∈ refs, ∀ i l, i < r.span → l < 32 → y.sd.mask.getLsbD l = true → act.getLsbD l = false →
      let c := r.code.toNat
      (c < 0x10 → (y.sd.queueAt l (c + i)).poison = true → (y.sd.queueAt l (c + i)).noted = true) ∧
      (0x20 ≤ c → c < 0x40 → (vget y.sd.g {} (c - 0x20)).poison = true → (vget y.sd.g {} (c - 0x20)).noted = true) ∧
      (0x40 ≤ c → c < 0x80 → (y.co.vAt (c - 0x40 + i) l).poison = true → (y.co.vAt (c - 0x40 + i) l).noted = true)) →
    (act = 0#32 ∨ ∀ r ∈ refs, ∀ n ∈ r.vregs, n ∉ x.co.filled) →
    noteLatent x act refs s = s ∧
    ((∀ n ∈ preds, ∀ l, l < 32 → x.sd.mask.getLsbD l = true → act.getLsbD l = false → (vget y.co.pBad 0#32 n).getLsbD l = true →
      (vget y.co.pNoted 0#32 n).getLsbD l = true) → noteReads x act refs preds s = s)

/-- R58, R93, R94, R382: a word that does not branch, of the only live strand of a course, sends the strand to the next word;
within a REP it counts one execution, and after the last it sends the strand behind the repeated word. -/
def Obligations.NextWord : Prop :=
  ∀ (x : At) (u : State) (co : Course), x.st < 4 → u.course x.c = some co → co.liveStrands = [x.st] →
    (co.strand x.st).dstack = [] → (co.strand x.st).wait = .none → (co.strand x.st).mark = none →
    (x.rep = none → (co.strand x.st).join ≠ some (x.sd.pc + 8#64) →
      finish x u = (issued x u).modStrand x.c x.st (fun y => { y with pc := x.sd.pc + 8#64 })) ∧
    (∀ i n, x.rep = some (i, n) →
      (i + 1 < n → finish x u = (issued x u).modStrand x.c x.st (fun y => { y with repi := i + 1 })) ∧
      (n ≤ i + 1 → (co.strand x.st).join ≠ some (x.sd.pc + 16#64) →
        finish x u = (issued x u).modStrand x.c x.st (fun y => { y with repi := 0, pc := x.sd.pc + 16#64 })))

/-- R44, R45, R48, R58, R72, R169: the frame of an arithmetic word that is no long-latency producer and whose sources have nothing
to report: the next state has the strand at the next word, and of its course at most that strand's queue and g copies, the v and p
registers with their poison, FPFLAGS and SEED changed; every other course, every byte of memory and all else stand, but for the
count of younger words of the accesses and matrix operations under way. -/
def Obligations.ArithmeticFrame : Prop :=
  ∀ (i : Instr) (op : AOp) (w : FWord) (x : At) (act : Mask) (s : State),
    arith? i = some (op, w) → isLongLatency op = false →
    Issues x act w.pn w.pred w.d (arithWords op w) (refsOf op w) s →
    (∀ n ∈ predsOf op w, predPending x s n = false) → (∀ n ∈ predReads op w, badPred x act n = 0#32) →
    formatOk op w x act s = true → Alone x →
    noteReads x act (refsOf op w) (predReads op w) s = s →
    ∃ t co, exec i s = .next t ∧ t.course x.c = some co ∧
      { co.strand x.st with q := x.sd.q, g := x.sd.g, pc := x.sd.pc, level := x.sd.level, age := x.sd.age
                            readySince := x.sd.readySince, wasReady := x.sd.wasReady } = x.sd ∧
      (co.strand x.st).pc = x.sd.pc + 8#64 ∧
      { co with strands := x.co.strands, v := x.co.v, p := x.co.p, pBad := x.co.pBad, pNoted := x.co.pNoted, fpflags := x.co.fpflags
                seed := x.co.seed } = x.co ∧
      (∀ k, k ≠ x.c → t.course k = s.course k) ∧ (∀ k, k ≠ coreOf x.c → t.core k = s.core k) ∧
      { t.core (coreOf x.c) with mq := (s.core (coreOf x.c)).mq } = s.core (coreOf x.c) ∧
      t.accesses.map (fun e => (e.1, { e.2 with skid := 0, past := true })) = s.accesses.map (fun e => (e.1, { e.2 with skid := 0, past := true })) ∧
      (∀ a, Memory.read t.mem a = Memory.read s.mem a) ∧
      { t with courses := s.courses, cores := s.cores, accesses := s.accesses } = s

/-! ### Values -/

/-- R294, R295: the elements of the two's complement instructions without SAT, at every element width: sum, difference,
product, the bitwise operations, the shifts and the rotation by the count modulo the width, and the smaller and the larger. -/
def Obligations.IntegerValues : Prop :=
  ∀ (op : AOp) (w : FWord) (x : At) (act : Mask) (s : State) (l k : Nat),
    tyInt w.ty = true → w.sat = false → l < 32 → k < tyElems w.ty → act.getLsbD l = true →
    let n := elemWidth w.ty
    let src := fun i => BitVec.ofNat n (bitsOf (valueOf op w x act s i l) (n * k) n)
    let a := src 0
    let b := src 1
    let c := src 2
    let is := fun (r : BitVec n) => bitsOf ((arithResult op w x act s).val l) (n * k) n = r.toNat
    (op = .add → is (a + b)) ∧ (op = .sub → is (a - b)) ∧ (op = .mul → is (a * b)) ∧ (op = .mad → is (a * b + c)) ∧
    (op = .neg → is (-a)) ∧ (op = .and → is (a &&& b)) ∧ (op = .or → is (a ||| b)) ∧ (op = .xor → is (a ^^^ b)) ∧
    (op = .andn → is (a &&& ~~~b)) ∧ (op = .not → is (~~~a)) ∧ (op = .shl → is (a <<< (b.toNat % n))) ∧
    (op = .shr → is (a >>> (b.toNat % n))) ∧ (op = .sar → is (a.sshiftRight (b.toNat % n))) ∧
    (op = .rotl → is (a.rotateLeft (b.toNat % n))) ∧
    (op = .min → is (if (if tySgn w.ty then a.sle b else a.ule b) then a else b)) ∧
    (op = .max → is (if (if tySgn w.ty then a.sle b else a.ule b) then b else a)) ∧
    (op = .mov → is a) ∧ (op = .sel → is (if c = 0 then b else a))

/-- R296: DIV and REM with a zero divisor: all ones for .n types, for .i types the element's maximum for a dividend of at
least 0 and its minimum for one below, and the dividend as the remainder; the minimum divided by −1 is the minimum without SAT
and the maximum with it, and its remainder 0. -/
def Obligations.DivisionCorners : Prop :=
  ∀ (op : AOp) (w : FWord) (x : At) (act : Mask) (s : State) (l k : Nat),
    tyInt w.ty = true → l < 32 → k < tyElems w.ty → act.getLsbD l = true →
    let n := elemWidth w.ty
    let a := bitsOf (valueOf op w x act s 0 l) (n * k) n
    let b := bitsOf (valueOf op w x act s 1 l) (n * k) n
    let r := bitsOf ((arithResult op w x act s).val l) (n * k) n
    (b = 0 →
      (op = .div → tySgn w.ty = false → r = 2 ^ n - 1) ∧
      (op = .div → tySgn w.ty = true → a < 2 ^ (n - 1) → r = 2 ^ (n - 1) - 1) ∧
      (op = .div → tySgn w.ty = true → 2 ^ (n - 1) ≤ a → r = 2 ^ (n - 1)) ∧
      (op = .rem → w.sat = false → r = a)) ∧
    (tySgn w.ty = true → a = 2 ^ (n - 1) → b = 2 ^ n - 1 →
      (op = .div → w.sat = false → r = 2 ^ (n - 1)) ∧ (op = .div → w.sat = true → r = 2 ^ (n - 1) - 1) ∧
      (op = .rem → r = 0))

/-- R308: the sign and the order of floating-point elements: FMIN and FMAX give one of their operands, the other one for a
single NaN and the default NaN for two, with −0 below +0, and invalid for a signalling NaN; FCLAMP gives b for a NaN and c
wherever b lies above c; FABS and FNEG change only the sign bit of a number, and give the default NaN for a NaN, without a flag. -/
def Obligations.SignAndOrder : Prop :=
  ∀ (w : FWord) (f : Fmt) (seed : Word) (x y z : Nat), f ∈ [Fmt.f16, .bf16, .f32, .f64] →
    x < 2 ^ f.width → y < 2 ^ f.width → z < 2 ^ f.width →
    let nan := fun c => (decodeF f c).isNan
    let lo := (fpElem .fmin w f seed x y z).val
    let hi := (fpElem .fmax w f seed x y z).val
    (nan x = true → nan y = false → lo = y ∧ hi = y) ∧ (nan x = false → nan y = true → lo = x ∧ hi = x) ∧
    (nan x = true → nan y = true → lo = f.nanCode ∧ hi = f.nanCode) ∧
    (nan x = false → nan y = false → (lo = x ∨ lo = y) ∧ (hi = x ∨ hi = y) ∧
      (∀ c ∈ [x, y], (decodeF f lo).cmp (decodeF f c) ≤ 0 ∧ 0 ≤ (decodeF f hi).cmp (decodeF f c))) ∧
    (x = 2 ^ (f.width - 1) → y = 0 → lo = x ∧ hi = y) ∧ (x = 0 → y = 2 ^ (f.width - 1) → lo = y ∧ hi = x) ∧
    (((decodeF f x).isSnan || (decodeF f y).isSnan) = true →
      (fpElem .fmin w f seed x y z).fl = flInvalid ∧ (fpElem .fmax w f seed x y z).fl = flInvalid) ∧
    (nan y = false → nan z = false →
      (nan x = true → (decodeF f y).cmp (decodeF f z) < 0 → (fpElem .fclamp w f seed x y z).val = y) ∧
      (0 < (decodeF f y).cmp (decodeF f z) → (fpElem .fclamp w f seed x y z).val = z)) ∧
    (nan x = false →
      (fpElem .fabs w f seed x y z).val = x % 2 ^ (f.width - 1) ∧
      (fpElem .fneg w f seed x y z).val = (x + 2 ^ (f.width - 1)) % 2 ^ f.width) ∧
    (nan x = true → (fpElem .fabs w f seed x y z).val = f.nanCode ∧ (fpElem .fneg w f seed x y z).val = f.nanCode) ∧
    (fpElem .fabs w f seed x y z).fl = 0#6 ∧ (fpElem .fneg w f seed x y z).fl = 0#6

/-! ### Encodings -/

/-- R58, R59, R60, R63, R76, R78: decoding gives back the instruction whose word is encoded, with every field at every value,
and encoding gives back the word that is decoded; a word of an instruction that is well formed is accepted. -/
def Obligations.RoundTrip : Prop :=
  (∀ i w, encode i = some w → (∀ v, i ≠ .illegalOpcode v) → (∀ rsv a b, i = .pairWord rsv a b → unassigned w = false) →
    decodeRaw w = i ∧ (WellFormed i → decode w = .ok i)) ∧
  (∀ w, encode (decodeRaw w) = some w)

/-- R58, R62, R63, R78: words that the spec writes out decode to the instructions they stand for, with their operands; the
reserved opcode 0x000 is the instruction that traps. -/
def Obligations.SpecWords : Prop :=
  decode 0x1008_0113_FD1C_4070#64 = .ok (.fadd { pn := false, pred := 2#3, sa := 0x00#8, sb := 0x44#8, sc := 0xFF#8, d := 0x47#8
                                                 t := 0#3, mod := 0x4070#15 }) ∧
  decode 0x62DF_FFFF_FFFC_0000#64 = .ok (.nop { pn := false, pred := 7#3, sa := 0xFF#8, sb := 0xFF#8, sc := 0xFF#8, d := 0xFF#8
                                                t := 0#3, mod := 0#15 }) ∧
  decode 0x6007_FC00_0000_0C10#64 = .ok (.bra { pn := false, pred := 1#3, val := 0xFF#8, woff := 3#32, join := 1#6, bop := 0#4 }) ∧
  decode 0x085C_0000_000F_FC00#64 = .ok (.movi { pn := false, pred := 7#3, imm := 3#32, d := 0xFF#8, ty := 0#4, rsv := 0#6 }) ∧
  decode 0#64 = .ok (.illegalOpcode 0#64)

/-! ### A step -/

/-- R58, R77, R381: the turn of a strand that can issue executes the instruction that the eight bytes at its PC decode to: step is
exec of it with the strand as the current one, and afterwards only a course that was let go for one word is held again; a REP
is executed with the word behind it. -/
def Obligations.StepRunsDecoded : Prop :=
  ∀ (s s1 : State) (c st : Nat) (w : DWord) (l : List Turn), nextTurns s = .strand c st :: l →
    let s0 := { s with agenda := l }
    runnable s0 c st = true →
    fetchWord (s0.ctx (s0.courseD c).ctx) ((s0.courseD c).strand st).pc { s0 with cur := some (c, st) } = (s1, .ok w) →
    (wordTrap (decodeRaw w) = none ∨ ∃ r, decodeRaw w = .rep r) →
    (∀ t, exec (decodeRaw w) s1 = .next t →
      step s = .next (endStep c st s0 { t with cur := none })) ∧
    (∀ f, exec (decodeRaw w) s1 = .fault f → step s = .fault f)

/-- The model's own order of turns (notes/assumptions/2.md, notes/assumptions/4.md): an event on the agenda, or one that is due,
is executed with the hub bank it acts on, as are a bit error of a register and a debugger's pre-emption; with nothing due
a course that has something to do again does it, and with none left a cycle begins: the strand that each scheduler selects issues,
and then the cycle ends. At its end the always-on counter counts one, and only clocks, the time for which a die has been quiet, and
the ages and readiness of strands change. -/
def Obligations.StepRunsEvents : Prop :=
  (∀ s i bank l, nextTurns s = .event i bank :: l → step s = exec i { s with agenda := l, bank := bank }) ∧
  (∀ s i b rest, s.agenda = [] → dueEvents s = (i, b) :: rest → nextTurns s = [.event i b]) ∧
  (∀ s e, s.agenda = [] → dueEvents s = [] → s.courses.find? (fun e => (doAgain e.1 s).isSome) = some e →
    nextTurns s = [.again e.1] ∧ ∀ t, doAgain e.1 { s with agenda := [] } = some t → step s = .next t) ∧
  (∀ s, s.agenda = [] → dueEvents s = [] → (∀ e ∈ s.courses, doAgain e.1 s = none) → ∃ waiting,
    let sel := (schedulers s).filterMap (select s)
    nextTurns s = sel.map (fun e => Turn.strand e.1 e.2) ++ [.cycle sel waiting] ∧
    ∀ e, e ∈ waiting ↔ (e ∈ allStrands s ∧ e ∉ sel ∧ readyNow s e.1 e.2 = true)) ∧
  (∀ s c p corrected l, nextTurns s = .regError c p corrected :: l →
    step s = .next (regError c p corrected { s with agenda := l }) ∧
    ∀ co, s.course c = some co → regError c p corrected s =
      if corrected = true then s.count co.ctx 88 1 else s.modCourse c (poisonReg p)) ∧
  (∀ s i l, nextTurns s = .inject i :: l → step s = .next (inject i { s with agenda := l })) ∧
  (∀ s sel waiting l, nextTurns s = .cycle sel waiting :: l → ∃ d cs, step s = .next { s with agenda := l, aon := s.aon + 1, dies := d, courses := cs } ∧
    (∀ k, { vget d {} k with clock := (s.die k).clock, quiet := (s.die k).quiet } = s.die k) ∧
    (∀ k, (Tab.find cs k).isSome = (s.course k).isSome) ∧
    (∀ k co, s.course k = some co → ∃ co', Tab.find cs k = some co' ∧ { co' with strands := co.strands } = co ∧
      ∀ i, i < 4 → { co'.strand i with age := (co.strand i).age, wasReady := (co.strand i).wasReady
                                       readySince := (co.strand i).readySince } = co.strand i))

/-- R62, R78, R82, R110: a word that decodes with a trap takes it before it has any effect, with the code 0x0101, 0x0102 or
0x0103; of the checks of a word of the arithmetic, memory and other shapes those of the encoding come before those of the operands;
a word of an unassigned opcode takes 0x0101; a word that cannot be fetched takes 0x0105, and cannot be at an address that is not a
multiple of 8, in no code range, or one that no page maps and no translation is kept of. -/
def Obligations.IllFormedWords : Prop :=
  ∀ (x : At) (s : State), s.at_ = some x →
    (∀ w t, wordTrap (decodeRaw w) = some t → (∀ r, decodeRaw w ≠ .rep r) → ∃ n, runDecoded w s = .next (takeTrap x.c x.st { code := n } s) ∧
      (t = .illegalOpcode → n = 0x0101) ∧ (t = .illegalEncoding → n = 0x0102) ∧ (t = .illegalOperand → n = 0x0103)) ∧
    (∀ w, exec (.illegalOpcode w) s = .next (takeTrap x.c x.st { code := 0x0101 } s)) ∧
    (∀ s1 e, fetchWord (x.ctx s) x.sd.pc s = (s1, .error e) →
      e.code = 0x0105 ∧ exec .fetchFault s = .next (takeTrap x.c x.st e s)) ∧
    (x.sd.pc.toNat % 8 ≠ 0 ∨ codeRange (x.ctx s) x.sd.pc.toNat = none → ∃ e, (fetchWord (x.ctx s) x.sd.pc s).2 = .error e) ∧
    (∀ i r level reason, codeRange (x.ctx s) x.sd.pc.toNat = some (i, r) →
      let ia := rangeIa r x.sd.pc.toNat
      walk s (x.ctx s).dev ia false = .fault level reason → Tab.find (s.dev (x.ctx s).dev).tlb (ia / 4096) = none →
      ∃ e, (fetchWord (x.ctx s) x.sd.pc s).2 = .error e) ∧
    (∀ i op w, arith? i = some (op, w) → wordTrap i = firstTrap ((op.shape w).encOk w) ((op.shape w).opdOk w)) ∧
    (∀ i w sh, memShape i = some (w, sh) → wordTrap i = firstTrap (sh.encOk w) (sh.opdOk w)) ∧
    (∀ i w sh, otherShape i = some (w, sh) → wordTrap i = firstTrap (sh.encOk w) (sh.opdOk w)) ∧
    (∀ o, firstTrap false o = some .illegalEncoding) ∧ firstTrap true false = some .illegalOperand ∧ firstTrap true true = none

/-! ### Taking a trap, and the way back -/

/-- R38, R40, R348, R390: a trap of a strand stops its course: its PC stays at the word, nothing of the strand or of the others
changes, no other course changes, the record of the word is posted, and no MMA and no operation not yet started of the course is
left in the matrix queue. On the way back the course runs again, every strand with its PC, mask, queue, g copies and deferral
stack, at level 0 and age 0, ready from the present cycle. -/
def Obligations.TakingATrap : Prop :=
  ∀ (c st : Nat) (t : Trap) (s : State) (co : Course), s.course c = some co → st < 4 →
    let u := takeTrap c st t s
    let p := s.post co.ctx { name := co.name, pc := (co.strand st).pc, code := t.code, stop := true, ia := t.ia, cls := t.cls }
    ∃ co', u.course c = some co' ∧ co'.cstate = .stopped ∧
      co'.strand st = co.strand st ∧
      (∀ j, j < 4 → j ≠ st → co'.strand j = co.strand j) ∧ (∀ k, k ≠ c → u.course k = s.course k) ∧
      u.mem = p.mem ∧ u.ctxs = p.ctxs ∧ u.devs = p.devs ∧
      (u.core (coreOf c)).mq = (s.core (coreOf c)).mq.filter (fun o => !(o.abandoned c co.name)) ∧
      co'.remat = co.remat ++ ((s.core (coreOf c)).mq.filter (MatOp.abandoned c co.name)).map MatOp.afresh ∧
      (∃ co'', (returnFromStop c s).course c = some co'' ∧ co''.cstate = .run ∧
        (∀ j, j < 4 → co''.strand j = { co.strand j with level := 0, age := 0, readySince := s.clockOf c }) ∧
        { co'' with cstate := co.cstate, strands := co.strands } = co ∧ OnlyCourse c s (returnFromStop c s))

/-- R440: a record is 64 bytes: the name, the PC, the code with STOP, REPLAY and LOSS, the skid count, the IA, the always-on
counter, the class-specific bytes, the ASID, SEQ and the low half of the CRC-32C of bytes 0 to 61. R380: a journal entry is 64
bytes: sequence number, kind, core, queue or slot, CRC-32C, payload and zeros, and is read back as it was written. -/
def Obligations.RecordLayout : Prop :=
  ∀ (r : Rec) (aon asid seq : Nat) (loss : Bool),
    let b := r.bytes aon asid seq loss
    let at_ := fun lo n => ofBytes ((b.drop lo).take n)
    b.length = 64 ∧ at_ 0 8 = r.name.toNat ∧ at_ 8 8 = r.pc.toNat ∧ at_ 16 2 = r.code % 2 ^ 16 ∧
    at_ 18 2 = (if r.stop then 1 else 0) + (if r.replay then 2 else 0) + (if loss then 4 else 0) ∧
    at_ 20 4 = r.skid % 2 ^ 32 ∧ at_ 24 8 = r.ia % 2 ^ 64 ∧ at_ 32 8 = aon % 2 ^ 64 ∧ at_ 40 16 = r.cls % 2 ^ 128 ∧
    at_ 56 4 = asid % 2 ^ 16 ∧ at_ 60 2 = seq % 2 ^ 16 ∧ at_ 62 2 = crc32c (b.take 62) % 2 ^ 16 ∧
    ∀ e : JEntry, e.bytes.length = 64 ∧
      (e.seq < 2 ^ 64 → e.kind < 256 → e.core < 256 → e.index < 65536 → e.payload.length = 32 →
        let f := fun lo n => ofBytes ((e.bytes.drop lo).take n)
        f 0 8 = e.seq ∧ f 8 1 = e.kind ∧ f 9 1 = e.core ∧ f 10 2 = e.index ∧
        f 12 4 = crc32c (e.bytes.take 12 ++ e.bytes.drop 16) ∧ (e.bytes.drop 16).take 32 = e.payload ∧ f 48 16 = 0 ∧
        JEntry.ofBytes e.bytes = some e)

/-! ### The canonical form -/

/-- The state after reset has the canonical form. -/
def Obligations.ResetIsCanonical : Prop := Sys2Proof.Inv State.reset

/-- Every step keeps the canonical form of memory, in every state, whatever the turn is. -/
def Obligations.StepKeepsCanonicalMemory : Prop := ∀ s t, Sys2Proof.Inv s → step s = .next t → Sys2Proof.Inv t

/-! ### The machine's own events -/

/-- R33, R91, R382, R397, R398, R49: the waits of a strand that end by themselves. After 4,096 cycles at its recorded join
address a strand goes on, and 2^(8 + WAIT) after the first strand arrived at a JOIN word those that wait there go on; 2^16 cycles of
age are one level; a sleep or yield that is over wakes its strand; a value that has been computed or read reaches every queue entry,
v register and g copy that awaits it, and its PDST and flags, but for the v registers and predicates of lanes that have left the
course (R89). That the strands at a JOIN word go on whatever their depths, and merge where those are equal, is the model's choice
(DESIGN CHOICE, notes/assumptions/64.md). -/
def Obligations.StrandEvents : Prop :=
  ∀ (c st : Nat) (s : State),
    let y := (s.courseD c).strand st
    (∀ n, y.live = true → y.wait = .joinAddr n → n + 4096 ≤ s.clockOf c →
      exec (.joinWaitExpire c st) s = .next (s.modStrand c st (fun y => { y with wait := .none, join := none }))) ∧
    (let co := s.courseD c
     let since := joinSince co y.pc (s.clockOf c)
     let l := joinWaiters co y.pc
     (∀ n k, y.live = true → y.wait = .joinWord n k → k < 15 → since + 2 ^ (8 + k) ≤ s.clockOf c → co.cstate = .run →
      exec (.joinLimitExpire c st) s = .next (tidy c (l.foldl (fun acc i => arriveLive c i acc)
        (l.foldl (fun acc i => acc.modStrand c i (fun z => { z with wait := .none, pc := z.pc + 8#64 })) s)))) ∧
     (∀ i n k, i ∈ l → (co.strand i).wait = .joinWord n k → since ≤ n) ∧
     (∀ i, i ∈ l ↔ i < 4 ∧ (co.strand i).live = true ∧ (co.strand i).pc = y.pc ∧ ∃ n k, (co.strand i).wait = .joinWord n k)) ∧
    (2 ^ 16 ≤ y.age →
      exec (.ageLevelUp c st) s = .next (s.modStrand c st (fun y => { y with age := 0, level := y.level + 1 }))) ∧
    (∀ t b, y.wait = .sleep t b → t ≤ s.aon → exec (.sleepExpire c st) s = .next (s.modStrand c st (Strand.wake (s.clockOf c)))) ∧
    (∀ t b, y.wait = .yield t b → t ≤ s.clockOf c →
      exec (.yieldTimeout c st) s = .next (s.modStrand c st (Strand.wake (s.clockOf c)))) ∧
    (y.join ≠ some y.pc → Strand.wake (s.clockOf c) y = { y with wait := .none, readySince := s.clockOf c }) ∧
    (∀ id a, Tab.find s.arrivals id = some a → a.course < 8192 →
      exec (.longLatencyArrival id) s = .next (tidy a.course (wakeResult id a.course (deliverArrival id a s))) ∧
      (lanesLeft id s = 0#32 → a.sent = 0#32 → a.bad = 0#32 → ∀ co, s.course a.course = some co →
        ∃ co', (deliverArrival id a s).course a.course = some co' ∧ Tab.find (deliverArrival id a s).arrivals id = none ∧
          (∀ n l, n < 64 → l < 32 → co'.vAt n l =
            if a.lanes.getLsbD l && co.heldLanes.getLsbD l then Entry.receive id (some (vget a.vals 0 l)) false (co.vAt n l)
            else co.vAt n l) ∧
          (∀ i n l, i < 4 → n < 16 → l < 32 → (co'.strand i).queueAt l n =
            if a.lanes.getLsbD l then Entry.receive id (some (vget a.vals 0 l)) false ((co.strand i).queueAt l n)
            else (co.strand i).queueAt l n) ∧
          (∀ i n l, i < 4 → n < 32 → lowLane a.lanes = some l → vget (co'.strand i).g {} n =
            if (vget (co.strand i).g {} n).await = some (8 * id) then { val := extendG a.words a.signed (vget a.vals 0 l) }
            else vget (co.strand i).g {} n) ∧
          (∀ n l, n < 8 → l < 32 → (vget co'.p 0#32 n).getLsbD l =
            if n < 7 && n == a.pdst && a.lanes.getLsbD l && co.heldLanes.getLsbD l then a.pbits.getLsbD l
            else (vget co.p 0#32 n).getLsbD l) ∧
          co'.fpflags = co.fpflags ||| a.fl.setWidth 32)) ∧
    (∀ id a, Tab.find s.arrivals id = none → Tab.find s.accesses id = some a → a.undecided = false →
      exec (.longLatencyArrival id) s = .next (tidy a.course (wakeResult id a.course (deliverAccess id a s))))

/-- R135, R150, R171, R179, R182, R185, R223, R425, R433: an access that need not wait is translated at its homes, checked lane by
lane, and performed, a LASTUSE with the drop of its lines after its lanes' reads; a store performed there is the only change of
memory, at its key: its bytes read back, and every other byte reads as before, but for those of a line kept under another key
slot, which is taken over. A copy-on-write ends with the block's references moved; a translation is dropped when its lease is
over; a granule operation is performed once its condition has come about, the atomics of a word on one 8-byte word of local store
together. That one event is for all lanes of a word, in ascending order, and the forwarding of an access, are the model's choices
(notes/assumptions/7.md, notes/assumptions/44.md). -/
def Obligations.AccessEvents : Prop :=
  ∀ (id : Nat) (s : State),
    (∀ a, Tab.find s.accesses id = some a → s.mustWait id a = false →
      (∀ pick, exec (.pageWalk id pick) s = .next (settle id (sendLanes id a (a.lanes.foldl (walkLane id a pick) (forwardAccess id a s))))) ∧
      ((∀ w, a.kind ≠ .lastuse w) → exec (.checkAccess id) s = .next (settle id (a.lanes.foldl (checkLane id a) s)) ∧
        exec (.homeWritePerformed id) s = .next (settle id (a.lanes.foldl (writeLane id a) s))) ∧
      (∀ w, a.kind = .lastuse w →
        (let s1 := a.lanes.foldl (checkLane id a) s
         exec (.checkAccess id) s = .next (settle id (checkLast id a s1 a.lanes []))) ∧
        (let s1 := a.lanes.foldl (writeLane id a) s
         exec (.homeWritePerformed id) s = .next (settle id ((lastLines a s1 id).foldl
           (fun acc e => dropLine (s.ctx a.ctx).dev e.1.ia e.2 acc) s1)))) ∧
      (∀ l x key, a.kind = .store → a.lanes = [(l, x)] → x.stage = .at_ key → x.checked a.kind = false → x.block = false →
        markedAll (s.courseD a.course) = none → Memory.wf s.mem = true →
        ∃ t, exec (.homeWritePerformed id) s = .next t ∧ Memory.readN t.mem key x.data.length = x.data ∧
          ∀ b, b < key ∨ key + x.data.length ≤ b →
            (s.allUnder x.slot key x.data.length = true ∨ b / 128 < key / 128 ∨ (key + x.data.length + 127) / 128 ≤ b / 128) →
            Memory.read t.mem b = Memory.read s.mem b)) ∧
    (∀ w, Tab.find s.cows id = some w → cowHeld s w = false →
      exec (.cowCopyComplete id) s = .next (({ finishCow w s with cows := Tab.del (finishCow w s).cows id }.unstall w.desc).unstall (cowRoom w.core))) ∧
    (∀ g, Tab.find s.gran id = some g → granReady s id g = true →
      exec (.granuleOpComplete id) s = .next (tidy g.course ((granGroup id g s).foldl serveGran s)) ∧
      (g.kind.isAtomic = false → granGroup id g s = [id]) ∧
      (g.kind.isAtomic = true → ∀ i, i ∈ granGroup id g s ↔ ∃ e, (i, e) ∈ s.gran ∧ e.word = g.word ∧ e.kind.isAtomic = true ∧
        e.team = g.team ∧ e.off / 8 = g.off / 8) ∧
      ((s.team g.team).isSome = true → serveGran s id = performGran g { s with gran := Tab.del s.gran id })) ∧
    (∀ dev ia, dev < 4 → ∃ t, exec (.leaseExpire dev ia) s = .next t ∧ { t with devs := s.devs } = s ∧
      (∀ d, d ≠ dev → t.dev d = s.dev d) ∧ { t.dev dev with tlb := (s.dev dev).tlb } = s.dev dev ∧
      ∀ e, e ∈ (t.dev dev).tlb ↔ e ∈ (s.dev dev).tlb ∧ ¬(e.1 = ia / 4096 ∧ e.2.expiry ≤ s.aon))

/-- R197, R198, R206, R211, R212, R262, R253, R258: the copy channels, the streams, the collective and the swatch engine of a
core: the record at the head of a channel that can be claimed is claimed; a claimed record moves what can be moved, and completes
with status 1 once everything has, or with its failure; a table is replaced as one step; the operation at the head of a queue is
performed as far as it can be. That the notice of a SWSEND counts among the RSTVs outstanding, and status 7 before any other check
(notes/assumptions/33.md), and how a failed table load ends (notes/assumptions/28.md), are the model's choices. -/
def Obligations.CopyEvents : Prop :=
  ∀ (core id ch st : Nat) (s : State),
    (∀ t, claimHead core ch s = some t → exec (.recordClaim core ch) s = .next t) ∧
    (∀ r s1 r1, Tab.find (s.core core).claimed id = some (ch, r) →
      (runRecord core id ch r s = (s1, r1, .moved) →
        exec (.recordComplete core id) s = .next (completeRecord core id ch r1 1 0 s1)) ∧
      (∀ e, runRecord core id ch r s = (s1, r1, .fail e) →
        exec (.recordComplete core id) s = .next (completeRecord core id ch r1 e r1.foff s1))) ∧
    (exec (.streamFill core st) s = .next ((teamsOn s core).foldl (fun acc t => fillStream t st acc) s)) ∧
    (∀ o va ctl rest, let c := vget (s.core core).chans {} ch
      c.loading = true → c.items = .codebook o va ctl :: rest →
      exec (.codebookLoadComplete core ch) s = .next (loadTable core ch o va ctl (16 * bitsOf ctl 0 13 + 2) s) ∧
      (c.failed = true → exec (.codebookLoadComplete core ch) s = .next (endLoad core ch o none s)) ∧
      (c.failed = false → c.asked = false → 16 * bitsOf ctl 0 13 ≤ c.got.length →
        exec (.codebookLoadComplete core ch) s = .next (endLoad core ch o (some (tableOfBytes o ctl c.got)) s)) ∧
      ∀ t, endLoad core ch o (some t) s = reapTeam o.team (fencesOf core (engineEnd core o.launch ((s.modChan core ch (fun y => { y with
        items := y.items.drop 1, loading := false, got := [], asked := false, failed := false })).modCore core
          (fun k => { k with codebook := some t }))))) ∧
    (∀ o rest, (s.core core).collq = o :: rest → o.fence = none → vaHeld s o.owner.ctx o.desc 64 true = false →
      ∀ (r : CollReply) s1 b,
      collRead (s.ctx o.owner.ctx) o.desc 64 s = (s1, some b) →
      Tab.getD (s.dev (s.ctx o.owner.ctx).dev).groupDevs [] (collGroup s o) = [] → r.mismatch = false →
      collHeld s1 o (CollDesc.ofBytes b) r.contribs.length = false →
      collBad (CollDesc.ofBytes b) r.contribs.length = false → r.failed = none →
      exec (.collectiveComplete core r) s = .next (performColl core o r (CollDesc.ofBytes b) s1)) ∧
    (∀ o rest, (s.core core).swq = o :: rest → o.fence = none → o.out = 0 →
      (o.fate.isSome = true → exec (.swatchOpComplete core) s = .next (settleSw core s)) ∧
      (o.fate = none → swOpcode o = 0x1C4#9 → exec (.swatchOpComplete core) s = .next (stepSize core o s)) ∧
      (o.fate = none → swOpcode o ≠ 0x1C4#9 →
        (o.params = none → exec (.swatchOpComplete core) s = .next (finishSw core o 7 0 0 s)) ∧
        ∀ q, o.params = some q → exec (.swatchOpComplete core) s = .next (stepSw core o q s))) ∧
    (∀ o rest q, (s.core core).swq = o :: rest → o.params = some q → noticeDue s core = true →
      exec (.swsendNotice core) s = .next (sendRstv o.owner core (BitVec.ofNat 64 o.c) (bitsOf o.word.toNat 0 6)
        (laneWords (fun l => if l = 0 then q.m else 0)) true
        (modOwner o.owner (fun co => { co with rstvOut := co.rstvOut + 1 }) (setSw core { o with note := some none } s))))

/-- R339, R340, R346, R347, R351, R355: the matrix engine: the operation at the head starts, an MMA is attempted and an other
operation completes; every 2^24 engine cycles the rail code takes the step of its rule, never above 34, and the counts of the
period restart at zero; the norm check that arrived first is made. R338: the sideband of a tile follows its elements: the sum of a
row of finite ones is their sum, and none of them is left out. That the sideband covers every tile, in exact units of 2^-149
(notes/assumptions/63.md), and that engine cycles are those of the die's clock (notes/assumptions/32.md), are the model's choices.
-/
def Obligations.MatrixEvents : Prop :=
  ∀ (core : Nat) (s : State),
    (∀ o rest, (s.core core).mq = o :: rest → o.fence = none →
      (∀ r, ((fencesOf core s).core core).mq = o :: r → o.started = false →
        exec (.matrixOpStart core) s = .next (startMat core o (fencesOf core s))) ∧
      (o.started = true → o.isMma = true → ∀ errs, exec (.mmaAttemptComplete core errs) s = .next (attemptMma core o errs s)) ∧
      (o.started = true → o.isMma = false → exec (.matrixOpComplete core) s = .next (completeMat core o s))) ∧
    (let k := s.core core
     k.railAt + 2 ^ 24 ≤ (s.die (core / 64)).clock → k.vcode ≤ 34 →
      ∃ t, exec (.railEvaluate core) s = .next t ∧ OnlyCore core s t ∧
        { t.core core with vcode := k.vcode, perCor := k.perCor, perMacs := k.perMacs, railAt := k.railAt } = k ∧
        (t.core core).perCor = 0 ∧ (t.core core).perMacs = 0 ∧ (t.core core).railAt = k.railAt + 2 ^ 24 ∧
        (t.core core).vcode ≤ 34 ∧
        (k.vtarget ≠ 0 → k.hold = true ∨ k.perMacs < 2 ^ 30 → (t.core core).vcode = k.vcode) ∧
        (k.vtarget ≠ 0 → k.hold = false → 2 ^ 30 ≤ k.perMacs → k.perCor * 2 ^ 31 < k.vtarget * k.perMacs →
          (t.core core).vcode = k.vcode - 1) ∧
        (k.vtarget ≠ 0 → k.hold = false → 2 ^ 30 ≤ k.perMacs → k.vtarget * k.perMacs < k.perCor * 2 ^ 29 →
          (t.core core).vcode = min 34 (k.vcode + 1))) ∧
    (∀ (t : Tile) (g : Nat → Nat → Option Word), (t.put g).side = sideOf (t.put g).elems ∧
      ∀ i, i < 32 → (∀ j, j < 32 → (unitsOf (vget t.elems 0#32 (32 * i + j))).isSome = true) →
        vget (sideOf t.elems).rows 0 i = ((List.range 32).map (fun j => (unitsOf (vget t.elems 0#32 (32 * i + j))).getD 0)).sum ∧
        (sideOf t.elems).rowsOut.getLsbD i = false) ∧
    (∀ n rest, (s.dev s.bank).norms = n :: rest →
      exec .normMonitorCheck s = .next (normCheck n (s.modDev s.bank (fun d => { d with norms := rest }))))

/-- R228 to R230, R239, R247, R248: a value of another core is taken by its register, waits in the core's buffer, is refused, or is
NAKed and sent again; a flit of unlisted traffic or of an old incarnation is dropped and counted, a duplicate is discarded, a
new one is released in send order; a lane that is lost fails its link, and a link comes back with a successful retraining, or
tries again after 20 and 40 ms. The codes 0xFFFF of a NAK and 0xFFFE of a value that waits in a buffer (notes/assumptions/30.md),
and the lane field 0xFFFFFFFF and the record after every failed retraining (notes/assumptions/39.md), are the model's choices. -/
def Obligations.DeliveryEvents : Prop :=
  ∀ (id core port link lane : Nat) (f : Flit) (s : State),
    (∀ r, Tab.find s.rstvs id = some r → r.nak = false →
      (∀ a, rstvFate s id r = .take a → exec (.rstvDelivery id) s =
        .next (tellPlace r (answerPod r 0 (rstvOver r (noteResult r true (putRstv r a (countRstv r (dropRstv id s)))))))) ∧
      (∀ k, rstvFate s id r = .buffer k → exec (.rstvDelivery id) s = .next (tellPlace r (answerPod r 0xFFFE (noteResult r true
        ((countRstv r (dropRstv id s)).modCore k (fun c => { c with rbuf := c.rbuf ++ [r] })))))) ∧
      (∀ n, rstvFate s id r = .refuse n →
        exec (.rstvDelivery id) s = .next (noteResult r false (refuseRstv r n (countRstv r (dropRstv id s))))) ∧
      (rstvFate s id r = .nak →
        exec (.rstvDelivery id) s = .next (answerPod r 0xFFFF { s with rstvs := Tab.put s.rstvs id { r with nak := true } }))) ∧
    (∀ r, Tab.find s.rstvs id = some r → r.nak = true → olderNak s id r = false →
      exec (.rstvRetry id) s = .next (sendStore r { s with rstvs := Tab.put s.rstvs id { r with nak := false, since := s.aon } })) ∧
    (∀ l r t a, firstDrain s core [] (s.core core).rbuf = some (l, r, t) → nameAt s r.target = some a →
      exec (.rstvBufferDrain core) s = .next (answerPod r 0 (rstvOver r (putRstv r a
        (s.modCore core (fun k => { k with rbuf := l ++ t })))))) ∧
    (let p := s.port port
     let l := vget p.links {} f.link
     let s1 := linkReceived port f s
     (l.up = false ∨ f.lseq ≠ l.awaited → exec (.flitReceive port f) s = .next s) ∧
     (l.up = true → f.lseq = l.awaited →
      (f.kind = .dataLink ∨ f.seq < p.expect ∨ p.held.any (fun g => g.seq == f.seq) = true →
        exec (.flitReceive port f) s = .next s1) ∧
      (f.kind ≠ .dataLink → p.expect ≤ f.seq → p.held.any (fun g => g.seq == f.seq) = false →
        exec (.flitReceive port f) s = .next (releaseFlits port (p.held.length + 1) (s1.modPort port (fun y => { y with
          held := insertFlit f y.held })))) ∧
      (port < 12 → f.kind ≠ .dataLink → f.seq = p.expect → p.held = [] →
        exec (.flitReceive port f) s = .next (takeFlit port f (s1.modPort port (fun y => { y with expect := y.expect + 1 })))))) ∧
    (flitListed f = false ∨ (f.body ≠ .join ∧ f.incarn ≠ knownIncarn s (devOfPort s.mode port) f.src) →
      takeFlit port f s = s.modPort port (fun y => { y with dropped := y.dropped + 1 })) ∧
    (let s1 := s.modPort port (fun p => { p with lanesUp := vset p.lanesUp lane false })
     exec (.laneLockLoss port lane) s =
       .next (if (vget (s.port port).links {} (lane / 4)).up then failLink port (lane / 4) lane s1 else s1)) ∧
    (let l := vget (s.port port).links {} link
     (l.up = false → l.retrains < 3 → l.nextTry ≤ s.aon →
      exec (.linkRetrain port link true) s = .next (flushEgress (devOfPort s.mode port) ((s.modLink port link (fun y => { y with
        up := true, lanes := 4, retrains := 0, next := 0, awaited := 0 })).modPort
          port (fun p => { p with lanesUp := vmapIdx (fun i b => b || i / 4 == link) p.lanesUp }))) ∧
      exec (.linkRetrain port link false) s = .next (linkDegraded port link 0xFFFFFFFF (s.modLink port link (fun y => { y with
        retrains := y.retrains + 1, nextTry := s.aon + 10000000 * 2 ^ (y.retrains + 1) })))) ∧
     (l.up = true →
      exec (.linkLevelReplay port link true) s = .next (s.modLink port link (fun y => { y with replays := 0 })) ∧
      exec (.linkLevelReplay port link false) s = .next (if l.replays + 1 < 16
        then s.modLink port link (fun y => { y with replays := y.replays + 1 }) else failLink port link 0xFFFFFFFF s)))

/-- R232, R233, R236 to R240, R431, R463: requests between devices: one is served once, its reply kept by its number; a stale one
drops the cached translation and fetches again; a shoot-down drops the entries it covers, is acknowledged when what used them has
left, and ends with 1, or with the number of silent devices, which are refused from then on; a peer with a new incarnation starts
anew, and a silent one is fenced. The code of a NAK (notes/assumptions/30.md), and what of another package stands in
State.podReply and in the arguments of these events (notes/assumptions/38.md, notes/assumptions/58.md), are the model's own. -/
def Obligations.RemoteEvents : Prop :=
  ∀ (id dev : Nat) (s : State),
    (∀ q : RemoteReq, q.incarn ≠ knownIncarn s dev q.src →
      exec (.remoteRequest dev q) s = .next (s.modDev dev (fun d => { d with oldDropped := d.oldDropped + 1 }))) ∧
    (∀ q : RemoteReq, q.incarn = knownIncarn s dev q.src → (Tab.getD (s.dev dev).peers {} q.src).refused = true →
      exec (.remoteRequest dev q) s = .next (answerReq dev q 0x0902 [] (noteAnswer dev q 0x0902 [] s))) ∧
    (∀ q : RemoteReq, q.incarn = knownIncarn s dev q.src → q.kind ≠ .fetch →
      let peer := Tab.getD (s.dev dev).peers {} q.src
      peer.refused = false →
      (∀ r, Tab.find peer.done q.seq = some r → exec (.remoteRequest dev q) s = .next (answerReq dev q r.1 r.2 s)) ∧
      (Tab.find peer.done q.seq = none → heldRequest s dev q = true → exec (.remoteRequest dev q) s = .next (keepHeld dev q s)) ∧
      (Tab.find peer.done q.seq = none → heldRequest s dev q = false →
        (∀ s1 code vals, serve dev q s = .done s1 code vals → exec (.remoteRequest dev q) s = .next (answerReq dev q code vals
          (modPeer dev q.src (fun p => { p with stale := Tab.del p.stale q.seq, done := Tab.put p.done q.seq (code, vals) })
            (dropHeld dev q s1)))) ∧
        (serve dev q s = .held → exec (.remoteRequest dev q) s = .next (keepHeld dev q s)) ∧
        (serve dev q s = .stale → exec (.remoteRequest dev q) s = .next (answerReq dev q cStale []
          (modPeer dev q.src (fun p => { p with stale := Tab.put p.stale q.seq (q.ia / 128) }) (dropHeld dev q s)))))) ∧
    (∀ q, Tab.find s.remotes id = some q →
      (q.gen.isSome = true → nakked s q = true → exec (.staleNak id) s = .next (sendOut { q with gen := none }
        { s.modDev q.dev (fun d => { d with podTlb := d.podTlb.filter (fun e =>
            !(e.ctx == q.ctx && e.pod == q.pod && e.page ≤ q.ia / 4096 && q.ia / 4096 < e.page + e.pages)) }) with
          remotes := Tab.put s.remotes id { q with gen := none } })) ∧
      ((s.devOfPod q.pod).isSome = true → ∀ code vals, givenReply s q = some (code, vals) →
        ∀ r, exec (.remoteCompletion id r) s = .next (remoteFinish id code vals s)) ∧
      ((s.devOfPod q.pod).isSome = false → ∀ r : RemoteReply,
        (r.incarn ≠ q.incarn → exec (.remoteCompletion id r) s =
          .next (s.modDev q.dev (fun d => { d with oldDropped := d.oldDropped + 1 }))) ∧
        (r.incarn = q.incarn → waitsToLeave s q = false → q.gen.isSome = true →
          exec (.remoteCompletion id r) s = .next (remoteFinish id r.code.toNat r.vals s))) ∧
      (q.gen = none → kindQuery q.kind = false →
        (∀ e r, podEntry s q = some e → exec (.podTranslationFetch id r) s = .next (setGen id q e.gen s)) ∧
        (∀ r : PodReply, podEntry s q = none → (s.devOfPod q.pod).isSome = false →
          exec (.podTranslationFetch id r) s = .next
            (if r.granted = true then setGen id q r.gen (cachePod q r s) else remoteFinish id cOwnerFault [] s)))) ∧
    (∀ owner ia sz, dev < 4 → ∃ t, exec (.shootDownReceive dev owner ia sz) s = .next t ∧ { t with devs := s.devs } = s ∧
      (t.dev dev).sdRecv = (s.dev dev).sdRecv ++ [(owner, ia, sz)] ∧
      (let n := pageBytes sz / 4096
       let first := ia / 4096 / n * n
       ∀ e, e ∈ (t.dev dev).podTlb ↔ e ∈ (s.dev dev).podTlb ∧ ¬(e.pod = owner ∧ first < e.page + e.pages ∧ e.page < first + n))) ∧
    (∀ h rest silent, (s.dev dev).sdQueue = h :: rest →
      let l := h.due.filter (fun p => silent.contains p || (s.devOfPod p).isSome)
      h.sent = true → h.since + 1000 * (s.dev dev).podTimeout ≤ s.aon → l ≠ [] →
      exec (.shootDownTimeout dev silent) s = .next (endShoot dev (2 + 2 ^ 32 * l.length)
        (l.foldl (fun acc p => lostPeer dev p (modPeer dev p (fun x => { x with refused := true }) acc)) s))) ∧
    (∀ h rest, (s.dev s.bank).sdQueue = h :: rest → h.sent = true → h.due = [] →
      exec .shootDownComplete s = .next (endShoot s.bank 1 s)) ∧
    (∀ owner ia sz rest, (s.dev s.bank).sdRecv = (owner, ia, sz) :: rest → undrained s s.bank owner ia sz = false →
      let s1 := s.modDev s.bank (fun d => { d with sdRecv := rest })
      (s.devOfPod owner = none → exec .shootDownDrained s =
        .next (sendFlit s.bank owner (.shootAck ia sz) { s1 with podReply := (0, [toBytes 8 ia, toBytes 1 sz]) })) ∧
      (∀ o, s.devOfPod owner = some o → exec .shootDownDrained s = .next (ackFrom o (podOf s s.bank) s1))) ∧
    (((s.dev s.bank).sdQueue.filter (fun h => !h.sent)).length < 16 →
      let d := s.dev s.bank
      exec .sdgoWrite s = .next (startShoot s.bank (s.modDev s.bank (fun y => { y with sdQueue := y.sdQueue ++
        [{ ia := bitsOf d.sdia.toNat 12 36 * 4096, sz := bitsOf d.sdctl.toNat 0 3, asid := bitsOf d.sdctl.toNat 16 16
           done := d.sddone.toNat }] })))) ∧
    (∀ peer incarn, s.devOfPod peer = none →
      let p := Tab.getD (s.dev dev).peers {} peer
      p.incarn ≠ incarn ∨ p.fenced = true →
      exec (.joinAnnouncement dev peer incarn) s =
        (let s1 := modPeer dev peer (fun _ => { incarn := incarn, told := p.told, refused := p.refused && p.incarn == incarn })
          (dropPod dev peer s)
         .next (lostPeer dev peer (newSequences dev peer (refuseOld dev peer
           ((requestsTo s dev peer).foldl (fun acc i => remoteFinish i cPeerReset [] acc) (dropOld dev peer p s1))))))) ∧
    (∀ peer, s.remotes.any (fun e => e.2.dev == dev && e.2.pod == peer && e.2.since + 1000 * (s.dev dev).podTimeout ≤ s.aon) = true →
      peerFenced s dev peer = false →
      exec (.podTimeout dev peer) s = .next (lostPeer dev peer
        ((requestsTo s dev peer).foldl (fun acc i => remoteFinish i cTargetUnavailable [] acc)
          (modPeer dev peer (fun p => { p with fenced := true }) (dropPod dev peer s)))))

/-- R23, R157, R226, R375 to R379, R387, R390, R391: a hint for migration begins, and ends with the tier flipped or abandoned;
kicks are kept for the queues there are; a scan takes every kicked queue in order; a command becomes a launch, a panel's members
start as there is room, a slot set to BIND binds its course, and a launch that is done writes its completion word; a course is
unbound, saved, and bound again, its team restored first; R414: a debugger pre-empts every bound course of a team, at once or at
the next first attempt of an MMA. Which far die's engine takes a hint and where its pools come from (notes/assumptions/55.md,
notes/assumptions/53.md), the payload of a journal entry of kind 3 (notes/assumptions/43.md), the order of bytes inside a save
record (notes/assumptions/40.md), and that places are Belaujor's arguments (notes/assumptions/12.md, notes/assumptions/36.md) are
the model's choices. -/
def Obligations.DispatchEvents : Prop :=
  ∀ (c far dev : Nat) (s : State),
    (∀ m rest, (s.migEngine far).active = none → (s.migEngine far).queue = m :: rest → migHeld s m = false →
      (migStarts s far m = false →
        exec (.migrationStart far) s = .next (dropHint m.ctx (s.modMig far (fun e => { e with queue := rest })))) ∧
      (migStarts s far m = true → m.block = false →
        exec (.migrationStart far) s = .next (s.modMig far (fun e => { e with
          queue := rest
          active := some { m with dest := (poolOf s far m).head?.getD 0, table := if m.enc then (s.core m.core).codebook else none }
          pools := Tab.put e.pools (poolKey m.ctx (!m.block) m.promote) ((poolOf s far m).drop 1) })))) ∧
    (∀ m, (s.migEngine far).active = some m →
      let s1 := s.modMig far (fun e => { e with active := none })
      let back := (s.modMig far (fun e => { e with
        active := none
        pools := Tab.put e.pools (poolKey m.ctx (!m.block) m.promote) (m.dest :: poolOf s far m) })).unstall m.ia
      (m.block = false → exec (.migrationFlip far) s = .next ((flipPage m s1).unstall m.ia) ∧
        exec (.migrationAbandon far) s = .next back) ∧
      (m.block = true → ∀ t, flipBlock m s1 = some t → exec (.migrationFlip far) s = .next (t.unstall m.ia))) ∧
    (∀ a b, markerHeld s dev a b = false → exec (.drainMarker dev a b) s = .next (s.modDev dev (fun d => { d with markers := d.markers.erase (a, b) }))) ∧
    (∀ j v, dev < 4 → j < 16 → ∃ t, exec (.kickWrite dev j v) s = .next t ∧ { t with devs := s.devs } = s ∧
      ∀ i, i < 64 → (vget (t.dev dev).kick 0#64 j).getLsbD i =
        ((vget (s.dev dev).kick 0#64 j).getLsbD i || (v.getLsbD i && decide (64 * j + i < queuesIn s.mode)))) ∧
    (∀ q rest, (dispatchDie s dev).isSome = true → (s.dev dev).scanned = q :: rest →
      exec (.queueScan dev q) s = .next (takeQueue dev q (s.modDev dev (fun y => { y with
        scanned := rest, kick := clearKick q y.kick })))) ∧
    (∀ r rest m, (dispatchDie s dev).isSome = true → nextCommand s dev r.shape [] (s.dev dev).commands = some (rest, m) →
      let s1 := s.modDev dev (fun d => { d with commands := rest })
      (∀ code, soundCommand s dev m r.shape = .error code →
        exec (.commandLaunch dev r) s = .next (writeDone m.ctx (m.num 48 8) m.queue (m.num 56 8) code s1)) ∧
      (∀ y, soundCommand s dev m r.shape = .ok y → placesFit s dev r.shape (m.num 24 4) r.places = true →
        exec (.commandLaunch dev r) s = .next (createLaunch dev m r y s1))) ∧
    (∀ m, (s.dev s.bank).commands.find? (fun m => m.kind == 2) = some m → (dispatchDie s s.bank).isSome = true →
      exec .commandNop s = .next (s.modDev s.bank (fun y => { y with commands := y.commands.erase m }))) ∧
    (∀ panel y l p, Tab.find s.panels panel = some y → y.plan[y.members.length]? = some p → Tab.find s.launches y.launch = some l →
      y.members.length < y.nteams → canPlace s l (some panel) p = true →
      exec (.panelMemberStart panel p) s = .next
        (startTeam y.launch l (some (panel, y.members.length, y.scope)) (y.first + y.members.length) p s)) ∧
    (∀ lid l die, Tab.find s.launches lid = some l → dispatchDie s l.dev = some die → launchDone s lid l = true →
      ∃ t, exec (.launchComplete lid) s = .next t ∧ Tab.find t.launches lid = none) ∧
    (let e := slotAt s c
     e.state = .bind → bitOf e.rec_.gen 14 = false → recordFits e.rec_ (slotOf c) = true → ∀ t l, s.team e.rec_.team = some t → t.resident = true → Tab.find s.launches t.launch = some l →
      exec (.courseBind c) s = .next (setSlot c e.rec_ .run (s.setCourse c (boundCourse s c e.rec_ l t))) ∧
      let co := boundCourse s c e.rec_ l t
      co.liveStrands = [0] ∧ (co.strand 0).pc = e.rec_.entryPc ∧ (co.strand 0).mask = 0xFFFFFFFF#32) ∧
    (∀ co, s.course c = some co → (slotAt s c).state = .run → co.cstate = .run → dispatching s (dieOf c) = true →
      exec (.preempt c) s = .next (unbindSlot c (journal (dieOf c) 3 (coreOf c % 64) (slotOf c) (slotAt s c).rec_.bytes s))) ∧
    (∀ co, s.course c = some co → (s.ctx co.ctx).priv = true →
      inject (.now c) s = preemptTeam co.team s ∧ inject (.atMma c) s = { s with armed := co.name :: s.armed.filter (· != co.name) } ∧
      ∀ o, s.armed.contains o.name = true →
        firePreempt o s = preemptTeam o.team { s with armed := s.armed.filter (· != o.name) }) ∧
    (∀ co, s.course c = some co → saveReady s c = true →
      ∃ t, exec (.courseSaveComplete c) s = .next t ∧ t.course c = none ∧ (slotAt t c).state = .saved ∧
        ∃ v, Tab.find t.saved (savedKey co.ctx co.saveIdx) = some v ∧ v.course.name = co.name ∧ v.course.v = co.v ∧ v.course.p = co.p) ∧
    (∀ save v t q p, Tab.find s.saved save = some v → s.team v.course.team = some t → slotFree s c = true →
      dispatching s (dieOf c) = true → heldForPanel s t.panel (coreOf c) = false → resumePlace s c v t p = some q →
      let r := resumeRec v c { t with lsBase := q.lsBase, tile0 := q.tile0, bar0 := q.bar0 }
      let s1 := setSlot c r .bind (journal (dieOf c) 2 (coreOf c % 64) (slotOf c) r.bytes s)
      recordFits r (slotOf c) = true → ∀ s2, restoreFirst v.course.team t (coreOf c) q s1 = some s2 → ∀ b, readImage s1 save = some b →
      (imageSound b = true → exec (.courseResume c save p) s = .next (tidy c (setSlot c r .run (bindSaved c save v b s2)))) ∧
      (imageSound b = false → exec (.courseResume c save p) s = .next (saveCorrupt c (imageVa s1 save) v s1))) ∧
    (∀ tid t p, t.resident = false → ∀ l, readTeam s t = some l →
      restoreFirst tid t (coreOf c) p s = if tilesSound t l = true then some (restoreTeam tid (coreOf c) p l s) else none)

/-- R15, R157, R420, R421, R423, R429, R433, R463, R473: the commands of a device's hub, each the head of its queue: a context is
created, updated or destroyed, or refused, with the status in the descriptor's word; an ASID is free again after the lease; a
region table is staged once its moved granules have been copied, one after another, and comes into force under the next
generation; a key is established and loaded. That a granule takes a nanosecond is the model's choice (notes/assumptions/52.md). So
are the order of the checks of a create and the codes of an update and a destroy that find no context (notes/assumptions/14.md),
and what a line reads as under another key (notes/assumptions/10.md, notes/assumptions/69.md). -/
def Obligations.HubEvents : Prop :=
  ∀ (s : State),
    let b := s.bank
    (∀ desc s1 d, headCmd s 1 = some (desc, s1) → iaRead s1 b desc 1024 = some d →
      (∀ st c, createResult s1 b d = (st, some c) → exec .contextCreate s = .next (cmdStatus b desc st
        (fixMode (modeOf (descNum d 2 1)) { s1 with ctxs := Tab.put s1.ctxs (65536 * b + c.asid) { c with toHost := headHost s } }))) ∧
      (∀ st, createResult s1 b d = (st, none) → exec .contextCreate s = .next (cmdStatus b desc st s1))) ∧
    (∀ desc s1 d, headCmd s 2 = some (desc, s1) → iaRead s1 b desc 1024 = some d →
      let ctx := 65536 * b + descNum d 0 2
      (Tab.find s1.ctxs ctx = none → exec .contextUpdate s = .next (cmdStatus b desc 2 s1)) ∧
      ((Tab.find s1.ctxs ctx).isSome = true → updateOk s1 b d = true → exec .contextUpdate s =
        .next (cmdStatus b desc 0 (refuseWaiting ctx ((s1.modCtx ctx (updated s1 b d)).dropWindow ctx))))) ∧
    (∀ desc s1 d, headCmd s 3 = some (desc, s1) → iaRead s1 b desc 2 = some d →
      let ctx := 65536 * b + fieldOf d 0 2
      (Tab.find s1.ctxs ctx = none → exec .contextDestroy s = .next (cmdStatus b desc 2 s1)) ∧
      ((Tab.find s1.ctxs ctx).isSome = true → exec .contextDestroy s =
        .next (cmdStatus b desc 0 ((freeFences ((purge ctx s1).dropWindow ctx)).modDev b (fun y => { y with
          held := y.held.filter (fun h => h.asid != fieldOf d 0 2) ++ [{ asid := fieldOf d 0 2, till := s.aon + 1000 * y.lease }] }))))) ∧
    (∀ dev asid, dev < 4 → ∃ t, exec (.asidHoldExpire dev asid) s = .next t ∧ { t with devs := s.devs } = s ∧
      ∀ h, h ∈ (t.dev dev).held ↔ h ∈ (s.dev dev).held ∧ ¬(h.asid = asid ∧ h.till ≤ s.aon)) ∧
    (exec .ctxstatRead s = .next ({ s with hostRead := BitVec.ofNat 64 (2 * min 16 (s.dev b).ctxQueue.length +
      (if (s.dev b).ctxOvf then 64 else 0)) }.modDev b (fun y => { y with ctxOvf := false }))) ∧
    (∀ ia s1, headMap s 1 = some (ia, s1) → (s.dev b).move = none →
      (stagedTable s1 b = none → exec .mapMove s = .next (hubWord b 0 ia 1 s1)) ∧
      (∀ l, stagedTable s1 b = some l →
        (movedFrom (s.dev b).regions l 0 = none →
          exec .mapMove s = .next (hubWord b 0 ia 0 (s1.modDev b (fun d => { d with staged := l, move := none })))) ∧
        (∀ r, movedFrom (s.dev b).regions l 0 = some r →
          exec .mapMove s = .next (s.modDev b (fun d => { d with move := some (l, r, 0, s.aon) }))))) ∧
    (∀ ia s1 l r g since, headMap s 1 = some (ia, s1) → (s.dev b).move = some (l, r, g, since) → since < s.aon →
      (∀ r' g', nextGranule (s.dev b).regions l r g = some (r', g') →
        exec .mapMove s = .next (s.modDev b (fun d => { d with move := some (l, r', g', s.aon) }))) ∧
      (nextGranule (s.dev b).regions l r g = none →
        exec .mapMove s = .next (hubWord b 0 ia 0 (s1.modDev b (fun d => { d with staged := l, move := none }))))) ∧
    (∀ ia s1, headMap s 2 = some (ia, s1) → switchHeld s b = false → (s.dev b).staged ≠ [] →
      exec .mapSwitch s = .next (hubWord b 0 ia 0 (s1.modDev b (fun y => { y with
        regions := (s.dev b).staged, oldRegions := (s.dev b).regions, staged := [], mapGen := (y.mapGen + 1) % 256
        markers := markersOf (s.dev b).regions (s.dev b).staged })))) ∧
    (∀ n s1, headKey s 1 = some (n, s1) →
      (∀ k, Config.decapsulate (s.dev b).kempk (s.dev b).kemct = some k →
        exec .klEstablish s = .next (s1.modDev b (fun d => { d with kek := some k, klStat := 0 }))) ∧
      (Config.decapsulate (s.dev b).kempk (s.dev b).kemct = none → exec .klEstablish s = .next (s1.modDev b (fun d => { d with klStat := 1 })))) ∧
    (∀ n s1, headKey s 2 = some (n, s1) →
      ((s.dev b).kek = none ∨ n = 0 → exec .klLoad s = .next (s1.modDev b (fun y => { y with klStat := 1 }))) ∧
      (∀ k w key, n ≠ 0 → (s.dev b).kek = some k → iaRead s b (s.dev b).klKey.toNat 72 = some w → Config.unwrap k w = some key →
        exec .klLoad s = .next ((rekeyLines b n (Tab.getD (s.dev b).keys [] n) key s1).modDev b (fun y => { y with
          keys := Tab.put y.keys n key, klStat := 0 }))))

/-- R370, R435, R436, R453, R454, R455, R458, R460: the window of the hub, the scheduler cores and the debugger: a heartbeat is
written, and missed for 1 ms, or an uncorrectable error, stops the active core; the standby takes over with the journal replayed;
a halted course goes on, or for one word; a granule is read; a notification is taken, oldest first; the telemetry page is written,
its SEQ first odd and then even, and be the page mapped read-only, which is the model's reading (DEDUCED,
notes/assumptions/51.md). So are the numbers in a take-over's record (DEDUCED, notes/assumptions/49.md) and what a resume that
comes too early does (DEDUCED, notes/assumptions/45.md). -/
def Obligations.SchedulerEvents : Prop :=
  ∀ (c die dev : Nat) (s : State),
    (∀ v, dispatching s die = true → exec (.heartbeatWrite die v) s =
      .next (s.modDie die (fun d => { d with sched := { d.sched with beat := v, beatAt := s.aon } }))) ∧
    (dispatching s die = true → (s.die die).sched.standby = true →
      let t := s.modDie die (fun d => { d with sched := { d.sched with running := false } })
      exec (.schedulerUe die) s = .next t ∧
      ((s.die die).sched.beatAt + 1000000 ≤ s.aon → exec (.heartbeatTimeout die) s = .next t)) ∧
    ((s.die die).fence = .none → (s.die die).sched.running = false → (s.die die).sched.standby = true → unapplied (s.die die) = [] →
      exec (.schedulerTakeover die) s = .next ((rescan (devOfDie s.mode die) (drainFifo die
        ((s.modDie die (fun y => { y with sched := { y.sched with running := true, standby := false, beatAt := s.aon } })).modDie die
          (fun y => { y with japplied := max y.japplied 0 })))).postMlog (devOfDie s.mode die)
            { code := cSchedTakeover, cls := cls4 0 0 0 0 })) ∧
    (∀ cls v, die < 8 → cls < 16 → ∃ t, exec (.wayallWrite die cls v) s = .next t ∧ { t with dies := s.dies } = s ∧
      ∀ i, i < 64 → Tab.find (t.die die).wayMask (16 * i + cls) = some (v.setWidth 16)) ∧
    (∀ co, s.course c = some co → ∃ t co', exec (.debugHalt c) s = .next t ∧ t.course c = some co' ∧ co'.halted.isSome = true ∧
      co'.quiesce = co.quiesce ∧ co'.stepping = none ∧
      ∃ t' co'', exec (.debugHaltQuiesce c) s = .next t' ∧ t'.course c = some co'' ∧ co''.halted.isSome = true ∧ co''.quiesce = true) ∧
    (stepDone s c = true → exec (.debugResume c) s =
      .next (s.modCourse c (fun y => { y with halted := none, quiesce := false, stepping := none, stepQueues := [] }))) ∧
    (∀ co, s.course c = some co → co.halted.isSome = true → stepDone s c = true →
      exec (.debugStep c) s = .next (s.modCourse c (fun _ => { co with stepping := some 1, stepQueues := [] })) ∧
      exec (.debugStepWait c) s = .next (s.modCourse c (fun _ => { co with stepping := some 2, stepQueues := [] }))) ∧
    (stepDone s c = false → exec (.debugResume c) s = .next s ∧ exec (.debugStep c) s = .next s ∧
      exec (.debugStepWait c) s = .next s) ∧
    (∀ co t off, s.course c = some co → s.team co.team = some t → off < 16 * t.lsSize →
      ∃ u, exec (.debugReadLs c off) s = .next u ∧ OnlyCore (coreOf c) s u ∧
        (u.core (coreOf c)).dbgData0 = BitVec.ofNat 64 (ofBytes (Memory.readN (s.core (coreOf c)).ls (16 * (t.lsBase + off / 16)) 8)) ∧
        (u.core (coreOf c)).dbgData1 = BitVec.ofNat 64 (ofBytes (Memory.readN (s.core (coreOf c)).ls (16 * (t.lsBase + off / 16) + 8) 8)) ∧
        (u.core (coreOf c)).dbgLs.getLsbD 0 = true) ∧
    (∀ n t, (s.dev s.bank).noteApp = n :: t →
      exec .noteappRead s = .next ({ s with hostRead := n.word }.modDev s.bank (fun d => { d with noteApp := t }))) ∧
    (∀ n t, (s.dev s.bank).noteHost = n :: t →
      exec .notehostRead s = .next ({ s with hostRead := n.word }.modDev s.bank (fun d => { d with noteHost := t }))) ∧
    (∀ asid x t, Tab.find s.ctxs (65536 * dev + asid) = some x → telemetryDue s x = true →
      (x.telSeq % 2 = 0 → devWriteAs false s (65536 * dev + asid) x.telPage.toNat (toBytes 8 (x.telSeq + 1)) = .ok t →
        exec (.telemetryUpdate dev asid) s = .next (t.modCtx (65536 * dev + asid) (fun y => { y with telSeq := y.telSeq + 1 }))) ∧
      (x.telSeq % 2 = 1 → devWriteAs false s (65536 * dev + asid) x.telPage.toNat (telemetryBytes x s.aon) = .ok t →
        exec (.telemetryUpdate dev asid) s = .next (t.modCtx (65536 * dev + asid) (fun y => { y with
          telSeq := y.telSeq + 1, telAt := s.aon }))))

/-- R17, R450, R461, R462, R470, R471, R472, R474 to R478: the platform: an aligned write of the management window reaches the
block that its address lies in, and is ignored elsewhere, at a fenced die, or from application cores that do not run, and LATTOL
and PTROOT read back; power-on starts the always-on counter at 0 and a warm reset keeps it; a die that has not answered the boot's
challenge within 10 ms fails authentication, and the boot goes on; a quiet die goes to its deepest allowed state, and a busy one
is active again; package time is corrected by an exchange; a report carries its requester's nonce; an image is kept until the next
reset. The places in the window that the spec does not lay out (notes/assumptions/53.md), the boot's results as arguments
(notes/assumptions/46.md, notes/assumptions/58.md), what counts as asked of a die (notes/assumptions/71.md), what an exchange of
package time does to it (notes/assumptions/48.md) and a sensor's four bytes (notes/assumptions/47.md) are the model's choices. -/
def Obligations.PlatformEvents : Prop :=
  ∀ (s : State) (die : Nat),
    (∀ host addr v, windowOpen host addr s = true →
      (addr < 0x40000 → exec (.registerWrite ⟨host, addr⟩ v) s = hubWrite host (addr / 0x10000) (addr % 0x10000) v s) ∧
      (0x40000 ≤ addr → addr < 0x100000 → exec (.registerWrite ⟨host, addr⟩ v) s = .next s) ∧
      (0x1000000 ≤ addr → addr < 0x9000000 → exec (.registerWrite ⟨host, addr⟩ v) s =
        nearWrite ((addr - 0x1000000) / 0x2000000) ((addr - 0x1000000) % 0x2000000) v s) ∧
      (0xB000000 ≤ addr → exec (.registerWrite ⟨host, addr⟩ v) s = .next s)) ∧
    (∀ host addr v, windowOpen host addr s = false → exec (.registerWrite ⟨host, addr⟩ v) s = .next s) ∧
    (∀ d, d < 4 → (s.die d).fence ≠ .none → ∀ off, off < 0x2000000 → windowOpen true (0x1000000 + 0x2000000 * d + off) s = false ∧
      windowRead (0x1000000 + 0x2000000 * d + off) s = 0#64) ∧
    (∀ host d v, d < 4 → windowOpen host (0x1072000 + 0x2000000 * d) s = true →
      ∃ t, exec (.registerWrite ⟨host, 0x1072000 + 0x2000000 * d⟩ v) s = .next t ∧
        windowRead (0x1072000 + 0x2000000 * d) t = BitVec.ofNat 64 (v.toNat % 2 ^ 20)) ∧
    (∀ host i v, i < 4 → windowOpen host (0x10000 * i + 0x60) s = true →
      ∃ t, exec (.registerWrite ⟨host, 0x10000 * i + 0x60⟩ v) s = .next t ∧
        windowRead (0x10000 * i + 0x60) t = v &&& 0x00000FFFFFFFF001#64) ∧
    (∀ b, ∃ t u, exec (.powerOn b) s = .next t ∧ t.aon = 0 ∧ exec (.warmReset b) s = .next u ∧ u.aon = s.aon ∧
      t.courses = [] ∧ u.courses = []) ∧
    (∀ b, s.booting = some b → s.bootAt + 10000000 ≤ s.aon → die ∈ unanswered s b →
      exec (.authenticationTimeout die) s = .next (bootOn b (s.modDie die (fun d => { d with fence := .authentication })))) ∧
    (s.booting = none ∨ s.aon < s.bootAt + 10000000 → exec (.authenticationTimeout die) s = .next s) ∧
    (entersState s die = true → ∃ t, exec (.powerStateEnter die) s = .next t ∧
      (t.die die).pstate = deepest (s.die die).lattol ∧ { t with dies := s.dies, cores := s.cores, cached := s.cached } = s ∧
      t.cached = if deepest (s.die die).lattol = 4 then s.cached.filter (fun e => e.die != die) else s.cached) ∧
    ((s.die die).pstate ≠ 0 → dieBusy s die = true → die < 6 → ∃ t, exec (.powerStateExit die) s = .next t ∧
      (t.die die).pstate = 0 ∧ { t with dies := s.dies, cores := s.cores } = s) ∧
    (∀ offset skew,
      (s.podMaster = true → exec (.pkgtimeExchange true offset skew) s =
        .next { s with pkgBase := s.pkgBase + offset, pkgSkew := skew, podSync := s.aon }) ∧
      (s.podMaster = false → exec (.pkgtimeExchange true offset skew) s = .next s) ∧
      (s.podMaster = true → exec (.pkgtimeExchange false offset skew) s = .next s) ∧
      (s.podMaster = false → exec (.pkgtimeExchange false offset skew) s =
        .next { s with pkgBase := s.pkgBase + offset, pkgSkew := if 4000#32 < skew then 4000#32 else skew })) ∧
    (syncLost s = true → exec .pkgtimeSyncLost s = .next { s with pkgSkew := 0xFFFFFFFF#32 }) ∧
    (∀ nonce, nonce.length = 32 → ∃ t, exec (.attestationRequest nonce) s = .next t ∧ t.nonce = nonce ∧ t.mgmtOut = s.mgmtOut ++ [report nonce s] ∧
      { t with nonce := s.nonce, mgmtOut := s.mgmtOut } = s) ∧
    (∀ img bytes, exec (.firmwareUpdate img bytes) s = .next { s with images := Tab.put s.images img bytes }) ∧
    (exec (.pldmMessage (.sensorPstate die)) s = .next { s with mgmtOut := s.mgmtOut ++ [toBytes 4 (s.die die).pstate] } ∧
     exec (.pldmMessage (.sensorVcode die)) s = .next { s with mgmtOut := s.mgmtOut ++ [toBytes 4 (s.core die).vcode] }) ∧
    (∀ on, exec (.powerControllerThrottle die on) s = .next (s.modDie die (fun d => { d with throttle := on })))
end

