-- ==== Sys2Proof/Laws/Memory.lean ====
section
/-! SUPPORT. Memory: a byte reads back as it was written, a write leaves every other byte alone, and every operation keeps
the canonical form. -/

namespace Sys2Proof.Machine

/-! ### The canonical form -/

theorem Memory.wfFrom_mono {lo lo' : Nat} {m : List Host.Cell} (h : lo' ≤ lo) (hm : Memory.wfFrom lo m = true) :
    Memory.wfFrom lo' m = true := by
  cases m with
  | nil => rfl
  | cons e t =>
    obtain ⟨k, b⟩ := e
    simp only [Memory.wfFrom, Bool.and_eq_true, decide_eq_true_eq] at hm ⊢
    exact ⟨⟨by omega, hm.1.2⟩, hm.2⟩

theorem Memory.wfFrom_write {lo a : Nat} {b : Byte} {m : List Host.Cell} (ha : lo ≤ a) (hm : Memory.wfFrom lo m = true) :
    Memory.wfFrom lo (Memory.write m a b) = true := by
  induction m generalizing lo with
  | nil =>
    simp only [Memory.write]
    split
    · rfl
    · simp_all [Memory.wfFrom]
  | cons e t ih =>
    obtain ⟨k, c⟩ := e
    simp only [Memory.wfFrom, Bool.and_eq_true, decide_eq_true_eq, bne_iff_ne, ne_eq] at hm
    obtain ⟨⟨hk, hc⟩, ht⟩ := hm
    simp only [Memory.write]
    split
    · split
      · simp [Memory.wfFrom, hk, hc, ht]
      · next hlt hb => simp [Memory.wfFrom, ha, hb, hc, ht]; omega
    · split
      · next hka =>
        split
        · exact Memory.wfFrom_mono (by omega) ht
        · next hb => subst hka; simp [Memory.wfFrom, ha, hb, ht]
      · next h1 h2 => simp [Memory.wfFrom, hk, hc]; exact ih (by omega) ht

theorem Memory.wf_write {a : Nat} {b : Byte} {m : List Host.Cell} (hm : Memory.wf m = true) :
    Memory.wf (Memory.write m a b) = true := Memory.wfFrom_write (Nat.zero_le a) hm

theorem Memory.wf_writeN {l : List Byte} {a : Nat} {m : List Host.Cell} (hm : Memory.wf m = true) :
    Memory.wf (Memory.writeN m a l) = true := by
  induction l generalizing a m with
  | nil => exact hm
  | cons b t ih => exact ih (Memory.wf_write hm)

theorem Memory.wf_writeCells {l m : List Host.Cell} (hm : Memory.wf m = true) : Memory.wf (Memory.writeCells m l) = true := by
  simp only [Memory.writeCells]
  induction l generalizing m with
  | nil => exact hm
  | cons e t ih => exact ih (Memory.wf_write hm)

theorem Memory.wfFrom_filter {lo : Nat} {m : List Host.Cell} (p : Host.Cell → Bool) (hm : Memory.wfFrom lo m = true) :
    Memory.wfFrom lo (m.filter p) = true := by
  induction m generalizing lo with
  | nil => rfl
  | cons e t ih =>
    obtain ⟨k, c⟩ := e
    simp only [Memory.wfFrom, Bool.and_eq_true, decide_eq_true_eq] at hm
    rw [List.filter_cons]
    split
    · simp only [Memory.wfFrom, Bool.and_eq_true, decide_eq_true_eq]
      exact ⟨hm.1, ih hm.2⟩
    · exact Memory.wfFrom_mono (by omega) (ih hm.2)

theorem Memory.wf_clear {lo n : Nat} {m : List Host.Cell} (hm : Memory.wf m = true) : Memory.wf (Memory.clear m lo n) = true :=
  Memory.wfFrom_filter _ hm

theorem Memory.wf_nil : Memory.wf [] = true := rfl

/-! ### Reading what was written -/

/-- Below the first key of a canonical memory every byte is unlisted. -/
theorem Memory.read_below {lo a : Nat} {m : List Host.Cell} (hm : Memory.wfFrom lo m = true) (ha : a < lo) :
    Memory.read m a = unlisted := by
  cases m with
  | nil => rfl
  | cons e t =>
    obtain ⟨k, c⟩ := e
    simp only [Memory.wfFrom, Bool.and_eq_true, decide_eq_true_eq] at hm
    simp only [Memory.read]
    rw [if_neg (by omega), if_pos (by omega)]

theorem Memory.read_write {lo a x : Nat} {b : Byte} {m : List Host.Cell} (hm : Memory.wfFrom lo m = true) :
    Memory.read (Memory.write m a b) x = if x = a then b else Memory.read m x := by
  induction m generalizing lo with
  | nil =>
    simp only [Memory.write]
    split
    · next hb => subst hb; simp [Memory.read]
    · simp only [Memory.read]
      by_cases h : x = a
      · simp [h]
      · rw [if_neg (fun h' => h h'.symm), if_neg h]; simp
  | cons e t ih =>
    obtain ⟨k, c⟩ := e
    simp only [Memory.wfFrom, Bool.and_eq_true, decide_eq_true_eq] at hm
    obtain ⟨⟨hk, hc⟩, ht⟩ := hm
    simp only [Memory.write]
    split
    · next hak =>
      split
      · next hb =>
        subst hb
        by_cases h : x = a
        · subst h; simp only [Memory.read]; rw [if_neg (by omega), if_pos (by omega)]; simp
        · rw [if_neg h]
      · by_cases h : x = a
        · subst h; simp [Memory.read]
        · rw [if_neg h]
          conv => lhs; unfold Memory.read
          rw [if_neg (fun h' => h h'.symm)]
          by_cases hx : x < a
          · rw [if_pos hx]; simp only [Memory.read]; rw [if_neg (by omega), if_pos (by omega)]
          · rw [if_neg hx]
    · split
      · next h1 hka =>
        subst hka
        split
        · next hb =>
          subst hb
          by_cases h : x = k
          · subst h; rw [if_pos rfl]; exact Memory.read_below ht (by omega)
          · rw [if_neg h]
            simp only [Memory.read]; rw [if_neg (fun h' => h h'.symm)]
            by_cases hx : x < k
            · rw [if_pos hx]; exact Memory.read_below ht (by omega)
            · rw [if_neg hx]
        · by_cases h : x = k
          · subst h; simp [Memory.read]
          · rw [if_neg h]
            have h' : ¬k = x := fun e => h e.symm
            simp only [Memory.read]; rw [if_neg h', if_neg h']
      · next h1 h2 =>
        simp only [Memory.read]
        by_cases hkx : k = x
        · subst hkx; rw [if_pos rfl, if_pos rfl, if_neg (by omega)]
        · rw [if_neg hkx, if_neg hkx]
          by_cases hx : x < k
          · rw [if_pos hx, if_pos hx, if_neg (by omega)]
          · rw [if_neg hx, if_neg hx, ih ht]

/-- One byte after a write, in a memory of the canonical form. -/
theorem Memory.read_write_wf {a x : Nat} {b : Byte} {m : List Host.Cell} (hm : Memory.wf m = true) :
    Memory.read (Memory.write m a b) x = if x = a then b else Memory.read m x := Memory.read_write hm

/-- A write of several bytes leaves every byte outside them alone. -/
theorem Memory.read_writeN_out {l : List Byte} {a x : Nat} {m : List Host.Cell} (hm : Memory.wf m = true)
    (hx : x < a ∨ a + l.length ≤ x) : Memory.read (Memory.writeN m a l) x = Memory.read m x := by
  induction l generalizing a m with
  | nil => rfl
  | cons b t ih =>
    simp only [List.length_cons] at hx
    simp only [Memory.writeN]
    rw [ih (Memory.wf_write hm) (by omega), Memory.read_write_wf hm, if_neg (by omega)]

/-- The bytes of a write read back. -/
theorem Memory.read_writeN_in {l : List Byte} {a i : Nat} {m : List Host.Cell} (hm : Memory.wf m = true)
    (hi : i < l.length) : Memory.read (Memory.writeN m a l) (a + i) = l.getD i unlisted := by
  induction l generalizing a i m with
  | nil => simp at hi
  | cons b t ih =>
    simp only [Memory.writeN]
    cases i with
    | zero =>
      rw [Memory.read_writeN_out (Memory.wf_write hm) (by omega), Memory.read_write_wf hm]; simp
    | succ i =>
      simp only [List.length_cons] at hi
      have := ih (a := a + 1) (i := i) (Memory.wf_write (a := a) (b := b) hm) (by omega)
      rw [show a + (i + 1) = a + 1 + i by omega, this]; rfl

theorem Memory.readN_writeN {l : List Byte} {a : Nat} {m : List Host.Cell} (hm : Memory.wf m = true) :
    Memory.readN (Memory.writeN m a l) a l.length = l := by
  have key : ∀ (n k : Nat), k + n ≤ l.length →
      Memory.readN (Memory.writeN m a l) (a + k) n = (l.drop k).take n := by
    intro n
    induction n with
    | zero => intro k _; simp [Memory.readN]
    | succ n ih =>
      intro k hk
      have hk' : k < l.length := by omega
      simp only [Memory.readN]
      rw [Memory.read_writeN_in hm hk', show a + k + 1 = a + (k + 1) by omega, ih (k + 1) (by omega),
        List.drop_eq_getElem_cons hk', List.take_succ_cons]
      simp [List.getD_eq_getElem?_getD, List.getElem?_eq_getElem hk']
  simpa using key l.length 0 (by omega)

end Sys2Proof.Machine
end

