-- ==== Sys2Proof/Laws/Tab.lean ====
section
/-! SUPPORT. What the plain containers do: a fixed vector after a write, a table after an entry is put, changed or removed. -/

namespace Sys2Proof.Machine

/-! ### Vectors -/

@[simp] theorem vget_vset_same {α : Type} {n : Nat} (x : Vector α n) (d a : α) (i : Nat) (h : i < n) :
    vget (vset x i a) d i = a := by
  have hl : i < x.toArray.toList.length := by simpa using h
  simp only [vget, vset, List.getD_eq_getElem?_getD]
  rw [List.getElem?_set_self hl]; rfl

theorem vget_vset_ne {α : Type} {n : Nat} (x : Vector α n) (d a : α) (i j : Nat) (h : i ≠ j) :
    vget (vset x i a) d j = vget x d j := by
  simp only [vget, vset, List.getD_eq_getElem?_getD, List.getElem?_set_ne h]

/-- A position the vector does not have is not written. -/
theorem vset_out {α : Type} {n : Nat} (x : Vector α n) (i : Nat) (a : α) (h : n ≤ i) : vset x i a = x := by
  have hl : x.toArray.toList.length ≤ i := by simpa using h
  obtain ⟨⟨l⟩, hx⟩ := x
  simp only [vset]
  congr 2
  exact List.set_eq_of_length_le hl

@[simp] theorem vget_vof {α : Type} (n : Nat) (f : Nat → α) (d : α) (i : Nat) (h : i < n) : vget (vof n f) d i = f i := by
  simp [vget, vof, List.getD_eq_getElem?_getD, h]

@[simp] theorem vget_vconst {α : Type} (n : Nat) (a d : α) (i : Nat) (h : i < n) : vget (vconst n a) d i = a := by
  simp [vget, vconst, List.getD_eq_getElem?_getD, h]

@[simp] theorem vget_vmap {α β : Type} {n : Nat} (f : α → β) (x : Vector α n) (d : β) (e : α) (i : Nat) (h : i < n) :
    vget (vmap f x) d i = f (vget x e i) := by
  have hl : i < x.toArray.toList.length := by simpa using h
  simp only [vget, vmap, List.getD_eq_getElem?_getD, List.getElem?_map, List.getElem?_eq_getElem hl]
  rfl

theorem vget_vzip {α β γ : Type} {n : Nat} (f : α → β → γ) (x : Vector α n) (y : Vector β n) (d : γ) (e : α) (g : β) (i : Nat)
    (h : i < n) : vget (vzip f x y) d i = f (vget x e i) (vget y g i) := by
  have hx : i < x.toArray.toList.length := by simpa using h
  have hy : i < y.toArray.toList.length := by simpa using h
  simp only [vget, vzip, List.getD_eq_getElem?_getD, List.getElem?_zipWith, List.getElem?_eq_getElem hx,
    List.getElem?_eq_getElem hy]
  rfl

@[simp] theorem vget_vmapIdx {α β : Type} {n : Nat} (f : Nat → α → β) (x : Vector α n) (d : β) (e : α) (i : Nat)
    (h : i < n) : vget (vmapIdx f x) d i = f i (vget x e i) := by
  rw [vmapIdx, vget_vzip f (vof n id) x d 0 e i h, vget_vof n id 0 i h]; rfl

/-- A push moves every entry one place on. -/
theorem vget_vpush_zero {α : Type} {n : Nat} (a d : α) (x : Vector α n) (h : 0 < n) : vget (vpush a x) d 0 = a := by
  obtain ⟨m, rfl⟩ : ∃ m, n = m + 1 := ⟨n - 1, by omega⟩
  simp [vget, vpush]

theorem vget_vpush_succ {α : Type} {n : Nat} (a d : α) (x : Vector α n) (i : Nat) (h : i + 1 < n) :
    vget (vpush a x) d (i + 1) = vget x d i := by
  obtain ⟨m, rfl⟩ : ∃ m, n = m + 1 := ⟨n - 1, by omega⟩
  simp only [vget, vpush, List.take_succ_cons, List.getD_eq_getElem?_getD, List.getElem?_cons_succ, List.getElem?_take]
  rw [if_pos (by omega)]

/-! ### Tables -/

@[simp] theorem Tab.find_put {α : Type} (t : Tab α) (i j : Nat) (a : α) :
    Tab.find (Tab.put t i a) j = if i = j then some a else Tab.find t j := by
  induction t with
  | nil => simp [Tab.put, Tab.find]
  | cons e t ih =>
    obtain ⟨k, b⟩ := e
    simp only [Tab.put]
    split
    · simp [Tab.find]
    · split
      · next hki => subst hki; by_cases h : k = j <;> simp [Tab.find, h]
      · next hki =>
        simp only [Tab.find, ih]
        by_cases h : k = j
        · subst h; rw [if_pos rfl, if_pos rfl, if_neg (fun h => hki h.symm)]
        · rw [if_neg h, if_neg h]

@[simp] theorem Tab.find_del {α : Type} (t : Tab α) (i j : Nat) :
    Tab.find (Tab.del t i) j = if i = j then none else Tab.find t j := by
  induction t with
  | nil => simp [Tab.del, Tab.find]
  | cons e t ih =>
    obtain ⟨k, b⟩ := e
    unfold Tab.del at ih ⊢
    rw [List.filter_cons]
    by_cases hk : k = i
    · subst hk
      rw [if_neg (by simp), ih]
      by_cases hj : k = j <;> simp [Tab.find, hj]
    · rw [if_pos (by simpa using hk)]
      simp only [Tab.find, ih]
      by_cases hj : k = j
      · subst hj; rw [if_pos rfl, if_pos rfl, if_neg (fun h => hk h.symm)]
      · rw [if_neg hj, if_neg hj]

@[simp] theorem Tab.find_upd {α : Type} (t : Tab α) (i j : Nat) (f : α → α) :
    Tab.find (Tab.upd t i f) j = if i = j then (Tab.find t j).map f else Tab.find t j := by
  simp only [Tab.upd]
  split
  · next a h =>
    rw [Tab.find_put]
    by_cases hj : i = j
    · subst hj; simp [h]
    · simp [hj]
  · next h =>
    by_cases hj : i = j
    · subst hj; simp [h]
    · simp [hj]

@[simp] theorem Tab.getD_put {α : Type} (t : Tab α) (d a : α) (i j : Nat) :
    Tab.getD (Tab.put t i a) d j = if i = j then a else Tab.getD t d j := by
  by_cases h : i = j <;> simp [Tab.getD, h]

@[simp] theorem Tab.find_nil {α : Type} (i : Nat) : Tab.find ([] : Tab α) i = none := rfl

theorem Tab.getD_of_find {α : Type} {t : Tab α} {i : Nat} {a : α} (d : α) (h : Tab.find t i = some a) :
    Tab.getD t d i = a := by simp [Tab.getD, h]

/-! ### Masks -/

theorem mem_lanesOf {m : Mask} {l : Nat} : l ∈ lanesOf m ↔ l < 32 ∧ m.getLsbD l = true := by
  simp [lanesOf, List.mem_filter]

theorem testBit_foldr (f : Nat → Bool) (n k i : Nat) :
    ((List.range' k n).foldr (fun l acc => 2 * acc + (if f l then 1 else 0)) 0).testBit i = (decide (i < n) && f (k + i)) := by
  induction n generalizing k i with
  | zero => simp
  | succ n ih =>
    rw [List.range'_succ, List.foldr_cons]
    cases i with
    | zero => cases h : f k <;> simp [Nat.testBit_zero]
    | succ i =>
      rw [Nat.testBit_succ]
      have hd : ∀ a : Nat, (2 * a + (if f k then 1 else 0)) / 2 = a := by intro a; split <;> omega
      rw [hd, ih]
      have : k + 1 + i = k + (i + 1) := by omega
      rw [this]; simp

/-- The mask of a condition has the bits of the lanes where it holds. -/
@[simp] theorem getLsbD_maskOf (f : Nat → Bool) (l : Nat) : (maskOf f).getLsbD l = (decide (l < 32) && f l) := by
  have := testBit_foldr f 32 0 l
  simp only [maskOf, BitVec.getLsbD_ofNat, List.range_eq_range', this, Nat.zero_add]
  by_cases h : l < 32 <;> simp [h]

/-- The lowest lane of a mask is a lane of it. -/
theorem lowLane_mem {m : Mask} {l : Nat} (h : lowLane m = some l) : l < 32 ∧ m.getLsbD l = true := by
  have : l ∈ lanesOf m := List.mem_of_mem_head? h
  exact mem_lanesOf.mp this

/-- A mask without lanes is zero. -/
theorem lowLane_none {m : Mask} (h : lowLane m = none) : m = 0#32 := by
  have hn : lanesOf m = [] := by simpa [lowLane] using h
  apply BitVec.eq_of_getLsbD_eq
  intro i hi
  by_contra hc
  have : i ∈ lanesOf m := mem_lanesOf.mpr ⟨hi, by simpa using hc⟩
  rw [hn] at this; exact absurd this (by simp)

end Sys2Proof.Machine
end

