-- ==== Sys2Proof/Laws/State.lean ====
section
/-! SUPPORT. One lemma per field of the state per update: the fields an update leaves alone, the ones it changes, and what
the lookups find afterwards. -/

namespace Sys2Proof.Machine

/-! ### State.modDev -/

@[simp] theorem State.modDev_mode (s : State) (d : Nat) (f : Dev → Dev) : (s.modDev d f).mode = s.mode := rfl
@[simp] theorem State.modDev_dies (s : State) (d : Nat) (f : Dev → Dev) : (s.modDev d f).dies = s.dies := rfl
@[simp] theorem State.modDev_ports (s : State) (d : Nat) (f : Dev → Dev) : (s.modDev d f).ports = s.ports := rfl
@[simp] theorem State.modDev_mig (s : State) (d : Nat) (f : Dev → Dev) : (s.modDev d f).mig = s.mig := rfl
@[simp] theorem State.modDev_aon (s : State) (d : Nat) (f : Dev → Dev) : (s.modDev d f).aon = s.aon := rfl
@[simp] theorem State.modDev_pkgBase (s : State) (d : Nat) (f : Dev → Dev) : (s.modDev d f).pkgBase = s.pkgBase := rfl
@[simp] theorem State.modDev_pkgSkew (s : State) (d : Nat) (f : Dev → Dev) : (s.modDev d f).pkgSkew = s.pkgSkew := rfl
@[simp] theorem State.modDev_podMaster (s : State) (d : Nat) (f : Dev → Dev) : (s.modDev d f).podMaster = s.podMaster := rfl
@[simp] theorem State.modDev_podSync (s : State) (d : Nat) (f : Dev → Dev) : (s.modDev d f).podSync = s.podSync := rfl
@[simp] theorem State.modDev_mem (s : State) (d : Nat) (f : Dev → Dev) : (s.modDev d f).mem = s.mem := rfl
@[simp] theorem State.modDev_memPoison (s : State) (d : Nat) (f : Dev → Dev) : (s.modDev d f).memPoison = s.memPoison := rfl
@[simp] theorem State.modDev_lineKey (s : State) (d : Nat) (f : Dev → Dev) : (s.modDev d f).lineKey = s.lineKey := rfl
@[simp] theorem State.modDev_shadow (s : State) (d : Nat) (f : Dev → Dev) : (s.modDev d f).shadow = s.shadow := rfl
@[simp] theorem State.modDev_cached (s : State) (d : Nat) (f : Dev → Dev) : (s.modDev d f).cached = s.cached := rfl
@[simp] theorem State.modDev_ctxs (s : State) (d : Nat) (f : Dev → Dev) : (s.modDev d f).ctxs = s.ctxs := rfl
@[simp] theorem State.modDev_launches (s : State) (d : Nat) (f : Dev → Dev) : (s.modDev d f).launches = s.launches := rfl
@[simp] theorem State.modDev_panels (s : State) (d : Nat) (f : Dev → Dev) : (s.modDev d f).panels = s.panels := rfl
@[simp] theorem State.modDev_teams (s : State) (d : Nat) (f : Dev → Dev) : (s.modDev d f).teams = s.teams := rfl
@[simp] theorem State.modDev_podBars (s : State) (d : Nat) (f : Dev → Dev) : (s.modDev d f).podBars = s.podBars := rfl
@[simp] theorem State.modDev_cores (s : State) (d : Nat) (f : Dev → Dev) : (s.modDev d f).cores = s.cores := rfl
@[simp] theorem State.modDev_slots (s : State) (d : Nat) (f : Dev → Dev) : (s.modDev d f).slots = s.slots := rfl
@[simp] theorem State.modDev_gens (s : State) (d : Nat) (f : Dev → Dev) : (s.modDev d f).gens = s.gens := rfl
@[simp] theorem State.modDev_courses (s : State) (d : Nat) (f : Dev → Dev) : (s.modDev d f).courses = s.courses := rfl
@[simp] theorem State.modDev_saved (s : State) (d : Nat) (f : Dev → Dev) : (s.modDev d f).saved = s.saved := rfl
@[simp] theorem State.modDev_savedTeams (s : State) (d : Nat) (f : Dev → Dev) : (s.modDev d f).savedTeams = s.savedTeams := rfl
@[simp] theorem State.modDev_returning (s : State) (d : Nat) (f : Dev → Dev) : (s.modDev d f).returning = s.returning := rfl
@[simp] theorem State.modDev_armed (s : State) (d : Nat) (f : Dev → Dev) : (s.modDev d f).armed = s.armed := rfl
@[simp] theorem State.modDev_injected (s : State) (d : Nat) (f : Dev → Dev) : (s.modDev d f).injected = s.injected := rfl
@[simp] theorem State.modDev_accesses (s : State) (d : Nat) (f : Dev → Dev) : (s.modDev d f).accesses = s.accesses := rfl
@[simp] theorem State.modDev_arrivals (s : State) (d : Nat) (f : Dev → Dev) : (s.modDev d f).arrivals = s.arrivals := rfl
@[simp] theorem State.modDev_gran (s : State) (d : Nat) (f : Dev → Dev) : (s.modDev d f).gran = s.gran := rfl
@[simp] theorem State.modDev_remotes (s : State) (d : Nat) (f : Dev → Dev) : (s.modDev d f).remotes = s.remotes := rfl
@[simp] theorem State.modDev_cows (s : State) (d : Nat) (f : Dev → Dev) : (s.modDev d f).cows = s.cows := rfl
@[simp] theorem State.modDev_rstvs (s : State) (d : Nat) (f : Dev → Dev) : (s.modDev d f).rstvs = s.rstvs := rfl
@[simp] theorem State.modDev_fences (s : State) (d : Nat) (f : Dev → Dev) : (s.modDev d f).fences = s.fences := rfl
@[simp] theorem State.modDev_collSets (s : State) (d : Nat) (f : Dev → Dev) : (s.modDev d f).collSets = s.collSets := rfl
@[simp] theorem State.modDev_collNums (s : State) (d : Nat) (f : Dev → Dev) : (s.modDev d f).collNums = s.collNums := rfl
@[simp] theorem State.modDev_bootCount (s : State) (d : Nat) (f : Dev → Dev) : (s.modDev d f).bootCount = s.bootCount := rfl
@[simp] theorem State.modDev_measures (s : State) (d : Nat) (f : Dev → Dev) : (s.modDev d f).measures = s.measures := rfl
@[simp] theorem State.modDev_svn (s : State) (d : Nat) (f : Dev → Dev) : (s.modDev d f).svn = s.svn := rfl
@[simp] theorem State.modDev_svnMin (s : State) (d : Nat) (f : Dev → Dev) : (s.modDev d f).svnMin = s.svnMin := rfl
@[simp] theorem State.modDev_booting (s : State) (d : Nat) (f : Dev → Dev) : (s.modDev d f).booting = s.booting := rfl
@[simp] theorem State.modDev_bootAt (s : State) (d : Nat) (f : Dev → Dev) : (s.modDev d f).bootAt = s.bootAt := rfl
@[simp] theorem State.modDev_appHalt (s : State) (d : Nat) (f : Dev → Dev) : (s.modDev d f).appHalt = s.appHalt := rfl
@[simp] theorem State.modDev_nonce (s : State) (d : Nat) (f : Dev → Dev) : (s.modDev d f).nonce = s.nonce := rfl
@[simp] theorem State.modDev_images (s : State) (d : Nat) (f : Dev → Dev) : (s.modDev d f).images = s.images := rfl
@[simp] theorem State.modDev_mapMode (s : State) (d : Nat) (f : Dev → Dev) : (s.modDev d f).mapMode = s.mapMode := rfl
@[simp] theorem State.modDev_plans (s : State) (d : Nat) (f : Dev → Dev) : (s.modDev d f).plans = s.plans := rfl
@[simp] theorem State.modDev_carveOut (s : State) (d : Nat) (f : Dev → Dev) : (s.modDev d f).carveOut = s.carveOut := rfl
@[simp] theorem State.modDev_cxl (s : State) (d : Nat) (f : Dev → Dev) : (s.modDev d f).cxl = s.cxl := rfl
@[simp] theorem State.modDev_mgmtOut (s : State) (d : Nat) (f : Dev → Dev) : (s.modDev d f).mgmtOut = s.mgmtOut := rfl
@[simp] theorem State.modDev_podReply (s : State) (d : Nat) (f : Dev → Dev) : (s.modDev d f).podReply = s.podReply := rfl
@[simp] theorem State.modDev_cur (s : State) (d : Nat) (f : Dev → Dev) : (s.modDev d f).cur = s.cur := rfl
@[simp] theorem State.modDev_bank (s : State) (d : Nat) (f : Dev → Dev) : (s.modDev d f).bank = s.bank := rfl
@[simp] theorem State.modDev_agenda (s : State) (d : Nat) (f : Dev → Dev) : (s.modDev d f).agenda = s.agenda := rfl
@[simp] theorem State.modDev_freeCount (s : State) (d : Nat) (f : Dev → Dev) : (s.modDev d f).freeCount = s.freeCount := rfl
@[simp] theorem State.modDev_nextId (s : State) (d : Nat) (f : Dev → Dev) : (s.modDev d f).nextId = s.nextId := rfl
@[simp] theorem State.modDev_hostRead (s : State) (d : Nat) (f : Dev → Dev) : (s.modDev d f).hostRead = s.hostRead := rfl

/-! ### State.modDie -/

@[simp] theorem State.modDie_mode (s : State) (d : Nat) (f : Die → Die) : (s.modDie d f).mode = s.mode := rfl
@[simp] theorem State.modDie_devs (s : State) (d : Nat) (f : Die → Die) : (s.modDie d f).devs = s.devs := rfl
@[simp] theorem State.modDie_ports (s : State) (d : Nat) (f : Die → Die) : (s.modDie d f).ports = s.ports := rfl
@[simp] theorem State.modDie_mig (s : State) (d : Nat) (f : Die → Die) : (s.modDie d f).mig = s.mig := rfl
@[simp] theorem State.modDie_aon (s : State) (d : Nat) (f : Die → Die) : (s.modDie d f).aon = s.aon := rfl
@[simp] theorem State.modDie_pkgBase (s : State) (d : Nat) (f : Die → Die) : (s.modDie d f).pkgBase = s.pkgBase := rfl
@[simp] theorem State.modDie_pkgSkew (s : State) (d : Nat) (f : Die → Die) : (s.modDie d f).pkgSkew = s.pkgSkew := rfl
@[simp] theorem State.modDie_podMaster (s : State) (d : Nat) (f : Die → Die) : (s.modDie d f).podMaster = s.podMaster := rfl
@[simp] theorem State.modDie_podSync (s : State) (d : Nat) (f : Die → Die) : (s.modDie d f).podSync = s.podSync := rfl
@[simp] theorem State.modDie_mem (s : State) (d : Nat) (f : Die → Die) : (s.modDie d f).mem = s.mem := rfl
@[simp] theorem State.modDie_memPoison (s : State) (d : Nat) (f : Die → Die) : (s.modDie d f).memPoison = s.memPoison := rfl
@[simp] theorem State.modDie_lineKey (s : State) (d : Nat) (f : Die → Die) : (s.modDie d f).lineKey = s.lineKey := rfl
@[simp] theorem State.modDie_shadow (s : State) (d : Nat) (f : Die → Die) : (s.modDie d f).shadow = s.shadow := rfl
@[simp] theorem State.modDie_cached (s : State) (d : Nat) (f : Die → Die) : (s.modDie d f).cached = s.cached := rfl
@[simp] theorem State.modDie_ctxs (s : State) (d : Nat) (f : Die → Die) : (s.modDie d f).ctxs = s.ctxs := rfl
@[simp] theorem State.modDie_launches (s : State) (d : Nat) (f : Die → Die) : (s.modDie d f).launches = s.launches := rfl
@[simp] theorem State.modDie_panels (s : State) (d : Nat) (f : Die → Die) : (s.modDie d f).panels = s.panels := rfl
@[simp] theorem State.modDie_teams (s : State) (d : Nat) (f : Die → Die) : (s.modDie d f).teams = s.teams := rfl
@[simp] theorem State.modDie_podBars (s : State) (d : Nat) (f : Die → Die) : (s.modDie d f).podBars = s.podBars := rfl
@[simp] theorem State.modDie_cores (s : State) (d : Nat) (f : Die → Die) : (s.modDie d f).cores = s.cores := rfl
@[simp] theorem State.modDie_slots (s : State) (d : Nat) (f : Die → Die) : (s.modDie d f).slots = s.slots := rfl
@[simp] theorem State.modDie_gens (s : State) (d : Nat) (f : Die → Die) : (s.modDie d f).gens = s.gens := rfl
@[simp] theorem State.modDie_courses (s : State) (d : Nat) (f : Die → Die) : (s.modDie d f).courses = s.courses := rfl
@[simp] theorem State.modDie_saved (s : State) (d : Nat) (f : Die → Die) : (s.modDie d f).saved = s.saved := rfl
@[simp] theorem State.modDie_savedTeams (s : State) (d : Nat) (f : Die → Die) : (s.modDie d f).savedTeams = s.savedTeams := rfl
@[simp] theorem State.modDie_returning (s : State) (d : Nat) (f : Die → Die) : (s.modDie d f).returning = s.returning := rfl
@[simp] theorem State.modDie_armed (s : State) (d : Nat) (f : Die → Die) : (s.modDie d f).armed = s.armed := rfl
@[simp] theorem State.modDie_injected (s : State) (d : Nat) (f : Die → Die) : (s.modDie d f).injected = s.injected := rfl
@[simp] theorem State.modDie_accesses (s : State) (d : Nat) (f : Die → Die) : (s.modDie d f).accesses = s.accesses := rfl
@[simp] theorem State.modDie_arrivals (s : State) (d : Nat) (f : Die → Die) : (s.modDie d f).arrivals = s.arrivals := rfl
@[simp] theorem State.modDie_gran (s : State) (d : Nat) (f : Die → Die) : (s.modDie d f).gran = s.gran := rfl
@[simp] theorem State.modDie_remotes (s : State) (d : Nat) (f : Die → Die) : (s.modDie d f).remotes = s.remotes := rfl
@[simp] theorem State.modDie_cows (s : State) (d : Nat) (f : Die → Die) : (s.modDie d f).cows = s.cows := rfl
@[simp] theorem State.modDie_rstvs (s : State) (d : Nat) (f : Die → Die) : (s.modDie d f).rstvs = s.rstvs := rfl
@[simp] theorem State.modDie_fences (s : State) (d : Nat) (f : Die → Die) : (s.modDie d f).fences = s.fences := rfl
@[simp] theorem State.modDie_collSets (s : State) (d : Nat) (f : Die → Die) : (s.modDie d f).collSets = s.collSets := rfl
@[simp] theorem State.modDie_collNums (s : State) (d : Nat) (f : Die → Die) : (s.modDie d f).collNums = s.collNums := rfl
@[simp] theorem State.modDie_bootCount (s : State) (d : Nat) (f : Die → Die) : (s.modDie d f).bootCount = s.bootCount := rfl
@[simp] theorem State.modDie_measures (s : State) (d : Nat) (f : Die → Die) : (s.modDie d f).measures = s.measures := rfl
@[simp] theorem State.modDie_svn (s : State) (d : Nat) (f : Die → Die) : (s.modDie d f).svn = s.svn := rfl
@[simp] theorem State.modDie_svnMin (s : State) (d : Nat) (f : Die → Die) : (s.modDie d f).svnMin = s.svnMin := rfl
@[simp] theorem State.modDie_booting (s : State) (d : Nat) (f : Die → Die) : (s.modDie d f).booting = s.booting := rfl
@[simp] theorem State.modDie_bootAt (s : State) (d : Nat) (f : Die → Die) : (s.modDie d f).bootAt = s.bootAt := rfl
@[simp] theorem State.modDie_appHalt (s : State) (d : Nat) (f : Die → Die) : (s.modDie d f).appHalt = s.appHalt := rfl
@[simp] theorem State.modDie_nonce (s : State) (d : Nat) (f : Die → Die) : (s.modDie d f).nonce = s.nonce := rfl
@[simp] theorem State.modDie_images (s : State) (d : Nat) (f : Die → Die) : (s.modDie d f).images = s.images := rfl
@[simp] theorem State.modDie_mapMode (s : State) (d : Nat) (f : Die → Die) : (s.modDie d f).mapMode = s.mapMode := rfl
@[simp] theorem State.modDie_plans (s : State) (d : Nat) (f : Die → Die) : (s.modDie d f).plans = s.plans := rfl
@[simp] theorem State.modDie_carveOut (s : State) (d : Nat) (f : Die → Die) : (s.modDie d f).carveOut = s.carveOut := rfl
@[simp] theorem State.modDie_cxl (s : State) (d : Nat) (f : Die → Die) : (s.modDie d f).cxl = s.cxl := rfl
@[simp] theorem State.modDie_mgmtOut (s : State) (d : Nat) (f : Die → Die) : (s.modDie d f).mgmtOut = s.mgmtOut := rfl
@[simp] theorem State.modDie_podReply (s : State) (d : Nat) (f : Die → Die) : (s.modDie d f).podReply = s.podReply := rfl
@[simp] theorem State.modDie_cur (s : State) (d : Nat) (f : Die → Die) : (s.modDie d f).cur = s.cur := rfl
@[simp] theorem State.modDie_bank (s : State) (d : Nat) (f : Die → Die) : (s.modDie d f).bank = s.bank := rfl
@[simp] theorem State.modDie_agenda (s : State) (d : Nat) (f : Die → Die) : (s.modDie d f).agenda = s.agenda := rfl
@[simp] theorem State.modDie_freeCount (s : State) (d : Nat) (f : Die → Die) : (s.modDie d f).freeCount = s.freeCount := rfl
@[simp] theorem State.modDie_nextId (s : State) (d : Nat) (f : Die → Die) : (s.modDie d f).nextId = s.nextId := rfl
@[simp] theorem State.modDie_hostRead (s : State) (d : Nat) (f : Die → Die) : (s.modDie d f).hostRead = s.hostRead := rfl

/-! ### State.modCore -/

@[simp] theorem State.modCore_mode (s : State) (k : Nat) (f : Core → Core) : (s.modCore k f).mode = s.mode := rfl
@[simp] theorem State.modCore_devs (s : State) (k : Nat) (f : Core → Core) : (s.modCore k f).devs = s.devs := rfl
@[simp] theorem State.modCore_dies (s : State) (k : Nat) (f : Core → Core) : (s.modCore k f).dies = s.dies := rfl
@[simp] theorem State.modCore_ports (s : State) (k : Nat) (f : Core → Core) : (s.modCore k f).ports = s.ports := rfl
@[simp] theorem State.modCore_mig (s : State) (k : Nat) (f : Core → Core) : (s.modCore k f).mig = s.mig := rfl
@[simp] theorem State.modCore_aon (s : State) (k : Nat) (f : Core → Core) : (s.modCore k f).aon = s.aon := rfl
@[simp] theorem State.modCore_pkgBase (s : State) (k : Nat) (f : Core → Core) : (s.modCore k f).pkgBase = s.pkgBase := rfl
@[simp] theorem State.modCore_pkgSkew (s : State) (k : Nat) (f : Core → Core) : (s.modCore k f).pkgSkew = s.pkgSkew := rfl
@[simp] theorem State.modCore_podMaster (s : State) (k : Nat) (f : Core → Core) : (s.modCore k f).podMaster = s.podMaster := rfl
@[simp] theorem State.modCore_podSync (s : State) (k : Nat) (f : Core → Core) : (s.modCore k f).podSync = s.podSync := rfl
@[simp] theorem State.modCore_mem (s : State) (k : Nat) (f : Core → Core) : (s.modCore k f).mem = s.mem := rfl
@[simp] theorem State.modCore_memPoison (s : State) (k : Nat) (f : Core → Core) : (s.modCore k f).memPoison = s.memPoison := rfl
@[simp] theorem State.modCore_lineKey (s : State) (k : Nat) (f : Core → Core) : (s.modCore k f).lineKey = s.lineKey := rfl
@[simp] theorem State.modCore_shadow (s : State) (k : Nat) (f : Core → Core) : (s.modCore k f).shadow = s.shadow := rfl
@[simp] theorem State.modCore_cached (s : State) (k : Nat) (f : Core → Core) : (s.modCore k f).cached = s.cached := rfl
@[simp] theorem State.modCore_ctxs (s : State) (k : Nat) (f : Core → Core) : (s.modCore k f).ctxs = s.ctxs := rfl
@[simp] theorem State.modCore_launches (s : State) (k : Nat) (f : Core → Core) : (s.modCore k f).launches = s.launches := rfl
@[simp] theorem State.modCore_panels (s : State) (k : Nat) (f : Core → Core) : (s.modCore k f).panels = s.panels := rfl
@[simp] theorem State.modCore_teams (s : State) (k : Nat) (f : Core → Core) : (s.modCore k f).teams = s.teams := rfl
@[simp] theorem State.modCore_podBars (s : State) (k : Nat) (f : Core → Core) : (s.modCore k f).podBars = s.podBars := rfl
@[simp] theorem State.modCore_slots (s : State) (k : Nat) (f : Core → Core) : (s.modCore k f).slots = s.slots := rfl
@[simp] theorem State.modCore_gens (s : State) (k : Nat) (f : Core → Core) : (s.modCore k f).gens = s.gens := rfl
@[simp] theorem State.modCore_courses (s : State) (k : Nat) (f : Core → Core) : (s.modCore k f).courses = s.courses := rfl
@[simp] theorem State.modCore_saved (s : State) (k : Nat) (f : Core → Core) : (s.modCore k f).saved = s.saved := rfl
@[simp] theorem State.modCore_savedTeams (s : State) (k : Nat) (f : Core → Core) : (s.modCore k f).savedTeams = s.savedTeams := rfl
@[simp] theorem State.modCore_returning (s : State) (k : Nat) (f : Core → Core) : (s.modCore k f).returning = s.returning := rfl
@[simp] theorem State.modCore_armed (s : State) (k : Nat) (f : Core → Core) : (s.modCore k f).armed = s.armed := rfl
@[simp] theorem State.modCore_injected (s : State) (k : Nat) (f : Core → Core) : (s.modCore k f).injected = s.injected := rfl
@[simp] theorem State.modCore_accesses (s : State) (k : Nat) (f : Core → Core) : (s.modCore k f).accesses = s.accesses := rfl
@[simp] theorem State.modCore_arrivals (s : State) (k : Nat) (f : Core → Core) : (s.modCore k f).arrivals = s.arrivals := rfl
@[simp] theorem State.modCore_gran (s : State) (k : Nat) (f : Core → Core) : (s.modCore k f).gran = s.gran := rfl
@[simp] theorem State.modCore_remotes (s : State) (k : Nat) (f : Core → Core) : (s.modCore k f).remotes = s.remotes := rfl
@[simp] theorem State.modCore_cows (s : State) (k : Nat) (f : Core → Core) : (s.modCore k f).cows = s.cows := rfl
@[simp] theorem State.modCore_rstvs (s : State) (k : Nat) (f : Core → Core) : (s.modCore k f).rstvs = s.rstvs := rfl
@[simp] theorem State.modCore_fences (s : State) (k : Nat) (f : Core → Core) : (s.modCore k f).fences = s.fences := rfl
@[simp] theorem State.modCore_collSets (s : State) (k : Nat) (f : Core → Core) : (s.modCore k f).collSets = s.collSets := rfl
@[simp] theorem State.modCore_collNums (s : State) (k : Nat) (f : Core → Core) : (s.modCore k f).collNums = s.collNums := rfl
@[simp] theorem State.modCore_bootCount (s : State) (k : Nat) (f : Core → Core) : (s.modCore k f).bootCount = s.bootCount := rfl
@[simp] theorem State.modCore_measures (s : State) (k : Nat) (f : Core → Core) : (s.modCore k f).measures = s.measures := rfl
@[simp] theorem State.modCore_svn (s : State) (k : Nat) (f : Core → Core) : (s.modCore k f).svn = s.svn := rfl
@[simp] theorem State.modCore_svnMin (s : State) (k : Nat) (f : Core → Core) : (s.modCore k f).svnMin = s.svnMin := rfl
@[simp] theorem State.modCore_booting (s : State) (k : Nat) (f : Core → Core) : (s.modCore k f).booting = s.booting := rfl
@[simp] theorem State.modCore_bootAt (s : State) (k : Nat) (f : Core → Core) : (s.modCore k f).bootAt = s.bootAt := rfl
@[simp] theorem State.modCore_appHalt (s : State) (k : Nat) (f : Core → Core) : (s.modCore k f).appHalt = s.appHalt := rfl
@[simp] theorem State.modCore_nonce (s : State) (k : Nat) (f : Core → Core) : (s.modCore k f).nonce = s.nonce := rfl
@[simp] theorem State.modCore_images (s : State) (k : Nat) (f : Core → Core) : (s.modCore k f).images = s.images := rfl
@[simp] theorem State.modCore_mapMode (s : State) (k : Nat) (f : Core → Core) : (s.modCore k f).mapMode = s.mapMode := rfl
@[simp] theorem State.modCore_plans (s : State) (k : Nat) (f : Core → Core) : (s.modCore k f).plans = s.plans := rfl
@[simp] theorem State.modCore_carveOut (s : State) (k : Nat) (f : Core → Core) : (s.modCore k f).carveOut = s.carveOut := rfl
@[simp] theorem State.modCore_cxl (s : State) (k : Nat) (f : Core → Core) : (s.modCore k f).cxl = s.cxl := rfl
@[simp] theorem State.modCore_mgmtOut (s : State) (k : Nat) (f : Core → Core) : (s.modCore k f).mgmtOut = s.mgmtOut := rfl
@[simp] theorem State.modCore_podReply (s : State) (k : Nat) (f : Core → Core) : (s.modCore k f).podReply = s.podReply := rfl
@[simp] theorem State.modCore_cur (s : State) (k : Nat) (f : Core → Core) : (s.modCore k f).cur = s.cur := rfl
@[simp] theorem State.modCore_bank (s : State) (k : Nat) (f : Core → Core) : (s.modCore k f).bank = s.bank := rfl
@[simp] theorem State.modCore_agenda (s : State) (k : Nat) (f : Core → Core) : (s.modCore k f).agenda = s.agenda := rfl
@[simp] theorem State.modCore_freeCount (s : State) (k : Nat) (f : Core → Core) : (s.modCore k f).freeCount = s.freeCount := rfl
@[simp] theorem State.modCore_nextId (s : State) (k : Nat) (f : Core → Core) : (s.modCore k f).nextId = s.nextId := rfl
@[simp] theorem State.modCore_hostRead (s : State) (k : Nat) (f : Core → Core) : (s.modCore k f).hostRead = s.hostRead := rfl

/-! ### State.setCourse -/

@[simp] theorem State.setCourse_mode (s : State) (c : Nat) (x : Course) : (s.setCourse c x).mode = s.mode := rfl
@[simp] theorem State.setCourse_devs (s : State) (c : Nat) (x : Course) : (s.setCourse c x).devs = s.devs := rfl
@[simp] theorem State.setCourse_dies (s : State) (c : Nat) (x : Course) : (s.setCourse c x).dies = s.dies := rfl
@[simp] theorem State.setCourse_ports (s : State) (c : Nat) (x : Course) : (s.setCourse c x).ports = s.ports := rfl
@[simp] theorem State.setCourse_mig (s : State) (c : Nat) (x : Course) : (s.setCourse c x).mig = s.mig := rfl
@[simp] theorem State.setCourse_aon (s : State) (c : Nat) (x : Course) : (s.setCourse c x).aon = s.aon := rfl
@[simp] theorem State.setCourse_pkgBase (s : State) (c : Nat) (x : Course) : (s.setCourse c x).pkgBase = s.pkgBase := rfl
@[simp] theorem State.setCourse_pkgSkew (s : State) (c : Nat) (x : Course) : (s.setCourse c x).pkgSkew = s.pkgSkew := rfl
@[simp] theorem State.setCourse_podMaster (s : State) (c : Nat) (x : Course) : (s.setCourse c x).podMaster = s.podMaster := rfl
@[simp] theorem State.setCourse_podSync (s : State) (c : Nat) (x : Course) : (s.setCourse c x).podSync = s.podSync := rfl
@[simp] theorem State.setCourse_mem (s : State) (c : Nat) (x : Course) : (s.setCourse c x).mem = s.mem := rfl
@[simp] theorem State.setCourse_memPoison (s : State) (c : Nat) (x : Course) : (s.setCourse c x).memPoison = s.memPoison := rfl
@[simp] theorem State.setCourse_lineKey (s : State) (c : Nat) (x : Course) : (s.setCourse c x).lineKey = s.lineKey := rfl
@[simp] theorem State.setCourse_shadow (s : State) (c : Nat) (x : Course) : (s.setCourse c x).shadow = s.shadow := rfl
@[simp] theorem State.setCourse_cached (s : State) (c : Nat) (x : Course) : (s.setCourse c x).cached = s.cached := rfl
@[simp] theorem State.setCourse_ctxs (s : State) (c : Nat) (x : Course) : (s.setCourse c x).ctxs = s.ctxs := rfl
@[simp] theorem State.setCourse_launches (s : State) (c : Nat) (x : Course) : (s.setCourse c x).launches = s.launches := rfl
@[simp] theorem State.setCourse_panels (s : State) (c : Nat) (x : Course) : (s.setCourse c x).panels = s.panels := rfl
@[simp] theorem State.setCourse_teams (s : State) (c : Nat) (x : Course) : (s.setCourse c x).teams = s.teams := rfl
@[simp] theorem State.setCourse_podBars (s : State) (c : Nat) (x : Course) : (s.setCourse c x).podBars = s.podBars := rfl
@[simp] theorem State.setCourse_cores (s : State) (c : Nat) (x : Course) : (s.setCourse c x).cores = s.cores := rfl
@[simp] theorem State.setCourse_slots (s : State) (c : Nat) (x : Course) : (s.setCourse c x).slots = s.slots := rfl
@[simp] theorem State.setCourse_gens (s : State) (c : Nat) (x : Course) : (s.setCourse c x).gens = s.gens := rfl
@[simp] theorem State.setCourse_saved (s : State) (c : Nat) (x : Course) : (s.setCourse c x).saved = s.saved := rfl
@[simp] theorem State.setCourse_savedTeams (s : State) (c : Nat) (x : Course) : (s.setCourse c x).savedTeams = s.savedTeams := rfl
@[simp] theorem State.setCourse_returning (s : State) (c : Nat) (x : Course) : (s.setCourse c x).returning = s.returning := rfl
@[simp] theorem State.setCourse_armed (s : State) (c : Nat) (x : Course) : (s.setCourse c x).armed = s.armed := rfl
@[simp] theorem State.setCourse_injected (s : State) (c : Nat) (x : Course) : (s.setCourse c x).injected = s.injected := rfl
@[simp] theorem State.setCourse_accesses (s : State) (c : Nat) (x : Course) : (s.setCourse c x).accesses = s.accesses := rfl
@[simp] theorem State.setCourse_arrivals (s : State) (c : Nat) (x : Course) : (s.setCourse c x).arrivals = s.arrivals := rfl
@[simp] theorem State.setCourse_gran (s : State) (c : Nat) (x : Course) : (s.setCourse c x).gran = s.gran := rfl
@[simp] theorem State.setCourse_remotes (s : State) (c : Nat) (x : Course) : (s.setCourse c x).remotes = s.remotes := rfl
@[simp] theorem State.setCourse_cows (s : State) (c : Nat) (x : Course) : (s.setCourse c x).cows = s.cows := rfl
@[simp] theorem State.setCourse_rstvs (s : State) (c : Nat) (x : Course) : (s.setCourse c x).rstvs = s.rstvs := rfl
@[simp] theorem State.setCourse_fences (s : State) (c : Nat) (x : Course) : (s.setCourse c x).fences = s.fences := rfl
@[simp] theorem State.setCourse_collSets (s : State) (c : Nat) (x : Course) : (s.setCourse c x).collSets = s.collSets := rfl
@[simp] theorem State.setCourse_collNums (s : State) (c : Nat) (x : Course) : (s.setCourse c x).collNums = s.collNums := rfl
@[simp] theorem State.setCourse_bootCount (s : State) (c : Nat) (x : Course) : (s.setCourse c x).bootCount = s.bootCount := rfl
@[simp] theorem State.setCourse_measures (s : State) (c : Nat) (x : Course) : (s.setCourse c x).measures = s.measures := rfl
@[simp] theorem State.setCourse_svn (s : State) (c : Nat) (x : Course) : (s.setCourse c x).svn = s.svn := rfl
@[simp] theorem State.setCourse_svnMin (s : State) (c : Nat) (x : Course) : (s.setCourse c x).svnMin = s.svnMin := rfl
@[simp] theorem State.setCourse_booting (s : State) (c : Nat) (x : Course) : (s.setCourse c x).booting = s.booting := rfl
@[simp] theorem State.setCourse_bootAt (s : State) (c : Nat) (x : Course) : (s.setCourse c x).bootAt = s.bootAt := rfl
@[simp] theorem State.setCourse_appHalt (s : State) (c : Nat) (x : Course) : (s.setCourse c x).appHalt = s.appHalt := rfl
@[simp] theorem State.setCourse_nonce (s : State) (c : Nat) (x : Course) : (s.setCourse c x).nonce = s.nonce := rfl
@[simp] theorem State.setCourse_images (s : State) (c : Nat) (x : Course) : (s.setCourse c x).images = s.images := rfl
@[simp] theorem State.setCourse_mapMode (s : State) (c : Nat) (x : Course) : (s.setCourse c x).mapMode = s.mapMode := rfl
@[simp] theorem State.setCourse_plans (s : State) (c : Nat) (x : Course) : (s.setCourse c x).plans = s.plans := rfl
@[simp] theorem State.setCourse_carveOut (s : State) (c : Nat) (x : Course) : (s.setCourse c x).carveOut = s.carveOut := rfl
@[simp] theorem State.setCourse_cxl (s : State) (c : Nat) (x : Course) : (s.setCourse c x).cxl = s.cxl := rfl
@[simp] theorem State.setCourse_mgmtOut (s : State) (c : Nat) (x : Course) : (s.setCourse c x).mgmtOut = s.mgmtOut := rfl
@[simp] theorem State.setCourse_podReply (s : State) (c : Nat) (x : Course) : (s.setCourse c x).podReply = s.podReply := rfl
@[simp] theorem State.setCourse_cur (s : State) (c : Nat) (x : Course) : (s.setCourse c x).cur = s.cur := rfl
@[simp] theorem State.setCourse_bank (s : State) (c : Nat) (x : Course) : (s.setCourse c x).bank = s.bank := rfl
@[simp] theorem State.setCourse_agenda (s : State) (c : Nat) (x : Course) : (s.setCourse c x).agenda = s.agenda := rfl
@[simp] theorem State.setCourse_freeCount (s : State) (c : Nat) (x : Course) : (s.setCourse c x).freeCount = s.freeCount := rfl
@[simp] theorem State.setCourse_nextId (s : State) (c : Nat) (x : Course) : (s.setCourse c x).nextId = s.nextId := rfl
@[simp] theorem State.setCourse_hostRead (s : State) (c : Nat) (x : Course) : (s.setCourse c x).hostRead = s.hostRead := rfl

/-! ### State.modCourse -/

@[simp] theorem State.modCourse_mode (s : State) (c : Nat) (f : Course → Course) : (s.modCourse c f).mode = s.mode := rfl
@[simp] theorem State.modCourse_devs (s : State) (c : Nat) (f : Course → Course) : (s.modCourse c f).devs = s.devs := rfl
@[simp] theorem State.modCourse_dies (s : State) (c : Nat) (f : Course → Course) : (s.modCourse c f).dies = s.dies := rfl
@[simp] theorem State.modCourse_ports (s : State) (c : Nat) (f : Course → Course) : (s.modCourse c f).ports = s.ports := rfl
@[simp] theorem State.modCourse_mig (s : State) (c : Nat) (f : Course → Course) : (s.modCourse c f).mig = s.mig := rfl
@[simp] theorem State.modCourse_aon (s : State) (c : Nat) (f : Course → Course) : (s.modCourse c f).aon = s.aon := rfl
@[simp] theorem State.modCourse_pkgBase (s : State) (c : Nat) (f : Course → Course) : (s.modCourse c f).pkgBase = s.pkgBase := rfl
@[simp] theorem State.modCourse_pkgSkew (s : State) (c : Nat) (f : Course → Course) : (s.modCourse c f).pkgSkew = s.pkgSkew := rfl
@[simp] theorem State.modCourse_podMaster (s : State) (c : Nat) (f : Course → Course) : (s.modCourse c f).podMaster = s.podMaster := rfl
@[simp] theorem State.modCourse_podSync (s : State) (c : Nat) (f : Course → Course) : (s.modCourse c f).podSync = s.podSync := rfl
@[simp] theorem State.modCourse_mem (s : State) (c : Nat) (f : Course → Course) : (s.modCourse c f).mem = s.mem := rfl
@[simp] theorem State.modCourse_memPoison (s : State) (c : Nat) (f : Course → Course) : (s.modCourse c f).memPoison = s.memPoison := rfl
@[simp] theorem State.modCourse_lineKey (s : State) (c : Nat) (f : Course → Course) : (s.modCourse c f).lineKey = s.lineKey := rfl
@[simp] theorem State.modCourse_shadow (s : State) (c : Nat) (f : Course → Course) : (s.modCourse c f).shadow = s.shadow := rfl
@[simp] theorem State.modCourse_cached (s : State) (c : Nat) (f : Course → Course) : (s.modCourse c f).cached = s.cached := rfl
@[simp] theorem State.modCourse_ctxs (s : State) (c : Nat) (f : Course → Course) : (s.modCourse c f).ctxs = s.ctxs := rfl
@[simp] theorem State.modCourse_launches (s : State) (c : Nat) (f : Course → Course) : (s.modCourse c f).launches = s.launches := rfl
@[simp] theorem State.modCourse_panels (s : State) (c : Nat) (f : Course → Course) : (s.modCourse c f).panels = s.panels := rfl
@[simp] theorem State.modCourse_teams (s : State) (c : Nat) (f : Course → Course) : (s.modCourse c f).teams = s.teams := rfl
@[simp] theorem State.modCourse_podBars (s : State) (c : Nat) (f : Course → Course) : (s.modCourse c f).podBars = s.podBars := rfl
@[simp] theorem State.modCourse_cores (s : State) (c : Nat) (f : Course → Course) : (s.modCourse c f).cores = s.cores := rfl
@[simp] theorem State.modCourse_slots (s : State) (c : Nat) (f : Course → Course) : (s.modCourse c f).slots = s.slots := rfl
@[simp] theorem State.modCourse_gens (s : State) (c : Nat) (f : Course → Course) : (s.modCourse c f).gens = s.gens := rfl
@[simp] theorem State.modCourse_saved (s : State) (c : Nat) (f : Course → Course) : (s.modCourse c f).saved = s.saved := rfl
@[simp] theorem State.modCourse_savedTeams (s : State) (c : Nat) (f : Course → Course) : (s.modCourse c f).savedTeams = s.savedTeams := rfl
@[simp] theorem State.modCourse_returning (s : State) (c : Nat) (f : Course → Course) : (s.modCourse c f).returning = s.returning := rfl
@[simp] theorem State.modCourse_armed (s : State) (c : Nat) (f : Course → Course) : (s.modCourse c f).armed = s.armed := rfl
@[simp] theorem State.modCourse_injected (s : State) (c : Nat) (f : Course → Course) : (s.modCourse c f).injected = s.injected := rfl
@[simp] theorem State.modCourse_accesses (s : State) (c : Nat) (f : Course → Course) : (s.modCourse c f).accesses = s.accesses := rfl
@[simp] theorem State.modCourse_arrivals (s : State) (c : Nat) (f : Course → Course) : (s.modCourse c f).arrivals = s.arrivals := rfl
@[simp] theorem State.modCourse_gran (s : State) (c : Nat) (f : Course → Course) : (s.modCourse c f).gran = s.gran := rfl
@[simp] theorem State.modCourse_remotes (s : State) (c : Nat) (f : Course → Course) : (s.modCourse c f).remotes = s.remotes := rfl
@[simp] theorem State.modCourse_cows (s : State) (c : Nat) (f : Course → Course) : (s.modCourse c f).cows = s.cows := rfl
@[simp] theorem State.modCourse_rstvs (s : State) (c : Nat) (f : Course → Course) : (s.modCourse c f).rstvs = s.rstvs := rfl
@[simp] theorem State.modCourse_fences (s : State) (c : Nat) (f : Course → Course) : (s.modCourse c f).fences = s.fences := rfl
@[simp] theorem State.modCourse_collSets (s : State) (c : Nat) (f : Course → Course) : (s.modCourse c f).collSets = s.collSets := rfl
@[simp] theorem State.modCourse_collNums (s : State) (c : Nat) (f : Course → Course) : (s.modCourse c f).collNums = s.collNums := rfl
@[simp] theorem State.modCourse_bootCount (s : State) (c : Nat) (f : Course → Course) : (s.modCourse c f).bootCount = s.bootCount := rfl
@[simp] theorem State.modCourse_measures (s : State) (c : Nat) (f : Course → Course) : (s.modCourse c f).measures = s.measures := rfl
@[simp] theorem State.modCourse_svn (s : State) (c : Nat) (f : Course → Course) : (s.modCourse c f).svn = s.svn := rfl
@[simp] theorem State.modCourse_svnMin (s : State) (c : Nat) (f : Course → Course) : (s.modCourse c f).svnMin = s.svnMin := rfl
@[simp] theorem State.modCourse_booting (s : State) (c : Nat) (f : Course → Course) : (s.modCourse c f).booting = s.booting := rfl
@[simp] theorem State.modCourse_bootAt (s : State) (c : Nat) (f : Course → Course) : (s.modCourse c f).bootAt = s.bootAt := rfl
@[simp] theorem State.modCourse_appHalt (s : State) (c : Nat) (f : Course → Course) : (s.modCourse c f).appHalt = s.appHalt := rfl
@[simp] theorem State.modCourse_nonce (s : State) (c : Nat) (f : Course → Course) : (s.modCourse c f).nonce = s.nonce := rfl
@[simp] theorem State.modCourse_images (s : State) (c : Nat) (f : Course → Course) : (s.modCourse c f).images = s.images := rfl
@[simp] theorem State.modCourse_mapMode (s : State) (c : Nat) (f : Course → Course) : (s.modCourse c f).mapMode = s.mapMode := rfl
@[simp] theorem State.modCourse_plans (s : State) (c : Nat) (f : Course → Course) : (s.modCourse c f).plans = s.plans := rfl
@[simp] theorem State.modCourse_carveOut (s : State) (c : Nat) (f : Course → Course) : (s.modCourse c f).carveOut = s.carveOut := rfl
@[simp] theorem State.modCourse_cxl (s : State) (c : Nat) (f : Course → Course) : (s.modCourse c f).cxl = s.cxl := rfl
@[simp] theorem State.modCourse_mgmtOut (s : State) (c : Nat) (f : Course → Course) : (s.modCourse c f).mgmtOut = s.mgmtOut := rfl
@[simp] theorem State.modCourse_podReply (s : State) (c : Nat) (f : Course → Course) : (s.modCourse c f).podReply = s.podReply := rfl
@[simp] theorem State.modCourse_cur (s : State) (c : Nat) (f : Course → Course) : (s.modCourse c f).cur = s.cur := rfl
@[simp] theorem State.modCourse_bank (s : State) (c : Nat) (f : Course → Course) : (s.modCourse c f).bank = s.bank := rfl
@[simp] theorem State.modCourse_agenda (s : State) (c : Nat) (f : Course → Course) : (s.modCourse c f).agenda = s.agenda := rfl
@[simp] theorem State.modCourse_freeCount (s : State) (c : Nat) (f : Course → Course) : (s.modCourse c f).freeCount = s.freeCount := rfl
@[simp] theorem State.modCourse_nextId (s : State) (c : Nat) (f : Course → Course) : (s.modCourse c f).nextId = s.nextId := rfl
@[simp] theorem State.modCourse_hostRead (s : State) (c : Nat) (f : Course → Course) : (s.modCourse c f).hostRead = s.hostRead := rfl

/-! ### State.modStrand -/

@[simp] theorem State.modStrand_mode (s : State) (c st : Nat) (f : Strand → Strand) : (s.modStrand c st f).mode = s.mode := rfl
@[simp] theorem State.modStrand_devs (s : State) (c st : Nat) (f : Strand → Strand) : (s.modStrand c st f).devs = s.devs := rfl
@[simp] theorem State.modStrand_dies (s : State) (c st : Nat) (f : Strand → Strand) : (s.modStrand c st f).dies = s.dies := rfl
@[simp] theorem State.modStrand_ports (s : State) (c st : Nat) (f : Strand → Strand) : (s.modStrand c st f).ports = s.ports := rfl
@[simp] theorem State.modStrand_mig (s : State) (c st : Nat) (f : Strand → Strand) : (s.modStrand c st f).mig = s.mig := rfl
@[simp] theorem State.modStrand_aon (s : State) (c st : Nat) (f : Strand → Strand) : (s.modStrand c st f).aon = s.aon := rfl
@[simp] theorem State.modStrand_pkgBase (s : State) (c st : Nat) (f : Strand → Strand) : (s.modStrand c st f).pkgBase = s.pkgBase := rfl
@[simp] theorem State.modStrand_pkgSkew (s : State) (c st : Nat) (f : Strand → Strand) : (s.modStrand c st f).pkgSkew = s.pkgSkew := rfl
@[simp] theorem State.modStrand_podMaster (s : State) (c st : Nat) (f : Strand → Strand) : (s.modStrand c st f).podMaster = s.podMaster := rfl
@[simp] theorem State.modStrand_podSync (s : State) (c st : Nat) (f : Strand → Strand) : (s.modStrand c st f).podSync = s.podSync := rfl
@[simp] theorem State.modStrand_mem (s : State) (c st : Nat) (f : Strand → Strand) : (s.modStrand c st f).mem = s.mem := rfl
@[simp] theorem State.modStrand_memPoison (s : State) (c st : Nat) (f : Strand → Strand) : (s.modStrand c st f).memPoison = s.memPoison := rfl
@[simp] theorem State.modStrand_lineKey (s : State) (c st : Nat) (f : Strand → Strand) : (s.modStrand c st f).lineKey = s.lineKey := rfl
@[simp] theorem State.modStrand_shadow (s : State) (c st : Nat) (f : Strand → Strand) : (s.modStrand c st f).shadow = s.shadow := rfl
@[simp] theorem State.modStrand_cached (s : State) (c st : Nat) (f : Strand → Strand) : (s.modStrand c st f).cached = s.cached := rfl
@[simp] theorem State.modStrand_ctxs (s : State) (c st : Nat) (f : Strand → Strand) : (s.modStrand c st f).ctxs = s.ctxs := rfl
@[simp] theorem State.modStrand_launches (s : State) (c st : Nat) (f : Strand → Strand) : (s.modStrand c st f).launches = s.launches := rfl
@[simp] theorem State.modStrand_panels (s : State) (c st : Nat) (f : Strand → Strand) : (s.modStrand c st f).panels = s.panels := rfl
@[simp] theorem State.modStrand_teams (s : State) (c st : Nat) (f : Strand → Strand) : (s.modStrand c st f).teams = s.teams := rfl
@[simp] theorem State.modStrand_podBars (s : State) (c st : Nat) (f : Strand → Strand) : (s.modStrand c st f).podBars = s.podBars := rfl
@[simp] theorem State.modStrand_cores (s : State) (c st : Nat) (f : Strand → Strand) : (s.modStrand c st f).cores = s.cores := rfl
@[simp] theorem State.modStrand_slots (s : State) (c st : Nat) (f : Strand → Strand) : (s.modStrand c st f).slots = s.slots := rfl
@[simp] theorem State.modStrand_gens (s : State) (c st : Nat) (f : Strand → Strand) : (s.modStrand c st f).gens = s.gens := rfl
@[simp] theorem State.modStrand_saved (s : State) (c st : Nat) (f : Strand → Strand) : (s.modStrand c st f).saved = s.saved := rfl
@[simp] theorem State.modStrand_savedTeams (s : State) (c st : Nat) (f : Strand → Strand) : (s.modStrand c st f).savedTeams = s.savedTeams := rfl
@[simp] theorem State.modStrand_returning (s : State) (c st : Nat) (f : Strand → Strand) : (s.modStrand c st f).returning = s.returning := rfl
@[simp] theorem State.modStrand_armed (s : State) (c st : Nat) (f : Strand → Strand) : (s.modStrand c st f).armed = s.armed := rfl
@[simp] theorem State.modStrand_injected (s : State) (c st : Nat) (f : Strand → Strand) : (s.modStrand c st f).injected = s.injected := rfl
@[simp] theorem State.modStrand_accesses (s : State) (c st : Nat) (f : Strand → Strand) : (s.modStrand c st f).accesses = s.accesses := rfl
@[simp] theorem State.modStrand_arrivals (s : State) (c st : Nat) (f : Strand → Strand) : (s.modStrand c st f).arrivals = s.arrivals := rfl
@[simp] theorem State.modStrand_gran (s : State) (c st : Nat) (f : Strand → Strand) : (s.modStrand c st f).gran = s.gran := rfl
@[simp] theorem State.modStrand_remotes (s : State) (c st : Nat) (f : Strand → Strand) : (s.modStrand c st f).remotes = s.remotes := rfl
@[simp] theorem State.modStrand_cows (s : State) (c st : Nat) (f : Strand → Strand) : (s.modStrand c st f).cows = s.cows := rfl
@[simp] theorem State.modStrand_rstvs (s : State) (c st : Nat) (f : Strand → Strand) : (s.modStrand c st f).rstvs = s.rstvs := rfl
@[simp] theorem State.modStrand_fences (s : State) (c st : Nat) (f : Strand → Strand) : (s.modStrand c st f).fences = s.fences := rfl
@[simp] theorem State.modStrand_collSets (s : State) (c st : Nat) (f : Strand → Strand) : (s.modStrand c st f).collSets = s.collSets := rfl
@[simp] theorem State.modStrand_collNums (s : State) (c st : Nat) (f : Strand → Strand) : (s.modStrand c st f).collNums = s.collNums := rfl
@[simp] theorem State.modStrand_bootCount (s : State) (c st : Nat) (f : Strand → Strand) : (s.modStrand c st f).bootCount = s.bootCount := rfl
@[simp] theorem State.modStrand_measures (s : State) (c st : Nat) (f : Strand → Strand) : (s.modStrand c st f).measures = s.measures := rfl
@[simp] theorem State.modStrand_svn (s : State) (c st : Nat) (f : Strand → Strand) : (s.modStrand c st f).svn = s.svn := rfl
@[simp] theorem State.modStrand_svnMin (s : State) (c st : Nat) (f : Strand → Strand) : (s.modStrand c st f).svnMin = s.svnMin := rfl
@[simp] theorem State.modStrand_booting (s : State) (c st : Nat) (f : Strand → Strand) : (s.modStrand c st f).booting = s.booting := rfl
@[simp] theorem State.modStrand_bootAt (s : State) (c st : Nat) (f : Strand → Strand) : (s.modStrand c st f).bootAt = s.bootAt := rfl
@[simp] theorem State.modStrand_appHalt (s : State) (c st : Nat) (f : Strand → Strand) : (s.modStrand c st f).appHalt = s.appHalt := rfl
@[simp] theorem State.modStrand_nonce (s : State) (c st : Nat) (f : Strand → Strand) : (s.modStrand c st f).nonce = s.nonce := rfl
@[simp] theorem State.modStrand_images (s : State) (c st : Nat) (f : Strand → Strand) : (s.modStrand c st f).images = s.images := rfl
@[simp] theorem State.modStrand_mapMode (s : State) (c st : Nat) (f : Strand → Strand) : (s.modStrand c st f).mapMode = s.mapMode := rfl
@[simp] theorem State.modStrand_plans (s : State) (c st : Nat) (f : Strand → Strand) : (s.modStrand c st f).plans = s.plans := rfl
@[simp] theorem State.modStrand_carveOut (s : State) (c st : Nat) (f : Strand → Strand) : (s.modStrand c st f).carveOut = s.carveOut := rfl
@[simp] theorem State.modStrand_cxl (s : State) (c st : Nat) (f : Strand → Strand) : (s.modStrand c st f).cxl = s.cxl := rfl
@[simp] theorem State.modStrand_mgmtOut (s : State) (c st : Nat) (f : Strand → Strand) : (s.modStrand c st f).mgmtOut = s.mgmtOut := rfl
@[simp] theorem State.modStrand_podReply (s : State) (c st : Nat) (f : Strand → Strand) : (s.modStrand c st f).podReply = s.podReply := rfl
@[simp] theorem State.modStrand_cur (s : State) (c st : Nat) (f : Strand → Strand) : (s.modStrand c st f).cur = s.cur := rfl
@[simp] theorem State.modStrand_bank (s : State) (c st : Nat) (f : Strand → Strand) : (s.modStrand c st f).bank = s.bank := rfl
@[simp] theorem State.modStrand_agenda (s : State) (c st : Nat) (f : Strand → Strand) : (s.modStrand c st f).agenda = s.agenda := rfl
@[simp] theorem State.modStrand_freeCount (s : State) (c st : Nat) (f : Strand → Strand) : (s.modStrand c st f).freeCount = s.freeCount := rfl
@[simp] theorem State.modStrand_nextId (s : State) (c st : Nat) (f : Strand → Strand) : (s.modStrand c st f).nextId = s.nextId := rfl
@[simp] theorem State.modStrand_hostRead (s : State) (c st : Nat) (f : Strand → Strand) : (s.modStrand c st f).hostRead = s.hostRead := rfl

/-! ### State.modCtx -/

@[simp] theorem State.modCtx_mode (s : State) (k : Nat) (f : Ctx → Ctx) : (s.modCtx k f).mode = s.mode := rfl
@[simp] theorem State.modCtx_devs (s : State) (k : Nat) (f : Ctx → Ctx) : (s.modCtx k f).devs = s.devs := rfl
@[simp] theorem State.modCtx_dies (s : State) (k : Nat) (f : Ctx → Ctx) : (s.modCtx k f).dies = s.dies := rfl
@[simp] theorem State.modCtx_ports (s : State) (k : Nat) (f : Ctx → Ctx) : (s.modCtx k f).ports = s.ports := rfl
@[simp] theorem State.modCtx_mig (s : State) (k : Nat) (f : Ctx → Ctx) : (s.modCtx k f).mig = s.mig := rfl
@[simp] theorem State.modCtx_aon (s : State) (k : Nat) (f : Ctx → Ctx) : (s.modCtx k f).aon = s.aon := rfl
@[simp] theorem State.modCtx_pkgBase (s : State) (k : Nat) (f : Ctx → Ctx) : (s.modCtx k f).pkgBase = s.pkgBase := rfl
@[simp] theorem State.modCtx_pkgSkew (s : State) (k : Nat) (f : Ctx → Ctx) : (s.modCtx k f).pkgSkew = s.pkgSkew := rfl
@[simp] theorem State.modCtx_podMaster (s : State) (k : Nat) (f : Ctx → Ctx) : (s.modCtx k f).podMaster = s.podMaster := rfl
@[simp] theorem State.modCtx_podSync (s : State) (k : Nat) (f : Ctx → Ctx) : (s.modCtx k f).podSync = s.podSync := rfl
@[simp] theorem State.modCtx_mem (s : State) (k : Nat) (f : Ctx → Ctx) : (s.modCtx k f).mem = s.mem := rfl
@[simp] theorem State.modCtx_memPoison (s : State) (k : Nat) (f : Ctx → Ctx) : (s.modCtx k f).memPoison = s.memPoison := rfl
@[simp] theorem State.modCtx_lineKey (s : State) (k : Nat) (f : Ctx → Ctx) : (s.modCtx k f).lineKey = s.lineKey := rfl
@[simp] theorem State.modCtx_shadow (s : State) (k : Nat) (f : Ctx → Ctx) : (s.modCtx k f).shadow = s.shadow := rfl
@[simp] theorem State.modCtx_cached (s : State) (k : Nat) (f : Ctx → Ctx) : (s.modCtx k f).cached = s.cached := rfl
@[simp] theorem State.modCtx_launches (s : State) (k : Nat) (f : Ctx → Ctx) : (s.modCtx k f).launches = s.launches := rfl
@[simp] theorem State.modCtx_panels (s : State) (k : Nat) (f : Ctx → Ctx) : (s.modCtx k f).panels = s.panels := rfl
@[simp] theorem State.modCtx_teams (s : State) (k : Nat) (f : Ctx → Ctx) : (s.modCtx k f).teams = s.teams := rfl
@[simp] theorem State.modCtx_podBars (s : State) (k : Nat) (f : Ctx → Ctx) : (s.modCtx k f).podBars = s.podBars := rfl
@[simp] theorem State.modCtx_cores (s : State) (k : Nat) (f : Ctx → Ctx) : (s.modCtx k f).cores = s.cores := rfl
@[simp] theorem State.modCtx_slots (s : State) (k : Nat) (f : Ctx → Ctx) : (s.modCtx k f).slots = s.slots := rfl
@[simp] theorem State.modCtx_gens (s : State) (k : Nat) (f : Ctx → Ctx) : (s.modCtx k f).gens = s.gens := rfl
@[simp] theorem State.modCtx_courses (s : State) (k : Nat) (f : Ctx → Ctx) : (s.modCtx k f).courses = s.courses := rfl
@[simp] theorem State.modCtx_saved (s : State) (k : Nat) (f : Ctx → Ctx) : (s.modCtx k f).saved = s.saved := rfl
@[simp] theorem State.modCtx_savedTeams (s : State) (k : Nat) (f : Ctx → Ctx) : (s.modCtx k f).savedTeams = s.savedTeams := rfl
@[simp] theorem State.modCtx_returning (s : State) (k : Nat) (f : Ctx → Ctx) : (s.modCtx k f).returning = s.returning := rfl
@[simp] theorem State.modCtx_armed (s : State) (k : Nat) (f : Ctx → Ctx) : (s.modCtx k f).armed = s.armed := rfl
@[simp] theorem State.modCtx_injected (s : State) (k : Nat) (f : Ctx → Ctx) : (s.modCtx k f).injected = s.injected := rfl
@[simp] theorem State.modCtx_accesses (s : State) (k : Nat) (f : Ctx → Ctx) : (s.modCtx k f).accesses = s.accesses := rfl
@[simp] theorem State.modCtx_arrivals (s : State) (k : Nat) (f : Ctx → Ctx) : (s.modCtx k f).arrivals = s.arrivals := rfl
@[simp] theorem State.modCtx_gran (s : State) (k : Nat) (f : Ctx → Ctx) : (s.modCtx k f).gran = s.gran := rfl
@[simp] theorem State.modCtx_remotes (s : State) (k : Nat) (f : Ctx → Ctx) : (s.modCtx k f).remotes = s.remotes := rfl
@[simp] theorem State.modCtx_cows (s : State) (k : Nat) (f : Ctx → Ctx) : (s.modCtx k f).cows = s.cows := rfl
@[simp] theorem State.modCtx_rstvs (s : State) (k : Nat) (f : Ctx → Ctx) : (s.modCtx k f).rstvs = s.rstvs := rfl
@[simp] theorem State.modCtx_fences (s : State) (k : Nat) (f : Ctx → Ctx) : (s.modCtx k f).fences = s.fences := rfl
@[simp] theorem State.modCtx_collSets (s : State) (k : Nat) (f : Ctx → Ctx) : (s.modCtx k f).collSets = s.collSets := rfl
@[simp] theorem State.modCtx_collNums (s : State) (k : Nat) (f : Ctx → Ctx) : (s.modCtx k f).collNums = s.collNums := rfl
@[simp] theorem State.modCtx_bootCount (s : State) (k : Nat) (f : Ctx → Ctx) : (s.modCtx k f).bootCount = s.bootCount := rfl
@[simp] theorem State.modCtx_measures (s : State) (k : Nat) (f : Ctx → Ctx) : (s.modCtx k f).measures = s.measures := rfl
@[simp] theorem State.modCtx_svn (s : State) (k : Nat) (f : Ctx → Ctx) : (s.modCtx k f).svn = s.svn := rfl
@[simp] theorem State.modCtx_svnMin (s : State) (k : Nat) (f : Ctx → Ctx) : (s.modCtx k f).svnMin = s.svnMin := rfl
@[simp] theorem State.modCtx_booting (s : State) (k : Nat) (f : Ctx → Ctx) : (s.modCtx k f).booting = s.booting := rfl
@[simp] theorem State.modCtx_bootAt (s : State) (k : Nat) (f : Ctx → Ctx) : (s.modCtx k f).bootAt = s.bootAt := rfl
@[simp] theorem State.modCtx_appHalt (s : State) (k : Nat) (f : Ctx → Ctx) : (s.modCtx k f).appHalt = s.appHalt := rfl
@[simp] theorem State.modCtx_nonce (s : State) (k : Nat) (f : Ctx → Ctx) : (s.modCtx k f).nonce = s.nonce := rfl
@[simp] theorem State.modCtx_images (s : State) (k : Nat) (f : Ctx → Ctx) : (s.modCtx k f).images = s.images := rfl
@[simp] theorem State.modCtx_mapMode (s : State) (k : Nat) (f : Ctx → Ctx) : (s.modCtx k f).mapMode = s.mapMode := rfl
@[simp] theorem State.modCtx_plans (s : State) (k : Nat) (f : Ctx → Ctx) : (s.modCtx k f).plans = s.plans := rfl
@[simp] theorem State.modCtx_carveOut (s : State) (k : Nat) (f : Ctx → Ctx) : (s.modCtx k f).carveOut = s.carveOut := rfl
@[simp] theorem State.modCtx_cxl (s : State) (k : Nat) (f : Ctx → Ctx) : (s.modCtx k f).cxl = s.cxl := rfl
@[simp] theorem State.modCtx_mgmtOut (s : State) (k : Nat) (f : Ctx → Ctx) : (s.modCtx k f).mgmtOut = s.mgmtOut := rfl
@[simp] theorem State.modCtx_podReply (s : State) (k : Nat) (f : Ctx → Ctx) : (s.modCtx k f).podReply = s.podReply := rfl
@[simp] theorem State.modCtx_cur (s : State) (k : Nat) (f : Ctx → Ctx) : (s.modCtx k f).cur = s.cur := rfl
@[simp] theorem State.modCtx_bank (s : State) (k : Nat) (f : Ctx → Ctx) : (s.modCtx k f).bank = s.bank := rfl
@[simp] theorem State.modCtx_agenda (s : State) (k : Nat) (f : Ctx → Ctx) : (s.modCtx k f).agenda = s.agenda := rfl
@[simp] theorem State.modCtx_freeCount (s : State) (k : Nat) (f : Ctx → Ctx) : (s.modCtx k f).freeCount = s.freeCount := rfl
@[simp] theorem State.modCtx_nextId (s : State) (k : Nat) (f : Ctx → Ctx) : (s.modCtx k f).nextId = s.nextId := rfl
@[simp] theorem State.modCtx_hostRead (s : State) (k : Nat) (f : Ctx → Ctx) : (s.modCtx k f).hostRead = s.hostRead := rfl

/-! ### State.modTeam -/

@[simp] theorem State.modTeam_mode (s : State) (t : Nat) (f : Team → Team) : (s.modTeam t f).mode = s.mode := rfl
@[simp] theorem State.modTeam_devs (s : State) (t : Nat) (f : Team → Team) : (s.modTeam t f).devs = s.devs := rfl
@[simp] theorem State.modTeam_dies (s : State) (t : Nat) (f : Team → Team) : (s.modTeam t f).dies = s.dies := rfl
@[simp] theorem State.modTeam_ports (s : State) (t : Nat) (f : Team → Team) : (s.modTeam t f).ports = s.ports := rfl
@[simp] theorem State.modTeam_mig (s : State) (t : Nat) (f : Team → Team) : (s.modTeam t f).mig = s.mig := rfl
@[simp] theorem State.modTeam_aon (s : State) (t : Nat) (f : Team → Team) : (s.modTeam t f).aon = s.aon := rfl
@[simp] theorem State.modTeam_pkgBase (s : State) (t : Nat) (f : Team → Team) : (s.modTeam t f).pkgBase = s.pkgBase := rfl
@[simp] theorem State.modTeam_pkgSkew (s : State) (t : Nat) (f : Team → Team) : (s.modTeam t f).pkgSkew = s.pkgSkew := rfl
@[simp] theorem State.modTeam_podMaster (s : State) (t : Nat) (f : Team → Team) : (s.modTeam t f).podMaster = s.podMaster := rfl
@[simp] theorem State.modTeam_podSync (s : State) (t : Nat) (f : Team → Team) : (s.modTeam t f).podSync = s.podSync := rfl
@[simp] theorem State.modTeam_mem (s : State) (t : Nat) (f : Team → Team) : (s.modTeam t f).mem = s.mem := rfl
@[simp] theorem State.modTeam_memPoison (s : State) (t : Nat) (f : Team → Team) : (s.modTeam t f).memPoison = s.memPoison := rfl
@[simp] theorem State.modTeam_lineKey (s : State) (t : Nat) (f : Team → Team) : (s.modTeam t f).lineKey = s.lineKey := rfl
@[simp] theorem State.modTeam_shadow (s : State) (t : Nat) (f : Team → Team) : (s.modTeam t f).shadow = s.shadow := rfl
@[simp] theorem State.modTeam_cached (s : State) (t : Nat) (f : Team → Team) : (s.modTeam t f).cached = s.cached := rfl
@[simp] theorem State.modTeam_ctxs (s : State) (t : Nat) (f : Team → Team) : (s.modTeam t f).ctxs = s.ctxs := rfl
@[simp] theorem State.modTeam_launches (s : State) (t : Nat) (f : Team → Team) : (s.modTeam t f).launches = s.launches := rfl
@[simp] theorem State.modTeam_panels (s : State) (t : Nat) (f : Team → Team) : (s.modTeam t f).panels = s.panels := rfl
@[simp] theorem State.modTeam_podBars (s : State) (t : Nat) (f : Team → Team) : (s.modTeam t f).podBars = s.podBars := rfl
@[simp] theorem State.modTeam_cores (s : State) (t : Nat) (f : Team → Team) : (s.modTeam t f).cores = s.cores := rfl
@[simp] theorem State.modTeam_slots (s : State) (t : Nat) (f : Team → Team) : (s.modTeam t f).slots = s.slots := rfl
@[simp] theorem State.modTeam_gens (s : State) (t : Nat) (f : Team → Team) : (s.modTeam t f).gens = s.gens := rfl
@[simp] theorem State.modTeam_courses (s : State) (t : Nat) (f : Team → Team) : (s.modTeam t f).courses = s.courses := rfl
@[simp] theorem State.modTeam_saved (s : State) (t : Nat) (f : Team → Team) : (s.modTeam t f).saved = s.saved := rfl
@[simp] theorem State.modTeam_savedTeams (s : State) (t : Nat) (f : Team → Team) : (s.modTeam t f).savedTeams = s.savedTeams := rfl
@[simp] theorem State.modTeam_returning (s : State) (t : Nat) (f : Team → Team) : (s.modTeam t f).returning = s.returning := rfl
@[simp] theorem State.modTeam_armed (s : State) (t : Nat) (f : Team → Team) : (s.modTeam t f).armed = s.armed := rfl
@[simp] theorem State.modTeam_injected (s : State) (t : Nat) (f : Team → Team) : (s.modTeam t f).injected = s.injected := rfl
@[simp] theorem State.modTeam_accesses (s : State) (t : Nat) (f : Team → Team) : (s.modTeam t f).accesses = s.accesses := rfl
@[simp] theorem State.modTeam_arrivals (s : State) (t : Nat) (f : Team → Team) : (s.modTeam t f).arrivals = s.arrivals := rfl
@[simp] theorem State.modTeam_gran (s : State) (t : Nat) (f : Team → Team) : (s.modTeam t f).gran = s.gran := rfl
@[simp] theorem State.modTeam_remotes (s : State) (t : Nat) (f : Team → Team) : (s.modTeam t f).remotes = s.remotes := rfl
@[simp] theorem State.modTeam_cows (s : State) (t : Nat) (f : Team → Team) : (s.modTeam t f).cows = s.cows := rfl
@[simp] theorem State.modTeam_rstvs (s : State) (t : Nat) (f : Team → Team) : (s.modTeam t f).rstvs = s.rstvs := rfl
@[simp] theorem State.modTeam_fences (s : State) (t : Nat) (f : Team → Team) : (s.modTeam t f).fences = s.fences := rfl
@[simp] theorem State.modTeam_collSets (s : State) (t : Nat) (f : Team → Team) : (s.modTeam t f).collSets = s.collSets := rfl
@[simp] theorem State.modTeam_collNums (s : State) (t : Nat) (f : Team → Team) : (s.modTeam t f).collNums = s.collNums := rfl
@[simp] theorem State.modTeam_bootCount (s : State) (t : Nat) (f : Team → Team) : (s.modTeam t f).bootCount = s.bootCount := rfl
@[simp] theorem State.modTeam_measures (s : State) (t : Nat) (f : Team → Team) : (s.modTeam t f).measures = s.measures := rfl
@[simp] theorem State.modTeam_svn (s : State) (t : Nat) (f : Team → Team) : (s.modTeam t f).svn = s.svn := rfl
@[simp] theorem State.modTeam_svnMin (s : State) (t : Nat) (f : Team → Team) : (s.modTeam t f).svnMin = s.svnMin := rfl
@[simp] theorem State.modTeam_booting (s : State) (t : Nat) (f : Team → Team) : (s.modTeam t f).booting = s.booting := rfl
@[simp] theorem State.modTeam_bootAt (s : State) (t : Nat) (f : Team → Team) : (s.modTeam t f).bootAt = s.bootAt := rfl
@[simp] theorem State.modTeam_appHalt (s : State) (t : Nat) (f : Team → Team) : (s.modTeam t f).appHalt = s.appHalt := rfl
@[simp] theorem State.modTeam_nonce (s : State) (t : Nat) (f : Team → Team) : (s.modTeam t f).nonce = s.nonce := rfl
@[simp] theorem State.modTeam_images (s : State) (t : Nat) (f : Team → Team) : (s.modTeam t f).images = s.images := rfl
@[simp] theorem State.modTeam_mapMode (s : State) (t : Nat) (f : Team → Team) : (s.modTeam t f).mapMode = s.mapMode := rfl
@[simp] theorem State.modTeam_plans (s : State) (t : Nat) (f : Team → Team) : (s.modTeam t f).plans = s.plans := rfl
@[simp] theorem State.modTeam_carveOut (s : State) (t : Nat) (f : Team → Team) : (s.modTeam t f).carveOut = s.carveOut := rfl
@[simp] theorem State.modTeam_cxl (s : State) (t : Nat) (f : Team → Team) : (s.modTeam t f).cxl = s.cxl := rfl
@[simp] theorem State.modTeam_mgmtOut (s : State) (t : Nat) (f : Team → Team) : (s.modTeam t f).mgmtOut = s.mgmtOut := rfl
@[simp] theorem State.modTeam_podReply (s : State) (t : Nat) (f : Team → Team) : (s.modTeam t f).podReply = s.podReply := rfl
@[simp] theorem State.modTeam_cur (s : State) (t : Nat) (f : Team → Team) : (s.modTeam t f).cur = s.cur := rfl
@[simp] theorem State.modTeam_bank (s : State) (t : Nat) (f : Team → Team) : (s.modTeam t f).bank = s.bank := rfl
@[simp] theorem State.modTeam_agenda (s : State) (t : Nat) (f : Team → Team) : (s.modTeam t f).agenda = s.agenda := rfl
@[simp] theorem State.modTeam_freeCount (s : State) (t : Nat) (f : Team → Team) : (s.modTeam t f).freeCount = s.freeCount := rfl
@[simp] theorem State.modTeam_nextId (s : State) (t : Nat) (f : Team → Team) : (s.modTeam t f).nextId = s.nextId := rfl
@[simp] theorem State.modTeam_hostRead (s : State) (t : Nat) (f : Team → Team) : (s.modTeam t f).hostRead = s.hostRead := rfl

/-! ### State.count -/

@[simp] theorem State.count_mode (s : State) (ctx off n : Nat) : (s.count ctx off n).mode = s.mode := rfl
@[simp] theorem State.count_devs (s : State) (ctx off n : Nat) : (s.count ctx off n).devs = s.devs := rfl
@[simp] theorem State.count_dies (s : State) (ctx off n : Nat) : (s.count ctx off n).dies = s.dies := rfl
@[simp] theorem State.count_ports (s : State) (ctx off n : Nat) : (s.count ctx off n).ports = s.ports := rfl
@[simp] theorem State.count_mig (s : State) (ctx off n : Nat) : (s.count ctx off n).mig = s.mig := rfl
@[simp] theorem State.count_aon (s : State) (ctx off n : Nat) : (s.count ctx off n).aon = s.aon := rfl
@[simp] theorem State.count_pkgBase (s : State) (ctx off n : Nat) : (s.count ctx off n).pkgBase = s.pkgBase := rfl
@[simp] theorem State.count_pkgSkew (s : State) (ctx off n : Nat) : (s.count ctx off n).pkgSkew = s.pkgSkew := rfl
@[simp] theorem State.count_podMaster (s : State) (ctx off n : Nat) : (s.count ctx off n).podMaster = s.podMaster := rfl
@[simp] theorem State.count_podSync (s : State) (ctx off n : Nat) : (s.count ctx off n).podSync = s.podSync := rfl
@[simp] theorem State.count_mem (s : State) (ctx off n : Nat) : (s.count ctx off n).mem = s.mem := rfl
@[simp] theorem State.count_memPoison (s : State) (ctx off n : Nat) : (s.count ctx off n).memPoison = s.memPoison := rfl
@[simp] theorem State.count_lineKey (s : State) (ctx off n : Nat) : (s.count ctx off n).lineKey = s.lineKey := rfl
@[simp] theorem State.count_shadow (s : State) (ctx off n : Nat) : (s.count ctx off n).shadow = s.shadow := rfl
@[simp] theorem State.count_cached (s : State) (ctx off n : Nat) : (s.count ctx off n).cached = s.cached := rfl
@[simp] theorem State.count_launches (s : State) (ctx off n : Nat) : (s.count ctx off n).launches = s.launches := rfl
@[simp] theorem State.count_panels (s : State) (ctx off n : Nat) : (s.count ctx off n).panels = s.panels := rfl
@[simp] theorem State.count_teams (s : State) (ctx off n : Nat) : (s.count ctx off n).teams = s.teams := rfl
@[simp] theorem State.count_podBars (s : State) (ctx off n : Nat) : (s.count ctx off n).podBars = s.podBars := rfl
@[simp] theorem State.count_cores (s : State) (ctx off n : Nat) : (s.count ctx off n).cores = s.cores := rfl
@[simp] theorem State.count_slots (s : State) (ctx off n : Nat) : (s.count ctx off n).slots = s.slots := rfl
@[simp] theorem State.count_gens (s : State) (ctx off n : Nat) : (s.count ctx off n).gens = s.gens := rfl
@[simp] theorem State.count_courses (s : State) (ctx off n : Nat) : (s.count ctx off n).courses = s.courses := rfl
@[simp] theorem State.count_saved (s : State) (ctx off n : Nat) : (s.count ctx off n).saved = s.saved := rfl
@[simp] theorem State.count_savedTeams (s : State) (ctx off n : Nat) : (s.count ctx off n).savedTeams = s.savedTeams := rfl
@[simp] theorem State.count_returning (s : State) (ctx off n : Nat) : (s.count ctx off n).returning = s.returning := rfl
@[simp] theorem State.count_armed (s : State) (ctx off n : Nat) : (s.count ctx off n).armed = s.armed := rfl
@[simp] theorem State.count_injected (s : State) (ctx off n : Nat) : (s.count ctx off n).injected = s.injected := rfl
@[simp] theorem State.count_accesses (s : State) (ctx off n : Nat) : (s.count ctx off n).accesses = s.accesses := rfl
@[simp] theorem State.count_arrivals (s : State) (ctx off n : Nat) : (s.count ctx off n).arrivals = s.arrivals := rfl
@[simp] theorem State.count_gran (s : State) (ctx off n : Nat) : (s.count ctx off n).gran = s.gran := rfl
@[simp] theorem State.count_remotes (s : State) (ctx off n : Nat) : (s.count ctx off n).remotes = s.remotes := rfl
@[simp] theorem State.count_cows (s : State) (ctx off n : Nat) : (s.count ctx off n).cows = s.cows := rfl
@[simp] theorem State.count_rstvs (s : State) (ctx off n : Nat) : (s.count ctx off n).rstvs = s.rstvs := rfl
@[simp] theorem State.count_fences (s : State) (ctx off n : Nat) : (s.count ctx off n).fences = s.fences := rfl
@[simp] theorem State.count_collSets (s : State) (ctx off n : Nat) : (s.count ctx off n).collSets = s.collSets := rfl
@[simp] theorem State.count_collNums (s : State) (ctx off n : Nat) : (s.count ctx off n).collNums = s.collNums := rfl
@[simp] theorem State.count_bootCount (s : State) (ctx off n : Nat) : (s.count ctx off n).bootCount = s.bootCount := rfl
@[simp] theorem State.count_measures (s : State) (ctx off n : Nat) : (s.count ctx off n).measures = s.measures := rfl
@[simp] theorem State.count_svn (s : State) (ctx off n : Nat) : (s.count ctx off n).svn = s.svn := rfl
@[simp] theorem State.count_svnMin (s : State) (ctx off n : Nat) : (s.count ctx off n).svnMin = s.svnMin := rfl
@[simp] theorem State.count_booting (s : State) (ctx off n : Nat) : (s.count ctx off n).booting = s.booting := rfl
@[simp] theorem State.count_bootAt (s : State) (ctx off n : Nat) : (s.count ctx off n).bootAt = s.bootAt := rfl
@[simp] theorem State.count_appHalt (s : State) (ctx off n : Nat) : (s.count ctx off n).appHalt = s.appHalt := rfl
@[simp] theorem State.count_nonce (s : State) (ctx off n : Nat) : (s.count ctx off n).nonce = s.nonce := rfl
@[simp] theorem State.count_images (s : State) (ctx off n : Nat) : (s.count ctx off n).images = s.images := rfl
@[simp] theorem State.count_mapMode (s : State) (ctx off n : Nat) : (s.count ctx off n).mapMode = s.mapMode := rfl
@[simp] theorem State.count_plans (s : State) (ctx off n : Nat) : (s.count ctx off n).plans = s.plans := rfl
@[simp] theorem State.count_carveOut (s : State) (ctx off n : Nat) : (s.count ctx off n).carveOut = s.carveOut := rfl
@[simp] theorem State.count_cxl (s : State) (ctx off n : Nat) : (s.count ctx off n).cxl = s.cxl := rfl
@[simp] theorem State.count_mgmtOut (s : State) (ctx off n : Nat) : (s.count ctx off n).mgmtOut = s.mgmtOut := rfl
@[simp] theorem State.count_podReply (s : State) (ctx off n : Nat) : (s.count ctx off n).podReply = s.podReply := rfl
@[simp] theorem State.count_cur (s : State) (ctx off n : Nat) : (s.count ctx off n).cur = s.cur := rfl
@[simp] theorem State.count_bank (s : State) (ctx off n : Nat) : (s.count ctx off n).bank = s.bank := rfl
@[simp] theorem State.count_agenda (s : State) (ctx off n : Nat) : (s.count ctx off n).agenda = s.agenda := rfl
@[simp] theorem State.count_freeCount (s : State) (ctx off n : Nat) : (s.count ctx off n).freeCount = s.freeCount := rfl
@[simp] theorem State.count_nextId (s : State) (ctx off n : Nat) : (s.count ctx off n).nextId = s.nextId := rfl
@[simp] theorem State.count_hostRead (s : State) (ctx off n : Nat) : (s.count ctx off n).hostRead = s.hostRead := rfl

/-! ### State.lineWritten -/

@[simp] theorem State.lineWritten_mode (s : State) (slot : Nat) (whole : Bool) (line : Nat) : (s.lineWritten slot whole line).mode = s.mode := rfl
@[simp] theorem State.lineWritten_devs (s : State) (slot : Nat) (whole : Bool) (line : Nat) : (s.lineWritten slot whole line).devs = s.devs := rfl
@[simp] theorem State.lineWritten_dies (s : State) (slot : Nat) (whole : Bool) (line : Nat) : (s.lineWritten slot whole line).dies = s.dies := rfl
@[simp] theorem State.lineWritten_ports (s : State) (slot : Nat) (whole : Bool) (line : Nat) : (s.lineWritten slot whole line).ports = s.ports := rfl
@[simp] theorem State.lineWritten_mig (s : State) (slot : Nat) (whole : Bool) (line : Nat) : (s.lineWritten slot whole line).mig = s.mig := rfl
@[simp] theorem State.lineWritten_aon (s : State) (slot : Nat) (whole : Bool) (line : Nat) : (s.lineWritten slot whole line).aon = s.aon := rfl
@[simp] theorem State.lineWritten_pkgBase (s : State) (slot : Nat) (whole : Bool) (line : Nat) : (s.lineWritten slot whole line).pkgBase = s.pkgBase := rfl
@[simp] theorem State.lineWritten_pkgSkew (s : State) (slot : Nat) (whole : Bool) (line : Nat) : (s.lineWritten slot whole line).pkgSkew = s.pkgSkew := rfl
@[simp] theorem State.lineWritten_podMaster (s : State) (slot : Nat) (whole : Bool) (line : Nat) : (s.lineWritten slot whole line).podMaster = s.podMaster := rfl
@[simp] theorem State.lineWritten_podSync (s : State) (slot : Nat) (whole : Bool) (line : Nat) : (s.lineWritten slot whole line).podSync = s.podSync := rfl
@[simp] theorem State.lineWritten_mem (s : State) (slot : Nat) (whole : Bool) (line : Nat) : (s.lineWritten slot whole line).mem = s.mem := rfl
@[simp] theorem State.lineWritten_shadow (s : State) (slot : Nat) (whole : Bool) (line : Nat) : (s.lineWritten slot whole line).shadow = s.shadow := rfl
@[simp] theorem State.lineWritten_ctxs (s : State) (slot : Nat) (whole : Bool) (line : Nat) : (s.lineWritten slot whole line).ctxs = s.ctxs := rfl
@[simp] theorem State.lineWritten_launches (s : State) (slot : Nat) (whole : Bool) (line : Nat) : (s.lineWritten slot whole line).launches = s.launches := rfl
@[simp] theorem State.lineWritten_panels (s : State) (slot : Nat) (whole : Bool) (line : Nat) : (s.lineWritten slot whole line).panels = s.panels := rfl
@[simp] theorem State.lineWritten_teams (s : State) (slot : Nat) (whole : Bool) (line : Nat) : (s.lineWritten slot whole line).teams = s.teams := rfl
@[simp] theorem State.lineWritten_podBars (s : State) (slot : Nat) (whole : Bool) (line : Nat) : (s.lineWritten slot whole line).podBars = s.podBars := rfl
@[simp] theorem State.lineWritten_cores (s : State) (slot : Nat) (whole : Bool) (line : Nat) : (s.lineWritten slot whole line).cores = s.cores := rfl
@[simp] theorem State.lineWritten_slots (s : State) (slot : Nat) (whole : Bool) (line : Nat) : (s.lineWritten slot whole line).slots = s.slots := rfl
@[simp] theorem State.lineWritten_gens (s : State) (slot : Nat) (whole : Bool) (line : Nat) : (s.lineWritten slot whole line).gens = s.gens := rfl
@[simp] theorem State.lineWritten_courses (s : State) (slot : Nat) (whole : Bool) (line : Nat) : (s.lineWritten slot whole line).courses = s.courses := rfl
@[simp] theorem State.lineWritten_saved (s : State) (slot : Nat) (whole : Bool) (line : Nat) : (s.lineWritten slot whole line).saved = s.saved := rfl
@[simp] theorem State.lineWritten_savedTeams (s : State) (slot : Nat) (whole : Bool) (line : Nat) : (s.lineWritten slot whole line).savedTeams = s.savedTeams := rfl
@[simp] theorem State.lineWritten_returning (s : State) (slot : Nat) (whole : Bool) (line : Nat) : (s.lineWritten slot whole line).returning = s.returning := rfl
@[simp] theorem State.lineWritten_armed (s : State) (slot : Nat) (whole : Bool) (line : Nat) : (s.lineWritten slot whole line).armed = s.armed := rfl
@[simp] theorem State.lineWritten_injected (s : State) (slot : Nat) (whole : Bool) (line : Nat) : (s.lineWritten slot whole line).injected = s.injected := rfl
@[simp] theorem State.lineWritten_accesses (s : State) (slot : Nat) (whole : Bool) (line : Nat) : (s.lineWritten slot whole line).accesses = s.accesses := rfl
@[simp] theorem State.lineWritten_arrivals (s : State) (slot : Nat) (whole : Bool) (line : Nat) : (s.lineWritten slot whole line).arrivals = s.arrivals := rfl
@[simp] theorem State.lineWritten_gran (s : State) (slot : Nat) (whole : Bool) (line : Nat) : (s.lineWritten slot whole line).gran = s.gran := rfl
@[simp] theorem State.lineWritten_remotes (s : State) (slot : Nat) (whole : Bool) (line : Nat) : (s.lineWritten slot whole line).remotes = s.remotes := rfl
@[simp] theorem State.lineWritten_cows (s : State) (slot : Nat) (whole : Bool) (line : Nat) : (s.lineWritten slot whole line).cows = s.cows := rfl
@[simp] theorem State.lineWritten_rstvs (s : State) (slot : Nat) (whole : Bool) (line : Nat) : (s.lineWritten slot whole line).rstvs = s.rstvs := rfl
@[simp] theorem State.lineWritten_fences (s : State) (slot : Nat) (whole : Bool) (line : Nat) : (s.lineWritten slot whole line).fences = s.fences := rfl
@[simp] theorem State.lineWritten_collSets (s : State) (slot : Nat) (whole : Bool) (line : Nat) : (s.lineWritten slot whole line).collSets = s.collSets := rfl
@[simp] theorem State.lineWritten_collNums (s : State) (slot : Nat) (whole : Bool) (line : Nat) : (s.lineWritten slot whole line).collNums = s.collNums := rfl
@[simp] theorem State.lineWritten_bootCount (s : State) (slot : Nat) (whole : Bool) (line : Nat) : (s.lineWritten slot whole line).bootCount = s.bootCount := rfl
@[simp] theorem State.lineWritten_measures (s : State) (slot : Nat) (whole : Bool) (line : Nat) : (s.lineWritten slot whole line).measures = s.measures := rfl
@[simp] theorem State.lineWritten_svn (s : State) (slot : Nat) (whole : Bool) (line : Nat) : (s.lineWritten slot whole line).svn = s.svn := rfl
@[simp] theorem State.lineWritten_svnMin (s : State) (slot : Nat) (whole : Bool) (line : Nat) : (s.lineWritten slot whole line).svnMin = s.svnMin := rfl
@[simp] theorem State.lineWritten_booting (s : State) (slot : Nat) (whole : Bool) (line : Nat) : (s.lineWritten slot whole line).booting = s.booting := rfl
@[simp] theorem State.lineWritten_bootAt (s : State) (slot : Nat) (whole : Bool) (line : Nat) : (s.lineWritten slot whole line).bootAt = s.bootAt := rfl
@[simp] theorem State.lineWritten_appHalt (s : State) (slot : Nat) (whole : Bool) (line : Nat) : (s.lineWritten slot whole line).appHalt = s.appHalt := rfl
@[simp] theorem State.lineWritten_nonce (s : State) (slot : Nat) (whole : Bool) (line : Nat) : (s.lineWritten slot whole line).nonce = s.nonce := rfl
@[simp] theorem State.lineWritten_images (s : State) (slot : Nat) (whole : Bool) (line : Nat) : (s.lineWritten slot whole line).images = s.images := rfl
@[simp] theorem State.lineWritten_mapMode (s : State) (slot : Nat) (whole : Bool) (line : Nat) : (s.lineWritten slot whole line).mapMode = s.mapMode := rfl
@[simp] theorem State.lineWritten_plans (s : State) (slot : Nat) (whole : Bool) (line : Nat) : (s.lineWritten slot whole line).plans = s.plans := rfl
@[simp] theorem State.lineWritten_carveOut (s : State) (slot : Nat) (whole : Bool) (line : Nat) : (s.lineWritten slot whole line).carveOut = s.carveOut := rfl
@[simp] theorem State.lineWritten_cxl (s : State) (slot : Nat) (whole : Bool) (line : Nat) : (s.lineWritten slot whole line).cxl = s.cxl := rfl
@[simp] theorem State.lineWritten_mgmtOut (s : State) (slot : Nat) (whole : Bool) (line : Nat) : (s.lineWritten slot whole line).mgmtOut = s.mgmtOut := rfl
@[simp] theorem State.lineWritten_podReply (s : State) (slot : Nat) (whole : Bool) (line : Nat) : (s.lineWritten slot whole line).podReply = s.podReply := rfl
@[simp] theorem State.lineWritten_cur (s : State) (slot : Nat) (whole : Bool) (line : Nat) : (s.lineWritten slot whole line).cur = s.cur := rfl
@[simp] theorem State.lineWritten_bank (s : State) (slot : Nat) (whole : Bool) (line : Nat) : (s.lineWritten slot whole line).bank = s.bank := rfl
@[simp] theorem State.lineWritten_agenda (s : State) (slot : Nat) (whole : Bool) (line : Nat) : (s.lineWritten slot whole line).agenda = s.agenda := rfl
@[simp] theorem State.lineWritten_freeCount (s : State) (slot : Nat) (whole : Bool) (line : Nat) : (s.lineWritten slot whole line).freeCount = s.freeCount := rfl
@[simp] theorem State.lineWritten_nextId (s : State) (slot : Nat) (whole : Bool) (line : Nat) : (s.lineWritten slot whole line).nextId = s.nextId := rfl
@[simp] theorem State.lineWritten_hostRead (s : State) (slot : Nat) (whole : Bool) (line : Nat) : (s.lineWritten slot whole line).hostRead = s.hostRead := rfl

/-! ### State.underKey -/

@[simp] theorem State.underKey_mode (s : State) (slot line : Nat) : (s.underKey slot line).mode = s.mode := rfl
@[simp] theorem State.underKey_devs (s : State) (slot line : Nat) : (s.underKey slot line).devs = s.devs := rfl
@[simp] theorem State.underKey_dies (s : State) (slot line : Nat) : (s.underKey slot line).dies = s.dies := rfl
@[simp] theorem State.underKey_ports (s : State) (slot line : Nat) : (s.underKey slot line).ports = s.ports := rfl
@[simp] theorem State.underKey_mig (s : State) (slot line : Nat) : (s.underKey slot line).mig = s.mig := rfl
@[simp] theorem State.underKey_aon (s : State) (slot line : Nat) : (s.underKey slot line).aon = s.aon := rfl
@[simp] theorem State.underKey_pkgBase (s : State) (slot line : Nat) : (s.underKey slot line).pkgBase = s.pkgBase := rfl
@[simp] theorem State.underKey_pkgSkew (s : State) (slot line : Nat) : (s.underKey slot line).pkgSkew = s.pkgSkew := rfl
@[simp] theorem State.underKey_podMaster (s : State) (slot line : Nat) : (s.underKey slot line).podMaster = s.podMaster := rfl
@[simp] theorem State.underKey_podSync (s : State) (slot line : Nat) : (s.underKey slot line).podSync = s.podSync := rfl
@[simp] theorem State.underKey_memPoison (s : State) (slot line : Nat) : (s.underKey slot line).memPoison = s.memPoison := rfl
@[simp] theorem State.underKey_shadow (s : State) (slot line : Nat) : (s.underKey slot line).shadow = s.shadow := rfl
@[simp] theorem State.underKey_cached (s : State) (slot line : Nat) : (s.underKey slot line).cached = s.cached := rfl
@[simp] theorem State.underKey_ctxs (s : State) (slot line : Nat) : (s.underKey slot line).ctxs = s.ctxs := rfl
@[simp] theorem State.underKey_launches (s : State) (slot line : Nat) : (s.underKey slot line).launches = s.launches := rfl
@[simp] theorem State.underKey_panels (s : State) (slot line : Nat) : (s.underKey slot line).panels = s.panels := rfl
@[simp] theorem State.underKey_teams (s : State) (slot line : Nat) : (s.underKey slot line).teams = s.teams := rfl
@[simp] theorem State.underKey_podBars (s : State) (slot line : Nat) : (s.underKey slot line).podBars = s.podBars := rfl
@[simp] theorem State.underKey_cores (s : State) (slot line : Nat) : (s.underKey slot line).cores = s.cores := rfl
@[simp] theorem State.underKey_slots (s : State) (slot line : Nat) : (s.underKey slot line).slots = s.slots := rfl
@[simp] theorem State.underKey_gens (s : State) (slot line : Nat) : (s.underKey slot line).gens = s.gens := rfl
@[simp] theorem State.underKey_courses (s : State) (slot line : Nat) : (s.underKey slot line).courses = s.courses := rfl
@[simp] theorem State.underKey_saved (s : State) (slot line : Nat) : (s.underKey slot line).saved = s.saved := rfl
@[simp] theorem State.underKey_savedTeams (s : State) (slot line : Nat) : (s.underKey slot line).savedTeams = s.savedTeams := rfl
@[simp] theorem State.underKey_returning (s : State) (slot line : Nat) : (s.underKey slot line).returning = s.returning := rfl
@[simp] theorem State.underKey_armed (s : State) (slot line : Nat) : (s.underKey slot line).armed = s.armed := rfl
@[simp] theorem State.underKey_injected (s : State) (slot line : Nat) : (s.underKey slot line).injected = s.injected := rfl
@[simp] theorem State.underKey_accesses (s : State) (slot line : Nat) : (s.underKey slot line).accesses = s.accesses := rfl
@[simp] theorem State.underKey_arrivals (s : State) (slot line : Nat) : (s.underKey slot line).arrivals = s.arrivals := rfl
@[simp] theorem State.underKey_gran (s : State) (slot line : Nat) : (s.underKey slot line).gran = s.gran := rfl
@[simp] theorem State.underKey_remotes (s : State) (slot line : Nat) : (s.underKey slot line).remotes = s.remotes := rfl
@[simp] theorem State.underKey_cows (s : State) (slot line : Nat) : (s.underKey slot line).cows = s.cows := rfl
@[simp] theorem State.underKey_rstvs (s : State) (slot line : Nat) : (s.underKey slot line).rstvs = s.rstvs := rfl
@[simp] theorem State.underKey_fences (s : State) (slot line : Nat) : (s.underKey slot line).fences = s.fences := rfl
@[simp] theorem State.underKey_collSets (s : State) (slot line : Nat) : (s.underKey slot line).collSets = s.collSets := rfl
@[simp] theorem State.underKey_collNums (s : State) (slot line : Nat) : (s.underKey slot line).collNums = s.collNums := rfl
@[simp] theorem State.underKey_bootCount (s : State) (slot line : Nat) : (s.underKey slot line).bootCount = s.bootCount := rfl
@[simp] theorem State.underKey_measures (s : State) (slot line : Nat) : (s.underKey slot line).measures = s.measures := rfl
@[simp] theorem State.underKey_svn (s : State) (slot line : Nat) : (s.underKey slot line).svn = s.svn := rfl
@[simp] theorem State.underKey_svnMin (s : State) (slot line : Nat) : (s.underKey slot line).svnMin = s.svnMin := rfl
@[simp] theorem State.underKey_booting (s : State) (slot line : Nat) : (s.underKey slot line).booting = s.booting := rfl
@[simp] theorem State.underKey_bootAt (s : State) (slot line : Nat) : (s.underKey slot line).bootAt = s.bootAt := rfl
@[simp] theorem State.underKey_appHalt (s : State) (slot line : Nat) : (s.underKey slot line).appHalt = s.appHalt := rfl
@[simp] theorem State.underKey_nonce (s : State) (slot line : Nat) : (s.underKey slot line).nonce = s.nonce := rfl
@[simp] theorem State.underKey_images (s : State) (slot line : Nat) : (s.underKey slot line).images = s.images := rfl
@[simp] theorem State.underKey_mapMode (s : State) (slot line : Nat) : (s.underKey slot line).mapMode = s.mapMode := rfl
@[simp] theorem State.underKey_plans (s : State) (slot line : Nat) : (s.underKey slot line).plans = s.plans := rfl
@[simp] theorem State.underKey_carveOut (s : State) (slot line : Nat) : (s.underKey slot line).carveOut = s.carveOut := rfl
@[simp] theorem State.underKey_cxl (s : State) (slot line : Nat) : (s.underKey slot line).cxl = s.cxl := rfl
@[simp] theorem State.underKey_mgmtOut (s : State) (slot line : Nat) : (s.underKey slot line).mgmtOut = s.mgmtOut := rfl
@[simp] theorem State.underKey_podReply (s : State) (slot line : Nat) : (s.underKey slot line).podReply = s.podReply := rfl
@[simp] theorem State.underKey_cur (s : State) (slot line : Nat) : (s.underKey slot line).cur = s.cur := rfl
@[simp] theorem State.underKey_bank (s : State) (slot line : Nat) : (s.underKey slot line).bank = s.bank := rfl
@[simp] theorem State.underKey_agenda (s : State) (slot line : Nat) : (s.underKey slot line).agenda = s.agenda := rfl
@[simp] theorem State.underKey_freeCount (s : State) (slot line : Nat) : (s.underKey slot line).freeCount = s.freeCount := rfl
@[simp] theorem State.underKey_nextId (s : State) (slot line : Nat) : (s.underKey slot line).nextId = s.nextId := rfl
@[simp] theorem State.underKey_hostRead (s : State) (slot line : Nat) : (s.underKey slot line).hostRead = s.hostRead := rfl

/-! ### State.fill -/

@[simp] theorem State.fill_mode (s : State) (die : Option Nat) (rdc : Bool) (line cls : Nat) : (s.fill die rdc line cls).mode = s.mode := rfl
@[simp] theorem State.fill_devs (s : State) (die : Option Nat) (rdc : Bool) (line cls : Nat) : (s.fill die rdc line cls).devs = s.devs := rfl
@[simp] theorem State.fill_dies (s : State) (die : Option Nat) (rdc : Bool) (line cls : Nat) : (s.fill die rdc line cls).dies = s.dies := rfl
@[simp] theorem State.fill_ports (s : State) (die : Option Nat) (rdc : Bool) (line cls : Nat) : (s.fill die rdc line cls).ports = s.ports := rfl
@[simp] theorem State.fill_mig (s : State) (die : Option Nat) (rdc : Bool) (line cls : Nat) : (s.fill die rdc line cls).mig = s.mig := rfl
@[simp] theorem State.fill_aon (s : State) (die : Option Nat) (rdc : Bool) (line cls : Nat) : (s.fill die rdc line cls).aon = s.aon := rfl
@[simp] theorem State.fill_pkgBase (s : State) (die : Option Nat) (rdc : Bool) (line cls : Nat) : (s.fill die rdc line cls).pkgBase = s.pkgBase := rfl
@[simp] theorem State.fill_pkgSkew (s : State) (die : Option Nat) (rdc : Bool) (line cls : Nat) : (s.fill die rdc line cls).pkgSkew = s.pkgSkew := rfl
@[simp] theorem State.fill_podMaster (s : State) (die : Option Nat) (rdc : Bool) (line cls : Nat) : (s.fill die rdc line cls).podMaster = s.podMaster := rfl
@[simp] theorem State.fill_podSync (s : State) (die : Option Nat) (rdc : Bool) (line cls : Nat) : (s.fill die rdc line cls).podSync = s.podSync := rfl
@[simp] theorem State.fill_mem (s : State) (die : Option Nat) (rdc : Bool) (line cls : Nat) : (s.fill die rdc line cls).mem = s.mem := rfl
@[simp] theorem State.fill_memPoison (s : State) (die : Option Nat) (rdc : Bool) (line cls : Nat) : (s.fill die rdc line cls).memPoison = s.memPoison := rfl
@[simp] theorem State.fill_lineKey (s : State) (die : Option Nat) (rdc : Bool) (line cls : Nat) : (s.fill die rdc line cls).lineKey = s.lineKey := rfl
@[simp] theorem State.fill_shadow (s : State) (die : Option Nat) (rdc : Bool) (line cls : Nat) : (s.fill die rdc line cls).shadow = s.shadow := rfl
@[simp] theorem State.fill_ctxs (s : State) (die : Option Nat) (rdc : Bool) (line cls : Nat) : (s.fill die rdc line cls).ctxs = s.ctxs := rfl
@[simp] theorem State.fill_launches (s : State) (die : Option Nat) (rdc : Bool) (line cls : Nat) : (s.fill die rdc line cls).launches = s.launches := rfl
@[simp] theorem State.fill_panels (s : State) (die : Option Nat) (rdc : Bool) (line cls : Nat) : (s.fill die rdc line cls).panels = s.panels := rfl
@[simp] theorem State.fill_teams (s : State) (die : Option Nat) (rdc : Bool) (line cls : Nat) : (s.fill die rdc line cls).teams = s.teams := rfl
@[simp] theorem State.fill_podBars (s : State) (die : Option Nat) (rdc : Bool) (line cls : Nat) : (s.fill die rdc line cls).podBars = s.podBars := rfl
@[simp] theorem State.fill_cores (s : State) (die : Option Nat) (rdc : Bool) (line cls : Nat) : (s.fill die rdc line cls).cores = s.cores := rfl
@[simp] theorem State.fill_slots (s : State) (die : Option Nat) (rdc : Bool) (line cls : Nat) : (s.fill die rdc line cls).slots = s.slots := rfl
@[simp] theorem State.fill_gens (s : State) (die : Option Nat) (rdc : Bool) (line cls : Nat) : (s.fill die rdc line cls).gens = s.gens := rfl
@[simp] theorem State.fill_courses (s : State) (die : Option Nat) (rdc : Bool) (line cls : Nat) : (s.fill die rdc line cls).courses = s.courses := rfl
@[simp] theorem State.fill_saved (s : State) (die : Option Nat) (rdc : Bool) (line cls : Nat) : (s.fill die rdc line cls).saved = s.saved := rfl
@[simp] theorem State.fill_savedTeams (s : State) (die : Option Nat) (rdc : Bool) (line cls : Nat) : (s.fill die rdc line cls).savedTeams = s.savedTeams := rfl
@[simp] theorem State.fill_returning (s : State) (die : Option Nat) (rdc : Bool) (line cls : Nat) : (s.fill die rdc line cls).returning = s.returning := rfl
@[simp] theorem State.fill_armed (s : State) (die : Option Nat) (rdc : Bool) (line cls : Nat) : (s.fill die rdc line cls).armed = s.armed := rfl
@[simp] theorem State.fill_injected (s : State) (die : Option Nat) (rdc : Bool) (line cls : Nat) : (s.fill die rdc line cls).injected = s.injected := rfl
@[simp] theorem State.fill_accesses (s : State) (die : Option Nat) (rdc : Bool) (line cls : Nat) : (s.fill die rdc line cls).accesses = s.accesses := rfl
@[simp] theorem State.fill_arrivals (s : State) (die : Option Nat) (rdc : Bool) (line cls : Nat) : (s.fill die rdc line cls).arrivals = s.arrivals := rfl
@[simp] theorem State.fill_gran (s : State) (die : Option Nat) (rdc : Bool) (line cls : Nat) : (s.fill die rdc line cls).gran = s.gran := rfl
@[simp] theorem State.fill_remotes (s : State) (die : Option Nat) (rdc : Bool) (line cls : Nat) : (s.fill die rdc line cls).remotes = s.remotes := rfl
@[simp] theorem State.fill_cows (s : State) (die : Option Nat) (rdc : Bool) (line cls : Nat) : (s.fill die rdc line cls).cows = s.cows := rfl
@[simp] theorem State.fill_rstvs (s : State) (die : Option Nat) (rdc : Bool) (line cls : Nat) : (s.fill die rdc line cls).rstvs = s.rstvs := rfl
@[simp] theorem State.fill_fences (s : State) (die : Option Nat) (rdc : Bool) (line cls : Nat) : (s.fill die rdc line cls).fences = s.fences := rfl
@[simp] theorem State.fill_collSets (s : State) (die : Option Nat) (rdc : Bool) (line cls : Nat) : (s.fill die rdc line cls).collSets = s.collSets := rfl
@[simp] theorem State.fill_collNums (s : State) (die : Option Nat) (rdc : Bool) (line cls : Nat) : (s.fill die rdc line cls).collNums = s.collNums := rfl
@[simp] theorem State.fill_bootCount (s : State) (die : Option Nat) (rdc : Bool) (line cls : Nat) : (s.fill die rdc line cls).bootCount = s.bootCount := rfl
@[simp] theorem State.fill_measures (s : State) (die : Option Nat) (rdc : Bool) (line cls : Nat) : (s.fill die rdc line cls).measures = s.measures := rfl
@[simp] theorem State.fill_svn (s : State) (die : Option Nat) (rdc : Bool) (line cls : Nat) : (s.fill die rdc line cls).svn = s.svn := rfl
@[simp] theorem State.fill_svnMin (s : State) (die : Option Nat) (rdc : Bool) (line cls : Nat) : (s.fill die rdc line cls).svnMin = s.svnMin := rfl
@[simp] theorem State.fill_booting (s : State) (die : Option Nat) (rdc : Bool) (line cls : Nat) : (s.fill die rdc line cls).booting = s.booting := rfl
@[simp] theorem State.fill_bootAt (s : State) (die : Option Nat) (rdc : Bool) (line cls : Nat) : (s.fill die rdc line cls).bootAt = s.bootAt := rfl
@[simp] theorem State.fill_appHalt (s : State) (die : Option Nat) (rdc : Bool) (line cls : Nat) : (s.fill die rdc line cls).appHalt = s.appHalt := rfl
@[simp] theorem State.fill_nonce (s : State) (die : Option Nat) (rdc : Bool) (line cls : Nat) : (s.fill die rdc line cls).nonce = s.nonce := rfl
@[simp] theorem State.fill_images (s : State) (die : Option Nat) (rdc : Bool) (line cls : Nat) : (s.fill die rdc line cls).images = s.images := rfl
@[simp] theorem State.fill_mapMode (s : State) (die : Option Nat) (rdc : Bool) (line cls : Nat) : (s.fill die rdc line cls).mapMode = s.mapMode := rfl
@[simp] theorem State.fill_plans (s : State) (die : Option Nat) (rdc : Bool) (line cls : Nat) : (s.fill die rdc line cls).plans = s.plans := rfl
@[simp] theorem State.fill_carveOut (s : State) (die : Option Nat) (rdc : Bool) (line cls : Nat) : (s.fill die rdc line cls).carveOut = s.carveOut := rfl
@[simp] theorem State.fill_cxl (s : State) (die : Option Nat) (rdc : Bool) (line cls : Nat) : (s.fill die rdc line cls).cxl = s.cxl := rfl
@[simp] theorem State.fill_mgmtOut (s : State) (die : Option Nat) (rdc : Bool) (line cls : Nat) : (s.fill die rdc line cls).mgmtOut = s.mgmtOut := rfl
@[simp] theorem State.fill_podReply (s : State) (die : Option Nat) (rdc : Bool) (line cls : Nat) : (s.fill die rdc line cls).podReply = s.podReply := rfl
@[simp] theorem State.fill_cur (s : State) (die : Option Nat) (rdc : Bool) (line cls : Nat) : (s.fill die rdc line cls).cur = s.cur := rfl
@[simp] theorem State.fill_bank (s : State) (die : Option Nat) (rdc : Bool) (line cls : Nat) : (s.fill die rdc line cls).bank = s.bank := rfl
@[simp] theorem State.fill_agenda (s : State) (die : Option Nat) (rdc : Bool) (line cls : Nat) : (s.fill die rdc line cls).agenda = s.agenda := rfl
@[simp] theorem State.fill_nextId (s : State) (die : Option Nat) (rdc : Bool) (line cls : Nat) : (s.fill die rdc line cls).nextId = s.nextId := rfl
@[simp] theorem State.fill_hostRead (s : State) (die : Option Nat) (rdc : Bool) (line cls : Nat) : (s.fill die rdc line cls).hostRead = s.hostRead := rfl

/-! ### State.clearFrame -/

@[simp] theorem State.clearFrame_mode (s : State) (key n : Nat) : (s.clearFrame key n).mode = s.mode := rfl
@[simp] theorem State.clearFrame_devs (s : State) (key n : Nat) : (s.clearFrame key n).devs = s.devs := rfl
@[simp] theorem State.clearFrame_dies (s : State) (key n : Nat) : (s.clearFrame key n).dies = s.dies := rfl
@[simp] theorem State.clearFrame_ports (s : State) (key n : Nat) : (s.clearFrame key n).ports = s.ports := rfl
@[simp] theorem State.clearFrame_mig (s : State) (key n : Nat) : (s.clearFrame key n).mig = s.mig := rfl
@[simp] theorem State.clearFrame_aon (s : State) (key n : Nat) : (s.clearFrame key n).aon = s.aon := rfl
@[simp] theorem State.clearFrame_pkgBase (s : State) (key n : Nat) : (s.clearFrame key n).pkgBase = s.pkgBase := rfl
@[simp] theorem State.clearFrame_pkgSkew (s : State) (key n : Nat) : (s.clearFrame key n).pkgSkew = s.pkgSkew := rfl
@[simp] theorem State.clearFrame_podMaster (s : State) (key n : Nat) : (s.clearFrame key n).podMaster = s.podMaster := rfl
@[simp] theorem State.clearFrame_podSync (s : State) (key n : Nat) : (s.clearFrame key n).podSync = s.podSync := rfl
@[simp] theorem State.clearFrame_mem (s : State) (key n : Nat) : (s.clearFrame key n).mem = s.mem := rfl
@[simp] theorem State.clearFrame_memPoison (s : State) (key n : Nat) : (s.clearFrame key n).memPoison = s.memPoison := rfl
@[simp] theorem State.clearFrame_lineKey (s : State) (key n : Nat) : (s.clearFrame key n).lineKey = s.lineKey := rfl
@[simp] theorem State.clearFrame_cached (s : State) (key n : Nat) : (s.clearFrame key n).cached = s.cached := rfl
@[simp] theorem State.clearFrame_ctxs (s : State) (key n : Nat) : (s.clearFrame key n).ctxs = s.ctxs := rfl
@[simp] theorem State.clearFrame_launches (s : State) (key n : Nat) : (s.clearFrame key n).launches = s.launches := rfl
@[simp] theorem State.clearFrame_panels (s : State) (key n : Nat) : (s.clearFrame key n).panels = s.panels := rfl
@[simp] theorem State.clearFrame_teams (s : State) (key n : Nat) : (s.clearFrame key n).teams = s.teams := rfl
@[simp] theorem State.clearFrame_podBars (s : State) (key n : Nat) : (s.clearFrame key n).podBars = s.podBars := rfl
@[simp] theorem State.clearFrame_cores (s : State) (key n : Nat) : (s.clearFrame key n).cores = s.cores := rfl
@[simp] theorem State.clearFrame_slots (s : State) (key n : Nat) : (s.clearFrame key n).slots = s.slots := rfl
@[simp] theorem State.clearFrame_gens (s : State) (key n : Nat) : (s.clearFrame key n).gens = s.gens := rfl
@[simp] theorem State.clearFrame_courses (s : State) (key n : Nat) : (s.clearFrame key n).courses = s.courses := rfl
@[simp] theorem State.clearFrame_saved (s : State) (key n : Nat) : (s.clearFrame key n).saved = s.saved := rfl
@[simp] theorem State.clearFrame_savedTeams (s : State) (key n : Nat) : (s.clearFrame key n).savedTeams = s.savedTeams := rfl
@[simp] theorem State.clearFrame_returning (s : State) (key n : Nat) : (s.clearFrame key n).returning = s.returning := rfl
@[simp] theorem State.clearFrame_armed (s : State) (key n : Nat) : (s.clearFrame key n).armed = s.armed := rfl
@[simp] theorem State.clearFrame_injected (s : State) (key n : Nat) : (s.clearFrame key n).injected = s.injected := rfl
@[simp] theorem State.clearFrame_accesses (s : State) (key n : Nat) : (s.clearFrame key n).accesses = s.accesses := rfl
@[simp] theorem State.clearFrame_arrivals (s : State) (key n : Nat) : (s.clearFrame key n).arrivals = s.arrivals := rfl
@[simp] theorem State.clearFrame_gran (s : State) (key n : Nat) : (s.clearFrame key n).gran = s.gran := rfl
@[simp] theorem State.clearFrame_remotes (s : State) (key n : Nat) : (s.clearFrame key n).remotes = s.remotes := rfl
@[simp] theorem State.clearFrame_cows (s : State) (key n : Nat) : (s.clearFrame key n).cows = s.cows := rfl
@[simp] theorem State.clearFrame_rstvs (s : State) (key n : Nat) : (s.clearFrame key n).rstvs = s.rstvs := rfl
@[simp] theorem State.clearFrame_fences (s : State) (key n : Nat) : (s.clearFrame key n).fences = s.fences := rfl
@[simp] theorem State.clearFrame_collSets (s : State) (key n : Nat) : (s.clearFrame key n).collSets = s.collSets := rfl
@[simp] theorem State.clearFrame_collNums (s : State) (key n : Nat) : (s.clearFrame key n).collNums = s.collNums := rfl
@[simp] theorem State.clearFrame_bootCount (s : State) (key n : Nat) : (s.clearFrame key n).bootCount = s.bootCount := rfl
@[simp] theorem State.clearFrame_measures (s : State) (key n : Nat) : (s.clearFrame key n).measures = s.measures := rfl
@[simp] theorem State.clearFrame_svn (s : State) (key n : Nat) : (s.clearFrame key n).svn = s.svn := rfl
@[simp] theorem State.clearFrame_svnMin (s : State) (key n : Nat) : (s.clearFrame key n).svnMin = s.svnMin := rfl
@[simp] theorem State.clearFrame_booting (s : State) (key n : Nat) : (s.clearFrame key n).booting = s.booting := rfl
@[simp] theorem State.clearFrame_bootAt (s : State) (key n : Nat) : (s.clearFrame key n).bootAt = s.bootAt := rfl
@[simp] theorem State.clearFrame_appHalt (s : State) (key n : Nat) : (s.clearFrame key n).appHalt = s.appHalt := rfl
@[simp] theorem State.clearFrame_nonce (s : State) (key n : Nat) : (s.clearFrame key n).nonce = s.nonce := rfl
@[simp] theorem State.clearFrame_images (s : State) (key n : Nat) : (s.clearFrame key n).images = s.images := rfl
@[simp] theorem State.clearFrame_mapMode (s : State) (key n : Nat) : (s.clearFrame key n).mapMode = s.mapMode := rfl
@[simp] theorem State.clearFrame_plans (s : State) (key n : Nat) : (s.clearFrame key n).plans = s.plans := rfl
@[simp] theorem State.clearFrame_carveOut (s : State) (key n : Nat) : (s.clearFrame key n).carveOut = s.carveOut := rfl
@[simp] theorem State.clearFrame_cxl (s : State) (key n : Nat) : (s.clearFrame key n).cxl = s.cxl := rfl
@[simp] theorem State.clearFrame_mgmtOut (s : State) (key n : Nat) : (s.clearFrame key n).mgmtOut = s.mgmtOut := rfl
@[simp] theorem State.clearFrame_podReply (s : State) (key n : Nat) : (s.clearFrame key n).podReply = s.podReply := rfl
@[simp] theorem State.clearFrame_cur (s : State) (key n : Nat) : (s.clearFrame key n).cur = s.cur := rfl
@[simp] theorem State.clearFrame_bank (s : State) (key n : Nat) : (s.clearFrame key n).bank = s.bank := rfl
@[simp] theorem State.clearFrame_agenda (s : State) (key n : Nat) : (s.clearFrame key n).agenda = s.agenda := rfl
@[simp] theorem State.clearFrame_freeCount (s : State) (key n : Nat) : (s.clearFrame key n).freeCount = s.freeCount := rfl
@[simp] theorem State.clearFrame_nextId (s : State) (key n : Nat) : (s.clearFrame key n).nextId = s.nextId := rfl
@[simp] theorem State.clearFrame_hostRead (s : State) (key n : Nat) : (s.clearFrame key n).hostRead = s.hostRead := rfl

/-! ### State.clearShadow -/

@[simp] theorem State.clearShadow_mode (s : State) (key n : Nat) : (s.clearShadow key n).mode = s.mode := rfl
@[simp] theorem State.clearShadow_devs (s : State) (key n : Nat) : (s.clearShadow key n).devs = s.devs := rfl
@[simp] theorem State.clearShadow_dies (s : State) (key n : Nat) : (s.clearShadow key n).dies = s.dies := rfl
@[simp] theorem State.clearShadow_ports (s : State) (key n : Nat) : (s.clearShadow key n).ports = s.ports := rfl
@[simp] theorem State.clearShadow_mig (s : State) (key n : Nat) : (s.clearShadow key n).mig = s.mig := rfl
@[simp] theorem State.clearShadow_aon (s : State) (key n : Nat) : (s.clearShadow key n).aon = s.aon := rfl
@[simp] theorem State.clearShadow_pkgBase (s : State) (key n : Nat) : (s.clearShadow key n).pkgBase = s.pkgBase := rfl
@[simp] theorem State.clearShadow_pkgSkew (s : State) (key n : Nat) : (s.clearShadow key n).pkgSkew = s.pkgSkew := rfl
@[simp] theorem State.clearShadow_podMaster (s : State) (key n : Nat) : (s.clearShadow key n).podMaster = s.podMaster := rfl
@[simp] theorem State.clearShadow_podSync (s : State) (key n : Nat) : (s.clearShadow key n).podSync = s.podSync := rfl
@[simp] theorem State.clearShadow_mem (s : State) (key n : Nat) : (s.clearShadow key n).mem = s.mem := rfl
@[simp] theorem State.clearShadow_memPoison (s : State) (key n : Nat) : (s.clearShadow key n).memPoison = s.memPoison := rfl
@[simp] theorem State.clearShadow_lineKey (s : State) (key n : Nat) : (s.clearShadow key n).lineKey = s.lineKey := rfl
@[simp] theorem State.clearShadow_cached (s : State) (key n : Nat) : (s.clearShadow key n).cached = s.cached := rfl
@[simp] theorem State.clearShadow_ctxs (s : State) (key n : Nat) : (s.clearShadow key n).ctxs = s.ctxs := rfl
@[simp] theorem State.clearShadow_launches (s : State) (key n : Nat) : (s.clearShadow key n).launches = s.launches := rfl
@[simp] theorem State.clearShadow_panels (s : State) (key n : Nat) : (s.clearShadow key n).panels = s.panels := rfl
@[simp] theorem State.clearShadow_teams (s : State) (key n : Nat) : (s.clearShadow key n).teams = s.teams := rfl
@[simp] theorem State.clearShadow_podBars (s : State) (key n : Nat) : (s.clearShadow key n).podBars = s.podBars := rfl
@[simp] theorem State.clearShadow_cores (s : State) (key n : Nat) : (s.clearShadow key n).cores = s.cores := rfl
@[simp] theorem State.clearShadow_slots (s : State) (key n : Nat) : (s.clearShadow key n).slots = s.slots := rfl
@[simp] theorem State.clearShadow_gens (s : State) (key n : Nat) : (s.clearShadow key n).gens = s.gens := rfl
@[simp] theorem State.clearShadow_courses (s : State) (key n : Nat) : (s.clearShadow key n).courses = s.courses := rfl
@[simp] theorem State.clearShadow_saved (s : State) (key n : Nat) : (s.clearShadow key n).saved = s.saved := rfl
@[simp] theorem State.clearShadow_savedTeams (s : State) (key n : Nat) : (s.clearShadow key n).savedTeams = s.savedTeams := rfl
@[simp] theorem State.clearShadow_returning (s : State) (key n : Nat) : (s.clearShadow key n).returning = s.returning := rfl
@[simp] theorem State.clearShadow_armed (s : State) (key n : Nat) : (s.clearShadow key n).armed = s.armed := rfl
@[simp] theorem State.clearShadow_injected (s : State) (key n : Nat) : (s.clearShadow key n).injected = s.injected := rfl
@[simp] theorem State.clearShadow_accesses (s : State) (key n : Nat) : (s.clearShadow key n).accesses = s.accesses := rfl
@[simp] theorem State.clearShadow_arrivals (s : State) (key n : Nat) : (s.clearShadow key n).arrivals = s.arrivals := rfl
@[simp] theorem State.clearShadow_gran (s : State) (key n : Nat) : (s.clearShadow key n).gran = s.gran := rfl
@[simp] theorem State.clearShadow_remotes (s : State) (key n : Nat) : (s.clearShadow key n).remotes = s.remotes := rfl
@[simp] theorem State.clearShadow_cows (s : State) (key n : Nat) : (s.clearShadow key n).cows = s.cows := rfl
@[simp] theorem State.clearShadow_rstvs (s : State) (key n : Nat) : (s.clearShadow key n).rstvs = s.rstvs := rfl
@[simp] theorem State.clearShadow_fences (s : State) (key n : Nat) : (s.clearShadow key n).fences = s.fences := rfl
@[simp] theorem State.clearShadow_collSets (s : State) (key n : Nat) : (s.clearShadow key n).collSets = s.collSets := rfl
@[simp] theorem State.clearShadow_collNums (s : State) (key n : Nat) : (s.clearShadow key n).collNums = s.collNums := rfl
@[simp] theorem State.clearShadow_bootCount (s : State) (key n : Nat) : (s.clearShadow key n).bootCount = s.bootCount := rfl
@[simp] theorem State.clearShadow_measures (s : State) (key n : Nat) : (s.clearShadow key n).measures = s.measures := rfl
@[simp] theorem State.clearShadow_svn (s : State) (key n : Nat) : (s.clearShadow key n).svn = s.svn := rfl
@[simp] theorem State.clearShadow_svnMin (s : State) (key n : Nat) : (s.clearShadow key n).svnMin = s.svnMin := rfl
@[simp] theorem State.clearShadow_booting (s : State) (key n : Nat) : (s.clearShadow key n).booting = s.booting := rfl
@[simp] theorem State.clearShadow_bootAt (s : State) (key n : Nat) : (s.clearShadow key n).bootAt = s.bootAt := rfl
@[simp] theorem State.clearShadow_appHalt (s : State) (key n : Nat) : (s.clearShadow key n).appHalt = s.appHalt := rfl
@[simp] theorem State.clearShadow_nonce (s : State) (key n : Nat) : (s.clearShadow key n).nonce = s.nonce := rfl
@[simp] theorem State.clearShadow_images (s : State) (key n : Nat) : (s.clearShadow key n).images = s.images := rfl
@[simp] theorem State.clearShadow_mapMode (s : State) (key n : Nat) : (s.clearShadow key n).mapMode = s.mapMode := rfl
@[simp] theorem State.clearShadow_plans (s : State) (key n : Nat) : (s.clearShadow key n).plans = s.plans := rfl
@[simp] theorem State.clearShadow_carveOut (s : State) (key n : Nat) : (s.clearShadow key n).carveOut = s.carveOut := rfl
@[simp] theorem State.clearShadow_cxl (s : State) (key n : Nat) : (s.clearShadow key n).cxl = s.cxl := rfl
@[simp] theorem State.clearShadow_mgmtOut (s : State) (key n : Nat) : (s.clearShadow key n).mgmtOut = s.mgmtOut := rfl
@[simp] theorem State.clearShadow_podReply (s : State) (key n : Nat) : (s.clearShadow key n).podReply = s.podReply := rfl
@[simp] theorem State.clearShadow_cur (s : State) (key n : Nat) : (s.clearShadow key n).cur = s.cur := rfl
@[simp] theorem State.clearShadow_bank (s : State) (key n : Nat) : (s.clearShadow key n).bank = s.bank := rfl
@[simp] theorem State.clearShadow_agenda (s : State) (key n : Nat) : (s.clearShadow key n).agenda = s.agenda := rfl
@[simp] theorem State.clearShadow_freeCount (s : State) (key n : Nat) : (s.clearShadow key n).freeCount = s.freeCount := rfl
@[simp] theorem State.clearShadow_nextId (s : State) (key n : Nat) : (s.clearShadow key n).nextId = s.nextId := rfl
@[simp] theorem State.clearShadow_hostRead (s : State) (key n : Nat) : (s.clearShadow key n).hostRead = s.hostRead := rfl

/-! ### State.release -/

@[simp] theorem State.release_mode (s : State) (c : Nat) : (s.release c).mode = s.mode := rfl
@[simp] theorem State.release_devs (s : State) (c : Nat) : (s.release c).devs = s.devs := rfl
@[simp] theorem State.release_dies (s : State) (c : Nat) : (s.release c).dies = s.dies := rfl
@[simp] theorem State.release_ports (s : State) (c : Nat) : (s.release c).ports = s.ports := rfl
@[simp] theorem State.release_mig (s : State) (c : Nat) : (s.release c).mig = s.mig := rfl
@[simp] theorem State.release_aon (s : State) (c : Nat) : (s.release c).aon = s.aon := rfl
@[simp] theorem State.release_pkgBase (s : State) (c : Nat) : (s.release c).pkgBase = s.pkgBase := rfl
@[simp] theorem State.release_pkgSkew (s : State) (c : Nat) : (s.release c).pkgSkew = s.pkgSkew := rfl
@[simp] theorem State.release_podMaster (s : State) (c : Nat) : (s.release c).podMaster = s.podMaster := rfl
@[simp] theorem State.release_podSync (s : State) (c : Nat) : (s.release c).podSync = s.podSync := rfl
@[simp] theorem State.release_mem (s : State) (c : Nat) : (s.release c).mem = s.mem := rfl
@[simp] theorem State.release_memPoison (s : State) (c : Nat) : (s.release c).memPoison = s.memPoison := rfl
@[simp] theorem State.release_lineKey (s : State) (c : Nat) : (s.release c).lineKey = s.lineKey := rfl
@[simp] theorem State.release_shadow (s : State) (c : Nat) : (s.release c).shadow = s.shadow := rfl
@[simp] theorem State.release_cached (s : State) (c : Nat) : (s.release c).cached = s.cached := rfl
@[simp] theorem State.release_ctxs (s : State) (c : Nat) : (s.release c).ctxs = s.ctxs := rfl
@[simp] theorem State.release_launches (s : State) (c : Nat) : (s.release c).launches = s.launches := rfl
@[simp] theorem State.release_panels (s : State) (c : Nat) : (s.release c).panels = s.panels := rfl
@[simp] theorem State.release_teams (s : State) (c : Nat) : (s.release c).teams = s.teams := rfl
@[simp] theorem State.release_podBars (s : State) (c : Nat) : (s.release c).podBars = s.podBars := rfl
@[simp] theorem State.release_cores (s : State) (c : Nat) : (s.release c).cores = s.cores := rfl
@[simp] theorem State.release_slots (s : State) (c : Nat) : (s.release c).slots = s.slots := rfl
@[simp] theorem State.release_gens (s : State) (c : Nat) : (s.release c).gens = s.gens := rfl
@[simp] theorem State.release_saved (s : State) (c : Nat) : (s.release c).saved = s.saved := rfl
@[simp] theorem State.release_savedTeams (s : State) (c : Nat) : (s.release c).savedTeams = s.savedTeams := rfl
@[simp] theorem State.release_returning (s : State) (c : Nat) : (s.release c).returning = s.returning := rfl
@[simp] theorem State.release_armed (s : State) (c : Nat) : (s.release c).armed = s.armed := rfl
@[simp] theorem State.release_injected (s : State) (c : Nat) : (s.release c).injected = s.injected := rfl
@[simp] theorem State.release_accesses (s : State) (c : Nat) : (s.release c).accesses = s.accesses := rfl
@[simp] theorem State.release_arrivals (s : State) (c : Nat) : (s.release c).arrivals = s.arrivals := rfl
@[simp] theorem State.release_gran (s : State) (c : Nat) : (s.release c).gran = s.gran := rfl
@[simp] theorem State.release_remotes (s : State) (c : Nat) : (s.release c).remotes = s.remotes := rfl
@[simp] theorem State.release_cows (s : State) (c : Nat) : (s.release c).cows = s.cows := rfl
@[simp] theorem State.release_rstvs (s : State) (c : Nat) : (s.release c).rstvs = s.rstvs := rfl
@[simp] theorem State.release_fences (s : State) (c : Nat) : (s.release c).fences = s.fences := rfl
@[simp] theorem State.release_collSets (s : State) (c : Nat) : (s.release c).collSets = s.collSets := rfl
@[simp] theorem State.release_collNums (s : State) (c : Nat) : (s.release c).collNums = s.collNums := rfl
@[simp] theorem State.release_bootCount (s : State) (c : Nat) : (s.release c).bootCount = s.bootCount := rfl
@[simp] theorem State.release_measures (s : State) (c : Nat) : (s.release c).measures = s.measures := rfl
@[simp] theorem State.release_svn (s : State) (c : Nat) : (s.release c).svn = s.svn := rfl
@[simp] theorem State.release_svnMin (s : State) (c : Nat) : (s.release c).svnMin = s.svnMin := rfl
@[simp] theorem State.release_booting (s : State) (c : Nat) : (s.release c).booting = s.booting := rfl
@[simp] theorem State.release_bootAt (s : State) (c : Nat) : (s.release c).bootAt = s.bootAt := rfl
@[simp] theorem State.release_appHalt (s : State) (c : Nat) : (s.release c).appHalt = s.appHalt := rfl
@[simp] theorem State.release_nonce (s : State) (c : Nat) : (s.release c).nonce = s.nonce := rfl
@[simp] theorem State.release_images (s : State) (c : Nat) : (s.release c).images = s.images := rfl
@[simp] theorem State.release_mapMode (s : State) (c : Nat) : (s.release c).mapMode = s.mapMode := rfl
@[simp] theorem State.release_plans (s : State) (c : Nat) : (s.release c).plans = s.plans := rfl
@[simp] theorem State.release_carveOut (s : State) (c : Nat) : (s.release c).carveOut = s.carveOut := rfl
@[simp] theorem State.release_cxl (s : State) (c : Nat) : (s.release c).cxl = s.cxl := rfl
@[simp] theorem State.release_mgmtOut (s : State) (c : Nat) : (s.release c).mgmtOut = s.mgmtOut := rfl
@[simp] theorem State.release_podReply (s : State) (c : Nat) : (s.release c).podReply = s.podReply := rfl
@[simp] theorem State.release_cur (s : State) (c : Nat) : (s.release c).cur = s.cur := rfl
@[simp] theorem State.release_bank (s : State) (c : Nat) : (s.release c).bank = s.bank := rfl
@[simp] theorem State.release_agenda (s : State) (c : Nat) : (s.release c).agenda = s.agenda := rfl
@[simp] theorem State.release_freeCount (s : State) (c : Nat) : (s.release c).freeCount = s.freeCount := rfl
@[simp] theorem State.release_nextId (s : State) (c : Nat) : (s.release c).nextId = s.nextId := rfl
@[simp] theorem State.release_hostRead (s : State) (c : Nat) : (s.release c).hostRead = s.hostRead := rfl

/-! ### State.waitAs -/

@[simp] theorem State.waitAs_mode (s : State) (x : At) (wt : Wait) (ready : Nat) : (s.waitAs x wt ready).mode = s.mode := rfl
@[simp] theorem State.waitAs_devs (s : State) (x : At) (wt : Wait) (ready : Nat) : (s.waitAs x wt ready).devs = s.devs := rfl
@[simp] theorem State.waitAs_dies (s : State) (x : At) (wt : Wait) (ready : Nat) : (s.waitAs x wt ready).dies = s.dies := rfl
@[simp] theorem State.waitAs_ports (s : State) (x : At) (wt : Wait) (ready : Nat) : (s.waitAs x wt ready).ports = s.ports := rfl
@[simp] theorem State.waitAs_mig (s : State) (x : At) (wt : Wait) (ready : Nat) : (s.waitAs x wt ready).mig = s.mig := rfl
@[simp] theorem State.waitAs_aon (s : State) (x : At) (wt : Wait) (ready : Nat) : (s.waitAs x wt ready).aon = s.aon := rfl
@[simp] theorem State.waitAs_pkgBase (s : State) (x : At) (wt : Wait) (ready : Nat) : (s.waitAs x wt ready).pkgBase = s.pkgBase := rfl
@[simp] theorem State.waitAs_pkgSkew (s : State) (x : At) (wt : Wait) (ready : Nat) : (s.waitAs x wt ready).pkgSkew = s.pkgSkew := rfl
@[simp] theorem State.waitAs_podMaster (s : State) (x : At) (wt : Wait) (ready : Nat) : (s.waitAs x wt ready).podMaster = s.podMaster := rfl
@[simp] theorem State.waitAs_podSync (s : State) (x : At) (wt : Wait) (ready : Nat) : (s.waitAs x wt ready).podSync = s.podSync := rfl
@[simp] theorem State.waitAs_mem (s : State) (x : At) (wt : Wait) (ready : Nat) : (s.waitAs x wt ready).mem = s.mem := rfl
@[simp] theorem State.waitAs_memPoison (s : State) (x : At) (wt : Wait) (ready : Nat) : (s.waitAs x wt ready).memPoison = s.memPoison := rfl
@[simp] theorem State.waitAs_lineKey (s : State) (x : At) (wt : Wait) (ready : Nat) : (s.waitAs x wt ready).lineKey = s.lineKey := rfl
@[simp] theorem State.waitAs_shadow (s : State) (x : At) (wt : Wait) (ready : Nat) : (s.waitAs x wt ready).shadow = s.shadow := rfl
@[simp] theorem State.waitAs_cached (s : State) (x : At) (wt : Wait) (ready : Nat) : (s.waitAs x wt ready).cached = s.cached := rfl
@[simp] theorem State.waitAs_ctxs (s : State) (x : At) (wt : Wait) (ready : Nat) : (s.waitAs x wt ready).ctxs = s.ctxs := rfl
@[simp] theorem State.waitAs_launches (s : State) (x : At) (wt : Wait) (ready : Nat) : (s.waitAs x wt ready).launches = s.launches := rfl
@[simp] theorem State.waitAs_panels (s : State) (x : At) (wt : Wait) (ready : Nat) : (s.waitAs x wt ready).panels = s.panels := rfl
@[simp] theorem State.waitAs_teams (s : State) (x : At) (wt : Wait) (ready : Nat) : (s.waitAs x wt ready).teams = s.teams := rfl
@[simp] theorem State.waitAs_podBars (s : State) (x : At) (wt : Wait) (ready : Nat) : (s.waitAs x wt ready).podBars = s.podBars := rfl
@[simp] theorem State.waitAs_cores (s : State) (x : At) (wt : Wait) (ready : Nat) : (s.waitAs x wt ready).cores = s.cores := rfl
@[simp] theorem State.waitAs_slots (s : State) (x : At) (wt : Wait) (ready : Nat) : (s.waitAs x wt ready).slots = s.slots := rfl
@[simp] theorem State.waitAs_gens (s : State) (x : At) (wt : Wait) (ready : Nat) : (s.waitAs x wt ready).gens = s.gens := rfl
@[simp] theorem State.waitAs_saved (s : State) (x : At) (wt : Wait) (ready : Nat) : (s.waitAs x wt ready).saved = s.saved := rfl
@[simp] theorem State.waitAs_savedTeams (s : State) (x : At) (wt : Wait) (ready : Nat) : (s.waitAs x wt ready).savedTeams = s.savedTeams := rfl
@[simp] theorem State.waitAs_returning (s : State) (x : At) (wt : Wait) (ready : Nat) : (s.waitAs x wt ready).returning = s.returning := rfl
@[simp] theorem State.waitAs_armed (s : State) (x : At) (wt : Wait) (ready : Nat) : (s.waitAs x wt ready).armed = s.armed := rfl
@[simp] theorem State.waitAs_injected (s : State) (x : At) (wt : Wait) (ready : Nat) : (s.waitAs x wt ready).injected = s.injected := rfl
@[simp] theorem State.waitAs_accesses (s : State) (x : At) (wt : Wait) (ready : Nat) : (s.waitAs x wt ready).accesses = s.accesses := rfl
@[simp] theorem State.waitAs_arrivals (s : State) (x : At) (wt : Wait) (ready : Nat) : (s.waitAs x wt ready).arrivals = s.arrivals := rfl
@[simp] theorem State.waitAs_gran (s : State) (x : At) (wt : Wait) (ready : Nat) : (s.waitAs x wt ready).gran = s.gran := rfl
@[simp] theorem State.waitAs_remotes (s : State) (x : At) (wt : Wait) (ready : Nat) : (s.waitAs x wt ready).remotes = s.remotes := rfl
@[simp] theorem State.waitAs_cows (s : State) (x : At) (wt : Wait) (ready : Nat) : (s.waitAs x wt ready).cows = s.cows := rfl
@[simp] theorem State.waitAs_rstvs (s : State) (x : At) (wt : Wait) (ready : Nat) : (s.waitAs x wt ready).rstvs = s.rstvs := rfl
@[simp] theorem State.waitAs_fences (s : State) (x : At) (wt : Wait) (ready : Nat) : (s.waitAs x wt ready).fences = s.fences := rfl
@[simp] theorem State.waitAs_collSets (s : State) (x : At) (wt : Wait) (ready : Nat) : (s.waitAs x wt ready).collSets = s.collSets := rfl
@[simp] theorem State.waitAs_collNums (s : State) (x : At) (wt : Wait) (ready : Nat) : (s.waitAs x wt ready).collNums = s.collNums := rfl
@[simp] theorem State.waitAs_bootCount (s : State) (x : At) (wt : Wait) (ready : Nat) : (s.waitAs x wt ready).bootCount = s.bootCount := rfl
@[simp] theorem State.waitAs_measures (s : State) (x : At) (wt : Wait) (ready : Nat) : (s.waitAs x wt ready).measures = s.measures := rfl
@[simp] theorem State.waitAs_svn (s : State) (x : At) (wt : Wait) (ready : Nat) : (s.waitAs x wt ready).svn = s.svn := rfl
@[simp] theorem State.waitAs_svnMin (s : State) (x : At) (wt : Wait) (ready : Nat) : (s.waitAs x wt ready).svnMin = s.svnMin := rfl
@[simp] theorem State.waitAs_booting (s : State) (x : At) (wt : Wait) (ready : Nat) : (s.waitAs x wt ready).booting = s.booting := rfl
@[simp] theorem State.waitAs_bootAt (s : State) (x : At) (wt : Wait) (ready : Nat) : (s.waitAs x wt ready).bootAt = s.bootAt := rfl
@[simp] theorem State.waitAs_appHalt (s : State) (x : At) (wt : Wait) (ready : Nat) : (s.waitAs x wt ready).appHalt = s.appHalt := rfl
@[simp] theorem State.waitAs_nonce (s : State) (x : At) (wt : Wait) (ready : Nat) : (s.waitAs x wt ready).nonce = s.nonce := rfl
@[simp] theorem State.waitAs_images (s : State) (x : At) (wt : Wait) (ready : Nat) : (s.waitAs x wt ready).images = s.images := rfl
@[simp] theorem State.waitAs_mapMode (s : State) (x : At) (wt : Wait) (ready : Nat) : (s.waitAs x wt ready).mapMode = s.mapMode := rfl
@[simp] theorem State.waitAs_plans (s : State) (x : At) (wt : Wait) (ready : Nat) : (s.waitAs x wt ready).plans = s.plans := rfl
@[simp] theorem State.waitAs_carveOut (s : State) (x : At) (wt : Wait) (ready : Nat) : (s.waitAs x wt ready).carveOut = s.carveOut := rfl
@[simp] theorem State.waitAs_cxl (s : State) (x : At) (wt : Wait) (ready : Nat) : (s.waitAs x wt ready).cxl = s.cxl := rfl
@[simp] theorem State.waitAs_mgmtOut (s : State) (x : At) (wt : Wait) (ready : Nat) : (s.waitAs x wt ready).mgmtOut = s.mgmtOut := rfl
@[simp] theorem State.waitAs_podReply (s : State) (x : At) (wt : Wait) (ready : Nat) : (s.waitAs x wt ready).podReply = s.podReply := rfl
@[simp] theorem State.waitAs_cur (s : State) (x : At) (wt : Wait) (ready : Nat) : (s.waitAs x wt ready).cur = s.cur := rfl
@[simp] theorem State.waitAs_bank (s : State) (x : At) (wt : Wait) (ready : Nat) : (s.waitAs x wt ready).bank = s.bank := rfl
@[simp] theorem State.waitAs_agenda (s : State) (x : At) (wt : Wait) (ready : Nat) : (s.waitAs x wt ready).agenda = s.agenda := rfl
@[simp] theorem State.waitAs_freeCount (s : State) (x : At) (wt : Wait) (ready : Nat) : (s.waitAs x wt ready).freeCount = s.freeCount := rfl
@[simp] theorem State.waitAs_nextId (s : State) (x : At) (wt : Wait) (ready : Nat) : (s.waitAs x wt ready).nextId = s.nextId := rfl
@[simp] theorem State.waitAs_hostRead (s : State) (x : At) (wt : Wait) (ready : Nat) : (s.waitAs x wt ready).hostRead = s.hostRead := rfl

/-! ### State.modChan -/

@[simp] theorem State.modChan_mode (s : State) (core ch : Nat) (f : Channel → Channel) : (s.modChan core ch f).mode = s.mode := rfl
@[simp] theorem State.modChan_devs (s : State) (core ch : Nat) (f : Channel → Channel) : (s.modChan core ch f).devs = s.devs := rfl
@[simp] theorem State.modChan_dies (s : State) (core ch : Nat) (f : Channel → Channel) : (s.modChan core ch f).dies = s.dies := rfl
@[simp] theorem State.modChan_ports (s : State) (core ch : Nat) (f : Channel → Channel) : (s.modChan core ch f).ports = s.ports := rfl
@[simp] theorem State.modChan_mig (s : State) (core ch : Nat) (f : Channel → Channel) : (s.modChan core ch f).mig = s.mig := rfl
@[simp] theorem State.modChan_aon (s : State) (core ch : Nat) (f : Channel → Channel) : (s.modChan core ch f).aon = s.aon := rfl
@[simp] theorem State.modChan_pkgBase (s : State) (core ch : Nat) (f : Channel → Channel) : (s.modChan core ch f).pkgBase = s.pkgBase := rfl
@[simp] theorem State.modChan_pkgSkew (s : State) (core ch : Nat) (f : Channel → Channel) : (s.modChan core ch f).pkgSkew = s.pkgSkew := rfl
@[simp] theorem State.modChan_podMaster (s : State) (core ch : Nat) (f : Channel → Channel) : (s.modChan core ch f).podMaster = s.podMaster := rfl
@[simp] theorem State.modChan_podSync (s : State) (core ch : Nat) (f : Channel → Channel) : (s.modChan core ch f).podSync = s.podSync := rfl
@[simp] theorem State.modChan_mem (s : State) (core ch : Nat) (f : Channel → Channel) : (s.modChan core ch f).mem = s.mem := rfl
@[simp] theorem State.modChan_memPoison (s : State) (core ch : Nat) (f : Channel → Channel) : (s.modChan core ch f).memPoison = s.memPoison := rfl
@[simp] theorem State.modChan_lineKey (s : State) (core ch : Nat) (f : Channel → Channel) : (s.modChan core ch f).lineKey = s.lineKey := rfl
@[simp] theorem State.modChan_shadow (s : State) (core ch : Nat) (f : Channel → Channel) : (s.modChan core ch f).shadow = s.shadow := rfl
@[simp] theorem State.modChan_cached (s : State) (core ch : Nat) (f : Channel → Channel) : (s.modChan core ch f).cached = s.cached := rfl
@[simp] theorem State.modChan_ctxs (s : State) (core ch : Nat) (f : Channel → Channel) : (s.modChan core ch f).ctxs = s.ctxs := rfl
@[simp] theorem State.modChan_launches (s : State) (core ch : Nat) (f : Channel → Channel) : (s.modChan core ch f).launches = s.launches := rfl
@[simp] theorem State.modChan_panels (s : State) (core ch : Nat) (f : Channel → Channel) : (s.modChan core ch f).panels = s.panels := rfl
@[simp] theorem State.modChan_teams (s : State) (core ch : Nat) (f : Channel → Channel) : (s.modChan core ch f).teams = s.teams := rfl
@[simp] theorem State.modChan_podBars (s : State) (core ch : Nat) (f : Channel → Channel) : (s.modChan core ch f).podBars = s.podBars := rfl
@[simp] theorem State.modChan_slots (s : State) (core ch : Nat) (f : Channel → Channel) : (s.modChan core ch f).slots = s.slots := rfl
@[simp] theorem State.modChan_gens (s : State) (core ch : Nat) (f : Channel → Channel) : (s.modChan core ch f).gens = s.gens := rfl
@[simp] theorem State.modChan_courses (s : State) (core ch : Nat) (f : Channel → Channel) : (s.modChan core ch f).courses = s.courses := rfl
@[simp] theorem State.modChan_saved (s : State) (core ch : Nat) (f : Channel → Channel) : (s.modChan core ch f).saved = s.saved := rfl
@[simp] theorem State.modChan_savedTeams (s : State) (core ch : Nat) (f : Channel → Channel) : (s.modChan core ch f).savedTeams = s.savedTeams := rfl
@[simp] theorem State.modChan_returning (s : State) (core ch : Nat) (f : Channel → Channel) : (s.modChan core ch f).returning = s.returning := rfl
@[simp] theorem State.modChan_armed (s : State) (core ch : Nat) (f : Channel → Channel) : (s.modChan core ch f).armed = s.armed := rfl
@[simp] theorem State.modChan_injected (s : State) (core ch : Nat) (f : Channel → Channel) : (s.modChan core ch f).injected = s.injected := rfl
@[simp] theorem State.modChan_accesses (s : State) (core ch : Nat) (f : Channel → Channel) : (s.modChan core ch f).accesses = s.accesses := rfl
@[simp] theorem State.modChan_arrivals (s : State) (core ch : Nat) (f : Channel → Channel) : (s.modChan core ch f).arrivals = s.arrivals := rfl
@[simp] theorem State.modChan_gran (s : State) (core ch : Nat) (f : Channel → Channel) : (s.modChan core ch f).gran = s.gran := rfl
@[simp] theorem State.modChan_remotes (s : State) (core ch : Nat) (f : Channel → Channel) : (s.modChan core ch f).remotes = s.remotes := rfl
@[simp] theorem State.modChan_cows (s : State) (core ch : Nat) (f : Channel → Channel) : (s.modChan core ch f).cows = s.cows := rfl
@[simp] theorem State.modChan_rstvs (s : State) (core ch : Nat) (f : Channel → Channel) : (s.modChan core ch f).rstvs = s.rstvs := rfl
@[simp] theorem State.modChan_fences (s : State) (core ch : Nat) (f : Channel → Channel) : (s.modChan core ch f).fences = s.fences := rfl
@[simp] theorem State.modChan_collSets (s : State) (core ch : Nat) (f : Channel → Channel) : (s.modChan core ch f).collSets = s.collSets := rfl
@[simp] theorem State.modChan_collNums (s : State) (core ch : Nat) (f : Channel → Channel) : (s.modChan core ch f).collNums = s.collNums := rfl
@[simp] theorem State.modChan_bootCount (s : State) (core ch : Nat) (f : Channel → Channel) : (s.modChan core ch f).bootCount = s.bootCount := rfl
@[simp] theorem State.modChan_measures (s : State) (core ch : Nat) (f : Channel → Channel) : (s.modChan core ch f).measures = s.measures := rfl
@[simp] theorem State.modChan_svn (s : State) (core ch : Nat) (f : Channel → Channel) : (s.modChan core ch f).svn = s.svn := rfl
@[simp] theorem State.modChan_svnMin (s : State) (core ch : Nat) (f : Channel → Channel) : (s.modChan core ch f).svnMin = s.svnMin := rfl
@[simp] theorem State.modChan_booting (s : State) (core ch : Nat) (f : Channel → Channel) : (s.modChan core ch f).booting = s.booting := rfl
@[simp] theorem State.modChan_bootAt (s : State) (core ch : Nat) (f : Channel → Channel) : (s.modChan core ch f).bootAt = s.bootAt := rfl
@[simp] theorem State.modChan_appHalt (s : State) (core ch : Nat) (f : Channel → Channel) : (s.modChan core ch f).appHalt = s.appHalt := rfl
@[simp] theorem State.modChan_nonce (s : State) (core ch : Nat) (f : Channel → Channel) : (s.modChan core ch f).nonce = s.nonce := rfl
@[simp] theorem State.modChan_images (s : State) (core ch : Nat) (f : Channel → Channel) : (s.modChan core ch f).images = s.images := rfl
@[simp] theorem State.modChan_mapMode (s : State) (core ch : Nat) (f : Channel → Channel) : (s.modChan core ch f).mapMode = s.mapMode := rfl
@[simp] theorem State.modChan_plans (s : State) (core ch : Nat) (f : Channel → Channel) : (s.modChan core ch f).plans = s.plans := rfl
@[simp] theorem State.modChan_carveOut (s : State) (core ch : Nat) (f : Channel → Channel) : (s.modChan core ch f).carveOut = s.carveOut := rfl
@[simp] theorem State.modChan_cxl (s : State) (core ch : Nat) (f : Channel → Channel) : (s.modChan core ch f).cxl = s.cxl := rfl
@[simp] theorem State.modChan_mgmtOut (s : State) (core ch : Nat) (f : Channel → Channel) : (s.modChan core ch f).mgmtOut = s.mgmtOut := rfl
@[simp] theorem State.modChan_podReply (s : State) (core ch : Nat) (f : Channel → Channel) : (s.modChan core ch f).podReply = s.podReply := rfl
@[simp] theorem State.modChan_cur (s : State) (core ch : Nat) (f : Channel → Channel) : (s.modChan core ch f).cur = s.cur := rfl
@[simp] theorem State.modChan_bank (s : State) (core ch : Nat) (f : Channel → Channel) : (s.modChan core ch f).bank = s.bank := rfl
@[simp] theorem State.modChan_agenda (s : State) (core ch : Nat) (f : Channel → Channel) : (s.modChan core ch f).agenda = s.agenda := rfl
@[simp] theorem State.modChan_freeCount (s : State) (core ch : Nat) (f : Channel → Channel) : (s.modChan core ch f).freeCount = s.freeCount := rfl
@[simp] theorem State.modChan_nextId (s : State) (core ch : Nat) (f : Channel → Channel) : (s.modChan core ch f).nextId = s.nextId := rfl
@[simp] theorem State.modChan_hostRead (s : State) (core ch : Nat) (f : Channel → Channel) : (s.modChan core ch f).hostRead = s.hostRead := rfl

/-! ### State.modStream -/

@[simp] theorem State.modStream_mode (s : State) (tid i : Nat) (f : Stream → Stream) : (s.modStream tid i f).mode = s.mode := rfl
@[simp] theorem State.modStream_devs (s : State) (tid i : Nat) (f : Stream → Stream) : (s.modStream tid i f).devs = s.devs := rfl
@[simp] theorem State.modStream_dies (s : State) (tid i : Nat) (f : Stream → Stream) : (s.modStream tid i f).dies = s.dies := rfl
@[simp] theorem State.modStream_ports (s : State) (tid i : Nat) (f : Stream → Stream) : (s.modStream tid i f).ports = s.ports := rfl
@[simp] theorem State.modStream_mig (s : State) (tid i : Nat) (f : Stream → Stream) : (s.modStream tid i f).mig = s.mig := rfl
@[simp] theorem State.modStream_aon (s : State) (tid i : Nat) (f : Stream → Stream) : (s.modStream tid i f).aon = s.aon := rfl
@[simp] theorem State.modStream_pkgBase (s : State) (tid i : Nat) (f : Stream → Stream) : (s.modStream tid i f).pkgBase = s.pkgBase := rfl
@[simp] theorem State.modStream_pkgSkew (s : State) (tid i : Nat) (f : Stream → Stream) : (s.modStream tid i f).pkgSkew = s.pkgSkew := rfl
@[simp] theorem State.modStream_podMaster (s : State) (tid i : Nat) (f : Stream → Stream) : (s.modStream tid i f).podMaster = s.podMaster := rfl
@[simp] theorem State.modStream_podSync (s : State) (tid i : Nat) (f : Stream → Stream) : (s.modStream tid i f).podSync = s.podSync := rfl
@[simp] theorem State.modStream_mem (s : State) (tid i : Nat) (f : Stream → Stream) : (s.modStream tid i f).mem = s.mem := rfl
@[simp] theorem State.modStream_memPoison (s : State) (tid i : Nat) (f : Stream → Stream) : (s.modStream tid i f).memPoison = s.memPoison := rfl
@[simp] theorem State.modStream_lineKey (s : State) (tid i : Nat) (f : Stream → Stream) : (s.modStream tid i f).lineKey = s.lineKey := rfl
@[simp] theorem State.modStream_shadow (s : State) (tid i : Nat) (f : Stream → Stream) : (s.modStream tid i f).shadow = s.shadow := rfl
@[simp] theorem State.modStream_cached (s : State) (tid i : Nat) (f : Stream → Stream) : (s.modStream tid i f).cached = s.cached := rfl
@[simp] theorem State.modStream_ctxs (s : State) (tid i : Nat) (f : Stream → Stream) : (s.modStream tid i f).ctxs = s.ctxs := rfl
@[simp] theorem State.modStream_launches (s : State) (tid i : Nat) (f : Stream → Stream) : (s.modStream tid i f).launches = s.launches := rfl
@[simp] theorem State.modStream_panels (s : State) (tid i : Nat) (f : Stream → Stream) : (s.modStream tid i f).panels = s.panels := rfl
@[simp] theorem State.modStream_podBars (s : State) (tid i : Nat) (f : Stream → Stream) : (s.modStream tid i f).podBars = s.podBars := rfl
@[simp] theorem State.modStream_cores (s : State) (tid i : Nat) (f : Stream → Stream) : (s.modStream tid i f).cores = s.cores := rfl
@[simp] theorem State.modStream_slots (s : State) (tid i : Nat) (f : Stream → Stream) : (s.modStream tid i f).slots = s.slots := rfl
@[simp] theorem State.modStream_gens (s : State) (tid i : Nat) (f : Stream → Stream) : (s.modStream tid i f).gens = s.gens := rfl
@[simp] theorem State.modStream_courses (s : State) (tid i : Nat) (f : Stream → Stream) : (s.modStream tid i f).courses = s.courses := rfl
@[simp] theorem State.modStream_saved (s : State) (tid i : Nat) (f : Stream → Stream) : (s.modStream tid i f).saved = s.saved := rfl
@[simp] theorem State.modStream_savedTeams (s : State) (tid i : Nat) (f : Stream → Stream) : (s.modStream tid i f).savedTeams = s.savedTeams := rfl
@[simp] theorem State.modStream_returning (s : State) (tid i : Nat) (f : Stream → Stream) : (s.modStream tid i f).returning = s.returning := rfl
@[simp] theorem State.modStream_armed (s : State) (tid i : Nat) (f : Stream → Stream) : (s.modStream tid i f).armed = s.armed := rfl
@[simp] theorem State.modStream_injected (s : State) (tid i : Nat) (f : Stream → Stream) : (s.modStream tid i f).injected = s.injected := rfl
@[simp] theorem State.modStream_accesses (s : State) (tid i : Nat) (f : Stream → Stream) : (s.modStream tid i f).accesses = s.accesses := rfl
@[simp] theorem State.modStream_arrivals (s : State) (tid i : Nat) (f : Stream → Stream) : (s.modStream tid i f).arrivals = s.arrivals := rfl
@[simp] theorem State.modStream_gran (s : State) (tid i : Nat) (f : Stream → Stream) : (s.modStream tid i f).gran = s.gran := rfl
@[simp] theorem State.modStream_remotes (s : State) (tid i : Nat) (f : Stream → Stream) : (s.modStream tid i f).remotes = s.remotes := rfl
@[simp] theorem State.modStream_cows (s : State) (tid i : Nat) (f : Stream → Stream) : (s.modStream tid i f).cows = s.cows := rfl
@[simp] theorem State.modStream_rstvs (s : State) (tid i : Nat) (f : Stream → Stream) : (s.modStream tid i f).rstvs = s.rstvs := rfl
@[simp] theorem State.modStream_fences (s : State) (tid i : Nat) (f : Stream → Stream) : (s.modStream tid i f).fences = s.fences := rfl
@[simp] theorem State.modStream_collSets (s : State) (tid i : Nat) (f : Stream → Stream) : (s.modStream tid i f).collSets = s.collSets := rfl
@[simp] theorem State.modStream_collNums (s : State) (tid i : Nat) (f : Stream → Stream) : (s.modStream tid i f).collNums = s.collNums := rfl
@[simp] theorem State.modStream_bootCount (s : State) (tid i : Nat) (f : Stream → Stream) : (s.modStream tid i f).bootCount = s.bootCount := rfl
@[simp] theorem State.modStream_measures (s : State) (tid i : Nat) (f : Stream → Stream) : (s.modStream tid i f).measures = s.measures := rfl
@[simp] theorem State.modStream_svn (s : State) (tid i : Nat) (f : Stream → Stream) : (s.modStream tid i f).svn = s.svn := rfl
@[simp] theorem State.modStream_svnMin (s : State) (tid i : Nat) (f : Stream → Stream) : (s.modStream tid i f).svnMin = s.svnMin := rfl
@[simp] theorem State.modStream_booting (s : State) (tid i : Nat) (f : Stream → Stream) : (s.modStream tid i f).booting = s.booting := rfl
@[simp] theorem State.modStream_bootAt (s : State) (tid i : Nat) (f : Stream → Stream) : (s.modStream tid i f).bootAt = s.bootAt := rfl
@[simp] theorem State.modStream_appHalt (s : State) (tid i : Nat) (f : Stream → Stream) : (s.modStream tid i f).appHalt = s.appHalt := rfl
@[simp] theorem State.modStream_nonce (s : State) (tid i : Nat) (f : Stream → Stream) : (s.modStream tid i f).nonce = s.nonce := rfl
@[simp] theorem State.modStream_images (s : State) (tid i : Nat) (f : Stream → Stream) : (s.modStream tid i f).images = s.images := rfl
@[simp] theorem State.modStream_mapMode (s : State) (tid i : Nat) (f : Stream → Stream) : (s.modStream tid i f).mapMode = s.mapMode := rfl
@[simp] theorem State.modStream_plans (s : State) (tid i : Nat) (f : Stream → Stream) : (s.modStream tid i f).plans = s.plans := rfl
@[simp] theorem State.modStream_carveOut (s : State) (tid i : Nat) (f : Stream → Stream) : (s.modStream tid i f).carveOut = s.carveOut := rfl
@[simp] theorem State.modStream_cxl (s : State) (tid i : Nat) (f : Stream → Stream) : (s.modStream tid i f).cxl = s.cxl := rfl
@[simp] theorem State.modStream_mgmtOut (s : State) (tid i : Nat) (f : Stream → Stream) : (s.modStream tid i f).mgmtOut = s.mgmtOut := rfl
@[simp] theorem State.modStream_podReply (s : State) (tid i : Nat) (f : Stream → Stream) : (s.modStream tid i f).podReply = s.podReply := rfl
@[simp] theorem State.modStream_cur (s : State) (tid i : Nat) (f : Stream → Stream) : (s.modStream tid i f).cur = s.cur := rfl
@[simp] theorem State.modStream_bank (s : State) (tid i : Nat) (f : Stream → Stream) : (s.modStream tid i f).bank = s.bank := rfl
@[simp] theorem State.modStream_agenda (s : State) (tid i : Nat) (f : Stream → Stream) : (s.modStream tid i f).agenda = s.agenda := rfl
@[simp] theorem State.modStream_freeCount (s : State) (tid i : Nat) (f : Stream → Stream) : (s.modStream tid i f).freeCount = s.freeCount := rfl
@[simp] theorem State.modStream_nextId (s : State) (tid i : Nat) (f : Stream → Stream) : (s.modStream tid i f).nextId = s.nextId := rfl
@[simp] theorem State.modStream_hostRead (s : State) (tid i : Nat) (f : Stream → Stream) : (s.modStream tid i f).hostRead = s.hostRead := rfl

/-! ### State.addPending -/

@[simp] theorem State.addPending_mode (s : State) (c records : Nat) : (s.addPending c records).mode = s.mode := rfl
@[simp] theorem State.addPending_devs (s : State) (c records : Nat) : (s.addPending c records).devs = s.devs := rfl
@[simp] theorem State.addPending_dies (s : State) (c records : Nat) : (s.addPending c records).dies = s.dies := rfl
@[simp] theorem State.addPending_ports (s : State) (c records : Nat) : (s.addPending c records).ports = s.ports := rfl
@[simp] theorem State.addPending_mig (s : State) (c records : Nat) : (s.addPending c records).mig = s.mig := rfl
@[simp] theorem State.addPending_aon (s : State) (c records : Nat) : (s.addPending c records).aon = s.aon := rfl
@[simp] theorem State.addPending_pkgBase (s : State) (c records : Nat) : (s.addPending c records).pkgBase = s.pkgBase := rfl
@[simp] theorem State.addPending_pkgSkew (s : State) (c records : Nat) : (s.addPending c records).pkgSkew = s.pkgSkew := rfl
@[simp] theorem State.addPending_podMaster (s : State) (c records : Nat) : (s.addPending c records).podMaster = s.podMaster := rfl
@[simp] theorem State.addPending_podSync (s : State) (c records : Nat) : (s.addPending c records).podSync = s.podSync := rfl
@[simp] theorem State.addPending_mem (s : State) (c records : Nat) : (s.addPending c records).mem = s.mem := rfl
@[simp] theorem State.addPending_memPoison (s : State) (c records : Nat) : (s.addPending c records).memPoison = s.memPoison := rfl
@[simp] theorem State.addPending_lineKey (s : State) (c records : Nat) : (s.addPending c records).lineKey = s.lineKey := rfl
@[simp] theorem State.addPending_shadow (s : State) (c records : Nat) : (s.addPending c records).shadow = s.shadow := rfl
@[simp] theorem State.addPending_cached (s : State) (c records : Nat) : (s.addPending c records).cached = s.cached := rfl
@[simp] theorem State.addPending_ctxs (s : State) (c records : Nat) : (s.addPending c records).ctxs = s.ctxs := rfl
@[simp] theorem State.addPending_launches (s : State) (c records : Nat) : (s.addPending c records).launches = s.launches := rfl
@[simp] theorem State.addPending_panels (s : State) (c records : Nat) : (s.addPending c records).panels = s.panels := rfl
@[simp] theorem State.addPending_teams (s : State) (c records : Nat) : (s.addPending c records).teams = s.teams := rfl
@[simp] theorem State.addPending_podBars (s : State) (c records : Nat) : (s.addPending c records).podBars = s.podBars := rfl
@[simp] theorem State.addPending_cores (s : State) (c records : Nat) : (s.addPending c records).cores = s.cores := rfl
@[simp] theorem State.addPending_slots (s : State) (c records : Nat) : (s.addPending c records).slots = s.slots := rfl
@[simp] theorem State.addPending_gens (s : State) (c records : Nat) : (s.addPending c records).gens = s.gens := rfl
@[simp] theorem State.addPending_saved (s : State) (c records : Nat) : (s.addPending c records).saved = s.saved := rfl
@[simp] theorem State.addPending_savedTeams (s : State) (c records : Nat) : (s.addPending c records).savedTeams = s.savedTeams := rfl
@[simp] theorem State.addPending_returning (s : State) (c records : Nat) : (s.addPending c records).returning = s.returning := rfl
@[simp] theorem State.addPending_armed (s : State) (c records : Nat) : (s.addPending c records).armed = s.armed := rfl
@[simp] theorem State.addPending_injected (s : State) (c records : Nat) : (s.addPending c records).injected = s.injected := rfl
@[simp] theorem State.addPending_accesses (s : State) (c records : Nat) : (s.addPending c records).accesses = s.accesses := rfl
@[simp] theorem State.addPending_arrivals (s : State) (c records : Nat) : (s.addPending c records).arrivals = s.arrivals := rfl
@[simp] theorem State.addPending_gran (s : State) (c records : Nat) : (s.addPending c records).gran = s.gran := rfl
@[simp] theorem State.addPending_remotes (s : State) (c records : Nat) : (s.addPending c records).remotes = s.remotes := rfl
@[simp] theorem State.addPending_cows (s : State) (c records : Nat) : (s.addPending c records).cows = s.cows := rfl
@[simp] theorem State.addPending_rstvs (s : State) (c records : Nat) : (s.addPending c records).rstvs = s.rstvs := rfl
@[simp] theorem State.addPending_fences (s : State) (c records : Nat) : (s.addPending c records).fences = s.fences := rfl
@[simp] theorem State.addPending_collSets (s : State) (c records : Nat) : (s.addPending c records).collSets = s.collSets := rfl
@[simp] theorem State.addPending_collNums (s : State) (c records : Nat) : (s.addPending c records).collNums = s.collNums := rfl
@[simp] theorem State.addPending_bootCount (s : State) (c records : Nat) : (s.addPending c records).bootCount = s.bootCount := rfl
@[simp] theorem State.addPending_measures (s : State) (c records : Nat) : (s.addPending c records).measures = s.measures := rfl
@[simp] theorem State.addPending_svn (s : State) (c records : Nat) : (s.addPending c records).svn = s.svn := rfl
@[simp] theorem State.addPending_svnMin (s : State) (c records : Nat) : (s.addPending c records).svnMin = s.svnMin := rfl
@[simp] theorem State.addPending_booting (s : State) (c records : Nat) : (s.addPending c records).booting = s.booting := rfl
@[simp] theorem State.addPending_bootAt (s : State) (c records : Nat) : (s.addPending c records).bootAt = s.bootAt := rfl
@[simp] theorem State.addPending_appHalt (s : State) (c records : Nat) : (s.addPending c records).appHalt = s.appHalt := rfl
@[simp] theorem State.addPending_nonce (s : State) (c records : Nat) : (s.addPending c records).nonce = s.nonce := rfl
@[simp] theorem State.addPending_images (s : State) (c records : Nat) : (s.addPending c records).images = s.images := rfl
@[simp] theorem State.addPending_mapMode (s : State) (c records : Nat) : (s.addPending c records).mapMode = s.mapMode := rfl
@[simp] theorem State.addPending_plans (s : State) (c records : Nat) : (s.addPending c records).plans = s.plans := rfl
@[simp] theorem State.addPending_carveOut (s : State) (c records : Nat) : (s.addPending c records).carveOut = s.carveOut := rfl
@[simp] theorem State.addPending_cxl (s : State) (c records : Nat) : (s.addPending c records).cxl = s.cxl := rfl
@[simp] theorem State.addPending_mgmtOut (s : State) (c records : Nat) : (s.addPending c records).mgmtOut = s.mgmtOut := rfl
@[simp] theorem State.addPending_podReply (s : State) (c records : Nat) : (s.addPending c records).podReply = s.podReply := rfl
@[simp] theorem State.addPending_cur (s : State) (c records : Nat) : (s.addPending c records).cur = s.cur := rfl
@[simp] theorem State.addPending_bank (s : State) (c records : Nat) : (s.addPending c records).bank = s.bank := rfl
@[simp] theorem State.addPending_agenda (s : State) (c records : Nat) : (s.addPending c records).agenda = s.agenda := rfl
@[simp] theorem State.addPending_freeCount (s : State) (c records : Nat) : (s.addPending c records).freeCount = s.freeCount := rfl
@[simp] theorem State.addPending_nextId (s : State) (c records : Nat) : (s.addPending c records).nextId = s.nextId := rfl
@[simp] theorem State.addPending_hostRead (s : State) (c records : Nat) : (s.addPending c records).hostRead = s.hostRead := rfl

/-! ### The identifiers -/

@[simp] theorem State.fresh_fst (s : State) : s.fresh.1 = s.nextId := rfl
@[simp] theorem State.fresh_snd (s : State) : s.fresh.2 = { s with nextId := s.nextId + 1 } := rfl

/-! ### Lookups -/

@[simp] theorem State.course_modCourse (s : State) (c c' : Nat) (f : Course → Course) :
    (s.modCourse c f).course c' = if c = c' then (s.course c').map f else s.course c' := Tab.find_upd _ _ _ _

@[simp] theorem State.course_setCourse (s : State) (c c' : Nat) (x : Course) :
    (s.setCourse c x).course c' = if c = c' then some x else s.course c' := Tab.find_put _ _ _ _

@[simp] theorem State.core_modCore (s : State) (k k' : Nat) (f : Core → Core) :
    (s.modCore k f).core k' = if k = k' then f (s.core k) else s.core k' := by
  simp only [State.core, State.modCore, Tab.getD_put]

@[simp] theorem State.team_modTeam (s : State) (t t' : Nat) (f : Team → Team) :
    (s.modTeam t f).team t' = if t = t' then (s.team t').map f else s.team t' := Tab.find_upd _ _ _ _

theorem State.courseD_of_course {s : State} {c : Nat} {co : Course} (h : s.course c = some co) : s.courseD c = co :=
  Tab.getD_of_find _ h

theorem State.ctx_modCtx_ne (s : State) (k k' : Nat) (f : Ctx → Ctx) (h : k ≠ k') : (s.modCtx k f).ctx k' = s.ctx k' := by
  simp [State.ctx, State.modCtx, Tab.getD, h]

@[simp] theorem State.core_modDev (s : State) (d : Nat) (f : Dev → Dev) (z : Nat) : (s.modDev d f).core z = s.core z := rfl
@[simp] theorem State.core_modDie (s : State) (d : Nat) (f : Die → Die) (z : Nat) : (s.modDie d f).core z = s.core z := rfl
@[simp] theorem State.core_setCourse (s : State) (c : Nat) (x : Course) (z : Nat) : (s.setCourse c x).core z = s.core z := rfl
@[simp] theorem State.core_modCourse (s : State) (c : Nat) (f : Course → Course) (z : Nat) : (s.modCourse c f).core z = s.core z := rfl
@[simp] theorem State.core_modStrand (s : State) (c st : Nat) (f : Strand → Strand) (z : Nat) : (s.modStrand c st f).core z = s.core z := rfl
@[simp] theorem State.core_modCtx (s : State) (k : Nat) (f : Ctx → Ctx) (z : Nat) : (s.modCtx k f).core z = s.core z := rfl
@[simp] theorem State.core_modTeam (s : State) (t : Nat) (f : Team → Team) (z : Nat) : (s.modTeam t f).core z = s.core z := rfl
@[simp] theorem State.core_count (s : State) (ctx off n : Nat) (z : Nat) : (s.count ctx off n).core z = s.core z := rfl
@[simp] theorem State.core_lineWritten (s : State) (slot : Nat) (whole : Bool) (line : Nat) (z : Nat) : (s.lineWritten slot whole line).core z = s.core z := rfl
@[simp] theorem State.core_underKey (s : State) (slot line : Nat) (z : Nat) : (s.underKey slot line).core z = s.core z := rfl
@[simp] theorem State.core_fill (s : State) (die : Option Nat) (rdc : Bool) (line cls : Nat) (z : Nat) : (s.fill die rdc line cls).core z = s.core z := rfl
@[simp] theorem State.core_clearFrame (s : State) (key n : Nat) (z : Nat) : (s.clearFrame key n).core z = s.core z := rfl
@[simp] theorem State.core_clearShadow (s : State) (key n : Nat) (z : Nat) : (s.clearShadow key n).core z = s.core z := rfl
@[simp] theorem State.core_release (s : State) (c : Nat) (z : Nat) : (s.release c).core z = s.core z := rfl
@[simp] theorem State.core_waitAs (s : State) (x : At) (wt : Wait) (ready : Nat) (z : Nat) : (s.waitAs x wt ready).core z = s.core z := rfl
@[simp] theorem State.core_modStream (s : State) (tid i : Nat) (f : Stream → Stream) (z : Nat) : (s.modStream tid i f).core z = s.core z := rfl
@[simp] theorem State.core_addPending (s : State) (c records : Nat) (z : Nat) : (s.addPending c records).core z = s.core z := rfl
@[simp] theorem State.course_modDev (s : State) (d : Nat) (f : Dev → Dev) (z : Nat) : (s.modDev d f).course z = s.course z := rfl
@[simp] theorem State.course_modDie (s : State) (d : Nat) (f : Die → Die) (z : Nat) : (s.modDie d f).course z = s.course z := rfl
@[simp] theorem State.course_modCore (s : State) (k : Nat) (f : Core → Core) (z : Nat) : (s.modCore k f).course z = s.course z := rfl
@[simp] theorem State.course_modCtx (s : State) (k : Nat) (f : Ctx → Ctx) (z : Nat) : (s.modCtx k f).course z = s.course z := rfl
@[simp] theorem State.course_modTeam (s : State) (t : Nat) (f : Team → Team) (z : Nat) : (s.modTeam t f).course z = s.course z := rfl
@[simp] theorem State.course_count (s : State) (ctx off n : Nat) (z : Nat) : (s.count ctx off n).course z = s.course z := rfl
@[simp] theorem State.course_lineWritten (s : State) (slot : Nat) (whole : Bool) (line : Nat) (z : Nat) : (s.lineWritten slot whole line).course z = s.course z := rfl
@[simp] theorem State.course_underKey (s : State) (slot line : Nat) (z : Nat) : (s.underKey slot line).course z = s.course z := rfl
@[simp] theorem State.course_fill (s : State) (die : Option Nat) (rdc : Bool) (line cls : Nat) (z : Nat) : (s.fill die rdc line cls).course z = s.course z := rfl
@[simp] theorem State.course_clearFrame (s : State) (key n : Nat) (z : Nat) : (s.clearFrame key n).course z = s.course z := rfl
@[simp] theorem State.course_clearShadow (s : State) (key n : Nat) (z : Nat) : (s.clearShadow key n).course z = s.course z := rfl
@[simp] theorem State.course_modChan (s : State) (core ch : Nat) (f : Channel → Channel) (z : Nat) : (s.modChan core ch f).course z = s.course z := rfl
@[simp] theorem State.course_modStream (s : State) (tid i : Nat) (f : Stream → Stream) (z : Nat) : (s.modStream tid i f).course z = s.course z := rfl
@[simp] theorem State.courseD_modDev (s : State) (d : Nat) (f : Dev → Dev) (z : Nat) : (s.modDev d f).courseD z = s.courseD z := rfl
@[simp] theorem State.courseD_modDie (s : State) (d : Nat) (f : Die → Die) (z : Nat) : (s.modDie d f).courseD z = s.courseD z := rfl
@[simp] theorem State.courseD_modCore (s : State) (k : Nat) (f : Core → Core) (z : Nat) : (s.modCore k f).courseD z = s.courseD z := rfl
@[simp] theorem State.courseD_modCtx (s : State) (k : Nat) (f : Ctx → Ctx) (z : Nat) : (s.modCtx k f).courseD z = s.courseD z := rfl
@[simp] theorem State.courseD_modTeam (s : State) (t : Nat) (f : Team → Team) (z : Nat) : (s.modTeam t f).courseD z = s.courseD z := rfl
@[simp] theorem State.courseD_count (s : State) (ctx off n : Nat) (z : Nat) : (s.count ctx off n).courseD z = s.courseD z := rfl
@[simp] theorem State.courseD_lineWritten (s : State) (slot : Nat) (whole : Bool) (line : Nat) (z : Nat) : (s.lineWritten slot whole line).courseD z = s.courseD z := rfl
@[simp] theorem State.courseD_underKey (s : State) (slot line : Nat) (z : Nat) : (s.underKey slot line).courseD z = s.courseD z := rfl
@[simp] theorem State.courseD_fill (s : State) (die : Option Nat) (rdc : Bool) (line cls : Nat) (z : Nat) : (s.fill die rdc line cls).courseD z = s.courseD z := rfl
@[simp] theorem State.courseD_clearFrame (s : State) (key n : Nat) (z : Nat) : (s.clearFrame key n).courseD z = s.courseD z := rfl
@[simp] theorem State.courseD_clearShadow (s : State) (key n : Nat) (z : Nat) : (s.clearShadow key n).courseD z = s.courseD z := rfl
@[simp] theorem State.courseD_modChan (s : State) (core ch : Nat) (f : Channel → Channel) (z : Nat) : (s.modChan core ch f).courseD z = s.courseD z := rfl
@[simp] theorem State.courseD_modStream (s : State) (tid i : Nat) (f : Stream → Stream) (z : Nat) : (s.modStream tid i f).courseD z = s.courseD z := rfl
@[simp] theorem State.ctx_modDev (s : State) (d : Nat) (f : Dev → Dev) (z : Nat) : (s.modDev d f).ctx z = s.ctx z := rfl
@[simp] theorem State.ctx_modDie (s : State) (d : Nat) (f : Die → Die) (z : Nat) : (s.modDie d f).ctx z = s.ctx z := rfl
@[simp] theorem State.ctx_modCore (s : State) (k : Nat) (f : Core → Core) (z : Nat) : (s.modCore k f).ctx z = s.ctx z := rfl
@[simp] theorem State.ctx_setCourse (s : State) (c : Nat) (x : Course) (z : Nat) : (s.setCourse c x).ctx z = s.ctx z := rfl
@[simp] theorem State.ctx_modCourse (s : State) (c : Nat) (f : Course → Course) (z : Nat) : (s.modCourse c f).ctx z = s.ctx z := rfl
@[simp] theorem State.ctx_modStrand (s : State) (c st : Nat) (f : Strand → Strand) (z : Nat) : (s.modStrand c st f).ctx z = s.ctx z := rfl
@[simp] theorem State.ctx_modTeam (s : State) (t : Nat) (f : Team → Team) (z : Nat) : (s.modTeam t f).ctx z = s.ctx z := rfl
@[simp] theorem State.ctx_lineWritten (s : State) (slot : Nat) (whole : Bool) (line : Nat) (z : Nat) : (s.lineWritten slot whole line).ctx z = s.ctx z := rfl
@[simp] theorem State.ctx_underKey (s : State) (slot line : Nat) (z : Nat) : (s.underKey slot line).ctx z = s.ctx z := rfl
@[simp] theorem State.ctx_fill (s : State) (die : Option Nat) (rdc : Bool) (line cls : Nat) (z : Nat) : (s.fill die rdc line cls).ctx z = s.ctx z := rfl
@[simp] theorem State.ctx_clearFrame (s : State) (key n : Nat) (z : Nat) : (s.clearFrame key n).ctx z = s.ctx z := rfl
@[simp] theorem State.ctx_clearShadow (s : State) (key n : Nat) (z : Nat) : (s.clearShadow key n).ctx z = s.ctx z := rfl
@[simp] theorem State.ctx_release (s : State) (c : Nat) (z : Nat) : (s.release c).ctx z = s.ctx z := rfl
@[simp] theorem State.ctx_waitAs (s : State) (x : At) (wt : Wait) (ready : Nat) (z : Nat) : (s.waitAs x wt ready).ctx z = s.ctx z := rfl
@[simp] theorem State.ctx_modChan (s : State) (core ch : Nat) (f : Channel → Channel) (z : Nat) : (s.modChan core ch f).ctx z = s.ctx z := rfl
@[simp] theorem State.ctx_modStream (s : State) (tid i : Nat) (f : Stream → Stream) (z : Nat) : (s.modStream tid i f).ctx z = s.ctx z := rfl
@[simp] theorem State.ctx_addPending (s : State) (c records : Nat) (z : Nat) : (s.addPending c records).ctx z = s.ctx z := rfl
@[simp] theorem State.team_modDev (s : State) (d : Nat) (f : Dev → Dev) (z : Nat) : (s.modDev d f).team z = s.team z := rfl
@[simp] theorem State.team_modDie (s : State) (d : Nat) (f : Die → Die) (z : Nat) : (s.modDie d f).team z = s.team z := rfl
@[simp] theorem State.team_modCore (s : State) (k : Nat) (f : Core → Core) (z : Nat) : (s.modCore k f).team z = s.team z := rfl
@[simp] theorem State.team_setCourse (s : State) (c : Nat) (x : Course) (z : Nat) : (s.setCourse c x).team z = s.team z := rfl
@[simp] theorem State.team_modCourse (s : State) (c : Nat) (f : Course → Course) (z : Nat) : (s.modCourse c f).team z = s.team z := rfl
@[simp] theorem State.team_modStrand (s : State) (c st : Nat) (f : Strand → Strand) (z : Nat) : (s.modStrand c st f).team z = s.team z := rfl
@[simp] theorem State.team_modCtx (s : State) (k : Nat) (f : Ctx → Ctx) (z : Nat) : (s.modCtx k f).team z = s.team z := rfl
@[simp] theorem State.team_count (s : State) (ctx off n : Nat) (z : Nat) : (s.count ctx off n).team z = s.team z := rfl
@[simp] theorem State.team_lineWritten (s : State) (slot : Nat) (whole : Bool) (line : Nat) (z : Nat) : (s.lineWritten slot whole line).team z = s.team z := rfl
@[simp] theorem State.team_underKey (s : State) (slot line : Nat) (z : Nat) : (s.underKey slot line).team z = s.team z := rfl
@[simp] theorem State.team_fill (s : State) (die : Option Nat) (rdc : Bool) (line cls : Nat) (z : Nat) : (s.fill die rdc line cls).team z = s.team z := rfl
@[simp] theorem State.team_clearFrame (s : State) (key n : Nat) (z : Nat) : (s.clearFrame key n).team z = s.team z := rfl
@[simp] theorem State.team_clearShadow (s : State) (key n : Nat) (z : Nat) : (s.clearShadow key n).team z = s.team z := rfl
@[simp] theorem State.team_release (s : State) (c : Nat) (z : Nat) : (s.release c).team z = s.team z := rfl
@[simp] theorem State.team_waitAs (s : State) (x : At) (wt : Wait) (ready : Nat) (z : Nat) : (s.waitAs x wt ready).team z = s.team z := rfl
@[simp] theorem State.team_modChan (s : State) (core ch : Nat) (f : Channel → Channel) (z : Nat) : (s.modChan core ch f).team z = s.team z := rfl
@[simp] theorem State.team_addPending (s : State) (c records : Nat) (z : Nat) : (s.addPending c records).team z = s.team z := rfl
@[simp] theorem State.dev_modDie (s : State) (d : Nat) (f : Die → Die) (z : Nat) : (s.modDie d f).dev z = s.dev z := rfl
@[simp] theorem State.dev_modCore (s : State) (k : Nat) (f : Core → Core) (z : Nat) : (s.modCore k f).dev z = s.dev z := rfl
@[simp] theorem State.dev_setCourse (s : State) (c : Nat) (x : Course) (z : Nat) : (s.setCourse c x).dev z = s.dev z := rfl
@[simp] theorem State.dev_modCourse (s : State) (c : Nat) (f : Course → Course) (z : Nat) : (s.modCourse c f).dev z = s.dev z := rfl
@[simp] theorem State.dev_modStrand (s : State) (c st : Nat) (f : Strand → Strand) (z : Nat) : (s.modStrand c st f).dev z = s.dev z := rfl
@[simp] theorem State.dev_modCtx (s : State) (k : Nat) (f : Ctx → Ctx) (z : Nat) : (s.modCtx k f).dev z = s.dev z := rfl
@[simp] theorem State.dev_modTeam (s : State) (t : Nat) (f : Team → Team) (z : Nat) : (s.modTeam t f).dev z = s.dev z := rfl
@[simp] theorem State.dev_count (s : State) (ctx off n : Nat) (z : Nat) : (s.count ctx off n).dev z = s.dev z := rfl
@[simp] theorem State.dev_lineWritten (s : State) (slot : Nat) (whole : Bool) (line : Nat) (z : Nat) : (s.lineWritten slot whole line).dev z = s.dev z := rfl
@[simp] theorem State.dev_underKey (s : State) (slot line : Nat) (z : Nat) : (s.underKey slot line).dev z = s.dev z := rfl
@[simp] theorem State.dev_fill (s : State) (die : Option Nat) (rdc : Bool) (line cls : Nat) (z : Nat) : (s.fill die rdc line cls).dev z = s.dev z := rfl
@[simp] theorem State.dev_clearFrame (s : State) (key n : Nat) (z : Nat) : (s.clearFrame key n).dev z = s.dev z := rfl
@[simp] theorem State.dev_clearShadow (s : State) (key n : Nat) (z : Nat) : (s.clearShadow key n).dev z = s.dev z := rfl
@[simp] theorem State.dev_release (s : State) (c : Nat) (z : Nat) : (s.release c).dev z = s.dev z := rfl
@[simp] theorem State.dev_waitAs (s : State) (x : At) (wt : Wait) (ready : Nat) (z : Nat) : (s.waitAs x wt ready).dev z = s.dev z := rfl
@[simp] theorem State.dev_modChan (s : State) (core ch : Nat) (f : Channel → Channel) (z : Nat) : (s.modChan core ch f).dev z = s.dev z := rfl
@[simp] theorem State.dev_modStream (s : State) (tid i : Nat) (f : Stream → Stream) (z : Nat) : (s.modStream tid i f).dev z = s.dev z := rfl
@[simp] theorem State.dev_addPending (s : State) (c records : Nat) (z : Nat) : (s.addPending c records).dev z = s.dev z := rfl
@[simp] theorem State.die_modDev (s : State) (d : Nat) (f : Dev → Dev) (z : Nat) : (s.modDev d f).die z = s.die z := rfl
@[simp] theorem State.die_modCore (s : State) (k : Nat) (f : Core → Core) (z : Nat) : (s.modCore k f).die z = s.die z := rfl
@[simp] theorem State.die_setCourse (s : State) (c : Nat) (x : Course) (z : Nat) : (s.setCourse c x).die z = s.die z := rfl
@[simp] theorem State.die_modCourse (s : State) (c : Nat) (f : Course → Course) (z : Nat) : (s.modCourse c f).die z = s.die z := rfl
@[simp] theorem State.die_modStrand (s : State) (c st : Nat) (f : Strand → Strand) (z : Nat) : (s.modStrand c st f).die z = s.die z := rfl
@[simp] theorem State.die_modCtx (s : State) (k : Nat) (f : Ctx → Ctx) (z : Nat) : (s.modCtx k f).die z = s.die z := rfl
@[simp] theorem State.die_modTeam (s : State) (t : Nat) (f : Team → Team) (z : Nat) : (s.modTeam t f).die z = s.die z := rfl
@[simp] theorem State.die_count (s : State) (ctx off n : Nat) (z : Nat) : (s.count ctx off n).die z = s.die z := rfl
@[simp] theorem State.die_lineWritten (s : State) (slot : Nat) (whole : Bool) (line : Nat) (z : Nat) : (s.lineWritten slot whole line).die z = s.die z := rfl
@[simp] theorem State.die_underKey (s : State) (slot line : Nat) (z : Nat) : (s.underKey slot line).die z = s.die z := rfl
@[simp] theorem State.die_fill (s : State) (die : Option Nat) (rdc : Bool) (line cls : Nat) (z : Nat) : (s.fill die rdc line cls).die z = s.die z := rfl
@[simp] theorem State.die_clearFrame (s : State) (key n : Nat) (z : Nat) : (s.clearFrame key n).die z = s.die z := rfl
@[simp] theorem State.die_clearShadow (s : State) (key n : Nat) (z : Nat) : (s.clearShadow key n).die z = s.die z := rfl
@[simp] theorem State.die_release (s : State) (c : Nat) (z : Nat) : (s.release c).die z = s.die z := rfl
@[simp] theorem State.die_waitAs (s : State) (x : At) (wt : Wait) (ready : Nat) (z : Nat) : (s.waitAs x wt ready).die z = s.die z := rfl
@[simp] theorem State.die_modChan (s : State) (core ch : Nat) (f : Channel → Channel) (z : Nat) : (s.modChan core ch f).die z = s.die z := rfl
@[simp] theorem State.die_modStream (s : State) (tid i : Nat) (f : Stream → Stream) (z : Nat) : (s.modStream tid i f).die z = s.die z := rfl
@[simp] theorem State.die_addPending (s : State) (c records : Nat) (z : Nat) : (s.addPending c records).die z = s.die z := rfl

end Sys2Proof.Machine
end

