-- ==== Sys2Proof/Laws/Ops.lean ====
section
/-! SUPPORT. What the shared operations can do, said once each: the strand at work, the parts of the state, the issue of a
word, its sources, its pushes and named destinations, and the records it posts. -/

namespace Sys2Proof.Machine

/-! ### The strand at work -/

theorem Course.strand_lt {co : Course} {i : Nat} (h : (co.strand i).live = true) : i < 4 := by
  by_contra hi
  have : co.strand i = {} := by
    simp only [Course.strand, vget]
    exact List.getD_eq_default _ _ (by simp; omega)
  rw [this] at h
  exact absurd h (by decide)

theorem State.at_some {s : State} {x : At} (h : s.at_ = some x) :
    s.cur = some (x.c, x.st) ∧ s.course x.c = some x.co ∧ x.sd = x.co.strand x.st ∧ x.sd.live = true ∧ x.st < 4 ∧ x.rep = none := by
  unfold State.at_ at h
  split at h
  · cases h
  · split at h
    · cases h
    · split at h
      · cases h
        rename_i hc hl
        exact ⟨by assumption, hc, rfl, hl, Course.strand_lt hl, rfl⟩
      · cases h

theorem State.courseD_eq {s : State} {c : Nat} {co : Course} (h : s.course c = some co) : s.courseD c = co :=
  Tab.getD_of_find _ h

theorem State.courseD_modCourse {s : State} {c : Nat} {co : Course} (f : Course → Course) (h : s.course c = some co) :
    (s.modCourse c f).courseD c = f co := by
  apply State.courseD_eq
  simp [h]

theorem State.course_present {s : State} {c : Nat} {co : Course} (f : Course → Course) (h : s.course c = some co) :
    (s.modCourse c f).course c = some (f co) := by simp [h]

theorem State.course_of_courses {s t : State} (h : t.courses = s.courses) (c : Nat) : t.course c = s.course c := by
  simp [State.course, h]

theorem State.courseD_of_courses {s t : State} (h : t.courses = s.courses) (c : Nat) : t.courseD c = s.courseD c := by
  simp [State.courseD, h]

theorem Course.strand_modStrand (co : Course) (i j : Nat) (f : Strand → Strand) (h : i < 4) :
    (co.modStrand i f).strand j = if i = j then f (co.strand i) else co.strand j := by
  simp only [Course.strand, Course.modStrand]
  split
  · subst_vars; exact vget_vset_same _ _ _ _ h
  · exact vget_vset_ne _ _ _ _ _ ‹_›

/-! ### Issue of a word -/

theorem issueWord_go {v : At → State → Verdict} {e : At → State → State} {s : State} {x : At} (h : s.at_ = some x)
    (hv : v x s = .go) : issueWord v e s = .next (e x s) := by simp [issueWord, h, hv]

theorem issueWord_wait {v : At → State → Verdict} {e : At → State → State} {s : State} {x : At} (h : s.at_ = some x)
    (hv : v x s = .wait) : issueWord v e s = .next s := by simp [issueWord, h, hv]

theorem issueWord_trap {v : At → State → Verdict} {e : At → State → State} {s : State} {x : At} {t : Trap}
    (h : s.at_ = some x) (hv : v x s = .trap t) : issueWord v e s = .next (takeTrap x.c x.st t s) := by
  simp [issueWord, h, hv]

@[simp] theorem Verdict.go_and (v : Verdict) : Verdict.go.and_ v = v := rfl
@[simp] theorem Verdict.wait_and (v : Verdict) : Verdict.wait.and_ v = .wait := rfl
@[simp] theorem Verdict.trap_and (t : Trap) (v : Verdict) : (Verdict.trap t).and_ v = .trap t := rfl
@[simp] theorem Verdict.all_nil : Verdict.all [] = .go := rfl
@[simp] theorem Verdict.all_cons (v : Verdict) (l : List Verdict) : Verdict.all (v :: l) = v.and_ (Verdict.all l) := rfl
@[simp] theorem Verdict.and_go (v : Verdict) : v.and_ .go = v := by cases v <;> rfl
@[simp] theorem Verdict.waitIf_false : Verdict.waitIf false = .go := rfl
@[simp] theorem Verdict.waitIf_true : Verdict.waitIf true = .wait := rfl
@[simp] theorem Verdict.trapIf_false (t : Trap) : Verdict.trapIf false t = .go := rfl
@[simp] theorem Verdict.trapIf_true (t : Trap) : Verdict.trapIf true t = .trap t := rfl

/-! ### Sources -/

theorem maskOf_zero {f : Nat → Bool} (h : ∀ l, l < 32 → f l = false) : maskOf f = 0#32 := by
  apply BitVec.eq_of_getLsbD_eq
  intro i hi
  simp [h i hi]

theorem firstSrcTrap_none {code : Nat} {f : Mask → SrcRef → Mask} {l : List (Mask × SrcRef)}
    (h : ∀ e ∈ l, f e.1 e.2 = 0#32) : firstSrcTrap code f l = none := by
  induction l with
  | nil => rfl
  | cons a t ih =>
    simp only [firstSrcTrap, h a (by simp), bne_self_eq_false, Bool.false_eq_true, if_false]
    exact ih fun e he => h e (by simp [he])

/-- A word whose sources are full and not poisoned in its active lanes has no wait and no trap from them. -/
theorem srcsVerdict_go {x : At} {s : State} {l : List (Mask × SrcRef)}
    (h : ∀ e ∈ l, ∀ k, k < 32 → e.1.getLsbD k = true → (e.2.read x e.1 s k).full = true ∧ (e.2.read x e.1 s k).poison = false) :
    srcsVerdict x s l = .go := by
  have he : ∀ e ∈ l, emptyMask x e.1 s e.2 = 0#32 := fun e m => maskOf_zero fun k hk => by
    cases ha : e.1.getLsbD k
    · rfl
    · simp [(h e m k hk ha).1]
  have hp : ∀ e ∈ l, poisonMask x e.1 s e.2 = 0#32 := fun e m => maskOf_zero fun k hk => by
    cases ha : e.1.getLsbD k
    · rfl
    · simp [(h e m k hk ha).2]
  have hany : l.any (fun r => !r.2.t && emptyMask x r.1 s r.2 != 0#32) = false := by
    rw [List.any_eq_false]
    intro e m
    simp [he e m]
  unfold srcsVerdict
  rw [hany, firstSrcTrap_none (fun e m => he e (List.mem_of_mem_filter m)), firstSrcTrap_none hp]
  rfl

theorem srcVerdict_go {x : At} {s : State} {act : Mask} {refs : List SrcRef}
    (h : ∀ r ∈ refs, ∀ l, l < 32 → act.getLsbD l = true → (r.read x act s l).full = true ∧ (r.read x act s l).poison = false) :
    srcVerdict x s act refs = .go := by
  apply srcsVerdict_go
  intro e m
  obtain ⟨r, hr, rfl⟩ := List.mem_map.1 m
  exact h r hr

end Sys2Proof.Machine

namespace Sys2Proof

open Sys2Proof.Machine

/-! ### Changes of one course -/

theorem OnlyCourse.refl (c : Nat) (s : State) : OnlyCourse c s s := ⟨rfl, fun _ _ => rfl⟩

theorem OnlyCourse.trans {c : Nat} {s t u : State} (h : OnlyCourse c s t) (g : OnlyCourse c t u) : OnlyCourse c s u := by
  refine ⟨?_, fun k hk => (g.2 k hk).trans (h.2 k hk)⟩
  have h1 := h.1
  rw [← g.1] at h1
  simpa using h1

theorem OnlyCourse.modCourse (c : Nat) (s : State) (f : Course → Course) : OnlyCourse c s (s.modCourse c f) :=
  ⟨rfl, fun k hk => by simp [Ne.symm hk]⟩

theorem OnlyCourse.modStrand (c st : Nat) (s : State) (f : Strand → Strand) : OnlyCourse c s (s.modStrand c st f) :=
  OnlyCourse.modCourse c s _

/-! ### Records -/

theorem OnlyPosted.refl (s : State) : OnlyPosted s s := ⟨_, _, _, _, _, _, _, _, _, rfl⟩

theorem OnlyPosted.trans {s t u : State} (h : OnlyPosted s t) (g : OnlyPosted t u) : OnlyPosted s u := by
  obtain ⟨_, _, _, _, _, _, _, _, _, rfl⟩ := h
  obtain ⟨_, _, _, _, _, _, _, _, _, rfl⟩ := g
  exact ⟨_, _, _, _, _, _, _, _, _, rfl⟩

theorem OnlyPosted.foldl {α : Type} {f : State → α → State} (h : ∀ s a, OnlyPosted s (f s a)) (l : List α) (s : State) :
    OnlyPosted s (l.foldl f s) := by
  induction l generalizing s with
  | nil => exact .refl s
  | cons a t ih => exact (h s a).trans (ih _)

theorem OnlyPosted.freeCount (s : State) : OnlyPosted s { s with freeCount := s.freeCount + 1 } :=
  ⟨_, _, _, _, _, _, _, _, _, rfl⟩

theorem OnlyPosted.mgmtOut (s : State) (o : List (List Byte)) : OnlyPosted s { s with mgmtOut := o } :=
  ⟨_, _, _, _, _, _, _, _, _, rfl⟩

theorem OnlyPosted.modCtx (s : State) (k : Nat) (f : Ctx → Ctx) : OnlyPosted s (s.modCtx k f) :=
  ⟨_, _, _, _, _, _, _, _, _, rfl⟩

theorem OnlyPosted.modDev (s : State) (k : Nat) (f : Dev → Dev) : OnlyPosted s (s.modDev k f) :=
  ⟨_, _, _, _, _, _, _, _, _, rfl⟩

theorem OnlyPosted.takeKey (s : State) (slot key n : Nat) : OnlyPosted s (s.takeKey slot key n) := by
  unfold State.takeKey
  split
  · exact OnlyPosted.refl _
  · exact OnlyPosted.foldl (fun t l => ⟨_, _, _, _, _, _, _, _, _, rfl⟩) _ _

theorem OnlyPosted.writeMem (s : State) (key : Nat) (bytes : List Byte) (slot : Nat) :
    OnlyPosted s (s.writeMem key bytes slot) := by
  unfold State.writeMem
  refine (OnlyPosted.takeKey s slot key bytes.length).trans
    (OnlyPosted.trans (t := { (s.takeKey slot key bytes.length) with mem := Memory.writeN (s.takeKey slot key bytes.length).mem key bytes })
      ⟨_, _, _, _, _, _, _, _, _, rfl⟩ ?_)
  exact OnlyPosted.foldl (fun t l => ⟨_, _, _, _, _, _, _, _, _, rfl⟩) _ _

theorem OnlyPosted.clearShadow (s : State) (key n : Nat) : OnlyPosted s (s.clearShadow key n) :=
  ⟨_, _, _, _, _, _, _, _, _, rfl⟩

theorem OnlyPosted.fold2 {α β : Type} {f : State × β → α → State × β} (h : ∀ p a, OnlyPosted p.1 (f p a).1) (l : List α)
    (p : State × β) : OnlyPosted p.1 (l.foldl f p).1 := by
  induction l generalizing p with
  | nil => exact .refl _
  | cons a t ih => exact (h p a).trans (ih _)

theorem OnlyPosted.setPte (s : State) (key : Nat) (e : DWord) : OnlyPosted s (s.setPte key e) := OnlyPosted.writeMem _ _ _ _

theorem OnlyPosted.markLeaf (s : State) (dev ia : Nat) (write : Bool) : OnlyPosted s (s.markLeaf dev ia write) := by
  unfold State.markLeaf
  split
  · split
    · exact OnlyPosted.refl _
    · exact OnlyPosted.setPte _ _ _
  · exact OnlyPosted.refl _

theorem OnlyPosted.markVa (s : State) (ctx : Nat) (write : Bool) (l : List (Nat × Nat)) : OnlyPosted s (s.markVa ctx write l) :=
  OnlyPosted.foldl (fun t e => by
    split
    · exact OnlyPosted.markLeaf _ _ _ _
    · exact OnlyPosted.refl _) _ _

theorem OnlyPosted.putChunks (s : State) (l : List (Nat × Nat × Nat)) (bytes : List Byte) : OnlyPosted s (s.putChunks l bytes) :=
  OnlyPosted.fold2 (fun _ _ => (OnlyPosted.writeMem _ _ _ _).trans (OnlyPosted.clearShadow _ _ _)) l (s, bytes)

theorem OnlyPosted.iaWrite {s t : State} {dev ia : Nat} {bytes : List Byte} (h : iaWrite s dev ia bytes = some t) :
    OnlyPosted s t := by
  unfold Machine.iaWrite at h
  dsimp only at h
  split at h
  · cases h
  · split at h
    · cases h
    · cases h
      exact (OnlyPosted.foldl (fun t e => OnlyPosted.markLeaf _ _ _ _) _ _).trans (OnlyPosted.putChunks _ _ _)

theorem OnlyPosted.devWriteAs {s t : State} {perm : Bool} {ctx va : Nat} {bytes : List Byte} (h : devWriteAs perm s ctx va bytes = .ok t) :
    OnlyPosted s t := by
  unfold Machine.devWriteAs at h
  dsimp only at h
  split at h
  · cases h
  · split at h
    · cases h
    · cases h
      exact (OnlyPosted.markVa _ _ _ _).trans (OnlyPosted.putChunks _ _ _)

theorem OnlyPosted.devWriteVa {s t : State} {ctx va : Nat} {bytes : List Byte} (h : devWriteVa s ctx va bytes = .ok t) :
    OnlyPosted s t := OnlyPosted.devWriteAs h

theorem OnlyPosted.orLost {s t : State} {o : Option State} (ht : OnlyPosted s t) (h : ∀ u, o = some u → OnlyPosted s u) :
    OnlyPosted s (o.getD t) := by
  cases o with
  | none => exact ht
  | some u => exact h u rfl

theorem OnlyPosted.mlogBytes (s : State) (dev : Nat) (mk : Nat → Bool → List Byte) : OnlyPosted s (s.mlogBytes dev mk) := by
  unfold State.mlogBytes
  dsimp only
  generalize hs : ({ s with mgmtOut := s.mgmtOut ++ [mk (s.dev dev).mlogSeq (s.dev dev).mlogLoss] } : State).modDev dev
      (fun x => { x with mlogSeq := (x.mlogSeq + 1) % 2 ^ 16 }) = s1
  have h : OnlyPosted s s1 := by subst hs; exact (OnlyPosted.mgmtOut s _).trans (OnlyPosted.modDev _ _ _)
  have hl : OnlyPosted s ((s1.modDev dev (fun x => { x with mlogLost := x.mlogLost + 1 })).mlogDrop dev) :=
    (h.trans (OnlyPosted.modDev s1 dev _)).trans (OnlyPosted.modDev _ _ _)
  split
  · exact hl
  · split
    · refine OnlyPosted.orLost hl fun u hu => ?_
      obtain ⟨v, hv, rfl⟩ := Option.map_eq_some_iff.1 hu
      exact (h.trans (OnlyPosted.iaWrite hv)).trans (OnlyPosted.modDev _ _ _)
    · split
      · exact hl
      · rename_i ht
        refine OnlyPosted.orLost hl fun u hu => ?_
        obtain ⟨v, hv, rfl⟩ := Option.map_eq_some_iff.1 hu
        exact ((h.trans (OnlyPosted.iaWrite ht)).trans (OnlyPosted.iaWrite hv)).trans (OnlyPosted.modDev _ _ _)

theorem OnlyPosted.sinkFault (s : State) (dev kind asid addr q sq : Nat) :
    OnlyPosted s (s.sinkFault dev kind asid addr q sq) :=
  (OnlyPosted.freeCount s).trans (OnlyPosted.mlogBytes _ _ _)

/-- A record written, or dropped from a full ring, has changed no more than records change. -/
theorem OnlyPosted.errWrite {s t : State} {ctx : Nat} {r : Rec} (h : s.errWrite ctx r = .written t ∨ s.errWrite ctx r = .full t) :
    OnlyPosted s t := by
  unfold State.errWrite at h
  dsimp only at h
  repeat' split at h
  all_goals simp only [reduceCtorEq, ErrRes.written.injEq, ErrRes.full.injEq, or_false, false_or] at h
  all_goals subst h
  · exact (OnlyPosted.devWriteVa ‹_›).trans (OnlyPosted.modCtx _ _ _)
  · exact ((OnlyPosted.devWriteVa ‹_›).trans (OnlyPosted.devWriteVa ‹_›)).trans (OnlyPosted.modCtx _ _ _)

theorem OnlyPosted.postTo (s : State) (ctx : Nat) (r : Rec) : OnlyPosted s (s.postTo ctx r).1 := by
  unfold State.postTo
  dsimp only
  split
  · dsimp only
    exact OnlyPosted.mlogBytes _ _ _
  · split
    · next h => exact OnlyPosted.errWrite (.inl h)
    · next h => exact OnlyPosted.errWrite (.inr h)
    · dsimp only
      exact ((OnlyPosted.modCtx _ _ _).trans (OnlyPosted.mlogBytes _ _ _)).trans (OnlyPosted.sinkFault _ _ _ _ _ _ _)

theorem OnlyPosted.postCount (s : State) (ctx code : Nat) : OnlyPosted s (s.postCount ctx code) := by
  unfold State.postCount
  split
  · exact OnlyPosted.modCtx _ _ _
  · exact OnlyPosted.refl _

theorem OnlyPosted.postIrq (s : State) (ctx : Nat) (stop : Bool) : OnlyPosted s (s.postIrq ctx stop) := by
  unfold State.postIrq
  split
  · exact OnlyPosted.modDev _ _ _
  · exact OnlyPosted.refl _

/-- A record posted changes memory and what is known of its lines, the contexts, the devices and the outside message. -/
theorem OnlyPosted.post (s : State) (ctx : Nat) (r : Rec) : OnlyPosted s (s.post ctx r) :=
  ((((OnlyPosted.freeCount s).trans (OnlyPosted.postTo _ _ _)).trans (OnlyPosted.postCount _ _ _)).trans
    (OnlyPosted.modCtx _ _ _)).trans (OnlyPosted.postIrq _ _ _)

theorem OnlyPosted.courses {s t : State} (h : OnlyPosted s t) : t.courses = s.courses := by
  obtain ⟨_, _, _, _, _, _, _, _, _, rfl⟩ := h
  rfl

theorem OnlyPosted.cores {s t : State} (h : OnlyPosted s t) : t.cores = s.cores := by
  obtain ⟨_, _, _, _, _, _, _, _, _, rfl⟩ := h
  rfl

/-! ### The word of the current strand -/

namespace Machine

theorem exec_arith {i : Instr} {op : AOp} {w : FWord} {s : State} (h : arith? i = some (op, w)) : exec i s = arithWord op w s := by
  cases i <;> simp only [arith?, Option.some.injEq, Prod.mk.injEq, reduceCtorEq] at h <;> obtain ⟨rfl, rfl⟩ := h <;> rfl

/-! ### The canonical form of memory -/

theorem foldl_wf {α : Type} {f : State → α → State} (h : ∀ s a, Memory.wf s.mem = true → Memory.wf (f s a).mem = true) (l : List α)
    (s : State) (hs : Memory.wf s.mem = true) : Memory.wf (l.foldl f s).mem = true := by
  induction l generalizing s with
  | nil => exact hs
  | cons a t ih => exact ih _ (h s a hs)

theorem State.takeKey_wf {s : State} {slot key n : Nat} (h : Memory.wf s.mem = true) : Memory.wf (s.takeKey slot key n).mem = true := by
  unfold State.takeKey
  split
  · exact h
  · exact foldl_wf (fun t l ht => Memory.wf_writeN ht) _ s h

/-- A write at its home keeps the canonical form of memory. -/
theorem State.writeMem_wf {s : State} {key : Nat} {bytes : List Byte} {slot : Nat} (h : Memory.wf s.mem = true) :
    Memory.wf (s.writeMem key bytes slot).mem = true :=
  foldl_wf (f := fun acc l => acc.lineWritten slot (key ≤ 128 * l && 128 * l + 128 ≤ key + bytes.length) l) (fun _ _ ht => ht) _
    { (s.takeKey slot key bytes.length) with mem := Memory.writeN (s.takeKey slot key bytes.length).mem key bytes }
    (Memory.wf_writeN (State.takeKey_wf h))

theorem State.zeroLine_wf {s : State} {line : Nat} (h : Memory.wf s.mem = true) : Memory.wf (s.zeroLine line).mem = true :=
  State.writeMem_wf h

theorem State.setPte_wf {s : State} {key : Nat} {e : DWord} (h : Memory.wf s.mem = true) : Memory.wf (s.setPte key e).mem = true :=
  State.writeMem_wf h

/-! ### Pushes and named destinations -/

/-- What n pushes leave: the last pushed in front. -/
theorem vget_pushes {α : Type} (d : α) (l : List α) (q : Vector α 16) (n : Nat) (hn : n < 16) :
    vget (l.foldl (fun acc e => vpush e acc) q) d n =
      if n < l.length then l.getD (l.length - 1 - n) d else vget q d (n - l.length) := by
  induction l generalizing q with
  | nil => simp
  | cons a t ih =>
    simp only [List.foldl_cons, ih, List.length_cons]
    by_cases h1 : n < t.length
    · rw [if_pos h1, if_pos (by omega), show t.length + 1 - 1 - n = (t.length - 1 - n) + 1 by omega, List.getD_cons_succ]
    · rw [if_neg h1]
      by_cases h2 : n = t.length
      · subst h2
        rw [if_pos (by omega), Nat.sub_self, vget_vpush_zero _ _ _ (by omega)]
        simp
      · rw [if_neg (by omega), show n - t.length = (n - (t.length + 1)) + 1 by omega, vget_vpush_succ _ _ _ _ (by omega)]

theorem Strand.queueAt_push (sd : Strand) (act : Mask) (words : Nat) (es : Nat → List Entry) (l n : Nat) (hl : l < 32) (hn : n < 16)
    (hw : ∀ k, (es k).length = words) :
    (sd.push act words es).queueAt l n =
      if sd.mask.getLsbD l then
        (if n < words then (if act.getLsbD l then (es l).getD (words - 1 - n) {} else sd.queueAt l 0) else sd.queueAt l (n - words))
      else sd.queueAt l n := by
  simp only [Strand.queueAt, Strand.push]
  rw [vget_vmapIdx _ _ _ (vconst 16 {}) _ hl]
  split
  · rw [vget_pushes _ _ _ _ hn]
    split
    · rw [hw l]
    · rw [List.length_replicate]
      by_cases h : n < words
      · simp [h, List.getD_eq_getElem?_getD, show words - 1 - n < words by omega]
      · simp [h]
  · rfl

theorem Course.vAt_writeV (co : Course) (k : Nat) (act : Mask) (e : Nat → Entry) (n l : Nat) (hn : n < 64) (hl : l < 32) :
    (co.writeV k act e).vAt n l = if k = n ∧ act.getLsbD l = true then e l else co.vAt n l := by
  simp only [Course.vAt, Course.writeV]
  by_cases h : k = n
  · subst h
    rw [vget_vset_same _ _ _ _ hn, vget_vmapIdx _ _ _ {} _ hl]
    by_cases ha : act.getLsbD l = true <;> simp [ha]
  · rw [vget_vset_ne _ _ _ _ _ h]
    simp [h]

/-- Registers k, k+1, … written one after another. -/
theorem Course.vAt_writeVs (co : Course) (k words : Nat) (act : Mask) (e : Nat → Nat → Entry) (n l : Nat) (hn : n < 64) (hl : l < 32) :
    ((List.range words).foldl (fun acc i => acc.writeV (k + i) act (fun j => e j i)) co).vAt n l =
      if k ≤ n ∧ n < k + words ∧ act.getLsbD l = true then e l (n - k) else co.vAt n l := by
  induction words with
  | zero => simp; omega
  | succ m ih =>
    rw [List.range_succ, List.foldl_append, List.foldl_cons, List.foldl_nil, Course.vAt_writeV _ _ _ _ _ _ hn hl, ih]
    by_cases h : k + m = n
    · subst h
      by_cases ha : act.getLsbD l = true
      · simp [ha]
      · simp [ha]
    · by_cases ha : act.getLsbD l = true
      · simp only [h, if_false, ha, and_true]
        by_cases h1 : k ≤ n ∧ n < k + m
        · rw [if_pos h1, if_pos (by omega)]
        · rw [if_neg h1, if_neg (by omega)]
      · simp [ha]

theorem foldl_course_keep {α : Type} {g : Course → β} {f : Course → α → Course} (h : ∀ co a, g (f co a) = g co) (l : List α)
    (co : Course) : g (l.foldl f co) = g co := by
  induction l generalizing co with
  | nil => rfl
  | cons a t ih => rw [List.foldl_cons, ih, h]

end Machine

/-! ### The common effect of a value-producing word -/

namespace Machine

theorem State.courseD_modStrand {s : State} {c st : Nat} {co : Course} (f : Strand → Strand) (h : s.course c = some co) :
    (s.modStrand c st f).courseD c = co.modStrand st f := State.courseD_modCourse _ h

theorem wordsOf_length (n x : Nat) : (wordsOf n x).length = n := by simp [wordsOf]

theorem wordsOf_getD (n x k : Nat) (h : k < n) :
    ((wordsOf n x).map (fun w => ({ val := w } : Entry))).getD k {} = valueWord x k := by
  simp [wordsOf, List.getD_eq_getElem?_getD, h, valueWord]

/-- A named destination that is a v register written (R72): what is in it afterwards. -/
theorem writeV_range_wrote (co : Course) (act : Mask) (d : BitVec 8) (words : Nat) (e : Nat → Nat → Entry) (hd : isV d = true)
    (n l : Nat) (hn : n < 64) (hl : l < 32) :
    ((List.range words).foldl (fun acc i => acc.writeV (d.toNat - 0x40 + i) act (fun j => e j i)) co).vAt n l =
      if isV d && d.toNat ≤ n + 0x40 && n + 0x40 < d.toNat + words && act.getLsbD l then e l (n + 0x40 - d.toNat) else co.vAt n l := by
  have h40 : 0x40 ≤ d.toNat ∧ d.toNat < 0x80 := by
    simpa [isV] using hd
  rw [Course.vAt_writeVs _ _ _ _ _ _ _ hn hl]
  simp only [hd, Bool.true_and, Bool.and_eq_true, decide_eq_true_eq]
  have e1 : n + 64 - d.toNat = n - (d.toNat - 64) := by omega
  rw [e1]
  by_cases ha : act.getLsbD l = true
  · simp only [ha, and_true]
    by_cases h1 : d.toNat - 64 ≤ n ∧ n < d.toNat - 64 + words
    · rw [if_pos h1, if_pos (by omega)]
    · rw [if_neg h1, if_neg (by omega)]
  · simp [ha]

/-- What a push and a write of the named destination leave, for entries e l k that an active lane's word k receives and a g
copy g l that the lowest active lane gives (R44, R47, R48, R72). -/
theorem push_named_spec {x : At} {act : Mask} {d : BitVec 8} {words : Nat} {e : Nat → Nat → Entry} {g : Nat → GReg}
    {s u : State} {co : Course} (h : s.course x.c = some co) (hst : x.st < 4)
    (hu : u = (let s1 := s.modStrand x.c x.st (fun sd => sd.push act words (fun l => (List.range words).map (e l)))
      if isV d then s1.modCourse x.c (fun co => (List.range words).foldl
          (fun acc i => acc.writeV (d.toNat - 0x40 + i) act (fun l => e l i)) co)
      else if isG d then
        match lowLane act with
        | none => s1
        | some l => s1.modStrand x.c x.st (fun sd => sd.writeG (d.toNat - 0x20) (g l))
      else s1)) :
    OnlyRegisters x.c x.st s u ∧ Pushed x.c x.st act words e s u ∧ WroteV x.c act d words e s u ∧
      WroteG x.c x.st act d g s u := by
  subst hu
  dsimp only
  generalize hp : (fun sd : Strand => sd.push act words (fun l => (List.range words).map (e l))) = p
  have hq : ∀ sd : Strand, ∀ l n, l < 32 → n < 16 → (p sd).queueAt l n =
      if sd.mask.getLsbD l then
        (if n < words then (if act.getLsbD l then e l (words - 1 - n) else sd.queueAt l 0) else sd.queueAt l (n - words))
      else sd.queueAt l n := by
    intro sd l n hl hn
    subst hp
    rw [Strand.queueAt_push _ _ _ _ _ _ hl hn (by simp)]
    by_cases hw : n < words
    · simp [hw, List.getD_eq_getElem?_getD, show words - 1 - n < words by omega]
    · simp [hw]
  have hpf : ∀ sd : Strand, { p sd with q := sd.q } = sd := fun sd => by subst hp; rfl
  have hpg : ∀ sd : Strand, (p sd).g = sd.g := fun sd => by subst hp; rfl
  clear hp
  generalize hs1 : s.modStrand x.c x.st p = s1
  have h1 : s1.course x.c = some (co.modStrand x.st p) := by
    subst hs1
    exact State.course_present _ h
  have hsd : ((co.modStrand x.st p).strand x.st) = p (co.strand x.st) := by
    rw [Course.strand_modStrand _ _ _ _ hst, if_pos rfl]
  have hoc : OnlyCourse x.c s s1 := hs1 ▸ OnlyCourse.modStrand _ _ _ _
  have hold := State.courseD_eq h
  have hnew := State.courseD_eq h1
  have hoth : ∀ i, i ≠ x.st → (co.modStrand x.st p).strand i = co.strand i := fun i hi => by
    rw [Course.strand_modStrand _ _ _ _ hst, if_neg (Ne.symm hi)]
  split
  · -- a v register
    rename_i hv
    have hg : isG d = false := by
      cases hgd : isG d
      · rfl
      · exfalso
        have a : 0x40 ≤ d.toNat ∧ d.toNat < 0x80 := by simpa [isV] using hv
        have b : 0x20 ≤ d.toNat ∧ d.toNat < 0x40 := by simpa [isG] using hgd
        omega
    generalize hf : (fun co : Course => (List.range words).foldl
          (fun acc i => acc.writeV (d.toNat - 0x40 + i) act (fun l => e l i)) co) = f
    have hfs : ∀ c' : Course, (f c').strands = c'.strands := fun c' => by
      subst hf; exact foldl_course_keep (g := Course.strands) (f := fun acc i => acc.writeV (d.toNat - 0x40 + i) act (fun l => e l i)) (fun _ _ => rfl) _ _
    have hfo : ∀ c' : Course, { f c' with v := c'.v } = c' := fun c' => by
      subst hf
      have : ∀ (l : List Nat) (c2 : Course), { (l.foldl (fun acc i => acc.writeV (d.toNat - 0x40 + i) act (fun l => e l i)) c2) with v := c'.v }
          = { c2 with v := c'.v } := by
        intro l
        induction l with
        | nil => intro c2; rfl
        | cons a t ih => intro c2; rw [List.foldl_cons, ih]; rfl
      exact (this _ c').trans rfl
    have hfv : ∀ c' : Course, ∀ n l, n < 64 → l < 32 → (f c').vAt n l =
        if isV d && d.toNat ≤ n + 0x40 && n + 0x40 < d.toNat + words && act.getLsbD l then e l (n + 0x40 - d.toNat) else c'.vAt n l :=
      fun c' n l hn hl => by subst hf; exact writeV_range_wrote _ _ _ _ _ hv n l hn hl
    have hu : (s1.modCourse x.c f).courseD x.c = f (co.modStrand x.st p) := State.courseD_modCourse _ h1
    have hst' : ∀ i, (f (co.modStrand x.st p)).strand i = (co.modStrand x.st p).strand i := fun i => by
      simp only [Course.strand, hfs]
    refine ⟨⟨hoc.trans (OnlyCourse.modCourse _ _ _), ?_, ?_, ?_⟩, ?_, ?_, ?_⟩
    · rw [hu, hold]
      have := hfo (co.modStrand x.st p)
      calc _ = { ({ f (co.modStrand x.st p) with v := (co.modStrand x.st p).v }) with strands := co.strands, v := co.v } := rfl
        _ = _ := by rw [this]; rfl
    · intro i _ hi
      rw [hu, hold, hst', hoth i hi]
    · rw [hu, hold, hst', hsd]
      have := hpf (co.strand x.st)
      calc _ = { ({ p (co.strand x.st) with q := (co.strand x.st).q }) with g := (co.strand x.st).g } := rfl
        _ = _ := by rw [this]
    · intro l n hl hn
      rw [hu, hold, hst', hsd, hq _ _ _ hl hn]
    · intro n l hn hl
      rw [hu, hold, hfv _ _ _ hn hl]
      rfl
    · intro n hn
      rw [hu, hold, hst', hsd, hpg, hg]
      cases lowLane act <;> simp
  · rename_i hv
    have hv : isV d = false := by simpa using hv
    have base : OnlyRegisters x.c x.st s s1 ∧ Pushed x.c x.st act words e s s1 ∧ WroteV x.c act d words e s s1 := by
      refine ⟨⟨hoc, ?_, ?_, ?_⟩, ?_, ?_⟩
      · rw [hnew, hold]; rfl
      · intro i _ hi; rw [hnew, hold, hoth i hi]
      · rw [hnew, hold, hsd]
        have := hpf (co.strand x.st)
        calc _ = { ({ p (co.strand x.st) with q := (co.strand x.st).q }) with g := (co.strand x.st).g } := rfl
          _ = _ := by rw [this]
      · intro l n hl hn
        rw [hnew, hold, hsd, hq _ _ _ hl hn]
      · intro n l hn hl
        rw [hnew, hold, hv]
        simp
        rfl
    split
    · rename_i hg
      cases hlow : lowLane act with
      | none =>
        refine ⟨base.1, base.2.1, base.2.2, ?_⟩
        intro n hn
        rw [hlow, hnew, hold, hsd, hpg]
      | some l =>
        dsimp only
        have hu : (s1.modStrand x.c x.st (fun sd => sd.writeG (d.toNat - 0x20) (g l))).courseD x.c =
            (co.modStrand x.st p).modStrand x.st (fun sd => sd.writeG (d.toNat - 0x20) (g l)) := State.courseD_modStrand _ h1
        have hsd2 : (((co.modStrand x.st p).modStrand x.st (fun sd => sd.writeG (d.toNat - 0x20) (g l))).strand x.st)
            = (p (co.strand x.st)).writeG (d.toNat - 0x20) (g l) := by
          rw [Course.strand_modStrand _ _ _ _ hst, if_pos rfl, hsd]
        refine ⟨⟨hoc.trans (OnlyCourse.modStrand _ _ _ _), ?_, ?_, ?_⟩, ?_, ?_, ?_⟩
        · rw [hu, hold]; rfl
        · intro i _ hi
          rw [hu, hold, Course.strand_modStrand _ _ _ _ hst, if_neg (Ne.symm hi), hoth i hi]
        · rw [hu, hold, hsd2]
          have := hpf (co.strand x.st)
          calc _ = { ({ p (co.strand x.st) with q := (co.strand x.st).q }) with g := (co.strand x.st).g } := rfl
            _ = _ := by rw [this]
        · intro l' n hl hn
          rw [hu, hold, hsd2]
          exact hq _ _ _ hl hn
        · intro n l' hn hl
          rw [hu, hold, hv]
          simp
          rfl
        · intro n hn
          rw [hu, hold, hsd2, hlow]
          have b : 0x20 ≤ d.toNat ∧ d.toNat < 0x40 := by simpa [isG] using hg
          simp only [Strand.writeG, hg, Bool.true_and, beq_iff_eq]
          by_cases hn2 : d.toNat - 32 = n
          · subst hn2
            rw [vget_vset_same _ _ _ _ hn, if_pos (by omega)]
          · rw [vget_vset_ne _ _ _ _ _ hn2, if_neg (by omega), hpg]
    · rename_i hg
      have hg : isG d = false := by simpa using hg
      refine ⟨base.1, base.2.1, base.2.2, ?_⟩
      intro n hn
      rw [hnew, hold, hsd, hpg, hg]
      cases lowLane act <;> simp

/-- The common effect of a value-producing word: its words pushed, its named destination written, and no more (R72). -/
theorem produce_spec {x : At} {act : Mask} {d : BitVec 8} {words : Nat} {signed : Bool} {val : Nat → Nat} {s : State} {co : Course}
    (h : s.course x.c = some co) (hst : x.st < 4) :
    Produced x act d words signed val s (produce x act d words signed val s) := by
  obtain ⟨a, b, c, e⟩ := push_named_spec (x := x) (act := act) (d := d) (words := words) (e := fun l k => valueWord (val l) k)
    (g := fun l => { val := extendG words signed (val l) }) (u := produce x act d words signed val s) h hst (by
      simp only [produce, writeNamed, wordsOf, List.map_map, Function.comp_def, valueWord] <;> cases lowLane act <;> rfl)
  exact ⟨a, b, c, e⟩

/-- The push of a long-latency producer: entries that await the arrival, the named destination with them (R49, R51). -/
theorem produceLater_spec {x : At} {act : Mask} {d : BitVec 8} {words id : Nat} {s : State} {co : Course}
    (h : s.course x.c = some co) (hst : x.st < 4) :
    ProducedLater x act d words id s (produceLater x act d words id s) := by
  by_cases ha : act = 0#32
  · subst ha
    obtain ⟨h1, h2, h3, -⟩ := push_named_spec (x := x) (act := 0#32) (d := 0xFF#8) (words := words)
      (e := fun _ k => awaiting id k) (g := fun _ => { full := false, await := some (8 * id) }) (u := produceLater x 0#32 d words id s)
      h hst (by simp [produceLater, awaiting, show isV 0xFF#8 = false by decide, show isG 0xFF#8 = false by decide])
    have hz : lowLane 0#32 = none := by decide
    refine ⟨h1, h2, ?_, ?_⟩
    · intro n l hn hl
      rw [h3 n l hn hl]
      simp
    · intro n hn
      rw [hz]
      simp only [produceLater, if_true]
      rw [State.courseD_modStrand _ h, State.courseD_eq h, Course.strand_modStrand _ _ _ _ hst, if_pos rfl]
      rfl
  · obtain ⟨a, b, c, e⟩ := push_named_spec (x := x) (act := act) (d := d) (words := words) (e := fun _ k => awaiting id k)
      (g := fun _ => { full := false, await := some (8 * id) }) (u := produceLater x act d words id s) h hst (by
        simp only [produceLater, awaiting, ha, if_false]
        cases hl : lowLane act with
        | none => exact absurd (lowLane_none hl) ha
        | some l => rfl)
    exact ⟨a, b, c, e⟩

end Machine

/-! ### Reports of latent poison -/

namespace Machine

theorem State.course_isSome_modCourse (s : State) (c k : Nat) (f : Course → Course) :
    ((s.modCourse c f).course k).isSome = (s.course k).isSome := by
  rw [State.course_modCourse]
  split
  · simp
  · rfl

theorem postLatent_course (x : At) (r : Nat) (m : Mask) (s : State) (k : Nat) : (postLatent x r m s).course k = s.course k :=
  State.course_of_courses (OnlyPosted.post _ _ _).courses k

theorem noteLatentWord_course (x : At) (act : Mask) (r : SrcRef) (s : State) (i k : Nat) :
    ((noteLatentWord x act r s i).course k).isSome = (s.course k).isSome := by
  unfold noteLatentWord
  dsimp only
  split
  · rfl
  · unfold noteWord
    dsimp only
    split
    · rw [State.modStrand, State.course_isSome_modCourse, postLatent_course]
    · split
      · rw [State.modStrand, State.course_isSome_modCourse, postLatent_course]
      · rw [State.course_isSome_modCourse, postLatent_course]

/-- A fold of changes that each keep which courses there are keeps it. -/
theorem foldl_course_isSome {α : Type} {f : State → α → State} {k : Nat} (h : ∀ s a, ((f s a).course k).isSome = (s.course k).isSome)
    (l : List α) (s : State) : ((l.foldl f s).course k).isSome = (s.course k).isSome := by
  induction l generalizing s with
  | nil => rfl
  | cons a t ih => rw [List.foldl_cons, ih, h]

theorem noteLatentOne_course (x : At) (act : Mask) (s : State) (r : SrcRef) (k : Nat) :
    ((noteLatentOne x act s r).course k).isSome = (s.course k).isSome :=
  foldl_course_isSome (fun t i => noteLatentWord_course x act r t i k) _ s

theorem noteLatentPred_course (x : At) (act : Mask) (s : State) (n k : Nat) :
    ((noteLatentPred x act s n).course k).isSome = (s.course k).isSome := by
  unfold noteLatentPred
  dsimp only
  split
  · rfl
  · rw [State.course_isSome_modCourse, postLatent_course]

/-- Reading the sources of a word removes no course and adds none. -/
theorem noteLatent_course (x : At) (act : Mask) (refs : List SrcRef) (s : State) (k : Nat) :
    ((noteLatent x act refs s).course k).isSome = (s.course k).isSome := by
  have h : ∀ (l : List SrcRef) (t : State), ((l.foldl (noteLatentOne x act) t).course k).isSome = (t.course k).isSome :=
    foldl_course_isSome (fun t r => noteLatentOne_course x act t r k)
  unfold noteLatent acquireFilled
  dsimp only
  split
  · exact h _ _
  · rw [State.course_isSome_modCourse]
    unfold State.acquire
    split
    · exact h _ _
    · exact h _ _

theorem noteReads_course (x : At) (act : Mask) (refs : List SrcRef) (preds : List Nat) (s : State) (k : Nat) :
    ((noteReads x act refs preds s).course k).isSome = (s.course k).isSome :=
  (foldl_course_isSome (fun t n => noteLatentPred_course x act t n k) _ _).trans (noteLatent_course ..)

theorem noteReads_present {x : At} {act : Mask} {refs : List SrcRef} {preds : List Nat} {s : State} {co : Course}
    (h : s.course x.c = some co) : ∃ co', (noteReads x act refs preds s).course x.c = some co' := by
  have := noteReads_course x act refs preds s x.c
  rw [h] at this
  exact Option.isSome_iff_exists.1 this

theorem noteLatent_present {x : At} {act : Mask} {refs : List SrcRef} {s : State} {co : Course} (h : s.course x.c = some co) :
    ∃ co', (noteLatent x act refs s).course x.c = some co' := noteReads_present (preds := []) h

end Machine

/-! ### What the reports of latent poison leave alone -/

theorem OnlyNoted.refl (s : State) : OnlyNoted s s := ⟨s, OnlyPosted.refl s, _, _, rfl⟩

theorem OnlyNoted.trans {s t u : State} (h : OnlyNoted s t) (g : OnlyNoted t u) : OnlyNoted s u := by
  obtain ⟨_, ⟨_, _, _, _, _, _, _, _, _, rfl⟩, _, _, rfl⟩ := h
  obtain ⟨_, ⟨_, _, _, _, _, _, _, _, _, rfl⟩, _, _, rfl⟩ := g
  exact ⟨_, ⟨_, _, _, _, _, _, _, _, _, rfl⟩, _, _, rfl⟩

theorem OnlyNoted.posted {s t : State} (h : OnlyPosted s t) : OnlyNoted s t := ⟨t, h, _, _, rfl⟩

theorem OnlyNoted.modCourse (s : State) (c : Nat) (f : Course → Course) : OnlyNoted s (s.modCourse c f) :=
  ⟨s, OnlyPosted.refl s, _, _, rfl⟩

theorem OnlyNoted.modCore (s : State) (c : Nat) (f : Core → Core) : OnlyNoted s (s.modCore c f) :=
  ⟨s, OnlyPosted.refl s, _, _, rfl⟩

theorem OnlyNoted.acquire (s : State) (c scope : Nat) : OnlyNoted s (s.acquire c scope) := by
  unfold State.acquire
  split
  · exact OnlyNoted.modCore _ _ _
  · exact OnlyNoted.refl _

theorem OnlyNoted.foldl {α : Type} {f : State → α → State} (h : ∀ s a, OnlyNoted s (f s a)) (l : List α) (s : State) :
    OnlyNoted s (l.foldl f s) := by
  induction l generalizing s with
  | nil => exact .refl s
  | cons a t ih => exact (h s a).trans (ih _)

theorem OnlyNoted.noteWord (x : At) (r : SrcRef) (i : Nat) (m : Mask) (s : State) : OnlyNoted s (noteWord x r i m s) := by
  unfold Machine.noteWord
  dsimp only
  split
  · exact OnlyNoted.modCourse _ _ _
  · split <;> exact OnlyNoted.modCourse _ _ _

theorem OnlyNoted.noteLatentOne (x : At) (act : Mask) (s : State) (r : SrcRef) : OnlyNoted s (noteLatentOne x act s r) :=
  OnlyNoted.foldl (fun t i => by
    unfold noteLatentWord
    dsimp only
    split
    · exact OnlyNoted.refl _
    · exact (OnlyNoted.posted (OnlyPosted.post _ _ _)).trans (OnlyNoted.noteWord _ _ _ _ _)) _ s

/-- The reports of latent poison change what records change, courses and cores, no more. -/
theorem OnlyNoted.noteLatent (x : At) (act : Mask) (refs : List SrcRef) (s : State) : OnlyNoted s (noteLatent x act refs s) := by
  have h : ∀ (l : List SrcRef) (t : State), OnlyNoted t (l.foldl (Machine.noteLatentOne x act) t) :=
    OnlyNoted.foldl (OnlyNoted.noteLatentOne x act)
  unfold Machine.noteLatent acquireFilled
  dsimp only
  split
  · exact h _ _
  · exact (h _ _).trans ((OnlyNoted.acquire _ _ _).trans (OnlyNoted.modCourse _ _ _))

/-- The reports of the sources and of the predicates a word reads. -/
theorem OnlyNoted.noteReads (x : At) (act : Mask) (refs : List SrcRef) (preds : List Nat) (s : State) :
    OnlyNoted s (noteReads x act refs preds s) :=
  (OnlyNoted.noteLatent x act refs s).trans (OnlyNoted.foldl (fun t n => by
    unfold noteLatentPred
    dsimp only
    split
    · exact OnlyNoted.refl _
    · exact (OnlyNoted.posted (OnlyPosted.post _ _ _)).trans (OnlyNoted.modCourse _ _ _)) _ _)

theorem OnlyNoted.teams {s t : State} (h : OnlyNoted s t) : t.teams = s.teams := by
  obtain ⟨_, ⟨_, _, _, _, _, _, _, _, _, rfl⟩, _, _, rfl⟩ := h
  rfl

/-- What a source gives rests on its strand as it stands before the word, and on the course count of its team. -/
theorem Machine.SrcRef.read_teams {x : At} {act : Mask} {s t : State} (h : t.teams = s.teams) (r : SrcRef) (l : Nat) :
    r.read x act t l = r.read x act s l := by
  have : ∀ i, laneValue x act t i l = laneValue x act s i l := fun i => by
    simp only [laneValue, State.team, h]
  simp only [SrcRef.read, readSrc, this]

theorem Machine.SrcRef.at_noteLatent {x : At} {act : Mask} {refs : List SrcRef} {s : State} (r : SrcRef) :
    r.at_ x act (Machine.noteLatent x act refs s) = r.at_ x act s := by
  funext l
  simp only [SrcRef.at_, SrcRef.read_teams (OnlyNoted.noteLatent x act refs s).teams]

theorem Machine.SrcRef.low_noteLatent {x : At} {act : Mask} {refs : List SrcRef} {s : State} (r : SrcRef) :
    r.low x act (Machine.noteLatent x act refs s) = r.low x act s := by
  simp only [SrcRef.low, SrcRef.at_noteLatent]

/-- The verdict of an issuing word apart from its own checks. -/
theorem Issues.go {x : At} {act : Mask} {pn : Bool} {pred : BitVec 3} {d : BitVec 8} {words : Nat} {refs : List SrcRef} {s : State}
    (h : Issues x act pn pred d words refs s) : srcVerdict x s act refs = .go := srcVerdict_go h.readable

theorem Issues.course {x : At} {act : Mask} {pn : Bool} {pred : BitVec 3} {d : BitVec 8} {words : Nat} {refs : List SrcRef}
    {s : State} (h : Issues x act pn pred d words refs s) : s.course x.c = some x.co := (State.at_some h.here).2.1

theorem Issues.slot {x : At} {act : Mask} {pn : Bool} {pred : BitVec 3} {d : BitVec 8} {words : Nat} {refs : List SrcRef}
    {s : State} (h : Issues x act pn pred d words refs s) : x.st < 4 := (State.at_some h.here).2.2.2.2.1

/-! ### Words with sources, issued -/

namespace Machine

@[simp] theorem Verdict.go_withPoison (v : Verdict) : Verdict.go.withPoison v = v := rfl

/-- The frame of a word whose first checks say go is that of a word without any. -/
@[simp] theorem framed_go (x : At) (s : State) (pred : BitVec 3) : framed x s pred .go = frameCheck x s pred := rfl

/-- A word whose first checks and own checks say go has its effect, then its strand moves on. -/
theorem first_next {x : At} {act : Mask} {pn : Bool} {pred : BitVec 3} {d : BitVec 8} {words : Nat} {refs : List SrcRef} {s : State}
    {first v : At → Mask → State → Verdict} {f : At → Mask → State → State} (h : Issues x act pn pred d words refs s)
    (hf : first x act s = .go) (hv : v x act s = .go) :
    runWord (firstMeaning pn pred first v f) s = .next (finish x (f x act s)) := by
  have hg : (firstMeaning pn pred first v f).verdict x s = .go := by
    simp only [firstMeaning, ← h.lanes, hf, framed_go, h.unheld, Verdict.go_and, hv]
  rw [runWord, issueWord_go h.here hg]
  simp only [firstMeaning, ← h.lanes]

/-- A word with sources that can be read and whose checks say go has its effect, then its strand moves on. -/
theorem sourced_next {x : At} {act : Mask} {pn : Bool} {pred : BitVec 3} {d : BitVec 8} {words : Nat} {refs : List SrcRef} {s : State}
    {pre v : At → Mask → State → Verdict} {f : At → Mask → State → State} (h : Issues x act pn pred d words refs s)
    (hpre : pre x act s = .go) (hv : v x act s = .go) :
    runWord (sourcedMeaning pn pred pre refs v f) s = .next (finish x (f x act (noteLatent x act refs s))) := by
  exact first_next h (by rw [hpre, h.go]; rfl) hv

/-- A word without sources whose checks say go. -/
theorem plain_next {x : At} {act : Mask} {pn : Bool} {pred : BitVec 3} {d : BitVec 8} {words : Nat} {refs : List SrcRef} {s : State}
    {v : At → Mask → State → Verdict} {f : At → Mask → State → State} (h : Issues x act pn pred d words refs s)
    (hv : v x act s = .go) : plainWord pn pred v f s = .next (finish x (f x act s)) := by
  have hg : (plainMeaning pn pred v f).verdict x s = .go := by
    simp only [plainMeaning, ← h.lanes, h.unheld, Verdict.go_and, hv]
  rw [plainWord, runWord, issueWord_go h.here hg]
  simp only [plainMeaning, ← h.lanes]

/-- A word that moves the PC itself, whose checks say go. -/
theorem moving_next {x : At} {act : Mask} {pn : Bool} {pred : BitVec 3} {d : BitVec 8} {words : Nat} {refs : List SrcRef} {s : State}
    {first v : At → Mask → State → Verdict} {f : At → Mask → State → State} (h : Issues x act pn pred d words refs s)
    (hf : first x act s = .go) (hv : v x act s = .go) :
    runWord (movingMeaning pn pred first v f) s = .next (tidy x.c (f x act (issued x s))) := by
  have hg : (movingMeaning pn pred first v f).verdict x s = .go := by
    simp only [movingMeaning, ← h.lanes, hf, framed_go, h.unheld, Verdict.go_and, hv]
  rw [runWord, issueWord_go h.here hg]
  simp only [movingMeaning, ← h.lanes]

@[simp] theorem noteLatent_nil (x : At) (act : Mask) (s : State) : noteLatent x act [] s = s := by
  simp [noteLatent, acquireFilled]

theorem laneTrap_go {code : Nat} {m : Mask} {addr : Nat → Nat} (h : m = 0#32) : laneTrap code m addr = .go := by
  subst h; rfl

theorem laneTrap_lanesWhere_go {code : Nat} {act : Mask} {f : Nat → Bool} {addr : Nat → Nat}
    (h : ∀ l, l < 32 → act.getLsbD l = true → f l = false) : laneTrap code (lanesWhere act f) addr = .go := by
  apply laneTrap_go
  apply maskOf_zero
  intro l hl
  cases ha : act.getLsbD l
  · rfl
  · simp [h l hl ha]

theorem alignCheck_go {act : Mask} {n : Nat} {addr : Nat → Nat} (h : ∀ l, l < 32 → act.getLsbD l = true → addr l % n = 0) :
    alignCheck act n addr = .go := laneTrap_lanesWhere_go fun l hl ha => by simp [h l hl ha]

theorem releaseLimit_go {x : At} {s : State} (h : Releases x s) : releaseLimit x = .go := by
  simp only [releaseLimit, Course.releaseTrap, h.sound]
  rw [if_neg (by have := h.room; omega)]

/-- What a release at pkg scope need not wait for, none of a narrower scope waits for. -/
theorem pending_narrow {x : At} {s : State} {scope : Nat} (h : x.pending s 4 = false) : x.pending s scope = false := by
  simp only [At.pending, State.pendingAcc, Bool.or_eq_false_iff, List.any_eq_false] at *
  refine ⟨⟨fun a ha => ?_, h.1.2⟩, h.2⟩
  have := h.1.1 a ha
  split
  · next hc =>
    simp only [hc, if_true, List.any_eq_true, not_exists, not_and, Bool.and_eq_true] at *
    exact fun l hl hd => fun _ => this l hl hd (by simp)
  · next hc =>
    simp only [hc, Bool.false_eq_true, if_false, Bool.and_eq_true, not_and, List.any_eq_true, not_exists] at *
    exact fun h2 l hl => this ⟨by simp, h2.2⟩ l hl

theorem releaseCheck_go {x : At} {s : State} {scope : Nat} (h : Releases x s) : releaseCheck x s scope = .go := by
  simp [releaseCheck, pending_narrow h.performed, releaseLimit_go h]

theorem globalCheck_go {q : Where} {align : Nat} {need : Need} {x : At} {act : Mask} {s : State}
    (h : GlobalReady q align need x act s) : globalCheck (x.ctx s) act q need = .go := by
  unfold globalCheck
  rw [laneTrap_lanesWhere_go, laneTrap_lanesWhere_go, laneTrap_lanesWhere_go]
  · rfl
  · intro l hl ha
    obtain ⟨i, r, hf, -, hp⟩ := h.covered l hl ha
    cases hb : q.block
    · obtain ⟨p1, p2⟩ := hp hb
      simp only [hb, Bool.false_eq_true, if_false] at hf
      simp only [denies, hb, hf, Bool.false_eq_true, if_false, Bool.or_eq_false_iff, Bool.and_eq_false_iff, Bool.not_eq_false']
      exact ⟨by cases hr : need.r <;> simp_all, by cases hw : need.w <;> simp_all⟩
    · obtain ⟨p1, p2⟩ := h.permitted l hl ha hb
      simp only [denies, hb, if_true, Bool.or_eq_false_iff, Bool.and_eq_false_iff, Bool.not_eq_false']
      exact ⟨by cases hr : need.r <;> simp_all, by cases hw : need.w <;> simp_all⟩
  · intro l hl ha
    obtain ⟨i, r, hf, hlim, -⟩ := h.covered l hl ha
    simp only [uncovered, hf, decide_eq_false_iff_not, Nat.not_lt]
    cases hb : q.block <;> simpa [hb] using hlim
  · intro l hl ha
    cases hb : q.block
    · simp
    · simp [h.table l hl ha hb]

theorem globalChecks_go {q : GlobalWord} {w : Where} {x : At} {act : Mask} {s : State} (h : GlobalReady w q.align q.need x act s)
    (hl : act ≠ 0#32 → heldByLocal x s q.kind.reads = false) (hr : q.release = true → act ≠ 0#32 → Releases x s) :
    globalChecks q w x act s = .go := by
  unfold globalChecks
  have hw : (act != 0#32 && heldByLocal x s q.kind.reads) = false := by
    by_cases ha : act = 0#32
    · simp [ha]
    · simp [hl ha]
  rw [alignCheck_go h.aligned, globalCheck_go h, hw]
  by_cases hq : q.release = true ∧ act ≠ 0#32
  · simp [hq.1, hq.2, releaseCheck_go (hr hq.1 hq.2)]
  · have : (q.release && act != 0#32) = false := by
      cases h1 : q.release
      · rfl
      · simp only [h1, true_and, ne_eq, not_not] at hq
        simp [hq]
    simp [this]

theorem lsCheck_go {n align : Nat} {addr : Nat → Nat} {x : At} {act : Mask} {s : State} (h : LocalReady n align addr x act s) :
    lsCheck x act s n addr = .go := by
  unfold lsCheck
  have hw : (lanesOf act).any (fun l => lsAt x s (addr l) n == .wait) = false := by
    rw [List.any_eq_false]
    intro l hl
    obtain ⟨hl1, hl2⟩ := mem_lanesOf.1 hl
    obtain ⟨t, off, e⟩ := h.inside l hl1 hl2
    rw [e]
    simp
  rw [hw, laneTrap_lanesWhere_go]
  · rfl
  · intro l hl ha
    obtain ⟨t, off, e⟩ := h.inside l hl ha
    rw [e]
    simp

end Machine

/-! ### Fetch, and what issuing a word leaves alone -/

theorem OnlyPosted.cacheLeaf (s : State) (r : XReq) (e : DWord) (key pa expiry : Nat) : OnlyPosted s (s.cacheLeaf r e key pa expiry) :=
  OnlyPosted.modDev _ _ _

theorem OnlyPosted.fill (s : State) (die : Option Nat) (rdc : Bool) (line cls : Nat) : OnlyPosted s (s.fill die rdc line cls) :=
  ⟨_, _, _, _, _, _, _, _, _, rfl⟩

theorem OnlyPosted.reach (r : XReq) (e : DWord) (key : Nat) (s : State) : OnlyPosted s (reach r e key s) :=
  (OnlyPosted.takeKey _ _ _ _).trans (OnlyPosted.fill _ _ _ _ _)

theorem OnlyPosted.walkerFills (dev ia : Nat) (s : State) : OnlyPosted s (walkerFills dev ia s) :=
  OnlyPosted.foldl (fun _ _ => OnlyPosted.fill _ _ _ _ _) _ s

theorem OnlyPosted.walkXlate (r : XReq) (s : State) : OnlyPosted s (walkXlate r s).1 := by
  unfold Machine.walkXlate
  split
  · exact OnlyPosted.refl _
  · split
    · exact OnlyPosted.refl _
    · dsimp only
      refine (OnlyPosted.walkerFills r.dev r.ia s).trans (OnlyPosted.trans ?_ ((OnlyPosted.cacheLeaf _ _ _ _ _ _).trans (OnlyPosted.reach _ _ _ _)))
      split
      · exact OnlyPosted.refl _
      · exact OnlyPosted.setPte _ _ _

theorem OnlyPosted.homeXlate (r : XReq) (s : State) : OnlyPosted s (homeXlate r s).1 := by
  unfold Machine.homeXlate
  split
  · exact OnlyPosted.walkXlate _ _
  · split
    · exact OnlyPosted.walkXlate _ _
    · split
      · exact OnlyPosted.refl _
      · dsimp only
        split
        · split
          · exact ((OnlyPosted.setPte _ _ _).trans (OnlyPosted.cacheLeaf _ _ _ _ _ _)).trans (OnlyPosted.reach _ _ _ _)
          · exact OnlyPosted.walkXlate _ _
        · exact OnlyPosted.reach _ _ _ _

/-- A fetch changes memory (the accessed bit) and the translation cache, no more. -/
theorem OnlyPosted.fetchWord (cx : Ctx) (pc : DWord) (s : State) : OnlyPosted s (fetchWord cx pc s).1 := by
  unfold Machine.fetchWord
  split
  · exact OnlyPosted.refl _
  · dsimp only
    split
    · exact OnlyPosted.refl _
    · rename_i _ r _ _
      have := OnlyPosted.homeXlate { dev := cx.dev, ia := rangeIa r pc.toNat, write := false, pick := false, owner := ctxOwner cx, cls := cx.tclass } s
      split
      · rename_i h; rw [h] at this; exact this
      · rename_i h; rw [h] at this
        split <;> exact this

namespace Machine

/-- Issuing a word changes its course, its core and the accesses under way, no more. -/
theorem issued_rest (x : At) (s : State) :
    ∃ cs ks ac, issued x s = { s with courses := cs, cores := ks, accesses := ac } := by
  unfold issued
  dsimp only
  split
  · exact ⟨_, _, _, rfl⟩
  · exact ⟨_, _, _, rfl⟩

theorem issued_teams (x : At) (s : State) : (issued x s).teams = s.teams := by
  obtain ⟨_, _, _, h⟩ := issued_rest x s
  rw [h]

theorem issued_ctxs (x : At) (s : State) : (issued x s).ctxs = s.ctxs := by
  obtain ⟨_, _, _, h⟩ := issued_rest x s
  rw [h]

theorem SrcRef.at_issued {x : At} {act : Mask} {s : State} (r : SrcRef) : r.at_ x act (issued x s) = r.at_ x act s := by
  funext l
  simp only [SrcRef.at_, SrcRef.read_teams (issued_teams x s)]

end Machine

end Sys2Proof
end

