-- ==== Sys2Proof/Laws/Records.lean ====
section
/-! SUPPORT. What the operations that journal, save and send can do, said once each: an entry is 64 bytes, a journalled entry
changes its die alone, the bytes of a save record change memory alone, and a flit changes a device and its ports alone. -/

namespace Sys2Proof

open Sys2Proof.Machine

namespace Machine

/-! ### The journal (R380) -/

theorem toBytes_length (n x : Nat) : (toBytes n x).length = n := by
  induction n generalizing x with
  | zero => rfl
  | succ n ih => simp [toBytes, ih]

theorem JEntry.head_length (e : JEntry) : e.head.length = 12 := by simp [JEntry.head, toBytes_length]

theorem JEntry.tail_length (e : JEntry) : e.tail.length = 48 := by
  simp [JEntry.tail, toBytes_length]

theorem JEntry.bytes_length (e : JEntry) : e.bytes.length = 64 := by
  simp [JEntry.bytes, toBytes_length, JEntry.head_length, JEntry.tail_length]

theorem journal_dies (die kind core index : Nat) (payload : List Byte) (s : State) :
    ∃ d, journal die kind core index payload s = { s with dies := vset s.dies die d } := ⟨_, rfl⟩

end Machine

/-! ### Save records (R387, R392, R393) -/

theorem OnlyPosted.imageWrite (key off : Nat) (b : List Byte) (s : State) : OnlyPosted s (imageWrite key off b s) := by
  unfold Machine.imageWrite
  split
  · exact OnlyPosted.devWriteVa ‹_›
  · exact .refl s

theorem OnlyPosted.recordPut (tid off : Nat) (b : List Byte) (s : State) : OnlyPosted s (recordPut tid off b s) := by
  unfold Machine.recordPut
  split
  · exact .refl s
  · split
    · exact .refl s
    · split
      · exact OnlyPosted.devWriteVa ‹_›
      · exact .refl s

theorem OnlyPosted.writeImage (key c : Nat) (co : Course) (chans : Vector (List ChanItem) 8) (s : State) :
    OnlyPosted s (writeImage key c co chans s) :=
  OnlyPosted.foldl (fun _ _ => .imageWrite ..) _ s

theorem OnlyPosted.writeTeam (tid : Nat) (t : Team) (y : SavedTeam) (s : State) : OnlyPosted s (writeTeam tid t y s) :=
  OnlyPosted.foldl (fun _ _ => .recordPut ..) _ s

/-! ### Flits (R228 to R230) -/

/-- Two states agree but for what devices know of each other and the ports. -/
def OnlySent (s t : State) : Prop := ∃ d p, t = { s with devs := d, ports := p }

theorem OnlySent.refl (s : State) : OnlySent s s := ⟨_, _, rfl⟩

theorem OnlySent.trans {s t u : State} (h : OnlySent s t) (g : OnlySent t u) : OnlySent s u := by
  obtain ⟨_, _, rfl⟩ := h
  obtain ⟨_, _, rfl⟩ := g
  exact ⟨_, _, rfl⟩

theorem OnlySent.foldl {α : Type} {f : State → α → State} (h : ∀ s a, OnlySent s (f s a)) (l : List α) (s : State) :
    OnlySent s (l.foldl f s) := by
  induction l generalizing s with
  | nil => exact .refl s
  | cons a t ih => exact (h s a).trans (ih _)

theorem OnlySent.sendOne (dev dst : Nat) (body : FlitBody) (s : State) : OnlySent s (sendOne dev dst body s) := by
  unfold Machine.sendOne
  dsimp only
  split <;> exact ⟨_, _, rfl⟩

theorem OnlySent.sendFlit (dev dst : Nat) (body : FlitBody) (s : State) : OnlySent s (sendFlit dev dst body s) := by
  unfold Machine.sendFlit
  split
  · exact .sendOne ..
  · exact OnlySent.trans (OnlySent.trans ⟨_, _, rfl⟩ (.sendOne ..)) (.sendOne ..)

theorem OnlySent.flushEgress (dev : Nat) (s : State) : OnlySent s (flushEgress dev s) :=
  OnlySent.trans ⟨_, _, rfl⟩ (OnlySent.foldl (fun _ _ => .sendOne ..) _ _)

theorem OnlySent.sendOut (q : RemoteOut) (s : State) : OnlySent s (sendOut q s) := by
  unfold Machine.sendOut
  repeat' split
  all_goals first | exact .refl s | exact .sendFlit ..

end Sys2Proof
end

