-- ==== Sys2Proof/Tests/Slice0.lean ====
section
/-! SUPPORT. Small tests: ill-formed terms that the check refuses, words of the spec's encodings that decode to their
instructions, single steps with results from the spec, and witnesses that the hypotheses of the statements can be met. -/

namespace Sys2Proof.Tests

open Sys2Proof Sys2Proof.Machine

set_option maxRecDepth 20000

/-! ### Ill-formed words: each check refuses one -/

/-- An F-form word without predicate. -/
def fw (a b c d : BitVec 8) (mod : BitVec 15) : FWord := { pn := false, pred := 7#3, sa := a, sb := b, sc := c, d := d, t := 0#3, mod := mod }

/-- An M-form word without predicate. -/
def mw (base data d : BitVec 8) (off : BitVec 16) (size : BitVec 4) (am hint : BitVec 2) : MWord :=
  { pn := false, pred := 7#3, base := base, data := data, d := d, off := off, t := 0#2, size := size, amode := am, hint := hint }

def bw (val : BitVec 8) (woff : Word) (join : BitVec 6) (bop : BitVec 4) : BWord :=
  { pn := false, pred := 7#3, val := val, woff := woff, join := join, bop := bop }

/-- R62: a TYPE that ADD does not have. -/
theorem wf_type : wordTrap (.add (fw 0x00#8 0x01#8 0xFF#8 0xFF#8 0x4070#15)) = some .illegalEncoding := by decide
/-- R62: a PDST that is not 7 where it is unused. -/
theorem wf_pdst : wordTrap (.mov (fw 0x00#8 0xFF#8 0xFF#8 0xFF#8 0x0078#15)) = some .illegalEncoding := by decide
/-- R62: a source where none is used. -/
theorem wf_unused : wordTrap (.nop (fw 0x00#8 0xFF#8 0xFF#8 0xFF#8 0#15)) = some .illegalEncoding := by decide
/-- R62: 0xFF where a source is used. -/
theorem wf_source : wordTrap (.add (fw 0xFF#8 0x01#8 0xFF#8 0xFF#8 0x0070#15)) = some .illegalOperand := by decide
/-- R62: a destination that is no g or v register. -/
theorem wf_dest : wordTrap (.add (fw 0x00#8 0x01#8 0xFF#8 0x10#8 0x0070#15)) = some .illegalOperand := by decide
/-- R62: a 64-bit destination that names an odd v register. -/
theorem wf_odd : wordTrap (.add (fw 0x00#8 0x02#8 0xFF#8 0x41#8 0x1070#15)) = some .illegalOperand := by decide
/-- R62: a T bit on a constant. -/
theorem wf_tbit : wordTrap (.add { fw 0x10#8 0x01#8 0xFF#8 0xFF#8 0x0070#15 with t := 4#3 }) = some .illegalEncoding := by decide
/-- R59: a reserved bit of an I-form word. -/
theorem wf_imm : wordTrap (.movi { pn := false, pred := 7#3, imm := 0#32, d := 0xFF#8, ty := 0#4, rsv := 1#6 }) = some .illegalEncoding := by
  decide
/-- R84: a reserved BOP. -/
theorem wf_bra : wordTrap (.bra (bw 0xFF#8 1#32 0#6 3#4)) = some .illegalEncoding := by decide
/-- R95: LOOP of a register that is no g register. -/
theorem wf_loop : wordTrap (.loop (bw 0x40#8 1#32 0#6 0#4)) = some .illegalOperand := by decide
/-- R76: REP of a single execution. -/
theorem wf_rep : wordTrap (.rep { pn := false, pred := 7#3, count := 1#8, stepA := 0#4, stepB := 0#4, stepC := 0#4, stepD := 0#4, rsv := 0#26 })
    = some .illegalEncoding := by decide
/-- R164: a reserved SIZE. -/
theorem wf_mem : wordTrap (.ld (mw 0x42#8 0xFF#8 0x44#8 0#16 15#4 0#2 0#2)) = some .illegalEncoding := by decide
/-- R64: a pair word whose slot holds no instruction. -/
theorem wf_pair : wordTrap (.pairWord false { op7 := 0#7, pred := 7#3, sa := 0#8, sb := 1#8, t := 0#2, mod3 := 0#3 }
    { op7 := 1#7, pred := 7#3, sa := 0#8, sb := 1#8, t := 0#2, mod3 := 0#3 }) = some .illegalOpcode := by decide
/-- R67: two v registers of one bank. -/
theorem wf_bank : wordTrap (.pairWord false { op7 := 1#7, pred := 7#3, sa := 0x40#8, sb := 0x44#8, t := 0#2, mod3 := 0#3 }
    { op7 := 1#7, pred := 7#3, sa := 0#8, sb := 1#8, t := 0#2, mod3 := 0#3 }) = some .illegalEncoding := by decide
/-- R14: a device that does not exist. -/
theorem wf_event : ¬ WellFormed (.leaseExpire 4 0) := by intro h; exact absurd h.2 (by decide)
/-- R78: a word of an assigned opcode is no ILLEGAL_OPCODE. -/
theorem wf_assigned : wordTrap (.illegalOpcode 0x62DFFFFFFFFC0000#64) = some .illegalOpcode := by decide

/-! ### Words of the spec -/

/-- R58, R62: `(p2) fadd.f32 q0, v4 => v7`. -/
theorem decode_fadd : decode 0x10080113FD1C4070#64 = .ok (.fadd { fw 0x00#8 0x44#8 0xFF#8 0x47#8 0x4070#15 with pred := 2#3 }) := by decide
theorem decode_nop : decode 0x62DFFFFFFFFC0000#64 = .ok (.nop (fw 0xFF#8 0xFF#8 0xFF#8 0xFF#8 0#15)) := by decide
theorem decode_exit : decode 0x611FFFFFFFFC0000#64 = .ok (.exit (fw 0xFF#8 0xFF#8 0xFF#8 0xFF#8 0#15)) := by decide
theorem decode_bra : decode 0x6007FC0000000C10#64 = .ok (.bra { bw 0xFF#8 3#32 1#6 0#4 with pred := 1#3 }) := by decide
theorem decode_loop : decode 0x61DCABFFFFFFC800#64 = .ok (.loop (bw 0x2A#8 (-14#32) 0#6 0#4)) := by decide
theorem decode_ld : decode 0x301C8BFD20001040#64 = .ok (.ld (mw 0x22#8 0xFF#8 0x48#8 4#16 4#4 0#2 0#2)) := by decide
theorem decode_movi : decode 0x085C0000000FFC00#64 = .ok (.movi { pn := false, pred := 7#3, imm := 3#32, d := 0xFF#8, ty := 0#4, rsv := 0#6 }) := by
  decide
theorem decode_pair : decode 0x80F0001042E048A0#64 = .ok (.pairWord false
    { op7 := 0x01#7, pred := 7#3, sa := 0x00#8, sb := 0x01#8, t := 0#2, mod3 := 0#3 }
    { op7 := 0x42#7, pred := 7#3, sa := 0x02#8, sb := 0x45#8, t := 0#2, mod3 := 0#3 }) := by decide
theorem decode_iset : decode 0x07290C97FFFC0042#64 = .ok (.iset { fw 0x43#8 0x25#8 0xFF#8 0xFF#8 0x0042#15 with pn := true, pred := 2#3 }) := by
  decide
theorem decode_stf : decode 0x314C0047FC000040#64 = .ok (.stf { mw 0x00#8 0x11#8 0xFF#8 0#16 4#4 0#2 0#2 with pred := 3#3 }) := by decide
theorem decode_chain : decode 0x401CA7FFFFFC0000#64 = .ok (.chain (fw 0x29#8 0xFF#8 0xFF#8 0xFF#8 0#15)) := by decide
theorem decode_mma : decode 0x501C8BFFFFFC0203#64 = .ok (.mma (fw 0x22#8 0xFF#8 0xFF#8 0xFF#8 0x0203#15)) := by decide
theorem decode_empty : decode 0x641FFFFFFD240000#64 = .ok (.empty (fw 0xFF#8 0xFF#8 0xFF#8 0x49#8 0#15)) := by decide
theorem decode_rstv : decode 0x701C9003FFFC0009#64 = .ok (.rstv (fw 0x24#8 0x00#8 0xFF#8 0xFF#8 0x0009#15)) := by decide
theorem decode_zero : decode 0#64 = .ok (.illegalOpcode 0#64) := by decide
/-- The encoder gives back the words of one instruction of each form. -/
theorem encode_words : [0x10080113FD1C4070#64, 0x80F0001042E048A0#64, 0x6007FC0000000C10#64, 0x301C8BFD20001040#64, 0x085C0000000FFC00#64,
    0x701C9003FFFC0009#64, 0x501C8BFFFFFC0203#64, 0x314C0047FC000040#64].all (fun w => encode (decodeRaw w) == some w) = true := by decide

/-! ### A small state -/

/-- A register that holds one value in every lane. -/
def lanes (v : Word) : Vector Entry 32 := vconst 32 { val := v }

/-- v1 = 1, v2 and v3 = 0x0000_0000_0002_0000, v4 = 16, v5 = 64, v6 = -1, v8 = 4, v12 = 0x8000_0000, v10 and v11 = 0. -/
def v1 : Vector (Vector Entry 32) 64 :=
  [(1, 1#32), (2, 0x20000#32), (4, 16#32), (5, 64#32), (6, 0xFFFFFFFF#32), (8, 4#32), (12, 0x80000000#32)].foldl (fun v e => vset v e.1 (lanes e.2))
    (vconst 64 (lanes 0#32))

/-- One code range and one data range, the first block table, and the privilege. -/
def ctx1 : Ctx :=
  { asid := 1, owners := [1], priv := true, formats := vset (vconst 32 4#64) 0 2#64
    ranges := vset (vset (vconst 8 {}) 0 { base := 0x10000#64, limit := 0x11000#64, attr := 0x2B#32 })
      1 { base := 0x20000#64, limit := 0x22000#64, attr := 0x27#32 }
    tables := vset (vconst 8 {}) 0 { map := 0x20000, maplen := 4, log2bs := 12, perm := 3 } }

def strand1 : Strand := { live := true, pc := 0x10000#64, mask := 0xFFFFFFFF#32, depth := 1, g := vset (vconst 32 {}) 4 { val := 4#64 } }

def course1 : Course := { ctx := 1, team := 1, strands := vset (vconst 4 {}) 0 strand1, name := 0x1234#64, v := v1 }

/-- A team with a circular buffer of two elements and a fragment in each of two streams. -/
def team1 : Team :=
  { launch := 1, ctx := 1, core := 0, teamid := 0, lsBase := 0, lsSize := 64, tile0 := 0, ntiles := 4, bar0 := 0, nbars := 2
    ncourses := 1, live := 1, cbs := [(1, { base := 0, size := 16, log2n := 1, p := 1 })]
    streams := vset (vset (vconst 8 {}) 0 { frags := [{ bytes := some (List.replicate 2048 0#8) }] })
      1 { frags := [{ bytes := some (List.replicate 2048 0#8) }] } }

/-- One course of one strand, whose word is executed. -/
def s1 : State :=
  { State.reset with ctxs := [(1, ctx1)], courses := [(0, course1)], teams := [(1, team1)], cur := some (0, 0) }
def x1 : At := { c := 0, st := 0, co := course1, sd := strand1 }
def all32 : Mask := 0xFFFFFFFF#32

theorem at_s1 : s1.at_ = some x1 := by rfl

/-- A word of the small state issues when its destination awaits nothing and its sources are readable. -/
theorem issues {d : BitVec 8} {words : Nat} {refs : List SrcRef} (hd : destPending x1 all32 d words = false)
    (hr : refs.all (fun r => (List.range 32).all (fun l => (r.read x1 all32 s1 l).full && !(r.read x1 all32 s1 l).poison)) = true) :
    Issues x1 all32 false 7#3 d words refs s1 := by
  refine ⟨at_s1, by decide, by decide, hd, ?_⟩
  intro r hm l hl _
  simpa using (List.all_eq_true.1 (List.all_eq_true.1 hr r hm)) l (List.mem_range.2 hl)

/-- With no lane active every word of the small state issues. -/
theorem issues_idle {d : BitVec 8} {words : Nat} {refs : List SrcRef} (hd : destPending x1 0#32 d words = false) :
    Issues x1 0#32 true 7#3 d words refs s1 := by
  refine ⟨at_s1, by decide, by decide, hd, ?_⟩
  intro r _ l hl h
  simp at h

/-- A release may be performed. -/
theorem releases_s1 : Releases x1 s1 := ⟨by decide, by decide, by decide⟩

theorem alone_x1 : Alone x1 := ⟨by decide, by decide, by decide, by decide, by decide⟩

/-! ### Witnesses: words -/

theorem witness_ArithmeticWords :
    let w := fw 0x00#8 0x44#8 0xFF#8 0x47#8 0x0070#15
    arith? (.add w) = some (.add, w) ∧ Issues x1 all32 w.pn w.pred w.d (arithWords .add w) (refsOf .add w) s1 ∧
      (∀ n ∈ predsOf .add w, predPending x1 s1 n = false) ∧ (∀ n ∈ predReads .add w, badPred x1 all32 n = 0#32) ∧
      formatOk .add w x1 all32 s1 = true :=
  ⟨rfl, issues (by decide) (by decide), by decide, by decide, by decide⟩

/-- A long-latency producer, and PMOV.PUT. -/
theorem witness_ArithmeticWords_other :
    let w := fw 0x41#8 0x44#8 0xFF#8 0x47#8 0x0070#15
    let p := fw 0x41#8 0xFF#8 0xFF#8 0xFF#8 0x0071#15
    (isLongLatency .div = true ∧ Issues x1 all32 false 7#3 w.d (arithWords .div w) (refsOf .div w) s1) ∧
      (isPut .pmov p = true ∧ Issues x1 all32 false 7#3 p.d (arithWords .pmov p) (refsOf .pmov p) s1) :=
  ⟨⟨rfl, issues (by decide) (by decide)⟩, rfl, issues (by decide) (by decide)⟩

theorem witness_ImmediateWords :
    let w : IWord := { pn := false, pred := 7#3, imm := 3#32, d := 0x42#8, ty := 2#4, rsv := 0#6 }
    Issues x1 all32 w.pn w.pred w.d (immWords w.ty.toNat) [] s1 ∧ Issues x1 all32 w.pn w.pred w.d 2 [movhiRef] s1 :=
  ⟨issues (by decide) (by decide), issues (by decide) (by decide)⟩

def slotA : Slot := { op7 := 0x01#7, pred := 7#3, sa := 0x00#8, sb := 0x01#8, t := 0#2, mod3 := 0#3 }
def slotB : Slot := { op7 := 0x42#7, pred := 7#3, sa := 0x02#8, sb := 0x45#8, t := 0#2, mod3 := 0#3 }

theorem witness_PairWords : wordTrap (.pairWord false slotA slotB) = none ∧
    ∃ oa wa ob wb, slotA.arith? = some (oa, wa) ∧ slotB.arith? = some (ob, wb) ∧
      Issues x1 (activeOf x1 false wa.pred) false wa.pred wa.d (arithWords oa wa) (refsOf oa wa) s1 ∧
      Issues x1 (activeOf x1 false wb.pred) false wb.pred wb.d (arithWords ob wb) (refsOf ob wb) s1 ∧
      (∀ n ∈ predsOf oa wa ++ predsOf ob wb, predPending x1 s1 n = false) ∧
      (∀ n ∈ predReads oa wa, badPred x1 (activeOf x1 false wa.pred) n = 0#32) ∧
      (∀ n ∈ predReads ob wb, badPred x1 (activeOf x1 false wb.pred) n = 0#32) :=
  ⟨by decide, _, _, _, _, rfl, rfl, issues (by decide) (by decide), issues (by decide) (by decide), by decide, by decide, by decide⟩

/-- A REP of two executions of an ADD, fetched. -/
def repW : RepWord := { pn := false, pred := 7#3, count := 2#8, stepA := 0#4, stepB := 0#4, stepC := 0#4, stepD := 0#4, rsv := 0#26 }
def addW : DWord := packF 1#9 (fw 0x00#8 0x01#8 0xFF#8 0xFF#8 0x0070#15)
def sRep : State := { withWord State.reset (toBytes 8 (packRep repW).toNat ++ toBytes 8 addW.toNat) with cur := some (0, 0) }
def xRep : At := { c := 0, st := 0, co := wordCourse, sd := wordCourse.strand 0 }

theorem witness_RepWords : sRep.at_ = some xRep ∧
    (match (fetchWord (xRep.ctx sRep) (xRep.sd.pc + 8#64) sRep).2 with
      | .ok w => w == addW
      | _ => false) = true ∧ repTrap repW addW = none ∧
    (arith? (decodeRaw (steppedWord repW addW 0))).map Prod.fst = some .add := ⟨rfl, by decide, by decide, by decide⟩

theorem witness_RegisterReadWords :
    Issues x1 all32 false 7#3 0x44#8 1 [] s1 ∧ Issues x1 all32 false 7#3 0x44#8 2 [] s1 ∧ (x1.ctx s1).priv = true ∧
      valuesPending x1 s1 = false ∧ x1.co.sBad.contains 8 = false :=
  ⟨issues (by decide) (by decide), issues (by decide) (by decide), by decide, by decide, by decide⟩

/-- A course whose SEED and p3 are poisoned. -/
theorem witness_RegisterReadWords_poison :
    let co := { course1 with sBad := [1], pBad := vset course1.pBad 3 1#32 }
    let s := { s1 with courses := [(0, co)] }
    let x := { x1 with co := co }
    Issues x all32 false 7#3 0x44#8 1 [] s ∧ x.co.sBad.contains 1 = true ∧ s.at_ = some x ∧ frameWait x s 3#3 = false ∧
      badPred x x.sd.mask 3 ≠ 0#32 :=
  ⟨⟨rfl, by decide, by decide, by decide, fun _ h => absurd h (by simp)⟩, by decide, rfl, by decide, by decide⟩

theorem witness_PrivilegedWords :
    let s := { s1 with ctxs := [(1, { ctx1 with priv := false })] }
    s.at_ = some x1 ∧ frameCheck x1 s 7#3 = .go ∧ (x1.ctx s).priv = false ∧ activeOf x1 false 7#3 ≠ 0#32 :=
  ⟨rfl, by decide, by decide, by decide⟩

/-- The words with one 32-bit source: MTS, SIGNAL, PRIO, SLEEP, BARINIT, WAITF, CBPROD, CBCONS, SPUSH, ERRINJ. -/
theorem witness_numbers : Issues x1 all32 false 7#3 0xFF#8 0 [numRef (fw 0x41#8 0xFF#8 0xFF#8 0xFF#8 0#15) 0 false] s1 :=
  issues (by decide) (by decide)

theorem witness_RegisterWriteWords :
    let w := fw 0x41#8 0xFF#8 0xFF#8 0xFF#8 0#15
    Issues x1 all32 w.pn w.pred 0xFF#8 0 [numRef w 0 false] s1 ∧ Issues x1 0#32 true 7#3 0xFF#8 0 [numRef w 0 false] s1 ∧ w.fld 0 12 = 0 ∧
      (numRef w 0 false).low x1 all32 s1 % 2 = 1 := ⟨witness_numbers, issues_idle (by decide), by decide, by decide⟩

theorem witness_TrapWords :
    let w := fw 0x41#8 0xFF#8 0xFF#8 0xFF#8 3#15
    Issues x1 all32 w.pn w.pred 0xFF#8 0 (trapRefs w) s1 ∧ Issues x1 0#32 true 7#3 0xFF#8 0 (trapRefs w) s1 ∧
      (x1.ctx s1).debugger = false := ⟨issues (by decide) (by decide), issues_idle (by decide), by decide⟩

/-- READY of a course that has not signalled; NOTIFY with room among the notifications. -/
theorem witness_SignalWords :
    let w := fw 0x41#8 0xFF#8 0xFF#8 0xFF#8 1#15
    Issues x1 all32 false 7#3 0xFF#8 0 [] s1 ∧ x1.co.readySent = false ∧
      Issues x1 all32 w.pn w.pred 0xFF#8 0 [numRef w 0 false] s1 ∧ Releases x1 s1 ∧ notesHeld s1 (x1.ctx s1).dev (launchOf x1 s1) < 64 :=
  ⟨issues (by decide) (by decide), by decide, witness_numbers, releases_s1, by decide⟩

theorem witness_PlainWords :
    let w := fw 0x41#8 0xFF#8 0xFF#8 0xFF#8 0x10#15
    Issues x1 all32 w.pn w.pred 0xFF#8 0 [] s1 ∧ Issues x1 all32 w.pn w.pred 0xFF#8 0 [numRef w 0 false] s1 ∧ w.fld 4 1 = 1 :=
  ⟨issues (by decide) (by decide), witness_numbers, by decide⟩

theorem witness_WaitingWords :
    let w := fw 0x41#8 0xFF#8 0xFF#8 0xFF#8 0#15
    Issues x1 all32 w.pn w.pred 0xFF#8 0 [] s1 ∧ Issues x1 all32 w.pn w.pred 0xFF#8 0 [numRef w 0 false] s1 ∧
      (numRef w 0 false).low x1 all32 s1 ≠ 0 ∧ all32 ≠ 0#32 := ⟨issues (by decide) (by decide), witness_numbers, by decide, by decide⟩

/-- Barrier 1 of the core, the last of the team's two: MOD 9. -/
theorem witness_BarrierWords :
    let w := fw 0x41#8 0xFF#8 0xFF#8 0xFF#8 9#15
    Issues x1 all32 w.pn w.pred 0xFF#8 0 [] s1 ∧ barValid w x1 s1 = true ∧ pendingAt s1 x1.c (barRefOf w) = false ∧ x1.sd.dstack = [] ∧
      x1.sd.inBar = none ∧ x1.co.remoteFail = none ∧ x1.co.relCount < 2 ^ 48 - 1 ∧
      Issues x1 all32 w.pn w.pred 0xFF#8 0 [numRef w 0 false] s1 ∧ 1 ≤ (numRef w 0 false).low x1 all32 s1 :=
  ⟨issues (by decide) (by decide), by decide, by decide, by decide, by decide, by decide, by decide, witness_numbers, by decide⟩

/-- EMPTY of v10 and of g31; WAITF with GRAN of the granule at 16. -/
theorem witness_EmptyAndWaitfWords :
    let w := fw 0xFF#8 0xFF#8 0xFF#8 0x4A#8 0#15
    let g := fw 0xFF#8 0xFF#8 0xFF#8 0x3F#8 0#15
    let f := fw 0x44#8 0xFF#8 0xFF#8 0xFF#8 1#15
    (Issues x1 all32 w.pn w.pred w.d 1 [] s1 ∧ emptyPending w x1 all32 = false) ∧ (Issues x1 all32 g.pn g.pred g.d 1 [] s1 ∧ isG g.d = true) ∧
      Issues x1 all32 f.pn f.pred 0xFF#8 0 [numRef f 0 false] s1 ∧ LocalReady 16 16 ((numRef f 0 false).at_ x1 all32 s1) x1 all32 s1 ∧
      granulesFull x1 all32 s1 ((numRef f 0 false).at_ x1 all32 s1) = true := by
  refine ⟨⟨issues (by decide) (by decide), by decide⟩, ⟨issues (by decide) (by decide), by decide⟩, issues (by decide) (by decide), ⟨by decide, ?_⟩, by decide⟩
  have h : ∀ l, l < 32 → lsAt x1 s1 ((numRef (fw 0x44#8 0xFF#8 0xFF#8 0xFF#8 1#15) 0 false).at_ x1 all32 s1 l) 16 = .ok 1 16 := by decide
  exact fun l hl _ => ⟨_, _, h l hl⟩

/-- BRA and CALL of every lane; BRX to the address in v2 and v3; RET at depth 1. -/
theorem witness_BranchWords :
    let w := bw 0xFF#8 2#32 0#6 0#4
    let v := fw 0x42#8 0xFF#8 0xFF#8 0xFF#8 0#15
    Issues x1 all32 w.pn w.pred 0xFF#8 0 [] s1 ∧ divergeTrap x1 (braGroups w x1 all32) (joinAddress x1.sd.pc w.join.toNat) = .go ∧ x1.sd.depth < 8 ∧
      divergeTrap x1 (callGroups w x1 all32) (joinAddress x1.sd.pc w.join.toNat) = .go ∧
      Issues x1 all32 v.pn v.pred 0xFF#8 0 [numRef v 0 true] s1 ∧
      (∀ l, l < 32 → all32.getLsbD l = true → (brxTarget v x1 all32 s1 l).toNat % 8 = 0) ∧
      divergeTrap x1 (brxGroups v x1 all32 s1) (joinAddress x1.sd.pc (v.fld 0 6)) = .go ∧ 1 ≤ x1.sd.depth ∧
      divergeTrap x1 (retGroups x1 all32 s1) none = .go :=
  ⟨issues (by decide) (by decide), by decide, by decide, by decide, issues (by decide) (by decide), by decide, by decide, by decide, by decide⟩

theorem witness_LoopWords :
    let w := bw 0x24#8 (-1#32) 0#6 0#4
    Issues x1 all32 w.pn w.pred 0xFF#8 0 [loopRef w] s1 ∧ Issues x1 0#32 true 7#3 0xFF#8 0 [loopRef w] s1 ∧
      (vget x1.sd.g {} (w.val.toNat - 0x20)).val - 1#64 ≠ 0#64 := ⟨issues (by decide) (by decide), issues_idle (by decide), by decide⟩

theorem witness_JoinAndExitWords : Issues x1 all32 false 7#3 0xFF#8 0 [] s1 ∧ x1.co.liveStrands = [x1.st] ∧ lastExit x1 all32 = true ∧
    exitWaits x1 s1 = false ∧ x1.co.remoteFail = none ∧ x1.co.relCount < 2 ^ 48 - 1 :=
  ⟨issues (by decide) (by decide), by decide, by decide, by decide, by decide, by decide⟩

/-- LD and ST of 32 bits at 0x20000, and a word whose index stands in a register. -/
theorem witness_GlobalAccessWords :
    let w := mw 0x42#8 0x45#8 0xFF#8 0#16 4#4 0#2 0#2
    ∃ f ∈ globalForms w, f.instr = .st w ∧ Issues x1 all32 f.w.pn f.w.pred f.dest f.q.words f.refs s1 ∧
      GlobalReady { block := f.w.am == 2, addr := f.addr x1 all32 s1, n := f.q.size } f.q.align f.q.need x1 all32 s1 ∧
      heldByLocal x1 s1 f.q.kind.reads = false := by
  refine ⟨_, .tail _ (.head _), rfl, issues (by decide) (by decide), ⟨by decide, by decide, ?_, by decide⟩, by decide⟩
  intro l hl _
  have h : ∀ l, l < 32 → laneAddr (mw 0x42#8 0x45#8 0xFF#8 0#16 4#4 0#2 0#2) false false 4 x1 all32 s1 l = 0x20000 := by decide
  refine ⟨1, vget ctx1.ranges {} 1, ?_⟩
  simp only [GlobalForm.addr]
  have := h l hl
  simp only [show ((mw 0x42#8 0x45#8 0xFF#8 0#16 4#4 0#2 0#2).am == 2) = false from by decide]
  simp only [show (sizeBytes (mw 0x42#8 0x45#8 0xFF#8 0#16 4#4 0#2 0#2).sz) = 4 from by decide, this]
  decide

theorem witness_BlockTableWords :
    let w := fw 0x4A#8 0x4A#8 0xFF#8 0xFF#8 0#15
    ∃ f ∈ blockForms w, f.instr = .btref w ∧ Issues x1 all32 w.pn w.pred w.d f.q.words (numRef w 0 true :: f.refs) s1 ∧
      GlobalReady { block := true, addr := (numRef w 0 true).at_ x1 all32 s1, n := 0 } 1 f.q.need x1 all32 s1 ∧ badDelta w x1 all32 s1 = false ∧
      heldByLocal x1 s1 f.q.kind.reads = false := by
  refine ⟨_, .tail _ (.head _), rfl, issues (by decide) (by decide), ⟨by decide, by decide, ?_, by decide⟩, by decide, by decide⟩
  intro l hl _
  have h : ∀ l, l < 32 → (numRef (fw 0x4A#8 0x4A#8 0xFF#8 0xFF#8 0#15) 0 true).at_ x1 all32 s1 l = 0 := by decide
  refine ⟨1, vget ctx1.ranges {} 1, ?_⟩
  simp only [h l hl]
  decide

theorem witness_PtewWords :
    let w := fw 0x42#8 0x4A#8 0xFF#8 0xFF#8 0#15
    Issues x1 all32 w.pn w.pred w.d 2 (ptewRefs w) s1 ∧ (x1.ctx s1).priv = true ∧
      GlobalReady { block := false, addr := (numRef w 0 true).at_ x1 all32 s1, n := 8 } 8 { w := true } x1
        (namedLanes all32 ((numRef w 0 true).at_ x1 all32 s1)) s1 ∧ heldByLocal x1 s1 (ptewWord w).kind.reads = false := by
  refine ⟨issues (by decide) (by decide), by decide, ⟨by decide, by decide, ?_, by decide⟩, by decide⟩
  intro l hl _
  have h : ∀ l, l < 32 → (numRef (fw 0x42#8 0x4A#8 0xFF#8 0xFF#8 0#15) 0 true).at_ x1 all32 s1 l = 0x20000 := by decide
  refine ⟨1, vget ctx1.ranges {} 1, ?_⟩
  simp only [h l hl]
  decide

theorem witness_LineWords :
    let w := mw 0x42#8 0xFF#8 0xFF#8 0#16 0#4 0#2 0#2
    Issues x1 all32 w.pn w.pred 0xFF#8 0 [memBase w false] s1 ∧
      GlobalReady { block := w.am == 2, addr := laneAddr w false false 128 x1 all32 s1, n := 128 } 128 { r := true } x1 all32 s1 := by
  refine ⟨issues (by decide) (by decide), by decide, by decide, ?_, by decide⟩
  intro l hl _
  have h : ∀ l, l < 32 → laneAddr (mw 0x42#8 0xFF#8 0xFF#8 0#16 0#4 0#2 0#2) false false 128 x1 all32 s1 l = 0x20000 := by decide
  refine ⟨1, vget ctx1.ranges {} 1, ?_⟩
  simp only [h l hl]
  decide

/-- A block-indexed line whose block no older write of the strand awaits. -/
theorem witness_LineWords_block :
    let w := mw 0x42#8 0xFF#8 0xFF#8 0#16 0#4 2#2 0#2
    w.am = 2 ∧ Issues x1 all32 w.pn w.pred 0xFF#8 0 [memBase w false] s1 ∧
      ∀ l, l < 32 → all32.getLsbD l = true → blockBusy x1 s1 (laneAddr w false false 128 x1 all32 s1 l) = false :=
  ⟨by decide, issues (by decide) (by decide), fun _ _ _ => rfl⟩

/-- FENCE of kind 3 at scope 5; QFENCE of one queue. -/
theorem witness_FenceWords :
    let w := fw 0xFF#8 0xFF#8 0xFF#8 0xFF#8 0x1D#15
    Issues x1 all32 w.pn w.pred 0xFF#8 0 [] s1 ∧ x1.pending s1 4 = false ∧ w.fld 3 2 = 3 ∧ Releases x1 s1 :=
  ⟨issues (by decide) (by decide), by decide, by decide, releases_s1⟩

/-- STF with a release at local byte 16, performed at once. -/
theorem witness_LocalStoreWords :
    let w := mw 0x44#8 0x45#8 0xFF#8 0#16 4#4 0#2 0#2
    ∃ f ∈ localForms w, f.instr = .stf w ∧ Issues x1 all32 f.w.pn f.w.pred f.dest f.q.words f.refs s1 ∧
      LocalReady f.q.size f.q.size (f.addr x1 all32 s1) x1 all32 s1 ∧ f.q.release = true ∧
      ∀ k ∈ granCores x1 all32 s1 f.q.size (f.addr x1 all32 s1), granWaiting s1 k < 256 ∧ granWaiting (localEffect f.q f.dest
        (fun _ _ => f.addr x1 all32) (fun _ _ => refVal f.data x1 all32) (fun _ _ => refVal f.cmp x1 all32) x1 all32 s1) k ≤ 256 := by
  refine ⟨_, .tail _ (.tail _ (.tail _ (.head _))), rfl, issues (by decide) (by decide), ⟨by decide, ?_⟩, rfl, by decide⟩
  have h : ∀ l, l < 32 → lsAt x1 s1 (laneAddr (mw 0x44#8 0x45#8 0xFF#8 0#16 4#4 0#2 0#2) true false 4 x1 all32 s1 l) 4 = .ok 1 16 := by decide
  exact fun l hl _ => ⟨_, _, h l hl⟩

/-- CHAIN of 0; CPY; CODEBK of one row; SWZ. -/
theorem witness_CopyWords :
    let w := fw 0x4A#8 0x41#8 0xFF#8 0xFF#8 0#15
    let v := fw 0x42#8 0x42#8 0x41#8 0xFF#8 0#15
    (Issues x1 all32 w.pn w.pred 0xFF#8 0 [numRef w 0 true] s1 ∧ (numRef w 0 true).low x1 all32 s1 = 0 ∧
      (∀ l, l < 32 → (namedLanes all32 ((numRef w 0 true).at_ x1 all32 s1)).getLsbD l = true →
        (numRef w 0 true).at_ x1 all32 s1 l % 64 = 0) ∧ pendingHeads (s1.core (coreOf x1.c)) 0 < 8) ∧
      (Issues x1 all32 v.pn v.pred 0xFF#8 0 (cpyRefs v) s1 ∧ unclaimedCpy s1 x1.c x1.co.name < 32) ∧
      (Issues x1 all32 w.pn w.pred 0xFF#8 0 [numRef w 0 true, numRef w 1 false] s1 ∧
        (numRef w 1 false).low x1 all32 s1 = 1 ∧ codebookInUse s1 (coreOf x1.c) = false) ∧
      Issues x1 all32 w.pn w.pred 0xFF#8 0 [] s1 ∧ x1.pending s1 4 = false :=
  ⟨⟨issues (by decide) (by decide), by decide, by decide, by decide⟩, ⟨issues (by decide) (by decide), by decide⟩,
    ⟨issues (by decide) (by decide), by decide, by decide⟩, issues (by decide) (by decide), by decide⟩

theorem witness_BatchWords :
    let w := fw 0x4A#8 0xFF#8 0xFF#8 0xFF#8 0#15
    Issues x1 all32 w.pn w.pred w.d 1 [] s1 ∧ unfinished x1.co ≤ w.fld 0 8 ∧ Issues x1 all32 w.pn w.pred 0xFF#8 0 [] s1 ∧
      Issues x1 all32 w.pn w.pred w.d 2 [numRef w 0 false] s1 :=
  ⟨issues (by decide) (by decide), by decide, issues (by decide) (by decide), issues (by decide) (by decide)⟩

/-- CBDEF of one element of 64 bytes at 16; CBPROD, CBCONS and CBWAIT of one element of buffer 1, which holds one of two. -/
theorem witness_BufferWords :
    let w := fw 0x44#8 0x45#8 0xFF#8 0xFF#8 2#15
    let v := fw 0x41#8 0xFF#8 0xFF#8 0xFF#8 1#15
    (Issues x1 all32 w.pn w.pred 0xFF#8 0 [numRef w 0 false, numRef w 1 false] s1 ∧ (numRef w 1 false).low x1 all32 s1 = 64 ∧
      (numRef w 0 false).low x1 all32 s1 = 16 ∧ cbFits s1 x1.co.team 16 64 = true ∧ cbPending s1 (coreOf x1.c) x1.co.team 2 = false) ∧
      Issues x1 all32 v.pn v.pred 0xFF#8 0 [numRef v 0 false] s1 ∧ Issues x1 all32 v.pn v.pred v.d 1 [numRef v 0 false] s1 ∧
      x1.pending s1 4 = false ∧ ∃ b, cbOf s1 x1.co.team (v.fld 0 6) = some b ∧ (numRef v 0 false).low x1 all32 s1 ≤ b.room ∧
        (numRef v 0 false).low x1 all32 s1 ≤ b.held :=
  ⟨⟨issues (by decide) (by decide), by decide, by decide, by decide, by decide⟩, issues (by decide) (by decide),
    issues (by decide) (by decide), by decide, _, rfl, by decide, by decide⟩

/-- SFILL of 64 bytes at 16 into stream 2; SPUSH; SBIND to buffer 1. -/
theorem witness_StreamWords :
    let w := fw 0x44#8 0x45#8 0xFF#8 0xFF#8 0x12#15
    let b := fw 0xFF#8 0xFF#8 0xFF#8 0xFF#8 0x0A#15
    (Issues x1 all32 w.pn w.pred 0xFF#8 0 [numRef w 0 false, numRef w 1 false] s1 ∧ (numRef w 1 false).low x1 all32 s1 = 64 ∧
      lsAt x1 s1 ((numRef w 0 false).low x1 all32 s1) 64 = .ok 1 16 ∧ (streamOf s1 x1.co.team (w.fld 0 3)).bind = none ∧
      (streamOf s1 x1.co.team (w.fld 0 3)).frags.length < 8) ∧
      Issues x1 all32 w.pn w.pred 0xFF#8 0 [numRef w 0 false] s1 ∧ Issues x1 all32 b.pn b.pred 0xFF#8 0 [] s1 ∧
      x1.pending s1 4 = false ∧ b.fld 9 1 ≠ 1 ∧ ∃ y, cbOf s1 x1.co.team (b.fld 3 6) = some y ∧ 16 ≤ y.size ∧ y.size ≤ 2048 :=
  ⟨⟨issues (by decide) (by decide), by decide, by decide, by decide, by decide⟩, issues (by decide) (by decide),
    issues (by decide) (by decide), by decide, by decide, _, rfl, by decide, by decide⟩

theorem witness_MigrationWords :
    let w := fw 0x42#8 0xFF#8 0xFF#8 0xFF#8 0#15
    Issues x1 all32 w.pn w.pred 0xFF#8 0 [numRef w 0 true] s1 ∧ Issues x1 0#32 true 7#3 0xFF#8 0 [numRef w 0 true] s1 :=
  ⟨issues (by decide) (by decide), issues_idle (by decide)⟩

/-- The format block 0 with format registers 0 and 0; streams 0 and 1 hold a fragment of 2,048 bytes. -/
theorem witness_MmaWords :
    let w := fw 0x4A#8 0xFF#8 0xFF#8 0xFF#8 0x200#15
    Issues x1 all32 w.pn w.pred 0xFF#8 0 (mmaRefs w) s1 ∧ MmaReady w x1 all32 s1 ∧ x1.pending s1 4 = false ∧ MatRoom x1 s1 := by
  refine ⟨issues (by decide) (by decide), ?_, by decide, by decide, by decide⟩
  refine { codes := by decide, formats := by decide, blocks := by decide, tile := ⟨by decide, by decide⟩, scales := by decide, latches := by decide, fragA := ⟨_, rfl, by decide⟩, fragB := ⟨_, rfl, by decide⟩ }

theorem witness_MatrixQueueWords :
    let w := fw 0x44#8 0xFF#8 0xFF#8 0x4A#8 0#15
    ∃ f ∈ matForms w, f.instr = .accld w ∧ Issues x1 all32 w.pn w.pred w.d f.words f.refs s1 ∧
      f.ready x1 all32 s1 ∧ x1.pending s1 4 = false ∧ MatRoom x1 s1 := by
  refine ⟨_, .tail _ (.head _), rfl, issues (by decide) (by decide), ⟨⟨by decide, by decide⟩, ?_⟩, by decide, by decide, by decide⟩
  have h : ∀ l, l < 32 → (numRef (fw 0x44#8 0xFF#8 0xFF#8 0x4A#8 0#15) 0 false).at_ x1 all32 s1 l = 16 := by decide
  intro l hl _
  simp only [h l hl]
  decide

theorem witness_FormatWords :
    let w := fw 0x4A#8 0x4A#8 0xFF#8 0xFF#8 0#15
    Issues x1 all32 w.pn w.pred w.d 1 [numRef w 0 true] s1 ∧ Issues x1 all32 w.pn w.pred w.d 2 [] s1 ∧
      Issues x1 all32 w.pn w.pred w.d 1 [numRef w 0 true, numRef w 1 true] s1 ∧ requestsPending s1 x1.c x1.co = false :=
  ⟨issues (by decide) (by decide), issues (by decide) (by decide), issues (by decide) (by decide), by decide⟩

theorem witness_InjectWords :
    let w := fw 0x41#8 0xFF#8 0xFF#8 0xFF#8 3#15
    Issues x1 all32 w.pn w.pred 0xFF#8 0 [numRef w 0 false] s1 ∧ (x1.ctx s1).priv = true ∧
      bitsOf ((numRef w 0 false).low x1 all32 s1) 16 16 = 0 ∧ w.fld 0 6 < (teamD s1 x1.co.team).ntiles :=
  ⟨issues (by decide) (by decide), by decide, by decide, by decide⟩

theorem witness_RemoteStoreWords :
    let w := fw 0x42#8 0x41#8 0xFF#8 0xFF#8 0#15
    Issues x1 all32 w.pn w.pred 0xFF#8 0 [numRef w 0 true, numRef w 1 false] s1 ∧ x1.co.rstvOut < 32 ∧
      waitsForMember x1 s1 (BitVec.ofNat 64 ((numRef w 0 true).low x1 all32 s1)) = false ∧ Releases x1 s1 :=
  ⟨issues (by decide) (by decide), by decide, by decide, releases_s1⟩

theorem witness_NameQueryWords :
    let w := fw 0x42#8 0xFF#8 0xFF#8 0xFF#8 0#15
    Issues x1 all32 w.pn w.pred w.d 1 [numRef w 0 true] s1 ∧
      ∀ l, l < 32 → all32.getLsbD l = true → waitsForMember x1 s1 (BitVec.ofNat 64 ((numRef w 0 true).at_ x1 all32 s1 l)) = false :=
  ⟨issues (by decide) (by decide), by decide⟩

theorem witness_CollectiveWords :
    let w := fw 0x42#8 0xFF#8 0xFF#8 0xFF#8 0#15
    Issues x1 all32 w.pn w.pred w.d 1 [numRef w 0 true] s1 ∧ x1.co.colls.length < 64 ∧ Releases x1 s1 ∧
      (∀ l, l < 32 → (namedLanes all32 ((numRef w 0 true).at_ x1 all32 s1)).getLsbD l = true →
        (numRef w 0 true).at_ x1 all32 s1 l % 64 = 0) ∧
      Issues x1 all32 w.pn w.pred 0xFF#8 0 [] s1 ∧ x1.co.colls.length ≤ w.fld 0 8 :=
  ⟨issues (by decide) (by decide), by decide, releases_s1, by decide, issues (by decide) (by decide), by decide⟩

/-- SWSIZE of four partitions; SWSEND with three operands. -/
theorem witness_SwatchWords :
    let w := fw 0x48#8 0x42#8 0xFF#8 0xFF#8 0#15
    let v := fw 0x42#8 0x42#8 0x42#8 0xFF#8 0#15
    Issues x1 all32 w.pn w.pred 0xFF#8 0 [numRef w 0 false, numRef w 1 true] s1 ∧ x1.pending s1 4 = false ∧
      (numRef w 0 false).low x1 all32 s1 = 2 ^ 2 ∧
      Issues x1 all32 v.pn v.pred v.d 1 ([numRef v 0 true, numRef v 1 true] ++ (if isNone v.sc then [] else [numRef v 2 true])) s1 :=
  ⟨issues (by decide) (by decide), by decide, by decide, issues (by decide) (by decide)⟩

/-! ### Witnesses: around a word -/

/-- Half of the lanes active; v1 read, in no register that an RSTV filled. -/
theorem witness_QuietSources :
    let r := numRef (fw 0x41#8 0xFF#8 0xFF#8 0xFF#8 0#15) 0 false
    (∀ i, i < r.span → ∀ l, l < 32 → (x1.co.vAt (0x41 - 0x40 + i) l).poison = false) ∧ r.code.toNat = 0x41 ∧
      ∀ n ∈ r.vregs, n ∉ x1.co.filled := ⟨by decide, by decide, by decide⟩

theorem witness_NextWord : x1.st < 4 ∧ s1.course x1.c = some x1.co ∧ x1.co.liveStrands = [x1.st] ∧
    (x1.co.strand x1.st).dstack = [] ∧ (x1.co.strand x1.st).wait = .none ∧ (x1.co.strand x1.st).mark = none ∧
    (x1.co.strand x1.st).join ≠ some (x1.sd.pc + 8#64) ∧ (x1.co.strand x1.st).join ≠ some (x1.sd.pc + 16#64) :=
  ⟨by decide, rfl, by decide, by decide, by decide, by decide, by decide, by decide⟩

theorem witness_ArithmeticFrame :
    let w := fw 0x41#8 0x41#8 0xFF#8 0x47#8 0x0070#15
    arith? (.add w) = some (.add, w) ∧ isLongLatency .add = false ∧
      Issues x1 all32 w.pn w.pred w.d (arithWords .add w) (refsOf .add w) s1 ∧ Alone x1 ∧ noteLatent x1 all32 (refsOf .add w) s1 = s1 :=
  ⟨rfl, rfl, issues (by decide) (by decide), alone_x1, by decide⟩

/-- TYPE .i32 of v1 and v6, whose values are 1 and −1, without SAT. -/
def wI32 : FWord := fw 0x41#8 0x46#8 0xFF#8 0xFF#8 0x0070#15

theorem witness_IntegerValues : tyInt wI32.ty = true ∧ wI32.sat = false ∧ 0 < tyElems wI32.ty ∧ elemWidth wI32.ty = 32 ∧
    valueOf .add wI32 x1 all32 s1 0 0 = 1 ∧ valueOf .add wI32 x1 all32 s1 1 0 = 2 ^ 32 - 1 := by decide

/-- The dividends −1, 1 and −2^31 (v6, v1, v12) with the divisors 0 and −1 (v10, v6). -/
theorem witness_DivisionCorners :
    let w := fun (a b : BitVec 8) => fw a b 0xFF#8 0xFF#8 0x0070#15
    let v := fun (a b : BitVec 8) i => valueOf .div (w a b) x1 all32 s1 i 0
    tyInt (w 0#8 0#8).ty = true ∧ tySgn (w 0#8 0#8).ty = true ∧ elemWidth (w 0#8 0#8).ty = 32 ∧
      (v 0x41#8 0x4A#8 0 = 1 ∧ v 0x41#8 0x4A#8 1 = 0) ∧ v 0x46#8 0x4A#8 0 = 2 ^ 32 - 1 ∧
      (v 0x4C#8 0x46#8 0 = 2 ^ 31 ∧ v 0x4C#8 0x46#8 1 = 2 ^ 32 - 1) := by decide

/-- A quiet and a signalling NaN, 1 and 2 in binary32. -/
theorem witness_SignAndOrder : (decodeF .f32 0x7FC00000).isNan = true ∧ (decodeF .f32 0x7F800001).isSnan = true ∧
    (decodeF .f32 0x3F800000).isNan = false ∧ (decodeF .f32 0x3F800000).cmp (decodeF .f32 0x40000000) < 0 := by decide

theorem witness_RoundTrip :
    let i : Instr := .nop (fw 0xFF#8 0xFF#8 0xFF#8 0xFF#8 0#15)
    (∃ w, encode i = some w) ∧ (∀ v, i ≠ .illegalOpcode v) ∧ (∀ rsv a b, i ≠ .pairWord rsv a b) ∧ WellFormed i :=
  ⟨⟨_, rfl⟩, fun _ h => Instr.noConfusion h, fun _ _ _ h => Instr.noConfusion h, by decide, by decide⟩

/-! ### Witnesses: a step -/

def sNop : State := State.reset.withFetchWord 64 0x62DFFFFFFFFC0000

theorem witness_StepRunsDecoded : nextTurns sNop = [.strand 0 0] ∧
    runnable { sNop with agenda := [] } 0 0 = true ∧ (sNop.courseD 0).remat = [] ∧ Tab.find sNop.returning 0 = none ∧
    (match (fetchWord (sNop.ctx (sNop.courseD 0).ctx) ((sNop.courseD 0).strand 0).pc { sNop with cur := some (0, 0) }).2 with
      | .ok w => w == 0x62DFFFFFFFFC0000#64
      | _ => false) = true ∧ wordTrap (decodeRaw 0x62DFFFFFFFFC0000#64) = none := by decide

def sSleep : State := s1.modStrand 0 0 (fun y => { y with wait := .sleep 0 false })

/-- An event on the agenda; one that is due; nothing due; the end of a cycle. -/
theorem witness_StepRunsEvents : nextTurns { State.reset with agenda := [.event .commandNop 0] } = [.event .commandNop 0] ∧
    sSleep.agenda = [] ∧ (dueEvents sSleep).head? = some (.sleepExpire 0 0, 0) ∧ State.reset.agenda = [] ∧ dueEvents State.reset = [] ∧
    nextTurns { State.reset with agenda := [.cycle [] []] } = [.cycle [] []] ∧
    nextTurns { s1 with agenda := [.regError 0 (.p 3) false] } = [.regError 0 (.p 3) false] ∧
    nextTurns { s1 with agenda := [.inject (.now 0)] } = [.inject (.now 0)] := by decide

theorem witness_IllFormedWords :
    let w := packF 1#9 (fw 0xFF#8 0x01#8 0xFF#8 0xFF#8 0x0070#15)
    let x := { x1 with sd := { strand1 with pc := 0x10004#64 }, co := { course1 with strands := vset (vconst 4 {}) 0 { strand1 with pc := 0x10004#64 } } }
    s1.at_ = some x1 ∧ wordTrap (decodeRaw w) = some .illegalOperand ∧ (∀ r, decodeRaw w ≠ .rep r) ∧
      { s1 with courses := [(0, x.co)] }.at_ = some x ∧ x.sd.pc.toNat % 8 ≠ 0 :=
  ⟨rfl, by decide, fun _ h => Instr.noConfusion h, rfl, by decide⟩

/-- A word in a code range that no page maps. -/
theorem witness_IllFormedWords_unmapped : s1.at_ = some x1 ∧ (codeRange (x1.ctx s1) x1.sd.pc.toNat).isSome = true ∧
    (match walk s1 (x1.ctx s1).dev 0x10000 false with | .fault _ _ => true | _ => false) = true ∧
    (codeRange (x1.ctx s1) x1.sd.pc.toNat).map (fun e => rangeIa e.2 x1.sd.pc.toNat) = some 0x10000 ∧
    Tab.find (s1.dev (x1.ctx s1).dev).tlb (0x10000 / 4096) = none := ⟨rfl, by decide, by decide, by decide, by decide⟩

theorem witness_TakingATrap : s1.course 0 = some course1 := rfl

theorem witness_StepKeepsCanonicalMemory : Sys2Proof.Inv sNop ∧ (match step sNop with | .next _ => true | _ => false) = true :=
  ⟨show Memory.wf sNop.mem = true by decide, by decide⟩

/-! ### Witnesses: the machine's own events, each clause at the boundary of its condition -/

/-- The strand of the small state in a wait, at cycle 4,096 and nanosecond 100 of the die. -/
def sWait (w : Wait) (age : Nat) : State :=
  { (s1.modStrand 0 0 (fun y => { y with wait := w, age := age })).modDie 0 (fun d => { d with clock := 4096 }) with aon := 100 }

def arr1 : Arrival := { course := 0, lanes := all32, words := 1, vals := vconst 32 7 }

theorem witness_StrandEvents :
    let y := fun w age => ((sWait w age).courseD 0).strand 0
    (y (.joinAddr 0) 0).live = true ∧ (y (.joinAddr 0) 0).wait = .joinAddr 0 ∧ 0 + 4096 ≤ (sWait (.joinAddr 0) 0).clockOf 0 ∧
      (y (.joinWord 0 4) 0).wait = .joinWord 0 4 ∧ 0 + 2 ^ (8 + 4) ≤ (sWait (.joinWord 0 4) 0).clockOf 0 ∧
      ((sWait (.joinWord 0 4) 0).courseD 0).cstate = .run ∧ 2 ^ 16 ≤ (y .none 65536).age ∧
      100 ≤ (sWait (.sleep 100 false) 0).aon ∧ 4096 ≤ (sWait (.yield 4096 true) 0).clockOf 0 ∧ (y .none 0).join ≠ some (y .none 0).pc ∧
      (let s := { s1 with arrivals := [(0, arr1)] }
       Tab.find s.arrivals 0 = some arr1 ∧ arr1.course < 8192 ∧ lanesLeft 0 s = 0#32 ∧ s.course arr1.course = some course1) := by decide

/-- A store of one lane, translated; a load that is done; the operation on a granule that is full; a copy-on-write. -/
def lane1 : LaneAcc := { addr := 0x20000, ia := 0x20000, data := [1#8, 2#8], stage := .at_ 0x1000 }
def acc1 : Access :=
  { course := 0, ctx := 1, st := 0, pc := 0x10000#64, word := 0#64, kind := .store, size := 2, lanes := [(3, lane1)] }
def acc2 : Access := { acc1 with kind := .load false, lanes := [(3, { lane1 with stage := .done [1#8] })], words := 1 }
def gran1 : GranOp := { course := 0, team := 1, off := 16, kind := .ldf false, size := 4, lane := 0, result := none }
def sAcc : State :=
  { s1 with accesses := [(5, acc1), (6, acc2)], gran := [(7, gran1)], nextId := 8
            cows := [(0, { core := 0, ctx := 1, table := 0, mapVa := 0x20000, oldIdx := 0, newIdx := 1, desc := 0x3000 })] }

theorem witness_AccessEvents :
    (Tab.find sAcc.accesses 5 = some acc1 ∧ sAcc.mustWait 5 acc1 = false ∧ acc1.lanes = [(3, lane1)] ∧ lane1.stage = .at_ 0x1000 ∧
      lane1.checked acc1.kind = false ∧ lane1.block = false ∧ markedAll (sAcc.courseD 0) = none ∧ Memory.wf sAcc.mem = true) ∧
      (Tab.find sAcc.arrivals 6 = none ∧ Tab.find sAcc.accesses 6 = some acc2 ∧ acc2.undecided = false) ∧
      (Tab.find sAcc.cows 0).isSome = true ∧
      (Tab.find sAcc.gran 7 = some gran1 ∧ granReady sAcc 7 gran1 = true ∧ (sAcc.team gran1.team).isSome = true) := by decide

/-- A LASTUSE under way; two lanes of one ATOMS on one word; the copy-on-write of the small state, whose block nobody holds. -/
theorem witness_AccessEvents_more :
    (let a := { acc1 with kind := .lastuse false }
     ({ sAcc with accesses := [(5, a)] }).mustWait 5 a = false ∧ a.kind = .lastuse false) ∧
      sAcc.allUnder lane1.slot 0x1000 lane1.data.length = true ∧
      (match Tab.find sAcc.cows 0 with | some w => cowHeld sAcc w == false | none => false) = true ∧
      (let g := { gran1 with kind := .atoms 0 4 false, off := 8 }
       let s := { sAcc with gran := [(7, g), (8, { g with lane := 1, off := 12 })] }
       granReady s 7 g = true ∧ g.kind.isAtomic = true ∧ granGroup 7 g s = [7, 8]) := by decide

/-- A copy of 16 bytes from address 0x20000 to local byte 0, not claimed (channel 0), and claimed on channel 2, all moved; a
codebook load at the head of channel 1; a collective; swatch operations in their stages. -/
def own1 : Owner := { course := 0, name := 0x1234#64, ctx := 1, team := 1, launch := 1 }
def rec1 : Record :=
  { owner := own1, batch := 0, number := 0, at_ := none, skind := 2, dkind := 2, xform := 0, waitFe := false, length := 16, src := 0#64
    dst := 16#64, rows := 1, drows := 1, sstride := 0, dstride := 16, xparam := 0#64, bad := false }
def sw1 (word : DWord) (o : SwOp → SwOp) : SwOp := o { owner := own1, word := word, a := 4, b := 0, c := 0, act := all32, params := none }
def sChan : State := s1.modCore 0 (fun k => { k with
  chans := [(0, { items := [.copy rec1] }), (1, { items := [.codebook own1 0x20000 1], loading := true }),
    (4, { items := [.codebook own1 0x20000 1], loading := true, failed := true }),
    (5, { items := [.codebook own1 0x20000 1], loading := true, got := List.replicate 16 0#8 })].foldl
      (fun v (e : Nat × Channel) => vset v e.1 e.2) (vconst 8 {})
  claimed := [(9, (2, { rec1 with status := 6 })), (10, (3, { rec1 with from_ := 16 }))]
  collq := [{ owner := own1, num := 0, desc := 0x20000 }]
  swq := [sw1 (packF 0x1C4#9 (fw 0x41#8 0x42#8 0xFF#8 0xFF#8 0#15)) id] })

theorem witness_CopyEvents :
    (claimHead 0 0 sChan).isSome = true ∧
      (match (runRecord 0 9 2 { rec1 with status := 6 } sChan).2.2 with | .fail e => e == 6 | _ => false) = true ∧
      (match (runRecord 0 10 3 { rec1 with from_ := 16 } sChan).2.2 with | .moved => true | _ => false) = true ∧
      ((vget (sChan.core 0).chans {} 1).loading = true ∧ (vget (sChan.core 0).chans {} 4).failed = true ∧
        (vget (sChan.core 0).chans {} 5).failed = false ∧ (vget (sChan.core 0).chans {} 5).asked = false ∧
        16 * bitsOf 1 0 13 ≤ (vget (sChan.core 0).chans {} 5).got.length) ∧
      (sChan.core 0).collq.length = 1 ∧ Tab.getD (sChan.dev 0).groupDevs [] 0 = [] ∧
      ((sChan.core 0).swq.map swOpcode) = [0x1C4#9] := by decide

/-- Swatch operations of the second stage: computed, without parameters, with parameters, and one whose notice is due. -/
theorem witness_CopyEvents_swatch :
    let at_ := fun (o : SwOp) => s1.modCore 0 (fun k => { k with swq := [o] })
    let w : DWord := packF 0x1C5#9 (fw 0x42#8 0x42#8 0xFF#8 0xFF#8 0#15)
    let q : SwatchParams := { p := 4, salts := [1#64, 2#64, 4#64, 8#64] }
    (let o := sw1 w (fun o => { o with params := some q }); ((at_ o).core 0).swq = [o] ∧ o.fate = none ∧ o.out = 0 ∧ swOpcode o ≠ 0x1C4#9) ∧
      (let o := sw1 w (fun o => { o with fate := some (0, 1, 0) }); ((at_ o).core 0).swq = [o] ∧ o.fate.isSome = true) ∧
      (let o := sw1 w (fun o => { o with fate := some (0, 1, 0), notice := true, params := some q })
       ((at_ o).core 0).swq = [o] ∧ noticeDue (at_ o) 0 = true) := by decide

/-- An ACCZ at the head, not started and started; an MMA started; the rail at the end of its period with the most and the
least corrections that keep its code, and one more and one less. -/
theorem witness_MatrixEvents :
    let o : MatOp := { owner := own1, word := wordOf (.accz (fw 0xFF#8 0xFF#8 0xFF#8 0xFF#8 0#15)) }
    let m : MatOp := { o with word := wordOf (.mma (fw 0x4A#8 0xFF#8 0xFF#8 0xFF#8 0x200#15)), started := true }
    let at_ := fun (o : MatOp) => s1.modCore 0 (fun k => { k with mq := [o] })
    let rail := fun cor => ((s1.modDie 0 (fun d => { d with clock := 2 ^ 24 })).modCore 0 (fun k => { k with
      perCor := cor, perMacs := 2 ^ 30, vcode := 30, vtarget := 4 })).core 0
    (((fencesOf 0 (at_ o)).core 0).mq = [o] ∧ o.fence = none ∧ o.started = false ∧ o.isMma = false) ∧
      (((at_ m).core 0).mq = [m] ∧ m.started = true ∧ m.isMma = true) ∧
      ((rail 1).perCor * 2 ^ 31 < (rail 1).vtarget * (rail 1).perMacs ∧ ¬ (rail 2).perCor * 2 ^ 31 < (rail 2).vtarget * (rail 2).perMacs ∧
        (rail 9).vtarget * (rail 9).perMacs < (rail 9).perCor * 2 ^ 29 ∧ ¬ (rail 8).vtarget * (rail 8).perMacs < (rail 8).perCor * 2 ^ 29) := by
  decide

/-- The small course under a name that is one, and remote stores to it: of a register that is empty, one that is full, and for
another core's course. -/
def sNamed : State := { s1 with courses := [(0, { course1 with name := 0x10000#64, v := vset v1 5 (vconst 32 { full := false }) })] }
def rs (reg seq : Nat) (target : DWord) : Rstv :=
  { owner := { own1 with name := 0x20000#64 }, core := some 0, from_ := 0, asid := 1, groups := [], target := target, reg := reg
    data := vconst 32 1#32, seq := seq }

def flit (seq : Nat) (k : FlitKind) : Flit := { link := 0, seq := seq, src := 5, incarn := 0#8, kind := k }

theorem witness_DeliveryEvents :
    let fate := fun r => rstvFate { sNamed with rstvs := [(9, r)] } 9 r
    (match fate (rs 5 0 0x10000#64) with | .take _ => true | _ => false) = true ∧
      (match fate (rs 6 0 0x10000#64) with | .buffer _ => true | _ => false) = true ∧
      (match fate (rs 5 0 0x50000#64) with | .refuse n => n == 1 | _ => false) = true ∧
      (match fate (rs 5 1 0x10000#64) with | .nak => true | _ => false) = true ∧
      (let r := { rs 5 0 0x10000#64 with nak := true }
       olderNak { sNamed with rstvs := [(9, r)] } 9 r = false) ∧
      ((firstDrain sNamed 0 [] [rs 5 0 0x10000#64]).isSome = true ∧ (nameAt sNamed 0x10000#64).isSome = true) ∧
      ((vget (s1.port 0).links {} 0).up = true ∧ (flit 0 .read).lseq = (vget (s1.port 0).links {} 0).awaited ∧
        { flit 0 .read with lseq := 1 }.lseq ≠ (vget (s1.port 0).links {} 0).awaited ∧ (flit 0 .dataLink).kind = .dataLink ∧
        (flit 0 .read).seq = (s1.port 0).expect ∧ (s1.port 0).held = []) ∧
      (flitListed (flit 0 .read) = false ∧ { flit 0 .read with incarn := 1#8 }.incarn ≠ knownIncarn s1 (devOfPort s1.mode 0) 5) ∧
      (let t := s1.modPort 0 (fun p => { p with expect := 1, links := vset p.links 2 { up := false, retrains := 2, nextTry := 0 } })
       (flit 0 .read).seq < (t.port 0).expect ∧ (t.port 0).expect ≤ (flit 1 .read).seq ∧ (vget (t.port 0).links {} 2).up = false ∧
         (vget (t.port 0).links {} 2).retrains < 3 ∧ (vget (t.port 0).links {} 2).nextTry ≤ t.aon) := by decide

/-- Requests from pod 7, of another package: new, and answered before; one of this device under way; a shoot-down. -/
def req (seq gen : Nat) (k : RemoteKind) : RemoteReq :=
  { src := 7, incarn := 0#8, asid := 3, groups := [], seq := seq, gen := gen, kind := k, ia := 2 ^ 48, size := 4, data := [], cmp := [] }
def out1 (gen : Option Nat) : RemoteOut :=
  { dev := 0, pod := 7, ctx := 1, for_ := .discard 0 0x10000#64 0#64, seq := 0, gen := gen, kind := .discard, ia := 0x3000, size := 128
    incarn := 0#8, since := 0 }
def sPod : State :=
  { s1.modDev 0 (fun d => { d with
      peers := [(7, { done := [(0, (0, [])), (1, (0, []))] })]
      sdQueue := [{ ia := 0, sz := 0, asid := 1, done := 0, sent := true, due := [7], since := 0 }]
      sdRecv := [(7, 0, 0)]
      podTlb := [{ ctx := 1, pod := 7, incarn := 0#8, page := 3, pages := 1, gen := 2, write := true }] }) with
    aon := 2000000, remotes := [(0, out1 (some 1)), (1, out1 none), (2, { out1 none with ia := 0x5000 })] }

theorem witness_RemoteEvents :
    (0#8 : BitVec 8) = knownIncarn sPod 0 7 ∧ (Tab.getD (sPod.dev 0).peers {} 7).refused = false ∧
      (Tab.find (Tab.getD (sPod.dev 0).peers {} 7).done 1).isSome = true ∧
      (Tab.find (Tab.getD (sPod.dev 0).peers {} 7).done 2 = none ∧ heldRequest sPod 0 (req 2 0 .read) = false ∧
        (match serve 0 (req 2 0 .read) sPod with | .done _ c _ => c == cPageFault | _ => false) = true) ∧
      (Tab.find sPod.remotes 0 = some (out1 (some 1)) ∧ nakked sPod (out1 (some 1)) = true ∧ sPod.devOfPod 7 = none) ∧
      ((0#8 : BitVec 8) = (out1 (some 1)).incarn ∧ (1#8 : BitVec 8) ≠ (out1 (some 1)).incarn ∧ waitsToLeave sPod (out1 (some 1)) = false) ∧
      (podEntry sPod (out1 none)).isSome = true ∧ podEntry sPod { out1 none with ia := 0x5000 } = none ∧
      (1#8 : BitVec 8) ≠ knownIncarn sPod 0 7 ∧
      heldRequest (modPeer 0 7 (fun p => { p with stale := [(0, 2 ^ 41)] }) sPod) 0 (req 2 0 .read) = true ∧
      ((match (sPod.dev 0).sdQueue with
        | h :: _ => h.sent && decide (h.since + 1000 * (sPod.dev 0).podTimeout ≤ sPod.aon) &&
            !(h.due.filter (fun p => [7].contains p || (sPod.devOfPod p).isSome)).isEmpty
        | [] => false) = true) ∧
      undrained sPod 0 7 0 0 = false ∧ (sPod.dev 0).sdQueue.length < 16 ∧ (Tab.getD (sPod.dev 0).peers {} 7).incarn ≠ 1#8 ∧
      sPod.remotes.any (fun e => e.2.dev == 0 && e.2.pod == 7 && e.2.since + 1000 * (sPod.dev 0).podTimeout ≤ sPod.aon) = true ∧
      peerFenced sPod 0 7 = false := by decide

/-- Words of eight bytes at rising addresses, as memory lists them. -/
def wordsAt (l : List (Nat × Nat)) : List Host.Cell :=
  l.flatMap (fun e => ((List.range 8).map (fun i => (e.1 + i, BitVec.ofNat 8 (e.2 / 256 ^ i)))).filter (fun c => c.2 != 0#8))

/-- Page tables, a context's descriptor at 0x1000, a data page at 0x20000 with a hank of one skein and one entry. -/
def sMem : State :=
  { State.reset with
    mem := wordsAt [(0x1000, tableEntry 0x2000), (0x2000, tableEntry 0x3000), (0x3000, tableEntry 0x4000), (0x4008, leafEntry 1 0x201000),
      (0x4100, leafEntry 1 0x220000), (0x201000, 2 + 2 ^ 32), (0x220000, 0x4B4E4148 + 2 ^ 48), (0x220018, 64),
      (0x220040, 0x880 * 2 ^ 52 + 31 * (2 ^ 15 + 2 ^ 10 + 2 ^ 5 + 1)), (0x220058, 2 + 2 ^ 32)]
    ctxs := [(1, ctx1)] }.modDev 0 (fun d => { d with ptroot := 0x1001#64 })

/-- A launch command of queue 0 in context 1: one team, done word at 0x21F00. -/
def cmd1 : Command :=
  { queue := 0, ctx := 1, bytes := toBytes 8 1 ++ toBytes 8 0x20000 ++ toBytes 8 0 ++ toBytes 8 1 ++ toBytes 8 0 ++ toBytes 8 0 ++
      toBytes 8 0x21F00 ++ toBytes 8 7 }
def shape1 : LaunchShape := { entry := 0x10000#64, courses := 1, lcl := 64, tiles := 1, bars := 1, binding := [], panel := none }
def place1 : TeamPlace := { core := 0, lsBase := 0, tile0 := 0, bar0 := 0, slots := [(0, 0)] }
def launch1 : Launch :=
  { dev := 0, ctx := 1, queue := 0, seq := 7, done := 0, notifyDone := false, toHost := false, handles := [], prio := 0, courses := 1
    ended := 1, readyCnt := 1, shape := shape1, region := 1#2, strict := false, image := [] }
/-- A launch's course to be bound at slot 0, and one that runs there. -/
def rec0 : BindRec := { entryPc := 0x10000#64, asid := 1, slot := 0, lsSize := 64, ntiles := 1, nbars := 1, team := 1 }
def sBind : State := { sMem with launches := [(1, launch1)], teams := [(1, team1)], slots := [(0, { rec_ := rec0, state := .bind })] }
def sBound : State := { sBind with courses := [(0, course1)], slots := [(0, { rec_ := rec0, state := .run })] }

/-- Hints for the far die's engine, commands and a panel. -/
def mig1 : Migration := { ctx := 1, dev := 0, core := 0, team := 1, promote := true, enc := false, block := false, ia := 0x20000, size := 4096 }
def panel1 : Panel :=
  { launch := 1, scope := 2#3, dev := 0, inst := 0, nteams := 1, members := [], names := [], bars := vconst 16 {}, shape := shape1, plan := [place1] }

theorem witness_DispatchEvents :
    (let s := sMem.modMig 0 (fun e => { e with queue := [mig1] })
     (s.migEngine 0).active = none ∧ migHeld s mig1 = false ∧ migStarts s 0 mig1 = false) ∧
      (let s := sMem.modMig 0 (fun e => { e with active := some mig1 })
       (s.migEngine 0).active = some mig1 ∧ mig1.block = false) ∧
      ((dispatchDie sMem 0).isSome = true ∧ ((sMem.modDev 0 (fun d => { d with scanned := [3] })).dev 0).scanned = [3] ∧
        markerHeld sMem 0 0 1 = false) ∧
      (nextCommand sMem 0 shape1 [] [cmd1] = some ([], cmd1) ∧ (match soundCommand sMem 0 cmd1 shape1 with | .ok _ => true | _ => false) = true ∧
        placesFit sMem 0 shape1 (cmd1.num 24 4) [place1] = true ∧
        (match soundCommand sMem 0 cmd1 { shape1 with lcl := 2 ^ 30 } with | .ok _ => false | _ => true) = true) ∧
      (let m := { cmd1 with bytes := toBytes 8 2 ++ cmd1.bytes.drop 8 }
       [cmd1, m].find? (fun m => m.kind == 2) = some m) ∧
      (let s := { sMem with panels := [(4, panel1)], launches := [(1, launch1)] }
       panel1.plan[panel1.members.length]? = some place1 ∧ canPlace s launch1 (some 4) place1 = true) ∧
      launchDone { sMem with launches := [(1, launch1)] } 1 launch1 = true := by decide

theorem witness_DispatchEvents_course :
    ((slotAt sBind 0).state = .bind ∧ recordFits (slotAt sBind 0).rec_ (slotOf 0) = true ∧ (sBind.team 1).isSome = true ∧
      Tab.find sBind.launches 1 = some launch1) ∧
      (sBound.course 0 = some course1 ∧ (slotAt sBound 0).state = .run ∧ course1.cstate = .run ∧ dispatching sBound (dieOf 0) = true) ∧
      (let co := { course1 with cstate := .unbind }
       let s := { sBound with courses := [(0, co)] }
       s.course 0 = some co ∧ saveReady s 0 = true ∧ (s.ctx co.ctx).priv = true ∧
         { s with armed := [0x1234#64] }.armed.contains 0x1234#64 = true) := by decide

/-- A save area at 0x21000 whose course image has the right check field, and a team record without parts at 0x28000. -/
def ctx2 : Ctx :=
  { ctx1 with ranges := vset ctx1.ranges 1 { base := 0x20000#64, limit := 0x29000#64, attr := 0x27#32 }, saveBase := 0x21000#64 }
def saved1 : Saved := { course := course1, rec_ := rec0 }
def team2 : Team := { team1 with resident := false, recAt := 0x28000, ntiles := 0 }
def sSaved (check : Nat) : State :=
  { sMem with
    mem := wordsAt ([(0x1000, tableEntry 0x2000), (0x2000, tableEntry 0x3000), (0x3000, tableEntry 0x4000)]
      ++ (List.range 8).map (fun i => (0x4108 + 8 * i, leafEntry 1 (0x221000 + 0x1000 * i)))
      ++ [(0x221020, check * 2 ^ 32), (0x228038, 0x03C8EB67 * 2 ^ 32)])
    ctxs := [(1, ctx2)], saved := [(savedKey 1 0, saved1)], teams := [(1, team2)], launches := [(1, launch1)] }

set_option maxRecDepth 400000 in
theorem witness_DispatchEvents_resume :
    (let s := sSaved 0xB872B190
     Tab.find s.saved (savedKey 1 0) = some saved1 ∧ s.team saved1.course.team = some team2 ∧ slotFree s 0 = true ∧
      dispatching s (dieOf 0) = true ∧ heldForPanel s team2.panel (coreOf 0) = false ∧ resumePlace s 0 saved1 team2 place1 = some place1 ∧
      recordFits (resumeRec saved1 0 team2) (slotOf 0) = true ∧ (restoreFirst 1 team2 (coreOf 0) place1 s).isSome = true) ∧
      (match readImage (sSaved 0xB872B190) (savedKey 1 0) with | some b => imageSound b | none => false) = true ∧
      (match readImage (sSaved 0) (savedKey 1 0) with | some b => !(imageSound b) | none => false) = true ∧
      (match readTeam (sSaved 0) team2 with
        | some l => tilesSound team2 l && !(tilesSound { team2 with ntiles := 1 } l)
        | none => false) = true := by decide

def sHub : State := { sMem with ctxs := [] }.modDev 0 (fun d => { d with
  ctxQueue := [{ cmd := 1, desc := 0x1000 }], mapCmds := [1], klCmds := [1], staged := [⟨0, 2 ^ 40, 0, 0, 0, 0⟩]
  held := [{ asid := 5, till := 0 }] })

theorem witness_HubEvents :
    (match headCmd sHub 1 with
      | some (desc, s1) => desc == 0x1000 && (match iaRead s1 0 desc 1024 with
        | some d => (match createResult s1 0 d with | (st, c) => st == 0 && c.isSome) &&
            (match createResult { s1 with mode := .two, ctxs := [(65537, ctx1)] } 0 d with | (st, c) => st == 1 && c.isNone) && updateOk s1 0 d
        | none => false)
      | none => false) = true ∧
      (headMap sHub 1).isSome = true ∧ stagedTable sHub 0 = some [] ∧ stagedTable { sHub with ctxs := [(1, ctx1)] } 0 = none ∧
       (headKey sHub 1).isSome = true ∧ sHub.aon = 0 ∧
      (let s := sHub.modDev 0 (fun d => { d with mapCmds := [2] })
       (headMap s 2).isSome = true ∧ switchHeld s 0 = false ∧ (s.dev 0).staged ≠ []) := by decide

theorem witness_SchedulerEvents :
    dispatching sBound 0 = true ∧ (sBound.die 0).sched.standby = true ∧
      (let s := { sBound with aon := 1000000 }
       (s.die 0).sched.beatAt + 1000000 ≤ s.aon) ∧
      (let s := sBound.modDie 0 (fun d => { d with sched := { d.sched with running := false } })
       (s.die 0).fence = .none ∧ (s.die 0).sched.running = false ∧ (s.die 0).sched.standby = true ∧ unapplied (s.die 0) = []) ∧
      (sBound.course 0 = some course1 ∧ (sBound.team course1.team).isSome = true ∧ stepDone sBound 0 = true ∧
        stepDone { sChan with courses := [(0, { course1 with stepQueues := [3] })] } 0 = false ∧ 1023 < 16 * team1.lsSize ∧ ¬ 1024 < 16 * team1.lsSize) ∧
      telemetryDue { sBound with aon := 100000 } ctx1 = true ∧ telemetryDue { sBound with aon := 99999 } ctx1 = false ∧
      (match devWriteVa sBound 1 0x20000 (telemetryBytes ctx1 0) with | .ok _ => true | _ => false) = true := by decide

theorem witness_PlatformEvents :
    State.reset.ctxs = [] ∧ (State.reset.die 0).fence = .none ∧
      entersState (State.reset.modDie 0 (fun d => { d with quiet := 10000 })) 0 = true ∧
      entersState (State.reset.modDie 0 (fun d => { d with quiet := 9999 })) 0 = false ∧
      (let s := sBound.modDie 0 (fun d => { d with pstate := 2 })
       (s.die 0).pstate ≠ 0 ∧ dieBusy s 0 = true) ∧
      syncLost { State.reset with podMaster := true, aon := 100000000 } = true ∧ (List.replicate 32 0#8 : List Byte).length = 32 := by decide

/-- A collective of one rank, of no element, whose descriptor stands at 0x20000. -/
theorem witness_CopyEvents_collective :
    let o : CollOp := { owner := own1, num := 0, desc := 0x20000 }
    let r : CollReply := { contribs := [([], [])], order := [], failed := none, mismatch := false }
    let s := sMem.modCore 0 (fun k => { k with collq := [o] })
    (s.core 0).collq = [o] ∧ vaHeld s 1 o.desc 64 true = false ∧ Tab.getD (s.dev (s.ctx 1).dev).groupDevs [] (collGroup s o) = [] ∧
      (match collRead (s.ctx 1) o.desc 64 s with
        | (t, some b) => !(collHeld t o (CollDesc.ofBytes b) r.contribs.length) && !(collBad (CollDesc.ofBytes b) r.contribs.length)
        | _ => false) = true := by decide

/-- A device that is refused, a request from it; room for a shoot-down behind one that is sent; a peer of another package. -/
theorem witness_RemoteEvents_refused :
    let s := modPeer 0 7 (fun p => { p with refused := true }) sPod
    (req 2 0 .read).incarn = knownIncarn s 0 7 ∧ (Tab.getD (s.dev 0).peers {} 7).refused = true ∧
      ((sPod.dev 0).sdQueue.filter (fun h => !h.sent)).length < 16 ∧ sPod.devOfPod 7 = none ∧
      (let t := sPod.modDev 0 (fun d => { d with sdQueue := d.sdQueue.map (fun h => { h with due := [] }) })
       ((t.dev t.bank).sdQueue.map (fun h => (h.sent, h.due))) = [(true, [])]) ∧
      (Tab.getD (sPod.dev 0).peers {} 7).incarn = 0#8 ∧ (podEntry sPod { out1 none with ia := 0x5000 }).isNone = true ∧
      kindQuery (out1 none).kind = false := by decide

/-- A map of one region of LPDDR-6 to be staged, of which the granules move, and one that is on the move, at its last granule. -/
def sMove : State := sHub.modDev 0 (fun d => { d with mapStage := [(1, BitVec.ofNat 64 (2 ^ 21)), (2, 1#64)] })

theorem witness_HubEvents_move :
    let old : List MapRegion := [⟨0, 2 ^ 21, 0, 0, 0, 0⟩]
    let l : List MapRegion := [⟨0, 2 ^ 21, 1, 0, 0, 0⟩, ⟨2 ^ 21, 2 ^ 22, 1, 0, 0, 0⟩]
    (headMap sHub 1).isSome = true ∧ (sHub.dev 0).move = none ∧ stagedTable sHub 0 = some [] ∧ movedFrom (sHub.dev 0).regions [] 0 = none ∧
      ((stagedTable sMove 0).any (fun l => (movedFrom [] l 0) == some 0)) = true ∧
      (let s := { sHub with aon := 1 }.modDev 0 (fun d => { d with regions := old, move := some (l, 0, 511, 0) })
       (headMap s 1).isSome = true ∧ (s.dev 0).move = some (l, 0, 511, 0) ∧ 0 < s.aon ∧ nextGranule (s.dev 0).regions l 0 511 = some (1, 0) ∧
        nextGranule (s.dev 0).regions l 1 511 = none) := by
  decide

/-- A context whose SEQ is even, and odd, may its page be written or not. -/
theorem witness_SchedulerEvents_telemetry :
    let at_ := fun seq => { sBound with aon := 100000, ctxs := [(1, { ctx1 with telSeq := seq, telPage := 0x20000#64 })] }
    let ok := fun seq => match devWriteAs false (at_ seq) 1 0x20000 (toBytes 8 (seq + 1)) with | .ok _ => true | _ => false
    ok 0 = true ∧ telemetryDue (at_ 0) ((at_ 0).ctx 1) = true ∧ ok 1 = true ∧ telemetryDue (at_ 1) ((at_ 1).ctx 1) = true := by decide

def boot1 : BootResults :=
  { auth := [], selfFail := [], schedFail := [], stackFail := [], quadPass := [], imageFail := [], osFail := false, osImage := []
    svn := [], jsize := 0, jbase := [], slot0 := [], kempk := [], regions := [], carve := 0, cxl := [] }

/-- The window's writers before and after the boot, at a fenced die, and at its ends; a boot that waits for its answers. -/
theorem witness_PlatformEvents_window :
    windowOpen true 0x1072000 State.reset = true ∧ windowOpen false 0x60 State.reset = true ∧
      windowOpen false 0x60 { State.reset with appHalt := true } = false ∧
      windowOpen true 0x60 { State.reset with booting := some boot1 } = false ∧
      ((State.reset.modDie 0 (fun d => { d with fence := .selfTest })).die 0).fence ≠ .none ∧
      (let s := { State.reset with booting := some boot1, bootAt := 0, aon := 10000000 }
       s.booting = some boot1 ∧ s.bootAt + 10000000 ≤ s.aon ∧ unanswered s boot1 = [0, 1, 2, 3, 4, 5, 7]) ∧
      ({ State.reset with booting := some boot1, aon := 9999999 }.aon < 0 + 10000000) := by decide

/-- A record of a slot that binds, with GEN bit 14 clear. -/
theorem witness_DispatchEvents_gen : bitOf (slotAt sBind 0).rec_.gen 14 = false ∧ (∀ t, sBind.team 1 = some t → t.resident = true) := by
  refine ⟨by decide, fun t h => ?_⟩
  obtain rfl : team1 = t := by simpa using h.symm.trans (show sBind.team 1 = some team1 from rfl) |>.symm
  rfl

/-! ### Values of the spec -/

/-- R266: E4M3 code 0xB5 is −0.8125 and E2M1 code 0x7 is 6; R263: binary16 code 0xC500 is −5. -/
theorem value_narrow : (decodeF (.narrow 1 4 3 7 .fn) 0xB5).cmp (.fin (Q.scaled (-13) (-4))) = 0 ∧
    (decodeF (.narrow 1 2 1 1 .none) 0x7).cmp (.fin (Q.scaled 6 0)) = 0 ∧ (decodeF .f16 0xC500).cmp (.fin (Q.scaled (-5) 0)) = 0 := by decide

/-- R275: SEED from 1, three steps. -/
theorem value_seed : lfsrStep 1#32 = 0x80200003#32 ∧ lfsrStep 0x80200003#32 = 0xC0300002#32 ∧ lfsrStep 0xC0300002#32 = 0x60180001#32 := by decide
/-- R274, R275: 1 + 3 · 2^−12 to binary16 with those three draws. -/
theorem value_stochastic : [8396800, 12595200, 6297600].map (fun u => (roundTo (.fin (Q.scaled 4099 (-12))) .f16 5 false u).1) =
    [0x3C01, 0x3C00, 0x3C01] := by decide

/-- The worked example of R283: LS with a window of 32 bits and without one of 64. -/
theorem value_window :
    let p := fun (a b : Nat) => (some (decodeF (.narrow 1 4 3 7 .fn) a), some (decodeF (.narrow 1 4 3 7 .fn) b))
    let ps := [p 0x7E 0x7E, p 0x7E 0xFE, p 0x01 0x01]
    let e := fun win => mmaElem .f32 win (.zero false) (ps.map Prod.fst) (ps.map Prod.snd)
    (e 0).ref = 0x38000000 ∧ (e 0).ls = true ∧ (e 1).ref = 0x36800000 ∧ (e 1).ls = false := by decide

/-- R256: the cells and the check of the key 0x0000_0000_0001_0002. -/
theorem value_swatch :
    let q : SwatchParams := { p := 4, salts := [1#64, 2#64, 4#64, 8#64] }
    [0, 1, 2].map (fun i => cellOf q i 0x0000000000010002#64) = [2, 5, 11] ∧ checkOf q 0x0000000000010002#64 = 0x000B#32 := by decide

/-- R338: 1, the least negative number and an infinity in the sums of a tile, in units of 2^−149. -/
theorem value_sideband : [0x3F800000#32, 0x80000001#32, 0x7F800000#32].map unitsOf = [some (2 ^ 149), some (-1), none] := by decide

/-- R380: a journal entry read back, and one whose check field does not match. -/
theorem value_journal :
    let e : JEntry := { seq := 5, kind := 2, core := 3, index := 4, payload := List.replicate 32 7#8 }
    JEntry.ofBytes e.bytes = some e ∧ JEntry.ofBytes (0#8 :: e.bytes.drop 1) = none := by decide

/-! ### Single words on the small state -/

/-- The newest entry of a lane after a word. -/
def q0After (i : Instr) (l : Nat) (s : State) : Option Word :=
  match exec i s with
  | .next t => some (((t.courseD 0).strand 0).queueAt l 0).val
  | _ => none

/-- R294: −1 + 1 wraps, and R58: the strand is at the next word. -/
theorem test_add_wraps : q0After (.add (fw 0x46#8 0x41#8 0xFF#8 0xFF#8 0x0070#15)) 31 s1 = some 0#32 ∧
    (match exec (.add (fw 0x46#8 0x41#8 0xFF#8 0xFF#8 0x0070#15)) s1 with
      | .next t => ((t.courseD 0).strand 0).pc == 0x10008#64
      | _ => false) = true := by decide
/-- R294: the operand order of SUB, and R288: SAT clamps −2^31 − 1. -/
theorem test_sub : q0After (.sub (fw 0x41#8 0x48#8 0xFF#8 0xFF#8 0x0070#15)) 0 s1 = some 0xFFFFFFFD#32 ∧
    q0After (.sub (fw 0x4C#8 0x41#8 0xFF#8 0xFF#8 0x00F0#15)) 0 s1 = some 0x80000000#32 := by decide
/-- R295: a shift count is taken modulo the width: 64 is 0. -/
theorem test_shl : q0After (.shl (fw 0x41#8 0x48#8 0xFF#8 0xFF#8 0x0070#15)) 0 s1 = some 16#32 ∧
    q0After (.shl (fw 0x41#8 0x45#8 0xFF#8 0xFF#8 0x0070#15)) 0 s1 = some 1#32 := by decide
/-- R306, R69: 1 + 0.5 in binary32, from the constants 0x81 and 0x83. -/
theorem test_fadd : q0After (.fadd (fw 0x81#8 0x83#8 0xFF#8 0xFF#8 0x4070#15)) 0 s1 = some 0x3FC00000#32 := by decide
/-- R303: .i64 sign-extends IMM32 into the second word, which is the newest entry. -/
theorem test_movi : q0After (.movi { pn := false, pred := 7#3, imm := 0x80000000#32, d := 0xFF#8, ty := 2#4, rsv := 0#6 }) 0 s1 =
    some 0xFFFFFFFF#32 := by decide

/-- R95: LOOP from 4 branches back with 3. -/
theorem test_loop : (match exec (.loop (bw 0x24#8 (-1#32) 0#6 0#4)) s1 with
    | .next t => ((t.courseD 0).strand 0).pc == 0xFFF8#64 && (vget ((t.courseD 0).strand 0).g {} 4).val == 3#64
    | _ => false) = true := by decide
/-- R86: CALL goes to its target one level deeper. -/
theorem test_call : (match exec (.call (bw 0xFF#8 2#32 0#6 2#4)) s1 with
    | .next t => ((t.courseD 0).strand 0).pc == 0x10010#64 && ((t.courseD 0).strand 0).depth == 2
    | _ => false) = true := by decide
/-- R103: TRAP stops the course behind the word. -/
theorem test_trap : (match exec (.trap (fw 0xFF#8 0xFF#8 0xFF#8 0xFF#8 3#15)) s1 with
    | .next t => (t.courseD 0).cstate == .stopped && ((t.courseD 0).strand 0).pc == 0x10008#64
    | _ => false) = true := by decide
/-- R89: EXIT of every lane ends the strand. -/
theorem test_exit : (match exec (.exit (fw 0xFF#8 0xFF#8 0xFF#8 0xFF#8 0#15)) s1 with
    | .next t => (t.course 0).all (fun co => !(co.strand 0).live)
    | _ => false) = true := by decide

/-- R164, R4: STS of 64 at local byte 16, little-endian. -/
theorem test_sts : (match exec (.sts (mw 0x44#8 0x45#8 0xFF#8 0#16 4#4 0#2 0#2)) s1 with
    | .next t => Memory.readN (t.core 0).ls 16 4 == [64#8, 0#8, 0#8, 0#8]
    | _ => false) = true := by decide
/-- R210: CBPROD of one element. -/
theorem test_cbprod : (match exec (.cbprod (fw 0x41#8 0xFF#8 0xFF#8 0xFF#8 1#15)) s1 with
    | .next t => (cbOf t 1 1).map CircBuf.p == some 2
    | _ => false) = true := by decide
/-- R396: PRIO is clipped at 15. -/
theorem test_prio : (match exec (.prio (fw 0x45#8 0xFF#8 0xFF#8 0xFF#8 0x10#15)) s1 with
    | .next t => (t.courseD 0).prio == 15
    | _ => false) = true := by decide
/-- R100: MTS of 0 to SEED writes 1. -/
theorem test_mts : (match exec (.mts (fw 0x4A#8 0xFF#8 0xFF#8 0xFF#8 1#15)) s1 with
    | .next t => (t.courseD 0).seed == 1#32
    | _ => false) = true := by decide
/-- R57: a word whose predicate is poisoned traps REG_POISON. -/
theorem test_poison : (match exec (.nop { fw 0xFF#8 0xFF#8 0xFF#8 0xFF#8 0#15 with pred := 3#3 })
      { s1 with courses := [(0, { course1 with pBad := vset course1.pBad 3 1#32 })] } with
    | .next t => (t.courseD 0).cstate == .stopped && ((t.courseD 0).strand 0).pc == 0x10000#64
    | _ => false) = true := by decide
/-- R406: EMPTY of v10 leaves its data. -/
theorem test_empty : (match exec (.empty (fw 0xFF#8 0xFF#8 0xFF#8 0x41#8 0#15)) s1 with
    | .next t => !((t.courseD 0).vAt 1 7).full && ((t.courseD 0).vAt 1 7).val == 1#32
    | _ => false) = true := by decide

/-- The first step after a NOP has been placed runs it. -/
theorem test_step : (match step sNop with
    | .next t => ((t.courseD 0).strand 0).pc == ((sNop.courseD 0).strand 0).pc + 8#64
    | _ => false) = true := by decide

/-- R320 to R322: one block of E2M1 (format register 6): scales, packed words. -/
def sBlock : State :=
  let vals : List Word := [0x41400000#32, 0xC0400000#32, 0x3F8CCCCD#32, 0x3E99999A#32, 0xC0E00000#32, 0x40200000#32, 0#32, 0x40A00000#32]
  { s1 with
    ctxs := [(1, { ctx1 with formats := vset ctx1.formats 6 0x01601150#64 })]
    courses := [(0, { course1 with v := vset v1 4 (vof 32 (fun l => { val := vals.getD l 0#32 })) })] }
theorem test_scalegen : q0After (.scalegen (fw 0x44#8 0x16#8 0xFF#8 0xFF#8 0x4070#15)) 0 sBlock = some 0x40#32 ∧
    q0After (.scalegen (fw 0x44#8 0x16#8 0xFF#8 0xFF#8 0x4070#15)) 8 sBlock = some 0#32 := by decide

/-- R350, R380, R429, R434, R463, R474: reset values as the management window reads them; R379: the state word of a bound slot. -/
theorem test_window : [0x40, 0x48, 0x1040000, 0x1050000, 0x1071008, 0x1072000].map (fun a => (windowRead a State.reset).toNat) =
    [100, 2000, 4 + 34 * 256, 0xFFFF, 16384, 2] ∧ windowRead 0x1000020 sBound = 2#64 := by decide

end Sys2Proof.Tests
end

section
/-! The canonical form of memory is kept by every step.

`Inv s` speaks of the memory field alone, and four operations of the model write that field: `State.underKey` (with `takeKey`),
`State.writeMem` (with `zeroLine` and `setPte`), `rekeyLines` and `bootStart`. Each of them goes through `Memory.writeN` or starts
from the empty memory, so the laws of `Memory.wf` apply. Every other operation is built from these and from updates of other
fields. The development therefore states one rule per operation `f` of the model, `Inv.f : Inv s → Inv (f … s)`, in the order of
the model's own text: a rule is proved from the rules of the operations that `f` calls, with the case split of `f` itself. The
rules of `exec`, of a turn and of a step end the chain. -/

namespace Sys2Proof
open Sys2Proof.Machine

/-! ### The canonical form in a result -/

/-- An outcome that goes on does so in a canonical state. -/
def NextInv (o : Out) : Prop := ∀ t, o = .next t → Inv t
/-- A state, where there is one, is canonical. -/
def SomeInv (o : Option State) : Prop := ∀ t, o = some t → Inv t
/-- A state that comes with a value is canonical. -/
def SomeSndInv {α : Type} (o : Option (α × State)) : Prop := ∀ a t, o = some (a, t) → Inv t
/-- A state that is no error is canonical. -/
def OkInv {ε : Type} (r : Except ε State) : Prop := ∀ t, r = .ok t → Inv t
/-- A state that comes with a value and is no error is canonical. -/
def OkSndInv {ε α : Type} (r : Except ε (α × State)) : Prop := ∀ a t, r = .ok (a, t) → Inv t
/-- The effect of a word keeps the canonical form. -/
def Keeps (m : Meaning) : Prop := ∀ x s, Inv s → Inv (m.effect x s)
/-- A record that was written, or found its ring full, leaves a canonical state. -/
def ErrInv : ErrRes → Prop
  | .written t | .full t => Inv t
  | .failed _ => True
/-- A request that was done leaves a canonical state. -/
def ServedInv : Served → Prop
  | .done t _ _ => Inv t
  | .held | .stale => True

variable {s t : State}

theorem NextInv.next (h : Inv t) : NextInv (.next t) := fun _ e => by cases e; exact h
theorem NextInv.fault {r} : NextInv (.fault r) := fun _ e => nomatch e
theorem SomeInv.some (h : Inv t) : SomeInv (some t) := fun _ e => by cases e; exact h
theorem SomeInv.none : SomeInv none := fun _ e => nomatch e
theorem SomeSndInv.some {α : Type} {a : α} (h : Inv t) : SomeSndInv (some (a, t)) := fun _ _ e => by cases e; exact h
theorem SomeSndInv.none {α : Type} : SomeSndInv (none : Option (α × State)) := fun _ _ e => nomatch e
theorem OkInv.ok {ε : Type} (h : Inv t) : OkInv (.ok t : Except ε State) := fun _ e => by cases e; exact h
theorem OkInv.error {ε : Type} {c : ε} : OkInv (.error c) := fun _ e => nomatch e
theorem OkSndInv.ok {ε α : Type} {a : α} (h : Inv t) : OkSndInv (.ok (a, t) : Except ε _) := fun _ _ e => by
  cases e
  exact h
theorem OkSndInv.error {ε α : Type} {c : ε} : OkSndInv (.error c : Except ε (α × State)) := fun _ _ e => nomatch e

/-! ### Choices, options, pairs and folds -/

theorem Inv.ite {p : Prop} [Decidable p] (hs : Inv s) (ht : Inv t) : Inv (if p then s else t) := by
  split
  · exact hs
  · exact ht

theorem NextInv.ite {p : Prop} [Decidable p] {o q : Out} (ho : NextInv o) (hq : NextInv q) :
    NextInv (if p then o else q) := by
  split
  · exact ho
  · exact hq

theorem Inv.getD {o : Option State} (h : SomeInv o) (ht : Inv t) : Inv (o.getD t) := by
  cases o with
  | none => exact ht
  | some u => exact h u rfl

theorem SomeInv.map {α : Type} {f : α → State} {o : Option α} (h : ∀ a, o = Option.some a → Inv (f a)) :
    SomeInv (o.map f) := by
  intro t e
  obtain ⟨a, ha, rfl⟩ := Option.map_eq_some_iff.1 e
  exact h a ha

theorem SomeInv.bind {α : Type} {o : Option α} {f : α → Option State} (h : ∀ a, o = Option.some a → SomeInv (f a)) :
    SomeInv (o >>= f) := by
  intro t e
  obtain ⟨a, ha, hf⟩ := Option.bind_eq_some_iff.1 e
  exact h a ha t hf

/-- A state that a match has found. -/
theorem Inv.of_some {o : Option State} (e : o = some t) (h : SomeInv o) : Inv t := h t e

/-- The first part of a pair that a match has taken apart. -/
theorem Inv.of_fst {α : Type} {p : State × α} {a : α} (e : p = (t, a)) (h : Inv p.1) : Inv t := by
  subst e
  exact h

/-- The second part of a pair that a match has taken apart. -/
theorem Inv.of_snd {α : Type} {p : α × State} {a : α} (e : p = (a, t)) (h : Inv p.2) : Inv t := by
  subst e
  exact h

theorem Inv.foldl {α : Type} {f : State → α → State} {l : List α} (h : Inv s) (hf : ∀ t a, Inv t → Inv (f t a)) :
    Inv (l.foldl f s) := foldl_wf hf l s h

/-- A fold that carries a value beside the state. -/
theorem Inv.foldl_fst {α β : Type} {f : State × β → α → State × β} {l : List α} {p : State × β} (h : Inv p.1)
    (hf : ∀ p a, Inv p.1 → Inv (f p a).1) : Inv (l.foldl f p).1 := by
  induction l generalizing p with
  | nil => exact h
  | cons a l ih => exact ih (hf p a h)

/-- A fold that carries the state beside a value. -/
theorem Inv.foldl_snd {α β : Type} {f : β × State → α → β × State} {l : List α} {p : β × State} (h : Inv p.2)
    (hf : ∀ p a, Inv p.2 → Inv (f p a).2) : Inv (l.foldl f p).2 := by
  induction l generalizing p with
  | nil => exact h
  | cons a l ih => exact ih (hf p a h)

/-! ### The operations that write memory -/

theorem Inv.writeN {key bytes} (h : Inv s) : Inv { s with mem := Memory.writeN s.mem key bytes } := Memory.wf_writeN h
theorem Inv.takeKey {slot key n} (h : Inv s) : Inv (s.takeKey slot key n) := State.takeKey_wf h
theorem Inv.writeMem {key bytes slot} (h : Inv s) : Inv (s.writeMem key bytes slot) := State.writeMem_wf h
theorem Inv.zeroLine {line} (h : Inv s) : Inv (s.zeroLine line) := State.zeroLine_wf h
theorem Inv.setPte {key e} (h : Inv s) : Inv (s.setPte key e) := State.setPte_wf h

/-! ### Operations that leave the memory field alone -/

theorem Inv.modDev {d f} (h : Inv s) : Inv (s.modDev d f) := h
theorem Inv.modDie {d f} (h : Inv s) : Inv (s.modDie d f) := h
theorem Inv.modCore {k f} (h : Inv s) : Inv (s.modCore k f) := h
theorem Inv.setCourse {c x} (h : Inv s) : Inv (s.setCourse c x) := h
theorem Inv.modCourse {c f} (h : Inv s) : Inv (s.modCourse c f) := h
theorem Inv.modStrand {c st f} (h : Inv s) : Inv (s.modStrand c st f) := h
theorem Inv.modCtx {k f} (h : Inv s) : Inv (s.modCtx k f) := h
theorem Inv.modTeam {t f} (h : Inv s) : Inv (s.modTeam t f) := h
theorem Inv.count {ctx off n} (h : Inv s) : Inv (s.count ctx off n) := h
theorem Inv.fresh (h : Inv s) : Inv s.fresh.2 := h
theorem Inv.fill {die rdc line cls} (h : Inv s) : Inv (s.fill die rdc line cls) := h
theorem Inv.clearShadow {key n} (h : Inv s) : Inv (s.clearShadow key n) := h
theorem Inv.clearFrame {key n} (h : Inv s) : Inv (s.clearFrame key n) := h
theorem Inv.dropWindow {ctx} (h : Inv s) : Inv (s.dropWindow ctx) := h
theorem Inv.mlogDrop {dev} (h : Inv s) : Inv (s.mlogDrop dev) := h
theorem Inv.returnFromStop {c} (h : Inv s) : Inv (returnFromStop c s) := h
theorem Inv.unstall {on} (h : Inv s) : Inv (s.unstall on) := h
theorem Inv.modPort {p f} (h : Inv s) : Inv (s.modPort p f) := h
theorem Inv.modLink {port link f} (h : Inv s) : Inv (s.modLink port link f) := h
theorem Inv.modPeer {dev pod f} (h : Inv s) : Inv (modPeer dev pod f s) := h
theorem Inv.putLink {port f} (h : Inv s) : Inv (putLink port f s) := h
theorem Inv.fillRdc {die dev ia key cls nc} (h : Inv s) : Inv (fillRdc die dev ia key cls nc s) := h
theorem Inv.fillHome {dev ia key cls} (h : Inv s) : Inv (fillHome dev ia key cls s) := h
theorem Inv.loadPlan {dev} (h : Inv s) : Inv (loadPlan s dev) := h
theorem Inv.cacheLeaf {r e key pa expiry} (h : Inv s) : Inv (s.cacheLeaf r e key pa expiry) := h
theorem Inv.release {c} (h : Inv s) : Inv (s.release c) := h
theorem Inv.countEnd {lid wasReady} (h : Inv s) : Inv (countEnd lid wasReady s) := h
theorem Inv.waitAs {x wt ready} (h : Inv s) : Inv (s.waitAs x wt ready) := h
theorem Inv.modAccess {id f} (h : Inv s) : Inv (s.modAccess id f) := h
theorem Inv.setLane {id l x} (h : Inv s) : Inv (s.setLane id l x) := h
theorem Inv.dropL1 {core dev ia} (h : Inv s) : Inv (dropL1 core dev ia s) := h
theorem Inv.dropAllL1 {dev ia} (h : Inv s) : Inv (dropAllL1 dev ia s) := h
theorem Inv.holdYounger {id c} (h : Inv s) : Inv (holdYounger id c s) := h
theorem Inv.deliverAccess {id a} (h : Inv s) : Inv (deliverAccess id a s) := h
theorem Inv.wakeResult {id c} (h : Inv s) : Inv (wakeResult id c s) := h
theorem Inv.modMig {f g} (h : Inv s) : Inv (s.modMig f g) := h
theorem Inv.dropHint {ctx} (h : Inv s) : Inv (dropHint ctx s) := h
theorem Inv.moveShadow {k k2 n} (h : Inv s) : Inv (moveShadow k k2 n s) := h
theorem Inv.keepSource {d} (h : Inv s) : Inv (keepSource d s) := h
theorem Inv.moveLogs {k k2 n} (h : Inv s) : Inv (moveLogs k k2 n s) := h
theorem Inv.flushLine {die line home} (h : Inv s) : Inv (s.flushLine die line home) := h
theorem Inv.modChan {core ch f} (h : Inv s) : Inv (s.modChan core ch f) := h
theorem Inv.queueItem {core ch i} (h : Inv s) : Inv (queueItem core ch i s) := h
theorem Inv.addPending {c records} (h : Inv s) : Inv (s.addPending c records) := h
theorem Inv.setCb {tid i b} (h : Inv s) : Inv (setCb tid i b s) := h
theorem Inv.modStream {tid i f} (h : Inv s) : Inv (s.modStream tid i f) := h
theorem Inv.poisonLines {key n} (h : Inv s) : Inv (s.poisonLines key n) := h
theorem Inv.putClaimed {core ch r} (h : Inv s) : Inv (putClaimed core ch r s) := h
theorem Inv.setHead {core ch i} (h : Inv s) : Inv (setHead core ch i s) := h
theorem Inv.journal {die kind core index payload} (h : Inv s) : Inv (journal die kind core index payload s) := h
theorem Inv.setSlot {c r st} (h : Inv s) : Inv (setSlot c r st s) := h
theorem Inv.pushMat {core o} (h : Inv s) : Inv (pushMat core o s) := h
theorem Inv.setMat {core o} (h : Inv s) : Inv (setMat core o s) := h
theorem Inv.dropRstv {id} (h : Inv s) : Inv (dropRstv id s) := h
theorem Inv.tableReply {core ch q code vals} (h : Inv s) : Inv (tableReply core ch q code vals s) := h
theorem Inv.swatchReply {core va did q code vals} (h : Inv s) : Inv (swatchReply core va did q code vals s) := h
theorem Inv.nameReply {id lanes code vals} (h : Inv s) : Inv (nameReply id lanes code vals s) := h
theorem Inv.cachePod {q r} (h : Inv s) : Inv (cachePod q r s) := h
theorem Inv.dropPod {dev pod} (h : Inv s) : Inv (dropPod dev pod s) := h
theorem Inv.failColls {dev pod} (h : Inv s) : Inv (failColls dev pod s) := h
theorem Inv.newSequences {dev pod} (h : Inv s) : Inv (newSequences dev pod s) := h
theorem Inv.dropOld {dev peer p} (h : Inv s) : Inv (dropOld dev peer p s) := h
theorem Inv.shootAt {dev owner ia sz} (h : Inv s) : Inv (shootAt dev owner ia sz s) := h
theorem Inv.ackFrom {o pod} (h : Inv s) : Inv (ackFrom o pod s) := h
theorem Inv.pushSw {core o} (h : Inv s) : Inv (pushSw core o s) := h
theorem Inv.setSw {core o} (h : Inv s) : Inv (setSw core o s) := h
theorem Inv.takePart {g num rank scales b} (h : Inv s) : Inv (takePart g num rank scales b s) := h
theorem Inv.endPart {g rank local_ t} (h : Inv s) : Inv (endPart g rank local_ t s) := h
theorem Inv.renumber {c d} (h : Inv s) : Inv (renumber c d s) := h
theorem Inv.rehome {name c} (h : Inv s) : Inv (rehome name c s) := h
theorem Inv.freshL1 {c v} (h : Inv s) : Inv (freshL1 c v s) := h
theorem Inv.noteHandles {dev lid hs} (h : Inv s) : Inv (noteHandles dev lid hs s) := h
theorem Inv.grantWrite {i b off n} (h : Inv s) : Inv (grantWrite i b off n s) := h
theorem Inv.groupWrite {i n} (h : Inv s) : Inv (groupWrite i n s) := h
theorem Inv.designate {on} (h : Inv s) : Inv (designate on s) := h
theorem Inv.railWrite {core v} (h : Inv s) : Inv (railWrite core v s) := h
theorem Inv.linkReceived {port f} (h : Inv s) : Inv (linkReceived port f s) := h
theorem Inv.tick (h : Inv s) : Inv (tick s) := h

/-! ### Records, traps and results -/

theorem Inv.markLeaf {dev ia write} (h : Inv s) : Inv (s.markLeaf dev ia write) := by
  unfold State.markLeaf
  split
  · exact .ite h h.setPte
  · exact h

theorem Inv.markVa {ctx write l} (h : Inv s) : Inv (s.markVa ctx write l) := by
  unfold State.markVa
  refine .foldl h fun t a ht => ?_
  split
  · exact ht.markLeaf
  · exact ht

theorem Inv.putChunks {l bytes} (h : Inv s) : Inv (s.putChunks l bytes) := by
  unfold State.putChunks
  refine .foldl_fst ?_ fun p a ht => ?_
  · exact h
  · exact ht.writeMem.clearShadow

theorem Inv.devWriteAs {perm ctx va bytes} (h : Inv s) : OkInv (devWriteAs perm s ctx va bytes) := by
  unfold Machine.devWriteAs
  dsimp only
  repeat' split
  exacts [.error, .error, .ok h.markVa.putChunks]

theorem Inv.devWriteVa {ctx va bytes} (h : Inv s) : OkInv (devWriteVa s ctx va bytes) := h.devWriteAs

theorem Inv.iaWrite {dev ia bytes} (h : Inv s) : SomeInv (iaWrite s dev ia bytes) := by
  unfold Machine.iaWrite
  dsimp only
  repeat' split
  exacts [.none, .none, .some (h.foldl fun _ _ ht => ht.markLeaf).putChunks]

theorem Inv.mlogBytes {dev mk} (h : Inv s) : Inv (s.mlogBytes dev mk) := by
  unfold State.mlogBytes
  extract_lets d base b s1 lost
  have h1 : Inv s1 := h
  have hl : Inv lost := h
  split
  · exact hl
  · extract_lets cap head tail drp
    split
    · exact .getD (.map fun t e => (h1.iaWrite _ e).mlogDrop) hl
    · split
      · exact hl
      · next e1 => exact .getD (.map fun t e => ((h1.iaWrite _ e1).iaWrite _ e).modDev) hl

theorem Inv.postMlog {dev r} (h : Inv s) : Inv (s.postMlog dev r) := by
  unfold State.postMlog
  exact .mlogBytes h

theorem Inv.sinkFault {dev kind asid addr queue seq} (h : Inv s) :
    Inv (s.sinkFault dev kind asid addr queue seq) := by
  unfold State.sinkFault
  exact .mlogBytes h

theorem Inv.errWrite {ctx r} (h : Inv s) : ErrInv (s.errWrite ctx r) := by
  unfold State.errWrite
  dsimp only
  split
  · trivial
  · split
    · split
      · exact (h.devWriteVa _ ‹_›).modCtx
      · trivial
    · split
      · trivial
      · split
        · trivial
        · exact ((h.devWriteVa _ ‹_›).devWriteVa _ ‹_›).modCtx

theorem Inv.postTo {ctx r} (h : Inv s) : Inv (s.postTo ctx r).1 := by
  unfold State.postTo
  extract_lets cx toLog
  have hl : ∀ {t}, Inv t → Inv (toLog t) := fun ht => ht.mlogBytes
  split
  · exact hl h
  · have he := h.errWrite (ctx := ctx) (r := r)
    split <;> rename_i e <;> rw [e] at he
    · exact he
    · exact he
    · exact (hl h.modCtx).sinkFault

theorem Inv.postCount {ctx code} (h : Inv s) : Inv (s.postCount ctx code) := by
  unfold State.postCount
  split
  · exact h.count
  · exact h

theorem Inv.postIrq {ctx stop} (h : Inv s) : Inv (s.postIrq ctx stop) := .ite h.modDev h

theorem Inv.post {ctx r0} (h : Inv s) : Inv (s.post ctx r0) := .postIrq (.modCtx (.postCount (.postTo h)))

theorem Inv.unbindMats {c tid l} (h : Inv s) : Inv (unbindMats c tid l s) := by
  unfold Machine.unbindMats
  split
  · exact h
  · exact h.modTeam.modCourse

theorem Inv.abandonMats {c} (h : Inv s) : Inv (abandonMats c s) := .ite h h.modCore.unbindMats.modCourse

theorem Inv.stopCourse {c} (h : Inv s) : Inv (s.stopCourse c) := h.modCourse.abandonMats

theorem Inv.postTrap {c st t} (h : Inv s) : Inv (postTrap c st t s) := h.post

theorem Inv.takeTrap {c st t} (h : Inv s) : Inv (takeTrap c st t s) :=
  .stopCourse (.ite h.postTrap.modCourse h.postTrap)

theorem Inv.issueWord {v e} (h : Inv s) (he : ∀ x t, Inv t → Inv (e x t)) : NextInv (issueWord v e s) := by
  unfold Machine.issueWord
  repeat' split
  exacts [.fault, .next (he _ _ h), .next h, .next h.takeTrap]

theorem Inv.writeNamed {x act d words signed val} (h : Inv s) : Inv (writeNamed x act d words signed val s) := by
  unfold Machine.writeNamed
  repeat' split
  exacts [h.modCourse, h, h.modStrand, h]

theorem Inv.produce {x act d words signed val} (h : Inv s) : Inv (produce x act d words signed val s) :=
  h.modStrand.writeNamed

theorem Inv.produceLater {x act d words id} (h : Inv s) : Inv (produceLater x act d words id s) :=
  .ite h.modStrand (.ite h.modStrand.modCourse (.ite h.modStrand.modStrand h.modStrand))

theorem Inv.acquire {c scope} (h : Inv s) : Inv (s.acquire c scope) := .ite h.modCore h

/-! ### Block tables -/

theorem Inv.tabWrite {ctx va n v} (h : Inv s) : Inv (tabWrite ctx va n v s) := by
  unfold Machine.tabWrite
  split
  · exact h.devWriteVa _ ‹_›
  · exact h

theorem Inv.pushFree {ctx t top idx} (h : Inv s) : Inv (pushFree ctx t top idx s) := h.tabWrite.tabWrite

theorem Inv.btRef {ctx ref delta} (h : Inv s) : OkSndInv (btRef ctx ref delta s) := by
  unfold Machine.btRef
  dsimp only
  repeat' split
  exacts [.error, .ok h, .error, .ok h.tabWrite, .error, .ok h, .error, .ok h.tabWrite.tabWrite.pushFree]

theorem Inv.btAlloc {ctx ref} (h : Inv s) : OkSndInv (btAlloc ctx ref s) := by
  unfold Machine.btAlloc
  dsimp only
  repeat' split
  exacts [.error, .ok h, .error, .ok h, .error, .error, .error, .ok h.tabWrite.tabWrite.tabWrite.tabWrite.tabWrite]

theorem Inv.btFree {ctx ref idx} (h : Inv s) : OkSndInv (btFree ctx ref idx s) := by
  unfold Machine.btFree
  dsimp only
  repeat' split
  exacts [.ok h, .error, .ok h, .error, .ok h.pushFree]

theorem Inv.startCow {core ctx ref d} (h : Inv s) : OkInv (startCow core ctx ref d s) := by
  unfold Machine.startCow
  dsimp only
  split
  · exact .error
  · exact .error
  · split
    · exact .error
    · split
      · exact .error
      · split
        · exact .error
        · exact .ok h.tabWrite.fresh

theorem Inv.copyIa {dev l} (h : Inv s) : Inv (copyIa dev s l) := by
  induction l generalizing s with
  | nil => exact h
  | cons e l ih =>
    unfold Machine.copyIa
    split
    · exact ih h.writeMem
    · exact ih h

theorem Inv.finishCow {w} (h : Inv s) : Inv (finishCow w s) := by
  unfold Machine.finishCow
  dsimp only
  split
  · exact h.copyIa.tabWrite.tabWrite.tabWrite.tabWrite.tabWrite.tabWrite
  · exact h

theorem Inv.execCowCopyComplete {id} (h : Inv s) : NextInv (execCowCopyComplete id s) := by
  unfold Machine.execCowCopyComplete
  dsimp only
  repeat' split
  exacts [.next h, .next h, .next (.unstall (.unstall h.finishCow))]

/-! ### Sending over the links -/

theorem Inv.sendOne {dev dst body} (h : Inv s) : Inv (sendOne dev dst body s) := .ite h.modDev h.modPort.putLink

theorem Inv.sendFlit {dev dst body} (h : Inv s) : Inv (sendFlit dev dst body s) :=
  .ite h.sendOne h.modPeer.sendOne.sendOne

theorem Inv.flushEgress {dev} (h : Inv s) : Inv (flushEgress dev s) := h.modDev.foldl fun _ _ ht => ht.sendOne

theorem Inv.sendOut {q} (h : Inv s) : Inv (sendOut q s) := .ite h (.ite h.sendFlit (.ite h h.sendFlit))

theorem Inv.addRequest {q} (h : Inv s) : Inv (addRequest q s) := .sendOut h.fresh

/-! ### Operands -/

theorem Inv.postLatent {x code m} (h : Inv s) : Inv (postLatent x code m s) := h.post

theorem Inv.noteWord {x r i m} (h : Inv s) : Inv (noteWord x r i m s) :=
  .ite h.modStrand (.ite h.modStrand h.modCourse)

theorem Inv.noteLatentWord {x act r i} (h : Inv s) : Inv (noteLatentWord x act r s i) :=
  .ite h h.postLatent.noteWord

theorem Inv.noteLatentOne {x act r} (h : Inv s) : Inv (noteLatentOne x act s r) :=
  h.foldl fun _ _ ht => ht.noteLatentWord

theorem Inv.noteLatentPred {x act n} (h : Inv s) : Inv (noteLatentPred x act s n) := .ite h h.postLatent.modCourse

theorem Inv.acquireFilled {x act refs} (h : Inv s) : Inv (acquireFilled x act refs s) := .ite h h.acquire.modCourse

theorem Inv.noteLatent {x act refs} (h : Inv s) : Inv (noteLatent x act refs s) :=
  (h.foldl fun _ _ ht => ht.noteLatentOne).acquireFilled

theorem Inv.noteReads {x act refs preds} (h : Inv s) : Inv (noteReads x act refs preds s) :=
  h.noteLatent.foldl fun _ _ ht => ht.noteLatentPred

/-! ### Translation -/

theorem Inv.walkerFills {dev ia} (h : Inv s) : Inv (walkerFills dev ia s) := h.foldl fun _ _ ht => ht.fill

theorem Inv.reach {r e key} (h : Inv s) : Inv (reach r e key s) := h.takeKey.fillHome

theorem Inv.walkXlate {r} (h : Inv s) : Inv (walkXlate r s).1 := by
  unfold Machine.walkXlate
  split
  · exact h
  · split
    · exact h
    · exact .reach (.cacheLeaf (.ite h.walkerFills h.walkerFills.setPte))

theorem Inv.homeXlate {r} (h : Inv s) : Inv (homeXlate r s).1 := by
  unfold Machine.homeXlate
  dsimp only
  repeat' split
  exacts [h.walkXlate, h.walkXlate, h, h.setPte.cacheLeaf.reach, h.walkXlate, h.reach]

theorem Inv.fetchWord {cx pc} (h : Inv s) : Inv (fetchWord cx pc s).1 := by
  unfold Machine.fetchWord
  dsimp only
  repeat' split
  exacts [h, h, .of_fst ‹_› h.homeXlate, .of_fst ‹_› h.homeXlate, .of_fst ‹_› h.homeXlate]

theorem Inv.trapWord {t} (h : Inv s) : NextInv (trapWord t s) := h.issueWord fun _ _ ht => ht

/-! ### Strands and the end of a word -/

theorem Inv.setBar {c b x} (h : Inv s) : Inv (setBar s c b x) := by
  unfold Machine.setBar
  repeat' split
  exacts [h, h.modCore, h, h, h]

theorem Inv.arriveBarrier {c b} (h : Inv s) : Inv (arriveBarrier s c b) := by
  unfold Machine.arriveBarrier
  dsimp only
  split
  · exact h.release
  · exact h.release.modCourse.setBar

theorem Inv.mergeAt {c st} (h : Inv s) : Inv (mergeAt c st s) := .ite h (.ite h.takeTrap h.modCourse)

theorem Inv.arriveAt {c st} (h : Inv s) : Inv (arriveAt c st s) :=
  .ite h.modStrand.mergeAt.modStrand h.modStrand.mergeAt

theorem Inv.moveTo {c st pc} (h : Inv s) : Inv (moveTo c st pc s) := h.modStrand.arriveAt

theorem Inv.arriveLive {c st} (h : Inv s) : Inv (arriveLive c st s) := .ite h.arriveAt h

theorem Inv.barCheck {c} (h : Inv s) : Inv (barCheck c s) := by
  unfold Machine.barCheck
  dsimp only
  repeat' split
  exacts [h, h, (h.foldl fun _ _ ht => ht.modStrand).takeTrap,
    h.arriveBarrier.modCourse.foldl fun _ _ ht => .ite ht ht.arriveLive]

theorem Inv.joinCheck {c} (h : Inv s) : Inv (joinCheck c s) := by
  unfold Machine.joinCheck
  dsimp only
  repeat' split
  exacts [h.modStrand.moveTo, h, h]

theorem Inv.tidy {c} (h : Inv s) : Inv (tidy c s) := h.barCheck.joinCheck

theorem Inv.diverge {x gs join} (h : Inv s) : Inv (diverge x gs join s) := by
  unfold Machine.diverge
  split
  · exact h
  · exact h.modCourse.modStrand.foldl fun _ _ ht => ht.arriveLive

theorem Inv.issued {x} (h : Inv s) : Inv (issued x s) := by
  obtain ⟨_, _, _, e⟩ := issued_rest x s
  rw [e]
  exact h

theorem Inv.advance {x} (h : Inv s) : Inv (advance x s) := by
  unfold Machine.advance
  split
  · exact h.moveTo
  · exact .ite h.modStrand h.modStrand.moveTo

theorem Inv.finish {x} (h : Inv s) : Inv (finish x s) := h.issued.advance.tidy

theorem Keeps.firstMeaning {pn pred first v f} (hf : ∀ x m t, Inv t → Inv (f x m t)) :
    Keeps (firstMeaning pn pred first v f) := fun _ _ ht => (hf _ _ _ ht).finish

theorem Keeps.plainMeaning {pn pred v f} (hf : ∀ x m t, Inv t → Inv (f x m t)) : Keeps (plainMeaning pn pred v f) :=
  fun _ _ ht => (hf _ _ _ ht).finish

theorem Keeps.movingMeaning {pn pred first v f} (hf : ∀ x m t, Inv t → Inv (f x m t)) :
    Keeps (movingMeaning pn pred first v f) := fun _ _ ht => (hf _ _ _ ht.issued).tidy

theorem Keeps.sourcedMeaning {pn pred pre refs v f} (hf : ∀ x m t, Inv t → Inv (f x m t)) :
    Keeps (sourcedMeaning pn pred pre refs v f) := .firstMeaning fun _ _ _ ht => hf _ _ _ ht.noteLatent

theorem Inv.stopAfter {x t} (h : Inv s) : Inv (stopAfter x t s) := h.postTrap.moveTo.stopCourse

theorem Inv.runWord {m : Meaning} (h : Inv s) (hm : Keeps m) : NextInv (runWord m s) := h.issueWord hm

theorem Inv.plainWord {pn pred v f} (h : Inv s) (hf : ∀ x m t, Inv t → Inv (f x m t)) :
    NextInv (plainWord pn pred v f s) :=
  h.runWord (.plainMeaning fun _ _ _ ht => hf _ _ _ ht)

theorem Inv.endBarriers {c} (h : Inv s) : Inv (endBarriers s c) := by
  unfold Machine.endBarriers
  dsimp only
  split
  · exact h
  · exact h.foldl fun _ _ ht => ht.setBar

theorem Inv.endTeam {tid} (h : Inv s) : Inv (endTeam s tid) := by
  unfold Machine.endTeam
  split
  · exact h
  · extract_lets s1 s2
    have h1 : Inv s1 := by
      unfold s1
      split <;> exact h
    have h2 : Inv s2 := h1
    repeat' split
    all_goals exact h2

theorem Inv.reapTeam {tid} (h : Inv s) : Inv (reapTeam tid s) := by
  unfold Machine.reapTeam
  split
  · exact .ite h.endTeam h
  · exact h

theorem Inv.recordEnd {c lid wasReady} (h : Inv s) : Inv (recordEnd c lid wasReady s) := .ite h.countEnd h.modDie

theorem Inv.engineEnd {core lid} (h : Inv s) : Inv (engineEnd core lid s) := .ite h h.modDie

theorem Inv.endCourse {c} (h : Inv s) : Inv (endCourse c s) := .reapTeam (.modTeam h.endBarriers.recordEnd)

/-! ### Waits and barriers -/

theorem Inv.syncWord {w pre refs v f} (h : Inv s) (hf : ∀ x n t, Inv t → Inv (f x n t)) :
    NextInv (syncWord w pre refs v f s) := h.runWord (.sourcedMeaning fun _ _ _ ht => .ite ht (hf _ _ _ ht))

theorem Inv.execPrio {w} (h : Inv s) : NextInv (execPrio w s) := h.syncWord fun _ _ _ ht => ht.modCourse

theorem Inv.finishWaiting {x wt ready} (h : Inv s) : Inv (finishWaiting x wt ready s) :=
  h.issued.waitAs.advance.tidy

theorem Inv.execSleep {w} (h : Inv s) : NextInv (execSleep w s) := by
  unfold Machine.execSleep
  exact h.runWord fun _ _ ht => .ite ht.noteLatent.finish ht.noteLatent.finishWaiting

theorem Inv.execSleepExpire {c st} (h : Inv s) : NextInv (execSleepExpire c st s) := by
  unfold Machine.execSleepExpire
  repeat' split
  exacts [.next h.modStrand, .next h, .next h]

theorem Inv.execYieldTimeout {c st} (h : Inv s) : NextInv (execYieldTimeout c st s) := by
  unfold Machine.execYieldTimeout
  repeat' split
  exacts [.next h.modStrand, .next h, .next h]

theorem Inv.execAgeLevelUp {c st} (h : Inv s) : NextInv (execAgeLevelUp c st s) := by
  unfold Machine.execAgeLevelUp
  split
  · exact .next h.modStrand
  · exact .next h

theorem Inv.markAt {w isBar x} (h : Inv s) : Inv (markAt w isBar x s) := h.issued.modStrand.tidy

theorem Inv.execBar {w} (h : Inv s) : NextInv (execBar w s) := by
  unfold Machine.execBar
  refine h.runWord fun x t ht => ?_
  dsimp only
  split
  · exact ht.finish
  · split
    · exact ht.acquire.modStrand.finish
    · exact ht.markAt

theorem Inv.execBarinit {w} (h : Inv s) : NextInv (execBarinit w s) := h.syncWord fun _ _ _ ht => ht.setBar

theorem Inv.emptyEffect {w x act} (h : Inv s) : Inv (emptyEffect w x act s) :=
  .ite h (.ite h.modStrand h.modCourse)

/-! ### Global accesses -/

theorem Inv.fillL1 {core dev ia key chk nc} (h : Inv s) : Inv (fillL1 core dev ia key chk nc s) := .ite h h.modCore

theorem Inv.storeL1 {core dev ia bytes} (h : Inv s) : Inv (storeL1 core dev ia bytes s) := by
  unfold Machine.storeL1
  dsimp only
  split
  · exact h
  · exact h.modCore

theorem Inv.remoteWriteFail {c name pc ctx code ia pod} (h : Inv s) :
    Inv (remoteWriteFail c name pc ctx code ia pod s) := by
  unfold Machine.remoteWriteFail
  exact .ite h.post.modCourse h.post

theorem Inv.failRemote {id lanes code info} (h : Inv s) : Inv (failRemote id lanes code info s) := by
  unfold Machine.failRemote
  split
  · exact h
  · extract_lets plainWrite s1
    have h1 : Inv s1 := by
      refine .foldl h fun t l ht => ?_
      split
      · exact ht
      · exact ht.setLane
    repeat' split
    exacts [h1.remoteWriteFail, h1, h1]

theorem Inv.sendRemote {id a gs} (h : Inv s) : Inv (sendRemote id a s gs) := by
  unfold Machine.sendRemote
  dsimp only
  split
  · split
    · exact h.failRemote
    · refine .foldl h.addRequest fun t a1 ht => ?_
      split
      · exact ht
      · exact ht.setLane
  · exact h

theorem Inv.sendLanes {id a} (h : Inv s) : Inv (sendLanes id a s) := h.foldl fun _ _ ht => ht.sendRemote

theorem Inv.fillCopies {a x key} (h : Inv s) : Inv (fillCopies a x key s) := .ite h.fillRdc h.fillRdc.fillL1

theorem Inv.fillRdcPod {die pod ia chk cls} (h : Inv s) : Inv (fillRdcPod die pod ia chk cls s) := by
  unfold Machine.fillRdcPod
  split
  · exact h.fill
  · exact h

theorem Inv.afterWalk {id l a x key} (h : Inv s) : Inv (afterWalk id l a x key s) := by
  unfold Machine.afterWalk
  split
  · exact .ite h.setLane h.setLane.fillCopies
  · exact h.setLane

theorem Inv.walkAt {id l a x pick} (h : Inv s) : Inv (walkAt id l a x pick s) := by
  unfold Machine.walkAt
  dsimp only
  repeat' split
  exacts [h.setLane, .setLane (.of_fst ‹_› h.homeXlate), .afterWalk (.of_fst ‹_› h.homeXlate)]

theorem Inv.walkFree {id l a x pick} (h : Inv s) : Inv (walkFree id l a x pick s) := by
  unfold Machine.walkFree
  split
  · exact h.setLane
  · exact h.walkAt

theorem Inv.lookMarks {ctx d} (h : Inv s) : Inv (lookMarks ctx d s) := h.markVa

theorem Inv.walkBlock {id l a x pick} (h : Inv s) : Inv (walkBlock id l a x pick s) := by
  unfold Machine.walkBlock
  split
  · exact h.setLane
  · split
    · exact h.lookMarks.setLane
    · exact .ite h.lookMarks.setLane (.ite h.lookMarks.setLane h.lookMarks.walkFree)

theorem Inv.walkLane {id a pick e} (h : Inv s) : Inv (walkLane id a pick s e) := by
  unfold Machine.walkLane
  dsimp only
  repeat' split
  exacts [h, h.walkBlock, h.setLane, h.walkFree]

theorem Inv.takeFaults {id a} (h : Inv s) : Inv (takeFaults id a s) := by
  unfold Machine.takeFaults
  dsimp only
  repeat' split
  exacts [h, h.modCourse.modAccess.holdYounger.post.stopCourse, h]

theorem Inv.settle {id} (h : Inv s) : Inv (settle id s) := by
  unfold Machine.settle
  split
  · exact h
  · split
    · exact h
    · extract_lets s1 s2
      have h1 : Inv s1 := .ite h h.takeFaults
      have h2 : Inv s2 := .ite h1.acquire h1
      exact .tidy (.ite h2 h2)

theorem Inv.forwardAccess {id a} (h : Inv s) : Inv (forwardAccess id a s) := .ite h.modAccess h

theorem Inv.execPageWalk {id pick} (h : Inv s) : NextInv (execPageWalk id pick s) := by
  unfold Machine.execPageWalk
  repeat' split
  exacts [.next h, .next h, .next (h.forwardAccess.foldl fun _ _ ht => ht.walkLane).sendLanes.settle]

theorem Inv.judgeBlock {id l a x} (h : Inv s) : SomeInv (judgeBlock id l a x s) := by
  unfold Machine.judgeBlock
  dsimp only
  repeat' split
  exacts [.some h.setLane, .some h.setLane, .some h.setLane, .some h.setLane, .some h.setLane,
    .some (h.startCow _ ‹_›).setLane, .none]

theorem Inv.freshFrame {dev old new} (h : Inv s) : Inv (freshFrame dev old new s) := .ite h h.clearFrame

theorem Inv.performPtew {id l a cas gen x key} (h : Inv s) : Inv (performPtew id l a cas gen x key s) := by
  unfold Machine.performPtew
  dsimp only
  refine .setLane ?_
  split
  · exact .modCtx (.ite h.writeMem.clearShadow.freshFrame h)
  · exact .ite h.writeMem.clearShadow.freshFrame h

theorem Inv.performAtomic {id l a aop size x key} (h : Inv s) : Inv (performAtomic id l a aop size x key s) :=
  .ite h.dropL1.setLane (.setLane (.clearShadow (.ite h.dropL1 h.dropL1.writeMem)))

theorem Inv.dropLine {dev ia key} (h : Inv s) : Inv (dropLine dev ia key s) := h.zeroLine.dropAllL1

theorem Inv.tableLane {a x} (h : Inv s) : OkSndInv (tableLane a x s) := by
  unfold Machine.tableLane
  repeat' split
  exacts [h.btRef, h.btAlloc, h.btFree]

theorem Inv.performTable {id l a x} (h : Inv s) : Inv (performTable id l a x s) := by
  unfold Machine.performTable
  split
  · exact h.setLane
  · exact (h.tableLane _ _ ‹_›).setLane

theorem Inv.storeBlockL1 {a x} (h : Inv s) : Inv (storeBlockL1 a x s) := .ite h.storeL1 h

theorem Inv.performLane {id l a x key} (h : Inv s) : Inv (performLane id l a x key s) := by
  unfold Machine.performLane
  repeat' split
  exacts [h.writeMem.storeBlockL1.setLane, h.performAtomic, h.dropLine.setLane, h.performPtew, h.setLane, h.setLane, h, h, h,
    h]

theorem Inv.writeLane {id a e} (h : Inv s) : Inv (writeLane id a s e) := by
  unfold Machine.writeLane
  split
  · split
    · exact h
    · split
      · exact h.setLane
      · exact h.performTable
  · split
    · split
      · exact h
      · split
        · refine .of_some ‹_› ?_
          split
          · exact h.judgeBlock
          · exact .none
        · exact h.performLane
    · exact h

theorem Inv.execHomeWritePerformed {id} (h : Inv s) : NextInv (execHomeWritePerformed id s) := by
  unfold Machine.execHomeWritePerformed
  split
  · exact .next h
  · split
    · exact .next h
    · dsimp only
      refine .next (.settle ?_)
      split
      · exact (h.foldl fun t a ht => ht.writeLane).foldl fun t a ht => ht.dropLine
      · exact h.foldl fun _ _ ht => ht.writeLane

theorem Inv.recordAccess {c line isLoad} (h : Inv s) : Inv (recordAccess c line isLoad s) := .ite (.modCourse h) h

theorem Inv.checkLane {id a e} (h : Inv s) : Inv (checkLane id a s e) := by
  unfold Machine.checkLane
  split
  · split
    · exact h
    · dsimp only
      split
      · exact h.setLane
      · exact h.recordAccess.performLane
  · exact h

theorem Inv.checkLast {id a l seen} (h : Inv s) : Inv (checkLast id a s l seen) := by
  induction l generalizing seen s with
  | nil => exact h
  | cons e l ih =>
    unfold Machine.checkLast
    dsimp only
    repeat' split
    exacts [ih h, ih (h.foldl fun _ _ ht => ht.setLane), ih h.recordAccess.dropLine,
      ih h, ih (h.foldl fun _ _ ht => ht.setLane), ih h.recordAccess.dropLine, ih h]

theorem Inv.execCheckAccess {id} (h : Inv s) : NextInv (execCheckAccess id s) := by
  unfold Machine.execCheckAccess
  split
  · exact .next h
  · split
    · exact .next h
    · dsimp only
      refine .next (.settle ?_)
      split
      · exact (h.foldl fun _ _ ht => ht.checkLane).checkLast
      · exact h.foldl fun _ _ ht => ht.checkLane

theorem Inv.deliverArrival {id a} (h : Inv s) : Inv (deliverArrival id a s) := .ite h h

theorem Inv.execLongLatencyArrival {id} (h : Inv s) : NextInv (execLongLatencyArrival id s) := by
  unfold Machine.execLongLatencyArrival
  repeat' split
  exacts [.next h, .next h.deliverArrival.wakeResult.tidy, .next h, .next h.deliverAccess.wakeResult.tidy, .next h]

/-! ### Arithmetic words -/

theorem Inv.pushLater {op w x act r} (h : Inv s) : Inv (pushLater op w x act r s) := by
  unfold Machine.pushLater
  split
  · exact h.produceLater
  · dsimp only [State.fresh]
    exact .produceLater (.modCourse h)

theorem Inv.commitArith {op w x act r} (h : Inv s) : Inv (commitArith op w x act r s) :=
  .ite h.pushLater (.ite h.modCourse h.modCourse.produce)

theorem Inv.arithEffect {op w x act} (h : Inv s) : Inv (arithEffect op w x act s) := h.noteReads.commitArith

theorem Keeps.arithMeaning {op w} : Keeps (arithMeaning op w) := .firstMeaning fun _ _ _ ht => ht.arithEffect

theorem Inv.arithWord {op w} (h : Inv s) : NextInv (arithWord op w s) := h.runWord .arithMeaning

theorem Inv.immWord {val w} (h : Inv s) : NextInv (immWord val w s) := h.plainWord fun _ _ _ ht => ht.produce

theorem Inv.movhiWord {w} (h : Inv s) : NextInv (movhiWord w s) :=
  h.runWord (.firstMeaning fun _ _ _ ht => ht.noteLatent.produce)

theorem Inv.pairEffect {a b x} (h : Inv s) : Inv (pairEffect a b x s) :=
  h.noteReads.noteReads.commitArith.commitArith.finish

theorem Inv.execPairWord {rsv a b} (h : Inv s) : NextInv (execPairWord rsv a b s) := by
  unfold Machine.execPairWord
  repeat' split
  exacts [h.issueWord fun x t ht => ht, h.issueWord fun x t ht => ht, h.issueWord fun x t ht => ht,
    h.issueWord fun x t ht => ht.pairEffect, h.issueWord fun x t ht => ht]

/-! ### The local store -/

theorem Inv.lsPut {tid v} (h : Inv s) : Inv (lsPut s tid v) := by
  unfold Machine.lsPut
  split
  · exact h
  · exact .ite h.modCore h

theorem Inv.recordPut {tid off b} (h : Inv s) : Inv (recordPut tid off b s) := by
  unfold Machine.recordPut
  repeat' split
  exacts [h, h, h.devWriteVa _ ‹_›, h]

theorem Inv.lsWrite {tid off bytes} (h : Inv s) : Inv (lsWrite tid off bytes s) := h.lsPut.recordPut

theorem Inv.lsMark {tid gs} (h : Inv s) : Inv (lsMark tid gs s) := h.lsPut

theorem Inv.lsSetFull {tid g full} (h : Inv s) : Inv (lsSetFull tid g full s) := h.lsPut.recordPut

theorem Inv.granResult {g v bad} (h : Inv s) : Inv (granResult g v bad s) := by
  unfold Machine.granResult
  split <;> exact h

theorem Inv.performGran {g} (h : Inv s) : Inv (performGran g s) := by
  unfold Machine.performGran
  split
  · dsimp only
    split
    · exact h.granResult
    · exact h.lsWrite
    · exact h.lsSetFull
    · exact h.lsWrite.lsSetFull
    · exact .acquire (.ite h.granResult.lsSetFull h.granResult)
    · split
      · exact .acquire (.ite h.granResult h.granResult.lsWrite)
      · exact .ite h.granResult h.granResult.lsWrite

theorem Inv.issueGran {g} (h : Inv s) : Inv (issueGran s g) := by
  unfold Machine.issueGran
  dsimp only [State.fresh]
  exact .ite (.performGran h) h

theorem Inv.serveGran {id} (h : Inv s) : Inv (serveGran s id) := by
  unfold Machine.serveGran
  split
  · exact h
  · exact .ite (.performGran h) h

theorem Inv.execGranuleOpComplete {id} (h : Inv s) : NextInv (execGranuleOpComplete id s) := by
  unfold Machine.execGranuleOpComplete
  repeat' split
  exacts [.next h, .next (h.foldl fun _ _ ht => ht.serveGran).tidy, .next h]

theorem Inv.localEffect {q d addr data cmp x act} (h : Inv s) : Inv (localEffect q d addr data cmp x act s) := by
  unfold Machine.localEffect
  split
  · split
    · exact h
    · exact h.produceLater
  · extract_lets s0
    have h0 : Inv s0 := by
      unfold s0
      split
      · exact h.release
      · exact h
    split
    · exact h0.foldl fun _ _ ht => ht.issueGran
    · exact .foldl (.produceLater h0) fun _ _ ht => ht.issueGran

theorem Keeps.localMeaning {w q load data cmp} : Keeps (localMeaning w q load data cmp) :=
  .sourcedMeaning fun _ _ _ ht => ht.localEffect

theorem Keeps.ldsMeaning {w} : Keeps (ldsMeaning w) := .localMeaning

theorem Keeps.stsMeaning {w} : Keeps (stsMeaning w) := .localMeaning

theorem Keeps.ldfMeaning {w} : Keeps (ldfMeaning w) := .localMeaning

theorem Keeps.stfMeaning {w} : Keeps (stfMeaning w) := .localMeaning

theorem Keeps.seteMeaning {w} : Keeps (seteMeaning w) := .localMeaning

theorem Keeps.setfMeaning {w} : Keeps (setfMeaning w) := .localMeaning

theorem Keeps.atomsMeaning {w} : Keeps (atomsMeaning w) := .localMeaning

theorem Inv.waitfEffect {w x act} (h : Inv s) : Inv (waitfEffect w x act s) := by
  unfold Machine.waitfEffect
  split
  · refine .foldl h fun t a ht => ?_
    split
    · exact ht.acquire
    · exact ht
  · exact h

/-! ### Migration -/

theorem Inv.giveHint {x h0} (h : Inv s) : Inv (giveHint x h0 s) := by
  unfold Machine.giveHint
  split
  · exact h.dropHint
  · exact .ite h.dropHint h.modMig

theorem Inv.putDesc {m off n v} (h : Inv s) : Inv (putDesc m off n v s) := h.writeMem

theorem Inv.execMigrationStart {far} (h : Inv s) : NextInv (execMigrationStart far s) := by
  unfold Machine.execMigrationStart
  split
  · split
    · exact .next h
    · split
      · exact .next h.modMig.dropHint
      · dsimp only
        split
        · exact .next h.modMig.putDesc.putDesc
        · exact .next h.modMig
  · exact .next h

theorem Inv.copyBlock {m d} (h : Inv s) : SomeInv (copyBlock m d s) := by
  unfold Machine.copyBlock
  split
  · unfold Option.bind
    split
    · exact .none
    · exact h.iaWrite
  · dsimp only
    split
    · exact .some h.copyIa
    · exact .none

theorem Inv.flipBlock {m} (h : Inv s) : SomeInv (flipBlock m s) := by
  unfold Machine.flipBlock
  dsimp only
  refine .map fun a e => .putDesc ?_
  split
  · exact (h.keepSource.copyBlock _ e).putDesc.putDesc.putDesc
  · exact (h.keepSource.copyBlock _ e).putDesc.putDesc

/-- One entry of a page move: the bytes go to the new place, shadows and read logs follow, and the entry is pointed there. -/
theorem Inv.movePage {k k2 n bytes slot poison key e} (h : Inv s) :
    Inv ((Machine.moveLogs k k2 n (Machine.moveShadow k k2 n
      { s.writeMem k2 bytes slot with memPoison := poison })).setPte key e) :=
  have h1 : Inv { s.writeMem k2 bytes slot with memPoison := poison } := h.writeMem
  h1.moveShadow.moveLogs.setPte

theorem Inv.flipPage {m} (h : Inv s) : Inv (flipPage m s) := by
  refine .modDev (h.foldl fun t e ht => ?_)
  obtain ⟨i, key, e, n⟩ := e
  exact ht.movePage

theorem Inv.abandonMig {far m} (h : Inv s) : Inv (abandonMig far m s) := .unstall (.ite h.modMig.putDesc h.modMig)

theorem Inv.execMigrationFlip {far} (h : Inv s) : NextInv (execMigrationFlip far s) := by
  unfold Machine.execMigrationFlip
  split
  · exact .next h
  · dsimp only
    split
    · refine .next (.unstall ?_)
      refine .of_some ‹_› ?_
      split
      · exact h.modMig.flipBlock
      · exact .some h.modMig.flipPage
    · exact .next h.abandonMig

theorem Inv.execMigrationAbandon {far} (h : Inv s) : NextInv (execMigrationAbandon far s) := by
  unfold Machine.execMigrationAbandon
  split
  · exact .next h
  · exact .next h.abandonMig

/-! ### System words -/

theorem Inv.regError {c p corrected} (h : Inv s) : Inv (regError c p corrected s) := by
  unfold Machine.regError
  split
  · exact h
  · exact .ite h.count h.modCourse

theorem Inv.memError {dev ia} (h : Inv s) : Inv (memError dev ia s) := by
  unfold Machine.memError
  split
  · exact h
  · exact .ite h (.postMlog h)

theorem Inv.execTrap {w} (h : Inv s) : NextInv (execTrap w s) := by
  unfold Machine.execTrap
  exact h.runWord fun _ _ ht => .ite ht.noteLatent.finish ht.noteLatent.stopAfter

theorem Inv.raiseNote {x v} (h : Inv s) : Inv (raiseNote x v s) := by
  unfold Machine.raiseNote
  split
  · exact h
  · exact h.modDev

theorem Inv.signalEffect {w x act} (h : Inv s) : Inv (signalEffect w x act s) := by
  unfold Machine.signalEffect
  dsimp only
  repeat' split
  exacts [h, h.release.raiseNote, h, h]

theorem Inv.counterWord {w v} (h : Inv s) : NextInv (counterWord w v s) := h.plainWord fun _ _ _ ht => ht.produce

/-! ### Global memory words -/

theorem Inv.lookWindow {block addr x act} (h : Inv s) : Inv (lookWindow block addr x act s) := by
  unfold Machine.lookWindow
  dsimp only
  refine .foldl h fun t a ht => ?_
  split
  · exact ht.modCore
  · exact ht

theorem Inv.issueL1 {a dev} (h : Inv s) : Inv (issueL1 a dev s) := by
  unfold Machine.issueL1
  split
  · exact h.foldl fun _ _ ht => .ite ht ht.storeL1
  · exact h

theorem Inv.issueAccess {q word d block addr data cmp x act} (h : Inv s) :
    Inv (issueAccess q word d block addr data cmp x act s) := by
  unfold Machine.issueAccess
  have h0 : Inv (if q.release then s.release x.c else s) := by
    split
    · exact h.release
    · exact h
  split
  · split
    · exact h
    · exact h.produceLater
  · dsimp only [State.fresh]
    split
    · exact .issueL1 (.lookWindow h0)
    · exact .produceLater (.issueL1 (.lookWindow h0))

theorem Keeps.globalMeaning {w q word load data cmp} : Keeps (globalMeaning w q word load data cmp) := by
  unfold Machine.globalMeaning
  exact .sourcedMeaning fun _ _ _ ht => ht.issueAccess

theorem Keeps.ldMeaning {w} : Keeps (ldMeaning w) := .globalMeaning

theorem Keeps.stMeaning {w} : Keeps (stMeaning w) := .globalMeaning

theorem Keeps.atomMeaning {w} : Keeps (atomMeaning w) := .globalMeaning

theorem Keeps.discardMeaning {w} : Keeps (discardMeaning w) := .globalMeaning

theorem Keeps.lastuseMeaning {w} : Keeps (lastuseMeaning w) := .globalMeaning

theorem Keeps.lineMeaning {w check f} (hf : ∀ x t n, Inv t → Inv (f x t n)) : Keeps (lineMeaning w check f) := by
  unfold Machine.lineMeaning
  exact .sourcedMeaning fun _ _ _ ht => ht.foldl fun t1 a ht1 => hf _ _ _ ht1

theorem Inv.dropNamed {w x va} (h : Inv s) : Inv (dropNamed w x s va) := by
  unfold Machine.dropNamed
  dsimp only
  split
  · split
    · exact h.dropL1
    · exact h
  · split
    · exact .ite h h.dropL1
    · exact h

theorem Keeps.invlMeaning {w} : Keeps (invlMeaning w) := .lineMeaning fun _ _ _ ht => ht.dropNamed

theorem Inv.flushNamed {w x va} (h : Inv s) : Inv (flushNamed w x s va) := by
  unfold Machine.flushNamed
  dsimp only
  repeat' split
  exacts [h.dropNamed.flushLine, .getD (.map fun a e => h.dropNamed.flushLine) h.dropNamed, h.dropNamed]

theorem Keeps.flushlMeaning {w} : Keeps (flushlMeaning w) := .lineMeaning fun _ _ _ ht => ht.flushNamed

theorem Inv.prefNamed {w x va} (h : Inv s) : Inv (prefNamed w x s va) := by
  unfold Machine.prefNamed
  split
  · exact h.count
  · exact .ite h.giveHint h.fillRdcPod
  · exact .ite h.giveHint (.ite h.fillRdc.fillL1 h.fillRdc)

theorem Keeps.prefMeaning {w} : Keeps (prefMeaning w) := .lineMeaning fun _ _ _ ht => ht.prefNamed

theorem Inv.execFence {w} (h : Inv s) : NextInv (execFence w s) := by
  unfold Machine.execFence
  refine h.plainWord fun x m t ht => ?_
  split
  · exact ht
  · exact .ite (.acquire (.ite ht.release ht)) (.ite ht.release ht)

theorem Inv.blockWord {w q word refs v} (h : Inv s) : NextInv (blockWord w q word refs v s) :=
  h.runWord (.sourcedMeaning fun _ _ _ ht => ht.issueAccess)

theorem Inv.ptewEffect {w x act} (h : Inv s) : Inv (ptewEffect w x act s) := by
  unfold Machine.ptewEffect
  split
  · exact h.produceLater
  · exact .produceLater h

theorem Inv.execPtew {w} (h : Inv s) : NextInv (execPtew w s) := by
  unfold Machine.execPtew
  exact h.runWord fun _ _ ht => .ite ht.noteLatent.ptewEffect.finish ht.noteLatent.ptewEffect.finishWaiting

/-! ### Engine words -/

theorem Inv.engineWord {w refs v f} (h : Inv s) (hf : ∀ x m t, Inv t → Inv (f x m t)) :
    NextInv (engineWord w refs v f s) :=
  h.runWord (.sourcedMeaning fun _ _ _ ht => .ite ht (hf _ _ _ ht))

theorem Inv.engineValue {w words refs v val f} (h : Inv s) (hf : ∀ x m t, Inv t → Inv (f x m t)) :
    NextInv (engineValue w words refs v val f s) :=
  h.runWord (.sourcedMeaning fun _ _ _ ht => .produce (.ite ht (hf _ _ _ ht)))

theorem Inv.passFences {core n} (h : Inv s) : Inv (passFences core n s) := by
  induction n generalizing s with
  | zero => exact h
  | succ n ih =>
    unfold Machine.passFences
    split
    · exact h
    · exact ih h

theorem Inv.fencesOf {core} (h : Inv s) : Inv (fencesOf core s) := h.passFences

theorem Inv.execQfence {w} (h : Inv s) : NextInv (execQfence w s) := by
  unfold Machine.execQfence
  exact h.engineWord fun x m t ht => .fencesOf (.modCore ht.fresh)

theorem Inv.execSwz {w} (h : Inv s) : NextInv (execSwz w s) := by
  unfold Machine.execSwz
  exact h.engineWord fun _ _ _ ht => ht.modTeam

theorem Inv.cbMove {w limit code f} (h : Inv s) : NextInv (cbMove w limit code f s) := by
  unfold Machine.cbMove
  dsimp only
  refine h.engineWord fun x m t ht => ?_
  split
  · exact ht
  · exact ht.setCb

theorem Inv.execCbprod {w} (h : Inv s) : NextInv (execCbprod w s) := h.cbMove

theorem Inv.execCbcons {w} (h : Inv s) : NextInv (execCbcons w s) := h.cbMove

theorem Inv.execSfill {w} (h : Inv s) : NextInv (execSfill w s) := by
  unfold Machine.execSfill
  dsimp only
  refine h.engineWord fun x m t ht => ?_
  split
  · exact ht.modStream
  · exact ht

theorem Inv.execSpush {w} (h : Inv s) : NextInv (execSpush w s) := by
  unfold Machine.execSpush
  exact h.engineWord fun _ _ _ ht => ht.modStream

theorem Inv.releaseFrags {tid} (h : Inv s) : Inv (releaseFrags tid s) := by
  unfold Machine.releaseFrags
  split
  · exact h
  · dsimp only
    split
    · exact h
    · refine .foldl h.modTeam fun t a ht => ?_
      split
      · exact ht.setCb
      · exact ht

theorem Inv.fillStream {tid st} (h : Inv s) : Inv (fillStream tid st s) := by
  unfold Machine.fillStream
  dsimp only
  split
  · exact h.releaseFrags.modStream.modStream
  · exact h.releaseFrags.modStream

/-! ### Copy records -/

theorem Inv.homeRead {cx l} (h : Inv s) : Inv (homeRead cx l s).1 := by
  induction l generalizing s with
  | nil => exact h
  | cons e l ih =>
    unfold Machine.homeRead
    split
    · exact h
    · split
      · exact .of_fst ‹_› h.homeXlate
      · split <;> exact .of_fst ‹_› (ih (.of_fst ‹_› h.homeXlate))

theorem Inv.engineL1 {core dev ia n b} (h : Inv s) : Inv (engineL1 core dev ia n b s) := by
  induction n generalizing ia b s with
  | zero => exact h
  | succ n ih =>
    unfold Machine.engineL1
    dsimp only
    split
    · exact h
    · exact ih h.storeL1

theorem Inv.homeWrite {core cx bad l b} (h : Inv s) : Inv (homeWrite core cx bad l b s).1 := by
  induction l generalizing b s with
  | nil => exact h
  | cons e l ih =>
    unfold Machine.homeWrite
    split
    · exact h
    · split
      · exact .of_fst ‹_› h.homeXlate
      · extract_lets d s2 s3
        have h3 : Inv s3 := (Inv.of_fst ‹_› h.homeXlate).writeMem.clearShadow.engineL1
        refine ih ?_
        split
        · exact h3.poisonLines
        · exact h3

theorem Inv.readEncoded {core cx d off n} (h : Inv s) : Inv (readEncoded core cx d off n s).1 := by
  unfold Machine.readEncoded
  dsimp only
  repeat' split
  exacts [h, h, .of_fst ‹_› h.homeRead, .of_fst ‹_› h.homeRead]

theorem Inv.readBlock {core r ref n} (h : Inv s) : Inv (readBlock core r ref n s).1 := by
  unfold Machine.readBlock
  dsimp only
  repeat' split
  exacts [h, h, h, h, h.readEncoded, h, .of_fst ‹_› h.homeRead, .of_fst ‹_› h.homeRead]

theorem Inv.readVa {r va n} (h : Inv s) : Inv (readVa r va n s).1 := by
  unfold Machine.readVa
  dsimp only
  repeat' split
  exacts [h, h, h, .of_fst ‹_› h.homeRead, .of_fst ‹_› h.homeRead]

theorem Inv.readSide {core r p n} (h : Inv s) : Inv (readSide core r p n s).1 := by
  unfold Machine.readSide
  split
  · exact h.readVa
  · exact h.readBlock
  · exact h
  · exact h
  · exact h

theorem Inv.writeBlock {core r ref bytes bad} (h : Inv s) : Inv (writeBlock core r ref bytes bad s).1 := by
  unfold Machine.writeBlock
  dsimp only
  repeat' split
  exacts [h, h, h, h, h, h, h, h.startCow _ ‹_›, .of_fst ‹_› h.homeWrite, .of_fst ‹_› h.homeWrite]

theorem Inv.writeVa {core r va bytes bad} (h : Inv s) : Inv (writeVa core r va bytes bad s).1 := by
  unfold Machine.writeVa
  dsimp only
  repeat' split
  exacts [h, h, h, .of_fst ‹_› h.homeWrite, .of_fst ‹_› h.homeWrite]

theorem Inv.putLs {tid z bad off bytes} (h : Inv s) : Inv (putLs tid z bad off bytes s) := by
  unfold Machine.putLs
  dsimp only
  split
  · exact .lsMark (.ite (h.foldl fun _ _ ht => ht.lsWrite) h.lsWrite)
  · split
    · exact (h.foldl fun t a ht => ht.lsWrite).foldl fun t a ht => .ite ht.lsWrite ht
    · exact h.lsWrite

theorem Inv.writeLs {ch r a bytes bad} (h : Inv s) : Inv (writeLs ch r a bytes bad s).1 := by
  unfold Machine.writeLs
  split
  · exact h
  · exact h
  · dsimp only
    split
    · exact h
    · exact .ite (h.putLs.foldl fun _ _ ht => ht.lsSetFull) h.putLs

theorem Inv.writeCb {ch r i off bytes bad} (h : Inv s) : Inv (writeCb ch r i off bytes bad s).1 := by
  unfold Machine.writeCb
  split
  · exact h
  · split
    · exact h
    · exact h.putLs

theorem Inv.writeSide {core ch r p bytes bad} (h : Inv s) : Inv (writeSide core ch r p bytes bad s).1 := by
  unfold Machine.writeSide
  split
  · exact h.writeVa
  · exact h.writeBlock
  · exact h.writeLs
  · exact h.writeCb
  · exact h

theorem Inv.sendCopy {core id r pod ia kind n data} (h : Inv s) :
    Inv (sendCopy core id r pod ia kind n data s).1 := by
  unfold Machine.sendCopy
  dsimp only
  repeat' split
  exacts [h, h, h, h.addRequest]

theorem Inv.movePointers {r q} (h : Inv s) : Inv (movePointers r q s) := by
  unfold Machine.movePointers
  extract_lets t s1
  have h1 : Inv s1 := by
    unfold s1
    repeat' split
    exacts [h.setCb, h, h]
  repeat' split
  exacts [h1.setCb, h1, h1]

theorem Inv.afterPiece {r q out bad} (h : Inv s) : Inv (afterPiece r q out bad s).1 := by
  unfold Machine.afterPiece
  dsimp only
  split
  · split
    · split
      · exact h
      · exact h.movePointers.modStream
    · exact h.movePointers
  · exact h.movePointers

theorem Inv.movePut {core id ch r q} (h : Inv s) : Inv (movePut core id ch r q s).1 := by
  unfold Machine.movePut
  dsimp only
  repeat' split
  exacts [h.afterPiece, .of_fst ‹_› h.writeSide, .of_fst ‹_› h.writeSide, .of_fst ‹_› h.writeSide,
    .sendCopy (.of_fst ‹_› h.writeSide)]

theorem Inv.movePiece {core id ch r} (h : Inv s) : Inv (movePiece core id ch r s).1 := by
  unfold Machine.movePiece
  dsimp only
  repeat' split
  exacts [h.movePut, .of_fst ‹_› h.readSide, .of_fst ‹_› h.readSide, .of_fst ‹_› h.readSide,
    .sendCopy (.of_fst ‹_› h.readSide)]

theorem Inv.moveAll {core id ch n r} (h : Inv s) : Inv (moveAll core id ch n r s).1 := by
  induction n generalizing r s with
  | zero => exact h
  | succ n ih =>
    unfold Machine.moveAll
    split
    · exact h
    · split
      · exact ih (.of_fst ‹_› h.movePiece)
      · exact h.movePiece

theorem Inv.modBatch {o num f} (h : Inv s) : Inv (modBatch o num f s) := by
  unfold Machine.modBatch
  split
  · exact h
  · exact h.modCourse

theorem Inv.copyRecord {o code addr status} (h : Inv s) : Inv (copyRecord o code addr status s) := h.post

theorem Inv.recWrite {core o va bytes} (h : Inv s) : Inv (recWrite core o va bytes s) := by
  unfold Machine.recWrite
  split
  · exact h.homeWrite
  · exact h

theorem Inv.writeStatus {core r status foff} (h : Inv s) : Inv (writeStatus core r status foff s) := by
  unfold Machine.writeStatus
  split
  · exact h
  · exact h.recWrite.recWrite

theorem Inv.chainNext {core ch} (h : Inv s) : Inv (chainNext core ch s) := by
  unfold Machine.chainNext
  split
  · exact h.modChan.modBatch
  · exact h

theorem Inv.completeRecord {core id ch r status foff} (h : Inv s) :
    Inv (completeRecord core id ch r status foff s) := by
  unfold Machine.completeRecord
  extract_lets s1 s2 addr s3 s4 s5
  have h1 : Inv s1 := h.modCore.writeStatus
  have h2 : Inv s2 := h1.modBatch
  have h3 : Inv s3 := .ite h2 h2.copyRecord
  have h4 : Inv s4 := .ite h3.copyRecord h3
  have h5 : Inv s5 := .ite h4.chainNext h4
  exact h5.unstall.engineEnd.fencesOf.reapTeam

theorem Inv.runRecord {core id ch r} (h : Inv s) : Inv (runRecord core id ch r s).1 := by
  unfold Machine.runRecord
  split
  · exact h
  · split
    · exact h
    · split
      · exact .of_fst ‹_› h.moveAll
      · exact .of_fst ‹_› h.moveAll
      · split <;> exact .of_fst ‹_› h.moveAll

theorem Inv.execRecordComplete {core id} (h : Inv s) : NextInv (execRecordComplete core id s) := by
  unfold Machine.execRecordComplete
  repeat' split
  exacts [.next h, .next (.completeRecord (.of_fst ‹_› h.runRecord)), .next (.completeRecord (.of_fst ‹_› h.runRecord)),
    .next (.modCore (.of_fst ‹_› h.runRecord))]

theorem Inv.readRecord {o va} (h : Inv s) : Inv (readRecord o va s).1 := by
  unfold Machine.readRecord
  dsimp only
  repeat' split
  exacts [h, h, h, h, .of_fst ‹_› h.homeXlate, .of_fst ‹_› h.homeXlate, .of_fst ‹_› h.homeXlate, h]

theorem Inv.chainFail {core ch o batch va status} (h : Inv s) : Inv (chainFail core ch o batch va status s) := by
  unfold Machine.chainFail
  exact h.modChan.modBatch.copyRecord.fencesOf.reapTeam

theorem Inv.claimChain {core ch o batch va b} (h : Inv s) : SomeInv (claimChain core ch o batch va b s) := by
  unfold Machine.claimChain
  dsimp only
  split
  · exact .none
  · exact .some h.modBatch.recWrite.recWrite.setHead.putClaimed

theorem Inv.claimHead {core ch} (h : Inv s) : SomeInv (claimHead core ch s) := by
  unfold Machine.claimHead
  dsimp only
  split
  · exact .none
  · split
    · exact .none
    · exact .none
    · split
      · exact .none
      · exact .some h.modChan
    · split
      · exact .some h.modChan.putClaimed
      · exact .none
    · split
      · exact .none
      · split
        · exact .some (.chainFail (.of_fst ‹_› h.readRecord))
        · split
          · exact .some (.setHead (.modChan (.of_fst ‹_› h.readRecord)))
          · exact Inv.claimChain (.of_fst ‹_› h.readRecord)

theorem Inv.sendTable {core ch o pod ia n} (h : Inv s) : SomeInv (sendTable core ch o pod ia n s) := by
  unfold Machine.sendTable
  dsimp only
  split
  · exact .none
  · exact .some h.addRequest.modChan

theorem Inv.endLoad {core ch o t} (h : Inv s) : Inv (endLoad core ch o t s) := by
  unfold Machine.endLoad
  dsimp only
  refine .reapTeam (.fencesOf ?_)
  refine .engineEnd ?_
  split
  · exact h.modChan.modCore
  · exact h.modChan

theorem Inv.loadTable {core ch o va ctl n} (h : Inv s) : Inv (loadTable core ch o va ctl n s) := by
  induction n generalizing s with
  | zero => exact h
  | succ n ih =>
    unfold Machine.loadTable
    dsimp only
    split
    · exact h.endLoad
    · split
      · exact h
      · split
        · exact h.endLoad
        · split
          · exact h.endLoad
          · exact .getD h.sendTable h.endLoad
          · split
            · exact h
            · split
              · exact (Inv.of_fst ‹_› h.homeRead).endLoad
              · exact ih (Inv.of_fst ‹_› h.homeRead).modChan

theorem Inv.execCodebookLoadComplete {core ch} (h : Inv s) : NextInv (execCodebookLoadComplete core ch s) := by
  unfold Machine.execCodebookLoadComplete
  dsimp only
  split
  · exact .next h.loadTable
  · exact .next h

/-! ### Journal and slots -/

theorem Inv.unbindSlot {c} (h : Inv s) : Inv (unbindSlot c s) := h.setSlot.modCourse.abandonMats

theorem Inv.preemptSlot {c} (h : Inv s) : Inv (preemptSlot c s) := .ite h.journal.unbindSlot h

theorem Inv.preemptTeam {tid} (h : Inv s) : Inv (preemptTeam tid s) := .foldl h fun _ _ ht => ht.preemptSlot

theorem Inv.firePreempt {o} (h : Inv s) : Inv (firePreempt o s) := .ite (.preemptTeam h) h

theorem Inv.inject {i} (h : Inv s) : Inv (inject i s) := by
  unfold Machine.inject
  dsimp only
  repeat' split
  exacts [h, h, h, h.preemptTeam, h, h, h]

/-! ### Matrix words -/

theorem Inv.queueMat {x act d words o} (h : Inv s) : Inv (queueMat x act d words o s) := by
  unfold Machine.queueMat
  split
  · exact h.pushMat
  · dsimp only [State.fresh]
    exact .produceLater (.pushMat h)

theorem Inv.matWord {w i words refs pre v} (h : Inv s) : NextInv (matWord w i words refs pre v s) :=
  h.runWord (.sourcedMeaning fun _ _ _ ht => .ite (.ite ht ht.produceLater) ht.queueMat)

theorem Inv.bindOne {tid st latch} (h : Inv s) : Inv (bindOne tid st latch s).2 := by
  unfold Machine.bindOne
  split
  · exact h
  · split
    · exact h
    · dsimp only [State.fresh]
      exact .modStream h

theorem Inv.bindMma {w c o} (h : Inv s) : Inv (bindMma w c o s) := h.bindOne.bindOne.modCourse.pushMat

theorem Inv.takeInject {c t} (h : Inv s) : Inv (takeInject c t s).2 := by
  unfold Machine.takeInject
  split
  · split
    · exact h.modCourse
    · exact h
  · exact h

theorem Inv.mmaEffect {w i x act} (h : Inv s) : Inv (mmaEffect w i x act s) := by
  unfold Machine.mmaEffect
  split
  · exact h
  · repeat' split
    all_goals exact .bindMma (.of_snd ‹_› h.takeInject)

theorem Inv.mmaWord {w i} (h : Inv s) : NextInv (mmaWord w i s) :=
  h.runWord (.sourcedMeaning fun _ _ _ ht => ht.mmaEffect)

theorem Inv.escalate {ctx name pc f} (h : Inv s) : Inv (escalate ctx name pc f s).2 := by
  unfold Machine.escalate
  dsimp only
  split
  · exact h.modCtx
  · exact .ite h.modCtx h.modCtx.post

theorem Inv.fmtset {x f d} (h : Inv s) : Inv (fmtset x f d s).2 := by
  unfold Machine.fmtset
  dsimp only
  repeat' split
  exacts [h, h.modCtx, h.modCtx, h.modCtx, .of_snd ‹_› h.modCtx.escalate, .of_snd ‹_› h.modCtx.escalate]

theorem Inv.answer {x act d words v} (h : Inv s) : Inv (answer x act d words v s) := by
  unfold Machine.answer
  dsimp only [State.fresh]
  exact .produceLater h

theorem Inv.homeWordIf {v w words refs f} (h : Inv s) (hf : ∀ x m t, Inv t → Inv (f x m t).2) :
    NextInv (homeWordIf v w words refs f s) :=
  h.runWord (.sourcedMeaning fun _ _ _ ht => .ite ht.produceLater (hf _ _ _ ht).answer)

theorem Inv.homeWord {w words refs f} (h : Inv s) (hf : ∀ x m t, Inv t → Inv (f x m t).2) :
    NextInv (homeWord w words refs f s) := h.homeWordIf fun _ _ _ ht => hf _ _ _ ht

theorem Inv.execFmtget {w} (h : Inv s) : NextInv (execFmtget w s) := by
  unfold Machine.execFmtget
  exact h.homeWord fun _ _ _ ht => ht

theorem Inv.bndset {w x w0 w1} (h : Inv s) : Inv (bndset w x w0 w1 s).2 := by
  unfold Machine.bndset
  dsimp only
  split
  · exact h
  · exact h.modCtx

theorem Inv.giveResult {o words vals} (h : Inv s) : Inv (giveResult o words vals s) := by
  unfold Machine.giveResult
  dsimp only
  split <;> exact h

theorem Inv.popMat {core o} (h : Inv s) : Inv (popMat core o s) :=
  h.modCore.releaseFrags.engineEnd.fencesOf.reapTeam

theorem Inv.failMat {core o code cls} (h : Inv s) : Inv (failMat core o code cls s) :=
  .ite h.post.setMat.stopCourse.fencesOf h.post.popMat

theorem Inv.startMma {core o} (h : Inv s) : Inv (startMma core o s) := by
  unfold Machine.startMma
  split
  · exact h.failMat
  · exact h.setMat.firePreempt

theorem Inv.accstGo {core o w rows action acc side b br} (h : Inv s) :
    Inv (startAccst.accstGo core o w s rows action acc side b br) := .setMat (.ite h.modDev h)

theorem Inv.startAccst {core o w} (h : Inv s) : Inv (startAccst core o w s) := by
  unfold Machine.startAccst
  extract_lets wide acc d t rows b br side oob n s1 first
  have h1 : Inv s1 := .ite h h.modCore.count
  clear_value first
  obtain _ | ⟨i, j, c⟩ := first
  · exact h1.accstGo
  · exact .ite h1.giveResult.failMat h1.accstGo

theorem Inv.startMat {core o} (h : Inv s) : Inv (startMat core o s) := by
  unfold Machine.startMat
  repeat' split
  exacts [h.startMma, h.startMma, h.startAccst, h.setMat]

theorem Inv.execMatrixOpStart {core} (h : Inv s) : NextInv (execMatrixOpStart core s) := by
  unfold Machine.execMatrixOpStart
  dsimp only
  repeat' split
  exacts [.next h.fencesOf, .next h.fencesOf, .next h.fencesOf.startMat]

theorem Inv.acceptMma {core o el st cor tol} (h : Inv s) : Inv (acceptMma core o el st cor tol s) := by
  unfold Machine.acceptMma
  extract_lets b t ctx macs injected s1 ls s2 s3 s4 s5
  have h1 : Inv s1 := h.modCore
  have h2 : Inv s2 := h1.count.count.count
  have h3 : Inv s3 := .ite h2.count h2
  have h4 : Inv s4 := .ite h3.count h3
  have h5 : Inv s5 := by
    unfold s5
    split
    · exact h4.modCourse
    · exact h4
  exact h5.popMat

theorem Inv.retryMma {core o} (h : Inv s) : Inv (retryMma core o s) := by
  unfold Machine.retryMma
  dsimp only
  split
  · exact h.setMat.modCore.count.modCourse
  · exact h.setMat.modCore.count

theorem Inv.noteUe {core} (h : Inv s) : Inv (noteUe core s) := .ite h.modCore.postMlog h.modCore

theorem Inv.failMma {core o rows cols} (h : Inv s) : Inv (failMma core o rows cols s) := h.failMat.noteUe

theorem Inv.attemptMma {core o errs} (h : Inv s) : Inv (attemptMma core o errs s) := by
  unfold Machine.attemptMma
  extract_lets b t el ref stored s1 res
  have h1 : Inv s1 := .ite h h.count
  split
  · exact h1.acceptMma
  · exact h1.acceptMma
  · exact h1.acceptMma
  · exact .ite h1.retryMma h1.failMma

theorem Inv.execMmaAttemptComplete {core errs} (h : Inv s) : NextInv (execMmaAttemptComplete core errs s) := by
  unfold Machine.execMmaAttemptComplete
  repeat' split
  exacts [.next h, .next h.attemptMma, .next h]

theorem Inv.completeAccld {core o w} (h : Inv s) : Inv (completeAccld core o w s) := by
  unfold Machine.completeAccld
  dsimp only
  repeat' split
  exacts [h.setMat, h.failMat, h.modCore.popMat]

theorem Inv.storePiece {o fe acc e} (hacc : Inv acc.1) : Inv (storePiece o fe acc e).1 := by
  unfold Machine.storePiece
  dsimp only
  repeat' split
  exacts [hacc, hacc.lsWrite.lsSetFull, hacc.lsWrite, hacc]

theorem Inv.completeAccst {core o w} (h : Inv s) : Inv (completeAccst core o w s) := by
  unfold Machine.completeAccst
  dsimp only
  split
  · refine .popMat (.giveResult ?_)
    refine .foldl_fst ?_ (fun _ _ ht => ht.storePiece)
    exact h
  · refine .setMat (.foldl_fst ?_ (fun _ _ ht => ht.storePiece))
    exact h

theorem Inv.completeAccmv {core o w} (h : Inv s) : Inv (completeAccmv core o w s) := by
  unfold Machine.completeAccmv
  dsimp only
  split
  · exact h.modCore.popMat
  · exact h.giveResult.popMat
  · exact h.modCore.popMat

theorem Inv.completeMat {core o} (h : Inv s) : Inv (completeMat core o s) := by
  unfold Machine.completeMat
  dsimp only
  split
  · exact h.modCore.popMat
  · exact h.completeAccld
  · exact h.completeAccst
  · exact h.completeAccmv
  · exact h.giveResult.popMat
  · exact h.modCore.popMat
  · exact .ite h h.giveResult.popMat
  · exact h

theorem Inv.execMatrixOpComplete {core} (h : Inv s) : NextInv (execMatrixOpComplete core s) := by
  unfold Machine.execMatrixOpComplete
  repeat' split
  exacts [.next h, .next h.completeMat, .next h]

theorem Inv.execRailEvaluate {core} (h : Inv s) : NextInv (execRailEvaluate core s) := by
  unfold Machine.execRailEvaluate
  split
  · exact .next h
  · exact .next h.modCore

theorem Inv.normJump {n nref outcome} (h : Inv s) : Inv (normJump n nref outcome s) := h.post

theorem Inv.normRequest {n nref} (h : Inv s) : Inv (normRequest n nref s) := by
  unfold Machine.normRequest
  dsimp only
  repeat' split
  exacts [h.normJump, h.normJump, .normJump (.of_snd ‹_› h.escalate), .of_snd ‹_› h.escalate]

theorem Inv.normCheck {n} (h : Inv s) : Inv (normCheck n s) :=
  .ite h (.ite h.modCtx (.ite h.modCtx.normRequest h.modCtx))

theorem Inv.execNormMonitorCheck (h : Inv s) : NextInv (execNormMonitorCheck s) := by
  unfold Machine.execNormMonitorCheck
  split
  · exact .next h
  · exact .next h.modDev.normCheck

theorem Inv.reissueFirst {c} (h : Inv s) : SomeInv (reissueFirst c s) := by
  unfold Machine.reissueFirst
  dsimp only
  repeat' split
  exacts [.none, .none, .none, .some h.modCourse.bindMma, .none, .some h.modCourse.bindMma, .some h.modCourse.pushMat]

/-! ### Stores to other pods -/

theorem Inv.sendStore {r} (h : Inv s) : Inv (sendStore r s) := .ite h h.sendFlit

theorem Inv.sendRstv {o core target reg data notice} (h : Inv s) : Inv (sendRstv o core target reg data notice s) :=
  .sendStore h.fresh

theorem Inv.modOwner {o f} (h : Inv s) : Inv (modOwner o f s) := by
  unfold Machine.modOwner
  split
  · exact h.modCourse
  · exact h

theorem Inv.imageWrite {key off b} (h : Inv s) : Inv (imageWrite key off b s) := by
  unfold Machine.imageWrite
  split
  · exact h.devWriteVa _ ‹_›
  · exact h

theorem Inv.imageFill {key n data} (h : Inv s) : Inv (imageFill key n data s) := h.imageWrite.imageWrite.imageWrite

theorem Inv.putRstv {r a} (h : Inv s) : Inv (putRstv r a s) := by
  unfold Machine.putRstv
  dsimp only
  repeat' split
  exacts [h.modCourse, .imageFill h, h]

theorem Inv.rstvOver {r} (h : Inv s) : Inv (rstvOver r s) := by
  unfold Machine.rstvOver
  split
  · exact h.modOwner
  · exact h

theorem Inv.noteResult {r ok} (h : Inv s) : Inv (noteResult r ok s) := by
  unfold Machine.noteResult
  split
  · exact h.modCore
  · exact h

theorem Inv.replyRstv {r code} (h : Inv s) : Inv (replyRstv r code s) := by
  unfold Machine.replyRstv
  split
  · exact .ite h h.sendFlit
  · exact h

theorem Inv.refuseRstv {r reason} (h : Inv s) : Inv (refuseRstv r reason s) := by
  unfold Machine.refuseRstv
  split
  · exact h.post.rstvOver
  · exact .replyRstv h

theorem Inv.countRstv {r} (h : Inv s) : Inv (countRstv r s) := .ite h h.modCore

theorem Inv.answerPod {r code} (h : Inv s) : Inv (answerPod r code s) := by
  unfold Machine.answerPod
  split
  · exact h
  · exact .replyRstv h

theorem Inv.tellHub {name core r} (h : Inv s) : Inv (tellHub name core s r) := by
  unfold Machine.tellHub
  repeat' split
  exacts [h, h.modDev, h.sendFlit, h]

theorem Inv.tellPlace {r} (h : Inv s) : Inv (tellPlace r s) := by
  unfold Machine.tellPlace
  split
  · exact h.tellHub
  · exact h

theorem Inv.deliveredRstv {r} (h : Inv s) : Inv (deliveredRstv r s) := h.rstvOver.answerPod

theorem Inv.execRstvDelivery {id} (h : Inv s) : NextInv (execRstvDelivery id s) := by
  unfold Machine.execRstvDelivery
  repeat' split
  exacts [.next h, .next h, .next h, .next (.answerPod h), .next h.dropRstv.countRstv.refuseRstv.noteResult,
    .next h.dropRstv.countRstv.putRstv.noteResult.deliveredRstv.tellPlace,
    .next h.dropRstv.countRstv.modCore.noteResult.answerPod.tellPlace]

theorem Inv.execRstvRetry {id} (h : Inv s) : NextInv (execRstvRetry id s) := by
  unfold Machine.execRstvRetry
  repeat' split
  exacts [.next h, .next (.sendStore h), .next h]

theorem Inv.execRstvBufferDrain {core} (h : Inv s) : NextInv (execRstvBufferDrain core s) := by
  unfold Machine.execRstvBufferDrain
  dsimp only
  repeat' split
  exacts [.next h, .next h.modCore.refuseRstv, .next h.modCore.putRstv.deliveredRstv]

theorem Inv.askName {x id name l} (h : Inv s) : Inv (askName x id name s l) := h.addRequest

theorem Inv.nameqEffect {w x act} (h : Inv s) : Inv (nameqEffect w x act s) := by
  unfold Machine.nameqEffect
  split
  · exact h.produceLater
  · exact .produceLater (.foldl h.fresh fun _ _ ht => ht.askName)

/-! ### Remote requests -/

theorem Inv.decideLanes {id a old bad l b} (h : Inv s) : Inv (decideLanes id a old bad l b s) := by
  induction l generalizing b s with
  | nil => exact h
  | cons i l ih =>
    unfold Machine.decideLanes
    split
    · exact ih h
    · exact ih h.setLane

theorem Inv.copyReply {core id q code vals} (h : Inv s) : Inv (copyReply core id q code vals s) := by
  unfold Machine.copyReply
  split
  · exact h
  · exact h.modCore

theorem Inv.newRequest {q} (h : Inv s) : Inv (newRequest q s) := by
  unfold Machine.newRequest
  repeat' split
  exacts [h.remoteWriteFail, h.swatchReply, h, h.addRequest]

theorem Inv.afterRead {id a q} (h : Inv s) : Inv (afterRead id a q s) := by
  unfold Machine.afterRead
  dsimp only
  split
  · exact .ite h h.newRequest
  · exact h

theorem Inv.accessReply {id lanes q code info vals} (h : Inv s) :
    Inv (accessReply id lanes q code info vals s) := by
  unfold Machine.accessReply
  dsimp only
  repeat' split
  exacts [h, h.failRemote.settle,
    ((h.foldl fun t a ht => ht.decideLanes).afterRead.foldl fun t a ht => ht.fillRdcPod).settle]

theorem Inv.remoteFinish {id code vals} (h : Inv s) : Inv (remoteFinish id code vals s) := by
  unfold Machine.remoteFinish
  split
  · exact h
  · dsimp only
    split
    · exact .accessReply h
    · exact .ite (.tidy h) (.tidy (.remoteWriteFail h))
    · exact .copyReply h
    · exact .swatchReply h
    · exact .nameReply h
    · exact .tableReply h

theorem Inv.storeReply {id v code} (h : Inv s) : Inv (storeReply id v code s) := by
  have hn : ∀ ok, Inv (if v.held then s else Machine.noteResult v ok s) := fun _ => .ite h h.noteResult
  unfold Machine.storeReply
  refine .ite h (.ite ?_ (.ite ?_ (.ite ?_ ?_)))
  · exact (hn true).dropRstv.rstvOver
  · exact .ite h (.noteResult h)
  · exact .ite h h
  · exact (hn false).dropRstv.refuseRstv

theorem Inv.execRemoteCompletion {id r} (h : Inv s) : NextInv (execRemoteCompletion id r s) := by
  unfold Machine.execRemoteCompletion
  repeat' split
  exacts [.next h.remoteFinish, .next h, .next h.modDev, .next h, .next h.remoteFinish, .next h, .next h.storeReply, .next h]

theorem Inv.setGen {id q gen} (h : Inv s) : Inv (setGen id q gen s) := .sendOut h

theorem Inv.fetched {id q r} (h : Inv s) : Inv (fetched id q r s) := by
  unfold Machine.fetched
  split
  · exact h.remoteFinish
  · exact h.cachePod.setGen

theorem Inv.execPodTranslationFetch {id r} (h : Inv s) : NextInv (execPodTranslationFetch id r s) := by
  unfold Machine.execPodTranslationFetch
  split
  · exact .next h
  · split
    · exact .next h
    · split
      · exact .next h.setGen
      · split <;> exact .next h.fetched

theorem Inv.execStaleNak {id} (h : Inv s) : NextInv (execStaleNak id s) := by
  unfold Machine.execStaleNak
  dsimp only
  repeat' split
  exacts [.next h, .next h, .next (.sendOut h)]

theorem Inv.atomicAt {aop size key ia slot acc l} (hacc : Inv acc.1) : Inv (atomicAt aop size key ia slot acc l).1 :=
  .clearShadow (.ite hacc hacc.writeMem)

theorem Inv.performAt {dev q key slot} (h : Inv s) : Inv (performAt dev q key slot s).1 := by
  unfold Machine.performAt
  split
  · exact h
  · exact h.writeMem.clearShadow
  · exact h.dropLine.clearShadow
  · split
    · exact h
    · dsimp only
      refine .foldl_fst ?_ (fun _ _ ht => ht.atomicAt)
      exact h
  · exact h
  · exact h

theorem Inv.serve {dev q} (h : Inv s) : ServedInv (serve dev q s) := by
  unfold Machine.serve
  split
  · exact h
  · split
    · exact h
    · split
      · trivial
      · split
        · trivial
        · split
          · exact Inv.of_fst ‹_› h.walkXlate
          · exact (Inv.of_fst ‹_› h.walkXlate).performAt

theorem Inv.answerReq {dev q code vals} (h : Inv s) : Inv (answerReq dev q code vals s) := .ite h (.sendFlit h)

theorem Inv.keepHeld {dev q} (h : Inv s) : Inv (keepHeld dev q s) := .ite h h.modPeer

theorem Inv.dropHeld {dev q} (h : Inv s) : Inv (dropHeld dev q s) := .ite h.modPeer h

theorem Inv.noteAnswer {dev q code vals} (h : Inv s) : Inv (noteAnswer dev q code vals s) := h.dropHeld.modPeer

theorem Inv.requestAt {dev q} (h : Inv s) : Inv (requestAt dev q s) := by
  unfold Machine.requestAt
  dsimp only
  split
  · exact h.modDev
  · split
    · exact h.noteAnswer.answerReq
    · split
      · refine .answerReq ?_
        split
        · exact h
        · exact h.noteAnswer
      · split
        · exact h.answerReq
        · split
          · exact h.keepHeld
          · have hs := h.serve (dev := dev) (q := q)
            split <;> rename_i e <;> rw [e] at hs
            · exact h.keepHeld
            · exact h.dropHeld.modPeer.answerReq
            · exact Inv.answerReq (Inv.noteAnswer hs)

theorem Inv.breakBarrier {pod i} (h : Inv s) : Inv (breakBarrier pod s i) :=
  .ite (.foldl h fun _ _ ht => ht.takeTrap) h

theorem Inv.breakBarriers {pod} (h : Inv s) : Inv (breakBarriers pod s) := h.foldl fun _ _ ht => ht.breakBarrier

theorem Inv.lostPeer {dev pod} (h : Inv s) : Inv (lostPeer dev pod s) := h.breakBarriers.failColls

theorem Inv.execPodTimeout {dev peer} (h : Inv s) : NextInv (execPodTimeout dev peer s) := by
  unfold Machine.execPodTimeout
  dsimp only
  split
  · exact .next (h.dropPod.modPeer.foldl fun _ _ ht => ht.remoteFinish).lostPeer
  · exact .next h

theorem Inv.refuseOld {dev pod} (h : Inv s) : Inv (refuseOld dev pod s) :=
  h.foldl fun _ _ ht => .refuseRstv (.dropRstv (.ite ht ht.noteResult))

theorem Inv.joinFrom {dev peer incarn} (h : Inv s) : Inv (joinFrom dev peer incarn s) := by
  unfold Machine.joinFrom
  dsimp only
  split
  · exact h
  · exact (h.dropPod.modPeer.dropOld.foldl fun _ _ ht => ht.remoteFinish).refuseOld.newSequences.lostPeer

theorem Inv.startShoot {dev} (h : Inv s) : Inv (startShoot dev s) := by
  unfold Machine.startShoot
  dsimp only
  repeat' split
  exacts [h, h.modDev.foldl fun _ _ ht => ht.sendFlit, h]

theorem Inv.execSdgoWrite (h : Inv s) : NextInv (execSdgoWrite s) := by
  unfold Machine.execSdgoWrite
  dsimp only
  split
  · exact .next h
  · exact .next h.modDev.startShoot

theorem Inv.hubWord {dev asid ia v} (h : Inv s) : Inv (hubWord dev asid ia v s) := by
  unfold Machine.hubWord
  split
  · exact h.iaWrite _ ‹_›
  · exact h.sinkFault

theorem Inv.endShoot {dev v} (h : Inv s) : Inv (endShoot dev v s) := by
  unfold Machine.endShoot
  split
  · exact h
  · exact h.modDev.hubWord.startShoot

theorem Inv.execShootDownDrained (h : Inv s) : NextInv (execShootDownDrained s) := by
  unfold Machine.execShootDownDrained
  dsimp only
  repeat' split
  exacts [.next h, .next h, .next (.sendFlit h), .next h.modDev.ackFrom]

theorem Inv.execShootDownComplete (h : Inv s) : NextInv (execShootDownComplete s) := by
  unfold Machine.execShootDownComplete
  repeat' split
  exacts [.next h, .next h.endShoot, .next h]

theorem Inv.execShootDownTimeout {dev silent} (h : Inv s) : NextInv (execShootDownTimeout dev silent s) := by
  unfold Machine.execShootDownTimeout
  dsimp only
  repeat' split
  exacts [.next h, .next (h.foldl fun _ _ ht => ht.modPeer.lostPeer).endShoot, .next h]

/-! ### Swatch operations -/

theorem Inv.swatchWord {w i refs} (h : Inv s) : NextInv (swatchWord w i refs s) := by
  unfold Machine.swatchWord
  refine h.runWord (.sourcedMeaning fun x m t ht => ?_)
  split
  · exact ht.produceLater
  · dsimp only [State.fresh]
    exact .produceLater (.pushSw ht)

theorem Inv.sendSw {core o kind va pod ia n data did} (h : Inv s) : Inv (sendSw core o kind va pod ia n data did s) :=
  h.newRequest

theorem Inv.sendPuts {core o l} (h : Inv s) : Inv (sendPuts core o l s) := by
  unfold Machine.sendPuts
  refine .foldl h fun t a ht => ?_
  split
  · exact ht.sendSw
  · exact ht

theorem Inv.linkFault {o va} (h : Inv s) : Inv (linkFault o va s) := h.post

theorem Inv.popSw {core o v} (h : Inv s) : Inv (popSw core o v s) := by
  unfold Machine.popSw
  dsimp only
  refine .reapTeam (.fencesOf ?_)
  refine .engineEnd ?_
  split
  · exact h
  · exact h.modCore

theorem Inv.finishSw {core o st count va} (h : Inv s) : Inv (finishSw core o st count va s) :=
  .popSw (.ite h.linkFault h)

theorem Inv.settleSw {core} (h : Inv s) : Inv (settleSw core s) := by
  unfold Machine.settleSw
  split
  · exact h
  · split
    · exact h
    · split
      · exact h
      · split
        · exact h.finishSw
        · split
          · split
            · exact h.finishSw
            · exact h
          · exact h.finishSw

theorem Inv.setParams {core o q} (h : Inv s) : Inv (setParams core o q s) := h.modOwner.modCore

/-- A computation of the swatch engine keeps the canonical form of its state, whether it ends or stops. -/
def SwKeeps {α : Type} (m : SwM α) : Prop := ∀ r : SwRun, Inv r.s → Inv (m.run r).2.s

theorem SwKeeps.pure {α : Type} {a : α} : SwKeeps (pure a) := fun _ h => h

theorem SwKeeps.throw {α : Type} {e : SwStop} : SwKeeps (throw e : SwM α) := fun _ h => h

theorem SwKeeps.bind {α β : Type} {m : SwM α} {f : α → SwM β} (hm : SwKeeps m) (hf : ∀ a, SwKeeps (f a)) :
    SwKeeps (m >>= f) := by
  intro r h
  have h1 := hm r h
  rw [ExceptT.run_bind]
  rcases e : m.run r with ⟨a | a, r1⟩ <;> rw [e] at h1 <;> simp only [Bind.bind, StateT.bind, e]
  · exact h1
  · exact hf a r1 h1

theorem SwKeeps.get {α : Type} {f : SwRun → SwM α} (hf : ∀ r, Inv r.s → SwKeeps (f r)) : SwKeeps (get >>= f) :=
  fun r h => hf r h r h

theorem SwKeeps.set {r : SwRun} (h : Inv r.s) : SwKeeps (set r) := fun _ _ => h

theorem SwKeeps.modify {f : SwRun → SwRun} (hf : ∀ r, Inv r.s → Inv (f r).s) : SwKeeps (modify f) :=
  fun r h => hf r h

theorem SwKeeps.readPiece {cx va n} : SwKeeps (readPiece cx va n) := by
  unfold Machine.readPiece
  refine .get fun r hr => ?_
  split
  · exact .throw
  · split
    · exact .pure
    · exact .throw
  · split
    · exact .throw
    · split
      · exact .bind (.set (.of_fst ‹_› hr.homeRead)) fun _ => .pure
      · exact .throw

theorem SwKeeps.readPieces {cx l} : SwKeeps (readPieces cx l) := by
  induction l with
  | nil => exact .pure
  | cons e l ih => exact .bind .readPiece fun _ => .bind ih fun _ => .pure

theorem SwKeeps.swRead {cx va n} : SwKeeps (swRead cx va n) := .readPieces

theorem SwKeeps.writePiece {core cx va b} : SwKeeps (writePiece core cx va b) := by
  unfold Machine.writePiece
  refine .get fun r hr => ?_
  split
  · exact .throw
  · exact .set hr
  · split
    · exact .throw
    · split
      · exact .set (.of_fst ‹_› hr.homeWrite)
      · exact .throw

theorem SwKeeps.writePieces {core cx l b} : SwKeeps (writePieces core cx l b) := by
  induction l generalizing b with
  | nil => exact .pure
  | cons e l ih => exact .bind .writePiece fun _ => ih

theorem SwKeeps.swWrite {core cx va b} : SwKeeps (swWrite core cx va b) := .writePieces

theorem SwKeeps.swDid {n} : SwKeeps (swDid n) := .modify fun _ h => h

theorem SwKeeps.rdCell {e base i} : SwKeeps (rdCell e base i) := .bind .swRead fun _ => .pure

theorem SwKeeps.wrCell {e base i c} : SwKeeps (wrCell e base i c) := .swWrite

theorem SwKeeps.addPair {e base side k v l} : SwKeeps (addPair e base side k v l) := by
  induction l with
  | nil => exact .pure
  | cons i l ih => exact .bind .rdCell fun _ => .bind .wrCell fun _ => ih

theorem SwKeeps.aligned32 {l} : SwKeeps (aligned32 l) := by
  induction l with
  | nil => exact .pure
  | cons a l ih =>
    unfold Machine.aligned32
    split
    · exact ih
    · exact .throw

theorem SwKeeps.rdPair {e va} : SwKeeps (rdPair e va) := .bind .swRead fun _ => .pure

theorem SwKeeps.wrPair {e va p} : SwKeeps (wrPair e va p) := .swWrite

theorem SwKeeps.rdNum {e va} : SwKeeps (rdNum e va) := .bind .swRead fun _ => .pure

theorem SwKeeps.zeroCells {e base l} : SwKeeps (zeroCells e base l) := by
  induction l with
  | nil => exact .pure
  | cons i l ih => exact .bind .wrCell fun _ => ih

theorem SwKeeps.insertAll {e table base l} : SwKeeps (insertAll e table base l) := by
  induction l with
  | nil => exact .pure
  | cons i l ih => exact .bind .rdPair fun _ => .bind .addPair fun _ => .bind .swDid fun _ => ih

theorem SwKeeps.runBuild {e table base} : SwKeeps (runBuild e table base) :=
  .bind .aligned32 fun _ => .bind .zeroCells fun _ => .bind .rdNum fun _ => .insertAll

theorem SwKeeps.runSend {e src dst l} : SwKeeps (runSend e src dst l) := by
  induction l with
  | nil => exact .pure
  | cons i l ih => exact .bind .swRead fun _ => .bind .swWrite fun _ => .bind .swDid fun _ => ih

theorem SwKeeps.runDiff {e a b l} : SwKeeps (runDiff e a b l) := by
  induction l with
  | nil => exact .pure
  | cons i l ih => exact .bind .rdCell fun _ => .bind .rdCell fun _ => .bind .wrCell fun _ => .bind .swDid fun _ => ih

theorem SwKeeps.peelPass {e base list cap n l} : SwKeeps (peelPass e base list cap n l) := by
  induction l generalizing n with
  | nil => exact .pure
  | cons c l ih =>
    refine .bind .rdCell fun x => ?_
    split
    · split
      · exact .bind .throw fun _ => .bind .swWrite fun _ => .bind .swDid fun _ => .bind .addPair fun _ => ih
      · exact .bind .swWrite fun _ => .bind .swDid fun _ => .bind .addPair fun _ => ih
    · exact ih

theorem SwKeeps.peelPasses {e base list cap k n} : SwKeeps (peelPasses e base list cap k n) := by
  induction k generalizing n with
  | zero => exact .pure
  | succ k ih =>
    refine .bind .peelPass fun n1 => ?_
    split
    · exact .pure
    · exact ih

theorem SwKeeps.countLeft {e base l} : SwKeeps (countLeft e base l) := by
  induction l with
  | nil => exact .pure
  | cons i l ih => exact .bind .rdCell fun _ => .bind ih fun _ => .pure

theorem SwKeeps.runPeel {e o} : SwKeeps (runPeel e o) := by
  refine .bind .aligned32 fun _ => .bind .peelPasses fun n => .bind .countLeft fun left => ?_
  split
  · exact .bind (.modify fun _ h => h.post) fun _ => .throw
  · exact .pure

theorem SwKeeps.findEntry {e table f l} : SwKeeps (findEntry e table f l) := by
  induction l with
  | nil => exact .pure
  | cons i l ih =>
    refine .bind .rdPair fun p => ?_
    split
    · exact .pure
    · exact ih

theorem SwKeeps.applyEntry {e mirror table p side} : SwKeeps (applyEntry e mirror table p side) := by
  unfold Machine.applyEntry
  split
  · refine .bind .rdNum fun n => .bind .findEntry fun i => ?_
    split
    · exact .wrPair
    · refine .bind .rdNum fun m => ?_
      split
      · exact .bind .throw fun _ => .bind .wrPair fun _ => .swWrite
      · exact .bind .wrPair fun _ => .swWrite
  · split
    · split
      · refine .bind .rdNum fun n => .bind .findEntry fun i => ?_
        split
        · exact .bind .rdPair fun _ => .bind .wrPair fun _ => .swWrite
        · exact .pure
      · exact .pure
    · exact .throw

theorem SwKeeps.applyAll {e mirror list table l} : SwKeeps (applyAll e mirror list table l) := by
  induction l with
  | nil => exact .pure
  | cons i l ih => exact .bind .swRead fun _ => .bind .applyEntry fun _ => .bind .swDid fun _ => ih

theorem SwKeeps.runSwatch {e o} : SwKeeps (runSwatch e o) := by
  unfold Machine.runSwatch
  split
  · exact .runBuild
  · exact .bind .aligned32 fun _ => .runSend
  · exact .bind .aligned32 fun _ => .runDiff
  · exact .runPeel
  · exact .applyAll

theorem SwKeeps.runSalts {cx o} : SwKeeps (runSalts cx o) := by
  unfold Machine.runSalts
  split
  · exact .bind .throw fun _ => .bind .swRead fun _ => .pure
  · exact .bind .swRead fun _ => .pure

theorem Inv.stepSize {core o} (h : Inv s) : Inv (stepSize core o s) := by
  unfold Machine.stepSize
  extract_lets cx fail
  have hf : ∀ {va t}, Inv t → Inv (fail va t) := fun ht => (Inv.setParams ht.linkFault).popSw
  split
  · exact hf h
  · have hr := SwKeeps.runSalts (cx := cx) (o := o) { s := s, got := o.got } h
    split <;> rename_i e <;> rw [e] at hr
    · exact hr.setParams.popSw
    · exact h.setSw.sendSw
    · exact hf hr
    · exact h

theorem Inv.stepSw {core o q} (h : Inv s) : Inv (stepSw core o q s) := by
  unfold Machine.stepSw
  extract_lets close
  have hc : ∀ {r st va}, Inv r.s → Inv (close r st va) := fun hr => hr.setSw.sendPuts.settleSw
  have hr := SwKeeps.runSwatch (e := { core := core, cx := s.ctx o.owner.ctx, q := q }) (o := o) { s := s, got := o.got } h
  generalize (runSwatch { core := core, cx := s.ctx o.owner.ctx, q := q } o).run { s := s, got := o.got } = p at hr ⊢
  split
  exacts [hc hr, hc hr, h.setSw.sendSw, h, hc hr, hc hr]

theorem Inv.execSwatchOpComplete {core} (h : Inv s) : NextInv (execSwatchOpComplete core s) := by
  unfold Machine.execSwatchOpComplete
  repeat' split
  exacts [.next h, .next h, .next h.settleSw, .next h.stepSize, .next h.finishSw, .next h.stepSw]

theorem Inv.execSwsendNotice {core} (h : Inv s) : NextInv (execSwsendNotice core s) := by
  unfold Machine.execSwsendNotice
  dsimp only
  repeat' split
  exacts [.next h, .next h.setSw.modOwner.sendRstv, .next h]

/-! ### Collectives -/

theorem Inv.collRead {cx va n} (h : Inv s) : Inv (collRead cx va n s).1 := by
  unfold Machine.collRead
  split
  · exact h
  · split
    · split <;> exact .of_fst ‹_› h.homeRead
    · exact h

theorem Inv.collWrite {core cx va b} (h : Inv s) : Inv (collWrite core cx va b s).1 := by
  unfold Machine.collWrite
  split
  · exact h
  · split
    · split <;> exact .of_fst ‹_› h.homeWrite
    · exact h

theorem Inv.finishColl {core o status info} (h : Inv s) : Inv (finishColl core o status info s) :=
  .reapTeam (.fencesOf (.modCore (.modOwner (.ite h.engineEnd.collWrite.post h.engineEnd.collWrite))))

theorem Inv.ownContrib {o d} (h : Inv s) : Inv (ownContrib o d s).1 := by
  unfold Machine.ownContrib
  dsimp only
  repeat' split
  exacts [.of_fst ‹_› h.collRead, .of_fst ‹_› (.collRead (.of_fst ‹_› h.collRead)),
    .of_fst ‹_› (.collRead (.of_fst ‹_› h.collRead))]

theorem Inv.writeColl {core o order cs d} (h : Inv s) : Inv (writeColl core o order cs d s).1 := by
  unfold Machine.writeColl
  dsimp only
  repeat' split
  exacts [.of_fst ‹_› h.collWrite, .of_fst ‹_› (.collWrite (.of_fst ‹_› h.collWrite)),
    .of_fst ‹_› (.collWrite (.of_fst ‹_› h.collWrite))]

theorem Inv.performColl {core o r d} (h : Inv s) : Inv (performColl core o r d s) := by
  unfold Machine.performColl
  split
  · exact .finishColl (.of_fst ‹_› h.ownContrib)
  · exact .finishColl (.writeColl (.of_fst ‹_› h.ownContrib))

theorem Inv.sendPart {dev l g num rank c} (h : Inv s) : Inv (sendPart dev l g num rank c s) :=
  h.foldl fun _ _ ht => ht.foldl fun _ _ ht1 => ht1.sendFlit

theorem Inv.groupColl {core o d l r} (h : Inv s) : Inv (groupColl core o d l r s) := by
  unfold Machine.groupColl
  dsimp only
  split
  · exact h.endPart.finishColl
  · split
    · exact h.endPart.finishColl
    · split
      · exact h
      · split
        · exact h.endPart.finishColl
        · exact h.writeColl.endPart.finishColl

theorem Inv.sendHead {core o d l} (h : Inv s) : Inv (sendHead core o d l s) := by
  unfold Machine.sendHead
  dsimp only
  split
  · exact h
  · exact h.modCore.sendPart

theorem Inv.execCollectiveComplete {core r} (h : Inv s) : NextInv (execCollectiveComplete core r s) := by
  unfold Machine.execCollectiveComplete
  split
  · exact .next h
  · split
    · exact .next h
    · split
      · exact .next (.finishColl (.of_fst ‹_› h.collRead))
      · next s1 b e =>
        have h1 : Inv s1 := .of_fst e h.collRead
        extract_lets d l
        refine .ite (.next h) (.ite (.next (.ite h1.sendHead h1.groupColl)) (.ite (.next h1.finishColl) ?_))
        split
        · exact .next h1.finishColl
        · exact .next h1.performColl

/-! ### Course images -/

theorem Inv.writeImage {key c co chans} (h : Inv s) : Inv (writeImage key c co chans s) :=
  h.foldl fun _ _ ht => ht.imageWrite

theorem Inv.postPoison {co} (h : Inv s) : Inv (postPoison co s) := h.foldl fun _ _ ht => ht.post

/-! ### Team records -/

theorem Inv.writeTeam {tid t y} (h : Inv s) : Inv (writeTeam tid t y s) := h.foldl fun _ _ ht => ht.recordPut

theorem Inv.saveTeam {tid} (h : Inv s) : Inv (saveTeam tid s) := by
  unfold Machine.saveTeam
  split
  · exact h
  · exact .writeTeam (.modCore h)

theorem Inv.restoreTeam {tid core p l} (h : Inv s) : Inv (restoreTeam tid core p l s) := by
  unfold Machine.restoreTeam
  split
  · exact .modTeam (.modCore h)
  · exact h

/-! ### Save and resume -/

theorem Inv.settleTeams {core} (h : Inv s) : Inv (settleTeams core s) := h.foldl fun _ _ ht => .ite ht.saveTeam ht

theorem Inv.execCourseSaveComplete {c} (h : Inv s) : NextInv (execCourseSaveComplete c s) := by
  unfold Machine.execCourseSaveComplete
  split
  · exact .next h.settleTeams
  · split
    · exact .next h.settleTeams
    · extract_lets key mine chans y s1 s2 r
      have h1 : Inv s1 := h.writeImage.postPoison
      have h2 : Inv s2 := h1
      exact .next (.settleTeams (.setSlot (.journal h2)))

theorem Inv.forwardTo {name core} (h : Inv s) : Inv (forwardTo name core s) :=
  .ite h (.foldl (.modCore h) fun _ _ ht => ht.tellHub)

theorem Inv.returnWork {c} (h : Inv s) : Inv (returnWork c s) := by
  unfold Machine.returnWork
  split
  · exact h
  · exact .forwardTo (.modCore h)

theorem Inv.bindSaved {c key v b} (h : Inv s) : Inv (bindSaved c key v b s) := by
  unfold Machine.bindSaved
  dsimp only
  split
  · exact .returnWork (.freshL1 (.rehome (.returnFromStop (.renumber h))))
  · exact .freshL1 (.rehome (.returnFromStop (.renumber h)))

theorem Inv.saveCorrupt {c va v} (h : Inv s) : Inv (saveCorrupt c va v s) := h.post.setSlot

theorem Inv.refuseBind {c} (h : Inv s) : Inv (refuseBind c s) := h.postMlog.setSlot

theorem Inv.restoreFirst {tid t core p} (h : Inv s) : SomeInv (restoreFirst tid t core p s) := by
  unfold Machine.restoreFirst
  repeat' split
  exacts [.some h, .some h.restoreTeam, .none, .none]

theorem Inv.resumeBound {c save v t q} (h : Inv s) : Inv (resumeBound c save v t q s) := by
  unfold Machine.resumeBound
  dsimp only
  split
  · exact h.refuseBind
  · split
    · exact h.saveCorrupt
    · exact h.saveCorrupt
    · exact .ite h.saveCorrupt (h.restoreFirst _ ‹_›).bindSaved.setSlot.tidy

theorem Inv.execCourseResume {c save p} (h : Inv s) : NextInv (execCourseResume c save p s) := by
  unfold Machine.execCourseResume
  dsimp only
  repeat' split
  exacts [.next h, .next h, .next h, .next h, .next h.journal.setSlot.resumeBound]

/-! ### Queues and launches -/

theorem Inv.execKickWrite {dev j v} (h : Inv s) : NextInv (execKickWrite dev j v s) := .next h.modDev

theorem Inv.overrun {dev q head tail e} (h : Inv s) : Inv (overrun dev q head tail e s) :=
  .postMlog (.getD h.iaWrite h)

theorem Inv.takeQueue {dev q} (h : Inv s) : Inv (takeQueue dev q s) := by
  unfold Machine.takeQueue
  refine .getD (.bind fun die _ => .bind fun e _ => .bind fun ctx _ => ?_) h
  extract_lets n
  refine .bind fun head _ => .bind fun tail _ => ?_
  extract_lets hd tl
  split
  · exact .some h.overrun
  · split
    · exact .some h
    · exact .bind fun l _ => .bind fun s1 e => .some (h.journal.iaWrite _ e).modDev

theorem Inv.execQueueScan {dev q} (h : Inv s) : NextInv (execQueueScan dev q s) := by
  unfold Machine.execQueueScan
  dsimp only
  repeat' split
  exacts [.next h, .next h, .next h.modDev.takeQueue]

theorem Inv.startTeam {lid l panel teamid p} (h : Inv s) : Inv (startTeam lid l panel teamid p s) := by
  unfold Machine.startTeam
  split
  next tid s0 e =>
  have h0 : Inv s0 := .of_snd e h
  extract_lets part gen r fits tm s1 s2
  have h1 : Inv s1 := by
    unfold s1
    split <;> exact h0
  have h2 : Inv s2 := by
    unfold s2
    split <;> exact h1
  refine h2.foldl fun u e hu => ?_
  extract_lets c rec_ s3
  have h3 : Inv s3 := hu
  split <;> exact h3

theorem Inv.nameMembers {dev plan} (h : Inv s) : Inv (nameMembers dev plan s).2 := by
  unfold Machine.nameMembers
  refine .foldl_snd ?_ fun p a ht => ?_
  · exact h
  · exact .foldl_snd ht fun _ _ ht1 => ht1

theorem Inv.admitPanel {lid l sc n first plan} (h : Inv s) : Inv (admitPanel lid l sc n first plan s) := by
  unfold Machine.admitPanel
  dsimp only [State.fresh]
  split
  · exact h
  · exact .startTeam (.nameMembers h)

theorem Inv.placeNext {lid} (h : Inv s) : SomeInv (placeNext lid s) := by
  unfold Machine.placeNext
  dsimp only
  repeat' split
  exacts [.none, .none, .some (.startTeam h), .none, .some (.admitPanel h), .none]

theorem Inv.placeMany {lid n} (h : Inv s) : Inv (placeMany lid n s) := by
  induction n generalizing s with
  | zero => exact h
  | succ n ih =>
    unfold Machine.placeMany
    split
    · exact ih (h.placeNext _ ‹_›)
    · exact h

theorem Inv.writeDone {ctx done queue seq value} (h : Inv s) : Inv (writeDone ctx done queue seq value s) := by
  unfold Machine.writeDone
  split
  · exact h.devWriteVa _ ‹_›
  · exact h.sinkFault

theorem Inv.demotePages {dev ctx f end_ n ia} (h : Inv s) : Inv (demotePages dev ctx f end_ n ia s) := by
  induction n generalizing ia s with
  | zero => exact h
  | succ n ih =>
    unfold Machine.demotePages
    split
    · exact h
    · split
      · refine ih ?_
        split
        · exact h.modMig
        · exact h
      · exact ih h

theorem Inv.demote {dev ctx n l} (h : Inv s) : Inv (demote dev ctx n l s) := by
  induction n generalizing l s with
  | zero => exact h
  | succ n ih =>
    unfold Machine.demote
    split
    · exact h
    · exact ih h.demotePages

theorem Inv.createLaunch {dev m r y} (h : Inv s) : Inv (createLaunch dev m r y s) := by
  unfold Machine.createLaunch
  dsimp only [State.fresh]
  exact .placeMany (.noteHandles (.demote h))

theorem Inv.execCommandLaunch {dev r} (h : Inv s) : NextInv (execCommandLaunch dev r s) := by
  unfold Machine.execCommandLaunch
  dsimp only
  repeat' split
  exacts [.next h, .next h, .next h.modDev.writeDone, .next h.modDev.createLaunch, .next h]

theorem Inv.execCommandNop (h : Inv s) : NextInv (execCommandNop s) := by
  unfold Machine.execCommandNop
  dsimp only
  repeat' split
  exacts [.next h, .next h, .next h.modDev]

theorem Inv.execPanelMemberStart {panel p} (h : Inv s) : NextInv (execPanelMemberStart panel p s) := by
  unfold Machine.execPanelMemberStart
  dsimp only
  repeat' split
  exacts [.next h, .next h.startTeam, .next h, .next h]

theorem Inv.resumeRecorded {c r} (h : Inv s) : Inv (resumeRecorded c r s) := by
  unfold Machine.resumeRecorded
  dsimp only
  repeat' split
  exacts [h.refuseBind, h.refuseBind, h.resumeBound]

theorem Inv.execCourseBind {c} (h : Inv s) : NextInv (execCourseBind c s) := by
  unfold Machine.execCourseBind
  extract_lets s1 e
  have h1 : Inv s1 := .ite h (.getD (.bind fun _ _ => h.placeNext) h)
  repeat' split
  exacts [.next h, .next h1.resumeRecorded, .next h1.refuseBind, .next h1.refuseBind, .next h1.refuseBind, .next h1.refuseBind,
    .next h1.setCourse.setSlot]

theorem Inv.noteDone {lid l} (h : Inv s) : Inv (noteDone lid l s) := by
  unfold Machine.noteDone
  split
  · exact .modDev h
  · exact h

theorem Inv.execLaunchComplete {launch} (h : Inv s) : NextInv (execLaunchComplete launch s) := by
  unfold Machine.execLaunchComplete
  dsimp only
  repeat' split
  exacts [.next h, .next h, .next h, .next h.journal.writeDone.noteDone]

/-! ### Contexts and keys -/

theorem Inv.headCmd {code} (h : Inv s) : SomeSndInv (headCmd s code) := by
  unfold Machine.headCmd
  repeat' split
  exacts [.none, .some h.modDev, .none]

theorem Inv.cmdStatus {dev desc v} (h : Inv s) : Inv (cmdStatus dev desc v s) := .getD h.iaWrite h

theorem Inv.fixMode {m} (h : Inv s) : Inv (fixMode m s) := .ite h (.foldl h fun _ _ ht => ht.loadPlan)

theorem Inv.execContextCreate (h : Inv s) : NextInv (execContextCreate s) := by
  unfold Machine.execContextCreate
  split
  · exact .next h
  · next e =>
    have h1 := h.headCmd _ _ e
    repeat' split
    exacts [.next h1, .next h1.cmdStatus, .next (.cmdStatus (.fixMode h1))]

theorem Inv.refuseWaiting {ctx} (h : Inv s) : Inv (refuseWaiting ctx s) := by
  unfold Machine.refuseWaiting
  extract_lets s1 dev lost l
  have h1 : Inv s1 := h.foldl fun t a ht => .writeDone ht
  split
  · exact h1
  · exact h1.modDev.foldl fun _ _ ht => ht.writeDone

theorem Inv.execContextUpdate (h : Inv s) : NextInv (execContextUpdate s) := by
  unfold Machine.execContextUpdate
  dsimp only
  repeat' split
  exacts [.next h, .next (h.headCmd _ _ ‹_›), .next (h.headCmd _ _ ‹_›).cmdStatus,
    .next (h.headCmd _ _ ‹_›).modCtx.dropWindow.refuseWaiting.cmdStatus]

theorem Inv.purge {ctx} (h : Inv s) : Inv (purge ctx s) := .modDev (.foldl h fun _ _ ht => ht.endTeam)

theorem Inv.freeFences (h : Inv s) : Inv (freeFences s) := h.foldl fun _ _ ht => ht.fencesOf

theorem Inv.execContextDestroy (h : Inv s) : NextInv (execContextDestroy s) := by
  unfold Machine.execContextDestroy
  dsimp only
  repeat' split
  exacts [.next h, .next (h.headCmd _ _ ‹_›), .next (h.headCmd _ _ ‹_›).cmdStatus,
    .next (h.headCmd _ _ ‹_›).purge.dropWindow.freeFences.modDev.cmdStatus]

/-! ### Hub events -/

theorem Inv.headMap {code} (h : Inv s) : SomeSndInv (headMap s code) := by
  unfold Machine.headMap
  repeat' split
  exacts [.none, .some h.modDev, .none]

theorem Inv.moveOn {dev ia l at_} (h : Inv s) (ht : Inv t) : Inv (moveOn dev ia l at_ s t) := by
  unfold Machine.moveOn
  split
  · exact ht.modDev
  · exact h.modDev.hubWord

theorem Inv.execMapMove (h : Inv s) : NextInv (execMapMove s) := by
  unfold Machine.execMapMove
  split
  · exact .next h
  · next e =>
    have h1 := h.headMap _ _ e
    extract_lets old
    repeat' split
    exacts [.next h, .next (h1.moveOn h), .next h1.hubWord, .next (h1.moveOn h)]

theorem Inv.execMapSwitch (h : Inv s) : NextInv (execMapSwitch s) := by
  unfold Machine.execMapSwitch
  dsimp only
  repeat' split
  exacts [.next h, .next h, .next (h.headMap _ _ ‹_›).hubWord, .next (h.headMap _ _ ‹_›).modDev.hubWord]

theorem Inv.execDrainMarker {dev fromDie toDie} (h : Inv s) : NextInv (execDrainMarker dev fromDie toDie s) := by
  unfold Machine.execDrainMarker
  split
  · exact .next h
  · exact .next h.modDev

theorem Inv.headKey {code} (h : Inv s) : SomeSndInv (headKey s code) := by
  unfold Machine.headKey
  repeat' split
  exacts [.none, .some h.modDev, .none]

theorem Inv.execKlEstablish (h : Inv s) : NextInv (execKlEstablish s) := by
  unfold Machine.execKlEstablish
  repeat' split
  exacts [.next h, .next (h.headKey _ _ ‹_›).modDev, .next (h.headKey _ _ ‹_›).modDev]

theorem Inv.rekeyLines {dev slot old new} (h : Inv s) : Inv (rekeyLines dev slot old new s) := by
  unfold Machine.rekeyLines
  exact h.foldl fun _ _ ht => ht.writeN

theorem Inv.execKlLoad (h : Inv s) : NextInv (execKlLoad s) := by
  unfold Machine.execKlLoad
  dsimp only
  repeat' split
  exacts [.next h, .next (h.headKey _ _ ‹_›).modDev, .next (h.headKey _ _ ‹_›).rekeyLines.modDev]

theorem Inv.execNoteappRead (h : Inv s) : NextInv (execNoteappRead s) := by
  unfold Machine.execNoteappRead
  split <;> exact .next h

theorem Inv.execNotehostRead (h : Inv s) : NextInv (execNotehostRead s) := by
  unfold Machine.execNotehostRead
  split <;> exact .next h

theorem Inv.execTelemetryUpdate {dev asid} (h : Inv s) : NextInv (execTelemetryUpdate dev asid s) := by
  unfold Machine.execTelemetryUpdate
  dsimp only
  split
  · exact .next h
  · split
    · exact .next h
    · split
      · exact .next (h.devWriteAs _ ‹_›).modCtx
      · exact .next h.modCtx.sinkFault

theorem Inv.execWayallWrite {die cls v} (h : Inv s) : NextInv (execWayallWrite die cls v s) := .next h.modDie

/-! ### Loss and take-over of the scheduler -/

theorem Inv.execHeartbeatWrite {die v} (h : Inv s) : NextInv (execHeartbeatWrite die v s) := by
  unfold Machine.execHeartbeatWrite
  split
  · exact .next h.modDie
  · exact .next h

theorem Inv.loseScheduler {die} (h : Inv s) : Inv (loseScheduler die s) := .ite h.modDie h.modDie.postMlog

theorem Inv.execHeartbeatTimeout {die} (h : Inv s) : NextInv (execHeartbeatTimeout die s) := by
  unfold Machine.execHeartbeatTimeout
  split
  · exact .next h.loseScheduler
  · exact .next h

theorem Inv.execSchedulerUe {die} (h : Inv s) : NextInv (execSchedulerUe die s) := by
  unfold Machine.execSchedulerUe
  split
  · exact .next h.loseScheduler
  · exact .next h

theorem Inv.cutEffect {i die done} (h : Inv s) (ht : Inv t) : Inv (cutEffect i die done s t) := by
  unfold Machine.cutEffect
  dsimp only
  split
  · exact ht
  · exact .ite ht.modDie (.ite (.modDie ht) h.modDie)

theorem Inv.cutEvent {i die done r} (h : Inv s) (hr : NextInv r) : NextInv (cutEvent i die done s r) := by
  unfold Machine.cutEvent
  split
  · split
    · exact .next (h.cutEffect (hr _ rfl)).loseScheduler
    · exact .next h
  · exact hr

theorem Inv.replayHead {dev q head} (h : Inv s) : Inv (replayHead dev q head s) := by
  unfold Machine.replayHead
  refine .getD ?_ h
  refine .bind fun e _ => .bind fun w _ => ?_
  split
  · exact .some h
  · exact h.iaWrite

theorem Inv.replayEntry {die e} (h : Inv s) : Inv (replayEntry die s e) := by
  unfold Machine.replayEntry
  dsimp only
  split
  · exact h.replayHead
  · exact .ite h.setSlot h
  · exact .ite h.unbindSlot h
  · exact h.writeDone
  · exact h

theorem Inv.drainFifo {die} (h : Inv s) : Inv (drainFifo die s) := by
  unfold Machine.drainFifo
  refine .foldl h.modDie fun t e ht => ?_
  split
  · exact ht
  · exact ht.countEnd

theorem Inv.rescan {dev} (h : Inv s) : Inv (rescan dev s) := h.foldl fun _ _ ht => ht.takeQueue

theorem Inv.execSchedulerTakeover {die} (h : Inv s) : NextInv (execSchedulerTakeover die s) := by
  unfold Machine.execSchedulerTakeover
  dsimp only
  split
  · exact .next h
  · exact .next (h.modDie.foldl fun _ _ ht => ht.replayEntry).modDie.drainFifo.rescan.postMlog

theorem Inv.haltCourse {c quiesce} (h : Inv s) : Inv (haltCourse c quiesce s) := by
  unfold Machine.haltCourse
  split
  · exact h
  · exact h.modCourse.modCtx

theorem Inv.execDebugHalt {c} (h : Inv s) : NextInv (execDebugHalt c s) := .next h.haltCourse

theorem Inv.execDebugHaltQuiesce {c} (h : Inv s) : NextInv (execDebugHaltQuiesce c s) := .next h.haltCourse

theorem Inv.execDebugResume {c} (h : Inv s) : NextInv (execDebugResume c s) := .next (.ite h.modCourse h)

theorem Inv.stepCourse {c kind} (h : Inv s) : Inv (stepCourse c kind s) := .ite h.modCourse h

theorem Inv.execDebugStep {c} (h : Inv s) : NextInv (execDebugStep c s) := .next h.stepCourse

theorem Inv.execDebugStepWait {c} (h : Inv s) : NextInv (execDebugStepWait c s) := .next h.stepCourse

theorem Inv.execDebugReadLs {c off} (h : Inv s) : NextInv (execDebugReadLs c off s) := by
  unfold Machine.execDebugReadLs
  dsimp only
  repeat' split
  all_goals exact .next h.modCore

theorem Inv.debugCommand {core v} (h : Inv s) : NextInv (debugCommand core v s) := by
  unfold Machine.debugCommand
  dsimp only
  repeat' split
  exacts [h.execDebugHalt, h.execDebugHaltQuiesce, h.execDebugResume, h.execDebugStep, h.execDebugStepWait,
    h.execDebugReadLs, .next h]

/-! ### Register window -/

theorem Inv.hubWrite {host i off v} (h : Inv s) : NextInv (hubWrite host i off v s) := by
  unfold Machine.hubWrite
  split
  · exact .next h
  · split
    · have hw : NextInv (Machine.execSdgoWrite { s with bank := i }) := Inv.execSdgoWrite h
      split
      · next e =>
        have ht := hw _ e
        exact .next ht
      · exact hw
    · repeat' split
      exacts [h.execKickWrite, .next h.modDie, .next h.modDie, .next h.modDev]

theorem Inv.shareWrite {i off v} (h : Inv s) : NextInv (shareWrite i off v s) := by
  unfold Machine.shareWrite
  dsimp only
  split
  · exact .next h.grantWrite
  · split
    · exact .next h.groupWrite
    · split
      · exact .next h.designate
      · split
        · exact .next h
        · exact .next h.modDev

theorem Inv.nearWrite {die off v} (h : Inv s) : NextInv (nearWrite die off v s) := by
  unfold Machine.nearWrite
  dsimp only
  repeat' split
  exacts [.next h.railWrite, h.debugCommand, .next h, .next h.modDie, h.execWayallWrite, .next h.modDie, .next h]

theorem Inv.farWrite {f off v} (h : Inv s) : NextInv (farWrite f off v s) := by
  unfold Machine.farWrite
  split
  · exact .next h.modDie
  · split
    · exact .next h.modMig
    · exact .next h

theorem Inv.execRegisterWrite {p v} (h : Inv s) : NextInv (execRegisterWrite p v s) := by
  unfold Machine.execRegisterWrite
  dsimp only
  split
  · exact .next h
  · split
    · exact h.hubWrite
    · split
      · exact .next h
      · split
        · exact h.shareWrite
        · split
          · exact .next h
          · split
            · exact h.nearWrite
            · split
              · exact h.farWrite
              · exact .next h

/-! ### Power and boot -/

theorem Inv.fenceDie {die f} (h : Inv s) : Inv (fenceDie die f s) := h.modDie.postMlog

theorem Inv.bootStart {b aon} : Inv (bootStart b aon s) := Memory.wf_nil

theorem Inv.bootEnd {b} (h : Inv s) : Inv (bootEnd b s) :=
  .ite (.foldl (.foldl h fun _ _ ht => .ite ht ht.fenceDie) fun _ _ ht => ht.loadPlan) h

theorem Inv.bootOn {b} (h : Inv s) : Inv (bootOn b s) := .ite h.bootEnd h

/-- A boot starts from the empty memory, whatever the state was. -/
theorem Inv.boot {b aon} : Inv (boot b aon s) := .bootOn .bootStart

theorem Inv.execAuthenticationTimeout {die} (h : Inv s) : NextInv (execAuthenticationTimeout die s) := by
  unfold Machine.execAuthenticationTimeout
  repeat' split
  exacts [.next h.modDie.bootOn, .next h, .next h]

theorem Inv.railsReset {die from_ to_} (h : Inv s) : Inv (railsReset die from_ to_ s) := .ite h h

theorem Inv.execPowerStateEnter {die} (h : Inv s) : NextInv (execPowerStateEnter die s) := by
  unfold Machine.execPowerStateEnter
  split
  · exact .next h
  · exact .next (.ite h.modDie.railsReset h.modDie.railsReset)

theorem Inv.execPowerStateExit {die} (h : Inv s) : NextInv (execPowerStateExit die s) := by
  unfold Machine.execPowerStateExit
  dsimp only
  split
  · exact .next h
  · exact .next h.modDie.railsReset

theorem Inv.execPkgtimeExchange {withMaster offset skew} (h : Inv s) :
    NextInv (execPkgtimeExchange withMaster offset skew s) := by
  unfold Machine.execPkgtimeExchange
  split
  · exact .next (.ite h h)
  · split <;> exact .next h

theorem Inv.execPkgtimeSyncLost (h : Inv s) : NextInv (execPkgtimeSyncLost s) := by
  unfold Machine.execPkgtimeSyncLost
  split <;> exact .next h

theorem Inv.execPldmMessage {m} (h : Inv s) : NextInv (execPldmMessage m s) := by
  unfold Machine.execPldmMessage
  split
  all_goals exact .next h

/-! ### Control flow -/

theorem Keeps.groupsMeaning {pn pred first v gs join before} (hbefore : ∀ x m t, Inv t → Inv (before x m t)) :
    Keeps (groupsMeaning pn pred first v gs join before) :=
  .movingMeaning fun _ _ _ ht => (hbefore _ _ _ ht).diverge

theorem Inv.exitEffect {x act} (h : Inv s) : Inv (exitEffect x act s) :=
  .ite h.modStrand.arriveAt (.ite h.modStrand.endCourse h.modStrand)

theorem Inv.execJoinLimitExpire {c st} (h : Inv s) : NextInv (execJoinLimitExpire c st s) := by
  unfold Machine.execJoinLimitExpire
  dsimp only
  split
  · exact .next ((h.foldl fun t a ht => ht.modStrand).foldl fun t a ht => ht.arriveLive).tidy
  · exact .next h

theorem Inv.execJoinWaitExpire {c st} (h : Inv s) : NextInv (execJoinWaitExpire c st s) := by
  unfold Machine.execJoinWaitExpire
  dsimp only
  repeat' split
  exacts [.next h.modStrand, .next h, .next h]

theorem Inv.loopEffect {w x act} (h : Inv s) : Inv (loopEffect w x act s) := by
  unfold Machine.loopEffect
  split
  · exact h.moveTo
  · exact h.modStrand.moveTo

theorem Inv.execFetchFault (h : Inv s) : NextInv (execFetchFault s) := h.issueWord fun _ _ ht => ht

/-! ### Link events -/

theorem Inv.takeMessage {src m} (h : Inv s) : Inv (takeMessage src m s) := by
  unfold Machine.takeMessage
  dsimp only
  repeat' split
  exacts [h, h, h, h.fresh]

theorem Inv.takeReply {dev src seq code vals} (h : Inv s) : Inv (takeReply dev src seq code vals s) := by
  unfold Machine.takeReply
  split
  · exact h
  · exact .ite (.ite h h.remoteFinish) h.fetched

theorem Inv.takeStoreReply {core target seq code} (h : Inv s) : Inv (takeStoreReply core target seq code s) := by
  unfold Machine.takeStoreReply
  split
  · exact h.storeReply
  · exact h

theorem Inv.takeFlit {port f} (h : Inv s) : Inv (takeFlit port f s) := by
  unfold Machine.takeFlit
  dsimp only
  repeat' split
  exacts [h.modPort, h.requestAt, h.takeReply, h.takeMessage, h.takeStoreReply, h.modDev, h.shootAt, h.ackFrom, h.takePart,
    h.joinFrom, h]

theorem Inv.releaseFlits {port n} (h : Inv s) : Inv (releaseFlits port n s) := by
  induction n generalizing s with
  | zero => exact h
  | succ n ih =>
    unfold Machine.releaseFlits
    split
    · exact h
    · split
      · exact ih h.modPort.takeFlit
      · exact h

theorem Inv.execFlitReceive {port f} (h : Inv s) : NextInv (execFlitReceive port f s) := by
  unfold Machine.execFlitReceive
  dsimp only
  repeat' split
  exacts [.next h, .next h.linkReceived, .next h.linkReceived.modPort.releaseFlits]

theorem Inv.linkDegraded {port link lane} (h : Inv s) : Inv (linkDegraded port link lane s) := h.postMlog

theorem Inv.moveFlit {port f} (h : Inv s) : Inv (moveFlit port s f) := .ite h.sendOne h.putLink

theorem Inv.failLink {port link lane} (h : Inv s) : Inv (failLink port link lane s) :=
  (h.modLink.foldl fun _ _ ht => ht.moveFlit).linkDegraded

theorem Inv.execLaneLockLoss {port lane} (h : Inv s) : NextInv (execLaneLockLoss port lane s) := by
  unfold Machine.execLaneLockLoss
  dsimp only
  split
  · exact .next h.modPort.failLink
  · exact .next h.modPort

theorem Inv.execLinkLevelReplay {port link ok} (h : Inv s) : NextInv (execLinkLevelReplay port link ok s) := by
  unfold Machine.execLinkLevelReplay
  dsimp only
  repeat' split
  exacts [.next h, .next h.modLink, .next h.modLink, .next h.failLink]

theorem Inv.execLinkRetrain {port link ok} (h : Inv s) : NextInv (execLinkRetrain port link ok s) := by
  unfold Machine.execLinkRetrain
  dsimp only
  repeat' split
  exacts [.next h, .next h.modLink.modPort.flushEgress, .next h.modLink.linkDegraded]

/-! ### Repeats -/

/-- The memory words that REP may repeat. -/
theorem Keeps.memMeaning {i m} (e : memMeaning i = some m) : Keeps m := by
  unfold Machine.memMeaning at e
  split at e <;> cases e
  exacts [.ldMeaning, .stMeaning, .ldsMeaning, .stsMeaning, .ldfMeaning, .stfMeaning, .seteMeaning, .setfMeaning, .atomMeaning,
    .atomsMeaning, .prefMeaning, .discardMeaning, .lastuseMeaning, .flushlMeaning, .invlMeaning]

/-- The words that REP may repeat. -/
theorem Keeps.repMeaning {i m} (e : repMeaning i = some m) : Keeps m := by
  unfold Machine.repMeaning at e
  split at e
  · cases e
    exact .arithMeaning
  · exact .memMeaning e

theorem Inv.runRep {w word x k} (h : Inv s) (ht : Inv t) : NextInv (runRep w word x k s t) := by
  unfold Machine.runRep
  split
  · exact ht.trapWord
  · dsimp only
    split
    · exact .next (Keeps.repMeaning ‹_› _ _ ht)
    · exact .next h
    · exact .next ht.takeTrap

theorem Inv.execRep {w} (h : Inv s) : NextInv (execRep w s) := by
  unfold Machine.execRep
  repeat' split
  exacts [.fault, Inv.trapWord (.of_fst ‹_› h.fetchWord), Inv.trapWord (.of_fst ‹_› h.fetchWord),
    h.runRep (.of_fst ‹_› h.fetchWord)]

/-! ### Dispatch -/

/-- Every instruction and every event of the machine. -/
theorem Inv.exec {i} (h : Inv s) : NextInv (exec i s) := by
  cases i with
  | add | sub | mul | mulhi | mad | madw | div | rem | min | max | abs | neg | and | or | xor | andn | not |
    shl | shr | sar | rotl | clz | popc | brev | bfx | bfi | sel | iset | lea | addc | subb | mov | dup | plop |
    pmov | sad | dot4 | bperm | fadd | fsub | fmul | ffma | ffms | fmin | fmax | fabs | fneg | fset | fclamp |
    frnd | frcp | frsq | fsqrt | fdiv | fexp2 | flog2 | fsin | fcos | ftanh | fsigm | fscale | fgetexp |
    fclass | fdot2 | cvt | qcvt | qpack | qunpack | scalegen | amax | shfl | shflx | shflup | shfldn | bcast |
    vote | redux | pscan | matchLanes =>
    exact h.arithWord
  | movi | fmovi => exact h.immWord
  | movhi => exact h.movhiWord
  | ld => exact h.runWord .ldMeaning
  | st => exact h.runWord .stMeaning
  | lds => exact h.runWord .ldsMeaning
  | sts => exact h.runWord .stsMeaning
  | ldf => exact h.runWord .ldfMeaning
  | stf => exact h.runWord .stfMeaning
  | sete => exact h.runWord .seteMeaning
  | setf => exact h.runWord .setfMeaning
  | atom => exact h.runWord .atomMeaning
  | atoms => exact h.runWord .atomsMeaning
  | pref => exact h.runWord .prefMeaning
  | discard => exact h.runWord .discardMeaning
  | lastuse => exact h.runWord .lastuseMeaning
  | flushl => exact h.runWord .flushlMeaning
  | invl => exact h.runWord .invlMeaning
  | fence => exact h.execFence
  | qfence => exact h.execQfence
  | chain => exact h.engineWord fun _ _ _ ht => .ite ht.modChan ht.addPending.queueItem
  | cpy => exact h.engineWord fun _ _ _ ht => ht.addPending.queueItem
  | sealBatch => exact h.engineValue fun _ _ _ ht => ht.modCourse
  | waitb => exact h.engineWord fun _ _ _ ht => ht
  | bstat | cbwait => exact h.engineValue fun _ _ _ ht => ht
  | cbdef => exact h.engineWord fun _ _ _ ht => ht.modTeam.setCb
  | cbprod => exact h.execCbprod
  | cbcons => exact h.execCbcons
  | sfill => exact h.execSfill
  | spush => exact h.execSpush
  | sbind => exact h.engineWord fun _ _ _ ht => .ite ht.modStream ht.modTeam.modStream
  | codebk => exact h.engineWord fun _ _ _ ht => ht.queueItem
  | swz => exact h.execSwz
  | btlook | btref | btalloc | btfree => exact h.blockWord
  | migr => exact h.runWord (.sourcedMeaning fun _ _ _ ht => .ite ht ht.giveHint)
  | mma | mmaz => exact h.mmaWord
  | accz | accld | accst | accmv | acctest | accclr | normrd => exact h.matWord
  | fmtset => exact h.homeWordIf fun _ _ _ ht => ht.fmtset
  | fmtget => exact h.execFmtget
  | bndset => exact h.homeWord fun _ _ _ ht => ht.bndset
  | region => exact h.plainWord fun _ _ _ ht => .ite ht ht.modCourse
  | errinj | mts => exact h.runWord (.sourcedMeaning fun _ _ _ ht => .ite ht ht.modCourse)
  | bra => exact h.runWord (.groupsMeaning fun _ _ _ ht => ht)
  | brx => exact h.runWord (.groupsMeaning fun _ _ _ ht => ht.noteLatent)
  | call | ret => exact h.runWord (.groupsMeaning fun _ _ _ ht => ht.modCourse)
  | exit => exact h.runWord (.movingMeaning fun _ _ _ ht => ht.exitEffect)
  | join => exact h.runWord fun _ _ ht => .ite ht.finish ht.modStrand
  | rep => exact h.execRep
  | loop => exact h.runWord (.movingMeaning fun _ _ _ ht => ht.loopEffect)
  | nop => exact h.plainWord fun _ _ _ ht => ht
  | prio => exact h.execPrio
  | yield => exact h.runWord fun _ _ ht => .ite ht.finish ht.finishWaiting
  | sleep => exact h.execSleep
  | bar => exact h.execBar
  | bara => exact h.runWord fun _ _ ht => .ite ht.finish ht.markAt
  | barw => exact h.plainWord fun _ _ _ ht => .ite ht ht.acquire
  | barinit => exact h.execBarinit
  | empty => exact h.plainWord fun _ _ _ ht => ht.emptyEffect
  | waitf => exact h.runWord (.sourcedMeaning fun _ _ _ ht => ht.waitfEffect)
  | rstv => exact h.engineWord fun _ _ _ ht => ht.release.modCourse.sendRstv
  | nameq => exact h.runWord (.sourcedMeaning fun _ _ _ ht => ht.nameqEffect)
  | coll => exact h.engineValue fun _ _ _ ht => ht.release.modCourse.modCore
  | collw => exact h.engineWord fun _ _ _ ht => ht.acquire
  | swsize => exact h.engineWord fun _ _ _ ht => ht.pushSw
  | swbuild | swsend | swdiff | swpeel | swapply => exact h.swatchWord
  | mfs => exact h.runWord (.firstMeaning fun _ _ _ ht => ht.produce)
  | trap => exact h.execTrap
  | bkpt => exact h.runWord fun _ _ ht => .ite ht.modCourse.finish ht.stopAfter
  | signal => exact h.runWord (.sourcedMeaning fun _ _ _ ht => ht.signalEffect)
  | time | clock => exact h.counterWord
  | ptew => exact h.execPtew
  | joinWaitExpire => exact h.execJoinWaitExpire
  | joinLimitExpire => exact h.execJoinLimitExpire
  | longLatencyArrival => exact h.execLongLatencyArrival
  | ageLevelUp => exact h.execAgeLevelUp
  | sleepExpire => exact h.execSleepExpire
  | yieldTimeout => exact h.execYieldTimeout
  | checkAccess => exact h.execCheckAccess
  | homeWritePerformed => exact h.execHomeWritePerformed
  | cowCopyComplete => exact h.execCowCopyComplete
  | pageWalk => exact h.execPageWalk
  | leaseExpire | asidHoldExpire => exact .next h.modDev
  | granuleOpComplete => exact h.execGranuleOpComplete
  | recordClaim => exact .next (.getD h.claimHead h)
  | recordComplete => exact h.execRecordComplete
  | streamFill => exact .next (h.foldl fun _ _ ht => ht.fillStream)
  | matrixOpStart => exact h.execMatrixOpStart
  | mmaAttemptComplete => exact h.execMmaAttemptComplete
  | matrixOpComplete => exact h.execMatrixOpComplete
  | railEvaluate => exact h.execRailEvaluate
  | rstvDelivery => exact h.execRstvDelivery
  | rstvBufferDrain => exact h.execRstvBufferDrain
  | rstvRetry => exact h.execRstvRetry
  | flitReceive => exact h.execFlitReceive
  | laneLockLoss => exact h.execLaneLockLoss
  | linkRetrain => exact h.execLinkRetrain
  | remoteRequest => exact .next h.requestAt
  | staleNak => exact h.execStaleNak
  | remoteCompletion => exact h.execRemoteCompletion
  | podTranslationFetch => exact h.execPodTranslationFetch
  | shootDownReceive => exact .next h.shootAt
  | shootDownTimeout => exact h.execShootDownTimeout
  | joinAnnouncement => exact .next h.joinFrom
  | podTimeout => exact h.execPodTimeout
  | collectiveComplete => exact h.execCollectiveComplete
  | swatchOpComplete => exact h.execSwatchOpComplete
  | swsendNotice => exact h.execSwsendNotice
  | migrationStart => exact h.execMigrationStart
  | migrationFlip => exact h.execMigrationFlip
  | drainMarker => exact h.execDrainMarker
  | kickWrite => exact h.execKickWrite
  | queueScan => exact h.execQueueScan
  | commandLaunch => exact h.execCommandLaunch
  | panelMemberStart => exact h.execPanelMemberStart
  | launchComplete => exact h.execLaunchComplete
  | courseBind => exact h.execCourseBind
  | courseResume => exact h.execCourseResume
  | preempt => exact .next h.preemptSlot
  | courseSaveComplete => exact h.execCourseSaveComplete
  | heartbeatWrite => exact h.execHeartbeatWrite
  | heartbeatTimeout => exact h.execHeartbeatTimeout
  | schedulerUe => exact h.execSchedulerUe
  | schedulerTakeover => exact h.execSchedulerTakeover
  | wayallWrite => exact h.execWayallWrite
  | debugHalt => exact h.execDebugHalt
  | debugHaltQuiesce => exact h.execDebugHaltQuiesce
  | debugResume => exact h.execDebugResume
  | debugStep => exact h.execDebugStep
  | debugStepWait => exact h.execDebugStepWait
  | debugReadLs => exact h.execDebugReadLs
  | registerWrite => exact h.execRegisterWrite
  | telemetryUpdate => exact h.execTelemetryUpdate
  | powerOn | warmReset => exact .next .boot
  | authenticationTimeout => exact h.execAuthenticationTimeout
  | powerStateEnter => exact h.execPowerStateEnter
  | powerStateExit => exact h.execPowerStateExit
  | pkgtimeExchange => exact h.execPkgtimeExchange
  | attestationRequest | firmwareUpdate => exact .next h
  | pldmMessage => exact h.execPldmMessage
  | illegalOpcode => exact h.trapWord
  | pairWord => exact h.execPairWord
  | linkLevelReplay => exact h.execLinkLevelReplay
  | migrationAbandon => exact h.execMigrationAbandon
  | codebookLoadComplete => exact h.execCodebookLoadComplete
  | powerControllerThrottle => exact .next h.modDie
  | normMonitorCheck => exact h.execNormMonitorCheck
  | shootDownDrained => exact h.execShootDownDrained
  | shootDownComplete => exact h.execShootDownComplete
  | commandNop => exact h.execCommandNop
  | contextCreate => exact h.execContextCreate
  | contextUpdate => exact h.execContextUpdate
  | contextDestroy => exact h.execContextDestroy
  | ctxstatRead => exact .next (.modDev h)
  | sdgoWrite => exact h.execSdgoWrite
  | mapMove => exact h.execMapMove
  | mapSwitch => exact h.execMapSwitch
  | klEstablish => exact h.execKlEstablish
  | klLoad => exact h.execKlLoad
  | noteappRead => exact h.execNoteappRead
  | notehostRead => exact h.execNotehostRead
  | pkgtimeSyncLost => exact h.execPkgtimeSyncLost
  | fetchFault => exact h.execFetchFault

/-! ### Turns -/

theorem Inv.runDecoded {w} (h : Inv s) : NextInv (runDecoded w s) := by
  unfold Machine.runDecoded
  dsimp only
  repeat' split
  exacts [h.exec, h.exec, h.trapWord]

theorem Inv.strandWord {c st} (h : Inv s) : NextInv (strandWord c st s) := by
  unfold Machine.strandWord
  extract_lets s0 co
  have h0 : Inv s0 := h
  split
  · exact (Inv.of_fst ‹_› h0.fetchWord).exec
  · exact (Inv.of_fst ‹_› h0.fetchWord).runDecoded

theorem Inv.doAgain {c} (h : Inv s) : SomeInv (doAgain c s) := by
  unfold Machine.doAgain
  dsimp only
  repeat' split
  exacts [.none, .none, h.reissueFirst, .some h.returnWork, .none]

theorem Inv.ageStrands {selected waiting} (h : Inv s) : Inv (ageStrands selected waiting s) :=
  h.foldl fun _ _ ht => ht.modStrand

theorem Inv.endCycle {selected waiting} (h : Inv s) : Inv (endCycle selected waiting s) := h.ageStrands.tick

theorem Inv.endStep {c st} (ht : Inv t) : Inv (endStep c st s t) := .ite ht.modCourse ht

theorem Inv.strandTurn {c st} (h : Inv s) : NextInv (strandTurn c st s) := by
  unfold Machine.strandTurn
  have hw := h.strandWord (c := c) (st := st)
  split
  · split
    · next e =>
      have ht := hw _ e
      exact .next (.endStep ht)
    · exact hw
  · exact .next h

theorem Inv.runTurn {t} (h : Inv s) : NextInv (runTurn t s) := by
  unfold Machine.runTurn
  repeat' split
  exacts [Inv.exec h, h.strandTurn, .next h.endCycle, .next h.regError, .next h.inject, .next (.getD h.doAgain h),
    .next h.memError, h.cutEvent (Inv.exec h)]

theorem Inv.turn (h : Inv s) : NextInv (turn s) := by
  unfold Machine.turn
  split
  · exact Inv.runTurn h
  · exact .next h.tick

/-! ### Step -/

theorem Inv.step (h : Inv s) : NextInv (step s) := h.turn

/-! ### The obligations -/

/-- Settles O49: reset memory lists no byte. -/
theorem resetIsCanonical : Obligations.ResetIsCanonical := Memory.wf_nil

/-- Settles O50, by the rule of `step`, which rests on one rule per operation of the model. -/
theorem stepKeepsCanonicalMemory : Obligations.StepKeepsCanonicalMemory := fun _ t h e => h.step t e

end Sys2Proof
end

section
/-! The commands of a device's hub (R15, R157, R420 to R423, R429, R433, R457, R463, R464, R473).

One lemma per command and outcome: which status the command leaves, and on which state. Each follows the branch that its
hypotheses choose in the command's own definition. -/

namespace Sys2Proof.Machine

/-! ### A bank and a die after a change -/

theorem State.dev_modDev_same {s : State} {d : Nat} {f : Dev → Dev} (h : d < 4) : (s.modDev d f).dev d = f (s.dev d) :=
  vget_vset_same _ _ _ _ h

theorem State.die_modDie_same {s : State} {d : Nat} {f : Die → Die} (h : d < 8) : (s.modDie d f).die d = f (s.die d) :=
  vget_vset_same _ _ _ _ h

/-! ### Context commands -/

section
variable {s s1 : State} {desc ctx : Nat} {d : List Byte}

theorem exec_contextCreate_made {st : Nat} {c : Ctx} (hc : headCmd s 1 = some (desc, s1)) (hd : iaRead s1 s.bank desc 1024 = some d)
    (hr : createResult s1 s.bank d = (st, some c)) : exec .contextCreate s = .next (cmdStatus s.bank desc st
      (fixMode (modeOf (descNum d 2 1)) { s1 with
        ctxs := Tab.put s1.ctxs (65536 * s.bank + c.asid) { c with toHost := headHost s } })) := by
  show execContextCreate s = _
  simp only [execContextCreate, hc, hd, hr]

theorem exec_contextCreate_refused {st : Nat} (hc : headCmd s 1 = some (desc, s1)) (hd : iaRead s1 s.bank desc 1024 = some d)
    (hr : createResult s1 s.bank d = (st, none)) : exec .contextCreate s = .next (cmdStatus s.bank desc st s1) := by
  show execContextCreate s = _
  simp only [execContextCreate, hc, hd, hr]

theorem exec_contextUpdate_absent (hc : headCmd s 2 = some (desc, s1)) (hd : iaRead s1 s.bank desc 1024 = some d)
    (hx : ctx = 65536 * s.bank + descNum d 0 2) (hf : Tab.find s1.ctxs ctx = none) :
    exec .contextUpdate s = .next (cmdStatus s.bank desc 2 s1) := by
  subst hx
  show execContextUpdate s = _
  simp [execContextUpdate, hc, hd, hf]

theorem exec_contextUpdate_done (hc : headCmd s 2 = some (desc, s1)) (hd : iaRead s1 s.bank desc 1024 = some d)
    (hx : ctx = 65536 * s.bank + descNum d 0 2) (hf : (Tab.find s1.ctxs ctx).isSome = true) (hu : updateOk s1 s.bank d = true) :
    exec .contextUpdate s = .next (cmdStatus s.bank desc 0
      (refuseWaiting ctx ((s1.modCtx ctx (updated s1 s.bank d)).dropWindow ctx))) := by
  subst hx
  show execContextUpdate s = _
  have hn := Option.isNone_eq_false_iff.mpr hf
  simp [execContextUpdate, hc, hd, hn, hu]

theorem exec_contextDestroy_absent (hc : headCmd s 3 = some (desc, s1)) (hd : iaRead s1 s.bank desc 2 = some d)
    (hx : ctx = 65536 * s.bank + fieldOf d 0 2) (hf : Tab.find s1.ctxs ctx = none) :
    exec .contextDestroy s = .next (cmdStatus s.bank desc 2 s1) := by
  subst hx
  show execContextDestroy s = _
  simp [execContextDestroy, hc, hd, hf]

theorem exec_contextDestroy_done (hc : headCmd s 3 = some (desc, s1)) (hd : iaRead s1 s.bank desc 2 = some d)
    (hx : ctx = 65536 * s.bank + fieldOf d 0 2) (hf : (Tab.find s1.ctxs ctx).isSome = true) :
    exec .contextDestroy s = .next (cmdStatus s.bank desc 0
      ((freeFences ((purge ctx s1).dropWindow ctx)).modDev s.bank (fun y => { y with
        held := y.held.filter (fun h => h.asid != fieldOf d 0 2) ++
          [{ asid := fieldOf d 0 2, till := s.aon + 1000 * y.lease }] }))) := by
  subst hx
  show execContextDestroy s = _
  have hn := Option.isNone_eq_false_iff.mpr hf
  simp [execContextDestroy, hc, hd, hn]

end

/-- R421: the holds of one ASID that have run out are dropped, and no other. -/
theorem exec_asidHoldExpire {dev asid : Nat} (s : State) (hdev : dev < 4) :
    ∃ t, exec (.asidHoldExpire dev asid) s = .next t ∧ { t with devs := s.devs } = s ∧
      ∀ h, h ∈ (t.dev dev).held ↔ h ∈ (s.dev dev).held ∧ ¬(h.asid = asid ∧ h.till ≤ s.aon) := by
  refine ⟨_, rfl, rfl, fun h => ?_⟩
  rw [State.dev_modDev_same hdev]
  simp [imp_iff_not_or]

/-! ### Map commands -/

section
variable {s s1 : State} {ia : Nat} {l : List MapRegion}

theorem exec_mapMove_refused (hm : headMap s 1 = some (ia, s1)) (hv : (s.dev s.bank).move = none)
    (hl : stagedTable s1 s.bank = none) : exec .mapMove s = .next (hubWord s.bank 0 ia 1 s1) := by
  show execMapMove s = _
  simp only [execMapMove, hm, hv, hl]

/-- R457: a sound table is staged at once where no granule of it moves; else its first moved granule is under way. -/
theorem exec_mapMove_begins (hm : headMap s 1 = some (ia, s1)) (hv : (s.dev s.bank).move = none)
    (hl : stagedTable s1 s.bank = some l) : exec .mapMove s =
      .next (moveOn s.bank ia l ((movedFrom (s.dev s.bank).regions l 0).map (fun i => (i, 0))) s1 s) := by
  show execMapMove s = _
  simp only [execMapMove, hm, hv, hl]

theorem exec_mapMove_goesOn {r g since : Nat} (hm : headMap s 1 = some (ia, s1))
    (hv : (s.dev s.bank).move = some (l, r, g, since)) (ht : since < s.aon) :
    exec .mapMove s = .next (moveOn s.bank ia l (nextGranule (s.dev s.bank).regions l r g) s1 s) := by
  show execMapMove s = _
  simp only [execMapMove, hm, hv]
  rw [if_neg (by omega)]

theorem exec_mapSwitch_done (hm : headMap s 2 = some (ia, s1)) (hw : switchHeld s s.bank = false) (hs : (s.dev s.bank).staged ≠ []) :
    exec .mapSwitch s = .next (hubWord s.bank 0 ia 0 (s1.modDev s.bank (fun y => { y with
      regions := (s.dev s.bank).staged, oldRegions := (s.dev s.bank).regions, staged := [], mapGen := (y.mapGen + 1) % 256
      markers := markersOf (s.dev s.bank).regions (s.dev s.bank).staged }))) := by
  show execMapSwitch s = _
  simp [execMapSwitch, hm, hw, hs]

end

/-! ### Key commands -/

section
variable {s s1 : State} {n : Nat}

theorem exec_klEstablish_done {k : List Byte} (hk : headKey s 1 = some (n, s1))
    (hd : Config.decapsulate (s.dev s.bank).kempk (s.dev s.bank).kemct = some k) :
    exec .klEstablish s = .next (s1.modDev s.bank (fun d => { d with kek := some k, klStat := 0 })) := by
  show execKlEstablish s = _
  simp only [execKlEstablish, hk, hd]

theorem exec_klEstablish_refused (hk : headKey s 1 = some (n, s1))
    (hd : Config.decapsulate (s.dev s.bank).kempk (s.dev s.bank).kemct = none) :
    exec .klEstablish s = .next (s1.modDev s.bank (fun d => { d with klStat := 1 })) := by
  show execKlEstablish s = _
  simp only [execKlEstablish, hk, hd]

/-- Without a key-encryption key there is nothing to unwrap with, and slot 0 is never loaded (R463, R473). -/
theorem exec_klLoad_refused (hk : headKey s 2 = some (n, s1)) (h : (s.dev s.bank).kek = none ∨ n = 0) :
    exec .klLoad s = .next (s1.modDev s.bank (fun y => { y with klStat := 1 })) := by
  show execKlLoad s = _
  obtain hkek | rfl := h
  · simp [execKlLoad, hk, hkek]
  · simp [execKlLoad, hk]

theorem exec_klLoad_done {k w key : List Byte} (hk : headKey s 2 = some (n, s1)) (hn : n ≠ 0) (hkek : (s.dev s.bank).kek = some k)
    (hw : iaRead s s.bank (s.dev s.bank).klKey.toNat 72 = some w) (hu : Config.unwrap k w = some key) :
    exec .klLoad s = .next ((rekeyLines s.bank n (Tab.getD (s.dev s.bank).keys [] n) key s1).modDev s.bank (fun y => { y with
      keys := Tab.put y.keys n key, klStat := 0 })) := by
  show execKlLoad s = _
  simp [execKlLoad, hk, hkek, hw, hn, hu]

end

end Sys2Proof.Machine

namespace Sys2Proof
open Sys2Proof.Machine

/-- Settles O58, command by command: each clause is the lemma of its command and outcome. -/
theorem hubEvents : Obligations.HubEvents := by
  intro s b
  refine ⟨?create, ?update, ?destroy, fun _ _ => exec_asidHoldExpire s, rfl, ?begins, ?goOn, ?switch, ?establish, ?load⟩
  case create =>
    exact fun desc s1 d hc hd => ⟨fun st c => exec_contextCreate_made hc hd, fun st => exec_contextCreate_refused hc hd⟩
  case update =>
    exact fun desc s1 d hc hd => ⟨exec_contextUpdate_absent hc hd rfl, exec_contextUpdate_done hc hd rfl⟩
  case destroy =>
    exact fun desc s1 d hc hd => ⟨exec_contextDestroy_absent hc hd rfl, exec_contextDestroy_done hc hd rfl⟩
  case begins =>
    intro ia s1 hm hv
    refine ⟨exec_mapMove_refused hm hv, fun l hl => ⟨fun hr => ?_, fun r hr => ?_⟩⟩
    · rw [exec_mapMove_begins hm hv hl, hr]; rfl
    · rw [exec_mapMove_begins hm hv hl, hr]; rfl
  case goOn =>
    intro ia s1 l r g since hm hv ht
    refine ⟨fun r' g' hn => ?_, fun hn => ?_⟩
    · rw [exec_mapMove_goesOn hm hv ht, hn]; rfl
    · rw [exec_mapMove_goesOn hm hv ht, hn]; rfl
  case switch => exact fun ia s1 => exec_mapSwitch_done
  case establish => exact fun n s1 hk => ⟨fun k => exec_klEstablish_done hk, exec_klEstablish_refused hk⟩
  case load => exact fun n s1 hk => ⟨exec_klLoad_refused hk, fun k w key => exec_klLoad_done hk⟩

end Sys2Proof
end

section
/-! The platform: the management window (R450, R462, R463, R470, R474), boot (R470, R471, R476), power states (R474, R475), package
time (R477), attestation and management (R472, R478). -/

namespace Sys2Proof.Machine

/-! ### Where a write of the window arrives -/

section
variable {s : State} {host : Bool} {addr : Nat} {v : DWord}

theorem exec_registerWrite_closed (h : windowOpen host addr s = false) : exec (.registerWrite ⟨host, addr⟩ v) s = .next s := by
  show execRegisterWrite ⟨host, addr⟩ v s = _
  simp [execRegisterWrite, h]

theorem exec_registerWrite_hub (h : windowOpen host addr s = true) (ha : addr < 0x40000) :
    exec (.registerWrite ⟨host, addr⟩ v) s = hubWrite host (addr / 0x10000) (addr % 0x10000) v s := by
  show execRegisterWrite ⟨host, addr⟩ v s = _
  simp [execRegisterWrite, h, ha]

/-- What lies between the hub banks and the device regions ignores a write. -/
theorem exec_registerWrite_behindHub (h : windowOpen host addr s = true) (h1 : 0x40000 ≤ addr) (h2 : addr < 0x100000) :
    exec (.registerWrite ⟨host, addr⟩ v) s = .next s := by
  show execRegisterWrite ⟨host, addr⟩ v s = _
  simp only [execRegisterWrite, h, Bool.not_true, Bool.false_eq_true, if_false]
  rw [if_neg (by omega), if_pos h2]

theorem exec_registerWrite_near (h : windowOpen host addr s = true) (h1 : 0x1000000 ≤ addr) (h2 : addr < 0x9000000) :
    exec (.registerWrite ⟨host, addr⟩ v) s = nearWrite ((addr - 0x1000000) / 0x2000000) ((addr - 0x1000000) % 0x2000000) v s := by
  show execRegisterWrite ⟨host, addr⟩ v s = _
  simp only [execRegisterWrite, h, Bool.not_true, Bool.false_eq_true, if_false]
  rw [if_neg (by omega), if_neg (by omega), if_neg (by omega), if_neg (by omega), if_pos h2]

/-- What lies behind the far dies, the attestation report among it, ignores a write. -/
theorem exec_registerWrite_behindDies (h : windowOpen host addr s = true) (h1 : 0xB000000 ≤ addr) :
    exec (.registerWrite ⟨host, addr⟩ v) s = .next s := by
  show execRegisterWrite ⟨host, addr⟩ v s = _
  simp only [execRegisterWrite, h, Bool.not_true, Bool.false_eq_true, if_false]
  rw [if_neg (by omega), if_neg (by omega), if_neg (by omega), if_neg (by omega), if_neg (by omega), if_neg (by omega)]

theorem windowOpen_reached (h : windowOpen host addr s = true) : dieReached addr s = true := by
  simp only [windowOpen, Bool.and_eq_true] at h
  exact h.2

end

/-! ### The region of a near die -/

section
variable {s : State} {d off : Nat}

/-- An address of a near die's region gives the die and the offset back. -/
theorem nearAddr_split (hoff : off < 0x2000000) : (0x1000000 + 0x2000000 * d + off - 0x1000000) / 0x2000000 = d ∧
    (0x1000000 + 0x2000000 * d + off - 0x1000000) % 0x2000000 = off := by omega

theorem dieReached_near (hd : d < 4) (hoff : off < 0x2000000) :
    dieReached (0x1000000 + 0x2000000 * d + off) s = ((s.die d).fence == .none) := by
  have hin : (decide (0x1000000 ≤ 0x1000000 + 0x2000000 * d + off) && decide (0x1000000 + 0x2000000 * d + off < 0x9000000)) = true := by
    simp only [Bool.and_eq_true, decide_eq_true_eq]; omega
  rw [dieReached, if_pos hin, (nearAddr_split hoff).1]

theorem windowRead_near (hd : d < 4) (hoff : off < 0x2000000) (hr : dieReached (0x1000000 + 0x2000000 * d + off) s = true) :
    windowRead (0x1000000 + 0x2000000 * d + off) s = BitVec.ofNat 64 (nearRead s d off) := by
  simp only [windowRead, hr, Bool.not_true, Bool.false_eq_true, if_false]
  rw [if_neg (by omega), if_neg (by omega), if_neg (by omega), if_neg (by omega), if_pos (by omega), (nearAddr_split hoff).1,
    (nearAddr_split hoff).2]

theorem windowOpen_fenced {host : Bool} (hd : d < 4) (hoff : off < 0x2000000) (hf : (s.die d).fence ≠ .none) :
    windowOpen host (0x1000000 + 0x2000000 * d + off) s = false := by
  simp [windowOpen, dieReached_near hd hoff, hf]

theorem windowRead_fenced (hd : d < 4) (hoff : off < 0x2000000) (hf : (s.die d).fence ≠ .none) :
    windowRead (0x1000000 + 0x2000000 * d + off) s = 0#64 := by
  simp [windowRead, dieReached_near hd hoff, hf]

theorem nearWrite_lattol (d : Nat) (v : DWord) (s : State) :
    nearWrite d 0x72000 v s = .next (s.modDie d (fun y => { y with lattol := v.toNat % 2 ^ 20 })) := by simp [nearWrite]

theorem nearRead_lattol (s : State) (d : Nat) : nearRead s d 0x72000 = (s.die d).lattol := by simp [nearRead]

theorem exec_registerWrite_lattol {host : Bool} {v : DWord} (hd : d < 4)
    (h : windowOpen host (0x1000000 + 0x2000000 * d + 0x72000) s = true) :
    exec (.registerWrite ⟨host, 0x1000000 + 0x2000000 * d + 0x72000⟩ v) s =
      .next (s.modDie d (fun y => { y with lattol := v.toNat % 2 ^ 20 })) := by
  obtain ⟨hdie, hoff⟩ := nearAddr_split (d := d) (off := 0x72000) (by omega)
  rw [exec_registerWrite_near h (by omega) (by omega), hdie, hoff, nearWrite_lattol]

/-- R474: LATTOL of a near die reads back its 20 bits. The write leaves the die's fence alone, so the read reaches it too. -/
theorem lattol_readsBack {host : Bool} {v : DWord} (hd : d < 4) (h : windowOpen host (0x1072000 + 0x2000000 * d) s = true) :
    ∃ t, exec (.registerWrite ⟨host, 0x1072000 + 0x2000000 * d⟩ v) s = .next t ∧
      windowRead (0x1072000 + 0x2000000 * d) t = BitVec.ofNat 64 (v.toNat % 2 ^ 20) := by
  rw [show 0x1072000 + 0x2000000 * d = 0x1000000 + 0x2000000 * d + 0x72000 by omega] at h ⊢
  refine ⟨_, exec_registerWrite_lattol hd h, ?_⟩
  have hr := windowOpen_reached h
  have hdie := State.die_modDie_same (s := s) (f := fun y => { y with lattol := v.toNat % 2 ^ 20 }) (show d < 8 by omega)
  rw [dieReached_near hd (by omega)] at hr
  rw [windowRead_near hd (by omega) (by rw [dieReached_near hd (by omega), hdie, hr]), nearRead_lattol, hdie]

end

/-! ### A hub bank -/

section
variable {s : State} {i off : Nat}

/-- An address of a hub bank gives the bank and the offset back. -/
theorem hubAddr_split (hoff : off < 0x10000) : (0x10000 * i + off) / 0x10000 = i ∧ (0x10000 * i + off) % 0x10000 = off := by omega

theorem dieReached_hub (hi : i < 4) (hoff : off < 0x10000) : dieReached (0x10000 * i + off) s = true := by
  have hnear : ¬0x1000000 ≤ 0x10000 * i + off := by omega
  have hfar : ¬0x9000000 ≤ 0x10000 * i + off := by omega
  simp [dieReached, hnear, hfar]

theorem windowRead_hub (hi : i < 4) (hoff : off < 0x10000) :
    windowRead (0x10000 * i + off) s = BitVec.ofNat 64 (bankRead s i off) := by
  simp only [windowRead, dieReached_hub hi hoff, Bool.not_true, Bool.false_eq_true, if_false]
  rw [if_pos (by omega), (hubAddr_split hoff).1, (hubAddr_split hoff).2]

theorem bankWrite_ptroot (v : DWord) (d : Dev) :
    bankWrite 0x60 v.toNat d = { d with ptroot := v &&& 0x00000FFFFFFFF001#64 } := by simp [bankWrite]

theorem hubWrite_ptroot (host : Bool) (i : Nat) (v : DWord) (s : State) :
    hubWrite host i 0x60 v s = .next (s.modDev i (bankWrite 0x60 v.toNat)) := by simp [hubWrite]

theorem bankRead_ptroot (s : State) (i : Nat) : bankRead s i 0x60 = (s.dev i).ptroot.toNat := by simp [bankRead]

theorem exec_registerWrite_ptroot {host : Bool} {v : DWord} (hi : i < 4) (h : windowOpen host (0x10000 * i + 0x60) s = true) :
    exec (.registerWrite ⟨host, 0x10000 * i + 0x60⟩ v) s = .next (s.modDev i (bankWrite 0x60 v.toNat)) := by
  obtain ⟨hbank, hoff⟩ := hubAddr_split (i := i) (off := 0x60) (by omega)
  rw [exec_registerWrite_hub h (by omega), hbank, hoff, hubWrite_ptroot]

/-- R463: PTROOT reads back the bits it has. -/
theorem ptroot_readsBack {host : Bool} {v : DWord} (hi : i < 4) (h : windowOpen host (0x10000 * i + 0x60) s = true) :
    ∃ t, exec (.registerWrite ⟨host, 0x10000 * i + 0x60⟩ v) s = .next t ∧
      windowRead (0x10000 * i + 0x60) t = v &&& 0x00000FFFFFFFF001#64 := by
  refine ⟨_, exec_registerWrite_ptroot hi h, ?_⟩
  rw [windowRead_hub hi (by omega), bankRead_ptroot, State.dev_modDev_same hi, bankWrite_ptroot, BitVec.ofNat_toNat,
    BitVec.setWidth_eq]

end

/-! ### Boot -/

/-- The always-on counter and the courses of a state: what the end of a boot leaves as its start has set it. -/
def RunsAt (aon : Nat) (cs : Tab Course) (t : State) : Prop := t.aon = aon ∧ t.courses = cs

section
variable {s : State} {aon : Nat} {cs : Tab Course}

theorem RunsAt.posted {t : State} (h : RunsAt aon cs s) (hp : OnlyPosted s t) : RunsAt aon cs t := by
  obtain ⟨_, _, _, _, _, _, _, _, _, rfl⟩ := hp
  exact h

theorem RunsAt.fenceDie {die : Nat} {f : Fence} (h : RunsAt aon cs s) : RunsAt aon cs (fenceDie die f s) :=
  RunsAt.posted (s := s.modDie die _) h ((OnlyPosted.freeCount _).trans (OnlyPosted.mlogBytes _ _ _))

theorem RunsAt.loadPlan {dev : Nat} (h : RunsAt aon cs s) : RunsAt aon cs (loadPlan s dev) := h

theorem RunsAt.bootEnd {b : BootResults} (h : RunsAt aon cs s) : RunsAt aon cs (bootEnd b s) := by
  unfold Machine.bootEnd
  extract_lets f s1 held
  have h1 : RunsAt aon cs s1 := h
  split
  · refine List.foldlRecOn _ _ (List.foldlRecOn _ _ h1 fun t ht die _ => ?_) fun t ht dev _ => ht.loadPlan
    split
    · exact ht
    · exact ht.fenceDie
  · exact h1

theorem RunsAt.bootOn {b : BootResults} (h : RunsAt aon cs s) : RunsAt aon cs (bootOn b s) := by
  unfold Machine.bootOn
  split
  · exact h.bootEnd
  · exact h

/-- A boot sets the always-on counter and leaves no course, whether it comes to its end at once or waits for answers. -/
theorem boot_runsAt (b : BootResults) (aon : Nat) (s : State) : RunsAt aon [] (boot b aon s) :=
  RunsAt.bootOn (s := bootStart b aon s) ⟨rfl, rfl⟩

end

/-- R470, R476: the always-on counter starts at 0 at power-on, and a warm reset keeps it. -/
theorem exec_powerOn_warmReset (b : BootResults) (s : State) : ∃ t u, exec (.powerOn b) s = .next t ∧ t.aon = 0 ∧
    exec (.warmReset b) s = .next u ∧ u.aon = s.aon ∧ t.courses = [] ∧ u.courses = [] := by
  obtain ⟨htaon, htcs⟩ := boot_runsAt b 0 s
  obtain ⟨huaon, hucs⟩ := boot_runsAt b s.aon s
  exact ⟨_, _, rfl, htaon, rfl, huaon, htcs, hucs⟩

section
variable {s : State} {die : Nat}

theorem exec_authenticationTimeout_late {b : BootResults} (hb : s.booting = some b) (ht : s.bootAt + 10000000 ≤ s.aon)
    (hd : die ∈ unanswered s b) : exec (.authenticationTimeout die) s =
      .next (bootOn b (s.modDie die (fun d => { d with fence := .authentication }))) := by
  show execAuthenticationTimeout die s = _
  have hl : authLate s die = true := by simp [authLate, hb, ht, hd]
  simp only [execAuthenticationTimeout, hb, hl, if_true]

theorem exec_authenticationTimeout_early (h : s.booting = none ∨ s.aon < s.bootAt + 10000000) :
    exec (.authenticationTimeout die) s = .next s := by
  show execAuthenticationTimeout die s = _
  cases hb : s.booting with
  | none => simp only [execAuthenticationTimeout, hb]
  | some b =>
    have ht : s.aon < s.bootAt + 10000000 := h.resolve_left (by simp [hb])
    have hl : authLate s die = false := by simp [authLate, hb, Nat.not_le.mpr ht]
    simp [execAuthenticationTimeout, hb, hl]

/-! ### Power states -/

theorem railsReset_onlyCores (die from_ to_ : Nat) (s : State) : ∃ ks, railsReset die from_ to_ s = { s with cores := ks } := by
  unfold Machine.railsReset
  split
  · exact ⟨_, rfl⟩
  · exact ⟨_, rfl⟩

theorem exec_powerStateEnter_eq (h : entersState s die = true) :
    ∃ ks, let t := { s.modDie die (fun d => { d with pstate := deepest (s.die die).lattol }) with cores := ks }
      exec (.powerStateEnter die) s = .next (if deepest (s.die die).lattol = 4 then
        { t with cached := s.cached.filter (fun e => e.die != die) } else t) := by
  obtain ⟨ks, hks⟩ := railsReset_onlyCores die (s.die die).pstate (deepest (s.die die).lattol)
    (s.modDie die (fun d => { d with pstate := deepest (s.die die).lattol }))
  refine ⟨ks, ?_⟩
  show execPowerStateEnter die s = _
  rw [execPowerStateEnter, if_neg (by simp [h])]
  dsimp only
  rw [hks]
  rfl

/-- R474, R475: a quiet die goes to its deepest allowed state, and holds no line where it is off. -/
theorem exec_powerStateEnter (h : entersState s die = true) : ∃ t, exec (.powerStateEnter die) s = .next t ∧
    (t.die die).pstate = deepest (s.die die).lattol ∧ { t with dies := s.dies, cores := s.cores, cached := s.cached } = s ∧
    t.cached = if deepest (s.die die).lattol = 4 then s.cached.filter (fun e => e.die != die) else s.cached := by
  have hdie : die < 6 := by
    simp only [entersState, Bool.and_eq_true, decide_eq_true_eq] at h
    omega
  have hp : ((s.modDie die (fun d => { d with pstate := deepest (s.die die).lattol })).die die).pstate =
      deepest (s.die die).lattol := by
    rw [State.die_modDie_same (by omega)]
  obtain ⟨ks, ht⟩ := exec_powerStateEnter_eq h
  refine ⟨_, ht, ?_⟩
  split
  · exact ⟨hp, rfl, rfl⟩
  · exact ⟨hp, rfl, rfl⟩

/-- R474: a die that is busy, or asked for, is active again. -/
theorem exec_powerStateExit (hp : (s.die die).pstate ≠ 0) (hb : dieBusy s die = true) (hd : die < 6) :
    ∃ t, exec (.powerStateExit die) s = .next t ∧ (t.die die).pstate = 0 ∧ { t with dies := s.dies, cores := s.cores } = s := by
  obtain ⟨ks, hks⟩ := railsReset_onlyCores die (s.die die).pstate 0 (s.modDie die (fun y => { y with pstate := 0, quiet := 0 }))
  have ht : exec (.powerStateExit die) s =
      .next { s.modDie die (fun y => { y with pstate := 0, quiet := 0 }) with cores := ks } := by
    show execPowerStateExit die s = _
    rw [execPowerStateExit, if_neg (by simp [hp, hb]), hks]
  have hz : ((s.modDie die (fun y => { y with pstate := 0, quiet := 0 })).die die).pstate = 0 := by
    rw [State.die_modDie_same (by omega)]
  exact ⟨_, ht, hz, rfl⟩

end

/-! ### Package time -/

section
variable {s : State}

theorem exec_pkgtimeExchange_master (offset : DWord) (skew : Word) (h : s.podMaster = true) :
    exec (.pkgtimeExchange true offset skew) s = .next { s with pkgBase := s.pkgBase + offset, pkgSkew := skew, podSync := s.aon } := by
  show execPkgtimeExchange true offset skew s = _
  simp [execPkgtimeExchange, h]

/-- Where a master is designated, and only there, an exchange with it counts. -/
theorem exec_pkgtimeExchange_ignored {withMaster : Bool} (offset : DWord) (skew : Word) (h : s.podMaster = !withMaster) :
    exec (.pkgtimeExchange withMaster offset skew) s = .next s := by
  show execPkgtimeExchange withMaster offset skew s = _
  cases withMaster <;> simp [execPkgtimeExchange, h]

theorem exec_pkgtimeExchange_peer (offset : DWord) (skew : Word) (h : s.podMaster = false) :
    exec (.pkgtimeExchange false offset skew) s =
      .next { s with pkgBase := s.pkgBase + offset, pkgSkew := if 4000#32 < skew then 4000#32 else skew } := by
  show execPkgtimeExchange false offset skew s = _
  simp [execPkgtimeExchange, h]

theorem exec_pkgtimeSyncLost (h : syncLost s = true) : exec .pkgtimeSyncLost s = .next { s with pkgSkew := 0xFFFFFFFF#32 } := by
  show execPkgtimeSyncLost s = _
  simp [execPkgtimeSyncLost, h]

end

/-! ### Attestation -/

theorem fixedBytes_of_length {n : Nat} {l : List Byte} (h : l.length = n) : fixedBytes n l = l := by
  rw [fixedBytes, List.take_append_of_le_length h.ge, List.take_of_length_le h.le]

/-- R472: the report goes out over the requester's nonce, which is kept, and nothing else changes. -/
theorem exec_attestationRequest {nonce : List Byte} (s : State) (h : nonce.length = 32) : ∃ t,
    exec (.attestationRequest nonce) s = .next t ∧ t.nonce = nonce ∧ t.mgmtOut = s.mgmtOut ++ [report nonce s] ∧
      { t with nonce := s.nonce, mgmtOut := s.mgmtOut } = s :=
  ⟨_, rfl, fixedBytes_of_length h, rfl, rfl⟩

end Sys2Proof.Machine

namespace Sys2Proof
open Sys2Proof.Machine

/-- Settles O60, block by block of the platform. -/
theorem platformEvents : Obligations.PlatformEvents := by
  intro s die
  refine ⟨?window, fun host addr v => exec_registerWrite_closed, ?fenced, fun host d v => lattol_readsBack,
    fun host i v => ptroot_readsBack, fun b => exec_powerOn_warmReset b s, fun b => exec_authenticationTimeout_late,
    exec_authenticationTimeout_early, exec_powerStateEnter, exec_powerStateExit, ?pkgtime, exec_pkgtimeSyncLost,
    fun nonce => exec_attestationRequest s, fun img bytes => rfl, ⟨rfl, rfl⟩, fun on => rfl⟩
  case window =>
    exact fun host addr v h => ⟨exec_registerWrite_hub h, exec_registerWrite_behindHub h, exec_registerWrite_near h,
      exec_registerWrite_behindDies h⟩
  case fenced => exact fun d hd hf off hoff => ⟨windowOpen_fenced hd hoff hf, windowRead_fenced hd hoff hf⟩
  case pkgtime =>
    exact fun offset skew => ⟨exec_pkgtimeExchange_master offset skew,
      exec_pkgtimeExchange_ignored (withMaster := true) offset skew, exec_pkgtimeExchange_ignored (withMaster := false) offset skew,
      exec_pkgtimeExchange_peer offset skew⟩

end Sys2Proof
end

section
/-! The stop of a course by a trap, and the way back (R38, R40, R348, R390).

Posting a record touches no course and no core (`OnlyPosted.post`); what the stop changes beyond that is the course's own state, the
matrix queue of its core, and the streams of its team. -/

namespace Sys2Proof.Machine

/-! ### The matrix operations taken back -/

theorem unbindMats_only (c tid : Nat) (l : List MatOp) (s : State) :
    ∃ ts cs, unbindMats c tid l s = { s with teams := ts, courses := cs } := by
  unfold unbindMats
  split
  · exact ⟨_, _, rfl⟩
  · exact ⟨_, _, rfl⟩

/-- Of the courses, giving claims back changes one, and of that one the two latches. -/
theorem unbindMats_course (c tid : Nat) (l : List MatOp) (s : State) : (∀ k, k ≠ c → (unbindMats c tid l s).course k = s.course k) ∧
    ∀ co, s.course c = some co → ∃ a b, (unbindMats c tid l s).course c = some { co with latchA := a, latchB := b } := by
  unfold unbindMats
  split
  · exact ⟨fun _ _ => rfl, fun co h => ⟨_, _, h⟩⟩
  · exact ⟨fun k hk => by simp [Ne.symm hk], fun co h => ⟨_, _, State.course_present (s := s.modTeam _ _) _ h⟩⟩

/-- What the abandonment of a course's matrix operations leaves (R348): they are out of the queue of its core, and wait in the
course to be issued again. -/
structure Abandoned (c : Nat) (co : Course) (s t : State) : Prop where
  course : ∃ a b, t.course c = some { co with
    latchA := a, latchB := b
    remat := co.remat ++ ((s.core (coreOf c)).mq.filter (MatOp.abandoned c co.name)).map MatOp.afresh }
  others : ∀ k, k ≠ c → t.course k = s.course k
  queue : (t.core (coreOf c)).mq = (s.core (coreOf c)).mq.filter (fun o => !(o.abandoned c co.name))
  rest : ∃ ts cs ks, t = { s with teams := ts, courses := cs, cores := ks }

theorem filter_not_of_filter_nil {α : Type} {p : α → Bool} {l : List α} (h : l.filter p = []) : l.filter (fun a => !p a) = l :=
  List.filter_eq_self.2 fun a ha => by simp [List.filter_eq_nil_iff.1 h a ha]

theorem abandonMats_abandoned {c : Nat} {s : State} {co : Course} (h : s.course c = some co) :
    Abandoned c co s (abandonMats c s) := by
  simp only [abandonMats, State.courseD_eq h]
  split
  · next hl =>
    have hl := List.isEmpty_iff.1 hl
    exact ⟨⟨co.latchA, co.latchB, by simp [h, hl]⟩, fun _ _ => rfl, (filter_not_of_filter_nil hl).symm, _, _, _, rfl⟩
  · generalize hm : s.modCore (coreOf c) (fun k => { k with mq := k.mq.filter (fun o => !(o.abandoned c co.name)) }) = m
    have hco : ∀ k, m.course k = s.course k := fun k => by rw [← hm]; rfl
    obtain ⟨hoth, hown⟩ := unbindMats_course c co.team ((s.core (coreOf c)).mq.filter (MatOp.abandoned c co.name)) m
    obtain ⟨a, b, hc⟩ := hown co (by rw [hco, h])
    obtain ⟨ts, cs, hu⟩ := unbindMats_only c co.team ((s.core (coreOf c)).mq.filter (MatOp.abandoned c co.name)) m
    refine ⟨⟨a, b, State.course_present _ hc⟩, fun k hk => ?_, ?_, ?_⟩
    · rw [State.course_modCourse, if_neg (Ne.symm hk), hoth k hk, hco]
    · rw [State.core_modCourse, hu]
      show (m.core (coreOf c)).mq = _
      rw [← hm, State.core_modCore, if_pos rfl]
    · rw [hu, ← hm]
      exact ⟨_, _, _, rfl⟩

/-! ### The trap -/

theorem postTrap_posted (c st : Nat) (t : Trap) (s : State) : OnlyPosted s (postTrap c st t s) := OnlyPosted.post _ _ _

/-- A trap stops its course after the record is posted, and takes the mark of a failed remote write that it reports (R38, R234,
R348). -/
theorem takeTrap_abandoned {c : Nat} {s : State} {co : Course} (st : Nat) (t : Trap) (h : s.course c = some co) :
    ∃ f p, Abandoned c { co with cstate := .stopped, remoteFail := f } p (takeTrap c st t s) ∧
      (∀ k, k ≠ c → p.course k = s.course k) ∧ ∃ cs, p = { postTrap c st t s with courses := cs } := by
  have hp : (postTrap c st t s).course c = some co := by rw [State.course_of_courses (postTrap_posted c st t s).courses, h]
  have hk : ∀ k, (postTrap c st t s).course k = s.course k := State.course_of_courses (postTrap_posted c st t s).courses
  unfold takeTrap State.stopCourse
  dsimp only
  split
  · refine ⟨none, _, abandonMats_abandoned (State.course_present _ (State.course_present _ hp)), fun k hn => ?_, _, rfl⟩
    simp [Ne.symm hn, hk]
  · refine ⟨co.remoteFail, _, abandonMats_abandoned (State.course_present _ hp), fun k hn => ?_, _, rfl⟩
    simp [Ne.symm hn, hk]

/-! ### The way back -/

theorem returnFromStop_course {c : Nat} {s : State} {co : Course} (h : s.course c = some co) :
    (returnFromStop c s).course c = some { co with
      cstate := .run
      strands := vmap (fun (x : Strand) => { x with level := 0, age := 0, readySince := s.clockOf c }) co.strands } :=
  State.course_present _ h

end Sys2Proof.Machine

namespace Sys2Proof
open Sys2Proof.Machine

/-- Settles O47: the record first, then the stop and the abandonment of the course's matrix operations. -/
theorem takingATrap : Obligations.TakingATrap := by
  intro c st t s co h hst u p
  have hp : postTrap c st t s = p := by simp only [postTrap, State.courseD_eq h]; rfl
  obtain ⟨f, q, hq, hoth, cs, rfl⟩ := takeTrap_abandoned st t h
  obtain ⟨⟨a, b, hu⟩, hu', hmq, ts, cs', ks, hrest⟩ := hq
  have hcore : ({ postTrap c st t s with courses := cs } : State).core (coreOf c) = s.core (coreOf c) := by
    show Tab.getD (postTrap c st t s).cores {} (coreOf c) = _
    rw [(postTrap_posted c st t s).cores]; rfl
  rw [hcore] at hu hmq
  refine ⟨_, hu, rfl, rfl, fun _ _ _ => rfl, fun k hk => (hu' k hk).trans (hoth k hk), ?_, ?_, ?_, hmq, rfl,
    _, returnFromStop_course h, rfl, fun j hj => vget_vmap _ _ _ _ _ hj, rfl, OnlyCourse.modCourse _ _ _⟩
  · show (takeTrap c st t s).mem = _
    rw [hrest, ← hp]
  · show (takeTrap c st t s).ctxs = _
    rw [hrest, ← hp]
  · show (takeTrap c st t s).devs = _
    rw [hrest, ← hp]

end Sys2Proof
end

section
/-! A remote store put on its way (R246, R248). -/

namespace Sys2Proof.Machine

/-- The owner that an operation is issued for rests on the word's course and its team, which the reports of latent poison leave
alone. -/
theorem ownerOfWord_noteLatent (x : At) (act : Mask) (refs : List SrcRef) (s : State) :
    ownerOfWord x (noteLatent x act refs s) = ownerOfWord x s := by
  simp only [ownerOfWord, launchOf, State.team, (OnlyNoted.noteLatent x act refs s).teams]

section
variable {w : FWord} {x : At} {act : Mask} {d : BitVec 8} {words : Nat} {refs : List SrcRef} {s : State}
  {v : At → Mask → State → Verdict} {f : At → Mask → State → State}

/-- An engine word with no lane active does nothing but the reports of its sources (R191). -/
theorem engineWord_inactive (h : Issues x act w.pn w.pred d words refs s) (ha : act = 0#32) :
    engineWord w refs v f s = .next (finish x (noteLatent x act refs s)) := by
  have e := sourced_next (pre := noCheck) (v := fun x act t => if act = 0#32 then .go else v x act t)
    (f := fun x act t => if act = 0#32 then t else f x act t) h rfl (if_pos ha)
  rw [if_pos ha] at e
  exact e

theorem engineWord_active (h : Issues x act w.pn w.pred d words refs s) (ha : act ≠ 0#32) (hv : v x act s = .go) :
    engineWord w refs v f s = .next (finish x (f x act (noteLatent x act refs s))) := by
  have e := sourced_next (pre := noCheck) (v := fun x act t => if act = 0#32 then .go else v x act t)
    (f := fun x act t => if act = 0#32 then t else f x act t) h rfl ((if_neg ha).trans hv)
  rw [if_neg ha] at e
  exact e

end

/-- The words that a store carries: the source's in the active lanes, 0 in the others. -/
theorem laneWords_masked (act : Mask) (f : Nat → Nat) : laneWords (fun l => if act.getLsbD l then f l else 0) =
    vof 32 (fun l => if act.getLsbD l then BitVec.ofNat 32 (f l) else 0#32) := by
  unfold laneWords
  congr 1
  funext l
  dsimp only
  split
  · rfl
  · rfl

end Sys2Proof.Machine

namespace Sys2Proof
open Sys2Proof.Machine

/-- Settles O32: what the store's scope waits for is among what every release waits for, so the word issues; the reports of its
sources change neither the name it reads nor its lanes. -/
theorem remoteStoreWords : Obligations.RemoteStoreWords := by
  intro w x act s h s' target
  refine ⟨fun ha => engineWord_inactive h ha, fun ha hout hmem hrel => ?_⟩
  refine (engineWord_active h ha ?_).trans ?_
  · have hwait : (decide (32 ≤ x.co.rstvOut) || waitsForMember x s target || x.pending s (rstvScope x s target)) = false := by
      simp [hmem, pending_narrow hrel.performed, Nat.not_le.2 hout]
    simp only [Verdict.all_cons, Verdict.all_nil, releaseLimit_go hrel, Verdict.and_go]
    exact congrArg Verdict.waitIf hwait
  · simp only [SrcRef.low_noteLatent, SrcRef.at_noteLatent, ownerOfWord_noteLatent, laneWords_masked]
    rfl

end Sys2Proof
end

section
/-! The waits of strands that end by themselves (R33, R91, R382, R397, R398), and the arrival of values (R49, R89). -/

namespace Sys2Proof.Machine

/-! ### Joins -/

theorem Course.mem_liveStrands {co : Course} {i : Nat} : i ∈ co.liveStrands ↔ i < 4 ∧ (co.strand i).live = true := by
  simp [Course.liveStrands]

theorem mem_joinWaiters {co : Course} {pc : DWord} {i : Nat} : i ∈ joinWaiters co pc ↔
    i < 4 ∧ (co.strand i).live = true ∧ (co.strand i).pc = pc ∧ ∃ n k, (co.strand i).wait = .joinWord n k := by
  rw [joinWaiters, List.mem_filter, Course.mem_liveStrands, Bool.and_eq_true, beq_iff_eq, and_assoc]
  refine and_congr_right fun _ => and_congr_right fun _ => and_congr_right fun _ => ?_
  cases (co.strand i).wait <;> simp

/-- The cycle of an arrival at a JOIN word, where the strand waits at one, and of what came before it: the earlier. -/
def earlier (co : Course) (t i : Nat) : Nat :=
  match (co.strand i).wait with
  | .joinWord a _ => min t a
  | _ => t

theorem earlier_le (co : Course) (t i : Nat) : earlier co t i ≤ t := by
  unfold earlier
  split
  · exact Nat.min_le_left _ _
  · exact le_rfl

theorem foldl_earlier_le (co : Course) (l : List Nat) (t : Nat) : l.foldl (earlier co) t ≤ t := by
  induction l generalizing t with
  | nil => exact le_rfl
  | cons i l ih => exact (ih _).trans (earlier_le co t i)

/-- The first arrival is no later than any other. -/
theorem foldl_earlier_le_of_mem {co : Course} {i n k : Nat} {l : List Nat} (hi : i ∈ l) (hw : (co.strand i).wait = .joinWord n k)
    (t : Nat) : l.foldl (earlier co) t ≤ n := by
  induction l generalizing t with
  | nil => cases hi
  | cons j l ih =>
    rcases List.mem_cons.1 hi with rfl | hi
    · refine (foldl_earlier_le co l _).trans ?_
      rw [earlier, hw]
      exact Nat.min_le_right _ _
    · exact ih hi _

theorem joinSince_le {co : Course} {pc : DWord} {i n k : Nat} (now : Nat) (hi : i ∈ joinWaiters co pc)
    (hw : (co.strand i).wait = .joinWord n k) : joinSince co pc now ≤ n := foldl_earlier_le_of_mem hi hw now

section
variable {s : State} {c st n k : Nat}

theorem exec_joinWaitExpire_over (hl : ((s.courseD c).strand st).live = true) (hw : ((s.courseD c).strand st).wait = .joinAddr n)
    (ht : n + 4096 ≤ s.clockOf c) :
    exec (.joinWaitExpire c st) s = .next (s.modStrand c st (fun y => { y with wait := .none, join := none })) := by
  show execJoinWaitExpire c st s = _
  simp only [execJoinWaitExpire, hl, hw, ht, if_true]

theorem joinExpired_of_limit {co : Course} {now : Nat} (hl : (co.strand st).live = true) (hw : (co.strand st).wait = .joinWord n k)
    (hk : k < 15) (ht : joinSince co (co.strand st).pc now + 2 ^ (8 + k) ≤ now) (hr : co.cstate = .run) :
    joinExpired co st now = true := by
  simp only [joinExpired, hl, hw, hk, ht, hr, decide_true, beq_self_eq_true, Bool.and_self]

theorem exec_joinLimitExpire_over (h : joinExpired (s.courseD c) st (s.clockOf c) = true) :
    let l := joinWaiters (s.courseD c) ((s.courseD c).strand st).pc
    exec (.joinLimitExpire c st) s = .next (tidy c (l.foldl (fun acc i => arriveLive c i acc)
      (l.foldl (fun acc i => acc.modStrand c i (fun z => { z with wait := .none, pc := z.pc + 8#64 })) s))) := by
  show execJoinLimitExpire c st s = _
  simp only [execJoinLimitExpire, h, if_true]

/-! ### Ages, sleeps and yields -/

theorem exec_ageLevelUp_full (h : 2 ^ 16 ≤ ((s.courseD c).strand st).age) :
    exec (.ageLevelUp c st) s = .next (s.modStrand c st (fun y => { y with age := 0, level := y.level + 1 })) := if_pos h

theorem exec_sleepExpire_over {t : Nat} {b : Bool} (hw : ((s.courseD c).strand st).wait = .sleep t b) (ht : t ≤ s.aon) :
    exec (.sleepExpire c st) s = .next (s.modStrand c st (Strand.wake (s.clockOf c))) := by
  show execSleepExpire c st s = _
  simp only [execSleepExpire, hw, ht, if_true]

theorem exec_yieldTimeout_over {t : Nat} {b : Bool} (hw : ((s.courseD c).strand st).wait = .yield t b) (ht : t ≤ s.clockOf c) :
    exec (.yieldTimeout c st) s = .next (s.modStrand c st (Strand.wake (s.clockOf c))) := by
  show execYieldTimeout c st s = _
  simp only [execYieldTimeout, hw, ht, if_true]

theorem Strand.wake_elsewhere {y : Strand} (now : Nat) (h : y.join ≠ some y.pc) :
    y.wake now = { y with wait := .none, readySince := now } := by
  simp [Strand.wake, h]

end

/-! ### Values that arrive -/

section
variable {co : Course} {id words : Nat} {signed : Bool} {lanes bad : Mask} {got : Nat → Option Nat}

/-- A v register takes the value in the lanes that the course still holds (R89). -/
theorem Course.vAt_deliver {n l : Nat} (hn : n < 64) (hl : l < 32) : (co.deliver id words signed lanes got bad).vAt n l =
    if lanes.getLsbD l && co.heldLanes.getLsbD l then Entry.receive id (got l) (bad.getLsbD l) (co.vAt n l) else co.vAt n l := by
  simp only [Course.vAt, Course.deliver]
  rw [vget_vmap _ _ _ (vconst 32 {}) _ hn, vget_vmapIdx _ _ _ {} _ hl]
  cases lanes.getLsbD l <;> cases co.heldLanes.getLsbD l <;> rfl

theorem Course.queueAt_deliver {i n l : Nat} (hi : i < 4) (hn : n < 16) (hl : l < 32) :
    ((co.deliver id words signed lanes got bad).strand i).queueAt l n =
      if lanes.getLsbD l then Entry.receive id (got l) (bad.getLsbD l) ((co.strand i).queueAt l n) else (co.strand i).queueAt l n := by
  simp only [Strand.queueAt, Course.strand, Course.deliver]
  rw [vget_vmap _ _ _ {} _ hi, vget_vmapIdx _ _ _ (vconst 16 {}) _ hl, vget_vmap _ _ _ {} _ hn]

/-- A g copy takes the value of the lowest lane (R72). -/
theorem Course.g_deliver {i n l v : Nat} (hi : i < 4) (hn : n < 32) (hl : lowLane lanes = some l) (hv : got l = some v)
    (hb : bad.getLsbD l = false) : vget ((co.deliver id words signed lanes got bad).strand i).g {} n =
      if (vget (co.strand i).g {} n).await = some (8 * id) then { val := extendG words signed v } else vget (co.strand i).g {} n := by
  simp only [Course.strand, Course.deliver]
  rw [vget_vmap _ _ _ {} _ hi, vget_vmap _ _ _ {} _ hn]
  simp only [hl, hv, hb]
  rfl

end

/-- A predicate written in some lanes keeps its bits in the others, and p7 keeps them all (R45). -/
theorem Course.p_writeP (co : Course) (k : Nat) (act bits : Mask) {n l : Nat} (hn : n < 8) (hl : l < 32) :
    (vget (co.writeP k act bits).p 0#32 n).getLsbD l =
      if n < 7 && n == k && act.getLsbD l then bits.getLsbD l else (vget co.p 0#32 n).getLsbD l := by
  unfold Course.writeP
  split
  · next hk =>
    by_cases hnk : k = n
    · subst hnk
      rw [vget_vset_same _ _ _ _ hn, BitVec.getLsbD_or, BitVec.getLsbD_and, BitVec.getLsbD_and, BitVec.getLsbD_not]
      cases act.getLsbD l <;> simp [hk, hl]
    · rw [vget_vset_ne _ _ _ _ _ hnk]
      simp [Ne.symm hnk]
  · next hk =>
    rw [if_neg]
    simp only [Bool.and_eq_true, decide_eq_true_eq, beq_iff_eq, not_and]
    omega

section
variable (co : Course) (k : Nat) (act bits : Mask)

theorem Course.v_writeP : (co.writeP k act bits).v = co.v := by
  unfold Course.writeP
  split
  · rfl
  · rfl

theorem Course.strands_writeP : (co.writeP k act bits).strands = co.strands := by
  unfold Course.writeP
  split
  · rfl
  · rfl

theorem Course.fpflags_writeP : (co.writeP k act bits).fpflags = co.fpflags := by
  unfold Course.writeP
  split
  · rfl
  · rfl

end

/-- Nothing of the arrival is left out, already given, or poisoned: all of it is delivered now. -/
structure Arrival.Whole (id : Nat) (a : Arrival) (s : State) : Prop where
  left : lanesLeft id s = 0#32
  sent : a.sent = 0#32
  bad : a.bad = 0#32

/-- The course once the whole of an arrival has reached it. -/
def Arrival.reached (id : Nat) (a : Arrival) (co : Course) : Course :=
  ((co.deliver id a.words a.signed a.lanes (fun l => if a.lanes.getLsbD l then some (vget a.vals 0 l) else none) 0#32).orFlags
    a.fl).writeP a.pdst (a.lanes &&& co.heldLanes) a.pbits

theorem deliverArrival_whole {s : State} {id : Nat} {a : Arrival} (h : a.Whole id s) :
    deliverArrival id a s = { s.modCourse a.course (a.reached id) with arrivals := Tab.del s.arrivals id } := by
  have hr : lanesReady id a s = a.lanes := by
    rw [lanesReady, h.left, h.sent, show ~~~(0#32) = BitVec.allOnes 32 from rfl, BitVec.and_allOnes, BitVec.and_allOnes]
  simp only [deliverArrival, hr, h.sent, h.bad, BitVec.zero_or, BitVec.zero_and, if_true]
  rfl

section
variable (id : Nat) (a : Arrival) (co : Course)

theorem Arrival.vAt_reached {n l : Nat} (hn : n < 64) (hl : l < 32) : (a.reached id co).vAt n l =
    if a.lanes.getLsbD l && co.heldLanes.getLsbD l then Entry.receive id (some (vget a.vals 0 l)) false (co.vAt n l)
    else co.vAt n l := by
  rw [Arrival.reached, Course.vAt, Course.v_writeP]
  refine (Course.vAt_deliver (words := a.words) (signed := a.signed) hn hl).trans ?_
  cases a.lanes.getLsbD l
  · rfl
  · rw [BitVec.getLsbD_zero, if_pos (c := true = true) rfl]

theorem Arrival.queueAt_reached {i n l : Nat} (hi : i < 4) (hn : n < 16) (hl : l < 32) :
    ((a.reached id co).strand i).queueAt l n =
      if a.lanes.getLsbD l then Entry.receive id (some (vget a.vals 0 l)) false ((co.strand i).queueAt l n)
      else (co.strand i).queueAt l n := by
  rw [Arrival.reached, Course.strand, Course.strands_writeP]
  refine (Course.queueAt_deliver (words := a.words) (signed := a.signed) hi hn hl).trans ?_
  cases a.lanes.getLsbD l
  · rfl
  · rw [BitVec.getLsbD_zero]; rfl

theorem Arrival.g_reached {i n l : Nat} (hi : i < 4) (hn : n < 32) (hl : lowLane a.lanes = some l) :
    vget ((a.reached id co).strand i).g {} n =
      if (vget (co.strand i).g {} n).await = some (8 * id) then { val := extendG a.words a.signed (vget a.vals 0 l) }
      else vget (co.strand i).g {} n := by
  rw [Arrival.reached, Course.strand, Course.strands_writeP]
  exact Course.g_deliver hi hn hl (if_pos (lowLane_mem hl).2) (BitVec.getLsbD_zero ..)

theorem Arrival.p_reached {n l : Nat} (hn : n < 8) (hl : l < 32) : (vget (a.reached id co).p 0#32 n).getLsbD l =
    if n < 7 && n == a.pdst && a.lanes.getLsbD l && co.heldLanes.getLsbD l then a.pbits.getLsbD l
    else (vget co.p 0#32 n).getLsbD l := by
  rw [Arrival.reached, Course.p_writeP _ _ _ _ hn hl, BitVec.getLsbD_and, ← Bool.and_assoc]
  rfl

theorem Arrival.fpflags_reached : (a.reached id co).fpflags = co.fpflags ||| a.fl.setWidth 32 := Course.fpflags_writeP ..

end

section
variable {s : State} {id : Nat}

theorem exec_longLatencyArrival_value {a : Arrival} (h : Tab.find s.arrivals id = some a) (hc : a.course < 8192) :
    exec (.longLatencyArrival id) s = .next (tidy a.course (wakeResult id a.course (deliverArrival id a s))) := by
  show execLongLatencyArrival id s = _
  simp only [execLongLatencyArrival, h]
  exact if_neg (Nat.not_le.2 hc)

theorem exec_longLatencyArrival_access {a : Access} (h : Tab.find s.arrivals id = none) (ha : Tab.find s.accesses id = some a)
    (hu : a.undecided = false) :
    exec (.longLatencyArrival id) s = .next (tidy a.course (wakeResult id a.course (deliverAccess id a s))) := by
  show execLongLatencyArrival id s = _
  simp [execLongLatencyArrival, h, ha, hu]

end

end Sys2Proof.Machine

namespace Sys2Proof
open Sys2Proof.Machine

/-- Settles O51, event by event; what a whole arrival leaves in its course is that of `Arrival.reached`. -/
theorem strandEvents : Obligations.StrandEvents := by
  intro c st s y
  refine ⟨fun n => exec_joinWaitExpire_over, ⟨?limit, ?since, fun i => mem_joinWaiters⟩, exec_ageLevelUp_full,
    fun t b => exec_sleepExpire_over, fun t b => exec_yieldTimeout_over, Strand.wake_elsewhere _, ?arrival,
    fun id a => exec_longLatencyArrival_access⟩
  case limit =>
    exact fun n k hl hw hk ht hr => exec_joinLimitExpire_over (joinExpired_of_limit hl hw hk ht hr)
  case since => exact fun i n k hi hw => joinSince_le _ hi hw
  case arrival =>
    intro id a h hc
    refine ⟨exec_longLatencyArrival_value h hc, fun hleft hsent hbad co hco => ?_⟩
    rw [deliverArrival_whole ⟨hleft, hsent, hbad⟩]
    exact ⟨a.reached id co, State.course_present _ hco, (Tab.find_del _ _ _).trans (if_pos rfl),
      fun n l => a.vAt_reached id co, fun i n l => a.queueAt_reached id co, fun i n l => a.g_reached id co,
      fun n l => a.p_reached id co, a.fpflags_reached id co⟩

end Sys2Proof
end

section
/-! The events of the dispatch: migrations (R226), drain markers (R157), kicks and scans (R375, R376), commands and launches (R377,
R378), panels (R23), binds (R25, R379), pre-emption (R387, R414), saves (R387) and resumption (R390, R391).

One lemma per event and outcome. Each follows the branch that its hypotheses choose in the event's own definition. -/

namespace Sys2Proof.Machine

/-! ### Migrations -/

section
variable {s : State} {far : Nat} {m : Migration}

theorem exec_migrationStart_dropped {rest : List Migration} (ha : (s.migEngine far).active = none)
    (hq : (s.migEngine far).queue = m :: rest) (hh : migHeld s m = false) (hs : migStarts s far m = false) :
    exec (.migrationStart far) s = .next (dropHint m.ctx (s.modMig far (fun e => { e with queue := rest }))) := by
  show execMigrationStart far s = _
  simp [execMigrationStart, ha, hq, hh, hs]

theorem exec_migrationStart_page {rest : List Migration} (ha : (s.migEngine far).active = none)
    (hq : (s.migEngine far).queue = m :: rest) (hh : migHeld s m = false) (hs : migStarts s far m = true) (hb : m.block = false) :
    exec (.migrationStart far) s = .next (s.modMig far (fun e => { e with
      queue := rest
      active := some { m with dest := (poolOf s far m).head?.getD 0, table := if m.enc then (s.core m.core).codebook else none }
      pools := Tab.put e.pools (poolKey m.ctx (!m.block) m.promote) ((poolOf s far m).drop 1) })) := by
  show execMigrationStart far s = _
  simp [execMigrationStart, ha, hq, hh, hs, hb]

theorem exec_migrationFlip_page (ha : (s.migEngine far).active = some m) (hb : m.block = false) :
    exec (.migrationFlip far) s = .next ((flipPage m (s.modMig far (fun e => { e with active := none }))).unstall m.ia) := by
  show execMigrationFlip far s = _
  simp [execMigrationFlip, ha, hb]

theorem exec_migrationFlip_block {t : State} (ha : (s.migEngine far).active = some m) (hb : m.block = true)
    (ht : flipBlock m (s.modMig far (fun e => { e with active := none })) = some t) :
    exec (.migrationFlip far) s = .next (t.unstall m.ia) := by
  show execMigrationFlip far s = _
  simp [execMigrationFlip, ha, hb, ht]

/-- A page has no descriptor whose STATE is to be restored: the destination alone goes back to its pool. -/
theorem exec_migrationAbandon_page (ha : (s.migEngine far).active = some m) (hb : m.block = false) :
    exec (.migrationAbandon far) s = .next ((s.modMig far (fun e => { e with
      active := none
      pools := Tab.put e.pools (poolKey m.ctx (!m.block) m.promote) (m.dest :: poolOf s far m) })).unstall m.ia) := by
  show execMigrationAbandon far s = _
  simp [execMigrationAbandon, ha, abandonMig, hb]

end

theorem exec_drainMarker_arrives {s : State} {dev a b : Nat} (h : markerHeld s dev a b = false) :
    exec (.drainMarker dev a b) s = .next (s.modDev dev (fun d => { d with markers := d.markers.erase (a, b) })) := by
  show execDrainMarker dev a b s = _
  simp [execDrainMarker, h]

/-! ### Kicks and scans -/

/-- The low bits of a word that stand for queues there are, from queue lo on. -/
theorem getLsbD_queueMask (n lo i : Nat) (hi : i < 64) :
    (BitVec.ofNat 64 (2 ^ min 64 (n - lo) - 1)).getLsbD i = decide (lo + i < n) := by
  rw [BitVec.getLsbD_ofNat, Nat.testBit_two_pow_sub_one, decide_eq_true hi, Bool.true_and, decide_eq_decide]
  omega

theorem exec_kickWrite {dev j : Nat} (v : DWord) (s : State) (hdev : dev < 4) (hj : j < 16) :
    ∃ t, exec (.kickWrite dev j v) s = .next t ∧ { t with devs := s.devs } = s ∧
      ∀ i, i < 64 → (vget (t.dev dev).kick 0#64 j).getLsbD i =
        ((vget (s.dev dev).kick 0#64 j).getLsbD i || (v.getLsbD i && decide (64 * j + i < queuesIn s.mode))) := by
  refine ⟨_, rfl, rfl, fun i hi => ?_⟩
  rw [State.dev_modDev_same hdev, vget_vset_same _ _ _ _ hj, BitVec.getLsbD_or, BitVec.getLsbD_and, getLsbD_queueMask _ _ _ hi]

theorem exec_queueScan_next {s : State} {dev q : Nat} {rest : List Nat} (hd : (dispatchDie s dev).isSome = true)
    (hs : (s.dev dev).scanned = q :: rest) : exec (.queueScan dev q) s =
      .next (takeQueue dev q (s.modDev dev (fun y => { y with scanned := rest, kick := clearKick q y.kick }))) := by
  show execQueueScan dev q s = _
  have hn := Option.isNone_eq_false_iff.mpr hd
  simp [execQueueScan, hs, hn]

/-! ### Commands and launches -/

section
variable {s : State} {dev : Nat} {r : LaunchChoice} {rest : List Command} {m : Command}

theorem exec_commandLaunch_refused {code : Nat} (hd : (dispatchDie s dev).isSome = true)
    (hn : nextCommand s dev r.shape [] (s.dev dev).commands = some (rest, m)) (hc : soundCommand s dev m r.shape = .error code) :
    exec (.commandLaunch dev r) s = .next (writeDone m.ctx (m.num 48 8) m.queue (m.num 56 8) code
      (s.modDev dev (fun d => { d with commands := rest }))) := by
  show execCommandLaunch dev r s = _
  have hd := Option.isNone_eq_false_iff.mpr hd
  simp [execCommandLaunch, hd, hn, hc]

theorem exec_commandLaunch_launched {y : Sound} (hd : (dispatchDie s dev).isSome = true)
    (hn : nextCommand s dev r.shape [] (s.dev dev).commands = some (rest, m)) (hc : soundCommand s dev m r.shape = .ok y)
    (hp : placesFit s dev r.shape (m.num 24 4) r.places = true) :
    exec (.commandLaunch dev r) s = .next (createLaunch dev m r y (s.modDev dev (fun d => { d with commands := rest }))) := by
  show execCommandLaunch dev r s = _
  have hd := Option.isNone_eq_false_iff.mpr hd
  simp [execCommandLaunch, hd, hn, hc, hp]

theorem exec_commandNop_taken (hm : (s.dev s.bank).commands.find? (fun m => m.kind == 2) = some m)
    (hd : (dispatchDie s s.bank).isSome = true) :
    exec .commandNop s = .next (s.modDev s.bank (fun y => { y with commands := y.commands.erase m })) := by
  show execCommandNop s = _
  have hd := Option.isNone_eq_false_iff.mpr hd
  simp [execCommandNop, hm, hd]

end

theorem exec_panelMemberStart_room {s : State} {panel : Nat} {y : Panel} {l : Launch} {p : TeamPlace}
    (hy : Tab.find s.panels panel = some y) (hp : y.plan[y.members.length]? = some p) (hl : Tab.find s.launches y.launch = some l)
    (hn : y.members.length < y.nteams) (hr : canPlace s l (some panel) p = true) :
    exec (.panelMemberStart panel p) s = .next
      (startTeam y.launch l (some (panel, y.members.length, y.scope)) (y.first + y.members.length) p s) := by
  show execPanelMemberStart panel p s = _
  simp [execPanelMemberStart, hy, hp, hl, hn, hr]

/-- A launch that is done leaves the table of launches (R378). -/
theorem exec_launchComplete_done {s : State} {lid die : Nat} {l : Launch} (hl : Tab.find s.launches lid = some l)
    (hd : dispatchDie s l.dev = some die) (h : launchDone s lid l = true) :
    ∃ t, exec (.launchComplete lid) s = .next t ∧ Tab.find t.launches lid = none := by
  have e : exec (.launchComplete lid) s = execLaunchComplete lid s := rfl
  simp only [execLaunchComplete, hl, hd, h, Bool.not_true, Bool.false_eq_true, if_false] at e
  exact ⟨_, e, by simp⟩

/-! ### Binds -/

theorem exec_courseBind_bound {s : State} {c : Nat} {t : Team} {l : Launch} (hb : (slotAt s c).state = .bind)
    (hg : bitOf (slotAt s c).rec_.gen 14 = false) (hf : recordFits (slotAt s c).rec_ (slotOf c) = true)
    (ht : s.team (slotAt s c).rec_.team = some t) (hr : t.resident = true) (hl : Tab.find s.launches t.launch = some l) :
    exec (.courseBind c) s =
      .next (setSlot c (slotAt s c).rec_ .run (s.setCourse c (boundCourse s c (slotAt s c).rec_ l t))) := by
  show execCourseBind c s = _
  simp [execCourseBind, hb, hg, hf, ht, hr, hl]

section
variable (s : State) (c : Nat) (r : BindRec) (l : Launch) (t : Team)

/-- A course starts with one strand, in slot 0: all lanes, at the entry (R25). -/
theorem boundCourse_strand_zero : (boundCourse s c r l t).strand 0 =
    { live := true, pc := r.entryPc, mask := 0xFFFFFFFF#32, g := boundG l, readySince := s.clockOf c } :=
  vget_vset_same _ _ _ _ (by omega)

theorem boundCourse_strand_other {i : Nat} (hi : i < 4) (h0 : i ≠ 0) : (boundCourse s c r l t).strand i = {} :=
  (vget_vset_ne _ _ _ _ _ h0.symm).trans (vget_vconst _ _ _ _ hi)

theorem boundCourse_liveStrands : (boundCourse s c r l t).liveStrands = [0] := by
  have h := fun i hi h0 => boundCourse_strand_other s c r l t (i := i) hi h0
  show List.filter _ [0, 1, 2, 3] = [0]
  simp [boundCourse_strand_zero, h 1 (by omega) (by omega), h 2 (by omega) (by omega), h 3 (by omega) (by omega)]

end

/-! ### Pre-emption -/

theorem exec_preempt_running {s : State} {c : Nat} {co : Course} (hco : s.course c = some co) (hs : (slotAt s c).state = .run)
    (hr : co.cstate = .run) (hd : dispatching s (dieOf c) = true) : exec (.preempt c) s =
      .next (unbindSlot c (journal (dieOf c) 3 (coreOf c % 64) (slotOf c) (slotAt s c).rec_.bytes s)) := by
  show Host.Outcome.next (preemptSlot c s) = _
  simp [preemptSlot, hs, hco, hr, hd]

section
variable {s : State} {c : Nat} {co : Course}

theorem inject_now (hco : s.course c = some co) (hp : (s.ctx co.ctx).priv = true) : inject (.now c) s = preemptTeam co.team s := by
  simp [inject, hco, hp]

theorem inject_atMma (hco : s.course c = some co) (hp : (s.ctx co.ctx).priv = true) :
    inject (.atMma c) s = { s with armed := co.name :: s.armed.filter (· != co.name) } := by
  simp [inject, hco, hp]

theorem firePreempt_armed {o : Owner} (h : s.armed.contains o.name = true) :
    firePreempt o s = preemptTeam o.team { s with armed := s.armed.filter (· != o.name) } := if_pos h

end

/-! ### Saves -/

/-- The states have the same courses, bound and saved, and the same slots. -/
structure SameCourses (s t : State) : Prop where
  bound : t.courses = s.courses
  slots : t.slots = s.slots
  saved : t.saved = s.saved

theorem SameCourses.refl (s : State) : SameCourses s s := ⟨rfl, rfl, rfl⟩

theorem SameCourses.trans {s t u : State} (h : SameCourses s t) (g : SameCourses t u) : SameCourses s u :=
  ⟨g.bound.trans h.bound, g.slots.trans h.slots, g.saved.trans h.saved⟩

theorem SameCourses.posted {s t : State} (h : OnlyPosted s t) : SameCourses s t := by
  obtain ⟨_, _, _, _, _, _, _, _, _, rfl⟩ := h
  exact ⟨rfl, rfl, rfl⟩

/-- The save of a team writes its record and gives its part of its core back. -/
theorem SameCourses.saveTeam (tid : Nat) (s : State) : SameCourses s (saveTeam tid s) := by
  unfold Machine.saveTeam
  split
  · exact .refl s
  · refine SameCourses.trans ?_ (.posted (OnlyPosted.writeTeam ..))
    exact ⟨rfl, rfl, rfl⟩

theorem SameCourses.settleTeams (core : Nat) (s : State) : SameCourses s (settleTeams core s) := by
  refine List.foldlRecOn _ _ (.refl s) fun t ht tid _ => ?_
  split
  · exact ht.trans (.saveTeam tid t)
  · exact ht

/-- A course as it is saved (R387 step 5, R405). -/
def Course.saved (co : Course) : Course := { co with strands := vmap Strand.saved co.strands, readLog := [] }

/-- A save that is complete takes the course out of its slot and keeps it under its context and its save index. -/
theorem exec_courseSaveComplete_ready {s : State} {c : Nat} {co : Course} (hco : s.course c = some co) (h : saveReady s c = true) :
    ∃ t, exec (.courseSaveComplete c) s = .next t ∧ t.course c = none ∧ (slotAt t c).state = .saved ∧
      ∃ v, Tab.find t.saved (savedKey co.ctx co.saveIdx) = some v ∧ v.course = co.saved := by
  have e : exec (.courseSaveComplete c) s = execCourseSaveComplete c s := rfl
  simp only [execCourseSaveComplete, hco, h, Bool.not_true, Bool.false_eq_true, if_false] at e
  refine ⟨_, e, ?_, ?_, ?_⟩
  · rw [State.course, (SameCourses.settleTeams ..).bound]
    exact (Tab.find_del _ _ _).trans (if_pos rfl)
  · rw [slotAt, (SameCourses.settleTeams ..).slots]
    exact congrArg SlotEntry.state ((Tab.getD_put _ _ _ _ _).trans (if_pos rfl))
  · rw [(SameCourses.settleTeams ..).saved]
    exact ⟨_, (Tab.find_put _ _ _ _).trans (if_pos rfl), rfl⟩

/-! ### Resumption -/

section
variable {s s2 : State} {c save : Nat} {v : Saved} {t : Team} {q : TeamPlace} {b : List Byte}

theorem exec_courseResume_placed {p : TeamPlace} (hv : Tab.find s.saved save = some v) (ht : s.team v.course.team = some t)
    (hf : slotFree s c = true) (hd : dispatching s (dieOf c) = true) (hh : heldForPanel s t.panel (coreOf c) = false)
    (hq : resumePlace s c v t p = some q) :
    let r := resumeRec v c { t with lsBase := q.lsBase, tile0 := q.tile0, bar0 := q.bar0 }
    exec (.courseResume c save p) s = .next (resumeBound c save v t q
      (setSlot c r .bind (journal (dieOf c) 2 (coreOf c % 64) (slotOf c) r.bytes s))) := by
  show execCourseResume c save p s = _
  simp [execCourseResume, hv, ht, hf, hd, hh, hq]

theorem resumeBound_sound (hr : recordFits (slotAt s c).rec_ (slotOf c) = true)
    (h2 : restoreFirst v.course.team t (coreOf c) q s = some s2) (hb : readImage s save = some b) (hs : imageSound b = true) :
    resumeBound c save v t q s = tidy c (setSlot c (slotAt s c).rec_ .run (bindSaved c save v b s2)) := by
  simp [resumeBound, hr, h2, hb, hs]

theorem resumeBound_corrupt (hr : recordFits (slotAt s c).rec_ (slotOf c) = true)
    (h2 : restoreFirst v.course.team t (coreOf c) q s = some s2) (hb : readImage s save = some b) (hs : imageSound b = false) :
    resumeBound c save v t q s = saveCorrupt c (imageVa s save) v s := by
  simp [resumeBound, hr, h2, hb, hs]

theorem slotAt_setSlot (c : Nat) (r : BindRec) (st : SlotState) (s : State) :
    slotAt (setSlot c r st s) c = { rec_ := r, state := st } := (Tab.getD_put _ _ _ _ _).trans (if_pos rfl)

theorem restoreFirst_saved {tid core : Nat} {p : TeamPlace} {l : List (List Byte)} (hr : t.resident = false)
    (hl : readTeam s t = some l) :
    restoreFirst tid t core p s = if tilesSound t l = true then some (restoreTeam tid core p l s) else none := by
  simp [restoreFirst, hr, hl]

end

end Sys2Proof.Machine

namespace Sys2Proof
open Sys2Proof.Machine

/-- Settles O57, event by event. -/
theorem dispatchEvents : Obligations.DispatchEvents := by
  intro c far dev s
  refine ⟨?start, ?migrated, fun a b => exec_drainMarker_arrives, fun j v => exec_kickWrite v s,
    fun q rest => exec_queueScan_next, ?launch, fun m => exec_commandNop_taken, fun panel y l p => exec_panelMemberStart_room,
    fun lid l die => exec_launchComplete_done, ?bind, fun co => exec_preempt_running, ?injected, ?save, ?resume, fun tid t p hr l => restoreFirst_saved hr⟩
  case start =>
    exact fun m rest ha hq hh => ⟨exec_migrationStart_dropped ha hq hh, exec_migrationStart_page ha hq hh⟩
  case migrated =>
    exact fun m ha => ⟨fun hb => ⟨exec_migrationFlip_page ha hb, exec_migrationAbandon_page ha hb⟩,
      fun hb t => exec_migrationFlip_block ha hb⟩
  case launch =>
    exact fun r rest m hd hn => ⟨fun code => exec_commandLaunch_refused hd hn, fun y => exec_commandLaunch_launched hd hn⟩
  case bind =>
    intro e hb hg hf t l ht hr hl
    refine ⟨exec_courseBind_bound hb hg hf ht hr hl, boundCourse_liveStrands .., ?_, ?_⟩
    · rw [boundCourse_strand_zero]
    · rw [boundCourse_strand_zero]
  case injected => exact fun co hco hp => ⟨inject_now hco hp, inject_atMma hco hp, fun o => firePreempt_armed⟩
  case save =>
    intro co hco h
    obtain ⟨t, ht, hnone, hslot, v, hv, hvc⟩ := exec_courseSaveComplete_ready hco h
    exact ⟨t, ht, hnone, hslot, v, hv, by rw [hvc]; rfl, by rw [hvc]; rfl, by rw [hvc]; rfl⟩
  case resume =>
    intro save v t q p hv ht hf hd hh hq r s1 hr s2 h2 b hb
    have hslot : (slotAt s1 c).rec_ = r := congrArg SlotEntry.rec_ (slotAt_setSlot ..)
    refine ⟨fun hs => ?_, fun hs => ?_⟩
    · rw [exec_courseResume_placed hv ht hf hd hh hq, resumeBound_sound (by rw [hslot]; exact hr) h2 hb hs, hslot]
    · rw [exec_courseResume_placed hv ht hf hd hh hq, resumeBound_corrupt (by rw [hslot]; exact hr) h2 hb hs]

end Sys2Proof
end

section
/-! The decoder and the encoder (R58, R59, R60, R63, R76, R78).

A word form is a row of fields: packing writes them side by side, reading cuts them out again, so each undoes the other on the words
whose opcode belongs to the form. The map of opcodes is gone through once in each direction: `encode_of_of…` says which word the
encoder gives the instruction of an opcode, `decodeRaw_pack…` says which instruction the decoder reads from a packed word. -/

namespace Sys2Proof
open Sys2Proof.Machine

/-! ### Fields written and read -/

section
variable (op : BitVec 9) {w : DWord}

theorem readF_packF (f : FWord) : readF (packF op f) = f := by
  simp -index only [readF, packF, BitVec.extractLsb'_append_eq_right, BitVec.extractLsb'_append_eq_of_le, BitVec.getLsbD_append,
    Nat.reduceLeDiff, Nat.reduceSub, Nat.reduceLT, if_true, if_false, BitVec.getLsbD_ofBool, decide_true, Bool.true_and]

theorem readI_packI (f : IWord) : readI (packI op f) = f := by
  simp -index only [readI, packI, BitVec.extractLsb'_append_eq_right, BitVec.extractLsb'_append_eq_of_le, BitVec.getLsbD_append,
    Nat.reduceLeDiff, Nat.reduceSub, Nat.reduceLT, if_true, if_false, BitVec.getLsbD_ofBool, decide_true, Bool.true_and]

theorem readM_packM (f : MWord) : readM (packM op f) = f := by
  simp -index only [readM, packM, BitVec.extractLsb'_append_eq_right, BitVec.extractLsb'_append_eq_of_le, BitVec.getLsbD_append,
    Nat.reduceLeDiff, Nat.reduceSub, Nat.reduceLT, if_true, if_false, BitVec.getLsbD_ofBool, decide_true, Bool.true_and]

theorem readB_packB (f : BWord) : readB (packB op f) = f := by
  simp -index only [readB, packB, BitVec.extractLsb'_append_eq_right, BitVec.extractLsb'_append_eq_of_le, BitVec.getLsbD_append,
    Nat.reduceLeDiff, Nat.reduceSub, Nat.reduceLT, if_true, if_false, BitVec.getLsbD_ofBool, decide_true, Bool.true_and]

theorem readRep_packRep (f : RepWord) : readRep (packRep f) = f := by
  simp -index only [readRep, packRep, BitVec.extractLsb'_append_eq_right, BitVec.extractLsb'_append_eq_of_le, BitVec.getLsbD_append,
    Nat.reduceLeDiff, Nat.reduceSub, Nat.reduceLT, if_true, if_false, BitVec.getLsbD_ofBool, decide_true, Bool.true_and]

theorem readSlot_high_packPair (rsv : Bool) (a b : Slot) : readSlot (packPair rsv a b) 31 = a := by
  simp -index only [readSlot, packPair, packSlot, BitVec.extractLsb'_eq_self, BitVec.extractLsb'_append_eq_of_le,
    BitVec.extractLsb'_append_eq_of_add_le, Nat.reduceAdd, Nat.reduceLeDiff, Nat.reduceSub]

theorem readSlot_low_packPair (rsv : Bool) (a b : Slot) : readSlot (packPair rsv a b) 0 = b := by
  simp -index only [readSlot, packPair, packSlot, BitVec.extractLsb'_eq_self, BitVec.extractLsb'_append_eq_of_le,
    BitVec.extractLsb'_append_eq_of_add_le, Nat.reduceAdd, Nat.reduceLeDiff, Nat.reduceSub]

theorem ofBool_getLsbD (w : DWord) (i : Nat) : BitVec.ofBool (w.getLsbD i) = w.extractLsb' i 1 := by
  refine BitVec.eq_of_getLsbD_eq fun j hj => ?_
  obtain rfl : j = 0 := by omega
  cases h : w.getLsbD i <;> simp [h]

/-- The top bit of a word as the field that packing writes there. -/
theorem extractLsb'_top {b : Bool} (h : w.getLsbD 63 = b) : BitVec.ofBool b = w.extractLsb' 63 1 := by
  rw [← h, ofBool_getLsbD]

theorem packF_readF (h : w.getLsbD 63 = false) : packF (w.extractLsb' 54 9) (readF w) = w := by
  simp only [packF, readF, ofBool_getLsbD]
  rw [show 0#1 = _ from extractLsb'_top h]
  simp only [BitVec.extractLsb'_append_extractLsb'_eq_extractLsb']
  exact BitVec.extractLsb'_eq_self

theorem packI_readI (h : w.getLsbD 63 = false) : packI (w.extractLsb' 54 9) (readI w) = w := by
  simp only [packI, readI, ofBool_getLsbD]
  rw [show 0#1 = _ from extractLsb'_top h]
  simp only [BitVec.extractLsb'_append_extractLsb'_eq_extractLsb']
  exact BitVec.extractLsb'_eq_self

theorem packM_readM (h : w.getLsbD 63 = false) : packM (w.extractLsb' 54 9) (readM w) = w := by
  simp only [packM, readM, ofBool_getLsbD]
  rw [show 0#1 = _ from extractLsb'_top h]
  simp only [BitVec.extractLsb'_append_extractLsb'_eq_extractLsb']
  exact BitVec.extractLsb'_eq_self

theorem packB_readB (h : w.getLsbD 63 = false) : packB (w.extractLsb' 54 9) (readB w) = w := by
  simp only [packB, readB, ofBool_getLsbD]
  rw [show 0#1 = _ from extractLsb'_top h]
  simp only [BitVec.extractLsb'_append_extractLsb'_eq_extractLsb']
  exact BitVec.extractLsb'_eq_self

theorem packRep_readRep (h : w.getLsbD 63 = false) (ho : opField w = 0x186) : packRep (readRep w) = w := by
  have ho : w.extractLsb' 54 9 = 0x186#9 := BitVec.eq_of_toNat_eq ho
  simp only [packRep, readRep, ofBool_getLsbD]
  rw [show 0#1 = _ from extractLsb'_top h, ← ho]
  simp only [BitVec.extractLsb'_append_extractLsb'_eq_extractLsb']
  exact BitVec.extractLsb'_eq_self

theorem packSlot_readSlot (w : DWord) (lo : Nat) : packSlot (readSlot w lo) = w.extractLsb' lo 31 := by
  simp only [packSlot, readSlot]
  iterate 5 rw [BitVec.extractLsb'_append_extractLsb'_eq_extractLsb' (by omega)]

theorem packPair_readSlot (h : w.getLsbD 63 = true) : packPair (w.getLsbD 62) (readSlot w 31) (readSlot w 0) = w := by
  simp only [packPair, packSlot_readSlot, ofBool_getLsbD]
  rw [show 1#1 = _ from extractLsb'_top h]
  simp only [BitVec.extractLsb'_append_extractLsb'_eq_extractLsb']
  exact BitVec.extractLsb'_eq_self

end

/-! ### The map of opcodes -/

section
variable {n : BitVec 9} {i : Instr}

theorem encode_of_ofF {f : FWord} (h : ofF n.toNat f = some i) : encode i = some (packF n f) := by
  obtain ⟨⟨n, hn⟩⟩ := n
  simp only [BitVec.toNat] at h
  unfold ofF at h
  split at h
  case h_147 => cases h
  all_goals
    cases h
    rfl

theorem encode_of_ofM {f : MWord} (h : ofM n.toNat f = some i) : encode i = some (packM n f) := by
  obtain ⟨⟨n, hn⟩⟩ := n
  simp only [BitVec.toNat] at h
  unfold ofM at h
  split at h
  case h_16 => cases h
  all_goals
    cases h
    rfl

theorem encode_of_ofI {f : IWord} (h : ofI n.toNat f = some i) : encode i = some (packI n f) := by
  obtain ⟨⟨n, hn⟩⟩ := n
  simp only [BitVec.toNat] at h
  unfold ofI at h
  split at h
  case h_4 => cases h
  all_goals
    cases h
    rfl

theorem encode_of_ofB {f : BWord} (h : ofB n.toNat f = some i) : encode i = some (packB n f) := by
  obtain ⟨⟨n, hn⟩⟩ := n
  simp only [BitVec.toNat] at h
  unfold ofB at h
  split at h
  case h_4 => cases h
  all_goals
    cases h
    rfl

/-- The encoder gives back the word that a single word was read from. -/
theorem encode_of_ofSingle {w : DWord} (h63 : w.getLsbD 63 = false) (h : ofSingle w = some i) : encode i = some w := by
  simp only [ofSingle] at h
  split at h
  next ho =>
    cases h
    exact congrArg some (packRep_readRep h63 ho)
  next =>
    split at h
    next hi => exact (encode_of_ofI (hi.trans h)).trans (congrArg some (packI_readI h63))
    next =>
      split at h
      next hm => exact (encode_of_ofM (hm.trans h)).trans (congrArg some (packM_readM h63))
      next =>
        split at h
        next hb => exact (encode_of_ofB (hb.trans h)).trans (congrArg some (packB_readB h63))
        next => exact (encode_of_ofF h).trans (congrArg some (packF_readF h63))

theorem encode_decodeRaw (w : DWord) : encode (decodeRaw w) = some w := by
  simp only [decodeRaw]
  split
  next => rfl
  next =>
    split
    next h63 => exact congrArg some (packPair_readSlot h63)
    next h63 =>
      cases h : ofSingle w with
      | none => rfl
      | some i => exact encode_of_ofSingle (by simpa using h63) h

/-! ### Words packed and decoded -/

/-- A single word of an assigned opcode is decoded by the map. -/
theorem decodeRaw_of_single {w : DWord} (h63 : w.getLsbD 63 = false) (ha : opcodeAssigned (opField w) = true)
    (h : ofSingle w = some i) : decodeRaw w = i := by
  have ha : opcodeAssigned (w.extractLsb' 54 9).toNat = true := ha
  simp only [decodeRaw, unassigned, h63, ha, h, Bool.false_eq_true, if_false, Bool.not_true, Option.getD_some]

theorem decodeRaw_packF {f : FWord} (ha : opcodeAssigned n.toNat = true) (hr : n.toNat ≠ 0x186) (hI : ∀ g, ofI n.toNat g = none)
    (hM : ∀ g, ofM n.toNat g = none) (hB : ∀ g, ofB n.toNat g = none) (hF : ofF n.toNat f = some i) : decodeRaw (packF n f) = i := by
  have ho : opField (packF n f) = n.toNat := by
    simp -index only [opField, packF, BitVec.extractLsb'_append_eq_right, BitVec.extractLsb'_append_eq_of_le, Nat.reduceLeDiff,
      Nat.reduceSub]
  refine decodeRaw_of_single ?_ (ho ▸ ha) ?_
  · simp -index only [packF, BitVec.getLsbD_append, Nat.reduceLT, Nat.reduceSub, if_false, BitVec.getLsbD_zero]
  · simp only [ofSingle, ho, if_neg hr, hI, hM, hB, readF_packF, hF]

theorem decodeRaw_packI {f : IWord} (ha : opcodeAssigned n.toNat = true) (hr : n.toNat ≠ 0x186) (hI : ofI n.toNat f = some i) :
    decodeRaw (packI n f) = i := by
  have ho : opField (packI n f) = n.toNat := by
    simp -index only [opField, packI, BitVec.extractLsb'_append_eq_right, BitVec.extractLsb'_append_eq_of_le, Nat.reduceLeDiff,
      Nat.reduceSub]
  refine decodeRaw_of_single ?_ (ho ▸ ha) ?_
  · simp -index only [packI, BitVec.getLsbD_append, Nat.reduceLT, Nat.reduceSub, if_false, BitVec.getLsbD_zero]
  · simp only [ofSingle, ho, if_neg hr, readI_packI, hI]

theorem decodeRaw_packM {f : MWord} (ha : opcodeAssigned n.toNat = true) (hr : n.toNat ≠ 0x186) (hI : ∀ g, ofI n.toNat g = none)
    (hM : ofM n.toNat f = some i) : decodeRaw (packM n f) = i := by
  have ho : opField (packM n f) = n.toNat := by
    simp -index only [opField, packM, BitVec.extractLsb'_append_eq_right, BitVec.extractLsb'_append_eq_of_le, Nat.reduceLeDiff,
      Nat.reduceSub]
  refine decodeRaw_of_single ?_ (ho ▸ ha) ?_
  · simp -index only [packM, BitVec.getLsbD_append, Nat.reduceLT, Nat.reduceSub, if_false, BitVec.getLsbD_zero]
  · simp only [ofSingle, ho, if_neg hr, hI, readM_packM, hM]

theorem decodeRaw_packB {f : BWord} (ha : opcodeAssigned n.toNat = true) (hr : n.toNat ≠ 0x186) (hI : ∀ g, ofI n.toNat g = none)
    (hM : ∀ g, ofM n.toNat g = none) (hB : ofB n.toNat f = some i) : decodeRaw (packB n f) = i := by
  have ho : opField (packB n f) = n.toNat := by
    simp -index only [opField, packB, BitVec.extractLsb'_append_eq_right, BitVec.extractLsb'_append_eq_of_le, Nat.reduceLeDiff,
      Nat.reduceSub]
  refine decodeRaw_of_single ?_ (ho ▸ ha) ?_
  · simp -index only [packB, BitVec.getLsbD_append, Nat.reduceLT, Nat.reduceSub, if_false, BitVec.getLsbD_zero]
  · simp only [ofSingle, ho, if_neg hr, hI, hM, readB_packB, hB]

theorem decodeRaw_packRep (f : RepWord) : decodeRaw (packRep f) = .rep f := by
  have ho : opField (packRep f) = 0x186 := by
    simp -index only [opField, packRep, BitVec.extractLsb'_append_eq_right, BitVec.extractLsb'_append_eq_of_le, Nat.reduceLeDiff,
      Nat.reduceSub, BitVec.toNat_ofNat, Nat.reducePow, Nat.reduceMod]
  refine decodeRaw_of_single ?_ (ho ▸ rfl) ?_
  · simp -index only [packRep, BitVec.getLsbD_append, Nat.reduceLT, Nat.reduceSub, if_false, BitVec.getLsbD_zero]
  · simp only [ofSingle, ho, if_true, readRep_packRep]

theorem decodeRaw_packPair {rsv : Bool} {a b : Slot} (hu : unassigned (packPair rsv a b) = false) :
    decodeRaw (packPair rsv a b) = .pairWord rsv a b := by
  have h63 : (packPair rsv a b).getLsbD 63 = true := by
    simp -index only [packPair, BitVec.getLsbD_append, Nat.reduceLT, Nat.reduceSub, if_false, BitVec.getLsbD_one, decide_true,
      Bool.and_self]
  have h62 : (packPair rsv a b).getLsbD 62 = rsv := by
    simp -index only [packPair, BitVec.getLsbD_append, Nat.reduceLT, Nat.reduceSub, if_true, if_false, BitVec.getLsbD_ofBool,
      decide_true, Bool.true_and]
  simp only [decodeRaw, hu, h63, h62, Bool.false_eq_true, if_true, if_false, readSlot_high_packPair, readSlot_low_packPair]

/-- The decoder gives back the instruction whose word is encoded. -/
theorem decodeRaw_of_encode {w : DWord} (h : encode i = some w) (hi : ∀ v, i ≠ .illegalOpcode v)
    (hu : ∀ rsv a b, i = .pairWord rsv a b → unassigned w = false) : decodeRaw w = i := by
  cases i with
  | illegalOpcode v => exact absurd rfl (hi v)
  | pairWord rsv a b =>
    cases h
    exact decodeRaw_packPair (hu rsv a b rfl)
  | rep f =>
    cases h
    exact decodeRaw_packRep f
  | movi f | movhi f | fmovi f =>
    cases h
    exact decodeRaw_packI rfl (by decide) rfl
  | bra f | call f | loop f =>
    cases h
    exact decodeRaw_packB rfl (by decide) (fun _ => rfl) (fun _ => rfl) rfl
  | ld f | st f | lds f | sts f | ldf f | stf f | sete f | setf f | atom f | atoms f | pref f | discard f | lastuse f | flushl f
  | invl f =>
    cases h
    exact decodeRaw_packM rfl (by decide) (fun _ => rfl) rfl
  | _ => cases h <;> exact decodeRaw_packF rfl (by decide) (fun _ => rfl) (fun _ => rfl) (fun _ => rfl) rfl

theorem decode_of_wellFormed {w : DWord} (h : decodeRaw w = i) (hw : WellFormed i) : decode w = .ok i := by
  simp only [decode, h, hw.1]

end

/-- Settles O42: encoding cuts and joins the same fields that decoding reads, opcode by opcode. -/
theorem roundTrip : Obligations.RoundTrip :=
  ⟨fun _ _ h hi hu => ⟨decodeRaw_of_encode h hi hu, decode_of_wellFormed (decodeRaw_of_encode h hi hu)⟩, encode_decodeRaw⟩

end Sys2Proof
end

section
/-! The arithmetic words: alone, in a pair, and repeated (R48, R51, R63 to R67, R72, R76, R77, R93, R94, R305).

What such a word commits is said once, for any results and any state (`commitArith_committed`); a single word, a slot and an
execution of a REP differ only in which state their results come from. -/

namespace Sys2Proof.Machine

/-! ### Predicates written one after another (R305) -/

section
variable (co : Course) (k : Nat) (act bits : Mask)

/-- A lane mask per predicate, of which one is cleared in some lanes. -/
theorem getLsbD_vset_cleared (v : Vector Mask 8) {k n l : Nat} (act : Mask) (hk : k < 7) (hn : n < 8) (hl : l < 32) :
    (vget (vset v k (vget v 0#32 k &&& ~~~act)) 0#32 n).getLsbD l =
      (!(n < 7 && n == k && act.getLsbD l) && (vget v 0#32 n).getLsbD l) := by
  by_cases hnk : k = n
  · subst hnk
    rw [vget_vset_same _ _ _ _ hn, BitVec.getLsbD_and, BitVec.getLsbD_not]
    simp [hk, hl, Bool.and_comm]
  · rw [vget_vset_ne _ _ _ _ _ hnk]
    simp [Ne.symm hnk]

/-- A predicate written in some lanes loses its poison in them, and with it the mark of its report (R57). -/
theorem Course.poison_writeP {n l : Nat} (hn : n < 8) (hl : l < 32) :
    (vget (co.writeP k act bits).pBad 0#32 n).getLsbD l =
      (!(n < 7 && n == k && act.getLsbD l) && (vget co.pBad 0#32 n).getLsbD l) ∧
    (vget (co.writeP k act bits).pNoted 0#32 n).getLsbD l =
      (!(n < 7 && n == k && act.getLsbD l) && (vget co.pNoted 0#32 n).getLsbD l) := by
  unfold Course.writeP
  split
  next hk => exact ⟨getLsbD_vset_cleared _ act hk hn hl, getLsbD_vset_cleared _ act hk hn hl⟩
  next hk =>
    have hnk : (decide (n < 7) && n == k && act.getLsbD l) = false := by
      rw [Bool.and_eq_false_iff]
      left
      simp only [Bool.and_eq_false_iff, decide_eq_false_iff_not, beq_eq_false_iff_ne]
      omega
    simp only [hnk, Bool.not_false, Bool.true_and, and_self]

/-- Besides the predicates and their poison a write of one changes nothing. -/
theorem Course.writeP_rest (p pBad pNoted : Vector Mask 8) : { co.writeP k act bits with p := p, pBad := pBad, pNoted := pNoted } =
    { co with p := p, pBad := pBad, pNoted := pNoted } := by
  unfold Course.writeP
  split
  · rfl
  · rfl

end

/-- The predicates p0 to p(n-1) written from the bits that f gives each (R305). -/
def Course.putPreds (act : Mask) (f : Nat → Mask) (n : Nat) (co : Course) : Course :=
  (List.range n).foldl (fun acc i => acc.writeP i act (f i)) co

section
variable (co : Course) (act : Mask) (f : Nat → Mask)

theorem Course.putPreds_succ (n : Nat) : co.putPreds act f (n + 1) = (co.putPreds act f n).writeP n act (f n) := by
  simp only [Course.putPreds, List.range_succ, List.foldl_append, List.foldl_cons, List.foldl_nil]

theorem Course.putPreds_rest (n : Nat) (p pBad pNoted : Vector Mask 8) :
    { co.putPreds act f n with p := p, pBad := pBad, pNoted := pNoted } = { co with p := p, pBad := pBad, pNoted := pNoted } := by
  induction n with
  | zero => rfl
  | succ n ih => rw [Course.putPreds_succ, Course.writeP_rest, ih]

/-- Lane l of predicate i after the first n predicates are written. -/
theorem Course.putPreds_lane {i l n : Nat} (hi : i < 8) (hl : l < 32) (hn : n ≤ 7) :
    (vget (co.putPreds act f n).p 0#32 i).getLsbD l =
      (if i < n && act.getLsbD l then (f i).getLsbD l else (vget co.p 0#32 i).getLsbD l) ∧
    (vget (co.putPreds act f n).pBad 0#32 i).getLsbD l =
      (!(i < n && act.getLsbD l) && (vget co.pBad 0#32 i).getLsbD l) ∧
    (vget (co.putPreds act f n).pNoted 0#32 i).getLsbD l =
      (!(i < n && act.getLsbD l) && (vget co.pNoted 0#32 i).getLsbD l) := by
  induction n with
  | zero => exact ⟨rfl, rfl, rfl⟩
  | succ n ih =>
    obtain ⟨hp, hbad, hnoted⟩ := ih (by omega)
    obtain ⟨hb, hm⟩ := Course.poison_writeP (co.putPreds act f n) n act (f n) hi hl
    rw [Course.putPreds_succ, Course.p_writeP _ _ _ _ hi hl, hb, hm, hp, hbad, hnoted]
    by_cases h : i = n
    · subst h
      simp [show i < 7 by omega]
    · simp [h, show i < n + 1 ↔ i < n by omega]

end

/-! ### What an arithmetic word commits -/

theorem Course.writeFlags_eq (co : Course) (act : Mask) (pdst : Nat) (r : WordRes) : co.writeFlags act pdst r =
    { co.writeP pdst act r.pbits with
      fpflags := co.fpflags ||| r.fl.setWidth 32, seed := if act = 0#32 then co.seed else r.seed } := by
  simp only [Course.writeFlags, Course.orFlags, Course.fpflags_writeP]

section
variable {op : AOp} {w : FWord} {x : At} {act : Mask} {r : WordRes} {s : State} {co : Course}

/-- The results of an arithmetic word, from wherever they come, are committed: later, to the predicates, or at once. -/
theorem commitArith_committed (h : s.course x.c = some co) (hst : x.st < 4) :
    Committed op w x act r s (commitArith op w x act r s) := by
  unfold Committed commitArith
  split
  next hlong =>
    unfold pushLater
    split
    · exact produceLater_spec h hst
    · exact produceLater_spec (State.course_present (s := { s with nextId := _, arrivals := _ }) _ h) hst
  next hlong =>
    split
    next hput =>
      refine ⟨OnlyCourse.modCourse _ _ _, ?_, fun i l hi hl => ?_⟩
      · rw [State.courseD_modCourse _ h, State.courseD_eq h]
        exact Course.putPreds_rest ..
      · have hbits : bitOf (r.val l) i = (maskOf (fun l => bitOf (r.val l) i)).getLsbD l := by rw [getLsbD_maskOf]; simp [hl]
        rw [State.courseD_modCourse _ h, State.courseD_eq h, hbits]
        exact Course.putPreds_lane co act (fun i => maskOf (fun l => bitOf (r.val l) i)) hi hl le_rfl
    next hput =>
      simp only [← Course.writeFlags_eq]
      exact produce_spec (State.course_present _ h) hst

end

theorem Verdict.all_go {l : List Verdict} (h : ∀ v ∈ l, v = .go) : Verdict.all l = .go := by
  induction l with
  | nil => rfl
  | cons v t ih => rw [Verdict.all_cons, h v List.mem_cons_self, Verdict.go_and, ih fun u hu => h u (List.mem_cons_of_mem _ hu)]

theorem predChecks_go {x : At} {act : Mask} {l : List Nat} (hb : ∀ n ∈ l, badPred x act n = 0#32) :
    Verdict.all (l.map (predCheck x act)) = .go := by
  refine Verdict.all_go fun v hv => ?_
  obtain ⟨n, hn, rfl⟩ := List.mem_map.1 hv
  rw [predCheck, hb n hn]
  rfl

/-- The first checks of an arithmetic word that waits for nothing, whose sources can be read, and whose predicates are sound. -/
theorem arithFirst_go {op : AOp} {w : FWord} {x : At} {act : Mask} {s : State} (hw : arithWaits op w x act s = false)
    (hs : srcVerdict x s act (refsOf op w) = .go) (hb : ∀ n ∈ predReads op w, badPred x act n = 0#32) :
    arithFirst op w x act s = .go := by
  rw [arithFirst, hw, hs, predChecks_go hb]
  rfl

theorem arithCheck_go {op : AOp} {w : FWord} {x : At} {act : Mask} {s : State} (hf : formatOk op w x act s = true) :
    arithCheck op w x act s = .go := by
  rw [arithCheck, hf]
  rfl

end Sys2Proof.Machine

namespace Sys2Proof
open Sys2Proof.Machine

theorem Issues.arithWaits {op : AOp} {w : FWord} {x : At} {act : Mask} {pn : Bool} {pred : BitVec 3} {refs : List SrcRef} {s : State}
    (h : Issues x act pn pred w.d (arithWords op w) refs s) (hp : ∀ n ∈ predsOf op w, predPending x s n = false) :
    arithWaits op w x act s = false := by
  rw [Machine.arithWaits, h.dest, Bool.or_false, List.any_eq_false]
  exact fun n hn => by simp [hp n hn]

/-- An arithmetic word issues: its results are committed and its strand moves on. -/
theorem exec_arith_next {i : Instr} {op : AOp} {w : FWord} {x : At} {act : Mask} {s : State} (hi : arith? i = some (op, w))
    (h : Issues x act w.pn w.pred w.d (arithWords op w) (refsOf op w) s) (hp : ∀ n ∈ predsOf op w, predPending x s n = false)
    (hb : ∀ n ∈ predReads op w, badPred x act n = 0#32) (hf : formatOk op w x act s = true) :
    exec i s = .next (finish x (arithEffect op w x act s)) :=
  (exec_arith hi).trans (first_next h (arithFirst_go (h.arithWaits hp) h.go hb) (arithCheck_go hf))

/-- Settles O1. -/
theorem arithmeticWords : Obligations.ArithmeticWords := by
  intro i op w x act s hi h hp hb hf
  obtain ⟨co, hco⟩ := noteReads_present (act := act) (refs := refsOf op w) (preds := predReads op w) h.course
  exact ⟨_, exec_arith_next hi h hp hb hf, commitArith_committed hco h.slot⟩

end Sys2Proof

/-! ### Pairs (R63 to R67) -/

namespace Sys2Proof.Machine

/-- The parts of a frame that lets a word go. -/
theorem frameCheck_eq_go {x : At} {s : State} {pred : BitVec 3} :
    frameCheck x s pred = .go ↔ frameWait x s pred = false ∧ predCheck x x.sd.mask pred.toNat = .go := by
  unfold frameCheck
  cases frameWait x s pred
  · simp
  · simp

/-- The sources of a slot are those of its word under other operand fields, which do not bear on what they give. -/
theorem readable_slotRefs {base : Nat} {op : AOp} {w : FWord} {x : At} {act : Mask} {s : State}
    (h : ∀ r ∈ refsOf op w, ∀ l, l < 32 → act.getLsbD l = true → (r.read x act s l).full = true ∧ (r.read x act s l).poison = false) :
    ∀ r ∈ slotRefs base op w, ∀ l, l < 32 → act.getLsbD l = true → (r.read x act s l).full = true ∧ (r.read x act s l).poison = false := by
  intro r hr
  obtain ⟨q, hq, rfl⟩ := List.mem_map.1 hr
  exact h q hq

/-- The sources of two slots, each read in the lanes of its own slot, in whatever order they are taken. -/
theorem srcsVerdict_pair_go {x : At} {s : State} {aa ab : Mask} {la lb : List SrcRef} {l : List (Mask × SrcRef)}
    (hl : l ⊆ la.map (fun r => (aa, r)) ++ lb.map (fun r => (ab, r)))
    (ha : ∀ r ∈ la, ∀ l, l < 32 → aa.getLsbD l = true → (r.read x aa s l).full = true ∧ (r.read x aa s l).poison = false)
    (hb : ∀ r ∈ lb, ∀ l, l < 32 → ab.getLsbD l = true → (r.read x ab s l).full = true ∧ (r.read x ab s l).poison = false) :
    srcsVerdict x s l = .go := by
  refine srcsVerdict_go fun e he => ?_
  rcases List.mem_append.1 (hl he) with he | he
  · obtain ⟨r, hr, rfl⟩ := List.mem_map.1 he
    exact ha r hr
  · obtain ⟨r, hr, rfl⟩ := List.mem_map.1 he
    exact hb r hr

/-- The verdict of a pair whose slots may both issue. -/
theorem pairVerdict_go {oa ob : AOp} {wa wb : FWord} {x : At} {s : State}
    (ha : Issues x (slotAct x wa) false wa.pred wa.d (arithWords oa wa) (refsOf oa wa) s)
    (hb : Issues x (slotAct x wb) false wb.pred wb.d (arithWords ob wb) (refsOf ob wb) s)
    (hp : ∀ n ∈ predsOf oa wa ++ predsOf ob wb, predPending x s n = false)
    (hba : ∀ n ∈ predReads oa wa, badPred x (slotAct x wa) n = 0#32) (hbb : ∀ n ∈ predReads ob wb, badPred x (slotAct x wb) n = 0#32) :
    pairVerdict (oa, wa) (ob, wb) x s = .go := by
  obtain ⟨hwa, hca⟩ := frameCheck_eq_go.1 ha.unheld
  obtain ⟨hwb, hcb⟩ := frameCheck_eq_go.1 hb.unheld
  have hsa := ha.arithWaits fun n hn => hp n (List.mem_append_left _ hn)
  have hsb := hb.arithWaits fun n hn => hp n (List.mem_append_right _ hn)
  simp only [pairVerdict, hwa, hwb, hsa, hsb, hca, hcb, predChecks_go hba, predChecks_go hbb, Bool.or_self, Verdict.waitIf_false,
    Verdict.go_and, Verdict.all_cons, Verdict.all_nil]
  rw [srcsVerdict_pair_go (List.append_subset.2 ⟨List.filter_subset_self _, List.filter_subset_self _⟩) (readable_slotRefs ha.readable)
    (readable_slotRefs hb.readable), Verdict.go_withPoison]

/-! ### Courses stay where they are -/

theorem produce_course (x : At) (act : Mask) (d : BitVec 8) (words : Nat) (signed : Bool) (val : Nat → Nat) (s : State) (k : Nat) :
    ((produce x act d words signed val s).course k).isSome = (s.course k).isSome := by
  unfold produce writeNamed State.modStrand
  dsimp only
  split
  · rw [State.course_isSome_modCourse, State.course_isSome_modCourse]
  · split
    · split
      · rw [State.course_isSome_modCourse]
      · rw [State.course_isSome_modCourse, State.course_isSome_modCourse]
    · rw [State.course_isSome_modCourse]

theorem produceLater_course (x : At) (act : Mask) (d : BitVec 8) (words id : Nat) (s : State) (k : Nat) :
    ((produceLater x act d words id s).course k).isSome = (s.course k).isSome := by
  unfold produceLater State.modStrand
  dsimp only
  split
  · rw [State.course_isSome_modCourse]
  · split
    · rw [State.course_isSome_modCourse, State.course_isSome_modCourse]
    · split
      · rw [State.course_isSome_modCourse, State.course_isSome_modCourse]
      · rw [State.course_isSome_modCourse]

theorem commitArith_course (op : AOp) (w : FWord) (x : At) (act : Mask) (r : WordRes) (s : State) (k : Nat) :
    ((commitArith op w x act r s).course k).isSome = (s.course k).isSome := by
  unfold commitArith pushLater
  split
  · split
    · exact produceLater_course ..
    · exact (produceLater_course ..).trans (State.course_isSome_modCourse ..)
  · split
    · exact State.course_isSome_modCourse ..
    · exact (produce_course ..).trans (State.course_isSome_modCourse ..)

end Sys2Proof.Machine

namespace Sys2Proof
open Sys2Proof.Machine

/-- Settles O3: slot A commits to the state after the reports of both, slot B to what slot A has left. -/
theorem pairWords : Obligations.PairWords := by
  intro rsv a b oa ob wa wb x s hw ha hb hia hib hp aa ab hba hbb s'
  have hgo : pairVerdict (oa, wa) (ob, wb) x s = .go := pairVerdict_go hia hib hp hba hbb
  have hexec : exec (.pairWord rsv a b) s = .next (pairEffect (oa, wa) (ob, wb) x s) := by
    show execPairWord rsv a b s = _
    simp only [execPairWord, hw, ha, hb]
    exact issueWord_go hia.here hgo
  obtain ⟨co, hco⟩ := noteReads_present (act := aa) (refs := slotRefs 5 oa wa) (preds := predReads oa wa) hia.course
  obtain ⟨co', hco'⟩ := noteReads_present (act := ab) (refs := slotRefs 7 ob wb) (preds := predReads ob wb) hco
  have ht := commitArith_course oa wa x aa (arithResult oa wa x aa s) s' x.c
  obtain ⟨ct, hct⟩ := Option.isSome_iff_exists.1 (ht.trans (Option.isSome_of_eq_some hco'))
  exact ⟨_, _, hexec, commitArith_committed hco' hia.slot, commitArith_committed hct hia.slot⟩

end Sys2Proof

/-! ### Repeats (R76, R77, R93, R94) -/

namespace Sys2Proof.Machine

theorem repMeaning_of_arith {i : Instr} {op : AOp} {w : FWord} (h : arith? i = some (op, w)) :
    repMeaning i = some (arithMeaning op w) := by
  simp only [repMeaning, h]

/-- No memory instruction is an arithmetic one. -/
theorem arith?_of_memMeaning {i : Instr} {m : Meaning} (h : memMeaning i = some m) : arith? i = none := by
  unfold memMeaning at h
  split at h
  case h_16 => cases h
  all_goals rfl

theorem repMeaning_of_mem {i : Instr} {m : Meaning} (h : memMeaning i = some m) : repMeaning i = some m := by
  simp only [repMeaning, arith?_of_memMeaning h, h]

theorem fetchWord_course {cx : Ctx} {pc : DWord} {s s1 : State} {r : Except Trap DWord} (h : fetchWord cx pc s = (s1, r)) (k : Nat) :
    s1.course k = s.course k := by
  have := OnlyPosted.fetchWord cx pc s
  rw [h] at this
  exact State.course_of_courses this.courses k

/-- One execution of the word that a REP repeats, whose own verdict lets it go (R93). -/
theorem exec_rep_next {w : RepWord} {word : DWord} {x : At} {s s1 : State} {m : Meaning} (hx : s.at_ = some x)
    (hfetch : fetchWord (x.ctx s) (x.sd.pc + 8#64) s = (s1, .ok word)) (htrap : x.sd.repi = 0 → repTrap w word = none)
    (hm : repMeaning (decodeRaw (steppedWord w word x.sd.repi)) = some m)
    (hgo : m.verdict { x with rep := some (x.sd.repi, w.count.toNat) } s1 = .go) :
    exec (.rep w) s = .next (m.effect { x with rep := some (x.sd.repi, w.count.toNat) } s1) := by
  show execRep w s = _
  have htrap : (if x.sd.repi = 0 then repTrap w word else none) = none := by
    split
    next h => exact htrap h
    next => rfl
  simp only [execRep, hx, hfetch, htrap, runRep, hm, hgo]

end Sys2Proof.Machine

namespace Sys2Proof
open Sys2Proof.Machine

/-- Settles O4. -/
theorem repWords : Obligations.RepWords := by
  intro w word x s s1 hx hfetch htrap i y
  obtain ⟨-, hco, -, -, hst, -⟩ := State.at_some hx
  refine ⟨fun op v act hi hact hframe hwait hb hf hread => ?_, fun m hm hgo => ?_⟩
  · subst hact
    have hgo : (arithMeaning op v).verdict y s1 = .go := by
      have hfirst := arithFirst_go (x := y) hwait (srcVerdict_go hread) hb
      simp only [arithMeaning, firstMeaning]
      rw [show activeOf y v.pn v.pred = activeOf x v.pn v.pred from rfl, hfirst, framed_go, hframe, arithCheck_go hf]
      rfl
    have hco : s1.course x.c = some x.co := (fetchWord_course hfetch x.c).trans hco
    obtain ⟨co, hco⟩ := noteReads_present (x := y) (act := activeOf x v.pn v.pred) (refs := refsOf op v) (preds := predReads op v) hco
    exact ⟨_, exec_rep_next hx hfetch htrap (repMeaning_of_arith hi) hgo, commitArith_committed hco hst⟩
  · exact exec_rep_next hx hfetch htrap (repMeaning_of_mem hm) hgo

end Sys2Proof
end

section
/-! Reading sources where nothing is to be reported (R57, R142). -/

namespace Sys2Proof.Machine

/-- Nothing of a source's words is to be reported: what lanes outside the active ones hold poisoned has been reported. -/
def SrcRef.Reported (r : SrcRef) (y : At) (act : Mask) : Prop :=
  ∀ i l, i < r.span → l < 32 → y.sd.mask.getLsbD l = true → act.getLsbD l = false → (r.word y i l).poison = true →
    (r.word y i l).noted = true

/-- The registers that a source's words stand in, by the range of its code (R68). -/
theorem SrcRef.reported_of_registers {r : SrcRef} {y : At} {act : Mask}
    (h : ∀ i l, i < r.span → l < 32 → y.sd.mask.getLsbD l = true → act.getLsbD l = false →
      let c := r.code.toNat
      (c < 0x10 → (y.sd.queueAt l (c + i)).poison = true → (y.sd.queueAt l (c + i)).noted = true) ∧
      (0x20 ≤ c → c < 0x40 → (vget y.sd.g {} (c - 0x20)).poison = true → (vget y.sd.g {} (c - 0x20)).noted = true) ∧
      (0x40 ≤ c → c < 0x80 → (y.co.vAt (c - 0x40 + i) l).poison = true → (y.co.vAt (c - 0x40 + i) l).noted = true)) :
    r.Reported y act := by
  intro i l hi hl hmask hact
  obtain ⟨hq, hg, hv⟩ := h i l hi hl hmask hact
  unfold SrcRef.word
  dsimp only
  split
  next hc => exact hq hc
  next =>
    split
    next hc =>
      simp only [Bool.and_eq_true, decide_eq_true_eq] at hc
      exact hv hc.1 hc.2
    next =>
      split
      next hc =>
        simp only [Bool.and_eq_true, decide_eq_true_eq] at hc
        exact hg hc.1.1 hc.1.2
      next => exact fun hp => nomatch hp

theorem latentMask_zero {r : SrcRef} {y : At} {act : Mask} {i : Nat} (h : r.Reported y act) (hi : i < r.span) :
    latentMask y act r i = 0#32 := by
  refine maskOf_zero fun l hl => ?_
  by_contra hne
  simp only [Bool.not_eq_false, Bool.and_eq_true, Bool.not_eq_true'] at hne
  obtain ⟨⟨⟨hmask, hact⟩, hpoison⟩, hnoted⟩ := hne
  rw [h i l hi hl hmask hact hpoison] at hnoted
  cases hnoted

/-- A fold of changes none of which changes the state. -/
theorem foldl_fixed {α : Type} {f : State → α → State} {l : List α} {s : State} (h : ∀ a ∈ l, f s a = s) : l.foldl f s = s := by
  induction l with
  | nil => rfl
  | cons a t ih => rw [List.foldl_cons, h a List.mem_cons_self, ih fun b hb => h b (List.mem_cons_of_mem _ hb)]

section
variable {x : At} {act : Mask} {s : State}

theorem noteLatentOne_reported {r : SrcRef} (h : r.Reported (x.now s) act) : noteLatentOne x act s r = s :=
  foldl_fixed fun i hi => by rw [noteLatentWord, latentMask_zero h (List.mem_range.1 hi), if_pos rfl]

theorem acquireFilled_none {refs : List SrcRef} (h : act = 0#32 ∨ ∀ r ∈ refs, ∀ n ∈ r.vregs, n ∉ x.co.filled) :
    acquireFilled x act refs s = s := by
  refine if_pos ?_
  rw [Bool.or_eq_true, decide_eq_true_eq, Bool.not_eq_true', List.any_eq_false]
  refine h.imp id fun h n hn hc => ?_
  obtain ⟨r, hr, hnr⟩ := List.mem_flatMap.1 (List.contains_iff_mem.1 hc)
  exact h r hr n hnr hn

theorem noteLatentPred_reported {n : Nat} (h : ∀ l, l < 32 → x.sd.mask.getLsbD l = true → act.getLsbD l = false →
      (vget (s.courseD x.c).pBad 0#32 n).getLsbD l = true → (vget (s.courseD x.c).pNoted 0#32 n).getLsbD l = true) :
    noteLatentPred x act s n = s := by
  refine if_pos (BitVec.eq_of_getLsbD_eq fun l hl => ?_)
  have h := h l hl
  simp only [BitVec.getLsbD_and, BitVec.getLsbD_not, hl, decide_true, Bool.true_and, BitVec.getLsbD_zero]
  cases hm : x.sd.mask.getLsbD l
  · rfl
  · cases ha : act.getLsbD l
    · cases hb : (vget (s.courseD x.c).pBad 0#32 n).getLsbD l
      · rfl
      · rw [h hm ha hb]; rfl
    · rfl

end

end Sys2Proof.Machine

namespace Sys2Proof
open Sys2Proof.Machine

/-- Settles O36: no word of a source is in a lane to be reported, so every report is left out. -/
theorem quietSources : Obligations.QuietSources := by
  intro x act refs preds s y hrefs hfilled
  have hlatent : noteLatent x act refs s = s := by
    have hone : refs.foldl (noteLatentOne x act) s = s :=
      foldl_fixed fun r hr => noteLatentOne_reported (SrcRef.reported_of_registers (hrefs r hr))
    rw [noteLatent, hone, acquireFilled_none hfilled]
  refine ⟨hlatent, fun hpreds => ?_⟩
  rw [noteReads, hlatent]
  exact foldl_fixed fun n hn => noteLatentPred_reported (hpreds n hn)

end Sys2Proof
end

section
/-! The move to the next word (R58, R93, R94, R382).

The only live strand of a course, when it stands in no divergent branch, waits for nothing and is marked at no barrier, meets no
other strand where it arrives, and no barrier or JOIN is decided by its move (`moveTo_sole`, `tidy_sole`). -/

namespace Sys2Proof.Machine

/-! ### One course changed twice -/

theorem Tab.put_put {α : Type} (t : Tab α) (i : Nat) (a b : α) : Tab.put (Tab.put t i a) i b = Tab.put t i b := by
  induction t with
  | nil => simp [Tab.put]
  | cons e t ih =>
    obtain ⟨k, c⟩ := e
    simp only [Tab.put]
    split
    · simp [Tab.put]
    · split
      · simp [Tab.put]
      · next h1 h2 => simp only [Tab.put, if_neg h1, if_neg h2, ih]

theorem Tab.upd_upd {α : Type} (t : Tab α) (i : Nat) (f g : α → α) :
    Tab.upd (Tab.upd t i f) i g = Tab.upd t i (fun a => g (f a)) := by
  cases h : Tab.find t i with
  | none => simp [Tab.upd, h]
  | some a => simp [Tab.upd, h, Tab.put_put]

section
variable {s : State} {c st : Nat} {co : Course}

theorem State.modCourse_modCourse (f g : Course → Course) :
    (s.modCourse c f).modCourse c g = s.modCourse c (fun co => g (f co)) := by
  simp only [State.modCourse, Tab.upd_upd]

/-- Two changes of a course that do the same to it as it stands. -/
theorem State.modCourse_congr {f g : Course → Course} (h : s.course c = some co) (hfg : f co = g co) :
    s.modCourse c f = s.modCourse c g := by
  have h : Tab.find s.courses c = some co := h
  simp only [State.modCourse, Tab.upd, h, hfg]

theorem vset_vset {α : Type} {n : Nat} (x : Vector α n) (i : Nat) (a b : α) : vset (vset x i a) i b = vset x i b := by
  simp only [vset, List.set_set]

theorem State.modStrand_modStrand (f g : Strand → Strand) (hst : st < 4) :
    (s.modStrand c st f).modStrand c st g = s.modStrand c st (fun y => g (f y)) := by
  have h : ∀ co : Course, (co.modStrand st f).modStrand st g = co.modStrand st (fun y => g (f y)) := fun co => by
    simp only [Course.modStrand, Course.strand, vget_vset_same _ _ _ _ hst, vset_vset]
  simp only [State.modStrand, State.modCourse_modCourse, h]

theorem State.modStrand_congr {f g : Strand → Strand} (h : s.course c = some co) (hfg : f (co.strand st) = g (co.strand st)) :
    s.modStrand c st f = s.modStrand c st g := State.modCourse_congr h (by simp only [Course.modStrand, hfg])

end

theorem State.course_present_modStrand {s : State} {c st : Nat} {co : Course} (f : Strand → Strand) (h : s.course c = some co) :
    (s.modStrand c st f).course c = some (co.modStrand st f) := State.course_present _ h

/-! ### A course with one plain strand -/

/-- Strand st is the only live one of the course, has deferred no lanes, waits for nothing and is marked at no barrier. -/
structure Course.Sole (co : Course) (st : Nat) : Prop where
  only : co.liveStrands = [st]
  plain : (co.strand st).dstack = []
  goes : (co.strand st).wait = .none
  unmarked : (co.strand st).mark = none

theorem Course.liveStrands_congr {co co' : Course} (h : ∀ i, i < 4 → (co'.strand i).live = (co.strand i).live) :
    co'.liveStrands = co.liveStrands :=
  List.filter_congr fun i hi => h i (List.mem_range.1 hi)

section
variable {s : State} {c st : Nat} {co : Course}

/-- A change of the one strand's numbers leaves it the only one. -/
theorem Course.Sole.modStrand {f : Strand → Strand} (h : co.Sole st) (hst : st < 4)
    (hf : ∀ y : Strand, (f y).live = y.live ∧ (f y).dstack = y.dstack ∧ (f y).wait = y.wait ∧ (f y).mark = y.mark) :
    (co.modStrand st f).Sole st := by
  have he : (co.modStrand st f).strand st = f (co.strand st) := by rw [Course.strand_modStrand _ _ _ _ hst, if_pos rfl]
  obtain ⟨hlive, hstack, hwait, hmark⟩ := hf (co.strand st)
  refine ⟨(Course.liveStrands_congr fun i _ => ?_).trans h.only, ?_, ?_, ?_⟩
  · rw [Course.strand_modStrand _ _ _ _ hst]
    split
    next hi => rw [← hi, hlive]
    next => rfl
  · rw [he, hstack, h.plain]
  · rw [he, hwait, h.goes]
  · rw [he, hmark, h.unmarked]

theorem tidy_sole (h : s.course c = some co) (hs : co.Sole st) : tidy c s = s := by
  have hbar : barCheck c s = s := by
    simp only [barCheck, State.courseD_eq h, markedAll, hs.only, hs.unmarked]
  rw [tidy, hbar]
  simp only [joinCheck, State.courseD_eq h, hs.only, hs.goes]

/-- One strand meets no other. -/
theorem mergeAt_sole (h : s.course c = some co) (hs : co.Sole st) : mergeAt c st s = s := by
  have hlen : (mergers co (co.strand st).pc (co.strand st).depth).length < 2 := by
    refine (List.length_filter_le _ _).trans_lt ?_
    rw [hs.only]
    simp
  simp only [mergeAt, State.courseD_eq h]
  refine if_pos ?_
  rw [Bool.or_eq_true, decide_eq_true_eq]
  exact .inr hlen

theorem deferralGo_plain {y : Strand} (n : Nat) (h : y.dstack = []) : deferralGo n y = y := by
  cases n with
  | zero => rfl
  | succ n => simp only [deferralGo, h]

/-- The one strand sent to an address at which it is not to wait stands there, and nothing else has happened. -/
theorem moveTo_sole {pc : DWord} (h : s.course c = some co) (hst : st < 4) (hs : co.Sole st)
    (hj : (co.strand st).join ≠ some pc) : moveTo c st pc s = s.modStrand c st (fun y => { y with pc := pc }) := by
  generalize hu : s.modStrand c st (fun y => { y with pc := pc }) = u
  have hco : u.course c = some (co.modStrand st (fun y => { y with pc := pc })) := hu ▸ State.course_present _ h
  have hsole : (co.modStrand st (fun y => { y with pc := pc })).Sole st := hs.modStrand hst fun _ => ⟨rfl, rfl, rfl, rfl⟩
  have hsd : (co.modStrand st (fun y => { y with pc := pc })).strand st = { co.strand st with pc := pc } := by
    rw [Course.strand_modStrand _ _ _ _ hst, if_pos rfl]
  have hdefer : u.modStrand c st (deferralGo 12) = u := by
    rw [← hu, State.modStrand_modStrand _ _ hst]
    exact State.modStrand_congr h (deferralGo_plain 12 hs.plain)
  simp only [moveTo, hu, arriveAt, hdefer, mergeAt_sole hco hsole, State.courseD_eq hco, hsd]
  refine if_neg ?_
  simp [hj]

end

/-! ### The issue of a word -/

/-- What an issue makes of its own strand: level and age start again, and it is ready from the next cycle on (R382). -/
def Strand.restarted (now : Nat) (y : Strand) : Strand := { y with level := 0, age := 0, readySince := now + 1, wasReady := false }

/-- The course of a word that has issued: its strand's level and age have started again, and a sibling that yielded to it may
have become ready (R382, R397). -/
theorem issued_course {x : At} {u : State} {co : Course} (h : u.course x.c = some co) (hst : x.st < 4) :
    ∃ co', (issued x u).course x.c = some co' ∧ { co' with strands := co.strands } = co ∧
      co'.strand x.st = (co.strand x.st).restarted (u.clockOf x.c) ∧ ∀ i, i < 4 → (co'.strand i).live = (co.strand i).live := by
  unfold issued
  dsimp only
  generalize hf : (fun (i : Nat) (y : Strand) => if i = x.st then _ else _) = f
  have hco : (u.modCourse x.c (fun co => { co with strands := vmapIdx f co.strands })).course x.c =
      some { co with strands := vmapIdx f co.strands } := State.course_present _ h
  have hstrand : ∀ i, i < 4 → Course.strand { co with strands := vmapIdx f co.strands } i = f i (co.strand i) :=
    fun i hi => vget_vmapIdx _ _ _ _ _ hi
  refine ⟨{ co with strands := vmapIdx f co.strands }, ?_, rfl, ?_, fun i hi => ?_⟩
  · split
    · exact hco
    · exact hco
  · rw [hstrand _ hst, ← hf]
    exact if_pos rfl
  · rw [hstrand i hi, ← hf]
    dsimp only
    split
    · rfl
    · split <;> rfl

theorem issued_sole {x : At} {u : State} {co : Course} (h : u.course x.c = some co) (hst : x.st < 4) (hs : co.Sole x.st) :
    ∃ co', (issued x u).course x.c = some co' ∧ co'.Sole x.st ∧ (co'.strand x.st).join = (co.strand x.st).join := by
  obtain ⟨co', hco', -, hown, hlive⟩ := issued_course h hst
  refine ⟨co', hco', ⟨(Course.liveStrands_congr hlive).trans hs.only, ?_, ?_, ?_⟩, by rw [hown]; rfl⟩
  · rw [hown]; exact hs.plain
  · rw [hown]; exact hs.goes
  · rw [hown]; exact hs.unmarked

/-- A word outside a REP sends its strand to the next word (R58). -/
theorem finish_sole {x : At} {u : State} {co : Course} (h : u.course x.c = some co) (hst : x.st < 4) (hs : co.Sole x.st)
    (hrep : x.rep = none) (hj : (co.strand x.st).join ≠ some (x.sd.pc + 8#64)) :
    finish x u = (issued x u).modStrand x.c x.st (fun y => { y with pc := x.sd.pc + 8#64 }) := by
  obtain ⟨co', hco', hs', hj'⟩ := issued_sole h hst hs
  rw [finish, advance, hrep]
  dsimp only
  rw [moveTo_sole hco' hst hs' (hj' ▸ hj)]
  exact tidy_sole (State.course_present _ hco') (hs'.modStrand hst fun _ => ⟨rfl, rfl, rfl, rfl⟩)

/-- An execution within a REP that is not its last is counted (R93). -/
theorem finish_sole_rep {x : At} {u : State} {co : Course} {i n : Nat} (h : u.course x.c = some co) (hst : x.st < 4) (hs : co.Sole x.st)
    (hrep : x.rep = some (i, n)) (hi : i + 1 < n) :
    finish x u = (issued x u).modStrand x.c x.st (fun y => { y with repi := i + 1 }) := by
  obtain ⟨co', hco', hs', -⟩ := issued_sole h hst hs
  rw [finish, advance, hrep]
  dsimp only
  rw [if_pos hi]
  exact tidy_sole (State.course_present _ hco') (hs'.modStrand hst fun _ => ⟨rfl, rfl, rfl, rfl⟩)

/-- The last execution of a REP sends the strand behind the repeated word (R94). -/
theorem finish_sole_repEnd {x : At} {u : State} {co : Course} {i n : Nat} (h : u.course x.c = some co) (hst : x.st < 4)
    (hs : co.Sole x.st) (hrep : x.rep = some (i, n)) (hi : n ≤ i + 1) (hj : (co.strand x.st).join ≠ some (x.sd.pc + 16#64)) :
    finish x u = (issued x u).modStrand x.c x.st (fun y => { y with repi := 0, pc := x.sd.pc + 16#64 }) := by
  obtain ⟨co', hco', hs', hj'⟩ := issued_sole h hst hs
  have hco0 := State.course_present_modStrand (st := x.st) (fun y => { y with repi := 0 }) hco'
  have hs0 : (co'.modStrand x.st (fun y => { y with repi := 0 })).Sole x.st := hs'.modStrand hst fun _ => ⟨rfl, rfl, rfl, rfl⟩
  have hj0 : ((co'.modStrand x.st (fun y => { y with repi := 0 })).strand x.st).join ≠ some (x.sd.pc + 16#64) := by
    rw [Course.strand_modStrand _ _ _ _ hst, if_pos rfl]
    exact hj' ▸ hj
  rw [finish, advance, hrep]
  dsimp only
  rw [if_neg (by omega), moveTo_sole hco0 hst hs0 hj0]
  have hs1 := hs0.modStrand (f := fun y => { y with pc := x.sd.pc + 16#64 }) hst fun _ => ⟨rfl, rfl, rfl, rfl⟩
  refine (tidy_sole (State.course_present _ hco0) hs1).trans ?_
  exact State.modStrand_modStrand _ _ hst

end Sys2Proof.Machine

namespace Sys2Proof
open Sys2Proof.Machine

/-- Settles O37. -/
theorem nextWord : Obligations.NextWord := by
  intro x u co hst h hlive hstack hwait hmark
  have hs : co.Sole x.st := ⟨hlive, hstack, hwait, hmark⟩
  exact ⟨finish_sole h hst hs, fun i n hrep => ⟨finish_sole_rep h hst hs hrep, finish_sole_repEnd h hst hs hrep⟩⟩

end Sys2Proof
end

section
/-! The frame of an arithmetic word (R44, R45, R48, R58, R72, R169): what its commit leaves alone in its course, what the issue of
any word leaves alone, and the move to the next word, put together. -/

namespace Sys2Proof.Machine

/-! ### What an issue leaves alone -/

section
variable (x : At) (s : State)

theorem issued_courses : ∃ f, (issued x s).courses = Tab.upd s.courses x.c f := by
  unfold issued
  dsimp only
  split
  · exact ⟨_, rfl⟩
  · exact ⟨_, rfl⟩

/-- Of the cores an issue changes its own, and of that one what the matrix operations under way count (R347). -/
theorem issued_cores : (issued x s).cores = s.cores ∨
    ∃ mq, (issued x s).cores = Tab.put s.cores (coreOf x.c) { s.core (coreOf x.c) with mq := mq } := by
  unfold issued
  dsimp only
  split
  · exact .inl rfl
  · exact .inr ⟨_, rfl⟩

theorem issued_course_other {k : Nat} (hk : k ≠ x.c) : (issued x s).course k = s.course k := by
  obtain ⟨f, hf⟩ := issued_courses x s
  rw [State.course, hf, Tab.find_upd, if_neg (Ne.symm hk)]
  rfl

theorem issued_core_other {k : Nat} (hk : k ≠ coreOf x.c) : (issued x s).core k = s.core k := by
  rcases issued_cores x s with h | ⟨mq, h⟩
  · rw [State.core, h]; rfl
  · rw [State.core, h, Tab.getD_put, if_neg (Ne.symm hk)]; rfl

theorem issued_core_own : { (issued x s).core (coreOf x.c) with mq := (s.core (coreOf x.c)).mq } = s.core (coreOf x.c) := by
  rcases issued_cores x s with h | ⟨mq, h⟩
  · rw [State.core, h]; rfl
  · rw [State.core, h, Tab.getD_put, if_pos rfl]

/-- Of the accesses under way an issue changes what they count of younger words (R169). -/
theorem issued_accesses : (issued x s).accesses.map (fun e => (e.1, { e.2 with skid := 0, past := true })) =
    s.accesses.map (fun e => (e.1, { e.2 with skid := 0, past := true })) := by
  have h : ∀ e : Nat × Access, (fun e => (e.1, { e.2 with skid := 0, past := true }))
      (if e.2.course = x.c then (e.1, e.2.overtaken) else e) = (e.1, { e.2 with skid := 0, past := true }) := fun e => by
    split
    · unfold Access.overtaken
      split <;> rfl
    · rfl
  unfold issued
  dsimp only
  split
  · exact (List.map_map ..).trans (List.map_congr_left fun e _ => h e)
  · exact (List.map_map ..).trans (List.map_congr_left fun e _ => h e)

end

/-- What the move to the next word leaves of the state u, and of the course co in it: of the strand the address, the level, the age
and the readiness have changed, of the rest what every issue counts. -/
structure MovedOn (x : At) (co : Course) (u t : State) : Prop where
  course : ∃ co', t.course x.c = some co' ∧ { co' with strands := co.strands } = co ∧ (co'.strand x.st).pc = x.sd.pc + 8#64 ∧
    { co'.strand x.st with pc := (co.strand x.st).pc, level := (co.strand x.st).level, age := (co.strand x.st).age
                           readySince := (co.strand x.st).readySince, wasReady := (co.strand x.st).wasReady } = co.strand x.st
  courses : ∀ k, k ≠ x.c → t.course k = u.course k
  cores : ∀ k, k ≠ coreOf x.c → t.core k = u.core k
  core : { t.core (coreOf x.c) with mq := (u.core (coreOf x.c)).mq } = u.core (coreOf x.c)
  accesses : t.accesses.map (fun e => (e.1, { e.2 with skid := 0, past := true })) =
    u.accesses.map (fun e => (e.1, { e.2 with skid := 0, past := true }))
  rest : ∃ cs ks ac, t = { u with courses := cs, cores := ks, accesses := ac }

theorem finish_movedOn {x : At} {u : State} {co : Course} (h : u.course x.c = some co) (hst : x.st < 4) (hs : co.Sole x.st)
    (hrep : x.rep = none) (hj : (co.strand x.st).join ≠ some (x.sd.pc + 8#64)) : MovedOn x co u (finish x u) := by
  obtain ⟨co', hco', hrest, hown, -⟩ := issued_course h hst
  have hsd : (co'.modStrand x.st (fun y => { y with pc := x.sd.pc + 8#64 })).strand x.st =
      { (co.strand x.st).restarted (u.clockOf x.c) with pc := x.sd.pc + 8#64 } := by
    rw [Course.strand_modStrand _ _ _ _ hst, if_pos rfl, hown]
  rw [finish_sole h hst hs hrep hj]
  refine ⟨⟨_, State.course_present_modStrand _ hco', hrest, ?_, ?_⟩, fun k hk => ?_, fun k hk => issued_core_other x u hk,
    issued_core_own x u, issued_accesses x u, ?_⟩
  · rw [hsd]
  · rw [hsd]; rfl
  · exact ((State.course_modCourse ..).trans (if_neg (Ne.symm hk))).trans (issued_course_other x u hk)
  · obtain ⟨cs, ks, ac, he⟩ := issued_rest x u
    rw [he]
    exact ⟨_, _, _, rfl⟩

/-! ### What a commit leaves alone -/

/-- Course co' is co after a commit of strand st: its queue and g copies, the v registers, the predicates and their poison, FPFLAGS
and SEED may have changed. -/
structure Course.Committed (st : Nat) (co co' : Course) : Prop where
  own : { co'.strand st with q := (co.strand st).q, g := (co.strand st).g } = co.strand st
  others : ∀ i, i < 4 → i ≠ st → co'.strand i = co.strand i
  rest : { co' with strands := co.strands, v := co.v, p := co.p, pBad := co.pBad, pNoted := co.pNoted, fpflags := co.fpflags
                    seed := co.seed } = co

theorem Course.Committed.sole {st : Nat} {co co' : Course} (h : co.Committed st co') (hs : co.Sole st) : co'.Sole st := by
  refine ⟨(Course.liveStrands_congr fun i hi => ?_).trans hs.only, ?_, ?_, ?_⟩
  · by_cases hst : i = st
    · subst hst
      have hlive := congrArg Strand.live h.own
      exact hlive
    · rw [h.others i hi hst]
  · exact (congrArg Strand.dstack h.own).trans hs.plain
  · exact (congrArg Strand.wait h.own).trans hs.goes
  · exact (congrArg Strand.mark h.own).trans hs.unmarked

/-- The results of an arithmetic word that is no long-latency producer change no more than that of its course, and no other. -/
theorem commitArith_frame {op : AOp} {w : FWord} {x : At} {act : Mask} {r : WordRes} {s : State} {co : Course}
    (hlong : isLongLatency op = false) (h : s.course x.c = some co) (hst : x.st < 4) :
    ∃ co', (commitArith op w x act r s).course x.c = some co' ∧ OnlyCourse x.c s (commitArith op w x act r s) ∧
      co.Committed x.st co' := by
  have hsome := commitArith_course op w x act r s x.c
  obtain ⟨co', hco'⟩ := Option.isSome_iff_exists.1 (hsome.trans (Option.isSome_of_eq_some h))
  refine ⟨co', hco', ?_⟩
  have hc := commitArith_committed (op := op) (w := w) (act := act) (r := r) h hst
  unfold Sys2Proof.Committed at hc
  rw [if_neg (by simp [hlong])] at hc
  split at hc
  next hput =>
    obtain ⟨honly, hrest, -⟩ := hc
    rw [State.courseD_eq hco', State.courseD_eq h] at hrest
    have hstrand : ∀ i, co'.strand i = co.strand i := fun i => by rw [Course.strand, congrArg Course.strands hrest]; rfl
    exact ⟨honly, by rw [hstrand], fun i _ _ => hstrand i, congrArg (fun y => { y with
      strands := co.strands, v := co.v, fpflags := co.fpflags, seed := co.seed }) hrest⟩
  next hput =>
    obtain ⟨⟨honly, hrest, hothers, hown⟩, -, -, -⟩ := hc
    rw [State.courseD_modCourse _ h, State.courseD_eq hco'] at hrest hothers hown
    have hstrand : ∀ i, Course.strand { co.writeP w.pdst act r.pbits with
        fpflags := co.fpflags ||| r.fl.setWidth 32, seed := if act = 0#32 then co.seed else r.seed } i = co.strand i := fun i => by
      rw [Course.strand, Course.strands_writeP]; rfl
    rw [hstrand] at hown
    refine ⟨(OnlyCourse.modCourse _ _ _).trans honly, hown, fun i hi hne => (hothers i hi hne).trans (hstrand i), ?_⟩
    have hwrote := congrArg (fun y => { y with
      strands := co.strands, v := co.v, p := co.p, pBad := co.pBad, pNoted := co.pNoted, fpflags := co.fpflags, seed := co.seed }) hrest
    have hflags := congrArg (fun y => { y with strands := co.strands, v := co.v, fpflags := co.fpflags, seed := co.seed })
      (Course.writeP_rest co w.pdst act r.pbits co.p co.pBad co.pNoted)
    exact hwrote.trans hflags

end Sys2Proof.Machine

namespace Sys2Proof
open Sys2Proof.Machine

/-- Settles O38: what a commit leaves alone, then what the issue and the move to the next word leave alone. -/
theorem arithmeticFrame : Obligations.ArithmeticFrame := by
  intro i op w x act s hi hlong h hp hb hf halone hquiet
  obtain ⟨hlive, hstack, ⟨hwait, hmark⟩, hjoin, hrep⟩ := halone
  obtain ⟨-, -, hsd, -, -, -⟩ := State.at_some h.here
  obtain ⟨co, hco, ⟨honly, hother⟩, hframe⟩ := commitArith_frame (op := op) (w := w) (act := act)
    (r := arithResult op w x act s) hlong h.course h.slot
  have hexec := exec_arith_next hi h hp hb hf
  rw [arithEffect, hquiet] at hexec
  generalize commitArith op w x act (arithResult op w x act s) s = u at hco honly hother hexec
  have hsole : co.Sole x.st := hframe.sole ⟨hlive, hsd ▸ hstack, hsd ▸ hwait, hsd ▸ hmark⟩
  have hown := hframe.own
  rw [← hsd] at hown
  have hj : (co.strand x.st).join ≠ some (x.sd.pc + 8#64) := by
    have he := congrArg Strand.join hown
    exact fun hc => hjoin (he.symm.trans hc)
  obtain ⟨⟨co', hco', hrest, hpc, hmoved⟩, hcourses, hcores, hcore, hacc, cs, ks, ac, ht⟩ :=
    finish_movedOn hco h.slot hsole hrep hj
  have hcore' : ∀ k, u.core k = s.core k := fun k => by
    have he := congrArg (fun t => State.core t k) honly
    exact he
  have hacc' : u.accesses = s.accesses := by
    have he := congrArg State.accesses honly
    exact he
  have hmem : (finish x u).mem = s.mem := by
    have he := congrArg State.mem honly
    rw [ht]
    exact he
  refine ⟨_, co', hexec, hco', ?_, hpc, ?_, fun k hk => (hcourses k hk).trans (hother k hk), fun k hk => (hcores k hk).trans (hcore' k),
    ?_, ?_, fun a => by rw [hmem], ?_⟩
  · have he := congrArg (fun y : Strand => { y with q := x.sd.q, g := x.sd.g, pc := x.sd.pc, level := x.sd.level, age := x.sd.age
                                                    readySince := x.sd.readySince, wasReady := x.sd.wasReady }) hmoved
    have ho := congrArg (fun y : Strand => { y with pc := x.sd.pc, level := x.sd.level, age := x.sd.age
                                                    readySince := x.sd.readySince, wasReady := x.sd.wasReady }) hown
    exact he.trans ho
  · have he := congrArg (fun y : Course => { y with
      strands := x.co.strands, v := x.co.v, p := x.co.p, pBad := x.co.pBad, pNoted := x.co.pNoted, fpflags := x.co.fpflags
      seed := x.co.seed }) hrest
    exact he.trans hframe.rest
  · rw [← hcore']
    exact hcore
  · rw [hacc, hacc']
  · rw [ht]
    have he := congrArg (fun t : State => { t with courses := s.courses, cores := s.cores, accesses := s.accesses }) honly
    exact he

end Sys2Proof
end

section
/-! The words with one small effect, and the words that the spec writes out (R57, R58, R62, R63, R78, R96, R368, R396). -/

namespace Sys2Proof.Machine

/-- PRIO (R396): the field or the operand, no more than 15, as the base priority of the course, where any lane is active. -/
theorem exec_prio {w : FWord} {x : At} {act : Mask} {refs : List SrcRef} {s : State} {n : Nat}
    (hr : (if prioFromReg w then [numRef w 0 false] else []) = refs) (h : Issues x act w.pn w.pred 0xFF#8 0 refs s)
    (hn : (if prioFromReg w then (numRef w 0 false).low x act s else w.fld 0 4) = n) :
    exec (.prio w) s = .next (finish x (if act = 0#32 then noteLatent x act refs s
      else (noteLatent x act refs s).modCourse x.c (fun co => { co.cleanSreg 3 with prio := min 15 n }))) := by
  subst hr hn
  have e := sourced_next (pre := fun x act t => if act = 0#32 then .go else (fun _ _ => .go) x t)
    (v := fun x act t => if act = 0#32 then .go else (fun _ _ _ => .go) x ((numRef w 0 false).low x act t) t)
    (f := fun x act t => if act = 0#32 then t else t.modCourse x.c (fun co => { co.cleanSreg 3 with
      prio := min 15 (if prioFromReg w then (numRef w 0 false).low x act t else w.fld 0 4) })) h (ite_self _) (ite_self _)
  rw [SrcRef.low_noteLatent] at e
  exact e

end Sys2Proof.Machine

namespace Sys2Proof
open Sys2Proof.Machine

/-- Settles O10. -/
theorem plainWords : Obligations.PlainWords := by
  intro w x act s
  refine ⟨fun h => ⟨plain_next h rfl, plain_next h rfl, fun hw => ?_⟩, fun h hw => ?_⟩
  · have hr : prioFromReg w = false := beq_eq_false_iff_ne.2 hw
    have e := exec_prio (if_neg (ne_true_of_eq_false hr)) h (if_neg (ne_true_of_eq_false hr))
    rw [noteLatent_nil] at e
    exact e
  · have hr : prioFromReg w = true := beq_iff_eq.2 hw
    exact exec_prio (if_pos hr) h (if_pos hr)

/-- Settles O43, by reading the words. -/
theorem specWords : Obligations.SpecWords := ⟨rfl, rfl, rfl, rfl, rfl⟩

end Sys2Proof
end

section
/-! One step: which turn comes next, the word of a strand, and the end of a cycle (R56, R58, R77, R381, R414, notes/assumptions/2.md,
notes/assumptions/4.md). -/

namespace Sys2Proof.Machine

section
variable {s s1 : State} {c st : Nat} {w : DWord} {l : List Turn}

/-! ### The turn that comes next -/

/-- A step runs the first of the turns that come next. -/
theorem step_of_nextTurns {t : Turn} (h : nextTurns s = t :: l) : step s = runTurn t { s with agenda := l } := by
  simp only [step, turn, h]

theorem nextTurns_due {i : Instr} {b : Nat} {rest : List (Instr × Nat)} (ha : s.agenda = []) (hd : dueEvents s = (i, b) :: rest) :
    nextTurns s = [.event i b] := by
  simp only [nextTurns, ha, hd]

theorem nextTurns_again {e : Nat × Course} (ha : s.agenda = []) (hd : dueEvents s = [])
    (hf : s.courses.find? (fun e => (doAgain e.1 s).isSome) = some e) : nextTurns s = [.again e.1] := by
  simp only [nextTurns, ha, hd, hf]

theorem nextTurns_cycle (ha : s.agenda = []) (hd : dueEvents s = []) (hn : ∀ e ∈ s.courses, doAgain e.1 s = none) :
    nextTurns s = cycleTurns s := by
  have hf : s.courses.find? (fun e => (doAgain e.1 s).isSome) = none := by
    rw [List.find?_eq_none]
    intro e he
    simp [hn e he]
  simp only [nextTurns, ha, hd, hf]

/-! ### The word of a strand -/

/-- A word without a decode trap, and a REP in any case, has its meaning (R77). -/
theorem runDecoded_exec (h : wordTrap (decodeRaw w) = none ∨ ∃ r, decodeRaw w = .rep r) : runDecoded w s = exec (decodeRaw w) s := by
  unfold runDecoded
  rcases h with h | ⟨r, h⟩
  · simp only [h]
    split
    next => rfl
    next => rfl
    next hsome _ => cases hsome
  · simp only [h]

section
variable (hr : runnable s c st = true)
  (hf : fetchWord (s.ctx (s.courseD c).ctx) ((s.courseD c).strand st).pc { s with cur := some (c, st) } = (s1, .ok w))
include hr hf

theorem strandTurn_next {t : State} (ht : runDecoded w s1 = .next t) :
    strandTurn c st s = .next (endStep c st s { t with cur := none }) := by
  simp only [strandTurn, hr, if_true, strandWord, hf, ht]

theorem strandTurn_fault {f : Fault} (ht : runDecoded w s1 = .fault f) : strandTurn c st s = .fault f := by
  simp only [strandTurn, hr, if_true, strandWord, hf, ht]

end

end

/-! ### The end of a cycle -/

/-- Of a strand at most the age and the readiness have changed (R381, R382). -/
def Strand.Aged (y z : Strand) : Prop :=
  { z with age := y.age, wasReady := y.wasReady, readySince := y.readySince } = y

theorem Strand.Aged.trans {y z u : Strand} (h : y.Aged z) (g : z.Aged u) : y.Aged u := by
  have e := congrArg (fun v : Strand => { v with age := y.age, wasReady := y.wasReady, readySince := y.readySince }) g
  exact Eq.trans e h

theorem Strand.aged_passed (ready : Bool) (now : Nat) (y : Strand) : y.Aged (y.passed ready now) := by
  unfold Strand.passed
  split
  · rfl
  · rfl

/-- Of a course at most its strands have changed, and of each the age and the readiness. -/
def Course.Aged (co co' : Course) : Prop :=
  { co' with strands := co.strands } = co ∧ ∀ i, i < 4 → (co.strand i).Aged (co'.strand i)

theorem Course.Aged.refl (co : Course) : co.Aged co := ⟨rfl, fun _ _ => rfl⟩

theorem Course.Aged.trans {a b c : Course} (h : a.Aged b) (g : b.Aged c) : a.Aged c := by
  refine ⟨?_, fun i hi => (h.2 i hi).trans (g.2 i hi)⟩
  have e := congrArg (fun y : Course => { y with strands := a.strands }) g.1
  exact e.trans h.1

theorem Course.aged_modStrand (co : Course) (st : Nat) {f : Strand → Strand} (hf : ∀ y : Strand, y.Aged (f y)) :
    co.Aged (co.modStrand st f) := by
  refine ⟨rfl, fun i hi => ?_⟩
  by_cases h : st < 4
  · rw [Course.strand_modStrand _ _ _ _ h]
    split
    next he => exact he ▸ hf _
    next => rfl
  · rw [Course.modStrand, vset_out _ _ _ (by omega)]
    rfl

/-- The states agree but for their courses, which are the same ones grown older. -/
def OnlyAged (s t : State) : Prop :=
  (∃ cs, t = { s with courses := cs }) ∧ (∀ k, (t.course k).isSome = (s.course k).isSome) ∧
    ∀ k co, s.course k = some co → ∃ co', t.course k = some co' ∧ co.Aged co'

theorem OnlyAged.refl (s : State) : OnlyAged s s := ⟨⟨_, rfl⟩, fun _ => rfl, fun _ co h => ⟨co, h, .refl co⟩⟩

theorem OnlyAged.trans {s t u : State} (h : OnlyAged s t) (g : OnlyAged t u) : OnlyAged s u := by
  obtain ⟨⟨_, rfl⟩, hs, hc⟩ := h
  obtain ⟨⟨_, rfl⟩, gs, gc⟩ := g
  refine ⟨⟨_, rfl⟩, fun k => (gs k).trans (hs k), fun k co hk => ?_⟩
  obtain ⟨co', hk', ha⟩ := hc k co hk
  obtain ⟨co'', hk'', ha'⟩ := gc k co' hk'
  exact ⟨co'', hk'', ha.trans ha'⟩

theorem OnlyAged.modStrand (s : State) (c st : Nat) {f : Strand → Strand} (hf : ∀ y : Strand, y.Aged (f y)) :
    OnlyAged s (s.modStrand c st f) := by
  refine ⟨⟨_, rfl⟩, fun k => State.course_isSome_modCourse s c k _, fun k co hk => ?_⟩
  have e : (s.modStrand c st f).course k = if c = k then (s.course k).map (fun co => co.modStrand st f) else s.course k :=
    State.course_modCourse ..
  rw [e, hk]
  split
  · exact ⟨_, rfl, co.aged_modStrand st hf⟩
  · exact ⟨_, rfl, .refl co⟩

/-- The strands that did not issue in a cycle grow older, or stop being ready, and nothing else happens. -/
theorem ageStrands_onlyAged (selected waiting : List (Nat × Nat)) (s : State) : OnlyAged s (ageStrands selected waiting s) :=
  List.foldlRecOn _ _ (.refl s) fun t ht _ _ => ht.trans (OnlyAged.modStrand t _ _ (Strand.aged_passed _ _))

/-- A nanosecond changes clocks and the time for which a die has been quiet. -/
theorem tick_dies (s : State) (k : Nat) :
    { (tick s).die k with clock := (s.die k).clock, quiet := (s.die k).quiet } = s.die k := by
  by_cases hk : k < 8
  · unfold tick State.die
    dsimp only
    rw [vget_vmapIdx _ _ _ {} _ hk]
  · have out : ∀ v : Vector Die 8, vget v {} k = {} := fun v =>
      List.getD_eq_default _ _ (by simp; omega)
    rw [State.die, State.die, out, out]

end Sys2Proof.Machine

namespace Sys2Proof
open Sys2Proof.Machine

/-- Settles O44. -/
theorem stepRunsDecoded : Obligations.StepRunsDecoded := by
  intro s s1 c st w l hn s0 hr hf hw
  have hstep : step s = strandTurn c st s0 := step_of_nextTurns hn
  rw [← runDecoded_exec hw]
  exact ⟨fun t ht => hstep.trans (strandTurn_next hr hf ht), fun f hfault => hstep.trans (strandTurn_fault hr hf hfault)⟩

/-- Settles O45, turn by turn. -/
theorem stepRunsEvents : Obligations.StepRunsEvents := by
  refine ⟨fun s i bank l => step_of_nextTurns, fun s i b rest => nextTurns_due, fun s e ha hd hf => ?again, fun s ha hd hn => ?cycle,
    fun s c p corrected l hn => ⟨step_of_nextTurns hn, fun co hco => ?regError⟩, fun s i l => step_of_nextTurns,
    fun s sel waiting l hn => ?endCycle⟩
  case again =>
    have hn := nextTurns_again ha hd hf
    refine ⟨hn, fun t ht => (step_of_nextTurns hn).trans ?_⟩
    simp only [runTurn, ht, Option.getD_some]
  case cycle =>
    refine ⟨_, nextTurns_cycle ha hd hn, fun e => ?_⟩
    simp [List.mem_filter]
  case regError => simp only [regError, hco]
  case endCycle =>
    obtain ⟨⟨cs, hcs⟩, hsome, haged⟩ := ageStrands_onlyAged sel waiting { s with agenda := l }
    have hstep : step s = .next (tick (ageStrands sel waiting { s with agenda := l })) := step_of_nextTurns hn
    rw [hcs] at hstep hsome haged
    exact ⟨_, cs, hstep, fun k => tick_dies { s with agenda := l, courses := cs } k, hsome, fun k co hk => haged k co hk⟩

end Sys2Proof
end

section
/-! Words that decode with a trap and words that cannot be fetched (R62, R78, R82, R110): the trap of a word as the first one of its
shape, and the ways in which a fetch fails. -/

namespace Sys2Proof.Machine

/-! ### The trap of a word -/

section
variable {i : Instr} {w : FWord} {m : MWord}

theorem wordTrap_arith {op : AOp} (h : arith? i = some (op, w)) :
    wordTrap i = firstTrap ((op.shape w).encOk w) ((op.shape w).opdOk w) := by
  unfold wordTrap
  split
  case h_10 => rw [h]
  all_goals cases h

/-- A word of the memory group is no arithmetic one. -/
theorem arith?_of_memShape {p : MWord × MShape} (h : memShape i = some p) : arith? i = none := by
  unfold memShape at h
  split at h
  case h_16 => cases h
  all_goals rfl

theorem wordTrap_memShape {sh : MShape} (h : memShape i = some (m, sh)) : wordTrap i = firstTrap (sh.encOk m) (sh.opdOk m) := by
  unfold wordTrap
  split
  case h_10 => rw [arith?_of_memShape h, h]
  all_goals cases h

/-- A word of the other groups is neither an arithmetic one nor one of the memory group. -/
theorem arith?_memShape_of_otherShape {p : FWord × FShape} (h : otherShape i = some p) : arith? i = none ∧ memShape i = none := by
  unfold otherShape at h
  split at h
  case h_68 => cases h
  all_goals exact ⟨rfl, rfl⟩

theorem wordTrap_otherShape {sh : FShape} (h : otherShape i = some (w, sh)) : wordTrap i = firstTrap (sh.encOk w) (sh.opdOk w) := by
  obtain ⟨harith, hmem⟩ := arith?_memShape_of_otherShape h
  unfold wordTrap
  split
  case h_10 => rw [harith, hmem, h]
  all_goals cases h

end

/-! ### Words that trap whatever their operands -/

section
variable {s : State} {x : At} (hx : s.at_ = some x)
include hx

theorem trapWord_next (t : Trap) : trapWord t s = .next (takeTrap x.c x.st t s) := issueWord_trap hx rfl

theorem runDecoded_trap {w : DWord} {t : DecodeTrap} (ht : wordTrap (decodeRaw w) = some t) (hr : ∀ r, decodeRaw w ≠ .rep r) :
    runDecoded w s = .next (takeTrap x.c x.st (trapOfDecode t) s) := by
  unfold runDecoded
  dsimp only
  split
  · exact absurd ‹_› (hr _)
  · cases ht.symm.trans ‹_›
  · cases ht.symm.trans ‹_›
    exact trapWord_next hx _

/-! ### Words that cannot be fetched -/

/-- The strand whose fetch fails takes the trap of the fetch. -/
theorem execFetchFault_next {e : Trap} (he : (fetchWord (x.ctx s) x.sd.pc s).2 = .error e) :
    execFetchFault s = .next (takeTrap x.c x.st e s) :=
  issueWord_trap hx (by rw [show s.ctx x.co.ctx = x.ctx s from rfl, he])

end

section
variable {cx : Ctx} {pc : DWord} {s : State}

theorem fetchWord_error_code {s1 : State} {e : Trap} (h : fetchWord cx pc s = (s1, .error e)) : e.code = cFetchFault := by
  unfold fetchWord at h
  split at h
  · cases h; rfl
  · dsimp only at h
    split at h
    · cases h; rfl
    · split at h
      · cases h; rfl
      · split at h <;> cases h
        rfl

theorem fetchWord_no_range (h : codeRange cx pc.toNat = none) : fetchWord cx pc s = (s, .error { code := cFetchFault }) := by
  unfold fetchWord
  rw [h]

variable {i : Nat} {r : RangeReg} (hr : codeRange cx pc.toNat = some (i, r))
include hr

theorem fetchWord_misaligned (h : pc.toNat % 8 ≠ 0) :
    fetchWord cx pc s = (s, .error { code := cFetchFault, ia := rangeIa r pc.toNat }) := by
  unfold fetchWord
  rw [hr]
  exact if_pos (by simp [h])

/-- The fetch of a word in a page that no table maps and of which no translation is kept. -/
theorem fetchWord_unmapped {level reason : Nat} (hw : walk s cx.dev (rangeIa r pc.toNat) false = .fault level reason)
    (ht : Tab.find (s.dev cx.dev).tlb (rangeIa r pc.toNat / 4096) = none) :
    fetchWord cx pc s = (s, .error { code := cFetchFault, ia := rangeIa r pc.toNat }) := by
  unfold fetchWord
  rw [hr]
  dsimp only
  split
  · rfl
  · simp only [homeXlate, ht, walkXlate, hw]

end

end Sys2Proof.Machine

namespace Sys2Proof
open Sys2Proof.Machine

/-- Settles O46. -/
theorem illFormedWords : Obligations.IllFormedWords := by
  intro x s hx
  refine ⟨fun w t ht hr => ?decoded, fun w => trapWord_next hx _, fun s1 e he => ⟨fetchWord_error_code he, ?_⟩, ?unreachable,
    fun i r level reason hr hw ht => ⟨_, congrArg Prod.snd (fetchWord_unmapped hr hw ht)⟩, fun i op w h => wordTrap_arith h,
    fun i w sh h => wordTrap_memShape h, fun i w sh h => wordTrap_otherShape h, fun o => rfl, rfl, rfl⟩
  case decoded =>
    rw [runDecoded_trap hx ht hr]
    cases t
    · exact ⟨0x0101, rfl, fun _ => rfl, nofun, nofun⟩
    · exact ⟨0x0102, rfl, nofun, fun _ => rfl, nofun⟩
    · exact ⟨0x0103, rfl, nofun, nofun, fun _ => rfl⟩
  case unreachable =>
    rintro (hpc | hc)
    · cases hc : codeRange (x.ctx s) x.sd.pc.toNat with
      | none => exact ⟨_, congrArg Prod.snd (fetchWord_no_range hc)⟩
      | some ir => exact ⟨_, congrArg Prod.snd (fetchWord_misaligned hc hpc)⟩
    · exact ⟨_, congrArg Prod.snd (fetchWord_no_range hc)⟩
  · exact execFetchFault_next hx (congrArg Prod.snd he)

end Sys2Proof
end

section
/-! The system words: special registers and counters, PRIVILEGED, TRAP and BKPT, SIGNAL, PTEW (R57, R97 to R110). -/

namespace Sys2Proof.Machine

/-! ### Words that trap -/

section
variable {x : At} {pn : Bool} {pred : BitVec 3} {s : State} {first v : At → Mask → State → Verdict} {f : At → Mask → State → State}

/-- PRIVILEGED stands before every other trap of the first checks (R110). -/
theorem framed_privileged (hw : frameWait x s pred = false) :
    framed x s pred (.trap { code := cPrivileged }) = .trap { code := cPrivileged } := by
  rw [framed, hw, Verdict.waitIf_false, Verdict.go_and, Verdict.withPoison, if_pos (Or.inl rfl)]

theorem frameCheck_poisoned (hw : frameWait x s pred = false) (hb : badPred x x.sd.mask pred.toNat ≠ 0#32) :
    frameCheck x s pred = .trap (regTrap pred.toNat (badPred x x.sd.mask pred.toNat)) := by
  rw [frameCheck, hw, Verdict.waitIf_false, Verdict.go_and, predCheck, bne_iff_ne.2 hb, Verdict.trapIf_true]

theorem privileged_next (hx : s.at_ = some x) (hw : frameWait x s pred = false)
    (hf : first x (activeOf x pn pred) s = .trap { code := cPrivileged }) :
    runWord (firstMeaning pn pred first v f) s = .next (takeTrap x.c x.st { code := cPrivileged } s) :=
  issueWord_trap hx (by simp only [firstMeaning, hf, framed_privileged hw, Verdict.trap_and])

/-- A word whose predicate is poisoned in a lane of the strand, and whose first checks say go. -/
theorem first_poisoned (hx : s.at_ = some x) (hw : frameWait x s pred = false) (hb : badPred x x.sd.mask pred.toNat ≠ 0#32)
    (hf : first x (activeOf x pn pred) s = .go) : runWord (firstMeaning pn pred first v f) s =
      .next (takeTrap x.c x.st (regTrap pred.toNat (badPred x x.sd.mask pred.toNat)) s) :=
  issueWord_trap hx (by simp only [firstMeaning, hf, framed_go, frameCheck_poisoned hw hb, Verdict.trap_and])

theorem plain_poisoned (hx : s.at_ = some x) (hw : frameWait x s pred = false) (hb : badPred x x.sd.mask pred.toNat ≠ 0#32) :
    plainWord pn pred v f s = .next (takeTrap x.c x.st (regTrap pred.toNat (badPred x x.sd.mask pred.toNat)) s) :=
  issueWord_trap hx (by simp only [plainMeaning, frameCheck_poisoned hw hb, Verdict.trap_and])

/-- A word that may issue but for the trap of a check of its own. -/
theorem check_trap {act : Mask} {d : BitVec 8} {words : Nat} {refs : List SrcRef} {t : Trap} (h : Issues x act pn pred d words refs s)
    (hf : first x act s = .go) (hv : v x act s = .trap t) :
    runWord (firstMeaning pn pred first v f) s = .next (takeTrap x.c x.st t s) :=
  issueWord_trap h.here (by simp only [firstMeaning, ← h.lanes, hf, framed_go, h.unheld, Verdict.go_and, hv])

/-- The check of a privileged word where the context has no privilege, and where it has. -/
theorem privilegeCheck_trap (h : (x.ctx s).priv = false) :
    Verdict.trapIf (!(x.ctx s).priv) { code := cPrivileged } = .trap { code := cPrivileged } := by rw [h]; rfl

theorem privilegeCheck_go (h : (x.ctx s).priv = true) : Verdict.trapIf (!(x.ctx s).priv) { code := cPrivileged } = .go := by
  rw [h]; rfl

end

/-! ### Special registers and counters (R97 to R102, R108) -/

section
variable {w : FWord} {x : At} {act : Mask} {s : State}

theorem mfsFirst_go (h : sregPriv (w.fld 0 12) = true → (x.ctx s).priv = true) : mfsFirst w x s = .go := by
  have hc : (sregPriv (w.fld 0 12) && !(x.ctx s).priv) = false := by
    cases hp : sregPriv (w.fld 0 12)
    · rfl
    · rw [h hp]; rfl
  rw [mfsFirst, hc, Verdict.trapIf_false]

theorem mfsFirst_trap (hn : sregPriv (w.fld 0 12) = true) (h : (x.ctx s).priv = false) :
    mfsFirst w x s = .trap { code := cPrivileged } := by rw [mfsFirst, hn, h]; rfl

/-- A word of FPFLAGS waits while an older value is on its way; others do not (R51). -/
theorem flagsWait_go (h : w.fld 0 12 = 0x002 → valuesPending x s = false) :
    Verdict.waitIf (w.fld 0 12 == 0x002 && valuesPending x s) = .go := by
  by_cases hn : w.fld 0 12 = 0x002
  · rw [h hn, Bool.and_false, Verdict.waitIf_false]
  · rw [beq_eq_false_iff_ne.2 hn, Bool.false_and, Verdict.waitIf_false]

/-- Of the checks of MFS the last is left once nothing is waited for: the poison of its register. -/
theorem mfsCheck_eq (hv : w.fld 0 12 = 0x002 → valuesPending x s = false)
    (hd : destPending x act w.d (if sregWide (w.fld 0 12) then 2 else 1) = false) :
    mfsCheck w x act s = Verdict.trapIf (act != 0#32 && x.co.sBad.contains (w.fld 0 12)) (regTrap (8 + w.fld 0 12) act) := by
  simp only [mfsCheck, flagsWait_go hv, hd, Verdict.waitIf_false, Verdict.all_cons, Verdict.all_nil, Verdict.go_and, Verdict.and_go]

/-- A counter word pushes the value of its counter. -/
theorem counterWord_next {v : At → State → Nat} (h : Issues x act w.pn w.pred w.d 2 [] s) :
    ∃ u, counterWord w v s = .next (finish x u) ∧ Produced x act w.d 2 false (fun _ => v x s % 2 ^ 64) s u :=
  ⟨_, plain_next h (by rw [h.dest, Verdict.waitIf_false]), produce_spec h.course h.slot⟩

theorem exec_mts (h : Issues x act w.pn w.pred 0xFF#8 0 [numRef w 0 false] s) (hv : w.fld 0 12 = 0x002 → valuesPending x s = false) :
    exec (.mts w) s = .next (finish x (if act = 0#32 then noteLatent x act [numRef w 0 false] s
      else (noteLatent x act [numRef w 0 false] s).modCourse x.c (fun co =>
        (writeSreg (w.fld 0 12) ((numRef w 0 false).low x act s) co).cleanSreg (w.fld 0 12)))) := by
  have e := sourced_next (pre := fun x _ t => Verdict.waitIf (w.fld 0 12 == 0x002 && valuesPending x t)) (v := noCheck)
    (f := fun x act t => if act = 0#32 then t else t.modCourse x.c (fun co =>
      (writeSreg (w.fld 0 12) ((numRef w 0 false).low x act t) co).cleanSreg (w.fld 0 12))) h (flagsWait_go hv) rfl
  rw [SrcRef.low_noteLatent] at e
  exact e

/-- The registers but STATUS, SEED and FPFLAGS keep what they hold (R102). -/
theorem writeSreg_other {n : Nat} (h : 2 < n) (v : Nat) (co : Course) : writeSreg n v co = co := by
  unfold writeSreg
  split
  · omega
  · omega
  · omega
  · rfl

end

/-! ### TRAP and BKPT (R103, R104) -/

section
variable {w : FWord} {x : At} {act : Mask} {s : State}

theorem exec_trap (h : Issues x act w.pn w.pred 0xFF#8 0 (trapRefs w) s) : exec (.trap w) s =
    .next (if act = 0#32 then finish x (noteLatent x act (trapRefs w) s)
      else stopAfter x (softwareTrap w x act s) (noteLatent x act (trapRefs w) s)) := by
  refine (issueWord_go h.here ?_).trans ?_
  · simp only [← h.lanes, h.go, framed_go, h.unheld]
  · simp only [← h.lanes]

theorem exec_bkpt {refs : List SrcRef} (h : Issues x act w.pn w.pred 0xFF#8 0 refs s) : exec (.bkpt w) s =
    .next (if (x.ctx s).debugger then
        finish x (s.modCourse x.c (fun co => { co.hold (w.fld 0 8) with halted := some (w.fld 0 8) }))
      else stopAfter x (breakTrap w x) s) := issueWord_go h.here h.unheld

end

/-! ### SIGNAL (R105 to R107) -/

section
variable {w : FWord} {x : At} {act : Mask} {s : State}

/-- The launch of a course rests on its team, which the reports of latent poison leave alone. -/
theorem launchOf_noteLatent (refs : List SrcRef) : launchOf x (noteLatent x act refs s) = launchOf x s :=
  congrArg Owner.launch (ownerOfWord_noteLatent x act refs s)

theorem exec_signal (h : Issues x act w.pn w.pred 0xFF#8 0 (if isNotify w then [numRef w 0 false] else []) s)
    (hv : signalCheck w x act s = .go) : exec (.signal w) s =
      .next (finish x (signalEffect w x act (noteLatent x act (if isNotify w then [numRef w 0 false] else []) s))) :=
  sourced_next h rfl hv

theorem signalCheck_idle (h : act = 0#32 ∨ (isNotify w = false ∧ x.co.readySent = true)) : signalCheck w x act s = .go := by
  refine if_pos ?_
  rcases h with h | ⟨hn, hr⟩
  · simp [h]
  · simp [hn, hr]

theorem signalCheck_go (hrel : Releases x s) (hroom : isNotify w = true → notesHeld s (x.ctx s).dev (launchOf x s) < 64) :
    signalCheck w x act s = .go := by
  unfold signalCheck
  split
  · rfl
  · have hfull : (isNotify w && decide (64 ≤ notesHeld s (x.ctx s).dev (launchOf x s))) = false := by
      cases hn : isNotify w
      · rfl
      · simp [Nat.not_le.2 (hroom hn)]
    rw [hrel.performed, hfull, releaseLimit_go hrel]
    rfl

theorem signalEffect_idle (h : act = 0#32 ∨ (isNotify w = false ∧ x.co.readySent = true)) : signalEffect w x act s = s := by
  unfold signalEffect
  rcases h with h | ⟨hn, hr⟩
  · exact if_pos h
  · simp only [hn, hr, Bool.false_eq_true, if_false, if_true, ite_self]

theorem signalEffect_ready (ha : act ≠ 0#32) (hn : isNotify w = false) (hr : x.co.readySent = false) : signalEffect w x act s =
    (let t := (s.release x.c).modCourse x.c (fun co => { co with readySent := true })
     { t with launches := Tab.upd t.launches (launchOf x s) (fun l => { l with readyCnt := l.readyCnt + 1 }) }) := by
  simp only [signalEffect, ha, hn, hr, Bool.false_eq_true, if_false]

theorem signalEffect_notify (ha : act ≠ 0#32) (hn : isNotify w = true) : signalEffect w x act s =
    raiseNote x (BitVec.ofNat 32 ((numRef w 0 false).low x act s)) (s.release x.c) := by
  simp only [signalEffect, ha, hn, if_false, if_true]

end

/-! ### PTEW (R109) -/

section
variable {w : FWord} {x : At} {act : Mask} {s : State}

/-- Of the active lanes those that name the entry of the lowest one are none only where none is active. -/
theorem namedLanes_ne_zero {f : Nat → Nat} (h : namedLanes act f ≠ 0#32) : act ≠ 0#32 := by
  rintro rfl
  exact h rfl

theorem produceLater_accesses (x : At) (act : Mask) (d : BitVec 8) (words id : Nat) (s : State) :
    (produceLater x act d words id s).accesses = s.accesses := by
  unfold produceLater
  dsimp only
  split
  · rfl
  · split
    · rfl
    · split
      · rfl
      · rfl

/-- A PTEW that may issue has its effect; where a lane is active its strand then waits for the access. -/
theorem exec_ptew (h : Issues x act w.pn w.pred w.d 2 (ptewRefs w) s) (hp : (x.ctx s).priv = true)
    (hg : globalChecks (ptewWord w) { block := false, addr := (numRef w 0 true).at_ x act s, n := 8 } x
      (namedLanes act ((numRef w 0 true).at_ x act s)) s = .go) :
    exec (.ptew w) s = .next (if act = 0#32 then finish x (ptewEffect w x act (noteLatent x act (ptewRefs w) s))
      else finishWaiting x (.result (noteLatent x act (ptewRefs w) s).nextId) (s.clockOf x.c)
        (ptewEffect w x act (noteLatent x act (ptewRefs w) s))) := by
  refine (issueWord_go h.here ?_).trans ?_
  · simp only [← h.lanes, privilegeCheck_go hp, h.dest, h.go, hg, Verdict.waitIf_false, Verdict.all_cons, Verdict.all_nil,
      Verdict.go_and, framed_go, h.unheld]
  · simp only [← h.lanes]

/-- The access that a PTEW puts under way: every active lane awaits its result. -/
theorem ptewEffect_access (ha : act ≠ 0#32) : ∃ a, Tab.find (ptewEffect w x act s).accesses s.nextId = some a ∧ a.course = x.c ∧
    a.kind = .ptew (ptewCas w) (ptewGen w) ∧ a.words = 2 ∧ a.lanes.map Prod.fst = lanesOf act := by
  unfold ptewEffect
  split
  next hl => exact absurd (lowLane_none hl) ha
  next l hl =>
    dsimp only [State.fresh]
    rw [produceLater_accesses]
    refine ⟨_, (Tab.find_put ..).trans (if_pos rfl), rfl, rfl, rfl, ?_⟩
    rw [List.map_map]
    exact List.map_id _

end

end Sys2Proof.Machine

namespace Sys2Proof
open Sys2Proof.Machine

/-- Settles O5: each word's first checks decide between its push and its trap. -/
theorem registerReadWords : Obligations.RegisterReadWords := by
  intro w x act s
  refine ⟨fun h hp hv hb => ?read, fun h hp hv ha hb => ⟨?poisoned, rfl⟩, fun hx hw hb => ?predicate,
    fun h => ⟨counterWord_next h, counterWord_next h⟩⟩
  case read =>
    have hc : mfsCheck w x act s = .go := by
      rw [mfsCheck_eq hv h.dest]
      by_cases ha : act = 0#32
      · subst ha; rfl
      · rw [hb ha, Bool.and_false, Verdict.trapIf_false]
    exact ⟨_, first_next h (mfsFirst_go hp) hc, produce_spec h.course h.slot⟩
  case poisoned =>
    refine check_trap h (mfsFirst_go hp) ?_
    rw [mfsCheck_eq hv h.dest, hb, bne_iff_ne.2 ha, Bool.and_true, Verdict.trapIf_true]
  case predicate =>
    exact ⟨fun hp => first_poisoned hx hw hb (mfsFirst_go hp), plain_poisoned hx hw hb, plain_poisoned hx hw hb⟩

/-- Settles O6: PRIVILEGED is the first check of each of the words, and no predicate's poison comes before it. -/
theorem privilegedWords : Obligations.PrivilegedWords := by
  intro w x s hx hw hp
  have htrap := privilegeCheck_trap hp
  refine ⟨fun hn => privileged_next hx hw (mfsFirst_trap hn hp), privileged_next hx hw ?errinj, issueWord_trap hx ?ptew,
    fun hpod ha => privileged_next hx hw ?barinit⟩
  case errinj => simp only [htrap, Verdict.trap_and]
  case ptew =>
    simp only [htrap, Verdict.all_cons, Verdict.trap_and, framed_privileged hw]
    rfl
  case barinit => simp only [ha, if_false, hpod, beq_self_eq_true, Bool.true_and, htrap, Verdict.trap_and]

/-- Settles O7, register by register. -/
theorem registerWriteWords : Obligations.RegisterWriteWords := by
  intro w x act s h hv s' v
  refine ⟨_, exec_mts h hv, fun ha => if_pos ha, fun ha => ?_⟩
  rw [if_neg ha]
  refine ⟨fun hn => ?_, fun hn => ?_, fun hn => ?_, fun hn => ?_⟩
  · rw [hn]; rfl
  · rw [hn]; rfl
  · rw [hn]; rfl
  · simp only [writeSreg_other hn]; rfl

/-- Settles O8. -/
theorem trapWords : Obligations.TrapWords := by
  intro w x act s h
  refine ⟨fun ha => (exec_trap h).trans ?_, fun ha => (exec_trap h).trans ?_, fun hd => (exec_bkpt h).trans ?_,
    fun hd => (exec_bkpt h).trans ?_⟩
  · rw [if_neg ha]; rfl
  · rw [if_pos ha]
  · rw [if_neg (ne_true_of_eq_false hd)]; rfl
  · rw [if_pos hd]

/-- Settles O9. -/
theorem signalWords : Obligations.SignalWords := by
  intro w x act s refs h s'
  have hrefs : (if isNotify w then [numRef w 0 false] else []) = refs := by simp only [isNotify, beq_iff_eq]; rfl
  have hexec := fun hv => exec_signal (w := w) (hrefs ▸ h) hv
  rw [hrefs] at hexec
  refine ⟨fun hidle => ?idle, fun ha hn hr hrel => ⟨_, hexec (signalCheck_go hrel fun hc => ?_), ?ready⟩,
    fun ha hn hrel hroom => ⟨_, hexec (signalCheck_go hrel fun _ => hroom), ?notify⟩⟩
  case idle =>
    have hidle : act = 0#32 ∨ (isNotify w = false ∧ x.co.readySent = true) := hidle.imp_right fun hc => ⟨beq_eq_false_iff_ne.2 hc.1, hc.2⟩
    rw [hexec (signalCheck_idle hidle), signalEffect_idle hidle]
  case ready => rw [signalEffect_ready ha (beq_eq_false_iff_ne.2 hn) hr, launchOf_noteLatent]
  case notify => rw [signalEffect_notify ha (beq_iff_eq.2 hn), SrcRef.low_noteLatent]
  · exact absurd (beq_iff_eq.1 hc) hn

/-- Settles O19: the checks of its address are made in lanes that are active, so the word issues. -/
theorem ptewWords : Obligations.PtewWords := by
  intro w x act s h hp hg hrel s' u
  have hexec := exec_ptew h hp (globalChecks_go hg (fun hn => (hrel (namedLanes_ne_zero hn)).1)
    fun _ hn => (hrel (namedLanes_ne_zero hn)).2)
  refine ⟨fun ha => ?idle, fun ha => ⟨hexec.trans (congrArg _ (if_neg ha)), ptewEffect_access ha⟩⟩
  case idle =>
    subst ha
    obtain ⟨co, hco⟩ := noteLatent_present (act := 0#32) (refs := ptewRefs w) h.course
    exact ⟨hexec, produceLater_spec hco h.slot⟩

end Sys2Proof
end

section
/-! The control words: BRA, BRX, CALL, RET, LOOP, JOIN, EXIT (R83 to R91, R95). -/

namespace Sys2Proof.Machine

/-! ### Words that send groups of lanes on (R83 to R88) -/

/-- A word that sends groups of lanes on, whose checks say go and whose groups find room. -/
theorem groups_next {x : At} {act : Mask} {pn : Bool} {pred : BitVec 3} {d : BitVec 8} {words : Nat} {refs : List SrcRef} {s : State}
    {first v : At → Mask → State → Verdict} {gs : At → Mask → State → List Group} {join : At → Option DWord}
    {before : At → Mask → State → State} (h : Issues x act pn pred d words refs s) (hf : first x act s = .go) (hv : v x act s = .go)
    (hd : divergeTrap x (gs x act s) (join x) = .go) : runWord (groupsMeaning pn pred first v gs join before) s =
      .next (tidy x.c (diverge x (gs x act (issued x s)) (join x) (before x act (issued x s)))) :=
  moving_next h hf (by rw [hv, hd, Verdict.go_and])

section
variable {w : FWord} {x : At} {act : Mask} {s : State}

theorem brxCheck_go (h : ∀ l, l < 32 → act.getLsbD l = true → (brxTarget w x act s l).toNat % 8 = 0) : brxCheck w x act s = .go := by
  have hany : (lanesOf act).any (fun l => (brxTarget w x act s l).toNat % 8 != 0) = false := by
    rw [List.any_eq_false]
    intro l hl
    obtain ⟨hl, ha⟩ := mem_lanesOf.1 hl
    simp [h l hl ha]
  rw [brxCheck, hany, Verdict.trapIf_false]

/-- The groups of BRX rest on its source, those of RET and the entry of CALL on the ranges of the context: an issue changes neither. -/
theorem brxGroups_issued : brxGroups w x act (issued x s) = brxGroups w x act s := by
  simp only [brxGroups, brxTarget, SrcRef.at_issued]

theorem ctx_issued (x : At) (s : State) (k : Nat) : (issued x s).ctx k = s.ctx k := by
  simp only [State.ctx, issued_ctxs]

theorem retGroups_issued : retGroups x act (issued x s) = retGroups x act s := by
  simp only [retGroups, retTarget, ctx_issued]

theorem callEntry_issued : callEntry x (issued x s) = callEntry x s := by
  simp only [callEntry, ctx_issued]

end

/-! ### LOOP (R95) -/

/-- LOOP with a lane active: its register counted down, and the way on by whether it has come to zero. -/
theorem loopEffect_active {w : BWord} {x : At} {act : Mask} (ha : act ≠ 0#32) (s : State) : loopEffect w x act s =
    (let g := (vget x.sd.g {} (w.val.toNat - 0x20)).val - 1#64
     moveTo x.c x.st (if g ≠ 0#64 then targetOf x.sd.pc w.woff else x.sd.pc + 8#64)
       (s.modStrand x.c x.st (fun y => y.writeG (w.val.toNat - 0x20) { val := g }))) := by
  simp only [loopEffect, ha, if_false, bne_iff_ne]

/-! ### JOIN and EXIT (R89 to R91) -/

theorem joinPasses_iff {x : At} : joinPasses x = true ↔ x.sd.dstack ≠ [] ∨ x.co.liveStrands = [x.st] := by
  simp [joinPasses]

theorem exec_join {w : FWord} {x : At} {act : Mask} {refs : List SrcRef} {s : State}
    (h : Issues x act w.pn w.pred 0xFF#8 0 refs s) : exec (.join w) s = .next (if joinPasses x then finish x s
      else s.modStrand x.c x.st (fun y => { y with wait := .joinWord (s.clockOf x.c) (w.fld 0 4) })) :=
  issueWord_go h.here h.unheld

/-- The check of the release that the end of a course makes, unless its course has signalled READY (R90, R106). -/
theorem exitRelease_go {x : At} (h : x.co.readySent = false → x.co.remoteFail = none ∧ x.co.relCount < 2 ^ 48 - 1) :
    (if !x.co.readySent then releaseLimit x else .go) = .go := by
  cases hr : x.co.readySent
  · obtain ⟨hsound, hroom⟩ := h hr
    simp only [releaseLimit, Course.releaseTrap, hsound, Nat.not_le.2 hroom, if_false, ite_self]
  · rfl

end Sys2Proof.Machine

namespace Sys2Proof
open Sys2Proof.Machine

/-- Settles O14. -/
theorem branchWords : Obligations.BranchWords := by
  intro w v x act s
  refine ⟨fun h => ⟨fun hd => groups_next h rfl rfl hd, fun hdepth hd => ?call⟩, fun h halign => ?brx, fun h hdepth hd => ?ret⟩
  case call =>
    rw [← callEntry_issued]
    exact groups_next h rfl (by rw [decide_eq_false (Nat.not_le.2 hdepth), Verdict.trapIf_false]) hd
  case brx =>
    intro join hd
    rw [← brxGroups_issued]
    exact groups_next h h.go (brxCheck_go halign) hd
  case ret =>
    rw [← retGroups_issued]
    exact groups_next h rfl (by rw [decide_eq_false (Nat.ne_of_gt hdepth), Verdict.trapIf_false]) hd

/-- Settles O15. -/
theorem loopWords : Obligations.LoopWords := by
  intro w x act s h g
  have hexec : exec (.loop w) s = .next (tidy x.c (loopEffect w x act (issued x s))) := moving_next h h.go rfl
  refine ⟨fun ha => ?_, fun ha => ?_⟩
  · rw [hexec, loopEffect, if_pos ha]
  · rw [hexec, loopEffect_active ha]

/-- Settles O16. -/
theorem joinAndExitWords : Obligations.JoinAndExitWords := by
  intro w x act s h
  refine ⟨fun hp => (exec_join h).trans ?pass, fun hs hl => (exec_join h).trans ?held, fun hlast => moving_next h rfl ?exit, fun hrest => ?strand⟩
  case pass => rw [if_pos (joinPasses_iff.2 hp)]
  case held =>
    rw [if_neg fun hp => (joinPasses_iff.1 hp).elim (absurd hs) hl]
    rfl
  case exit =>
    cases hl : lastExit x act
    · rfl
    · obtain ⟨hwait, hrel⟩ := hlast hl
      rw [hwait, Bool.true_and, Bool.true_and, exitRelease_go hrel]
      rfl
  case strand => exact if_pos (bne_iff_ne.2 hrest)

end Sys2Proof
end

section
/-! The engine words without a queue of their own, the collectives, the swatch words, and the fences (R140, R147, R155, R188, R189,
R191, R202 to R204, R250 to R255, R262, R477). -/

namespace Sys2Proof.Machine

section
variable {w : FWord} {x : At} {act : Mask} {words : Nat} {refs : List SrcRef} {s : State} {v : At → Mask → State → Verdict}

/-- An engine word that pushes (R191): its value the same in every active lane, its effect only where a lane is active. -/
theorem engineValue_next {val : At → Mask → State → Nat} {f : At → Mask → State → State}
    (h : Issues x act w.pn w.pred w.d words refs s) (hv : act ≠ 0#32 → v x act s = .go) :
    engineValue w words refs v val f s = .next (finish x (produce x act w.d words false
      (fun _ => val x act (noteLatent x act refs s))
      (if act = 0#32 then noteLatent x act refs s else f x act (noteLatent x act refs s)))) := by
  refine sourced_next h ?_ ?_
  · rw [h.dest, Verdict.waitIf_false]
  · split
    · rfl
    · next ha => exact hv ha

/-- The address that the lowest active lane names, aligned in the lanes that name it. -/
theorem lowAlign_go {n : Nat} {addr : Nat → Nat} (h : ∀ l, l < 32 → (namedLanes act addr).getLsbD l = true → addr l % n = 0) :
    lowAlign act addr n = .go := alignCheck_go h

theorem engineWait_go (h : x.pending s 4 = false) : engineWait x s = .go := by rw [engineWait, h, Verdict.waitIf_false]

/-- A count that is not above its bound holds no word. -/
theorem waitIf_lt_go {m n : Nat} (h : n ≤ m) : Verdict.waitIf (m < n) = .go := by
  rw [decide_eq_false (Nat.not_lt.2 h), Verdict.waitIf_false]

/-- A count below its limit holds no word. -/
theorem waitIf_le_go {m n : Nat} (h : n < m) : Verdict.waitIf (m ≤ n) = .go := by
  rw [decide_eq_false (Nat.not_le.2 h), Verdict.waitIf_false]

/-- Package time rests on the always-on counter and its base, which the reports of latent poison leave alone. -/
theorem pkgTime_noteLatent : (noteLatent x act refs s).pkgTime = s.pkgTime := by
  obtain ⟨_, ⟨_, _, _, _, _, _, _, _, _, rfl⟩, _, _, h⟩ := OnlyNoted.noteLatent x act refs s
  rw [h]
  rfl

end

/-! ### The swatch words (R255, R262) -/

section
variable {w : FWord} {x : At} {act : Mask} {refs : List SrcRef} {s : State}

theorem swatchSizeOk_of_pow {p : Nat} (h : ∃ n, n < 13 ∧ p = 2 ^ n) : swatchSizeOk p = true := by
  obtain ⟨n, hn, rfl⟩ := h
  exact List.any_eq_true.2 ⟨n, List.mem_range.2 hn, beq_self_eq_true _⟩

/-- The operation of a swatch word rests on its operands and on its owner, which the reports of its sources leave alone. -/
theorem swatchOp_noteLatent {i : Instr} {l : List SrcRef} : swatchOp i refs x act (noteLatent x act l s) = swatchOp i refs x act s := by
  simp only [swatchOp, ownerOfWord_noteLatent, SrcRef.low_noteLatent]

/-- A swatch word that pushes: its status stays empty until the operation completes; with no lane active it only pushes. -/
theorem swatchWord_next {i : Instr} (h : Issues x act w.pn w.pred w.d 1 refs s) (hp : act ≠ 0#32 → x.pending s 4 = false) :
    ∃ u, swatchWord w i refs s = .next (finish x u) ∧ (act = 0#32 → ProducedLater x act w.d 1 0 (noteLatent x act refs s) u) ∧
      (act ≠ 0#32 → ProducedLater x act w.d 1 (noteLatent x act refs s).nextId
        (pushSw (coreOf x.c) { swatchOp i refs x act s with result := some (noteLatent x act refs s).nextId }
          { noteLatent x act refs s with nextId := (noteLatent x act refs s).nextId + 1 }) u) := by
  obtain ⟨co, hco⟩ := noteLatent_present (act := act) (refs := refs) h.course
  refine ⟨_, sourced_next h rfl ?_, fun ha => ?idle, fun ha => ?active⟩
  · split
    · rfl
    · next ha => exact engineWait_go (hp ha)
  case idle =>
    rw [if_pos ha]
    exact produceLater_spec hco h.slot
  case active =>
    rw [if_neg ha, swatchOp_noteLatent]
    exact produceLater_spec hco h.slot

end

end Sys2Proof.Machine

namespace Sys2Proof
open Sys2Proof.Machine

/-- Settles O24: BSTAT reads its batch number before its sources' reports, which leave it alone. -/
theorem batchWords : Obligations.BatchWords := by
  intro w x act s
  refine ⟨fun h hroom => ?close, fun h hcount => ?waitb, fun h => ?bstat⟩
  case close =>
    have hexec : exec (.sealBatch w) s = _ := engineValue_next h fun ha => waitIf_le_go (hroom ha)
    rw [noteLatent_nil] at hexec
    refine ⟨_, hexec, ?_⟩
    split
    · exact produce_spec h.course h.slot
    · exact produce_spec (State.course_present _ h.course) h.slot
  case waitb =>
    by_cases ha : act = 0#32
    · exact (engineWord_inactive h ha).trans (by rw [noteLatent_nil])
    · exact (engineWord_active h ha (waitIf_lt_go (hcount ha))).trans (by rw [noteLatent_nil])
  case bstat =>
    obtain ⟨co, hco⟩ := noteLatent_present (act := act) (refs := [numRef w 0 false]) h.course
    have hexec : exec (.bstat w) s = _ := engineValue_next h fun _ => rfl
    rw [SrcRef.low_noteLatent, ite_self] at hexec
    exact ⟨_, hexec, produce_spec hco h.slot⟩

/-- Settles O34: COLL is a release, so it issues where one may be performed. -/
theorem collectiveWords : Obligations.CollectiveWords := by
  intro w x act s
  refine ⟨fun h hgo => ?coll, fun h => ⟨fun ha => ?idle, fun ha hn => ?collw⟩⟩
  case coll =>
    intro s' o
    obtain ⟨co, hco⟩ := noteLatent_present (act := act) (refs := [numRef w 0 true]) h.course
    have hexec : exec (.coll w) s = _ := engineValue_next h fun ha => by
      obtain ⟨hroom, hrel, halign⟩ := hgo ha
      simp only [lowAlign_go halign, engineWait_go hrel.performed, releaseLimit_go hrel, decide_eq_false (Nat.not_le.2 hroom),
        Verdict.waitIf_false, Verdict.all_cons, Verdict.all_nil, Verdict.go_and]
    rw [ownerOfWord_noteLatent, SrcRef.low_noteLatent] at hexec
    refine ⟨_, hexec, ?_⟩
    split
    · exact produce_spec hco h.slot
    · exact produce_spec (State.course_present (s := s'.release x.c) _ (State.course_present _ hco)) h.slot
  case idle => exact (engineWord_inactive h ha).trans (by rw [noteLatent_nil])
  case collw => exact (engineWord_active h ha (waitIf_lt_go hn)).trans (by rw [noteLatent_nil])

/-- Settles O35: SWSIZE is an engine word without a push, the others are one word with different operands. -/
theorem swatchWords : Obligations.SwatchWords := by
  intro w x act s push
  have hpush : ∀ l o t, t.pkgTime = (noteLatent x act l s).pkgTime → pushSw (coreOf x.c) o t = push o t := fun l o t ht => by
    rw [pushSw, ht, pkgTime_noteLatent]
  refine ⟨fun h => ⟨engineWord_inactive h, fun ha hp hn => ?size⟩, fun i refs hi h hp => ?others⟩
  case size =>
    have hexec : exec (.swsize w) s = _ := engineWord_active h ha (by
      rw [swatchSizeOk_of_pow hn, engineWait_go hp]
      rfl)
    rw [swatchOp_noteLatent, hpush [numRef w 0 false, numRef w 1 true] _ (noteLatent x act _ s) rfl] at hexec
    exact hexec
  case others =>
    obtain ⟨u, hexec, hidle, hactive⟩ := swatchWord_next (i := i) h hp
    rw [hpush refs _ { noteLatent x act refs s with nextId := (noteLatent x act refs s).nextId + 1 } rfl] at hactive
    refine ⟨u, (?_ : exec i s = swatchWord w i refs s).trans hexec, hidle, hactive⟩
    simp only [List.mem_cons, Prod.mk.injEq, List.not_mem_nil, or_false] at hi
    obtain ⟨rfl, rfl⟩ | ⟨rfl, rfl⟩ | ⟨rfl, rfl⟩ | ⟨rfl, rfl⟩ | ⟨rfl, rfl⟩ := hi
    all_goals rfl

/-- Settles O21, by kind: a release waits at its own scope for no more than at pkg scope. -/
theorem fenceWords : Obligations.FenceWords := by
  intro w x act s h
  refine ⟨fun ha => ⟨(plain_next h (if_pos ha)).trans ?fenceIdle, ?qfenceIdle⟩,
    fun ha hp => ⟨fun hk => ?acquire, fun hk hrel => ?release, ?qfence⟩⟩
  case fenceIdle => rw [if_pos ha]
  case qfenceIdle => exact (engineWord_inactive h ha).trans (by rw [noteLatent_nil])
  case acquire =>
    have hk2 : ¬2 ≤ fenceKind w := Nat.not_le.2 hk
    have hexec : exec (.fence w) s = _ := plain_next h (by rw [if_neg ha, if_neg hk2, hp, Verdict.waitIf_false])
    rw [if_neg ha, if_neg hk2] at hexec
    rw [hexec, fenceKind, Nat.mod_eq_of_lt hk]
  case release =>
    have hk2 : 2 ≤ fenceKind w := hk
    have hexec : exec (.fence w) s = _ := plain_next h (by rw [if_neg ha, if_pos hk2, releaseCheck_go hrel])
    rw [if_neg ha, if_pos hk2] at hexec
    rw [hexec, fenceKind]
  case qfence => exact (engineWord_active h ha (engineWait_go hp)).trans (by rw [noteLatent_nil]; rfl)

end Sys2Proof
end

section
/-! The words that put global accesses under way (R134, R140, R164 to R172, R180 to R186, R219 to R222).

What every such word does is said once (`issueAccess_idle`, `issueAccess_issued`); the words differ in their sources and checks. -/

namespace Sys2Proof.Machine

/-! ### What the issue of an access leaves alone -/

section
variable (block : Bool) (addr : Nat → Nat) (x : At) (act : Mask) (s : State)

/-- The look at a range's window entry changes one core. -/
theorem lookWindow_cores : ∃ ks, lookWindow block addr x act s = { s with cores := ks } := by
  unfold lookWindow
  dsimp only
  refine List.foldlRecOn (motive := fun t : State => ∃ ks, t = { s with cores := ks }) _ _ ⟨s.cores, rfl⟩ fun t ⟨ks, ht⟩ l _ => ?_
  subst ht
  split
  · exact ⟨_, rfl⟩
  · exact ⟨_, rfl⟩

/-- Which window entries are looked at rests on the context's ranges alone, not on the accesses under way. -/
theorem lookWindow_withAccesses (n : Nat) (t : Tab Access) : lookWindow block addr x act { s with nextId := n, accesses := t } =
    { lookWindow block addr x act s with nextId := n, accesses := t } := by
  have hctx : x.ctx { s with nextId := n, accesses := t } = x.ctx s := rfl
  simp only [lookWindow, hctx]
  refine List.foldl_hom (fun u : State => { u with nextId := n, accesses := t }) fun u l => ?_
  split
  · rfl
  · rfl

end

/-- A store's update of L1 copies changes cores alone. -/
theorem issueL1_course (a : Access) (dev : Nat) (s : State) (k : Nat) : (issueL1 a dev s).course k = s.course k := by
  unfold issueL1
  split
  · refine List.foldlRecOn (motive := fun t => State.course t k = s.course k) _ _ rfl fun t ht y _ => ?_
    split
    · exact ht
    · unfold storeL1
      dsimp only
      split
      · exact ht
      · exact ht
  · rfl

/-! ### The issue of an access -/

section
variable {q : GlobalWord} {word : DWord} {d : BitVec 8} {block : Bool} {addr data cmp : Nat → Nat} {x : At} {act : Mask} {s : State}
  {co : Course}

/-- With no lane active a word of the global memory only pushes, where it pushes at all. -/
theorem issueAccess_idle (h : s.course x.c = some co) (hst : x.st < 4) (ha : act = 0#32) :
    if q.words = 0 then issueAccess q word d block addr data cmp x act s = s
    else ProducedLater x act d q.words 0 s (issueAccess q word d block addr data cmp x act s) := by
  unfold issueAccess
  rw [if_pos ha]
  split
  · rfl
  · exact produceLater_spec h hst

/-- The access of the active lanes is put under way, after the release where the word makes one (R49, R134, R140, R172). -/
theorem issueAccess_issued (h : s.course x.c = some co) (hst : x.st < 4) (ha : act ≠ 0#32) :
    Issued x act d q.words (newAccess q word block addr data cmp x act s) (x.ctx s).dev
      (lookWindow block addr x act (if q.release then s.release x.c else s)) (issueAccess q word d block addr data cmp x act s) := by
  unfold issueAccess
  rw [if_neg ha]
  generalize hs : (if q.release then s.release x.c else s) = t
  have ht : ∃ co', t.course x.c = some co' := by
    rw [← hs]
    split
    · exact ⟨_, State.course_present _ h⟩
    · exact ⟨_, h⟩
  obtain ⟨co', hco'⟩ := ht
  obtain ⟨ks, hks⟩ := lookWindow_cores block addr x act t
  dsimp only [State.fresh, Issued]
  rw [lookWindow_withAccesses, hks]
  split
  · rfl
  · exact produceLater_spec ((issueL1_course ..).trans hco') hst

theorem newLane_fields (cx : Ctx) (block : Bool) (addr : Nat) (data cmp : List Byte) :
    (newLane cx block addr data cmp).addr = addr ∧ (newLane cx block addr data cmp).block = block ∧
      (newLane cx block addr data cmp).data = data ∧ (newLane cx block addr data cmp).cmp = cmp := by
  unfold newLane
  cases block
  · rw [if_neg Bool.false_ne_true]
    split
    · exact ⟨rfl, rfl, rfl, rfl⟩
    · exact ⟨rfl, rfl, rfl, rfl⟩
  · exact ⟨rfl, rfl, rfl, rfl⟩

/-- What each active lane's access carries. -/
theorem newAccess_lanes {β : Type} (g : Nat → Nat → Bool → List Byte → List Byte → β) :
    (newAccess q word block addr data cmp x act s).lanes.map (fun e => g e.1 e.2.addr e.2.block e.2.data e.2.cmp) =
      (lanesOf act).map (fun l => g l (addr l) block (toBytes q.size (data l)) (toBytes q.size (cmp l))) := by
  refine (List.map_map ..).trans (List.map_congr_left fun l _ => ?_)
  obtain ⟨haddr, hblock, hdata, hcmp⟩ := newLane_fields (x.ctx s) block (addr l) (toBytes q.size (data l)) (toBytes q.size (cmp l))
  simp only [Function.comp, haddr, hblock, hdata, hcmp]

end

/-! ### M-form words (R164 to R186) -/

section
variable {w : MWord} {f : GlobalForm} {x : At} {act : Mask} {refs : List SrcRef} {s : State}

theorem refVal_noteLatent (l : List SrcRef) : refVal l x act (noteLatent x act refs s) = refVal l x act s := by
  funext k
  unfold refVal
  split
  · rw [SrcRef.at_noteLatent]
  · rfl

theorem laneAddr_noteLatent (local_ load : Bool) (n : Nat) :
    laneAddr w local_ load n x act (noteLatent x act refs s) = laneAddr w local_ load n x act s := by
  funext l
  simp only [laneAddr, SrcRef.at_noteLatent]

theorem exec_globalForm (hf : f ∈ globalForms w) :
    exec f.instr s = runWord (globalMeaning f.w f.q (wordOf f.instr) f.load f.data f.cmp) s := by
  simp only [globalForms, List.mem_cons, List.not_mem_nil, or_false] at hf
  obtain rfl | rfl | rfl | rfl | rfl := hf
  all_goals rfl

/-- A global memory word that may issue issues its access, from the operands before its sources' reports. -/
theorem globalForm_next (hf : f ∈ globalForms w) (h : Issues x act f.w.pn f.w.pred f.dest f.q.words f.refs s)
    (hgo : globalChecks f.q { block := f.w.am == 2, addr := f.addr x act s, n := f.q.size } x act s = .go) :
    exec f.instr s = .next (finish x (issueAccess f.q (wordOf f.instr) f.dest (f.w.am == 2) (f.addr x act s)
      (refVal f.data x act s) (refVal f.cmp x act s) x act (noteLatent x act f.refs s))) := by
  have hdest : Verdict.waitIf (destPending x act f.dest f.q.words) = .go := by rw [h.dest, Verdict.waitIf_false]
  have hexec : runWord (globalMeaning f.w f.q (wordOf f.instr) f.load f.data f.cmp) s = _ := sourced_next h hdest hgo
  simp only [refVal_noteLatent, laneAddr_noteLatent] at hexec
  exact (exec_globalForm hf).trans hexec

end

/-! ### Words of the block table (R219 to R222) -/

section
variable {w : FWord} {f : BlockForm} {x : At} {act : Mask} {s : State}

/-- The checks that a word of the block table makes before those that all of them make: only BTREF has one, of its delta (R220). -/
theorem exec_blockForm (hf : f ∈ blockForms w) (hd : f.q.kind = .btref → badDelta w x act s = false) :
    ∃ v, exec f.instr s = blockWord w f.q (wordOf f.instr) f.refs v s ∧ v x act s = .go := by
  simp only [blockForms, List.mem_cons, List.not_mem_nil, or_false] at hf
  obtain rfl | rfl | rfl | rfl := hf
  · exact ⟨noCheck, rfl, rfl⟩
  · exact ⟨fun x act t => Verdict.trapIf (badDelta w x act t) { code := cIllegalOperand }, rfl,
      by simp only [hd rfl, Verdict.trapIf_false]⟩
  · exact ⟨noCheck, rfl, rfl⟩
  · exact ⟨noCheck, rfl, rfl⟩

theorem blockForm_pushes (hf : f ∈ blockForms w) : f.q.words ≠ 0 := by
  simp only [blockForms, List.mem_cons, List.not_mem_nil, or_false] at hf
  obtain rfl | rfl | rfl | rfl := hf
  all_goals exact Nat.succ_ne_zero _

theorem blockWord_next {q : GlobalWord} {word : DWord} {refs : List SrcRef} {v : At → Mask → State → Verdict}
    (h : Issues x act w.pn w.pred w.d q.words (numRef w 0 true :: refs) s) (hv : v x act s = .go)
    (hg : GlobalReady { block := true, addr := (numRef w 0 true).at_ x act s, n := 0 } 1 q.need x act s)
    (hl : act ≠ 0#32 → heldByLocal x s q.kind.reads = false) (hr : q.release = true → act ≠ 0#32 → Releases x s) :
    blockWord w q word refs v s = .next (finish x (issueAccess q word w.d true ((numRef w 0 true).at_ x act s)
      (refVal refs x act s) (fun _ => 0) x act (noteLatent x act (numRef w 0 true :: refs) s))) := by
  have hgo := globalChecks_go (q := { q with align := 1 }) hg hl hr
  simp only [globalChecks, alignCheck_go hg.aligned, Verdict.all_cons, Verdict.go_and] at hgo
  have hexec : blockWord w q word refs v s = _ := sourced_next h (by rw [h.dest, Verdict.waitIf_false])
    (by simpa only [Verdict.all_cons, hv, Verdict.go_and] using hgo)
  rw [refVal_noteLatent, SrcRef.at_noteLatent] at hexec
  exact hexec

end

end Sys2Proof.Machine

namespace Sys2Proof
open Sys2Proof.Machine

/-- Settles O17: the five words are one word with different sources, kinds and needs. -/
theorem globalAccessWords : Obligations.GlobalAccessWords := by
  intro w f x act s hf h hg hl hr s' s'' addr a
  obtain ⟨co, hco⟩ := noteLatent_present (act := act) (refs := f.refs) h.course
  refine ⟨_, globalForm_next hf h (globalChecks_go hg hl hr), issueAccess_idle hco h.slot, fun ha =>
    ⟨issueAccess_issued hco h.slot ha, rfl, rfl, rfl, rfl, rfl, rfl,
      newAccess_lanes fun l at_ _ data cmp => (l, at_, data, cmp)⟩⟩

/-- Settles O18: the four words are one word, of which BTREF checks its delta first. -/
theorem blockTableWords : Obligations.BlockTableWords := by
  intro w f x act s hf h hg hl hr hd s' s'' addr a
  obtain ⟨co, hco⟩ := noteLatent_present (act := act) (refs := numRef w 0 true :: f.refs) h.course
  obtain ⟨v, hexec, hv⟩ := exec_blockForm (x := x) (act := act) (s := s) hf hd
  refine ⟨_, hexec.trans (blockWord_next h hv hg hl hr), fun ha => ?idle, fun ha =>
    ⟨issueAccess_issued hco h.slot ha, rfl, rfl, rfl, newAccess_lanes fun l at_ block data _ => (l, at_, block, data)⟩⟩
  case idle =>
    have hidle := issueAccess_idle (q := f.q) (word := wordOf f.instr) (d := w.d) (block := true)
      (addr := addr) (data := refVal f.refs x act s) (cmp := fun _ => 0) hco h.slot ha
    rw [if_neg (blockForm_pushes hf)] at hidle
    exact hidle

end Sys2Proof
end

section
/-! A local-store unit that is full (R179). The 256 operations that may wait are those of LDF and of STF that waits for empty; but
once there are 256 of them no further STF issues, also not one that itself waits for nothing. -/

namespace Sys2Proof.Machine

/-! ### Words held by a full unit -/

section
variable {w : MWord} {q : LocalWord} {load : Bool} {data cmp : List SrcRef} {x : At} {act : Mask} {addr : Nat → Nat} {s : State} {k : Nat}

theorem granLimit_full (after : State) (hq : q.kind.limited = true) (hk : k ∈ granCores x act s q.size addr)
    (hfull : 256 ≤ granWaiting s k) : granLimit q x act s addr after = .wait := by
  have hany : (granCores x act s q.size addr).any (fun k => 256 ≤ granWaiting s k || 256 < granWaiting after k) = true :=
    List.any_eq_true.2 ⟨k, hk, by rw [decide_eq_true hfull, Bool.true_or]⟩
  rw [granLimit, hq, hany, Bool.and_self, Verdict.waitIf_true]

/-- The release of a local-store word waits for no more than one at pkg scope. -/
theorem localRelease_go {scope : Nat} (h : Releases x s) : (if q.release && act != 0#32 then
    (Verdict.waitIf (x.pending s scope)).and_ (releaseLimit x) else .go) = .go := by
  rw [pending_narrow h.performed, releaseLimit_go h, Verdict.waitIf_false, Verdict.go_and, ite_self]

/-- LDF and STF wait before issue while a core whose granule they name holds 256 waiting operations, whatever they would do
themselves. -/
theorem localWord_held (h : Issues x act w.pn w.pred (if q.words = 0 then 0xFF#8 else w.d) q.words
      ([memBase w true] ++ data ++ memIndex w load ++ cmp) s)
    (hready : LocalReady q.size q.size (laneAddr w true load q.size x act s) x act s) (hrel : Releases x s)
    (hq : q.kind.limited = true) (hk : k ∈ granCores x act s q.size (laneAddr w true load q.size x act s))
    (hfull : 256 ≤ granWaiting s k) : runWord (localMeaning w q load data cmp) s = .next s := by
  refine issueWord_wait h.here ?_
  simp only [localMeaning, sourcedMeaning, firstMeaning, ← h.lanes, h.dest, h.go, h.unheld, framed_go, alignCheck_go hready.aligned,
    lsCheck_go hready, localRelease_go hrel, granLimit_full _ hq hk hfull, Verdict.waitIf_false, Verdict.go_and, Verdict.all_cons,
    Verdict.wait_and]

/-- So STF, whatever its HINT. -/
theorem exec_stf_held (h : Issues x act w.pn w.pred 0xFF#8 0 ([memBase w true, memData w] ++ memIndex w false) s)
    (hready : LocalReady (sizeBytes w.sz) (sizeBytes w.sz) (laneAddr w true false (sizeBytes w.sz) x act s) x act s) (hrel : Releases x s)
    (hk : k ∈ granCores x act s (sizeBytes w.sz) (laneAddr w true false (sizeBytes w.sz) x act s)) (hfull : 256 ≤ granWaiting s k) :
    exec (.stf w) s = .next s :=
  localWord_held (q := { kind := .stf (w.ht == 0), size := sizeBytes w.sz, release := true }) (data := [memData w]) (cmp := [])
    (by simpa using h) hready hrel rfl hk hfull

end

/-! ### A full unit, and an STF of another course -/

/-- STF of v0 to the local-store address in v0, with HINT 1: it does not wait for its granule to be empty. -/
def stfFill : MWord :=
  { pn := false, pred := 7#3, base := 0x40#8, data := 0x40#8, d := 0xFF#8, off := 0#16, t := 0#2, size := 4#4, amode := 0#2, hint := 1#2 }

/-- A strand of one lane. -/
def fillStrand : Strand := { live := true, mask := 1#32 }

def fillCourse : Course := { strands := vset (vconst 4 {}) 0 fillStrand }

/-- An LDF of another course that waits for the second granule of the team. -/
def waitingLdf : GranOp := { course := 1, team := 0, off := 16, kind := .ldf false, size := 4, lane := 0 }

/-- A core with 256 waiting operations in its local-store unit. -/
def fullUnit : State :=
  { courses := [(0, fillCourse)]
    teams := [(0, { launch := 0, ctx := 0, core := 0, teamid := 0, lsBase := 0, lsSize := 2, tile0 := 0, ntiles := 0, bar0 := 0
                    nbars := 0, ncourses := 2, live := 2 })]
    cur := some (0, 0), gran := (List.range 256).map (fun i => (i, waitingLdf)), nextId := 256 }

/-- The strand whose STF is executed. -/
def filler : At := { c := 0, st := 0, co := fillCourse, sd := fillStrand }

theorem at_fullUnit : fullUnit.at_ = some filler := rfl

theorem granWaiting_fullUnit : granWaiting fullUnit 0 = 256 := by decide +kernel

end Sys2Proof.Machine

namespace Sys2Proof
open Sys2Proof.Machine

theorem issues_fullUnit : Issues filler 1#32 false 7#3 0xFF#8 0 [memBase stfFill true, memData stfFill] fullUnit :=
  ⟨at_fullUnit, by decide, by decide, rfl, by decide⟩

theorem localReady_fullUnit : LocalReady 4 4 (laneAddr stfFill true false 4 filler 1#32 fullUnit) filler 1#32 fullUnit := by
  have hat : ∀ l, l < 32 → (1#32).getLsbD l = true →
      lsAt filler fullUnit (laneAddr stfFill true false 4 filler 1#32 fullUnit l) 4 = .ok 0 0 := by decide
  exact ⟨by decide, fun l hl ha => ⟨0, 0, hat l hl ha⟩⟩

theorem releases_fullUnit : Releases filler fullUnit := ⟨by decide +kernel, rfl, by decide⟩

theorem core_fullUnit : 0 ∈ granCores filler 1#32 fullUnit 4 (laneAddr stfFill true false 4 filler 1#32 fullUnit) := by decide

/-- The STF is held. -/
theorem exec_stf_fullUnit : exec (.stf stfFill) fullUnit = .next fullUnit :=
  exec_stf_held issues_fullUnit localReady_fullUnit releases_fullUnit core_fullUnit granWaiting_fullUnit.ge

/-- Refutes O22: an STF with HINT 1 is no counted waiter, so that the statement asks no room for it; but R179, and the model, hold
every STF while 256 operations wait. -/
theorem not_localStoreWords : ¬ Obligations.LocalStoreWords := by
  intro h
  obtain ⟨u, hnext, -, hu, -⟩ := h stfFill
    ⟨.stf stfFill, stfFill, { kind := .stf (stfFill.ht == 0), size := sizeBytes stfFill.sz, release := true }, false,
      [memData stfFill], []⟩
    filler 1#32 fullUnit (by simp [localForms]) issues_fullUnit localReady_fullUnit (fun _ _ => releases_fullUnit) (fun hc => nomatch hc)
  have hs : fullUnit = finish filler u := Host.Outcome.next.inj (exec_stf_fullUnit.symm.trans hnext)
  have hu := hu (by decide) rfl
  have hpc : (((finish filler u).courseD 0).strand 0).pc = 8#64 := by
    rw [hu]
    decide +kernel
  rw [← hs] at hpc
  exact absurd hpc (by decide)

end Sys2Proof
end

section
/-! Accesses at their homes, copy-on-writes, granule operations and leases (R135, R150, R171, R179, R182, R185, R223, R425, R429, R433). -/

namespace Sys2Proof.Machine

/-! ### Memory after a write through a page of a key slot (R433) -/

section
variable {s : State} {slot key n b : Nat}

theorem Memory.readN_length (m : List Host.Cell) (key n : Nat) : (Memory.readN m key n).length = n := by
  induction n generalizing key with
  | zero => rfl
  | succ n ih => simp only [Memory.readN, List.length_cons, ih]

theorem State.length_lineUnder_le (s : State) (slot line : Nat) : (s.lineUnder slot line).length ≤ 128 := by
  unfold State.lineUnder
  dsimp only
  split
  · exact (Memory.readN_length ..).le
  · split
    · exact (Memory.readN_length ..).le
    · exact List.length_take_le ..

/-- A line taken over to another key slot leaves the bytes of every other line alone. -/
theorem State.read_underKey_out {line : Nat} (hwf : Memory.wf s.mem = true) (h : b / 128 ≠ line) :
    Memory.read (s.underKey slot line).mem b = Memory.read s.mem b :=
  Memory.read_writeN_out hwf (by have := s.length_lineUnder_le slot line; omega)

theorem mem_linesOf {l : Nat} : l ∈ linesOf key n ↔ key / 128 ≤ l ∧ l < (key + n + 127) / 128 := by
  simp only [linesOf, List.mem_map, List.mem_range]
  constructor
  · rintro ⟨i, hi, rfl⟩
    omega
  · exact fun h => ⟨l - key / 128, by omega, by omega⟩

/-- The lines taken over to a key slot are those of the range, and none where all of them are under it. -/
theorem State.read_takeKey_out (hwf : Memory.wf s.mem = true)
    (h : s.allUnder slot key n = true ∨ b / 128 < key / 128 ∨ (key + n + 127) / 128 ≤ b / 128) :
    Memory.read (s.takeKey slot key n).mem b = Memory.read s.mem b := by
  unfold State.takeKey
  split
  · rfl
  · next hunder =>
    have hb := h.resolve_left hunder
    refine (List.foldlRecOn (motive := fun t : State => Memory.wf t.mem = true ∧ Memory.read t.mem b = Memory.read s.mem b) _ _
      ⟨hwf, rfl⟩ fun t ⟨htwf, ht⟩ l hl => ⟨Memory.wf_writeN htwf, ?_⟩).2
    have hl := mem_linesOf.1 hl
    exact (State.read_underKey_out htwf (by omega)).trans ht

theorem State.writeMem_mem (s : State) (key : Nat) (bytes : List Byte) (slot : Nat) :
    (s.writeMem key bytes slot).mem = Memory.writeN (s.takeKey slot key bytes.length).mem key bytes :=
  List.foldlRecOn (motive := fun t : State => t.mem = Memory.writeN (s.takeKey slot key bytes.length).mem key bytes) _ _ rfl
    fun _ ht _ _ => ht

end

/-! ### The end of a course's turn where no barrier is reached -/

section
variable {s : State} {c st : Nat}

/-- Where a course has one live strand, no strands meet. -/
theorem mergeAt_single {i : Nat} (h : (s.courseD c).liveStrands = [i]) : mergeAt c st s = s := by
  have hlen : (mergers (s.courseD c) ((s.courseD c).strand st).pc ((s.courseD c).strand st).depth).length < 2 := by
    refine (List.length_filter_le _ _).trans_lt ?_
    rw [h]
    exact Nat.one_lt_two
  refine if_pos ?_
  rw [Bool.or_eq_true, decide_eq_true_eq]
  exact .inr hlen

theorem deferralGo_live (n : Nat) (y : Strand) : (deferralGo n y).live = y.live := by
  induction n generalizing y with
  | zero => rfl
  | succ n ih =>
    unfold deferralGo
    split
    · rfl
    · split
      · rfl
      · split
        · exact ih _
        · exact ih _

/-- A change of a strand that ends no strand and starts none keeps which ones are live. -/
theorem liveStrands_modStrand {f : Strand → Strand} (hf : ∀ y : Strand, (f y).live = y.live) :
    ((s.modStrand c st f).courseD c).liveStrands = (s.courseD c).liveStrands := by
  have hco : ∀ co : Course, (co.modStrand st f).liveStrands = co.liveStrands := fun co => Course.liveStrands_congr fun i _ => by
    by_cases hst : st < 4
    · rw [Course.strand_modStrand _ _ _ _ hst]
      split
      · next h => rw [hf, h]
      · rfl
    · rw [Course.modStrand, vset_out _ _ _ (Nat.not_lt.1 hst)]
  cases h : s.course c with
  | none =>
    have hn : (s.modStrand c st f).course c = none := by simp [State.modStrand, h]
    simp only [State.course] at h hn
    simp only [State.courseD, Tab.getD, h, hn]
  | some co => rw [State.courseD_modStrand _ h, State.courseD_eq h, hco]

/-- The only live strand of a course, sent on to an address, meets no other, so that nothing is reported. -/
theorem moveTo_mem {i : Nat} {pc : DWord} (h : (s.courseD c).liveStrands = [i]) : (moveTo c st pc s).mem = s.mem := by
  have hpc := (liveStrands_modStrand (s := s) (c := c) (st := st) (f := fun y => { y with pc := pc }) fun _ => rfl).trans h
  have hlive := (liveStrands_modStrand (st := st) (deferralGo_live 12)).trans hpc
  simp only [moveTo, arriveAt, mergeAt_single hlive]
  split
  · rfl
  · rfl

theorem joinCheck_mem : (joinCheck c s).mem = s.mem := by
  unfold joinCheck
  dsimp only
  split
  · next i hl =>
    split
    · exact moveTo_mem ((liveStrands_modStrand (f := fun y => { y with wait := .none }) fun _ => rfl).trans hl)
    · rfl
  · rfl

/-- Where not every live strand of a course is marked at one barrier, nothing is reported at the end of its turn. -/
theorem tidy_mem (h : markedAll (s.courseD c) = none) : (tidy c s).mem = s.mem := by
  have hbar : barCheck c s = s := by simp only [barCheck, h]
  rw [tidy, hbar, joinCheck_mem]

end

/-! ### A store performed -/

section
variable {id l key : Nat} {a : Access} {x : LaneAcc} {s : State}

/-- A lane of a store that is translated, and that race checking does not cover, is written at its key. -/
theorem writeLane_store (hk : a.kind = .store) (hs : x.stage = .at_ key) (hc : x.checked a.kind = false) (hb : x.block = false) :
    writeLane id a s (l, x) = (s.writeMem key x.data x.slot).setLane id l (x.finished []) := by
  simp only [writeLane, hk] at hc ⊢
  simp only [AccKind.tableOp, Bool.false_eq_true, if_false, hs, hc, hb, Bool.false_and, performLane, hk, storeBlockL1]

/-- An access without faults, acquires or lanes to decide ends its turn with memory as it was. -/
theorem settle_mem (hf : Tab.find s.accesses id = some a) (hfaults : a.faults = 0#32) (hacq : a.acquires = false)
    (hm : markedAll (s.courseD a.course) = none) : (settle id s).mem = s.mem := by
  unfold settle
  simp only [hf, hfaults, hacq, Bool.or_true, decide_true, if_true, Bool.false_eq_true, if_false]
  split
  · rfl
  · split
    · exact tidy_mem hm
    · exact tidy_mem hm

/-- A store of one lane, performed: its access is there with the lane done, and no course has changed. -/
theorem settle_store_mem (hf : Tab.find s.accesses id = some a) (hk : a.kind = .store) (hl : a.lanes = [(l, x)])
    (hm : markedAll (s.courseD a.course) = none) : (settle id (s.setLane id l (x.finished []))).mem = s.mem := by
  have hlanes : Tab.put a.lanes l (x.finished []) = [(l, x.finished [])] := by simp [hl, Tab.put]
  refine settle_mem (a := { a with lanes := [(l, x.finished [])] }) ?_ ?_ ?_ hm
  · simp only [State.setLane, State.modAccess, Tab.find_upd, if_true, hf, Option.map_some, hlanes]
  · have hfail : Access.failing { a with lanes := [(l, x.finished [])] } = 0#32 := maskOf_zero fun k _ => by
      by_cases hkl : l = k
      · simp [Tab.find, hkl, LaneAcc.finished]
      · simp [Tab.find, hkl]
    rw [Access.faults, hfail, bne_self_eq_false, Bool.and_false]
    rfl
  · simp only [Access.acquires, hk]

end

end Sys2Proof.Machine

namespace Sys2Proof
open Sys2Proof.Machine

/-- A store performed at its home changes memory at its key and, where its lines are taken over to its key slot, in them. -/
theorem homeWritePerformed_store {id l key : Nat} {a : Access} {x : LaneAcc} {s : State} (hf : Tab.find s.accesses id = some a)
    (hw : s.mustWait id a = false) (hk : a.kind = .store) (hl : a.lanes = [(l, x)]) (hs : x.stage = .at_ key)
    (hc : x.checked a.kind = false) (hb : x.block = false) (hm : markedAll (s.courseD a.course) = none) :
    ∃ t, exec (.homeWritePerformed id) s = .next t ∧
      t.mem = Memory.writeN (s.takeKey x.slot key x.data.length).mem key x.data := by
  have hexec : exec (.homeWritePerformed id) s = .next (settle id ((s.writeMem key x.data x.slot).setLane id l (x.finished []))) := by
    show execHomeWritePerformed id s = _
    simp only [execHomeWritePerformed, hf, hw, Bool.false_eq_true, if_false, hk, hl, List.foldl_cons, List.foldl_nil,
      writeLane_store hk hs hc hb]
  have hposted := OnlyPosted.writeMem s key x.data x.slot
  have hacc : (s.writeMem key x.data x.slot).accesses = s.accesses := by
    obtain ⟨_, _, _, _, _, _, _, _, _, he⟩ := hposted
    rw [he]
  refine ⟨_, hexec, (settle_store_mem (a := a) ?_ hk hl ?_).trans (State.writeMem_mem ..)⟩
  · rw [hacc, hf]
  · rw [State.courseD_of_courses hposted.courses, hm]

/-- Settles O52, event by event; the frame of a store is that of its write and of the lines it takes over. -/
theorem accessEvents : Obligations.AccessEvents := by
  intro id s
  refine ⟨fun a hf hw => ⟨fun pick => ?walk, fun hk => ?perform, fun w hk => ?lastuse, fun l x key hk hl hs hc hb hm hwf => ?store⟩,
    fun w hf hh => ?cow, fun g hf hr => ⟨?serve, ?alone, ?group, fun ht => ?performed⟩, fun dev ia hdev => ?lease⟩
  case walk =>
    show execPageWalk id pick s = _
    simp only [execPageWalk, hf, hw, Bool.false_eq_true, if_false]
  case perform =>
    constructor
    · show execCheckAccess id s = _
      simp only [execCheckAccess, hf, hw, Bool.false_eq_true, if_false]
    · show execHomeWritePerformed id s = _
      simp only [execHomeWritePerformed, hf, hw, Bool.false_eq_true, if_false]
  case lastuse =>
    constructor
    · show execCheckAccess id s = _
      simp only [execCheckAccess, hf, hw, Bool.false_eq_true, if_false, hk]
    · show execHomeWritePerformed id s = _
      simp only [execHomeWritePerformed, hf, hw, Bool.false_eq_true, if_false, hk]
  case store =>
    obtain ⟨t, hexec, ht⟩ := homeWritePerformed_store hf hw hk hl hs hc hb hm
    refine ⟨t, hexec, ?_, fun b hout hline => ?_⟩
    · rw [ht]
      exact Memory.readN_writeN (State.takeKey_wf hwf)
    · rw [ht, Memory.read_writeN_out (State.takeKey_wf hwf) hout, State.read_takeKey_out hwf hline]
  case cow =>
    show execCowCopyComplete id s = _
    simp only [execCowCopyComplete, hf, hh, Bool.false_eq_true, if_false]
  case serve =>
    show execGranuleOpComplete id s = _
    simp only [execGranuleOpComplete, hf, hr, if_true]
  case alone =>
    intro ha
    simp only [granGroup, ha, Bool.false_eq_true, if_false]
  case group =>
    intro ha i
    simp [granGroup, ha, and_assoc]
  case performed => simp only [serveGran, hf, hr, ht, Bool.and_self, if_true]
  case lease =>
    refine ⟨_, rfl, rfl, fun d hd => vget_vset_ne _ _ _ _ _ (Ne.symm hd), ?_, fun e => ?_⟩
    · rw [State.dev_modDev_same hdev]
    · rw [State.dev_modDev_same hdev]
      simp [imp_iff_not_or]

end Sys2Proof
end

section
/-! The words of the copy channels, of the circular buffers and of the operand streams, and MIGR (R191, R192, R200, R201, R206 to R210,
R212 to R214, R225, R436). -/

namespace Sys2Proof.Machine

/-! ### What the reports of latent poison leave to the engine words -/

section
variable {x : At} {act : Mask} {refs : List SrcRef} {s : State}

theorem teamD_noteLatent (tid : Nat) : teamD (noteLatent x act refs s) tid = teamD s tid := by
  simp only [teamD, State.team, (OnlyNoted.noteLatent x act refs s).teams]

theorem cbOf_noteLatent (tid i : Nat) : cbOf (noteLatent x act refs s) tid i = cbOf s tid i := by
  rw [cbOf, teamD_noteLatent, cbOf]

theorem streamOf_noteLatent (tid i : Nat) : streamOf (noteLatent x act refs s) tid i = streamOf s tid i := by
  rw [streamOf, teamD_noteLatent, streamOf]

/-- Where a local-store address lies rests on the teams and the panels. -/
theorem lsAt_noteLatent (addr n : Nat) : lsAt x (noteLatent x act refs s) addr n = lsAt x s addr n := by
  obtain ⟨_, ⟨_, _, _, _, _, _, _, _, _, rfl⟩, _, _, h⟩ := OnlyNoted.noteLatent x act refs s
  rw [h]
  rfl

theorem cpyRecord_noteLatent {w : FWord} : cpyRecord w x act (noteLatent x act refs s) = cpyRecord w x act s := by
  simp only [cpyRecord, ownerOfWord_noteLatent, SrcRef.low_noteLatent]

theorem spushBytes_noteLatent {w : FWord} : spushBytes w x act (noteLatent x act refs s) = spushBytes w x act s := by
  simp only [spushBytes, SrcRef.at_noteLatent]

end

/-! ### Checks that say go -/

section
variable {x : At} {act : Mask} {s : State}

/-- Checks of which each says go. -/
theorem and_eq_go {v u : Verdict} (hv : v = .go) (hu : u = .go) : v.and_ u = .go := by rw [hv, hu, Verdict.go_and]

theorem illegalIf_go {b : Bool} (h : b = false) : illegalIf b = .go := by rw [illegalIf, h, Verdict.trapIf_false]

/-- The lanes that name the operand of the lowest one have its value. -/
theorem SrcRef.at_named {r : SrcRef} {l : Nat} (h : (namedLanes act (r.at_ x act s)).getLsbD l = true) :
    r.at_ x act s l = r.low x act s := by
  cases hk : lowLane act with
  | none =>
    simp only [namedLanes, hk, BitVec.getLsbD_zero, Bool.false_eq_true] at h
  | some k =>
    simp only [namedLanes, hk, lanesWhere, getLsbD_maskOf, Bool.and_eq_true, beq_iff_eq] at h
    obtain ⟨-, -, heq⟩ := h
    simp only [SrcRef.low, hk, heq]

theorem lowAlign_low_go {r : SrcRef} {n : Nat} (h : r.low x act s % n = 0) : lowAlign act (r.at_ x act s) n = .go :=
  lowAlign_go fun _ _ hn => (congrArg (· % n) (SrcRef.at_named hn)).trans h

/-- A stream that no buffer is bound to and that has room takes a fragment (R192, R212). -/
theorem streamCheck_go {tid st : Nat} (hbind : (streamOf s tid st).bind = none) (hroom : (streamOf s tid st).frags.length < 8) :
    streamCheck s tid st = .go := by
  rw [streamCheck, hbind, Option.isSome_none, Verdict.trapIf_false, Verdict.go_and, waitIf_le_go hroom]

/-- A local-store address of the lowest active lane, inside the allocation it names. -/
theorem lsCheck_const_go {m : Mask} {n addr src off : Nat} (h : lsAt x s addr n = .ok src off) :
    lsCheck x m s n (fun _ => addr) = .go :=
  lsCheck_go (align := 1) ⟨fun _ _ _ => Nat.mod_one _, fun _ _ _ => ⟨src, off, h⟩⟩

/-- A length that SFILL allows (R212). -/
theorem sfillLen_go {n : Nat} (hlow : 16 ≤ n) (hhigh : n ≤ 2048) (hmod : n % 16 = 0) : illegalIf (!(sfillLenOk n)) = .go :=
  illegalIf_go (by simp [sfillLenOk, hlow, hhigh, hmod])

end

/-! ### Words of the circular buffers (R208 to R210) -/

section
variable {w : FWord} {x : At} {act : Mask} {s : State}

/-- CBPROD and CBCONS: a count of at least 1 that the buffer's limit allows moves the buffer. -/
theorem cbMove_next {limit : CircBuf → Nat} {code : Nat} {f : CircBuf → Nat → CircBuf} {b : CircBuf}
    (h : Issues x act w.pn w.pred 0xFF#8 0 [numRef w 0 false] s) (ha : act ≠ 0#32) (hb : cbOf s x.co.team (cbIdx w) = some b)
    (hone : 1 ≤ (numRef w 0 false).low x act s) (hp : x.pending s 4 = false) (hlimit : (numRef w 0 false).low x act s ≤ limit b) :
    cbMove w limit code f s = .next (finish x (setCb x.co.team (cbIdx w) (f b ((numRef w 0 false).low x act s))
      (noteLatent x act [numRef w 0 false] s))) := by
  have hexec : cbMove w limit code f s = _ := engineWord_active h ha (by
    simp only [hb, illegalIf_go, countOk, hone, decide_true, Bool.not_true, decide_eq_false (Nat.not_lt.2 hlimit), engineWait_go hp,
      Verdict.trapIf_false, Verdict.all_cons, Verdict.all_nil, Verdict.go_and])
  simp only [cbOf_noteLatent, hb, SrcRef.low_noteLatent] at hexec
  exact hexec

/-- CBWAIT: once the buffer has the room, or holds the elements, that the count asks for. -/
theorem exec_cbwait {b : CircBuf} (h : Issues x act w.pn w.pred w.d 1 [numRef w 0 false] s)
    (hb : cbOf s x.co.team (cbIdx w) = some b)
    (hcount : act ≠ 0#32 → (numRef w 0 false).low x act s ≤ (if w.fld 6 1 = 1 then b.room else b.held)) :
    exec (.cbwait w) s = .next (finish x (produce x act w.d 1 false (fun _ => if w.fld 6 1 = 1 then b.p else b.c)
      (noteLatent x act [numRef w 0 false] s))) := by
  have hexec : exec (.cbwait w) s = _ := engineValue_next h fun ha => by
    simp only [wantsRoom, beq_iff_eq, hb]
    exact waitIf_lt_go (hcount ha)
  simp only [ite_self, cbOf_noteLatent, wantsRoom, beq_iff_eq, hb] at hexec
  exact hexec

end

end Sys2Proof.Machine

namespace Sys2Proof
open Sys2Proof.Machine

/-- Settles O23, word by word. -/
theorem copyWords : Obligations.CopyWords := by
  intro w x act s k ch put
  refine ⟨fun h => ⟨engineWord_inactive h, fun ha halign hp hroom => ?chain⟩,
    fun h => ⟨engineWord_inactive h, fun ha hp hroom => ?cpy⟩,
    fun h => ⟨engineWord_inactive h, fun ha hlow hhigh hp hfree => ?codebk⟩, fun h => ⟨fun ha => ?swzIdle, fun ha => ?swz⟩⟩
  case chain =>
    have hexec : exec (.chain w) s = _ := engineWord_active h ha (and_eq_go (lowAlign_go halign)
      (and_eq_go (engineWait_go hp) (and_eq_go (waitIf_le_go hroom) rfl)))
    simp only [SrcRef.low_noteLatent, ownerOfWord_noteLatent] at hexec
    exact hexec
  case cpy =>
    have hexec : exec (.cpy w) s = _ := engineWord_active h ha (and_eq_go (engineWait_go hp) (waitIf_le_go hroom))
    rw [cpyRecord_noteLatent] at hexec
    exact hexec
  case codebk =>
    have hlegal : (decide ((numRef w 1 false).low x act s % 2 ^ 13 = 0)
        || decide (4096 < (numRef w 1 false).low x act s % 2 ^ 13)) = false := by
      rw [decide_eq_false (Nat.pos_iff_ne_zero.1 hlow), decide_eq_false (Nat.not_lt.2 hhigh), Bool.or_false]
    have hexec : exec (.codebk w) s = _ := engineWord_active h ha (and_eq_go (illegalIf_go hlegal)
      (and_eq_go (engineWait_go hp) (and_eq_go (congrArg Verdict.waitIf hfree) rfl)))
    simp only [SrcRef.low_noteLatent, ownerOfWord_noteLatent] at hexec
    exact hexec
  case swzIdle => exact (engineWord_inactive h ha).trans (by rw [noteLatent_nil])
  case swz => exact (engineWord_active h ha rfl).trans (by rw [noteLatent_nil])

/-- Settles O25: CBPROD and CBCONS are one word with different limits. -/
theorem bufferWords : Obligations.BufferWords := by
  intro w x act s tid i a
  refine ⟨fun h => ⟨engineWord_inactive h, fun ha hlow hhigh hsize halign hfits hp hfree => ?cbdef⟩,
    fun h => ⟨fun ha => ⟨engineWord_inactive h ha, engineWord_inactive h ha⟩,
      fun b ha hb hone hp => ⟨fun hroom => ?cbprod, fun hheld => ?cbcons⟩⟩,
    fun h => ?cbwait⟩
  case cbdef =>
    have hlegal : (decide ((numRef w 1 false).low x act s < 16) || decide (65536 < (numRef w 1 false).low x act s)
        || (numRef w 1 false).low x act s % 16 != 0 || (numRef w 0 false).low x act s % 16 != 0) = false := by
      simp [Nat.not_lt.2 hlow, Nat.not_lt.2 hhigh, hsize, show (numRef w 0 false).low x act s % 16 = 0 from halign]
    have hexec : exec (.cbdef w) s = _ := engineWord_active h ha (and_eq_go (illegalIf_go hlegal)
      (and_eq_go (if_pos hfits) (and_eq_go (engineWait_go hp) (and_eq_go (congrArg Verdict.waitIf hfree) rfl))))
    simp only [SrcRef.low_noteLatent] at hexec
    exact hexec
  case cbprod =>
    exact cbMove_next (limit := CircBuf.room) (f := fun b n => { b with p := (b.p + n) % 2 ^ 32 }) h ha hb hone hp hroom
  case cbcons =>
    exact cbMove_next (limit := CircBuf.held) (f := fun b n => { b with c := (b.c + n) % 2 ^ 32 }) h ha hb hone hp hheld
  case cbwait =>
    intro s' b hb hcount
    obtain ⟨co, hco⟩ := noteLatent_present (act := act) (refs := [numRef w 0 false]) h.course
    exact ⟨_, exec_cbwait h hb hcount, produce_spec hco h.slot⟩

/-- Settles O26, word by word: the fragments are those of the state after the reports of the sources, which leave the stream and the
allocation alone. -/
theorem streamWords : Obligations.StreamWords := by
  intro w x act s tid st
  refine ⟨fun h => ⟨engineWord_inactive h, fun src off ha hlow hhigh hmod halign hin hbind hroom hp => ?sfill⟩,
    fun h => ⟨engineWord_inactive h, fun ha hbind hroom hp => ?spush⟩,
    fun h => ⟨fun ha => ?sbindIdle, fun ha hp hoff => ?unbind, fun b ha hp hoff hb hlow hhigh => ?bind⟩⟩
  case sfill =>
    have hfe : (if w.fld 4 1 == 1 then lowAlign act ((numRef w 0 false).at_ x act s) 16 else .go) = .go := by
      split
      next hfe => exact lowAlign_low_go (halign (beq_iff_eq.1 hfe))
      next => rfl
    have hexec : exec (.sfill w) s = _ := engineWord_active h ha (and_eq_go (sfillLen_go hlow hhigh hmod)
      (and_eq_go hfe (and_eq_go (lsCheck_const_go hin) (and_eq_go (streamCheck_go hbind hroom)
        (and_eq_go (engineWait_go hp) rfl)))))
    simp only [SrcRef.low_noteLatent, lsAt_noteLatent, hin, beq_iff_eq] at hexec
    exact hexec
  case spush =>
    have hexec : exec (.spush w) s = _ := engineWord_active h ha (and_eq_go (streamCheck_go hbind hroom) (engineWait_go hp))
    simp only [streamOf_noteLatent, spushBytes_noteLatent, Bool.or_eq_true, beq_iff_eq, decide_eq_true_eq] at hexec
    exact hexec
  case sbindIdle => exact (engineWord_inactive h ha).trans (by rw [noteLatent_nil])
  case unbind =>
    have hend : (w.fld 9 1 == 1) = true := beq_iff_eq.2 hoff
    have hexec : exec (.sbind w) s = _ := engineWord_active h ha ((if_pos hend).trans (engineWait_go hp))
    rw [if_pos hend, noteLatent_nil] at hexec
    exact hexec
  case bind =>
    have hon : ¬(w.fld 9 1 == 1) = true := mt beq_iff_eq.1 hoff
    have hlegal : (!((cbOf s tid (w.fld 3 6)).map bindable).getD false) = false := by
      simp [hb, bindable, hlow, hhigh]
    have hexec : exec (.sbind w) s = _ := engineWord_active h ha ((if_neg hon).trans
      (and_eq_go (illegalIf_go hlegal) (engineWait_go hp)))
    rw [if_neg hon, noteLatent_nil] at hexec
    exact hexec

/-- Settles O27: MIGR checks nothing, and a hint without a place, or none, is dropped and counted. -/
theorem migrationWords : Obligations.MigrationWords := by
  intro w x act s h
  have hexec : exec (.migr w) s = _ := sourced_next h rfl rfl
  rw [SrcRef.low_noteLatent] at hexec
  refine ⟨fun ha => ?idle, fun ha => ?active⟩
  case idle =>
    rw [if_pos ha] at hexec
    exact hexec
  case active =>
    rw [if_neg ha] at hexec
    refine hexec.trans ?_
    cases migrHint w x ((numRef w 0 true).low x act s) (noteLatent x act [numRef w 0 true] s) with
    | none => rfl
    | some m => rfl

end Sys2Proof
end

section
/-! The events of the copy channels, the streams, the collective and the swatch engine (R197, R198, R206, R211, R212, R252 to R254,
R258, R262). -/

namespace Sys2Proof.Machine

/-! ### Copy channels (R197, R198, R206) -/

section
variable {core id ch va ctl : Nat} {o : Owner} {rest : List ChanItem} {s : State}

theorem exec_recordClaim {t : State} (h : claimHead core ch s = some t) : exec (.recordClaim core ch) s = .next t := by
  show execRecordClaim core ch s = _
  rw [execRecordClaim, h, Option.getD_some]

/-- A claimed record that has been moved is complete with status 1. -/
theorem exec_recordComplete_moved {r r1 : Record} {s1 : State} (hr : Tab.find (s.core core).claimed id = some (ch, r))
    (hm : runRecord core id ch r s = (s1, r1, .moved)) :
    exec (.recordComplete core id) s = .next (completeRecord core id ch r1 1 0 s1) := by
  show execRecordComplete core id s = _
  simp only [execRecordComplete, hr, hm]

/-- A claimed record that has failed is complete with its status (R198). -/
theorem exec_recordComplete_failed {r r1 : Record} {s1 : State} {e : Nat} (hr : Tab.find (s.core core).claimed id = some (ch, r))
    (hm : runRecord core id ch r s = (s1, r1, .fail e)) :
    exec (.recordComplete core id) s = .next (completeRecord core id ch r1 e r1.foff s1) := by
  show execRecordComplete core id s = _
  simp only [execRecordComplete, hr, hm]

theorem exec_codebookLoadComplete (hl : (vget (s.core core).chans {} ch).loading = true)
    (hi : (vget (s.core core).chans {} ch).items = .codebook o va ctl :: rest) :
    exec (.codebookLoadComplete core ch) s = .next (loadTable core ch o va ctl (16 * bitsOf ctl 0 13 + 2) s) := by
  show execCodebookLoadComplete core ch s = _
  simp only [execCodebookLoadComplete, hl, hi]

/-- A load of which a byte could not be read ends with the table as it was. -/
theorem loadTable_failed {fuel : Nat} (hf : (vget (s.core core).chans {} ch).failed = true) :
    loadTable core ch o va ctl (fuel + 1) s = endLoad core ch o none s := by
  simp only [loadTable, hf, if_true]

/-- A load whose bytes have all been read replaces the table. -/
theorem loadTable_complete {fuel : Nat} (hf : (vget (s.core core).chans {} ch).failed = false)
    (ha : (vget (s.core core).chans {} ch).asked = false)
    (hn : 16 * bitsOf ctl 0 13 ≤ (vget (s.core core).chans {} ch).got.length) :
    loadTable core ch o va ctl (fuel + 1) s =
      endLoad core ch o (some (tableOfBytes o ctl (vget (s.core core).chans {} ch).got)) s := by
  simp only [loadTable, hf, ha, Bool.false_eq_true, if_false, if_pos hn]

end

/-! ### The collective (R252 to R254) -/

section
variable {core : Nat} {o : CollOp} {rest : List CollOp} {r : CollReply} {s s1 : State} {b : List Byte}

/-- A collective of a group whose devices are not known to the package, whose descriptor can be read and which neither waits nor
fails, is performed with what the fabric delivers. -/
theorem exec_collectiveComplete (hq : (s.core core).collq = o :: rest) (hf : o.fence = none)
    (hv : vaHeld s o.owner.ctx o.desc 64 true = false) (hb : collRead (s.ctx o.owner.ctx) o.desc 64 s = (s1, some b))
    (hg : Tab.getD (s.dev (s.ctx o.owner.ctx).dev).groupDevs [] (collGroup s o) = []) (hm : r.mismatch = false)
    (hh : collHeld s1 o (CollDesc.ofBytes b) r.contribs.length = false)
    (hbad : collBad (CollDesc.ofBytes b) r.contribs.length = false) (hr : r.failed = none) :
    exec (.collectiveComplete core r) s = .next (performColl core o r (CollDesc.ofBytes b) s1) := by
  show execCollectiveComplete core r s = _
  simp only [execCollectiveComplete, hq, hf, hv, hb, hg, hm, hh, hbad, hr, Option.isSome_none, List.isEmpty_nil, Bool.or_self,
    Bool.not_true, Bool.false_eq_true, if_true, if_false]

end

/-! ### The swatch engine (R258, R262) -/

section
variable {core : Nat} {o : SwOp} {rest : List SwOp} {s : State}

/-- The operation at the head of the swatch queue, where no request of it is under way: its computed result is settled, or it is
performed as far as it can be, or ends with status 7 where its course has no parameters. -/
theorem exec_swatchOpComplete (hq : (s.core core).swq = o :: rest) (hf : o.fence = none) (hout : o.out = 0) :
    exec (.swatchOpComplete core) s = .next (if o.fate.isSome then settleSw core s
      else if swOpcode o = 0x1C4#9 then stepSize core o s
      else match o.params with
        | none => finishSw core o 7 0 0 s
        | some q => stepSw core o q s) := by
  show execSwatchOpComplete core s = _
  simp only [execSwatchOpComplete, hq, hf, hout, Option.isSome_none, bne_self_eq_false, Bool.or_self, Bool.false_eq_true, if_false]
  split
  · rfl
  · split
    · rfl
    · cases o.params with
      | none => rfl
      | some q => rfl

/-- The notice of a SWSEND carries the number of its cells. -/
theorem exec_swsendNotice {q : SwatchParams} (hq : (s.core core).swq = o :: rest) (hp : o.params = some q)
    (hd : noticeDue s core = true) : exec (.swsendNotice core) s = .next (sendRstv o.owner core (BitVec.ofNat 64 o.c)
      (bitsOf o.word.toNat 0 6) (laneWords (fun l => if l = 0 then q.m else 0)) true
      (modOwner o.owner (fun co => { co with rstvOut := co.rstvOut + 1 }) (setSw core { o with note := some none } s))) := by
  show execSwsendNotice core s = _
  simp only [execSwsendNotice, hq, hd, hp, if_true, Option.map_some, Option.getD_some]

end

end Sys2Proof.Machine

namespace Sys2Proof
open Sys2Proof.Machine

/-- Settles O53, event by event. -/
theorem copyEvents : Obligations.CopyEvents := by
  intro core id ch st s
  refine ⟨fun t => exec_recordClaim, fun r s1 r1 hr => ⟨exec_recordComplete_moved hr, fun e => exec_recordComplete_failed hr⟩,
    rfl, ?load,
    fun o rest hq hf hv r s1 b hb hg hm hh hbad hr => exec_collectiveComplete hq hf hv hb hg hm hh hbad hr,
    fun o rest hq hf hout => ?swatch, fun o rest q hq hp hd => exec_swsendNotice hq hp hd⟩
  case load =>
    intro o va ctl rest c hl hi
    have hexec := exec_codebookLoadComplete hl hi
    exact ⟨hexec, fun hf => by rw [hexec, loadTable_failed hf], fun hf ha hn => by rw [hexec, loadTable_complete hf ha hn],
      fun t => rfl⟩
  case swatch =>
    have hexec := exec_swatchOpComplete hq hf hout
    refine ⟨fun hs => ?settled, fun hn hsize => ?size, fun hn hsize => ⟨fun hp => ?noParams, fun q hp => ?step⟩⟩
    case settled => rw [hexec, if_pos hs]
    case size => rw [hexec, hn, Option.isSome_none, if_neg Bool.false_ne_true, if_pos hsize]
    case noParams => rw [hexec, hn, Option.isSome_none, if_neg Bool.false_ne_true, if_neg hsize, hp]
    case step => rw [hexec, hn, Option.isSome_none, if_neg Bool.false_ne_true, if_neg hsize, hp]

end Sys2Proof
end

section
/-! FLUSHL and INVL beside a local-store acquire (R139, R140, R187). In the model the two read their lines, so that, like a load, they
wait while an older LDF of their strand waits for its granule. -/

namespace Sys2Proof.Machine

/-! ### Words held by a local-store acquire -/

section
variable {w : MWord} {x : At} {act : Mask} {s : State}

/-- An access whose addresses are ready waits while a local-store acquire or atomic of its course must precede it (R140, R144). -/
theorem globalChecks_held {q : GlobalWord} {v : Where} (h : GlobalReady v q.align q.need x act s) (ha : act ≠ 0#32)
    (hheld : heldByLocal x s q.kind.reads = true) : globalChecks q v x act s = .wait := by
  simp only [globalChecks, alignCheck_go h.aligned, globalCheck_go h, hheld, bne_iff_ne.2 ha, Bool.and_self, Verdict.waitIf_true,
    Verdict.all_cons, Verdict.go_and, Verdict.wait_and]

/-- So the line instructions that may fault, FLUSHL and INVL, whatever they do with their lines. -/
theorem checkedLine_held {f : At → State → Nat → State} (h : Issues x act w.pn w.pred 0xFF#8 0 [memBase w false] s)
    (hready : GlobalReady { block := w.am == 2, addr := laneAddr w false false 128 x act s, n := 128 } 128 { r := true } x act s)
    (ha : act ≠ 0#32) (hheld : heldByLocal x s true = true) : runWord (lineMeaning w true f) s = .next s := by
  have hwait := globalChecks_held (q := { kind := .load false, size := 128, align := 128, need := { r := true } }) hready ha hheld
  refine issueWord_wait h.here ?_
  simp only [lineMeaning, sourcedMeaning, firstMeaning, noCheck, ← h.lanes, h.go, h.unheld, framed_go, if_true, hwait, Verdict.go_and,
    Verdict.wait_and]

end

/-! ### An LDF that waits, and a FLUSHL of its strand -/

/-- FLUSHL of the line at the address in v0 and v1. -/
def flushWord : MWord :=
  { pn := false, pred := 7#3, base := 0x40#8, data := 0xFF#8, d := 0xFF#8, off := 0#16, t := 0#2, size := 0#4, amode := 0#2, hint := 0#2 }

/-- A context whose only range, readable, holds the first line. -/
def lineCtx : Ctx := { ranges := vset (vconst 8 {}) 0 { limit := 0x80#64, attr := 0x3#32 } }

/-- A strand of one lane whose LDF waits for the second granule of its team. -/
def acquiring : State :=
  { fullUnit with ctxs := [(0, lineCtx)], gran := [(0, { waitingLdf with course := 0, mask := 1#32 })], nextId := 1 }

theorem at_acquiring : acquiring.at_ = some filler := rfl

end Sys2Proof.Machine

namespace Sys2Proof
open Sys2Proof.Machine

theorem issues_acquiring : Issues filler 1#32 false 7#3 0xFF#8 0 [memBase flushWord false] acquiring :=
  ⟨at_acquiring, by decide, by decide, rfl, by decide⟩

theorem globalReady_acquiring : GlobalReady { block := false, addr := laneAddr flushWord false false 128 filler 1#32 acquiring, n := 128 }
    128 { r := true } filler 1#32 acquiring := by
  have hzero : ∀ l, l < 32 → (1#32).getLsbD l = true → laneAddr flushWord false false 128 filler 1#32 acquiring l = 0 := by decide
  refine ⟨fun l hl ha => ?_, fun _ _ _ hb => (nomatch hb), fun l hl ha => ?_, fun _ _ _ hb => (nomatch hb)⟩
  · dsimp only
    rw [hzero l hl ha]
  · dsimp only
    rw [hzero l hl ha]
    exact ⟨0, { limit := 0x80#64, attr := 0x3#32 }, by decide, by decide, by decide⟩

theorem exec_flushl_acquiring : exec (.flushl flushWord) acquiring = .next acquiring :=
  checkedLine_held (w := flushWord) (f := flushNamed flushWord) issues_acquiring globalReady_acquiring (by decide) (by decide)

/-- Refutes O20: an LDF of the same strand that still waits for its granule holds the FLUSHL, and no premise of the statement excludes
one. -/
theorem not_lineWords : ¬ Obligations.LineWords := by
  intro h
  obtain ⟨-, hready⟩ := h flushWord filler 1#32 acquiring issues_acquiring fun hb => absurd hb (by decide)
  obtain ⟨hnext, -⟩ := hready globalReady_acquiring
  have hs := Host.Outcome.next.inj (exec_flushl_acquiring.symm.trans hnext)
  have hpc := congrArg (fun t : State => ((t.courseD 0).strand 0).pc) hs
  exact absurd hpc (by decide +kernel)

end Sys2Proof
end

section
/-! The state of names (R249). The queries that go to other packages touch no course, so the push awaits its words in the registers
as the word found them. -/

namespace Sys2Proof
open Sys2Proof.Machine

theorem OnlySent.courses {s t : State} (h : OnlySent s t) : t.courses = s.courses := by
  obtain ⟨_, _, rfl⟩ := h
  rfl

end Sys2Proof

namespace Sys2Proof.Machine

/-- A request put on its way changes what devices know, the ports, and the requests under way. -/
theorem addRequest_courses (q : RemoteOut) (s : State) : (addRequest q s).courses = s.courses := by
  unfold addRequest
  exact (OnlySent.sendOut ..).courses.trans rfl

theorem askNames_courses (x : At) (id : Nat) (name : Nat → DWord) (l : List Nat) (s : State) :
    (l.foldl (askName x id name) s).courses = s.courses := by
  induction l generalizing s with
  | nil => rfl
  | cons a l ih => exact (ih _).trans (addRequest_courses ..)

/-- Names that denote no course of an unstarted member of the word's own panel hold it no longer (R24). -/
theorem waitsForMembers_go {x : At} {act : Mask} {s : State} {name : Nat → DWord}
    (h : ∀ l, l < 32 → act.getLsbD l = true → waitsForMember x s (name l) = false) :
    Verdict.waitIf ((lanesOf act).any (fun l => waitsForMember x s (name l))) = .go := by
  have hnone : (lanesOf act).any (fun l => waitsForMember x s (name l)) = false := by
    rw [List.any_eq_false]
    intro l hl
    obtain ⟨hlt, hbit⟩ := mem_lanesOf.1 hl
    simp [h l hlt hbit]
  rw [hnone, Verdict.waitIf_false]

end Sys2Proof.Machine

namespace Sys2Proof
open Sys2Proof.Machine

/-- Settles O33: the word issues once no name holds it; the reports of its source leave the names alone, and the queries the course. -/
theorem nameQueryWords : Obligations.NameQueryWords := by
  intro w x act s h name hgo s' val
  obtain ⟨co, hco⟩ := noteLatent_present (act := act) (refs := [numRef w 0 true]) h.course
  have hdest : Verdict.waitIf (destPending x act w.d 1) = .go := by rw [h.dest, Verdict.waitIf_false]
  have hexec : exec (.nameq w) s = .next (finish x (nameqEffect w x act s')) := sourced_next h hdest (waitsForMembers_go hgo)
  refine ⟨_, hexec, fun ha => ?idle, fun ha => ⟨_, ?later, rfl⟩⟩
  case idle =>
    rw [nameqEffect, if_pos ha]
    exact produceLater_spec hco h.slot
  case later =>
    rw [nameqEffect, if_neg ha, SrcRef.at_noteLatent]
    exact produceLater_spec ((State.course_of_courses (askNames_courses ..) _).trans hco) h.slot

end Sys2Proof
end

section
/-! Remote stores at their home, flits and links (R228 to R230, R239, R247, R248).

One lemma per event and outcome: each follows the branch that its hypotheses choose in the event's own definition. -/

namespace Sys2Proof.Machine

/-! ### Remote stores -/

section
variable {s : State} {id : Nat} {r : Rstv}

theorem exec_rstvDelivery_taken {a : NameAt} (hf : Tab.find s.rstvs id = some r) (hn : r.nak = false)
    (h : rstvFate s id r = .take a) : exec (.rstvDelivery id) s =
      .next (tellPlace r (answerPod r 0 (rstvOver r (noteResult r true (putRstv r a (countRstv r (dropRstv id s))))))) := by
  show execRstvDelivery id s = _
  simp [execRstvDelivery, hf, hn, h, deliveredRstv]

theorem exec_rstvDelivery_buffered {k : Nat} (hf : Tab.find s.rstvs id = some r) (hn : r.nak = false)
    (h : rstvFate s id r = .buffer k) : exec (.rstvDelivery id) s = .next (tellPlace r (answerPod r cHeld (noteResult r true
      ((countRstv r (dropRstv id s)).modCore k (fun c => { c with rbuf := c.rbuf ++ [r] }))))) := by
  show execRstvDelivery id s = _
  simp [execRstvDelivery, hf, hn, h]

theorem exec_rstvDelivery_refused {n : Nat} (hf : Tab.find s.rstvs id = some r) (hn : r.nak = false)
    (h : rstvFate s id r = .refuse n) :
    exec (.rstvDelivery id) s = .next (noteResult r false (refuseRstv r n (countRstv r (dropRstv id s)))) := by
  show execRstvDelivery id s = _
  simp [execRstvDelivery, hf, hn, h]

theorem exec_rstvDelivery_nakked (hf : Tab.find s.rstvs id = some r) (hn : r.nak = false) (h : rstvFate s id r = .nak) :
    exec (.rstvDelivery id) s = .next (answerPod r cStale { s with rstvs := Tab.put s.rstvs id { r with nak := true } }) := by
  show execRstvDelivery id s = _
  simp [execRstvDelivery, hf, hn, h]

theorem exec_rstvRetry_oldest (hf : Tab.find s.rstvs id = some r) (hn : r.nak = true) (ho : olderNak s id r = false) :
    exec (.rstvRetry id) s = .next (sendStore r { s with rstvs := Tab.put s.rstvs id { r with nak := false, since := s.aon } }) := by
  show execRstvRetry id s = _
  simp [execRstvRetry, hf, hn, ho]

theorem exec_rstvBufferDrain_first {core : Nat} {l t : List Rstv} {a : NameAt}
    (hd : firstDrain s core [] (s.core core).rbuf = some (l, r, t)) (ha : nameAt s r.target = some a) :
    exec (.rstvBufferDrain core) s =
      .next (answerPod r 0 (rstvOver r (putRstv r a (s.modCore core (fun k => { k with rbuf := l ++ t }))))) := by
  show execRstvBufferDrain core s = _
  simp [execRstvBufferDrain, hd, ha, deliveredRstv]

end

/-! ### Flits at a port -/

section
variable {s : State} {port : Nat} {f : Flit}

theorem State.port_modPort_same {g : Port → Port} (h : port < 12) : (s.modPort port g).port port = g (s.port port) :=
  vget_vset_same _ _ _ _ h

theorem State.modPort_modPort {g k : Port → Port} (h : port < 12) :
    (s.modPort port g).modPort port k = s.modPort port (k ∘ g) := by
  show { s with ports := vset (vset s.ports port (g (s.port port))) port (k ((s.modPort port g).port port)) } = _
  rw [vset_vset, State.port_modPort_same h]
  rfl

/-- A flit that the link does not await, or that comes by a link that is down, is not taken. -/
theorem exec_flitReceive_unawaited (h : (vget (s.port port).links {} f.link).up = false ∨
    f.lseq ≠ (vget (s.port port).links {} f.link).awaited) : exec (.flitReceive port f) s = .next s := by
  show execFlitReceive port f s = _
  obtain h | h := h <;> simp [execFlitReceive, h]

section
variable (hup : (vget (s.port port).links {} f.link).up = true) (hl : f.lseq = (vget (s.port port).links {} f.link).awaited)
include hup hl

theorem exec_flitReceive_discarded
    (h : f.kind = .dataLink ∨ f.seq < (s.port port).expect ∨ (s.port port).held.any (fun g => g.seq == f.seq) = true) :
    exec (.flitReceive port f) s = .next (linkReceived port f s) := by
  show execFlitReceive port f s = _
  obtain h | h | h := h <;> simp [execFlitReceive, hup, hl, h]

theorem exec_flitReceive_new (hk : f.kind ≠ .dataLink) (he : (s.port port).expect ≤ f.seq)
    (hh : (s.port port).held.any (fun g => g.seq == f.seq) = false) : exec (.flitReceive port f) s =
      .next (releaseFlits port ((s.port port).held.length + 1)
        ((linkReceived port f s).modPort port (fun y => { y with held := insertFlit f y.held }))) := by
  show execFlitReceive port f s = _
  simp [execFlitReceive, hup, hl, hk, Nat.not_lt.2 he, hh]

end

/-- The link's own state is no part of what the port has received. -/
theorem port_linkReceived (h : port < 12) : ((linkReceived port f s).port port).expect = (s.port port).expect ∧
    ((linkReceived port f s).port port).held = (s.port port).held := by
  rw [linkReceived, State.modLink, State.port_modPort_same h]
  exact ⟨rfl, rfl⟩

/-- The flit that a port expects goes on at once where none is held. -/
theorem releaseFlits_expected (hp : port < 12) (hs : f.seq = (s.port port).expect) (hh : (s.port port).held = []) :
    releaseFlits port 1 (s.modPort port (fun y => { y with held := insertFlit f y.held })) =
      takeFlit port f (s.modPort port (fun y => { y with expect := y.expect + 1 })) := by
  simp only [releaseFlits, State.port_modPort_same hp, hh, insertFlit, hs, if_true, State.modPort_modPort hp]
  simp only [State.modPort, Function.comp_def, hh]

theorem takeFlit_dropped (h : flitListed f = false ∨ (f.body ≠ .join ∧ f.incarn ≠ knownIncarn s (devOfPort s.mode port) f.src)) :
    takeFlit port f s = s.modPort port (fun y => { y with dropped := y.dropped + 1 }) := by
  unfold takeFlit
  rw [if_pos]
  obtain h | ⟨hb, hi⟩ := h
  · simp [h]
  · simp [hb, hi]

end

/-! ### Links -/

section
variable {s : State} {port link : Nat}

theorem exec_linkRetrain_up (hu : (vget (s.port port).links {} link).up = false)
    (hr : (vget (s.port port).links {} link).retrains < 3) (ht : (vget (s.port port).links {} link).nextTry ≤ s.aon) :
    exec (.linkRetrain port link true) s = .next (flushEgress (devOfPort s.mode port) ((s.modLink port link (fun y => { y with
      up := true, lanes := 4, retrains := 0, next := 0, awaited := 0 })).modPort
        port (fun p => { p with lanesUp := vmapIdx (fun i b => b || i / 4 == link) p.lanesUp }))) := by
  show execLinkRetrain port link true s = _
  simp [execLinkRetrain, hu, Nat.not_le.2 hr, Nat.not_lt.2 ht]

/-- R230: attempts after 10, 20 and 40 ms. -/
theorem exec_linkRetrain_failed (hu : (vget (s.port port).links {} link).up = false)
    (hr : (vget (s.port port).links {} link).retrains < 3) (ht : (vget (s.port port).links {} link).nextTry ≤ s.aon) :
    exec (.linkRetrain port link false) s = .next (linkDegraded port link 0xFFFFFFFF (s.modLink port link (fun y => { y with
      retrains := y.retrains + 1, nextTry := s.aon + 10 * ms * 2 ^ (y.retrains + 1) }))) := by
  show execLinkRetrain port link false s = _
  simp [execLinkRetrain, hu, Nat.not_le.2 hr, Nat.not_lt.2 ht]

theorem exec_linkLevelReplay_done (hu : (vget (s.port port).links {} link).up = true) :
    exec (.linkLevelReplay port link true) s = .next (s.modLink port link (fun y => { y with replays := 0 })) := by
  show execLinkLevelReplay port link true s = _
  simp [execLinkLevelReplay, hu]

theorem exec_linkLevelReplay_failed (hu : (vget (s.port port).links {} link).up = true) :
    exec (.linkLevelReplay port link false) s = .next (if (vget (s.port port).links {} link).replays + 1 < 16
      then s.modLink port link (fun y => { y with replays := y.replays + 1 }) else failLink port link 0xFFFFFFFF s) := by
  show execLinkLevelReplay port link false s = _
  simp only [execLinkLevelReplay, hu, Bool.not_true, Bool.false_eq_true, if_false, apply_ite Host.Outcome.next]

/-- R230: a lane that loses its lock fails a link that is up. -/
theorem exec_laneLockLoss (s : State) (port lane : Nat) :
    let s1 := s.modPort port (fun p => { p with lanesUp := vset p.lanesUp lane false })
    exec (.laneLockLoss port lane) s =
      .next (if (vget (s.port port).links {} (lane / 4)).up then failLink port (lane / 4) lane s1 else s1) := by
  show execLaneLockLoss port lane s = _
  rw [execLaneLockLoss, apply_ite Host.Outcome.next]

end

end Sys2Proof.Machine

namespace Sys2Proof
open Sys2Proof.Machine

/-- Settles O55, event by event; of the flits, the one that is expected while none is held is released first and alone. -/
theorem deliveryEvents : Obligations.DeliveryEvents := by
  intro id core port link lane f s
  refine ⟨fun r hf hn => ⟨fun a => exec_rstvDelivery_taken hf hn, fun k => exec_rstvDelivery_buffered hf hn,
      fun n => exec_rstvDelivery_refused hf hn, exec_rstvDelivery_nakked hf hn⟩,
    fun r => exec_rstvRetry_oldest, fun l r t a => exec_rstvBufferDrain_first,
    ⟨exec_flitReceive_unawaited, fun hup hl => ⟨exec_flitReceive_discarded hup hl, exec_flitReceive_new hup hl, ?expected⟩⟩,
    takeFlit_dropped, exec_laneLockLoss s port lane,
    ⟨fun hu hr ht => ⟨exec_linkRetrain_up hu hr ht, exec_linkRetrain_failed hu hr ht⟩,
      fun hu => ⟨exec_linkLevelReplay_done hu, exec_linkLevelReplay_failed hu⟩⟩⟩
  case expected =>
    intro hp hk hs hh
    obtain ⟨he, hheld⟩ := port_linkReceived (f := f) (s := s) hp
    rw [exec_flitReceive_new hup hl hk hs.ge (by rw [hh]; rfl), hh]
    exact congrArg Host.Outcome.next (releaseFlits_expected hp (hs.trans he.symm) (hheld.trans hh))

end Sys2Proof
end

section
/-! Requests between devices, shoot-downs, joins and lost peers (R232, R233, R236 to R240, R431, R463).

One lemma per event and outcome: each follows the branch that its hypotheses choose in the event's own definition. -/

namespace Sys2Proof.Machine

/-! ### Requests at their home -/

section
variable {s : State} {dev : Nat} {q : RemoteReq}

/-- R239: a request of an old incarnation is dropped and counted. -/
theorem exec_remoteRequest_old (h : q.incarn ≠ knownIncarn s dev q.src) :
    exec (.remoteRequest dev q) s = .next (s.modDev dev (fun d => { d with oldDropped := d.oldDropped + 1 })) := by
  show Host.Outcome.next (requestAt dev q s) = _
  simp [requestAt, h]

section
variable (hi : q.incarn = knownIncarn s dev q.src)
include hi

/-- R431: a device that a shoot-down has waited for in vain is refused. -/
theorem exec_remoteRequest_refused (hr : (Tab.getD (s.dev dev).peers {} q.src).refused = true) :
    exec (.remoteRequest dev q) s =
      .next (answerReq dev q cTargetUnavailable [] (noteAnswer dev q cTargetUnavailable [] s)) := by
  show Host.Outcome.next (requestAt dev q s) = _
  simp [requestAt, hi, hr]

variable (hk : q.kind ≠ .fetch) (hr : (Tab.getD (s.dev dev).peers {} q.src).refused = false)
include hk hr

/-- R233: a number that was answered is answered again, and nothing is performed. -/
theorem exec_remoteRequest_again {r : Nat × List (List Byte)}
    (hd : Tab.find (Tab.getD (s.dev dev).peers {} q.src).done q.seq = some r) :
    exec (.remoteRequest dev q) s = .next (answerReq dev q r.1 r.2 s) := by
  show Host.Outcome.next (requestAt dev q s) = _
  simp [requestAt, hi, hk, hr, hd]

variable (hd : Tab.find (Tab.getD (s.dev dev).peers {} q.src).done q.seq = none)
include hd

theorem exec_remoteRequest_held (hh : heldRequest s dev q = true) :
    exec (.remoteRequest dev q) s = .next (keepHeld dev q s) := by
  show Host.Outcome.next (requestAt dev q s) = _
  simp [requestAt, hi, hk, hr, hd, hh]

variable (hh : heldRequest s dev q = false)
include hh

theorem exec_remoteRequest_done {s1 : State} {code : Nat} {vals : List (List Byte)} (h : serve dev q s = .done s1 code vals) :
    exec (.remoteRequest dev q) s = .next (answerReq dev q code vals (noteAnswer dev q code vals s1)) := by
  show Host.Outcome.next (requestAt dev q s) = _
  simp [requestAt, hi, hk, hr, hd, hh, h]

theorem exec_remoteRequest_lineHeld (h : serve dev q s = .held) :
    exec (.remoteRequest dev q) s = .next (keepHeld dev q s) := by
  show Host.Outcome.next (requestAt dev q s) = _
  simp [requestAt, hi, hk, hr, hd, hh, h]

/-- R237: a NAK of a stale translation leaves the number open, and keeps later requests from its line. -/
theorem exec_remoteRequest_stale (h : serve dev q s = .stale) : exec (.remoteRequest dev q) s = .next (answerReq dev q cStale []
    (modPeer dev q.src (fun p => { p with stale := Tab.put p.stale q.seq (q.ia / 128) }) (dropHeld dev q s))) := by
  show Host.Outcome.next (requestAt dev q s) = _
  simp [requestAt, hi, hk, hr, hd, hh, h]

end

end

/-! ### Requests at their source -/

section
variable {s : State} {id : Nat} {q : RemoteOut} (hq : Tab.find s.remotes id = some q)
include hq

/-- R237: the entry that the request went through leaves the cache, and the request is without a translation again. -/
theorem exec_staleNak_nakked (hg : q.gen.isSome = true) (hn : nakked s q = true) :
    exec (.staleNak id) s = .next (sendOut { q with gen := none }
      { s.modDev q.dev (fun d => { d with podTlb := d.podTlb.filter (fun e =>
          !(e.ctx == q.ctx && e.pod == q.pod && e.page ≤ q.ia / 4096 && q.ia / 4096 < e.page + e.pages)) }) with
        remotes := Tab.put s.remotes id { q with gen := none } }) := by
  show execStaleNak id s = _
  simp only [execStaleNak, hq, hn, Option.isNone_eq_false_iff.2 hg, Bool.not_true, Bool.or_self, Bool.false_eq_true, if_false]
  rfl

theorem exec_remoteCompletion_given {code : Nat} {vals : List (List Byte)} (r : RemoteReply)
    (hd : (s.devOfPod q.pod).isSome = true) (hg : givenReply s q = some (code, vals)) :
    exec (.remoteCompletion id r) s = .next (remoteFinish id code vals s) := by
  show execRemoteCompletion id r s = _
  simp [execRemoteCompletion, hq, hd, hg]

theorem exec_remoteCompletion_old {r : RemoteReply} (hd : (s.devOfPod q.pod).isSome = false) (hi : r.incarn ≠ q.incarn) :
    exec (.remoteCompletion id r) s = .next (s.modDev q.dev (fun d => { d with oldDropped := d.oldDropped + 1 })) := by
  show execRemoteCompletion id r s = _
  simp [execRemoteCompletion, hq, hd, hi]

theorem exec_remoteCompletion_replied {r : RemoteReply} (hd : (s.devOfPod q.pod).isSome = false) (hi : r.incarn = q.incarn)
    (hw : waitsToLeave s q = false) (hg : q.gen.isSome = true) :
    exec (.remoteCompletion id r) s = .next (remoteFinish id r.code.toNat r.vals s) := by
  show execRemoteCompletion id r s = _
  simp [execRemoteCompletion, hq, hd, hi, hw, hg]

variable (hg : q.gen = none) (hk : kindQuery q.kind = false)
include hg hk

/-- R236: the cache's translation serves the request. -/
theorem exec_podTranslationFetch_cached {e : PodTlb} (r : PodReply) (he : podEntry s q = some e) :
    exec (.podTranslationFetch id r) s = .next (setGen id q e.gen s) := by
  show execPodTranslationFetch id r s = _
  simp [execPodTranslationFetch, hq, hg, hk, he]

theorem exec_podTranslationFetch_answered (r : PodReply) (he : podEntry s q = none) (hd : (s.devOfPod q.pod).isSome = false) :
    exec (.podTranslationFetch id r) s =
      .next (if r.granted = true then setGen id q r.gen (cachePod q r s) else remoteFinish id cOwnerFault [] s) := by
  show execPodTranslationFetch id r s = _
  have hd : s.devOfPod q.pod = none := by simpa using hd
  simp only [execPodTranslationFetch, hq, hg, hk, he, hd, Option.isSome_none, Bool.or_self, Bool.false_eq_true, if_false]
  split
  · rfl
  · rfl

end

/-! ### Shoot-downs -/

/-- R238: the entries that map any part of the page leave the cache, and no other. -/
theorem exec_shootDownReceive {dev : Nat} (owner ia sz : Nat) (s : State) (hdev : dev < 4) :
    ∃ t, exec (.shootDownReceive dev owner ia sz) s = .next t ∧ { t with devs := s.devs } = s ∧
      (t.dev dev).sdRecv = (s.dev dev).sdRecv ++ [(owner, ia, sz)] ∧
      (let n := pageBytes sz / 4096
       let first := ia / 4096 / n * n
       ∀ e, e ∈ (t.dev dev).podTlb ↔ e ∈ (s.dev dev).podTlb ∧ ¬(e.pod = owner ∧ first < e.page + e.pages ∧ e.page < first + n)) := by
  refine ⟨shootAt dev owner ia sz s, rfl, rfl, ?_⟩
  rw [shootAt, State.dev_modDev_same hdev]
  refine ⟨rfl, fun e => ?_⟩
  simp [imp_iff_not_or, or_assoc]

section
variable {s : State} {h : ShootDown} {rest : List ShootDown}

/-- R431: the devices that have not answered in time are counted in the completion word, and refused from then on. -/
theorem exec_shootDownTimeout_silent {dev : Nat} {silent : List Nat} (hq : (s.dev dev).sdQueue = h :: rest) (hs : h.sent = true)
    (ht : h.since + 1000 * (s.dev dev).podTimeout ≤ s.aon)
    (hl : h.due.filter (fun p => silent.contains p || (s.devOfPod p).isSome) ≠ []) :
    exec (.shootDownTimeout dev silent) s =
      (let l := h.due.filter (fun p => silent.contains p || (s.devOfPod p).isSome)
       .next (endShoot dev (2 + 2 ^ 32 * l.length)
        (l.foldl (fun acc p => lostPeer dev p (modPeer dev p (fun x => { x with refused := true }) acc)) s))) := by
  show execShootDownTimeout dev silent s = _
  simp only [execShootDownTimeout, hq]
  rw [if_pos (by simp only [hs, ht, List.isEmpty_eq_false_iff.2 hl, decide_true, Bool.not_false, Bool.and_self])]

theorem exec_shootDownComplete_acknowledged (hq : (s.dev s.bank).sdQueue = h :: rest) (hs : h.sent = true) (hd : h.due = []) :
    exec .shootDownComplete s = .next (endShoot s.bank 1 s) := by
  show execShootDownComplete s = _
  simp [execShootDownComplete, hq, hs, hd]

end

section
variable {s : State} {owner ia sz : Nat} {rest : List (Nat × Nat × Nat)} (hr : (s.dev s.bank).sdRecv = (owner, ia, sz) :: rest)
  (hu : undrained s s.bank owner ia sz = false)
include hr hu

/-- R238: an owner in another package is told by a flit. -/
theorem exec_shootDownDrained_far (ho : s.devOfPod owner = none) : exec .shootDownDrained s =
    .next (sendFlit s.bank owner (.shootAck ia sz) { s.modDev s.bank (fun d => { d with sdRecv := rest }) with
      podReply := (0, [toBytes 8 ia, toBytes 1 sz]) }) := by
  show execShootDownDrained s = _
  simp [execShootDownDrained, hr, hu, ho]

theorem exec_shootDownDrained_near {o : Nat} (ho : s.devOfPod owner = some o) : exec .shootDownDrained s =
    .next (ackFrom o (podOf s s.bank) (s.modDev s.bank (fun d => { d with sdRecv := rest }))) := by
  show execShootDownDrained s = _
  simp [execShootDownDrained, hr, hu, ho]

end

/-- R463: the bank's registers make a shoot-down, behind those that are queued. -/
theorem exec_sdgoWrite_queued {s : State} (h : ((s.dev s.bank).sdQueue.filter (fun h => !h.sent)).length < 16) :
    exec .sdgoWrite s = (let d := s.dev s.bank
      .next (startShoot s.bank (s.modDev s.bank (fun y => { y with sdQueue := y.sdQueue ++
        [{ ia := bitsOf d.sdia.toNat 12 36 * 4096, sz := bitsOf d.sdctl.toNat 0 3, asid := bitsOf d.sdctl.toNat 16 16
           done := d.sddone.toNat }] })))) := by
  show execSdgoWrite s = _
  rw [execSdgoWrite, if_neg (Nat.not_le.2 h)]

/-! ### Peers -/

/-- R239: what was under way to and from the old incarnation ends, and the sequences start anew. -/
theorem exec_joinAnnouncement_new {s : State} {dev peer : Nat} {incarn : BitVec 8} (hd : s.devOfPod peer = none)
    (hn : (Tab.getD (s.dev dev).peers {} peer).incarn ≠ incarn ∨ (Tab.getD (s.dev dev).peers {} peer).fenced = true) :
    exec (.joinAnnouncement dev peer incarn) s =
      (let p := Tab.getD (s.dev dev).peers {} peer
       let s1 := modPeer dev peer (fun _ => { incarn := incarn, told := p.told, refused := p.refused && p.incarn == incarn })
        (dropPod dev peer s)
       .next (lostPeer dev peer (newSequences dev peer (refuseOld dev peer
         ((requestsTo s dev peer).foldl (fun acc i => remoteFinish i cPeerReset [] acc) (dropOld dev peer p s1)))))) := by
  show Host.Outcome.next (joinFrom dev peer incarn s) = _
  rw [joinFrom, if_neg]
  obtain hn | hn := hn <;> simp [hd, hn]

/-- R240: a peer that has left a request unanswered for the pod timeout is fenced. -/
theorem exec_podTimeout_late {s : State} {dev peer : Nat}
    (hl : s.remotes.any (fun e => e.2.dev == dev && e.2.pod == peer && e.2.since + 1000 * (s.dev dev).podTimeout ≤ s.aon) = true)
    (hf : peerFenced s dev peer = false) : exec (.podTimeout dev peer) s =
      .next (lostPeer dev peer ((requestsTo s dev peer).foldl (fun acc i => remoteFinish i cTargetUnavailable [] acc)
        (modPeer dev peer (fun p => { p with fenced := true }) (dropPod dev peer s)))) := by
  show execPodTimeout dev peer s = _
  rw [execPodTimeout, if_pos (by rw [hl, hf]; rfl)]

end Sys2Proof.Machine

namespace Sys2Proof
open Sys2Proof.Machine

/-- Settles O56, event by event. -/
theorem remoteEvents : Obligations.RemoteEvents := by
  intro id dev s
  refine ⟨fun q => exec_remoteRequest_old, fun q => exec_remoteRequest_refused, ?home, ?source,
    fun owner ia sz => exec_shootDownReceive owner ia sz s, fun h rest silent => exec_shootDownTimeout_silent,
    fun h rest => exec_shootDownComplete_acknowledged,
    fun owner ia sz rest hr hu => ⟨exec_shootDownDrained_far hr hu, fun o => exec_shootDownDrained_near hr hu⟩,
    exec_sdgoWrite_queued, fun peer incarn => exec_joinAnnouncement_new, fun peer => exec_podTimeout_late⟩
  case home =>
    intro q hi hk peer hr
    exact ⟨fun r => exec_remoteRequest_again hi hk hr, exec_remoteRequest_held hi hk hr, fun hd hh =>
      ⟨fun s1 code vals => exec_remoteRequest_done hi hk hr hd hh, exec_remoteRequest_lineHeld hi hk hr hd hh,
        exec_remoteRequest_stale hi hk hr hd hh⟩⟩
  case source =>
    intro q hq
    exact ⟨exec_staleNak_nakked hq, fun hd code vals hg r => exec_remoteCompletion_given hq r hd hg,
      fun hd r => ⟨exec_remoteCompletion_old hq hd, exec_remoteCompletion_replied hq hd⟩,
      fun hg hk => ⟨fun e r => exec_podTranslationFetch_cached hq hg hk r, exec_podTranslationFetch_answered hq hg hk⟩⟩

end Sys2Proof
end

section
/-! The immediates: MOVI, FMOVI and MOVHI (R303). -/

namespace Sys2Proof.Machine

section
variable {w : IWord} {x : At} {act : Mask} {s : State}

/-- An immediate that issues pushes its value in every active lane. -/
theorem immWord_next {val : IWord → Nat} (h : Issues x act w.pn w.pred w.d (immWords w.ty.toNat) [] s) :
    ∃ u, immWord val w s = .next (finish x u) ∧
      Produced x act w.d (immWords w.ty.toNat) (w.ty.toNat == 0) (fun _ => val w) s u :=
  ⟨_, plain_next h (by rw [immWaits, h.dest, Verdict.waitIf_false]), produce_spec h.course h.slot⟩

/-- MOVHI that issues pushes q0 from before the word below its immediate. -/
theorem movhiWord_next (h : Issues x act w.pn w.pred w.d 2 [movhiRef] s) :
    ∃ u, movhiWord w s = .next (finish x u) ∧
      Produced x act w.d 2 false (fun l => (x.sd.queueAt l 0).val.toNat + 2 ^ 32 * w.imm.toNat) (noteLatent x act [movhiRef] s) u := by
  obtain ⟨co, hco⟩ := noteLatent_present (act := act) (refs := [movhiRef]) h.course
  exact ⟨_, first_next h (by rw [h.dest, Verdict.waitIf_false, Verdict.go_and, h.go]) rfl, produce_spec hco h.slot⟩

end

end Sys2Proof.Machine

namespace Sys2Proof
open Sys2Proof.Machine

/-- Settles O2: MOVI and FMOVI are immediates of their own values. -/
theorem immediateWords : Obligations.ImmediateWords :=
  fun _ _ _ _ => ⟨fun h => ⟨immWord_next h, immWord_next h⟩, movhiWord_next⟩

end Sys2Proof
end

section
/-! The integer instructions element by element (R294 to R296): what a lane of a word that works element by element holds,
and the values of its elements as bit-vector arithmetic and at the corners of the division. -/

namespace Sys2Proof.Machine

/-! ### Elements of a lane value (R74) -/

theorem bitsOf_lt (x lo len : Nat) : bitsOf x lo len < 2 ^ len := Nat.mod_lt _ (Nat.two_pow_pos len)

@[simp] theorem length_elemsOf (w n x : Nat) : (elemsOf w n x).length = n := by simp [elemsOf]

@[simp] theorem getElem_elemsOf {w n x k : Nat} (h : k < (elemsOf w n x).length) : (elemsOf w n x)[k] = bitsOf x (w * k) w := by
  simp [elemsOf]

/-- An element of a joined value is the element it was joined from. -/
theorem bitsOf_joinElems {w k : Nat} {l : List Nat} (h : k < l.length) : bitsOf (joinElems w l) (w * k) w = l[k] % 2 ^ w := by
  induction l generalizing k with
  | nil => exact absurd h (Nat.not_lt_zero k)
  | cons e t ih =>
    have hw : 0 < 2 ^ w := Nat.two_pow_pos w
    cases k with
    | zero => simp [bitsOf, joinElems]
    | succ k =>
      rw [List.getElem_cons_succ, ← ih (Nat.lt_of_succ_lt_succ h), bitsOf, bitsOf, joinElems, Nat.mul_succ, Nat.add_comm (w * k), pow_add,
        ← Nat.div_div_eq_div_mul, Nat.add_mul_div_left _ _ hw, Nat.div_eq_of_lt (Nat.mod_lt _ hw), Nat.zero_add]

theorem elemWidth_pos (ty : Nat) : 0 < elemWidth ty := by
  unfold elemWidth
  split
  · decide
  · split
    · decide
    · split
      · decide
      · decide

/-! ### One lane of a word that is computed lane by lane -/

/-- The lanes are computed one after another, each from its own inputs and some SEED. -/
theorem find_runLanes {g : Word → LaneIn → LaneRes} {lane : Nat → LaneIn} {ls : List Nat} {l : Nat} (h : l ∈ ls) (seed : Word) :
    ∃ sd, Tab.find (runLanes g seed (ls.map fun i => (i, lane i))) l = some (g sd (lane l)) := by
  induction ls generalizing seed with
  | nil => exact absurd h List.not_mem_nil
  | cons i t ih =>
    rw [List.map_cons, runLanes, Tab.find]
    by_cases hi : i = l
    · exact ⟨seed, by rw [if_pos hi, hi]⟩
    · rw [if_neg hi]
      exact ih (List.mem_of_ne_of_mem (Ne.symm hi) h) _

theorem eachLane_val {g : Word → LaneIn → LaneRes} {seed : Word} {x : WordIn} {l : Nat} (hl : l < 32) (ha : x.act.getLsbD l = true) :
    ∃ sd, (eachLane g seed x).val l = (g sd (vget x.lane noIn l)).val := by
  obtain ⟨sd, h⟩ := find_runLanes (g := g) (lane := vget x.lane noIn) (mem_lanesOf.2 ⟨hl, ha⟩) seed
  exact ⟨sd, by rw [WordRes.val, eachLane, collectRes, vget_vof _ _ _ _ hl, WordIn.actives, Tab.getD_of_find _ h]⟩

/-! ### The instructions that work element by element (R294) -/

/-- The integer and logic instructions that compute every element from the elements in its place. -/
def perElement : AOp → Bool
  | .add | .sub | .mul | .mulhi | .mad | .div | .rem | .min | .max | .abs | .neg | .and | .or | .xor | .andn | .not
  | .shl | .shr | .sar | .rotl | .clz | .popc | .brev | .sel | .mov => true
  | _ => false

/-- Element k of source i of a word in a lane. -/
def srcElem (op : AOp) (w : FWord) (x : At) (act : Mask) (s : State) (l k i : Nat) : Nat :=
  bitsOf (valueOf op w x act s i l) (elemWidth w.ty * k) (elemWidth w.ty)

section
variable {op : AOp} {w : FWord} {x : At} {act : Mask} {s : State} {l k : Nat}

theorem aluWord_perElement (h : perElement op = true) (seed : Word) (i : WordIn) :
    aluWord op w seed i = eachLane (intLane op w) seed i := by
  cases op <;> simp only [perElement, Bool.false_eq_true] at h <;> rfl

theorem intLane_perElement (h : perElement op = true) (seed : Word) (i : LaneIn) : (intLane op w seed i).val =
    joinElems (elemWidth w.ty) (List.zipWith
      (fun x (yz : Nat × Nat) => fitInt (tySgn w.ty) w.sat (elemWidth w.ty) (intExact op (tySgn w.ty) (elemWidth w.ty) x yz.1 yz.2))
      (elemsOf (elemWidth w.ty) (tyElems w.ty) i.a)
      ((elemsOf (elemWidth w.ty) (tyElems w.ty) i.b).zip (elemsOf (elemWidth w.ty) (tyElems w.ty) i.c))) := by
  cases op <;> simp only [perElement, Bool.false_eq_true] at h <;> rfl

theorem fitInt_lt (sg sat : Bool) (n : Nat) (v : Int) : fitInt sg sat n v < 2 ^ n := by
  have hp : (0 : Int) < 2 ^ n := by positivity
  have hlt := Int.emod_lt_of_pos (if sat then clampInt sg n v else v) hp
  rw [fitInt, wrap, Int.toNat_lt (Int.emod_nonneg _ hp.ne')]
  exact_mod_cast hlt

/-- Every element of the result is the fitted exact integer of the elements in its place. -/
theorem bitsOf_arithResult (h : perElement op = true) (hl : l < 32) (hk : k < tyElems w.ty) (ha : act.getLsbD l = true) :
    bitsOf ((arithResult op w x act s).val l) (elemWidth w.ty * k) (elemWidth w.ty) =
      fitInt (tySgn w.ty) w.sat (elemWidth w.ty) (intExact op (tySgn w.ty) (elemWidth w.ty)
        (srcElem op w x act s l k 0) (srcElem op w x act s l k 1) (srcElem op w x act s l k 2)) := by
  obtain ⟨sd, hv⟩ := eachLane_val (g := intLane op w) (seed := x.co.seed)
    (x := { act := act, lane := vof 32 (laneInOf op w x act s), desc := formatOf op w x act s }) hl ha
  rw [arithResult, aluWord_perElement h, hv, vget_vof _ _ _ _ hl, intLane_perElement h, bitsOf_joinElems (by simpa using hk)]
  simp only [List.getElem_zipWith, List.getElem_zip, getElem_elemsOf]
  exact Nat.mod_eq_of_lt (fitInt_lt ..)

end

/-! ### Elements as bit vectors (R295) -/

theorem wrap_eq_toNat_ofInt (n : Nat) (v : Int) : wrap n v = (BitVec.ofInt n v).toNat := by
  rw [BitVec.toNat_ofInt, wrap, Nat.cast_pow, Nat.cast_ofNat]

section
variable {n : Nat} (sg : Bool) (a b c : BitVec n)

theorem sgn_toNat : sgn n a.toNat = a.toInt := by
  rw [sgn, Nat.mod_eq_of_lt a.isLt, BitVec.toInt_eq_toNat_cond, Nat.cast_pow, Nat.cast_ofNat]

/-- The integer of an element, read with or without a sign. -/
theorem elemInt_toNat : elemInt sg n a.toNat = if sg then a.toInt else a.toNat := by
  rw [elemInt, sgn_toNat, Nat.mod_eq_of_lt a.isLt]

/-- With or without a sign, the integer of an element has the element's bits. -/
@[simp] theorem ofInt_elemInt : BitVec.ofInt n (elemInt sg n a.toNat) = a := by
  rw [elemInt_toNat]
  cases sg
  · exact (BitVec.ofInt_natCast ..).trans (by simp)
  · exact BitVec.ofInt_toInt

/-- The order of the integers of two elements is that of the elements as bit vectors. -/
theorem elemInt_le_elemInt :
    elemInt sg n a.toNat ≤ elemInt sg n b.toNat ↔ (if sg then a.sle b else a.ule b) = true := by
  rw [elemInt_toNat, elemInt_toNat]
  cases sg
  · simp [BitVec.ule_eq_decide]
  · simp [BitVec.sle_eq_decide]

/-- A bit-vector operation that is given by its number. -/
theorem ofInt_toNat : BitVec.ofInt n (a.toNat : Int) = a := by simp

theorem ofInt_intExact_add : BitVec.ofInt n (intExact .add sg n a.toNat b.toNat c.toNat) = a + b := by
  simp [intExact, BitVec.ofInt_add]

theorem ofInt_intExact_sub : BitVec.ofInt n (intExact .sub sg n a.toNat b.toNat c.toNat) = a - b := by
  simp [intExact, Int.sub_eq_add_neg, BitVec.ofInt_add, BitVec.ofInt_neg, BitVec.sub_eq_add_neg]

theorem ofInt_intExact_mul : BitVec.ofInt n (intExact .mul sg n a.toNat b.toNat c.toNat) = a * b := by
  simp [intExact, BitVec.ofInt_mul]

theorem ofInt_intExact_mad : BitVec.ofInt n (intExact .mad sg n a.toNat b.toNat c.toNat) = a * b + c := by
  simp [intExact, BitVec.ofInt_add, BitVec.ofInt_mul]

theorem ofInt_intExact_neg : BitVec.ofInt n (intExact .neg sg n a.toNat b.toNat c.toNat) = -a := by
  simp [intExact, BitVec.ofInt_neg]

theorem ofInt_intExact_and : BitVec.ofInt n (intExact .and sg n a.toNat b.toNat c.toNat) = a &&& b := by
  rw [intExact, ← BitVec.toNat_and, ofInt_toNat]

theorem ofInt_intExact_or : BitVec.ofInt n (intExact .or sg n a.toNat b.toNat c.toNat) = a ||| b := by
  rw [intExact, ← BitVec.toNat_or, ofInt_toNat]

theorem ofInt_intExact_xor : BitVec.ofInt n (intExact .xor sg n a.toNat b.toNat c.toNat) = a ^^^ b := by
  rw [intExact, ← BitVec.toNat_xor, ofInt_toNat]

theorem ofInt_intExact_andn : BitVec.ofInt n (intExact .andn sg n a.toNat b.toNat c.toNat) = a &&& ~~~b := by
  rw [intExact, ← BitVec.toNat_not, ← BitVec.toNat_and, ofInt_toNat]

theorem ofInt_intExact_not : BitVec.ofInt n (intExact .not sg n a.toNat b.toNat c.toNat) = ~~~a := by
  rw [intExact, ← BitVec.toNat_not, ofInt_toNat]

theorem ofInt_intExact_shl : BitVec.ofInt n (intExact .shl sg n a.toNat b.toNat c.toNat) = a <<< (b.toNat % n) := by
  have hp : BitVec.ofInt n (2 ^ (b.toNat % n)) = BitVec.twoPow n (b.toNat % n) := by
    apply BitVec.eq_of_toNat_eq
    rw [BitVec.toNat_twoPow, ← Nat.cast_ofNat, ← Nat.cast_pow, BitVec.ofInt_natCast, BitVec.toNat_ofNat]
  simp only [intExact, BitVec.ofInt_mul, ofInt_elemInt, hp, BitVec.shiftLeft_eq_mul_twoPow]

theorem ofInt_intExact_shr : BitVec.ofInt n (intExact .shr sg n a.toNat b.toNat c.toNat) = a >>> (b.toNat % n) := by
  rw [intExact, ← Nat.shiftRight_eq_div_pow, ← BitVec.toNat_ushiftRight, ofInt_toNat]

theorem ofInt_intExact_sar :
    BitVec.ofInt n (intExact .sar sg n a.toNat b.toNat c.toNat) = a.sshiftRight (b.toNat % n) := by
  rw [intExact, sgn_toNat, BitVec.sshiftRight, Int.shiftRight_eq_div_pow, Nat.cast_pow, Nat.cast_ofNat]

/-- The two parts of a rotation have no bit in common. -/
theorem shiftLeft_and_ushiftRight_eq_zero {r : Nat} (hr : r < n) : a <<< r &&& a >>> (n - r) = 0#n := by
  apply BitVec.eq_of_getLsbD_eq
  intro i hi
  rw [BitVec.getLsbD_and, BitVec.getLsbD_shiftLeft, BitVec.getLsbD_ushiftRight, BitVec.getLsbD_zero]
  by_cases h : i < r
  · simp [h]
  · rw [BitVec.getLsbD_of_ge a (n - r + i) (by omega), Bool.and_false]

theorem ofInt_intExact_rotl (hn : 0 < n) :
    BitVec.ofInt n (intExact .rotl sg n a.toNat b.toNat c.toNat) = a.rotateLeft (b.toNat % n) := by
  have hr : b.toNat % n < n := Nat.mod_lt _ hn
  rw [BitVec.rotateLeft_def, Nat.mod_eq_of_lt hr, ← BitVec.add_eq_or_of_and_eq_zero _ _ (shiftLeft_and_ushiftRight_eq_zero a hr)]
  apply BitVec.eq_of_toNat_eq
  rw [intExact, BitVec.ofInt_natCast, BitVec.toNat_ofNat, BitVec.toNat_add, BitVec.toNat_shiftLeft, BitVec.toNat_ushiftRight,
    Nat.shiftLeft_eq, Nat.shiftRight_eq_div_pow, Nat.mod_add_mod]

theorem ofInt_intExact_min : BitVec.ofInt n (intExact .min sg n a.toNat b.toNat c.toNat) =
    if (if sg then a.sle b else a.ule b) then a else b := by
  simp only [intExact, elemInt_le_elemInt, apply_ite (BitVec.ofInt n), ofInt_elemInt]

theorem ofInt_intExact_max : BitVec.ofInt n (intExact .max sg n a.toNat b.toNat c.toNat) =
    if (if sg then a.sle b else a.ule b) then b else a := by
  simp only [intExact, elemInt_le_elemInt, apply_ite (BitVec.ofInt n), ofInt_elemInt]

theorem ofInt_intExact_mov : BitVec.ofInt n (intExact .mov sg n a.toNat b.toNat c.toNat) = a := ofInt_toNat a

theorem ofInt_intExact_sel : BitVec.ofInt n (intExact .sel sg n a.toNat b.toNat c.toNat) = if c = 0 then b else a := by
  have hc : c.toNat = 0 ↔ c = 0 := by rw [← BitVec.toNat_inj]; rfl
  simp only [intExact, hc, apply_ite (BitVec.ofInt n), ofInt_toNat]

end

/-! ### The corners of the division (R296) -/

section
variable {n : Nat} {v : Int} {sg sat : Bool}

/-- A value in the range of the element is left alone by the clamp. -/
theorem fitInt_of_mem (hlo : (if sg then -(2 ^ (n - 1)) else 0) ≤ v) (hhi : v ≤ if sg then 2 ^ (n - 1) - 1 else 2 ^ n - 1) :
    fitInt sg sat n v = wrap n v := by
  rw [fitInt, clampInt, min_eq_right hhi, max_eq_right hlo, ite_self]

theorem wrap_of_nonneg (h0 : 0 ≤ v) (h : v < 2 ^ n) : wrap n v = v.toNat := by rw [wrap, Int.emod_eq_of_lt h0 h]

theorem wrap_of_neg (h0 : v < 0) (h : -(2 ^ n) ≤ v) : wrap n v = (v + 2 ^ n).toNat := by
  rw [wrap, ← Int.add_emod_right, Int.emod_eq_of_lt (by omega) (by omega)]

end

section
variable {n a : Nat} (hn : 0 < n)
include hn

theorem two_pow_eq_double : 2 ^ n = 2 * 2 ^ (n - 1) := by
  rw [← Nat.two_pow_pred_add_two_pow_pred hn, Nat.two_mul]

theorem sgn_of_lt (h : a < 2 ^ (n - 1)) : sgn n a = a := by
  have hd := two_pow_eq_double hn
  rw [sgn, Nat.mod_eq_of_lt (by omega), if_pos (by omega)]

theorem sgn_of_ge (h : 2 ^ (n - 1) ≤ a) (ha : a < 2 ^ n) : sgn n a = a - 2 ^ n := by
  have hd := two_pow_eq_double hn
  rw [sgn, Nat.mod_eq_of_lt ha, if_neg (by omega)]

end

/-- A power of two as a natural number and as an integer. -/
theorem natCast_two_pow (n : Nat) : ((2 ^ n : Nat) : Int) = 2 ^ n := by norm_num

theorem elemInt_zero (sg : Bool) (n : Nat) : elemInt sg n 0 = 0 := by
  rw [elemInt, sgn]
  simp

section
variable {n : Nat} {sat : Bool} (hn : 0 < n)

theorem fitInt_zero (sg : Bool) : fitInt sg sat n 0 = 0 := by
  have hp : (0 : Int) < 2 ^ (n - 1) := by positivity
  have hq : (0 : Int) < 2 ^ n := by positivity
  rw [fitInt_of_mem (by split <;> omega) (by split <;> omega), wrap_of_nonneg le_rfl hq]
  rfl

/-- The greatest element of an unsigned type is all ones. -/
theorem fitInt_unsignedMax : fitInt false sat n (2 ^ n - 1) = 2 ^ n - 1 := by
  have hp : (0 : Int) < 2 ^ n := by positivity
  rw [fitInt_of_mem (by simp; omega) (by simp), wrap_of_nonneg (by omega) (by omega)]
  have hc := natCast_two_pow n
  omega

include hn

/-- The greatest element of a signed type. -/
theorem fitInt_signedMax : fitInt true sat n (2 ^ (n - 1) - 1) = 2 ^ (n - 1) - 1 := by
  have hp : (0 : Int) < 2 ^ (n - 1) := by positivity
  have hd := two_pow_eq_double hn
  have hm := natCast_two_pow (n - 1)
  have hc := natCast_two_pow n
  rw [fitInt_of_mem (by rw [if_pos rfl]; omega) (by rw [if_pos rfl]), wrap_of_nonneg (by omega) (by omega)]
  omega

/-- The least element of a signed type. -/
theorem fitInt_signedMin : fitInt true sat n (-(2 ^ (n - 1))) = 2 ^ (n - 1) := by
  have hp : (0 : Int) < 2 ^ (n - 1) := by positivity
  have hd := two_pow_eq_double hn
  have hm := natCast_two_pow (n - 1)
  have hc := natCast_two_pow n
  rw [fitInt_of_mem (by rw [if_pos rfl]) (by rw [if_pos rfl]; omega), wrap_of_neg (by omega) (by omega)]
  omega

/-- One above the greatest element of a signed type wraps to the least one, and is clamped to the greatest. -/
theorem fitInt_aboveSignedMax : fitInt true sat n (2 ^ (n - 1)) = if sat then 2 ^ (n - 1) - 1 else 2 ^ (n - 1) := by
  have hp : (0 : Int) < 2 ^ (n - 1) := by positivity
  have hd := two_pow_eq_double hn
  have hm := natCast_two_pow (n - 1)
  have hc := natCast_two_pow n
  cases sat
  · rw [fitInt, if_neg Bool.false_ne_true, wrap_of_nonneg hp.le (by omega), if_neg Bool.false_ne_true]
    omega
  · have hclamp : clampInt true n (2 ^ (n - 1)) = 2 ^ (n - 1) - 1 := by simp only [clampInt, if_true]; omega
    rw [fitInt, if_pos rfl, hclamp, wrap_of_nonneg (by omega) (by omega), if_pos rfl]
    omega

end

section
variable {n a c : Nat} {sat : Bool}

theorem fitInt_div_zero_unsigned : fitInt false sat n (intExact .div false n a 0 c) = 2 ^ n - 1 := by
  have hv : intExact .div false n a 0 c = 2 ^ n - 1 := by simp [intExact, divInt, elemInt_zero]
  rw [hv, fitInt_unsignedMax]

theorem fitInt_div_zero_nonneg (hn : 0 < n) (ha : a < 2 ^ (n - 1)) :
    fitInt true sat n (intExact .div true n a 0 c) = 2 ^ (n - 1) - 1 := by
  have h0 : 0 ≤ elemInt true n a := by rw [elemInt, if_pos rfl, sgn_of_lt hn ha]; omega
  have hv : intExact .div true n a 0 c = 2 ^ (n - 1) - 1 := by simp [intExact, divInt, elemInt_zero, h0]
  rw [hv, fitInt_signedMax hn]

theorem fitInt_div_zero_neg (hn : 0 < n) (ha : 2 ^ (n - 1) ≤ a) (hlt : a < 2 ^ n) :
    fitInt true sat n (intExact .div true n a 0 c) = 2 ^ (n - 1) := by
  have h0 : ¬ 0 ≤ elemInt true n a := by rw [elemInt, if_pos rfl, sgn_of_ge hn ha hlt]; have hc := natCast_two_pow n; omega
  have hv : intExact .div true n a 0 c = -(2 ^ (n - 1)) := by simp [intExact, divInt, elemInt_zero, h0]
  rw [hv, fitInt_signedMin hn]

theorem fitInt_rem_zero (sg : Bool) (ha : a < 2 ^ n) : fitInt sg false n (intExact .rem sg n a 0 c) = a := by
  have hv : intExact .rem sg n a 0 c = elemInt sg n a := by simp [intExact, elemInt_zero]
  have hb := congrArg BitVec.toNat (ofInt_elemInt sg (BitVec.ofNat n a))
  rw [BitVec.toNat_ofNat, Nat.mod_eq_of_lt ha] at hb
  rw [hv, fitInt, if_neg Bool.false_ne_true, wrap_eq_toNat_ofInt, hb]

section
variable (hn : 0 < n)
include hn

theorem elemInt_signedMin : elemInt true n (2 ^ (n - 1)) = -(2 ^ (n - 1)) := by
  have hd := two_pow_eq_double hn
  have hm := natCast_two_pow (n - 1)
  have hc := natCast_two_pow n
  have hp := Nat.two_pow_pos (n - 1)
  rw [elemInt, if_pos rfl, sgn_of_ge hn le_rfl (by omega)]
  omega

theorem elemInt_allOnes : elemInt true n (2 ^ n - 1) = -1 := by
  have hd := two_pow_eq_double hn
  have hm := natCast_two_pow (n - 1)
  have hc := natCast_two_pow n
  have hp := Nat.two_pow_pos (n - 1)
  rw [elemInt, if_pos rfl, sgn_of_ge hn (by omega) (by omega)]
  omega

theorem fitInt_div_signedMin_allOnes :
    fitInt true sat n (intExact .div true n (2 ^ (n - 1)) (2 ^ n - 1) c) = if sat then 2 ^ (n - 1) - 1 else 2 ^ (n - 1) := by
  have hv : intExact .div true n (2 ^ (n - 1)) (2 ^ n - 1) c = 2 ^ (n - 1) := by
    simp [intExact, divInt, elemInt_signedMin hn, elemInt_allOnes hn]
  rw [hv, fitInt_aboveSignedMax hn]

theorem fitInt_rem_signedMin_allOnes : fitInt true sat n (intExact .rem true n (2 ^ (n - 1)) (2 ^ n - 1) c) = 0 := by
  have hv : intExact .rem true n (2 ^ (n - 1)) (2 ^ n - 1) c = 0 := by
    simp [intExact, elemInt_signedMin hn, elemInt_allOnes hn]
  rw [hv, fitInt_zero]

end

end

end Sys2Proof.Machine

namespace Sys2Proof
open Sys2Proof.Machine

/-- Settles O39: the fitted exact integer of an element is the bit-vector operation on the elements of its sources. -/
theorem integerValues : Obligations.IntegerValues := by
  intro op w x act s l k _ hsat hl hk ha n src a b c is
  have hsrc : ∀ i, srcElem op w x act s l k i = (src i).toNat := fun i =>
    ((BitVec.toNat_ofNat ..).trans (Nat.mod_eq_of_lt (bitsOf_lt ..))).symm
  have hval : ∀ {r : BitVec n}, perElement op = true →
      BitVec.ofInt n (intExact op (tySgn w.ty) n a.toNat b.toNat c.toNat) = r → is r := fun hop hr => by
    refine (bitsOf_arithResult hop hl hk ha).trans ?_
    rw [hsat, hsrc, hsrc, hsrc, fitInt, if_neg Bool.false_ne_true, wrap_eq_toNat_ofInt]
    exact congrArg BitVec.toNat hr
  refine ⟨?_, ?_, ?_, ?_, ?_, ?_, ?_, ?_, ?_, ?_, ?_, ?_, ?_, ?_, ?_, ?_, ?_, ?_⟩
  · rintro rfl; exact hval rfl (ofInt_intExact_add ..)
  · rintro rfl; exact hval rfl (ofInt_intExact_sub ..)
  · rintro rfl; exact hval rfl (ofInt_intExact_mul ..)
  · rintro rfl; exact hval rfl (ofInt_intExact_mad ..)
  · rintro rfl; exact hval rfl (ofInt_intExact_neg ..)
  · rintro rfl; exact hval rfl (ofInt_intExact_and ..)
  · rintro rfl; exact hval rfl (ofInt_intExact_or ..)
  · rintro rfl; exact hval rfl (ofInt_intExact_xor ..)
  · rintro rfl; exact hval rfl (ofInt_intExact_andn ..)
  · rintro rfl; exact hval rfl (ofInt_intExact_not ..)
  · rintro rfl; exact hval rfl (ofInt_intExact_shl ..)
  · rintro rfl; exact hval rfl (ofInt_intExact_shr ..)
  · rintro rfl; exact hval rfl (ofInt_intExact_sar ..)
  · rintro rfl; exact hval rfl (ofInt_intExact_rotl _ _ _ _ (elemWidth_pos _))
  · rintro rfl; exact hval rfl (ofInt_intExact_min ..)
  · rintro rfl; exact hval rfl (ofInt_intExact_max ..)
  · rintro rfl; exact hval rfl (ofInt_intExact_mov ..)
  · rintro rfl; exact hval rfl (ofInt_intExact_sel ..)

/-- Settles O40, corner by corner. -/
theorem divisionCorners : Obligations.DivisionCorners := by
  intro op w x act s l k _ hl hk ha n a b r
  have hn : 0 < n := elemWidth_pos _
  have hlt : a < 2 ^ n := bitsOf_lt ..
  have hr : perElement op = true → r = fitInt (tySgn w.ty) w.sat n (intExact op (tySgn w.ty) n a b (srcElem op w x act s l k 2)) :=
    fun hop => bitsOf_arithResult hop hl hk ha
  refine ⟨fun hb => ⟨?unsigned, ?nonneg, ?neg, ?rem⟩, fun hsg hmin hones => ⟨?wrapped, ?clamped, ?remOnes⟩⟩
  case unsigned => rintro rfl hsg; rw [hr rfl, hb, hsg, fitInt_div_zero_unsigned]
  case nonneg => rintro rfl hsg h; rw [hr rfl, hb, hsg, fitInt_div_zero_nonneg hn h]
  case neg => rintro rfl hsg h; rw [hr rfl, hb, hsg, fitInt_div_zero_neg hn h hlt]
  case rem => rintro rfl hsat; rw [hr rfl, hb, hsat, fitInt_rem_zero _ hlt]
  case wrapped => rintro rfl hsat; rw [hr rfl, hmin, hones, hsg, hsat, fitInt_div_signedMin_allOnes hn, if_neg Bool.false_ne_true]
  case clamped => rintro rfl hsat; rw [hr rfl, hmin, hones, hsg, hsat, fitInt_div_signedMin_allOnes hn, if_pos rfl]
  case remOnes => rintro rfl; rw [hr rfl, hmin, hones, hsg, fitInt_rem_signedMin_allOnes hn]

end Sys2Proof
end

section
/-! The sign and the order of floating-point elements (R308): the comparison of operand values is that of a linear order, and
FMIN, FMAX and FCLAMP choose by it. -/

namespace Sys2Proof.Machine

/-! ### The order of operand values -/

/-- A value's place in the order of the numbers with both infinities; that of a NaN has no meaning. -/
def XV.rank : XV → WithBot (WithTop ℚ)
  | .inf true => ⊥
  | .inf false => ((⊤ : WithTop ℚ) : WithBot (WithTop ℚ))
  | x => (((x.toQ.num / x.toQ.den : ℚ) : WithTop ℚ) : WithBot (WithTop ℚ))

/-- The denominator of a value's number is not 0. -/
def XV.Proper (x : XV) : Prop := 0 < x.toQ.den

theorem Q.lt_iff {p q : Q} (hp : 0 < p.den) (hq : 0 < q.den) : p.lt q = true ↔ (p.num / p.den : ℚ) < q.num / q.den := by
  rw [div_lt_div_iff₀ (by exact_mod_cast hp) (by exact_mod_cast hq), Q.lt, decide_eq_true_iff]
  exact_mod_cast Iff.rfl

theorem XV.rank_number {a : XV} (h : ∀ n, a ≠ .inf n) :
    a.rank = (((a.toQ.num / a.toQ.den : ℚ) : WithTop ℚ) : WithBot (WithTop ℚ)) := by
  cases a with
  | inf n => exact absurd rfl (h n)
  | nan _ => rfl
  | zero _ => rfl
  | fin _ => rfl

theorem XV.rank_lt_top {a : XV} (h : ∀ n, a ≠ .inf n) : a.rank < (XV.inf false).rank := by
  rw [XV.rank_number h]
  exact WithBot.coe_lt_coe.2 (WithTop.coe_lt_top _)

theorem XV.bot_lt_rank {a : XV} (h : ∀ n, a ≠ .inf n) : (XV.inf true).rank < a.rank := by
  rw [XV.rank_number h]
  exact WithBot.bot_lt_coe _

/-- The comparison of two values is that of their places. -/
theorem XV.cmp_eq {a b : XV} (ha : a.Proper) (hb : b.Proper) :
    a.cmp b = if a.rank < b.rank then -1 else if b.rank < a.rank then 1 else 0 := by
  unfold XV.cmp
  split
  next x y =>
    cases x <;> cases y <;> simp [XV.rank]
  next x hy =>
    have hy' : ∀ n, b ≠ .inf n := fun n h => hy n h
    cases x
    · rw [if_neg (XV.rank_lt_top hy').not_gt, if_pos (XV.rank_lt_top hy')]; rfl
    · rw [if_pos (XV.bot_lt_rank hy')]; rfl
  next y hx =>
    have hx' : ∀ n, a ≠ .inf n := fun n h => hx n h
    cases y
    · rw [if_pos (XV.rank_lt_top hx')]; rfl
    · rw [if_neg (XV.bot_lt_rank hx').not_gt, if_pos (XV.bot_lt_rank hx')]; rfl
  next hx hy _ =>
    simp only [Q.lt_iff ha hb, Q.lt_iff hb ha, XV.rank_number hx, XV.rank_number hy, WithBot.coe_lt_coe, WithTop.coe_lt_coe]

section
variable {a b : XV} (ha : a.Proper) (hb : b.Proper)
include ha hb

theorem XV.cmp_nonpos_iff : a.cmp b ≤ 0 ↔ a.rank ≤ b.rank := by
  rw [XV.cmp_eq ha hb]
  split
  next hlt => exact iff_of_true (by decide) hlt.le
  next =>
    split
    next hgt => exact iff_of_false (by decide) hgt.not_ge
    next hgt => exact iff_of_true le_rfl (not_lt.1 hgt)

theorem XV.cmp_nonneg_iff : 0 ≤ a.cmp b ↔ b.rank ≤ a.rank := by
  rw [XV.cmp_eq ha hb]
  split
  next hlt => exact iff_of_false (by decide) hlt.not_ge
  next hlt => exact iff_of_true (by split <;> decide) (not_lt.1 hlt)

theorem XV.cmp_neg_iff : a.cmp b < 0 ↔ a.rank < b.rank := by
  rw [← not_le, XV.cmp_nonneg_iff ha hb, not_le]

theorem XV.cmp_pos_iff : 0 < a.cmp b ↔ b.rank < a.rank := by
  rw [← not_le, XV.cmp_nonpos_iff ha hb, not_le]

end

/-! ### Decoded values -/

theorem Q.scaled_den_pos (n e : Int) : 0 < (Q.scaled n e).den := by
  cases e with
  | ofNat k => exact Nat.one_pos
  | negSucc k => exact Nat.two_pow_pos _

theorem XV.proper_ofQ (zneg : Bool) {q : Q} (h : 0 < q.den) : (XV.ofQ zneg q).Proper := by
  unfold XV.ofQ
  split
  · exact Nat.one_pos
  · exact h

theorem XV.proper_ite {c : Prop} [Decidable c] {a b : XV} (ha : a.Proper) (hb : b.Proper) : (if c then a else b).Proper := by
  split
  · exact ha
  · exact hb

/-- The value of a code is an exact number with a denominator. -/
theorem decodeF_proper (f : Fmt) (x : Nat) : (decodeF f x).Proper := by
  have hscaled := fun s n e => XV.proper_ofQ s (Q.scaled_den_pos n e)
  unfold decodeF
  split
  · exact hscaled ..
  · exact XV.proper_ofQ _ Nat.one_pos
  all_goals exact XV.proper_ite (hscaled ..) (XV.proper_ite (XV.proper_ite Nat.one_pos Nat.one_pos)
    (XV.proper_ite Nat.one_pos (XV.proper_ite (hscaled ..) (Q.scaled_den_pos ..))))

/-- The formats of the floating-point elements (R263). -/
def elemFmts : List Fmt := [.f16, .bf16, .f32, .f64]

/-- The codes of the two zeros. -/
theorem decodeF_zeros : ∀ f ∈ elemFmts, decodeF f 0 = .zero false ∧ decodeF f (2 ^ (f.width - 1)) = .zero true := by
  decide

/-! ### FMIN and FMAX of two codes -/

section
variable {f : Fmt} {big : Bool} {x y : Nat}

theorem minMaxCode_nan_left (hx : (decodeF f x).isNan = true) (hy : (decodeF f y).isNan = false) : minMaxCode f big x y = y := by
  simp [minMaxCode, hx, hy]

theorem minMaxCode_nan_right (hx : (decodeF f x).isNan = false) (hy : (decodeF f y).isNan = true) : minMaxCode f big x y = x := by
  simp [minMaxCode, hx, hy]

theorem minMaxCode_nans (hx : (decodeF f x).isNan = true) (hy : (decodeF f y).isNan = true) : minMaxCode f big x y = f.nanCode := by
  simp [minMaxCode, hx, hy]

/-- Of zeros of both signs, the negative one is the smaller. -/
theorem minMaxCode_zeros (hx : decodeF f x = .zero true) (hy : decodeF f y = .zero false) :
    minMaxCode f big x y = (if big then y else x) ∧ minMaxCode f big y x = (if big then y else x) := by
  cases big <;> simp [minMaxCode, hx, hy, XV.isNan, XV.isNeg, XV.cmp, XV.toQ, Q.lt, cmpInt]

/-- Of two numbers the result is one that lies on its side of the other. -/
theorem minMaxCode_numbers (hx : (decodeF f x).isNan = false) (hy : (decodeF f y).isNan = false) :
    (minMaxCode f big x y = x ∧ if big then (decodeF f y).rank ≤ (decodeF f x).rank else (decodeF f x).rank ≤ (decodeF f y).rank) ∨
    (minMaxCode f big x y = y ∧ if big then (decodeF f x).rank ≤ (decodeF f y).rank else (decodeF f y).rank ≤ (decodeF f x).rank) := by
  have hle := XV.cmp_nonpos_iff (decodeF_proper f x) (decodeF_proper f y)
  have hge := XV.cmp_nonneg_iff (decodeF_proper f x) (decodeF_proper f y)
  simp only [minMaxCode, hx, hy, Bool.false_eq_true, if_false, ← hle, ← hge]
  generalize cmpInt _ _ = tie
  generalize (decodeF f x).cmp (decodeF f y) = c at hle hge ⊢
  have hside : ((if c = 0 then tie else c) ≤ 0 → c ≤ 0) ∧ (0 ≤ (if c = 0 then tie else c) → 0 ≤ c) := by split <;> omega
  generalize (if c = 0 then tie else c) = d at hside ⊢
  cases big with
  | false =>
    simp only [Bool.false_eq_true, if_false]
    split
    next h => exact .inl ⟨rfl, hside.1 h⟩
    next h => exact .inr ⟨rfl, hside.2 (not_le.1 h).le⟩
  | true =>
    simp only [if_true]
    split
    next h => exact .inl ⟨rfl, hside.2 h⟩
    next h => exact .inr ⟨rfl, hside.1 (not_le.1 h).le⟩

/-- FMIN of two numbers is one of them, and neither is smaller. -/
theorem minCode_numbers (hx : (decodeF f x).isNan = false) (hy : (decodeF f y).isNan = false) :
    (minMaxCode f false x y = x ∨ minMaxCode f false x y = y) ∧
      ∀ c ∈ [x, y], (decodeF f (minMaxCode f false x y)).cmp (decodeF f c) ≤ 0 := by
  simp only [List.forall_mem_cons, List.not_mem_nil, false_imp_iff, implies_true, and_true,
    XV.cmp_nonpos_iff (decodeF_proper _ _) (decodeF_proper _ _)]
  obtain ⟨h, hle⟩ | ⟨h, hle⟩ := minMaxCode_numbers (big := false) hx hy
  · rw [h]; exact ⟨.inl rfl, le_rfl, hle⟩
  · rw [h]; exact ⟨.inr rfl, hle, le_rfl⟩

/-- FMAX of two numbers is one of them, and neither is larger. -/
theorem maxCode_numbers (hx : (decodeF f x).isNan = false) (hy : (decodeF f y).isNan = false) :
    (minMaxCode f true x y = x ∨ minMaxCode f true x y = y) ∧
      ∀ c ∈ [x, y], 0 ≤ (decodeF f (minMaxCode f true x y)).cmp (decodeF f c) := by
  simp only [List.forall_mem_cons, List.not_mem_nil, false_imp_iff, implies_true, and_true,
    XV.cmp_nonneg_iff (decodeF_proper _ _) (decodeF_proper _ _)]
  obtain ⟨h, hle⟩ | ⟨h, hle⟩ := minMaxCode_numbers (big := true) hx hy
  · rw [h]; exact ⟨.inl rfl, le_rfl, hle⟩
  · rw [h]; exact ⟨.inr rfl, hle, le_rfl⟩

/-- FMIN of two numbers of which one is smaller. -/
theorem minCode_of_lt (hx : (decodeF f x).isNan = false) (hy : (decodeF f y).isNan = false)
    (h : (decodeF f x).rank < (decodeF f y).rank) : minMaxCode f false x y = x ∧ minMaxCode f false y x = x := by
  constructor
  · obtain ⟨hm, -⟩ | ⟨-, hle⟩ := minMaxCode_numbers (big := false) hx hy
    · exact hm
    · exact absurd hle h.not_ge
  · obtain ⟨-, hle⟩ | ⟨hm, -⟩ := minMaxCode_numbers (big := false) hy hx
    · exact absurd hle h.not_ge
    · exact hm

/-- FMAX with a number is a number that is not smaller. -/
theorem maxCode_right (hy : (decodeF f y).isNan = false) :
    (decodeF f (minMaxCode f true x y)).isNan = false ∧ (decodeF f y).rank ≤ (decodeF f (minMaxCode f true x y)).rank := by
  cases hx : (decodeF f x).isNan with
  | true => rw [minMaxCode_nan_left hx hy]; exact ⟨hy, le_rfl⟩
  | false =>
    obtain ⟨h, hle⟩ | ⟨h, -⟩ := minMaxCode_numbers (big := true) hx hy
    · rw [h]; exact ⟨hx, hle⟩
    · rw [h]; exact ⟨hy, le_rfl⟩

end

/-! ### FMIN, FMAX, FCLAMP, FABS and FNEG of an element -/

section
variable (w : FWord) (f : Fmt) (seed : Word) (x y z : Nat)

@[simp] theorem fpElem_fmin : fpElem .fmin w f seed x y z = ⟨minMaxCode f false x y, false, snanFlag [decodeF f x, decodeF f y], seed⟩ := rfl

@[simp] theorem fpElem_fmax : fpElem .fmax w f seed x y z = ⟨minMaxCode f true x y, false, snanFlag [decodeF f x, decodeF f y], seed⟩ := rfl

@[simp] theorem fpElem_fclamp : fpElem .fclamp w f seed x y z =
    ⟨minMaxCode f false (minMaxCode f true x y) z, false, snanFlag [decodeF f x, decodeF f y, decodeF f z], seed⟩ := rfl

@[simp] theorem fpElem_fabs : fpElem .fabs w f seed x y z =
    ⟨if (decodeF f x).isNan then f.nanCode else x % 2 ^ (f.width - 1), false, 0#6, seed⟩ := rfl

@[simp] theorem fpElem_fneg : fpElem .fneg w f seed x y z =
    ⟨if (decodeF f x).isNan then f.nanCode else (x + 2 ^ (f.width - 1)) % 2 ^ f.width, false, 0#6, seed⟩ := rfl

theorem snanFlag_pair {a b : XV} (h : (a.isSnan || b.isSnan) = true) : snanFlag [a, b] = flInvalid := by
  rw [snanFlag, if_pos]
  rwa [List.any_cons, List.any_cons, List.any_nil, Bool.or_false]

end

end Sys2Proof.Machine

namespace Sys2Proof
open Sys2Proof.Machine

/-- Settles O41: each clause is a rule of the choice of FMIN and FMAX, of which FCLAMP is the composition, or of the sign. -/
theorem signAndOrder : Obligations.SignAndOrder := by
  intro w f seed x y z hf _ _ _ nan lo hi
  obtain ⟨hpos, hneg⟩ := decodeF_zeros f hf
  have hlt := fun {a b : Nat} => XV.cmp_neg_iff (decodeF_proper f a) (decodeF_proper f b)
  have hgt := fun {a b : Nat} => XV.cmp_pos_iff (decodeF_proper f a) (decodeF_proper f b)
  refine ⟨fun hx hy => ⟨minMaxCode_nan_left hx hy, minMaxCode_nan_left hx hy⟩,
    fun hx hy => ⟨minMaxCode_nan_right hx hy, minMaxCode_nan_right hx hy⟩,
    fun hx hy => ⟨minMaxCode_nans hx hy, minMaxCode_nans hx hy⟩, fun hx hy => ?numbers, ?negPos, ?posNeg,
    fun hs => ⟨snanFlag_pair hs, snanFlag_pair hs⟩, fun hy hz => ⟨fun hx h => ?clampNan, fun h => ?clampAbove⟩,
    fun hx => ?number, fun hx => ?nan, rfl, rfl⟩
  case numbers =>
    obtain ⟨hlo, hle⟩ := minCode_numbers hx hy
    obtain ⟨hhi, hge⟩ := maxCode_numbers hx hy
    exact ⟨hlo, hhi, fun c hc => ⟨hle c hc, hge c hc⟩⟩
  case negPos => rintro rfl rfl; exact ⟨(minMaxCode_zeros hneg hpos).1, (minMaxCode_zeros hneg hpos).1⟩
  case posNeg => rintro rfl rfl; exact ⟨(minMaxCode_zeros hneg hpos).2, (minMaxCode_zeros hneg hpos).2⟩
  case clampNan => rw [fpElem_fclamp, minMaxCode_nan_left hx hy, (minCode_of_lt hy hz (hlt.1 h)).1]
  case clampAbove =>
    obtain ⟨hnum, hle⟩ := maxCode_right (x := x) hy
    rw [fpElem_fclamp, (minCode_of_lt hz hnum ((hgt.1 h).trans_le hle)).2]
  case number => rw [fpElem_fabs, fpElem_fneg, if_neg (ne_true_of_eq_false hx), if_neg (ne_true_of_eq_false hx)]; exact ⟨rfl, rfl⟩
  case nan => rw [fpElem_fabs, fpElem_fneg, if_pos hx, if_pos hx]; exact ⟨rfl, rfl⟩

end Sys2Proof
end

section
/-! The matrix words (R333 to R336, R339, R340, R342, R358 to R367, R369).

Every word that queues an operation of its own is one word with different checks (`matWord_queued`), and every word that the
context's home answers is one word with different answers (`homeWordIf_answered`). -/

namespace Sys2Proof.Machine

/-! ### Checks of tiles and of the matrix queue -/

section
variable {x : At} {act : Mask} {s : State} {tid t : Nat} {wide : Bool}

theorem trapIf_go {b : Bool} {e : Trap} (h : b = false) : Verdict.trapIf b e = .go := by rw [h, Verdict.trapIf_false]

theorem tileRange_go (h : TileOk s tid t wide) : tileRange s tid t wide = .go :=
  trapIf_go (decide_eq_false (Nat.not_le.2 h.2))

theorem oddTile_false (h : TileOk s tid t wide) : (wide && t % 2 == 1) = false := by
  cases wide with
  | false => rfl
  | true => rw [h.1 rfl]; rfl

theorem oddPair_go (h : TileOk s tid t wide) : oddPair t wide = .go := illegalIf_go (oddTile_false h)

theorem matRoom_go (h : MatRoom x s) : matRoom x s = .go := by
  rw [matRoom, decide_eq_false (Nat.not_le.2 h.all), decide_eq_false (Nat.not_le.2 h.own), Bool.or_false, Verdict.waitIf_false]

end

/-! ### Words that queue an operation of their own (R340, R358) -/

section
variable {w : FWord} {x : At} {act : Mask} {d : BitVec 8} {words : Nat} {refs : List SrcRef} {s : State} {co : Course}

/-- An operation joins the queue, and the entries that it will fill are pushed empty. -/
theorem queueMat_queued (h : s.course x.c = some co) (hst : x.st < 4) (o : MatOp) :
    if words = 0 then queueMat x act d words o s = s.modCore (coreOf x.c) (fun k => { k with mq := k.mq ++ [o] })
    else ProducedLater x act d words s.nextId ({ s with nextId := s.nextId + 1 }.modCore (coreOf x.c)
      (fun k => { k with mq := k.mq ++ [{ o with result := some s.nextId }] })) (queueMat x act d words o s) := by
  unfold queueMat
  split
  · rfl
  · exact produceLater_spec h hst

/-- A word of the matrix queue whose checks say go: with no lane active it only pushes; else its operation joins the queue. -/
theorem matWord_queued {i : Instr} {pre v : At → Mask → State → Verdict} (h : Issues x act w.pn w.pred w.d words refs s)
    (hgo : act ≠ 0#32 → pre x act s = .go ∧ v x act s = .go ∧ x.pending s 4 = false ∧ MatRoom x s) :
    let s' := noteLatent x act refs s
    let o := matOp w i refs x act s'
    ∃ u, matWord w i words refs pre v s = .next (finish x u) ∧
      (act = 0#32 → if words = 0 then u = s' else ProducedLater x act w.d words 0 s' u) ∧
      (act ≠ 0#32 → if words = 0 then u = s'.modCore (coreOf x.c) (fun k => { k with mq := k.mq ++ [o] })
        else ProducedLater x act w.d words s'.nextId ({ s' with nextId := s'.nextId + 1 }.modCore (coreOf x.c)
          (fun k => { k with mq := k.mq ++ [{ o with result := some s'.nextId }] })) u) := by
  intro s' o
  obtain ⟨co, hco⟩ := noteLatent_present (act := act) (refs := refs) h.course
  refine ⟨_, sourced_next h ?first ?own, fun ha => ?idle, fun ha => ?active⟩
  case first =>
    rw [h.dest, Verdict.waitIf_false, Verdict.go_and]
    split
    next => rfl
    next ha => exact (hgo ha).1
  case own =>
    split
    next => rfl
    next ha =>
      obtain ⟨-, hv, hp, hroom⟩ := hgo ha
      exact and_eq_go hv (and_eq_go (engineWait_go hp) (and_eq_go (matRoom_go hroom) rfl))
  case idle =>
    rw [if_pos ha]
    split
    · rfl
    · exact produceLater_spec hco h.slot
  case active =>
    rw [if_neg ha]
    exact queueMat_queued hco h.slot o

end

section
variable {w : FWord} {x : At} {act : Mask} {s : State}

/-- ACCST (R361): the format's scales need operand 1, and WAITFE rows that are whole granules. -/
theorem exec_accst : ∃ pre v, exec (.accst w) s = matWord w (.accst w) 1
      ([numRef w 0 false] ++ (if isNone w.sb then [] else [numRef w 1 false])) pre v s ∧
    (TileOk s x.co.team (tileOf w) (w.fld 11 1 == 1) →
      (fdScaleCode (accstDesc w x s) ≠ 0 → isNone w.sb = false) →
      (w.fld 13 1 = 1 → 4 * (fdFmt (accstDesc w x s)).width % 16 = 0) →
      LocalReady (4 * (fdFmt (accstDesc w x s)).width) 16 ((numRef w 0 false).at_ x act s) x act s →
      (rowScales (accstDesc w x s) ≠ 0 →
        LocalReady (rowScales (accstDesc w x s)) 1 ((numRef w 1 false).at_ x act s) x act s) →
      pre x act s = .go ∧ v x act s = .go) := by
  refine ⟨_, _, rfl, fun htile hscale hwhole hrows hscales => ⟨illegalIf_go ?encoded,
    and_eq_go (tileRange_go htile) (and_eq_go (alignCheck_go hrows.aligned) (and_eq_go ?granules
      (and_eq_go (lsCheck_go hrows) (and_eq_go ?scales rfl))))⟩⟩
  case encoded =>
    rw [oddTile_false htile, Bool.false_or, Bool.and_eq_false_imp, bne_iff_ne]
    exact hscale
  case granules =>
    refine if_neg fun hbad => ?_
    simp only [Bool.and_eq_true, beq_iff_eq, bne_iff_ne] at hbad
    obtain ⟨hfe, hpart⟩ := hbad
    exact hpart (hwhole hfe)
  case scales =>
    split
    next => rfl
    next hn => exact lsCheck_go (hscales hn)

/-- ACCMV (R362): both tiles of a move between tiles are checked. -/
theorem exec_accmv : ∃ pre v,
    exec (.accmv w) s = matWord w (.accmv w) (if w.fld 12 2 = 1 then (if w.fld 14 1 = 1 then 2 else 1) else 0) (accmvRefs w) pre v s ∧
    (TileOk s x.co.team (tileOf w) (w.fld 14 1 == 1) →
      (w.fld 12 2 = 0 → TileOk s x.co.team (w.fld 6 6) (w.fld 14 1 == 1)) → pre x act s = .go ∧ v x act s = .go) := by
  have hwords : (if accmvDir w = 1 then (if accmvWide w then 2 else 1) else 0) =
      if w.fld 12 2 = 1 then (if w.fld 14 1 = 1 then 2 else 1) else 0 := by
    simp only [accmvDir, accmvWide, beq_iff_eq]
  rw [← hwords]
  refine ⟨_, _, rfl, fun htile hother => ⟨illegalIf_go ?even, and_eq_go (tileRange_go htile) (and_eq_go ?range rfl)⟩⟩
  case even =>
    have hodd := oddTile_false htile
    by_cases hdir : w.fld 12 2 = 0
    · have hodd2 := oddTile_false (hother hdir)
      simp only [accmvDir, accmvWide, hdir, Bool.and_or_distrib_left, hodd, hodd2, beq_self_eq_true, Bool.true_and, Bool.or_self]
    · simp only [accmvDir, accmvWide, Bool.and_or_distrib_left, hodd, beq_eq_false_iff_ne.2 hdir, Bool.false_and, Bool.and_false,
        Bool.or_self]
  case range =>
    split
    next hdir => exact tileRange_go (hother hdir)
    next => rfl

/-- The seven words are one word, whose checks its form's conditions meet. -/
theorem exec_matForm {f : MatForm} (hf : f ∈ matForms w) : ∃ pre v,
    exec f.instr s = matWord w f.instr f.words f.refs pre v s ∧ (f.ready x act s → pre x act s = .go ∧ v x act s = .go) := by
  simp only [matForms, List.mem_cons, List.not_mem_nil, or_false] at hf
  obtain rfl | rfl | rfl | rfl | rfl | rfl | rfl := hf
  · exact ⟨_, _, rfl, fun htile => ⟨oddPair_go htile, tileRange_go htile⟩⟩
  · exact ⟨_, _, rfl, fun ⟨htile, hrows⟩ => ⟨oddPair_go htile, and_eq_go (tileRange_go htile)
      (and_eq_go (alignCheck_go fun l hl ha => (hrows l hl ha).1)
        (and_eq_go (laneTrap_lanesWhere_go fun l hl ha => (hrows l hl ha).2) rfl))⟩⟩
  · obtain ⟨pre, v, hexec, hgo⟩ := exec_accst (w := w) (x := x) (act := act) (s := s)
    exact ⟨pre, v, hexec, fun ⟨htile, hscale, hwhole, hrows, hscales⟩ => hgo htile hscale hwhole hrows hscales⟩
  · obtain ⟨pre, v, hexec, hgo⟩ := exec_accmv (w := w) (x := x) (act := act) (s := s)
    exact ⟨pre, v, hexec, fun ⟨htile, hother⟩ => hgo htile hother⟩
  · exact ⟨_, _, rfl, fun htile => ⟨rfl, tileRange_go htile⟩⟩
  · exact ⟨_, _, rfl, fun htile => ⟨oddPair_go htile, tileRange_go htile⟩⟩
  · exact ⟨_, _, rfl, fun _ => ⟨rfl, rfl⟩⟩

end

/-! ### MMA and MMAZ (R333 to R336, R342, R369) -/

section
variable {w : FWord} {x : At} {act : Mask} {s : State}

/-- The codes of a format block that are not reserved. -/
theorem mmaCodes_false {g0 : Nat} (hrsv : bitsOf g0 22 42 = 0) (ha5 : bitsOf g0 5 3 ≠ 5) (ha6 : bitsOf g0 5 3 ≠ 6)
    (hb5 : bitsOf g0 13 3 ≠ 5) (hb6 : bitsOf g0 13 3 ≠ 6) (hwin : bitsOf g0 16 3 ≠ 7) :
    (bitsOf g0 22 42 != 0 || (bitsOf g0 5 3 == 5 || bitsOf g0 5 3 == 6) || (bitsOf g0 13 3 == 5 || bitsOf g0 13 3 == 6)
      || bitsOf g0 16 3 == 7) = false := by
  rw [hrsv, beq_eq_false_iff_ne.2 ha5, beq_eq_false_iff_ne.2 ha6, beq_eq_false_iff_ne.2 hb5, beq_eq_false_iff_ne.2 hb6,
    beq_eq_false_iff_ne.2 hwin]
  rfl

/-- Scale blocks no longer than the depth, of a format that has scales. -/
theorem mmaScales_false {blk K : Nat} {d : DWord} (h : blk ≠ 0 → fdScaleCode d ≠ 0 ∧ blk ≤ K) :
    (blk != 0 && (fdScaleCode d == 0 || decide (K < blk))) = false := by
  rw [Bool.and_eq_false_imp, bne_iff_ne]
  intro hn
  obtain ⟨hscale, hle⟩ := h hn
  rw [beq_eq_false_iff_ne.2 hscale, decide_eq_false (Nat.not_lt.2 hle), Bool.or_self]

/-- R336, in the order of its table. -/
theorem mmaBlockCheck_go (h : MmaReady w x act s) : mmaBlockCheck w x act s = .go := by
  obtain ⟨hrsv, ha5, ha6, hb5, hb6, hwin⟩ := h.codes
  obtain ⟨hwa, hwb⟩ := h.formats
  obtain ⟨hblkA, hblkB⟩ := h.blocks
  obtain ⟨hsca, hscb⟩ := h.scales
  exact and_eq_go (illegalIf_go (mmaCodes_false hrsv ha5 ha6 hb5 hb6 hwin))
    (and_eq_go (illegalIf_go (Bool.or_eq_false_iff.2 ⟨Option.isNone_eq_false_iff.2 hwa, Option.isNone_eq_false_iff.2 hwb⟩))
    (and_eq_go (illegalIf_go (Bool.or_eq_false_iff.2 ⟨mmaScales_false hblkA, mmaScales_false hblkB⟩))
    (and_eq_go (oddPair_go h.tile) (and_eq_go (tileRange_go h.tile)
    (and_eq_go (trapIf_go hsca) (and_eq_go (trapIf_go hscb) rfl))))))

/-- R333, R334: each operand has its fragment, of the size that its width and the depth ask for. -/
theorem bindCheck_go (h : MmaReady w x act s) : bindCheck w x act s = .go := by
  obtain ⟨hlatA, hlatB⟩ := h.latches
  obtain ⟨fa, hfa, hsizeA⟩ := h.fragA
  obtain ⟨fb, hfb, hsizeB⟩ := h.fragB
  simp only [bindCheck, stA, stB, hlatA, hlatB, hfa, hfb, hsizeA, hsizeB, illegalIf_go, Option.isNone_some, Option.map_some,
    Option.getD_some, bne_self_eq_false, Bool.or_self, Verdict.waitIf_false, Verdict.trapIf_false, Verdict.all_cons,
    Verdict.all_nil, Verdict.go_and]

theorem mmaWord_next {i : Instr} (h : Issues x act w.pn w.pred 0xFF#8 0 (mmaRefs w) s)
    (hgo : act ≠ 0#32 → MmaReady w x act s ∧ x.pending s 4 = false ∧ MatRoom x s) :
    mmaWord w i s = .next (finish x (mmaEffect w i x act (noteLatent x act (mmaRefs w) s))) := by
  refine sourced_next h rfl ?_
  split
  next => rfl
  next ha =>
    obtain ⟨hready, hp, hroom⟩ := hgo ha
    exact and_eq_go (mmaBlockCheck_go hready) (and_eq_go (bindCheck_go hready)
      (and_eq_go (engineWait_go hp) (and_eq_go (matRoom_go hroom) rfl)))

end

/-! ### Words answered by the context's home (R356, R357, R365 to R367) -/

section
variable {x : At} {s : State}

/-- A request changes the context, and posts at most one record. -/
theorem OnlyPosted.escalate (ctx : Nat) (name pc : DWord) (f : Nat) (s : State) : OnlyPosted s (escalate ctx name pc f s).2 := by
  unfold Machine.escalate
  dsimp only
  split
  · exact OnlyPosted.modCtx ..
  · dsimp only
    split
    · exact OnlyPosted.modCtx ..
    · exact (OnlyPosted.modCtx ..).trans (OnlyPosted.post ..)

theorem OnlyPosted.fmtset (f : Nat) (d : DWord) : OnlyPosted s (fmtset x f d s).2 := by
  unfold Machine.fmtset
  dsimp only
  split
  · exact OnlyPosted.refl _
  · split
    · exact OnlyPosted.modCtx ..
    · split
      · exact OnlyPosted.modCtx ..
      · split
        · exact OnlyPosted.modCtx ..
        · split
          next t ht => exact (OnlyPosted.modCtx ..).trans (congrArg Prod.snd ht ▸ OnlyPosted.escalate ..)
          next t ht => exact (OnlyPosted.modCtx ..).trans (congrArg Prod.snd ht ▸ OnlyPosted.escalate ..)

theorem OnlyPosted.bndset (w : FWord) (w0 w1 : Nat) : OnlyPosted s (bndset w x w0 w1 s).2 := by
  unfold Machine.bndset
  dsimp only
  split
  · exact OnlyPosted.refl _
  · exact OnlyPosted.modCtx ..

end

/-- A word that the home answers: with no lane active it only pushes; else the home acts, and its answer is on its way. -/
theorem homeWordIf_answered {w : FWord} {x : At} {act : Mask} {words : Nat} {refs : List SrcRef} {s : State}
    {v : At → Mask → State → Verdict} {f : At → Mask → State → Nat × State} (h : Issues x act w.pn w.pred w.d words refs s)
    (hv : v x act s = .go) (hf : OnlyPosted (noteLatent x act refs s) (f x act (noteLatent x act refs s)).2) :
    let r := f x act (noteLatent x act refs s)
    ∃ u, homeWordIf v w words refs f s = .next (finish x u) ∧
      (act = 0#32 → ProducedLater x act w.d words 0 (noteLatent x act refs s) u) ∧
      (act ≠ 0#32 → ProducedLater x act w.d words r.2.nextId
        { r.2 with nextId := r.2.nextId + 1
                   arrivals := Tab.put r.2.arrivals r.2.nextId
                     { course := x.c, lanes := act, words := words, vals := vconst 32 r.1 } } u) := by
  obtain ⟨co, hco⟩ := noteLatent_present (act := act) (refs := refs) h.course
  refine ⟨_, sourced_next h ?_ hv, fun ha => ?idle, fun ha => ?active⟩
  · rw [h.dest, Verdict.waitIf_false]
  case idle =>
    rw [if_pos ha]
    exact produceLater_spec hco h.slot
  case active =>
    rw [if_neg ha]
    exact produceLater_spec ((State.course_of_courses hf.courses x.c).trans hco) h.slot

/-! ### ERRINJ (R369) -/

section
variable {w : FWord} {x : At} {act : Mask} {s : State}

theorem exec_errinj (h : Issues x act w.pn w.pred 0xFF#8 0 [numRef w 0 false] s) (hpriv : (x.ctx s).priv = true)
    (hgo : act ≠ 0#32 → bitsOf ((numRef w 0 false).low x act s) 16 16 = 0 ∧ w.fld 0 6 < (teamD s x.co.team).ntiles) :
    exec (.errinj w) s = .next (finish x (if act = 0#32 then noteLatent x act [numRef w 0 false] s
      else (noteLatent x act [numRef w 0 false] s).modCourse x.c
        (fun co => { co with errinj := some (w.fld 0 6, BitVec.ofNat 32 ((numRef w 0 false).low x act s)) }))) := by
  have hexec : exec (.errinj w) s = _ := sourced_next h (privilegeCheck_go hpriv) (by
    split
    next => rfl
    next ha =>
      obtain ⟨hhigh, htile⟩ := hgo ha
      exact and_eq_go (illegalIf_go (by rw [hhigh, bne_self_eq_false])) (tileRange_go (wide := false) ⟨nofun, htile⟩))
  simp only [SrcRef.low_noteLatent] at hexec
  exact hexec

end

end Sys2Proof.Machine

namespace Sys2Proof
open Sys2Proof.Machine

/-- Settles O28: the checks stand before the reports of the sources, the binding after them. -/
theorem mmaWords : Obligations.MmaWords := by
  intro w i x act s hi h s' b
  have hword : exec i s = mmaWord w i s := by
    obtain rfl | rfl := hi
    · rfl
    · rfl
  refine ⟨fun ha => ?idle, fun ha hready hp hroom => ?active⟩
  case idle => rw [hword, mmaWord_next h fun hn => absurd ha hn, mmaEffect, if_pos ha]
  case active =>
    rw [hword, mmaWord_next h fun _ => ⟨hready, hp, hroom⟩, mmaEffect, if_neg ha, ownerOfWord_noteLatent]
    rfl

/-- Settles O29: the seven words are one word with different checks. -/
theorem matrixQueueWords : Obligations.MatrixQueueWords := by
  intro w f x act s hf h hgo
  obtain ⟨pre, v, hexec, hchecks⟩ := exec_matForm (x := x) (act := act) (s := s) hf
  rw [hexec]
  refine matWord_queued h fun ha => ?_
  obtain ⟨hready, hp, hroom⟩ := hgo ha
  obtain ⟨hpre, hv⟩ := hchecks hready
  exact ⟨hpre, hv, hp, hroom⟩

/-- Settles O30: of the three, only an FMTSET that sets ESC may have to wait at the home. -/
theorem formatWords : Obligations.FormatWords := by
  intro w x act s answered a
  refine ⟨fun h hpending => ?fmtset, fun h => ?fmtget, fun h => ?bndset⟩
  case fmtset =>
    have hwait : (act != 0#32 && fdEsc (BitVec.ofNat 64 a) && requestsPending s x.c x.co) = false := by
      rw [Bool.and_eq_false_imp, Bool.and_eq_true, bne_iff_ne]
      exact fun ⟨ha, hesc⟩ => hpending ha hesc
    have hanswer := homeWordIf_answered
      (v := fun x act t => Verdict.waitIf (act != 0#32 && fdEsc (BitVec.ofNat 64 ((numRef w 0 true).low x act t))
        && requestsPending t x.c x.co))
      (f := fun x act t => fmtset x (w.fld 0 5) (BitVec.ofNat 64 ((numRef w 0 true).low x act t)) t)
      h (congrArg Verdict.waitIf hwait) (OnlyPosted.fmtset ..)
    rw [SrcRef.low_noteLatent] at hanswer
    exact hanswer
  case fmtget =>
    have hanswer := homeWordIf_answered (v := noCheck) (f := fun x _ t => (fmtget w (x.ctx t), t)) h rfl (OnlyPosted.refl _)
    rw [noteLatent_nil] at hanswer
    exact hanswer
  case bndset =>
    have hanswer := homeWordIf_answered (v := noCheck)
      (f := fun x act t => bndset w x ((numRef w 0 true).low x act t) ((numRef w 1 true).low x act t) t) h rfl (OnlyPosted.bndset ..)
    rw [SrcRef.low_noteLatent, SrcRef.low_noteLatent] at hanswer
    exact hanswer

/-- Settles O31. -/
theorem injectWords : Obligations.InjectWords := by
  intro w x act s h hpriv s' sel
  refine ⟨fun ha => ?idle, fun ha hhigh htile => ?active⟩
  case idle => rw [exec_errinj h hpriv fun hn => absurd ha hn, if_pos ha]
  case active => rw [exec_errinj h hpriv fun _ => ⟨hhigh, htile⟩, if_neg ha]

end Sys2Proof
end

section
/-! The events of the matrix engine, its rails and its norm monitor, and the sideband of a tile (R338 to R340, R346, R347, R351, R355). -/

namespace Sys2Proof.Machine

/-! ### The operation at the head of the queue (R339, R340, R346) -/

section
variable {core : Nat} {o : MatOp} {rest : List MatOp} {s : State}

/-- The operation that stands at the head once the fences that can pass have passed. -/
theorem exec_matrixOpStart (hq : ((fencesOf core s).core core).mq = o :: rest) (hf : o.fence = none) (hs : o.started = false) :
    exec (.matrixOpStart core) s = .next (startMat core o (fencesOf core s)) := by
  show execMatrixOpStart core s = _
  simp only [execMatrixOpStart, hq, hf, hs, Option.isSome_none, Bool.or_self, Bool.false_eq_true, if_false]

theorem exec_mmaAttemptComplete (hq : (s.core core).mq = o :: rest) (hs : o.started = true) (hm : o.isMma = true)
    (errs : List (Nat × Nat × Nat)) : exec (.mmaAttemptComplete core errs) s = .next (attemptMma core o errs s) := by
  show execMmaAttemptComplete core errs s = _
  simp only [execMmaAttemptComplete, hq, hs, hm, Bool.and_self, if_true]

theorem exec_matrixOpComplete (hq : (s.core core).mq = o :: rest) (hs : o.started = true) (hm : o.isMma = false) :
    exec (.matrixOpComplete core) s = .next (completeMat core o s) := by
  show execMatrixOpComplete core s = _
  simp only [execMatrixOpComplete, hq, hs, hm, Bool.not_false, Bool.and_self, if_true]

end

/-! ### The rail controller (R351) -/

section
variable {k : Core}

theorem railStep_le (h : k.vcode ≤ 34) : railStep k ≤ 34 := by
  unfold railStep
  split
  · exact le_rfl
  · split
    · exact h
    · split
      · exact (Nat.sub_le ..).trans h
      · split
        · exact Nat.min_le_left ..
        · exact h

section
variable (ht : k.vtarget ≠ 0)
include ht

/-- A held rail, and one with too few products to judge by, keeps its code. -/
theorem railStep_kept (h : k.hold = true ∨ k.perMacs < 2 ^ 30) : railStep k = k.vcode := by
  rw [railStep, if_neg ht, if_pos (by rwa [Bool.or_eq_true, decide_eq_true_eq])]

variable (hh : k.hold = false) (hn : 2 ^ 30 ≤ k.perMacs)
include hh hn

theorem railStep_judged : railStep k = if k.perCor * 2 ^ 31 < k.vtarget * k.perMacs then k.vcode - 1
    else if k.vtarget * k.perMacs < k.perCor * 2 ^ 29 then min 34 (k.vcode + 1) else k.vcode := by
  rw [railStep, if_neg ht, if_neg (by rw [hh, decide_eq_false (Nat.not_lt.2 hn)]; exact Bool.false_ne_true)]

theorem railStep_down (h : k.perCor * 2 ^ 31 < k.vtarget * k.perMacs) : railStep k = k.vcode - 1 := by
  rw [railStep_judged ht hh hn, if_pos h]

/-- The rates at which a rail goes up lie above those at which it goes down. -/
theorem railStep_up (h : k.vtarget * k.perMacs < k.perCor * 2 ^ 29) : railStep k = min 34 (k.vcode + 1) := by
  rw [railStep_judged ht hh hn, if_neg (by omega), if_pos h]

end

end

theorem exec_railEvaluate {core : Nat} {s : State} (h : (s.core core).railAt + 2 ^ 24 ≤ (s.die (core / 64)).clock) :
    exec (.railEvaluate core) s = .next (s.modCore core (fun k => { k with
      vcode := railStep k, perCor := 0, perMacs := 0, railAt := k.railAt + 2 ^ 24 })) :=
  if_neg (Nat.not_lt.2 h)

theorem OnlyCore.modCore (core : Nat) (f : Core → Core) (s : State) : OnlyCore core s (s.modCore core f) :=
  ⟨rfl, fun j hj => by rw [State.core_modCore, if_neg (Ne.symm hj)]⟩

/-! ### The sideband (R338) -/

/-- Values of which none is missing, taken out of their options. -/
theorem filterMap_id_of_isSome {l : List (Option Int)} (h : ∀ a ∈ l, a.isSome = true) :
    l.filterMap id = l.map (fun a => a.getD 0) := by
  rw [← List.filterMap_eq_map]
  refine List.filterMap_congr fun a ha => ?_
  obtain ⟨v, rfl⟩ := Option.isSome_iff_exists.1 (h a ha)
  rfl

section
variable {e : Vector Word 1024} {i : Nat} (h : ∀ j, j < 32 → (unitsOf (vget e 0#32 (32 * i + j))).isSome = true)
include h

/-- The sum of a row of finite elements. -/
theorem sideOf_rows (hi : i < 32) : vget (sideOf e).rows 0 i =
    ((List.range 32).map (fun j => (unitsOf (vget e 0#32 (32 * i + j))).getD 0)).sum := by
  have hrow : ∀ a ∈ (List.range 32).map (fun j => unitsOf (vget e 0#32 (32 * i + j))), a.isSome = true := fun a ha => by
    obtain ⟨j, hj, rfl⟩ := List.mem_map.1 ha
    exact h j (List.mem_range.1 hj)
  simp only [sideOf, vget_vof _ _ _ _ hi, filterMap_id_of_isSome hrow, List.map_map, Function.comp_def]

/-- A row of finite elements is marked as having none left out. -/
theorem sideOf_rowsOut : (sideOf e).rowsOut.getLsbD i = false := by
  have hany : ((List.range 32).map (fun j => unitsOf (vget e 0#32 (32 * i + j)))).any Option.isNone = false := by
    rw [List.any_map, List.any_eq_false]
    intro j hj
    rw [Function.comp_apply, Option.isNone_eq_false_iff.2 (h j (List.mem_range.1 hj))]
    exact Bool.false_ne_true
  rw [sideOf, getLsbD_maskOf, hany, Bool.and_false]

end

theorem exec_normMonitorCheck {n : NormCheck} {rest : List NormCheck} {s : State} (hn : (s.dev s.bank).norms = n :: rest) :
    exec .normMonitorCheck s = .next (normCheck n (s.modDev s.bank (fun d => { d with norms := rest }))) := by
  show execNormMonitorCheck s = _
  simp only [execNormMonitorCheck, hn]

end Sys2Proof.Machine

namespace Sys2Proof
open Sys2Proof.Machine

/-- Settles O54, event by event; the clauses of the rail are the branches of its step. -/
theorem matrixEvents : Obligations.MatrixEvents := by
  intro core s
  refine ⟨fun o rest hq hf => ⟨fun r hq' hs => exec_matrixOpStart hq' hf hs, exec_mmaAttemptComplete hq, exec_matrixOpComplete hq⟩,
    ?rail, fun t g => ⟨rfl, fun i hi h => ⟨sideOf_rows h hi, sideOf_rowsOut h⟩⟩, fun n rest => exec_normMonitorCheck⟩
  case rail =>
    intro k hdue hcode
    refine ⟨_, exec_railEvaluate hdue, OnlyCore.modCore .., ?_⟩
    rw [State.core_modCore, if_pos rfl]
    exact ⟨rfl, rfl, rfl, rfl, railStep_le hcode, railStep_kept, railStep_down, railStep_up⟩

end Sys2Proof
end

section
/-! The scheduler cores (R453 to R455), the debugger (R370, R458, R460), the way masks (R435), the notifications (R107, R463, R481)
and the telemetry page (R436). -/

namespace Sys2Proof.Machine

/-! ### The scheduler cores -/

section
variable {s : State} {die : Nat}

theorem exec_heartbeatWrite (v : DWord) (h : dispatching s die = true) : exec (.heartbeatWrite die v) s =
    .next (s.modDie die (fun d => { d with sched := { d.sched with beat := v, beatAt := s.aon } })) := if_pos h

/-- Where a standby waits, the loss of the active core only stops it. -/
theorem loseScheduler_standby (h : (s.die die).sched.standby = true) :
    loseScheduler die s = s.modDie die (fun d => { d with sched := { d.sched with running := false } }) := if_pos h

theorem exec_schedulerUe (h : dispatching s die = true) : exec (.schedulerUe die) s = .next (loseScheduler die s) := if_pos h

theorem exec_heartbeatTimeout (h : dispatching s die = true) (ht : (s.die die).sched.beatAt + 1000000 ≤ s.aon) :
    exec (.heartbeatTimeout die) s = .next (loseScheduler die s) := if_pos (by rw [h, decide_eq_true ht]; rfl)

/-- A take-over with no journal entry above JAPPLIED replays nothing, and its record names sequence 0 twice. -/
theorem exec_schedulerTakeover_applied (hf : (s.die die).fence = .none) (hr : (s.die die).sched.running = false)
    (hs : (s.die die).sched.standby = true) (hj : unapplied (s.die die) = []) :
    exec (.schedulerTakeover die) s = .next ((rescan (devOfDie s.mode die) (drainFifo die
      ((s.modDie die (fun y => { y with sched := { y.sched with running := true, standby := false, beatAt := s.aon } })).modDie die
        (fun y => { y with japplied := max y.japplied 0 })))).postMlog (devOfDie s.mode die)
          { code := cSchedTakeover, cls := cls4 0 0 0 0 }) := by
  have hgo : ((s.die die).fence != .none || (s.die die).sched.running || !(s.die die).sched.standby) = false := by
    rw [hf, hr, hs]; rfl
  show execSchedulerTakeover die s = _
  simp only [execSchedulerTakeover, hgo, hj]
  rfl

end

/-! ### The way masks -/

/-- A table after the same entry is put at every key of a list. -/
theorem Tab.find_foldl_put {α : Type} (a : α) (key : Nat → Nat) (l : List Nat) (t : Tab α) (k : Nat) :
    Tab.find (l.foldl (fun t i => Tab.put t (key i) a) t) k = if k ∈ l.map key then some a else Tab.find t k := by
  induction l generalizing t with
  | nil => rfl
  | cons i l ih =>
    rw [List.foldl_cons, ih, Tab.find_put, List.map_cons]
    by_cases hk : k ∈ l.map key
    · rw [if_pos hk, if_pos (List.mem_cons_of_mem _ hk)]
    · simp only [List.mem_cons, hk, or_false, if_false, eq_comm]

/-- A class's mask after it is put for every slice of a die. -/
theorem find_wayMasks {i cls : Nat} (m : BitVec 16) (t : Tab (BitVec 16)) (hi : i < 64) :
    Tab.find ((List.range 64).foldl (fun t i => Tab.put t (16 * i + cls) m) t) (16 * i + cls) = some m := by
  have hk : 16 * i + cls ∈ (List.range 64).map (fun i => 16 * i + cls) := List.mem_map.2 ⟨i, List.mem_range.2 hi, rfl⟩
  rw [Tab.find_foldl_put m (fun i => 16 * i + cls), if_pos hk]

/-! ### The debugger -/

section
variable {s : State} {c : Nat} {co : Course}

/-- The course after a halt. -/
theorem course_haltCourse (quiesce : Bool) (h : s.course c = some co) : (haltCourse c quiesce s).course c =
    some { co.hold haltedByCommand with quiesce := co.quiesce || quiesce, stepping := none } := by
  simp only [haltCourse, h, State.course_modCtx, State.course_modCourse, if_true, Option.map_some]

/-- A course that is held is halted, by the reason it was halted for first. -/
theorem Course.hold_halted (co : Course) (reason : Nat) : (co.hold reason).halted.isSome = true := by
  cases h : co.halted <;> simp [Course.hold, h]

theorem exec_debugResume (h : stepDone s c = true) : exec (.debugResume c) s =
    .next (s.modCourse c (fun y => { y with halted := none, quiesce := false, stepping := none, stepQueues := [] })) :=
  congrArg Host.Outcome.next (if_pos h)

/-- A course that a step and wait holds does not go on. -/
theorem exec_debugResume_held (h : stepDone s c = false) : exec (.debugResume c) s = .next s :=
  congrArg Host.Outcome.next (if_neg (by rw [h]; exact Bool.false_ne_true))

/-- A halted course is let go for one word. -/
theorem stepCourse_halted (kind : Nat) (hc : s.course c = some co) (hh : co.halted.isSome = true) (hd : stepDone s c = true) :
    stepCourse c kind s = s.modCourse c (fun _ => { co with stepping := some kind, stepQueues := [] }) :=
  (if_pos hd).trans (State.modCourse_congr hc (if_pos hh))

/-- A course that a step and wait holds takes no other step. -/
theorem stepCourse_held (kind : Nat) (h : stepDone s c = false) : stepCourse c kind s = s :=
  if_neg (by rw [h]; exact Bool.false_ne_true)

/-- DBGLS of a granule that is read: VALID beside the flags of the granule. -/
def granuleFlags (s : State) (core tid g : Nat) : Nat :=
  1 + (if moving s tid then 4 else 0) + (if (s.core core).lsEmpty.contains g then 0 else 8)
    + (if (s.core core).lsPoison.contains g then 16 else 0)

theorem granuleFlags_valid (core tid g : Nat) : (BitVec.ofNat 64 (granuleFlags s core tid g)).getLsbD 0 = true := by
  have hodd : granuleFlags s core tid g % 2 = 1 := by
    unfold granuleFlags
    split <;> split <;> split <;> rfl
  rw [BitVec.getLsbD_ofNat, Nat.testBit_zero, hodd]
  rfl

theorem exec_debugReadLs {t : Team} {off : Nat} (hc : s.course c = some co) (ht : s.team co.team = some t) (ho : off < 16 * t.lsSize) :
    exec (.debugReadLs c off) s = .next (s.modCore (coreOf c) (fun y => { y with
      dbgData0 := BitVec.ofNat 64 (ofBytes (Memory.readN (s.core (coreOf c)).ls (16 * (t.lsBase + off / 16)) 8))
      dbgData1 := BitVec.ofNat 64 (ofBytes (Memory.readN (s.core (coreOf c)).ls (16 * (t.lsBase + off / 16) + 8) 8))
      dbgLs := BitVec.ofNat 64 (granuleFlags s (coreOf c) co.team (t.lsBase + off / 16)) })) := by
  show execDebugReadLs c off s = _
  simp only [execDebugReadLs, hc, ht, Option.bind_some, Option.map_some, if_neg (Nat.not_le.2 ho)]
  rfl

end

/-! ### Notifications and telemetry -/

section
variable {s : State}

theorem exec_noteappRead {n : Note} {l : List Note} (h : (s.dev s.bank).noteApp = n :: l) :
    exec .noteappRead s = .next ({ s with hostRead := n.word }.modDev s.bank (fun d => { d with noteApp := l })) := by
  show execNoteappRead s = _
  simp only [execNoteappRead, h]

theorem exec_notehostRead {n : Note} {l : List Note} (h : (s.dev s.bank).noteHost = n :: l) :
    exec .notehostRead s = .next ({ s with hostRead := n.word }.modDev s.bank (fun d => { d with noteHost := l })) := by
  show execNotehostRead s = _
  simp only [execNotehostRead, h]

/-- A due page is written, and SEQ goes on; the time of the update is that of the write that makes SEQ even. -/
theorem exec_telemetryUpdate {dev asid : Nat} {x : Ctx} {t : State} (hx : Tab.find s.ctxs (65536 * dev + asid) = some x)
    (hd : telemetryDue s x = true) (hw : devWriteAs false s (65536 * dev + asid) x.telPage.toNat (telemetryWrite x s.aon) = .ok t) :
    exec (.telemetryUpdate dev asid) s = .next (t.modCtx (65536 * dev + asid) (fun y => { y with
      telSeq := y.telSeq + 1, telAt := if x.telSeq % 2 = 0 then y.telAt else s.aon })) := by
  show execTelemetryUpdate dev asid s = _
  simp only [execTelemetryUpdate, hx, hd, hw]
  rfl

end

end Sys2Proof.Machine

namespace Sys2Proof
open Sys2Proof.Machine

/-- Settles O59, event by event. -/
theorem schedulerEvents : Obligations.SchedulerEvents := by
  intro c die dev s
  refine ⟨exec_heartbeatWrite, ?lost, exec_schedulerTakeover_applied, ?ways, ?halt, exec_debugResume, ?step, ?held, ?granule,
    fun _ _ => exec_noteappRead, fun _ _ => exec_notehostRead, ?telemetry⟩
  case lost =>
    intro hd hs t
    have ht : loseScheduler die s = t := loseScheduler_standby hs
    exact ⟨ht ▸ exec_schedulerUe hd, fun hb => ht ▸ exec_heartbeatTimeout hd hb⟩
  case ways =>
    intro cls v hd _
    refine ⟨_, rfl, rfl, fun i hi => ?_⟩
    simp only [State.die_modDie_same hd, find_wayMasks _ _ hi]
  case halt =>
    intro co hc
    exact ⟨_, _, rfl, course_haltCourse false hc, Course.hold_halted .., Bool.or_false _, rfl,
      _, _, rfl, course_haltCourse true hc, Course.hold_halted .., Bool.or_true _⟩
  case step =>
    intro co hc hh hd
    exact ⟨congrArg Host.Outcome.next (stepCourse_halted 1 hc hh hd), congrArg Host.Outcome.next (stepCourse_halted 2 hc hh hd)⟩
  case held =>
    intro hd
    exact ⟨exec_debugResume_held hd, congrArg Host.Outcome.next (stepCourse_held 1 hd),
      congrArg Host.Outcome.next (stepCourse_held 2 hd)⟩
  case granule =>
    intro co t off hc ht ho
    refine ⟨_, exec_debugReadLs hc ht ho, OnlyCore.modCore .., ?_⟩
    rw [State.core_modCore, if_pos rfl]
    exact ⟨rfl, rfl, granuleFlags_valid ..⟩
  case telemetry =>
    intro asid x t hx hd
    refine ⟨fun he hw => ?_, fun ho hw => ?_⟩
    · rw [exec_telemetryUpdate hx hd ((congrArg _ (if_pos he)).trans hw)]
      simp only [he, if_true]
    · have hne : ¬ x.telSeq % 2 = 0 := by omega
      rw [exec_telemetryUpdate hx hd ((congrArg _ (if_neg hne)).trans hw)]
      simp only [hne, if_false]

end Sys2Proof
end

section
/-! The words that wait and the words of barriers, EMPTY and WAITF (R55, R395 to R408). -/

namespace Sys2Proof.Machine

/-! ### YIELD and SLEEP (R397, R398) -/

section
variable {w : FWord} {x : At} {act : Mask} {s : State}

theorem exec_yield (h : Issues x act w.pn w.pred 0xFF#8 0 [] s) : exec (.yield w) s = .next (if act = 0#32 then finish x s
    else finishWaiting x (yieldWait w x (s.clockOf x.c)) (s.clockOf x.c + 2) s) := by
  refine (issueWord_go h.here h.unheld).trans ?_
  simp only [← h.lanes]

theorem yieldWait_eq (now : Nat) : yieldWait w x now =
    if w.fld 0 1 = 1 ∧ x.co.liveStrands.length > 1 then .yield (now + 65) true else .yield (now + 2) false := by
  simp only [yieldWait, Bool.and_eq_true, beq_iff_eq, decide_eq_true_eq]

theorem exec_sleep (h : Issues x act w.pn w.pred 0xFF#8 0 [numRef w 0 false] s) : exec (.sleep w) s =
    .next (if act = 0#32 ∨ (numRef w 0 false).low x act s = 0 then finish x (noteLatent x act [numRef w 0 false] s)
      else finishWaiting x (.sleep (s.aon + (numRef w 0 false).low x act s) (w.fld 0 1 == 1)) (s.clockOf x.c)
        (noteLatent x act [numRef w 0 false] s)) := by
  refine (issueWord_go h.here ?_).trans ?_
  · simp only [← h.lanes, h.go, framed_go, h.unheld]
  · simp only [← h.lanes, Bool.or_eq_true, decide_eq_true_eq]

end

/-! ### Barrier words (R399 to R405) -/

section
variable {w : FWord} {x : At} {act : Mask} {s : State}

theorem barRange_go (h : barValid w x s = true) : barRange w x s = .go := by
  rw [barRange, h, Bool.not_true, Verdict.trapIf_false]

/-- The release that the last mark of a course makes: no failed remote write is to be reported, and its count has room (R139,
R147, R234). -/
theorem releaseLimit_of_room (hsound : x.co.remoteFail = none) (hroom : x.co.relCount < 2 ^ 48 - 1) : releaseLimit x = .go := by
  simp only [releaseLimit, Course.releaseTrap, hsound, Nat.not_le.2 hroom, if_false]

/-- BAR and BARA may mark their strand (R401). -/
theorem barVerdict_go (hv : barValid w x s = true) (hd : x.sd.dstack = []) (hp : pendingAt s x.c (barRefOf w) = false)
    (hr : bringsArrival x (barRefOf w) = true → x.co.remoteFail = none ∧ x.co.relCount < 2 ^ 48 - 1) : barVerdict w x s = .go := by
  have hrelease : (if bringsArrival x (barRefOf w) then releaseLimit x else .go) = .go := by
    split
    next hb => exact releaseLimit_of_room (hr hb).1 (hr hb).2
    next => rfl
  simp only [barVerdict, barRange_go hv, hd, hp, hrelease, List.isEmpty_nil, Bool.not_true, Verdict.trapIf_false,
    Verdict.waitIf_false, Verdict.all_cons, Verdict.all_nil, Verdict.go_and]

variable {d : BitVec 8} {words : Nat} {refs : List SrcRef}

theorem exec_bar_idle (h : Issues x act w.pn w.pred d words refs s) (ha : act = 0#32) : exec (.bar w) s = .next (finish x s) := by
  subst ha
  refine (issueWord_go h.here ?_).trans ?_
  · simp only [← h.lanes, h.unheld, if_true, Verdict.go_and]
  · simp only [← h.lanes, if_true]

/-- BAR of a strand that is marked nowhere. -/
theorem exec_bar_mark (h : Issues x act w.pn w.pred d words refs s) (ha : act ≠ 0#32) (hb : x.sd.inBar = none)
    (hv : barVerdict w x s = .go) : exec (.bar w) s = .next (markAt w true x s) := by
  refine (issueWord_go h.here ?_).trans ?_
  · simp only [← h.lanes, h.unheld, ha, if_false, hb, hv, Verdict.go_and]
  · simp only [← h.lanes, ha, if_false, hb]

/-- BAR of a strand whose course has arrived at a barrier where no arrival of it is pending now (R405). -/
theorem exec_bar_leave {b : BarRef} (h : Issues x act w.pn w.pred d words refs s) (ha : act ≠ 0#32) (hb : x.sd.inBar = some b)
    (hp : pendingAt s x.c b = false) : exec (.bar w) s =
      .next (finish x ((s.acquire x.c (w.fld 0 3)).modStrand x.c x.st (fun y => { y with inBar := none }))) := by
  refine (issueWord_go h.here ?_).trans ?_
  · simp only [← h.lanes, h.unheld, ha, if_false, hb, hp, Verdict.waitIf_false, Verdict.go_and]
  · simp only [← h.lanes, ha, if_false, hb]

theorem exec_bara (h : Issues x act w.pn w.pred d words refs s) (hv : act ≠ 0#32 → barVerdict w x s = .go) :
    exec (.bara w) s = .next (if act = 0#32 then finish x s else markAt w false x s) := by
  refine (issueWord_go h.here ?_).trans ?_
  · simp only [← h.lanes, h.unheld, Verdict.go_and, ite_eq_left_iff]
    exact hv
  · simp only [← h.lanes]

theorem exec_barw (h : Issues x act w.pn w.pred d words refs s)
    (hv : act ≠ 0#32 → barValid w x s = true ∧ pendingAt s x.c (barRefOf w) = false) :
    exec (.barw w) s = .next (finish x (if act = 0#32 then s else s.acquire x.c (w.fld 0 3))) := by
  refine plain_next h (ite_eq_left_iff.2 fun ha => ?_)
  rw [barRange_go (hv ha).1, (hv ha).2, Verdict.waitIf_false, Verdict.go_and]

/-- BARINIT: privilege is asked for at pod scope, and the count must be 1 to 65535 (R403). -/
theorem exec_barinit (h : Issues x act w.pn w.pred 0xFF#8 0 [numRef w 0 false] s) (hpriv : w.fld 0 3 = 5 → (x.ctx s).priv = true)
    (hv : act ≠ 0#32 → 1 ≤ (numRef w 0 false).low x act s ∧ (numRef w 0 false).low x act s ≤ 65535 ∧ barValid w x s = true) :
    exec (.barinit w) s = .next (finish x (if act = 0#32 then noteLatent x act [numRef w 0 false] s
      else setBar (noteLatent x act [numRef w 0 false] s) x.c (barRefOf w) (initBarrier ((numRef w 0 false).low x act s)
        (barOf (noteLatent x act [numRef w 0 false] s) x.c (barRefOf w))))) := by
  have hpre : (w.fld 0 3 == 5 && !(x.ctx s).priv) = false := by
    by_cases hpod : w.fld 0 3 = 5
    · rw [hpriv hpod, Bool.not_true, Bool.and_false]
    · rw [beq_eq_false_iff_ne.2 hpod, Bool.false_and]
  refine (sourced_next h ?_ (ite_eq_left_iff.2 fun ha => ?_)).trans ?_
  · simp only [hpre, Verdict.trapIf_false, ite_self]
  · obtain ⟨hlow, hhigh, hvalid⟩ := hv ha
    have hcount : (decide ((numRef w 0 false).low x act s = 0) || decide (65535 < (numRef w 0 false).low x act s)) = false := by
      rw [decide_eq_false (by omega), decide_eq_false (by omega), Bool.or_false]
    simp only [hcount, barRange_go hvalid, Verdict.trapIf_false, Verdict.all_cons, Verdict.all_nil, Verdict.go_and]
  · rw [SrcRef.low_noteLatent]

end

/-! ### EMPTY (R55, R406) -/

theorem Course.vAt_mapV (co : Course) (k : Nat) (m : Mask) (f : Entry → Entry) {n l : Nat} (hn : n < 64) (hl : l < 32) :
    (co.mapV k m f).vAt n l = if k = n ∧ m.getLsbD l = true then f (co.vAt n l) else co.vAt n l := by
  simp only [Course.vAt, Course.mapV]
  by_cases h : k = n
  · subst h
    rw [vget_vset_same _ _ _ _ hn, vget_vmapIdx _ _ _ {} _ hl]
    simp only [true_and]
  · rw [vget_vset_ne _ _ _ _ _ h, if_neg fun hc => h hc.1]

/-- Registers k, k+1, … changed one after another: each once. -/
theorem Course.vAt_mapVs (co : Course) (k words : Nat) (m : Mask) (f : Entry → Entry) {n l : Nat} (hn : n < 64) (hl : l < 32) :
    ((List.range words).foldl (fun acc i => acc.mapV (k + i) m f) co).vAt n l =
      if k ≤ n ∧ n < k + words ∧ m.getLsbD l = true then f (co.vAt n l) else co.vAt n l := by
  induction words with
  | zero => rw [if_neg (by omega)]; rfl
  | succ j ih =>
    rw [List.range_succ, List.foldl_append, List.foldl_cons, List.foldl_nil, Course.vAt_mapV _ _ _ _ hn hl, ih]
    by_cases hj : k + j = n
    · subst hj
      simp
    · simp only [hj, false_and, if_false, show n < k + (j + 1) ↔ n < k + j ∨ k + j = n by omega, or_false]

/-- The g copies k, k+1, … of a strand changed one after another: each once. -/
theorem Strand.g_mapGs (sd : Strand) (k words : Nat) (f : GReg → GReg) {n : Nat} (hn : n < 32) :
    vget ((List.range words).foldl (fun acc i => acc.writeG (k + i) (f (vget acc.g {} (k + i)))) sd).g {} n =
      if k ≤ n ∧ n < k + words then f (vget sd.g {} n) else vget sd.g {} n := by
  induction words with
  | zero => rw [if_neg (by omega)]; rfl
  | succ j ih =>
    rw [List.range_succ, List.foldl_append, List.foldl_cons, List.foldl_nil, Strand.writeG]
    by_cases hj : k + j = n
    · subst hj
      rw [vget_vset_same _ _ _ _ hn, ih, if_neg (by omega), if_pos (by omega)]
    · rw [vget_vset_ne _ _ _ _ _ hj, ih]
      simp only [show n < k + (j + 1) ↔ n < k + j ∨ k + j = n by omega, hj, or_false]

section
variable {w : FWord} {x : At} {act : Mask} {s : State}

theorem exec_empty (h : Issues x act w.pn w.pred w.d (emptyCount w) [] s) (hp : act ≠ 0#32 → emptyPending w x act = false) :
    exec (.empty w) s = .next (finish x (emptyEffect w x act s)) := by
  refine plain_next h ?_
  by_cases ha : act = 0#32
  · subst ha
    rfl
  · rw [hp ha, Bool.and_false, Verdict.waitIf_false]

theorem emptyEffect_onlyCourse : OnlyCourse x.c s (emptyEffect w x act s) := by
  unfold emptyEffect
  split
  · exact OnlyCourse.refl ..
  · split
    · exact OnlyCourse.modStrand ..
    · exact OnlyCourse.modCourse ..

/-- The v registers of the range become empty in the active lanes. -/
theorem emptyEffect_v {co : Course} (hco : s.course x.c = some co) (hd : isV w.d = true) {n l : Nat} (hn : n < 64) (hl : l < 32) :
    ((emptyEffect w x act s).courseD x.c).vAt n l =
      if w.d.toNat ≤ n + 0x40 ∧ n + 0x40 < w.d.toNat + emptyCount w ∧ act.getLsbD l = true then { co.vAt n l with full := false }
      else co.vAt n l := by
  obtain ⟨hlow, -⟩ : 0x40 ≤ w.d.toNat ∧ w.d.toNat < 0x80 := by simpa [isV] using hd
  have hg : isG w.d = false := by simp [isG, Nat.not_lt.2 hlow]
  by_cases ha : act = 0#32
  · subst ha
    simp only [emptyEffect, if_true, State.courseD_eq hco, BitVec.getLsbD_zero, Bool.false_eq_true, and_false, if_false]
  · simp only [emptyEffect, ha, if_false, hg, Bool.false_eq_true, State.courseD_modCourse _ hco, Course.vAt_mapVs _ _ _ _ _ hn hl,
      show w.d.toNat - 0x40 ≤ n ↔ w.d.toNat ≤ n + 0x40 by omega,
      show n < w.d.toNat - 0x40 + emptyCount w ↔ n + 0x40 < w.d.toNat + emptyCount w by omega]

/-- The strand's copies of the g registers of the range become empty where any lane is active. -/
theorem emptyEffect_g {co : Course} (hco : s.course x.c = some co) (hst : x.st < 4) (hd : isG w.d = true) {n : Nat} (hn : n < 32) :
    vget (((emptyEffect w x act s).courseD x.c).strand x.st).g {} n =
      if w.d.toNat ≤ n + 0x20 ∧ n + 0x20 < w.d.toNat + emptyCount w ∧ act ≠ 0#32 then
        { vget (co.strand x.st).g {} n with full := false }
      else vget (co.strand x.st).g {} n := by
  obtain ⟨hlow, -⟩ : 0x20 ≤ w.d.toNat ∧ w.d.toNat < 0x40 := by simpa [isG] using hd
  by_cases ha : act = 0#32
  · simp only [emptyEffect, ha, if_true, State.courseD_eq hco, ne_eq, not_true, and_false, if_false]
  · simp only [emptyEffect, ha, if_false, hd, if_true, State.courseD_modStrand _ hco, Course.strand_modStrand _ _ _ _ hst,
      Strand.g_mapGs _ _ _ (fun r => { r with full := false }) hn, ne_eq, not_false_iff, and_true,
      show w.d.toNat - 0x20 ≤ n ↔ w.d.toNat ≤ n + 0x20 by omega,
      show n < w.d.toNat - 0x20 + emptyCount w ↔ n + 0x20 < w.d.toNat + emptyCount w by omega]

/-! ### WAITF (R407, R408) -/

theorem exec_waitf (h : Issues x act w.pn w.pred 0xFF#8 0 [numRef w 0 false] s) (hv : waitfCheck w x act s = .go) :
    exec (.waitf w) s = .next (finish x (waitfEffect w x act (noteLatent x act [numRef w 0 false] s))) :=
  sourced_next h rfl hv

theorem waitfCheck_go (h : isGran w = true → LocalReady 16 16 ((numRef w 0 false).at_ x act s) x act s ∧
    granulesFull x act s ((numRef w 0 false).at_ x act s) = true) : waitfCheck w x act s = .go := by
  unfold waitfCheck
  split
  next hg =>
    obtain ⟨hready, hfull⟩ := h hg
    simp only [alignCheck_go hready.aligned, lsCheck_go hready, hfull, Bool.not_true, Verdict.waitIf_false, Verdict.all_cons,
      Verdict.all_nil, Verdict.go_and]
  next => rfl

end

end Sys2Proof.Machine

namespace Sys2Proof
open Sys2Proof.Machine

/-- Settles O11. -/
theorem waitingWords : Obligations.WaitingWords := by
  intro w x act s now
  refine ⟨fun h => ⟨fun ha => (exec_yield h).trans ?_, fun ha => (exec_yield h).trans ?_⟩,
    fun h => ⟨fun hd => (exec_sleep h).trans ?_, fun ha hd => (exec_sleep h).trans ?_⟩⟩
  · rw [if_pos ha]
  · rw [if_neg ha, yieldWait_eq]
    rfl
  · rw [if_pos hd]
  · rw [if_neg (not_or.2 ⟨ha, hd⟩)]
    rfl

/-- Settles O12, word by word. -/
theorem barrierWords : Obligations.BarrierWords := by
  intro w x act s b
  refine ⟨fun h => ⟨fun ha => ?idle, fun ha hv hp => ⟨?barw, fun hd hr => ?mark⟩, fun a ha hb hp => exec_bar_leave h ha hb hp⟩,
    fun h hpriv => ⟨fun ha => ?initIdle, fun ha hlow hhigh hv => ?init⟩⟩
  case idle =>
    have hbara := (exec_bara h fun hc => absurd ha hc).trans (congrArg _ (if_pos ha))
    have hbarw := (exec_barw h fun hc => absurd ha hc).trans (congrArg (fun t => Host.Outcome.next (finish x t)) (if_pos ha))
    simpa only [List.forall_mem_cons, List.not_mem_nil, false_implies, implies_true, and_true] using
      ⟨exec_bar_idle h ha, hbara, hbarw⟩
  case barw => rw [exec_barw h fun _ => ⟨hv, hp⟩, if_neg ha]
  case mark =>
    have hgo := barVerdict_go hv hd hp hr
    refine ⟨fun hb => exec_bar_mark h ha hb hgo, (exec_bara h fun _ => hgo).trans ?_⟩
    rw [if_neg ha]
    rfl
  case initIdle => rw [exec_barinit h hpriv fun hc => absurd ha hc, if_pos ha]
  case init =>
    rw [exec_barinit h hpriv fun _ => ⟨hlow, hhigh, hv⟩, if_neg ha]
    rfl

/-- Settles O13: EMPTY changes each register of its range once, and the checks of WAITF say go. -/
theorem emptyAndWaitfWords : Obligations.EmptyAndWaitfWords := by
  refine ⟨fun w x act s => fun h hp => ⟨_, exec_empty h hp, emptyEffect_onlyCourse, fun hd i l hi hl => ?v, fun hd i hi => ?g⟩,
    fun w x act s h => ⟨fun hg => ?register, fun hg hready hfull => ?granules⟩⟩
  case v =>
    rw [emptyEffect_v h.course hd hi hl, State.courseD_eq h.course]
    rfl
  case g =>
    obtain ⟨-, -, hsd, -⟩ := State.at_some h.here
    rw [emptyEffect_g h.course h.slot hd hi, ← hsd]
    rfl
  case register =>
    have hg : isGran w ≠ true := mt beq_iff_eq.1 hg
    rw [exec_waitf h (waitfCheck_go fun hc => absurd hc hg), waitfEffect, if_neg hg]
  case granules =>
    have hg : isGran w = true := beq_iff_eq.2 hg
    rw [exec_waitf h (waitfCheck_go fun _ => ⟨hready, hfull⟩), waitfEffect, if_pos hg]
    simp only [SrcRef.at_noteLatent, lsAt_noteLatent] <;> rfl

end Sys2Proof
end

section
/-! The 64 bytes of an error record and of a journal entry (R380, R440).

A field of a concatenation is a field of the part that holds it; a field of a number's bytes is a range of its bits. -/

namespace Sys2Proof.Machine

/-! ### Fields of bytes (R4) -/

theorem drop_toBytes (k n x : Nat) : (toBytes n x).drop k = toBytes (n - k) (x / 2 ^ (8 * k)) := by
  induction k generalizing n x with
  | zero => rw [List.drop_zero, Nat.sub_zero, Nat.mul_zero, pow_zero, Nat.div_one]
  | succ k ih =>
    cases n with
    | zero => rw [Nat.zero_sub, toBytes, toBytes, List.drop_nil]
    | succ n =>
      rw [toBytes, List.drop_succ_cons, ih, Nat.div_div_eq_div_mul, Nat.add_sub_add_right, Nat.mul_succ, pow_add, mul_comm]
      rfl

theorem take_toBytes {k n : Nat} (h : k ≤ n) (x : Nat) : (toBytes n x).take k = toBytes k x := by
  induction k generalizing n x with
  | zero => rfl
  | succ k ih =>
    obtain ⟨n, rfl⟩ : ∃ m, n = m + 1 := ⟨n - 1, by omega⟩
    rw [toBytes, toBytes, List.take_succ_cons, ih (by omega)]

theorem ofBytes_toBytes (n x : Nat) : ofBytes (toBytes n x) = x % 2 ^ (8 * n) := by
  induction n generalizing x with
  | zero => rw [Nat.mul_zero, pow_zero, Nat.mod_one]; rfl
  | succ n ih =>
    have hmod := Nat.mod_mul (a := 2 ^ 8) (b := 2 ^ (8 * n)) (x := x)
    rw [toBytes, ofBytes, ih, BitVec.toNat_ofNat, Nat.mul_succ, pow_add, mul_comm (2 ^ (8 * n)), hmod]
    rfl

theorem fieldOf_toBytes {off k n : Nat} (h : off + k ≤ n) (x : Nat) :
    fieldOf (toBytes n x) off k = x / 2 ^ (8 * off) % 2 ^ (8 * k) := by
  rw [fieldOf, drop_toBytes, take_toBytes (by omega), ofBytes_toBytes]

/-- All bytes of a number. -/
theorem fieldOf_toBytes_all (n x : Nat) : fieldOf (toBytes n x) 0 n = x % 2 ^ (8 * n) := by
  rw [fieldOf_toBytes (Nat.zero_add n).le, Nat.mul_zero, pow_zero, Nat.div_one]

section
variable {a b : List Byte} {off k : Nat}

theorem fieldOf_append_left (h : off + k ≤ a.length) : fieldOf (a ++ b) off k = fieldOf a off k := by
  rw [fieldOf, List.drop_append_of_le_length (by omega), List.take_append_of_le_length (by rw [List.length_drop]; omega), fieldOf]

theorem fieldOf_append_right (h : a.length ≤ off) : fieldOf (a ++ b) off k = fieldOf b (off - a.length) k := by
  rw [fieldOf, List.drop_append, List.drop_eq_nil_of_le h, List.nil_append, fieldOf]

end

/-! ### The CRC-32C -/

theorem crcByte_lt {c : Nat} (n : Nat) (h : c < 2 ^ 32) : crcByte n c < 2 ^ 32 := by
  induction n generalizing c with
  | zero => exact h
  | succ n ih =>
    refine ih ?_
    split
    · exact Nat.xor_lt_two_pow (by omega) (by decide)
    · omega

theorem foldl_crcByte_lt (l : List Byte) {c : Nat} (h : c < 2 ^ 32) :
    l.foldl (fun c b => crcByte 8 (c ^^^ b.toNat)) c < 2 ^ 32 := by
  induction l generalizing c with
  | nil => exact h
  | cons b t ih => exact ih (crcByte_lt 8 (Nat.xor_lt_two_pow h (b.isLt.trans (by decide))))

theorem crc32c_lt (l : List Byte) : crc32c l < 2 ^ 32 :=
  Nat.xor_lt_two_pow (foldl_crcByte_lt l (by decide)) (by decide)

/-! ### Records (R440) -/

/-- Bytes 16 to 19 of a record: its code with STOP, REPLAY and LOSS. -/
def Rec.codeWord (r : Rec) (loss : Bool) : Nat :=
  r.code % 2 ^ 16 + (if r.stop then 2 ^ 16 else 0) + (if r.replay then 2 ^ 17 else 0) + (if loss then 2 ^ 18 else 0)

/-- The bytes of a record before its check field. -/
def Rec.head (r : Rec) (aon asid seq : Nat) (loss : Bool) : List Byte :=
  toBytes 8 r.name.toNat ++ toBytes 8 r.pc.toNat ++ toBytes 4 (r.codeWord loss) ++ toBytes 4 r.skid ++ toBytes 8 r.ia ++
    toBytes 8 aon ++ toBytes 16 r.cls ++ toBytes 4 (asid % 2 ^ 16) ++ toBytes 2 seq

section
variable (r : Rec) (aon asid seq : Nat) (loss : Bool)

theorem Rec.bytes_eq : r.bytes aon asid seq loss = r.head aon asid seq loss ++ toBytes 2 (crc32c (r.head aon asid seq loss)) := rfl

theorem Rec.codeWord_low : r.codeWord loss % 2 ^ 16 = r.code % 2 ^ 16 := by
  unfold Rec.codeWord
  split_ifs <;> omega

theorem Rec.codeWord_high : r.codeWord loss / 2 ^ 16 % 2 ^ 16 =
    (if r.stop then 1 else 0) + (if r.replay then 2 else 0) + (if loss then 4 else 0) := by
  unfold Rec.codeWord
  split_ifs <;> omega

theorem Rec.head_length : (r.head aon asid seq loss).length = 62 := by simp [Rec.head, toBytes_length]

theorem Rec.bytes_length : (r.bytes aon asid seq loss).length = 64 := by simp [Rec.bytes_eq, Rec.head_length, toBytes_length]

theorem Rec.bytes_take : (r.bytes aon asid seq loss).take 62 = r.head aon asid seq loss := by
  rw [Rec.bytes_eq]
  exact List.take_left' (Rec.head_length ..)

theorem Rec.fieldOf_bytes {off k : Nat} (h : off + k ≤ 62) :
    fieldOf (r.bytes aon asid seq loss) off k = fieldOf (r.head aon asid seq loss) off k := by
  rw [Rec.bytes_eq, fieldOf_append_left (by rw [Rec.head_length]; exact h)]

/-- The fields of a record stand where R440 puts them. -/
theorem Rec.bytes_fields : let f := fieldOf (r.bytes aon asid seq loss)
    f 0 8 = r.name.toNat ∧ f 8 8 = r.pc.toNat ∧ f 16 2 = r.codeWord loss % 2 ^ 16 ∧ f 18 2 = r.codeWord loss / 2 ^ 16 % 2 ^ 16 ∧
    f 20 4 = r.skid % 2 ^ 32 ∧ f 24 8 = r.ia % 2 ^ 64 ∧ f 32 8 = aon % 2 ^ 64 ∧ f 40 16 = r.cls % 2 ^ 128 ∧
    f 56 4 = asid % 2 ^ 16 ∧ f 60 2 = seq % 2 ^ 16 := by
  have hname := r.name.isLt
  have hpc := r.pc.isLt
  have hasid : asid % 2 ^ 16 < 2 ^ 32 := by omega
  simp only [Rec.fieldOf_bytes, Rec.head, fieldOf_append_left, fieldOf_append_right, fieldOf_toBytes, toBytes_length,
    List.length_append, Nat.reduceAdd, Nat.reduceLeDiff, Nat.reduceSub, le_refl, Nat.mul_zero, Nat.reduceMul, pow_zero, Nat.div_one,
    Nat.mod_eq_of_lt hname, Nat.mod_eq_of_lt hpc, Nat.mod_eq_of_lt hasid, and_self]

theorem Rec.check_field : fieldOf (r.bytes aon asid seq loss) 62 2 = crc32c ((r.bytes aon asid seq loss).take 62) % 2 ^ 16 := by
  rw [Rec.bytes_take, Rec.bytes_eq, fieldOf_append_right (Rec.head_length ..).le, Rec.head_length, Nat.sub_self, fieldOf_toBytes_all]

end

/-! ### Journal entries (R380) -/

section
variable {e : JEntry}

theorem JEntry.fieldOf_bytes {off k : Nat} (h : off + k ≤ 12) : fieldOf e.bytes off k = fieldOf e.head off k := by
  rw [JEntry.bytes, List.append_assoc, fieldOf_append_left (by rw [JEntry.head_length]; exact h)]

/-- The fields of an entry, where they fit their places. -/
theorem JEntry.bytes_fields (hs : e.seq < 2 ^ 64) (hk : e.kind < 256) (hc : e.core < 256) (hi : e.index < 65536) :
    let f := fieldOf e.bytes
    f 0 8 = e.seq ∧ f 8 1 = e.kind ∧ f 9 1 = e.core ∧ f 10 2 = e.index := by
  simp only [JEntry.fieldOf_bytes, JEntry.head, fieldOf_append_left, fieldOf_append_right, fieldOf_toBytes, toBytes_length,
    List.length_append, Nat.reduceAdd, Nat.reduceLeDiff, Nat.reduceSub, le_refl, Nat.mul_zero, Nat.reduceMul, pow_zero, Nat.div_one]
  exact ⟨Nat.mod_eq_of_lt hs, Nat.mod_eq_of_lt hk, Nat.mod_eq_of_lt hc, Nat.mod_eq_of_lt hi⟩

theorem JEntry.bytes_take : e.bytes.take 12 = e.head := by
  rw [JEntry.bytes, List.append_assoc, List.take_left' e.head_length]

theorem JEntry.bytes_drop : e.bytes.drop 16 = e.tail :=
  List.drop_left' (by rw [List.length_append, JEntry.head_length, toBytes_length])

/-- The check field covers the entry but for its own bytes. -/
theorem JEntry.check_field : fieldOf e.bytes 12 4 = crc32c (e.bytes.take 12 ++ e.bytes.drop 16) := by
  rw [JEntry.bytes_take, JEntry.bytes_drop, JEntry.bytes, List.append_assoc, fieldOf_append_right e.head_length.le, JEntry.head_length,
    Nat.sub_self, fieldOf_append_left (by rw [toBytes_length]), fieldOf_toBytes_all, Nat.mod_eq_of_lt (crc32c_lt _)]

theorem JEntry.bytes_payload (hp : e.payload.length = 32) : (e.bytes.drop 16).take 32 = e.payload := by
  rw [JEntry.bytes_drop, JEntry.tail, List.take_left' hp, List.take_left' hp]

theorem JEntry.zero_field : fieldOf e.bytes 48 16 = 0 := by
  have hlen : ((e.payload ++ List.replicate 32 0#8).take 32).length = 32 := by simp
  have hdrop : e.bytes.drop 48 = toBytes 16 0 := by
    rw [show 48 = 16 + 32 from rfl, ← List.drop_drop, JEntry.bytes_drop, JEntry.tail, List.drop_left' hlen]
  rw [fieldOf, hdrop, take_toBytes le_rfl, ofBytes_toBytes, Nat.zero_mod]

/-- An entry whose fields fit their places is read back as it was written. -/
theorem JEntry.ofBytes_bytes (hs : e.seq < 2 ^ 64) (hk : e.kind < 256) (hc : e.core < 256) (hi : e.index < 65536)
    (hp : e.payload.length = 32) : JEntry.ofBytes e.bytes = some e := by
  obtain ⟨hseq, hkind, hcore, hindex⟩ := JEntry.bytes_fields hs hk hc hi
  refine (if_pos (beq_iff_eq.2 JEntry.check_field)).trans (congrArg some ?_)
  show JEntry.mk (fieldOf e.bytes 0 8) (fieldOf e.bytes 8 1) (fieldOf e.bytes 9 1) (fieldOf e.bytes 10 2) _ = e
  rw [hseq, hkind, hcore, hindex, JEntry.bytes_payload hp]

end

end Sys2Proof.Machine

namespace Sys2Proof
open Sys2Proof.Machine

/-- Settles O48: each field is read off the part of the bytes that holds it. -/
theorem recordLayout : Obligations.RecordLayout := by
  intro r aon asid seq loss
  obtain ⟨hname, hpc, hcode, hflags, hskid, hia, haon, hcls, hasid, hseq⟩ := r.bytes_fields aon asid seq loss
  refine ⟨r.bytes_length .., hname, hpc, hcode.trans (r.codeWord_low loss), hflags.trans (r.codeWord_high loss), hskid, hia, haon, hcls,
    hasid, hseq, r.check_field .., fun e => ⟨e.bytes_length, fun hs hk hc hi hp => ?_⟩⟩
  obtain ⟨hseq, hkind, hcore, hindex⟩ := JEntry.bytes_fields hs hk hc hi
  exact ⟨hseq, hkind, hcore, hindex, JEntry.check_field, JEntry.bytes_payload hp, JEntry.zero_field,
    JEntry.ofBytes_bytes hs hk hc hi hp⟩

end Sys2Proof
end
